-- ==== Sys2Proof/Word.lean ====
section
/-!
DEFINITION. The words of the Kilzaxis KZX-960: widths only (R5, R6, R11, R81, R186).
-/
namespace Sys2Proof

/-- A 32-bit register (R81). -/
abbrev Word := BitVec 32
/-- A 64-bit value or global virtual address (R25). -/
abbrev DWord := BitVec 64
abbrev Byte := BitVec 8
/-- An instruction word (R21). -/
abbrev InstrWord := BitVec 96
/-- A 64-byte fetch line, byte 0 in bits [7:0] (R11). -/
abbrev FetchLine := BitVec 512
/-- A 128-byte line of the L1 and the L2, byte 0 in bits [7:0] (R186, R294). -/
abbrev Line := BitVec 1024
/-- A signature or a line's side-band (R289, R291). -/
abbrev Sig := BitVec 512

end Sys2Proof
end

