-- ==== Sys2Proof/Syntax.lean ====
section
/-!
DEFINITION. The instructions and events of the table of operations (spec/opcode_table.json), one constructor a row, as syntax.
-/
namespace Sys2Proof

/-- The type codes of R27, in code order. -/
inductive Ty
  | u32 | s32 | u16 | s16 | u8 | s8 | u64 | s64 | f32 | bf16 | f16 | t1 | t5 | t11 | bx8 | b32
  deriving DecidableEq, Repr

def Ty.all : List Ty :=
  [.u32, .s32, .u16, .s16, .u8, .s8, .u64, .s64, .f32, .bf16, .f16, .t1, .t5, .t11, .bx8, .b32]

/-- The specials of R24, in code order from 0xC0. -/
inductive Special
  | zero | tid | gid | gslot | gsize | core | grove | die | world | devno | ccnt | ccnth | lane | quota | slice | part
  deriving DecidableEq, Repr

def Special.all : List Special :=
  [.zero, .tid, .gid, .gslot, .gsize, .core, .grove, .die, .world, .devno, .ccnt, .ccnth, .lane, .quota, .slice, .part]

/-- A source specifier (R23): x register, y register, special, or the immediate field. -/
inductive Src
  | x (n : BitVec 7) | y (n : BitVec 6) | sp (s : Special) | imm
  deriving DecidableEq, Repr

/-- A destination specifier (R23, R24): the only special is `zero`. -/
inductive Dst
  | x (n : BitVec 7) | y (n : BitVec 6) | zero
  deriving DecidableEq, Repr

/-- A predicate k0 to k7 (R26). -/
abbrev Pred := BitVec 3

/-- What every instruction word carries: the guard (R29) and the immediate field (R30). -/
structure Hdr where
  guard : Pred := 0
  inv   : Bool := false
  imm   : Word := 0
  deriving DecidableEq, Repr

/-- Rounding modes (R56), in code order. -/
inductive Rm | rne | rz | ru | rd
  deriving DecidableEq, Repr
def Rm.all : List Rm := [.rne, .rz, .ru, .rd]

/-- Orderings, scopes and spaces of memory instructions (R28), in code order. -/
inductive MOrd | rlx | acq | rel | ar
  deriving DecidableEq, Repr
def MOrd.all : List MOrd := [.rlx, .acq, .rel, .ar]
inductive Scope | th | grp | core | grove | die | pkg | dom | sys
  deriving DecidableEq, Repr
def Scope.all : List Scope := [.th, .grp, .core, .grove, .die, .pkg, .dom, .sys]
inductive Space | g | l | w | k
  deriving DecidableEq, Repr
def Space.all : List Space := [.g, .l, .w, .k]

/-- The memory modifier (R28) without its per-instruction bits. -/
structure MMod where
  ord   : MOrd := .rlx
  scope : Scope := .th
  evict : BitVec 3 := 3
  space : Space := .g
  deriving DecidableEq, Repr

/-- Conditions of `icmp` (R100) and `fcmp` (R120), in code order. -/
inductive ICond | eq | ne | lt | le | gt | ge
  deriving DecidableEq, Repr
def ICond.all : List ICond := [.eq, .ne, .lt, .le, .gt, .ge]
inductive FCond | eq | ne | lt | le | gt | ge | un | ord
  deriving DecidableEq, Repr
def FCond.all : List FCond := [.eq, .ne, .lt, .le, .gt, .ge, .un, .ord]

/-- Operations of `bxal` (R128), of atomics (R145, R147), of collectives (R171, R172), in code order. -/
inductive BxOp | expA | expB | manA | manB | dec
  deriving DecidableEq, Repr
def BxOp.all : List BxOp := [.expA, .expB, .manA, .manB, .dec]
inductive AOp | add | min | max | and | or | xor | exch | inc | dec
  deriving DecidableEq, Repr
def AOp.all : List AOp := [.add, .min, .max, .and, .or, .xor, .exch, .inc, .dec]
inductive FOp | add | min | max
  deriving DecidableEq, Repr
def FOp.all : List FOp := [.add, .min, .max]
inductive VOp | all | any | uni | ballot
  deriving DecidableEq, Repr
def VOp.all' : List VOp := [.all, .any, .uni, .ballot]
inductive ShMode | idx | up | down | xor
  deriving DecidableEq, Repr
def ShMode.all : List ShMode := [.idx, .up, .down, .xor]
inductive ROp | add | mul | min | max | and | or | xor
  deriving DecidableEq, Repr
def ROp.all : List ROp := [.add, .mul, .min, .max, .and, .or, .xor]

/-- The destination of `vote`: a predicate, or a register for `ballot` (R171). -/
inductive VDst | pred (p : Pred) | reg (d : Dst)
  deriving DecidableEq, Repr

/-- How `acc.rd` reads an accumulator (R230), in code order. -/
inductive Interp | s32 | bx | w48 | ring
  deriving DecidableEq, Repr
def Interp.all : List Interp := [.s32, .bx, .w48, .ring]

/-- Share types and pool kinds (R358), in code order. -/
inductive ShTy | s16 | s32 | b16 | tr16 | tr32
  deriving DecidableEq, Repr
def ShTy.all : List ShTy := [.s16, .s32, .b16, .tr16, .tr32]

/-- Token modes (R306), in code order. -/
inductive TMode | write | rs | at
  deriving DecidableEq, Repr
def TMode.all : List TMode := [.write, .rs, .at]

/-- A scheduling unit of a core (R158): a group, a thread in no group, or the lead thread. -/
inductive UnitId | grp (gid : Nat) | thr (tid : Nat)
  deriving DecidableEq, Repr

/-! ### Data that comes from outside the device with an event -/

/-- One partition of Heartwood's signed configuration image (R329, R331). -/
structure PartCfg where
  num      : Nat := 0
  quarters : BitVec 4 := 0
  slots    : BitVec 24 := 0
  granule  : Nat := 21
  ports    : BitVec 48 := 0
  root     : Nat := 0          -- page-table root frame of the steward world
  entries  : List Nat := []    -- addresses of the steward image's entry records (R49)
  image    : List (Nat × List (BitVec 8)) := []   -- the steward image: physical addresses and bytes
  deriving DecidableEq, Repr

/-- A host access through a virtual function (R49, R343). -/
inductive HostAcc
  | bar0Read (off : Nat) | bar0Write (off : Nat) (v : Word)
  | read (va n : Nat) | write (va : Nat) (bytes : List Byte)
  | atomic (va size : Nat) (op : AOp) (v : DWord) | cas (va size : Nat) (cmp new : DWord)
  | msixMask (vector : Nat) (masked : Bool)
  deriving DecidableEq, Repr

/-- A message of the fabric (R375, R376): what a flit carries, by channel. -/
inductive RemKind
  | load | store | atom (op : AOp) | cas | atomf (op : FOp)
  deriving DecidableEq, Repr

/-- A remote request as it crosses the fabric (R383). -/
structure RemReq where
  src   : Nat                -- issuing device
  dest  : Nat                -- target device
  id    : Nat                -- issuer's name for it
  world : Nat                -- peer world at the target
  kind  : RemKind
  va    : Nat
  size  : Nat
  ty    : Ty
  ord   : MOrd
  scope : Scope
  data  : DWord
  data2 : DWord
  pc    : DWord
  deriving DecidableEq, Repr

/-- The target's answer (R383): its fault code, or the value. -/
structure RemAns where
  id   : Nat
  code : Option (BitVec 6)
  val  : DWord
  deriving DecidableEq, Repr

/-- A contribution to a gate exchange (R364, R365). -/
structure Contrib where
  reveal : Bool
  ty     : ShTy
  id     : BitVec 16
  m      : Nat
  words  : List Word
  deriving DecidableEq, Repr

/-- What a flit carries (R376). -/
inductive Msg
  | req (r : RemReq) | ans (a : RemAns) | gate (rec : Nat) (c : Contrib) | arbiter (rec : Nat) (words : List Word)
  | token (home base n : Nat) (mode : Nat) (world : Nat) | tokenHome (base n world : Nat)
  | reserve (home base n world : Nat) | loss (dev : Nat) | spdm (words : List Nat) | session (rec : Nat) (aborted : Bool)
  deriving DecidableEq, Repr

/-- A flit on the wire (R376, R378); the seal is checked as `good`. -/
structure Flit where
  dest  : Nat
  src   : Nat
  key   : Nat
  seq   : Nat
  vc    : Nat
  ctr   : Nat
  msg   : Msg
  good  : Bool
  deriving DecidableEq, Repr

/-- Where an error strikes (R321) and whether it can be corrected. -/
inductive ErrAt
  | fetch (core : Nat) (va : Nat) | l1 (core world va : Nat) | reg (core tid n : Nat) | yreg (core gid n : Nat)
  | scratch (core off : Nat) | wbuf (core off : Nat) | acc (core a w : Nat) | cell (core i : Nat)
  | l2 (world va : Nat) | far (die world va : Nat) | l2tag (die set : Nat) | token (die : Nat) | hbm (pa : Nat)
  deriving DecidableEq, Repr

/-- What the debugger asks at the debug port (R350). -/
inductive DbgReq
  | unlockOwner (valid : Bool) | unlockMfg (valid : Bool)
  | halt (core op : Nat) | dumpThr (core tid : Nat) | step (core tid : Nat) (v : Bool) | trace (core mode : Nat)
  | readReg (core num : Nat) | writeReg (core num : Nat) (v : Word)
  | identity | status | dumpSec (core : Nat) (sec : BitVec 4) (tid : Nat)
  deriving DecidableEq, Repr

/-- A model key delivered in an SPDM session (R348). -/
structure ModelKey where
  key   : List Byte
  label : Word
  world : Nat
  ports : BitVec 8
  deriving DecidableEq, Repr

/-- One constructor a row of spec/opcode_table.json, in the table's order: the instructions, then the events. -/
inductive Instr
  -- integer class (R94 to R105)
  | iadd (h : Hdr) (ty : Ty) (sat : Bool) (d : Dst) (a b : Src)
  | isub (h : Hdr) (ty : Ty) (sat : Bool) (d : Dst) (a b : Src)
  | imul (h : Hdr) (ty : Ty) (sat : Bool) (d : Dst) (a b : Src)
  | imulh (h : Hdr) (ty : Ty) (d : Dst) (a b : Src)
  | imad (h : Hdr) (ty : Ty) (sat : Bool) (d : Dst) (a b c : Src)
  | idiv (h : Hdr) (ty : Ty) (sat : Bool) (d : Dst) (a b : Src)
  | irem (h : Hdr) (ty : Ty) (d : Dst) (a b : Src)
  | ineg (h : Hdr) (ty : Ty) (sat : Bool) (d : Dst) (a : Src)
  | iabs (h : Hdr) (ty : Ty) (sat : Bool) (d : Dst) (a : Src)
  | imin (h : Hdr) (ty : Ty) (d : Dst) (a b : Src)
  | imax (h : Hdr) (ty : Ty) (d : Dst) (a b : Src)
  | iclamp (h : Hdr) (ty : Ty) (d : Dst) (a b c : Src)
  | iand (h : Hdr) (ty : Ty) (d : Dst) (a b : Src)
  | ior (h : Hdr) (ty : Ty) (d : Dst) (a b : Src)
  | ixor (h : Hdr) (ty : Ty) (d : Dst) (a b : Src)
  | inot (h : Hdr) (ty : Ty) (d : Dst) (a : Src)
  | iandn (h : Hdr) (ty : Ty) (d : Dst) (a b : Src)
  | shl (h : Hdr) (ty : Ty) (d : Dst) (a b : Src)
  | shr (h : Hdr) (ty : Ty) (d : Dst) (a b : Src)
  | sra (h : Hdr) (ty : Ty) (d : Dst) (a b : Src)
  | rotl (h : Hdr) (ty : Ty) (d : Dst) (a b : Src)
  | fshl (h : Hdr) (ty : Ty) (d : Dst) (a b c : Src)
  | popc (h : Hdr) (ty : Ty) (d : Dst) (a : Src)
  | clz (h : Hdr) (ty : Ty) (d : Dst) (a : Src)
  | ctz (h : Hdr) (ty : Ty) (d : Dst) (a : Src)
  | brev (h : Hdr) (ty : Ty) (d : Dst) (a : Src)
  | bfx (h : Hdr) (ty : Ty) (d : Dst) (a b : Src)
  | bfi (h : Hdr) (ty : Ty) (d : Dst) (a b c : Src)
  | perm (h : Hdr) (d : Dst) (a b c : Src)
  | icmp (h : Hdr) (ty : Ty) (cond : ICond) (kd : Pred) (a b : Src)
  | sel (h : Hdr) (ty : Ty) (d : Dst) (a b : Src) (kc : Pred)
  | mov (h : Hdr) (ty : Ty) (d : Dst) (a : Src)
  | plog (h : Hdr) (kd ka kb kc : Pred)
  | lea (h : Hdr) (ty : Ty) (scale : BitVec 3) (d : Dst) (a b : Src)
  | iaddc (h : Hdr) (ty : Ty) (ko : Pred) (d : Dst) (a b : Src) (kc : Pred)
  | isubb (h : Hdr) (ty : Ty) (ko : Pred) (d : Dst) (a b : Src) (kc : Pred)
  | idp4 (h : Hdr) (ty : Ty) (sat : Bool) (d : Dst) (a b c : Src)
  | isad (h : Hdr) (ty : Ty) (sat : Bool) (d : Dst) (a b c : Src)
  | pack (h : Hdr) (ty : Ty) (d : Dst) (a b : Src)
  | unpk (h : Hdr) (ty : Ty) (d : Dst) (a b : Src)
  -- float class (R115 to R134)
  | fadd (h : Hdr) (ty : Ty) (rm : Rm) (d : Dst) (a b : Src)
  | fsub (h : Hdr) (ty : Ty) (rm : Rm) (d : Dst) (a b : Src)
  | fmul (h : Hdr) (ty : Ty) (rm : Rm) (d : Dst) (a b : Src)
  | fma (h : Hdr) (ty : Ty) (rm : Rm) (d : Dst) (a b c : Src)
  | fdiv (h : Hdr) (ty : Ty) (rm : Rm) (d : Dst) (a b : Src)
  | fmin (h : Hdr) (ty : Ty) (d : Dst) (a b : Src)
  | fmax (h : Hdr) (ty : Ty) (d : Dst) (a b : Src)
  | fabs (h : Hdr) (ty : Ty) (d : Dst) (a : Src)
  | fneg (h : Hdr) (ty : Ty) (d : Dst) (a : Src)
  | fcmp (h : Hdr) (ty : Ty) (cond : FCond) (kd : Pred) (a b : Src)
  | fclass (h : Hdr) (ty : Ty) (d : Dst) (a : Src)
  | fcpsg (h : Hdr) (ty : Ty) (d : Dst) (a b : Src)
  | frnd (h : Hdr) (ty : Ty) (rm : Rm) (d : Dst) (a : Src)
  | fcvt (h : Hdr) (dty sty : Ty) (rm : Rm) (sat : Bool) (d : Dst) (a : Src)
  | f2i (h : Hdr) (dty sty : Ty) (rm : Rm) (d : Dst) (a : Src)
  | i2f (h : Hdr) (dty sty : Ty) (rm : Rm) (d : Dst) (a : Src)
  | tcvt (h : Hdr) (dty sty : Ty) (rm : Rm) (d : Dst) (a : Src) (b : Option Src)
  | bxal (h : Hdr) (op : BxOp) (d : Dst) (a : Src) (b : Option Src)
  | fexp2 (h : Hdr) (ty : Ty) (acc : Bool) (d : Dst) (a : Src)
  | flog2 (h : Hdr) (ty : Ty) (acc : Bool) (d : Dst) (a : Src)
  | frcp (h : Hdr) (ty : Ty) (acc : Bool) (rm : Rm) (d : Dst) (a : Src)
  | frsqrt (h : Hdr) (ty : Ty) (acc : Bool) (d : Dst) (a : Src)
  | fsqrt (h : Hdr) (ty : Ty) (acc : Bool) (rm : Rm) (d : Dst) (a : Src)
  | fsin (h : Hdr) (ty : Ty) (acc : Bool) (d : Dst) (a : Src)
  | fcos (h : Hdr) (ty : Ty) (acc : Bool) (d : Dst) (a : Src)
  | ftanh (h : Hdr) (ty : Ty) (acc : Bool) (d : Dst) (a : Src)
  | fsigm (h : Hdr) (ty : Ty) (acc : Bool) (d : Dst) (a : Src)
  | ferf (h : Hdr) (ty : Ty) (acc : Bool) (d : Dst) (a : Src)
  -- control class (R86 to R90, R106 to R113, R261 to R279)
  | br (h : Hdr)
  | brx (h : Hdr) (a : Src)
  | call (h : Hdr)
  | callx (h : Hdr) (a : Src)
  | ret (h : Hdr)
  | spawn (h : Hdr) (q8 : BitVec 5) (a b c : Src)
  | tail (h : Hdr)
  | exit (h : Hdr) (scope : Scope) (evict : BitVec 3) (a : Src)
  | trap (h : Hdr)
  | sys (h : Hdr) (d : Dst)
  | nop (h : Hdr)
  | yield (h : Hdr)
  | brk (h : Hdr)
  | cstk (h : Hdr) (a b : Src)
  | rdsr (h : Hdr) (d : Dst)
  | wrsr (h : Hdr) (a : Src)
  | sleep (h : Hdr) (a : Src)
  | eret (h : Hdr) (a : Src)
  | resm (h : Hdr) (a b : Src) (pc : Option Src) (val : Option Src)
  | kill (h : Hdr) (a b : Src)
  | sstepThr (h : Hdr) (a b : Src)
  | sstepGrp (h : Hdr) (a b : Src)
  | dump (h : Hdr) (m : MMod) (sec : BitVec 4) (a b : Src)
  | haltHold (h : Hdr) (d : Dst)
  | haltRel (h : Hdr) (d : Dst)
  | haltQ (h : Hdr) (d : Dst)
  | traceOn (h : Hdr) (a : Src)
  | traceOff (h : Hdr) (a : Src)
  | traceMark (h : Hdr) (a : Src)
  -- memory class (R135 to R155, R232, R382)
  | ld (h : Hdr) (m : MMod) (ty : Ty) (d : Dst) (a : Src)
  | ldu (h : Hdr) (m : MMod) (ty : Ty) (d : Dst) (a : Src)
  | ld4 (h : Hdr) (m : MMod) (d : Dst) (a : Src)
  | st (h : Hdr) (m : MMod) (ty : Ty) (a b : Src)
  | st4 (h : Hdr) (m : MMod) (a b : Src)
  | ldm (h : Hdr) (m : MMod) (n : BitVec 4) (d : Dst) (a : Src)
  | stm (h : Hdr) (m : MMod) (n : BitVec 4) (a b : Src)
  | stz (h : Hdr) (m : MMod) (a : Src)
  | atom (h : Hdr) (m : MMod) (op : AOp) (ty : Ty) (d : Dst) (a b : Src)
  | atomg (h : Hdr) (m : MMod) (op : AOp) (ty : Ty) (a b : Src)
  | cas (h : Hdr) (m : MMod) (ty : Ty) (d : Dst) (a b c : Src)
  | atomf (h : Hdr) (m : MMod) (op : FOp) (ty : Ty) (d : Dst) (a b : Src)
  | prf (h : Hdr) (evict : BitVec 3) (a : Src)
  | fence (h : Hdr) (ord : MOrd) (scope : Scope)
  | wait (h : Hdr)
  | inv (h : Hdr) (a b : Src)
  | flush (h : Hdr) (a b : Src)
  | rld (h : Hdr) (m : MMod) (ty : Ty) (d : Dst) (a c : Src)
  | rst (h : Hdr) (m : MMod) (ty : Ty) (a b c : Src)
  | ratom (h : Hdr) (m : MMod) (op : AOp) (ty : Ty) (d : Dst) (a b c : Src)
  | rcas (h : Hdr) (m : MMod) (ty : Ty) (d : Dst) (a b c : Src)
  | ratomf (h : Hdr) (m : MMod) (op : FOp) (ty : Ty) (d : Dst) (a b c : Src)
  | ldcv (h : Hdr) (m : MMod) (cv : BitVec 4) (a : Src)
  | stcv (h : Hdr) (m : MMod) (cv : BitVec 4) (a : Src)
  -- group class (R159 to R179)
  | gjoin (h : Hdr) (a b : Src) (slot : Option Src)
  | gleave (h : Hdr)
  | gslice (h : Hdr) (a : Src)
  | gbar (h : Hdr) (scope : Scope)
  | rwait (h : Hdr) (scope : Scope) (kd : Pred) (a : Src)
  | vote (h : Hdr) (op : VOp) (d : VDst) (ka : Pred)
  | shfl (h : Hdr) (mode : ShMode) (ty : Ty) (d : Dst) (a b : Src)
  | red (h : Hdr) (op : ROp) (ty : Ty) (rm : Rm) (sat : Bool) (d : Dst) (a : Src)
  | scan (h : Hdr) (op : ROp) (exc : Bool) (ty : Ty) (rm : Rm) (sat : Bool) (d : Dst) (a : Src)
  | gmatch (h : Hdr) (zeq : Bool) (ty : Ty) (d : Dst) (a : Src)
  | mwait (h : Hdr) (m : MMod) (d : Dst) (a b c : Src)
  | dqPush (h : Hdr) (a b : Src)
  | dqPop (h : Hdr) (d : Dst)
  | gsatRd (h : Hdr) (d : Dst)
  | gsatClr (h : Hdr) (d : Dst)
  | gsatArm (h : Hdr) (d : Dst)
  | gsatDisarm (h : Hdr) (d : Dst)
  -- tile class (R184, R191 to R203)
  | tileDef (h : Hdr) (tl : BitVec 7) (a : Src)
  | tileFree (h : Hdr) (tl : BitVec 7)
  | tileQry (h : Hdr) (tl : BitVec 7) (d : Dst)
  | tileRdySet (h : Hdr) (tl : BitVec 7)
  | tileRdyClr (h : Hdr) (tl : BitVec 7)
  | tileFill (h : Hdr) (tl : BitVec 7) (a : Src) (sig : Option Src)
  | patDef (h : Hdr) (pat : BitVec 4) (w : BitVec 4) (a : Src)
  | patLd (h : Hdr) (pat : BitVec 4) (a : Src)
  | patFence (h : Hdr)
  | cpIn (h : Hdr) (evict : BitVec 3) (tl : BitVec 7) (pat : BitVec 4) (b : Src) (sig : Option Src)
  | cpOut (h : Hdr) (evict : BitVec 3) (tl : BitVec 7) (pat : BitVec 4) (b : Src) (sig : Option Src)
  | cpTt (h : Hdr) (tr : Bool) (dtl stl : BitVec 7) (sig : Option Src)
  | spCfg (h : Hdr) (d : Dst) (a : Src)
  -- matrix class (R216 to R231)
  | mmRsv (h : Hdr) (kd : Pred) (a : Src)
  | mmRel (h : Hdr)
  | mmDecl (h : Hdr) (lead : Bool) (cv : BitVec 4) (a : Src)
  | mmSign (h : Hdr) (cv : BitVec 4)
  | mmFence (h : Hdr)
  | mmMmaT1i8 (h : Hdr) (cv : BitVec 4) (z s : Bool) (acc : BitVec 4) (tl : BitVec 7) (b : Src)
  | mmMmaT5i8 (h : Hdr) (cv : BitVec 4) (z s : Bool) (acc : BitVec 4) (tl : BitVec 7) (b : Src)
  | mmMmaT5i8Bx (h : Hdr) (cv : BitVec 4) (z s : Bool) (acc : BitVec 4) (tl : BitVec 7) (b c : Src)
  | mmMmaT11i16 (h : Hdr) (cv : BitVec 4) (z s : Bool) (acc : BitVec 4) (tl : BitVec 7) (b : Src)
  | mmMmaRing16 (h : Hdr) (cv : BitVec 4) (z s : Bool) (acc : BitVec 4) (tl : BitVec 7) (b : Src)
  | mmMmaRing32 (h : Hdr) (cv : BitVec 4) (z s : Bool) (acc : BitVec 4) (tl : BitVec 7) (b : Src)
  | wbLd (h : Hdr) (evict : BitVec 3) (a b c : Src)
  | accClr (h : Hdr) (w48 : Bool) (acc : BitVec 4)
  | accRd (h : Hdr) (itp : Interp) (ty : Ty) (rm : Rm) (tl : BitVec 7) (acc : BitVec 4)
  | accSt (h : Hdr) (w48 : Bool) (acc : BitVec 4) (tl : BitVec 7)
  -- sort class (R242 to R250)
  | sortLoad (h : Hdr) (desc stable zeq : Bool) (ty : Ty) (kd : Pred) (tk : BitVec 7) (tp : Option (BitVec 7))
  | sortRun (h : Hdr) (a : Src)
  | sortStore (h : Hdr) (tk : BitVec 7) (tp : Option (BitVec 7))
  | sortTopk (h : Hdr) (a : Src)
  | sortMerge (h : Hdr)
  | sortMatch (h : Hdr) (d : Dst) (a : Src)
  | sortStateRd (h : Hdr) (d : Dst)
  | sortStateRel (h : Hdr)
  -- token class (R308 to R315)
  | ownClaim (h : Hdr) (mode : TMode) (taint : Bool) (kd : Pred) (a b : Src)
  | ownLend (h : Hdr) (kd : Pred) (a b : Src)
  | ownRet (h : Hdr) (a : Src)
  | ownSplit (h : Hdr) (kd : Pred) (a : Src)
  | ownJoin (h : Hdr) (kd : Pred) (a : Src)
  | ownShare (h : Hdr) (mode : TMode) (kd : Pred) (a b : Src)
  | ownDrop (h : Hdr) (a : Src)
  | ownQuery (h : Hdr) (d : Dst) (a : Src)
  | ownQuerySelf (h : Hdr) (d : Dst)
  -- share class (R356 to R373)
  | shSessOpen (h : Hdr) (d : Dst) (a : Src)
  | shSessQry (h : Hdr) (d : Dst) (a : Src)
  | shBeg (h : Hdr) (ty : ShTy) (d : Dst) (a : Src) (b : Option Src) (c : Src)
  | shXch (h : Hdr) (ty : ShTy) (d : Dst) (a b c : Src)
  | shFin (h : Hdr) (ty : ShTy) (d : Dst) (a b c : Src)
  | shAdd (h : Hdr) (ty : ShTy) (d : Dst) (a b : Src) (pub : Option Src)
  | shSub (h : Hdr) (ty : ShTy) (d : Dst) (a b : Src) (pub : Option Src)
  | shCmul (h : Hdr) (ty : ShTy) (d : Dst) (a b : Src)
  | shTrunc (h : Hdr) (ty : ShTy) (d : Dst) (a b c : Src)
  | shAnd (h : Hdr) (d : Dst) (a b c : Src)
  | shXor (h : Hdr) (d : Dst) (a b : Src) (pub : Option Src)
  | shCvtA2b (h : Hdr) (pn : Bool) (d : Dst) (a b : Src)
  | shCvtB2a (h : Hdr) (ty : ShTy) (pn : Bool) (d : Dst) (a b : Src)
  | shReveal (h : Hdr) (ty : ShTy) (d : Dst) (a b c : Src)
  | shPool (h : Hdr) (ty : ShTy) (d : Dst) (a b c : Src)
  | shClose (h : Hdr) (d : Dst) (a : Src)
  -- privileged class (R304, R333 to R341, R346, R380)
  | partQsc (h : Hdr) (d : Dst) (a : Src)
  | partRes (h : Hdr) (d : Dst) (a : Src)
  | partWil (h : Hdr) (d : Dst) (a b : Src)
  | partWnb (h : Hdr) (d : Dst) (a b : Src)
  | xltSdRange (h : Hdr) (d : Dst) (a b c : Src)
  | xltSdWorld (h : Hdr) (d : Dst) (c : Src)
  | xltSdPart (h : Hdr) (d : Dst)
  | worldLat (h : Hdr) (d : Dst) (a b : Src)
  | worldClr (h : Hdr) (d : Dst) (a : Src)
  | fabCfgRoute (h : Hdr) (d : Dst) (a b : Src)
  | fabCfgBind (h : Hdr) (d : Dst) (a b : Src)
  | fabCfgUnbind (h : Hdr) (d : Dst) (a b : Src)
  | fabCfgPort (h : Hdr) (d : Dst) (a b : Src)
  | fabCfgQry (h : Hdr) (d : Dst) (a b : Src)
  | keySet (h : Hdr) (d : Dst) (a b : Src)
  -- events: launch and placement (R49, R281 to R284, R157, R180)
  | lnchhiHost (fn : Nat) (hi : Word)
  | lnchhiSteward (part : Nat) (hi : Word)
  | launchRecordRead (path : Nat)
  | launchBlockPlace (world : Nat)
  | spawnBlockPlace (core : Nat)
  | threadPlace (core : Nat)
  | unitRestore (core : Nat) (u : UnitId)
  | stealRequest (core : Nat)
  | stealAnswer (core : Nat)
  | stealAck (core : Nat)
  | stealBackoffExpiry (core : Nat)
  -- events: issue (R163 to R169, R19)
  | schedulerCycle (core : Nat)
  | issueSpanAge (core : Nat) (u : UnitId)
  | fetchLineFill (core : Nat) (va : DWord)
  -- events: completion and waiting (R141, R176, R112, R175, R413, R88)
  | loadComplete (core op : Nat)
  | storeHeldAtHome (core op : Nat)
  | mwaitTimeout (core tid : Nat)
  | sleepExpiry (core tid : Nat)
  | rwaitExpiry (core tid : Nat)
  | tokenMoveOnJoin (core tid : Nat)
  | retiredFaultPost (core op : Nat) (code : BitVec 6)
  -- events: engines (R199, R201, R224, R243, R325)
  | copyComplete (core id : Nat)
  | copyFail (core id : Nat)
  | arrayEntryStart (core : Nat)
  | matrixOpComplete (core : Nat)
  | accInstrComplete (core : Nat)
  | sortCmdStart (core : Nat)
  | sortCmdComplete (core : Nat)
  | auditReplay (die slot : Nat) (equal : Bool)
  | auditReplayTimeout (die slot : Nat)
  -- events: faults, rollback, pre-emption and the acting registers
  | faultRecordPost (core : Nat)
  | rollback (core : Nat) (u : UnitId)
  | worldAbort (world : Nat) (code : BitVec 6)
  | cxswSave (core : Nat)
  | cxswRestore (core : Nat)
  | frphi (core : Nat) (v : Word)
  | leadClaim (core tid : Nat)
  | leadGiveUp (core tid : Nat)
  | shctlClear (core : Nat)
  | pcede (part : Nat) (v : Word)
  | capctlArm (part unit : Nat)
  | capctlClear (part unit : Nat)
  | captureUnitCycle (part unit : Nat) (values : List Word)
  -- events: caches, translation, tokens, service
  | signatureRotate (core : Nat)
  | l1LineExpiry (core world va : Nat)
  | farLineExpiry (die world va : Nat)
  | l2MissFill (world va : Nat)
  | tokenPassCommit (world base : Nat)
  | agentEndRights (agent : Word) (world : Nat) (taint : Bool)
  | coreOutOfService (core : Nat)
  -- events: the gate (R357, R365, R372, R387)
  | sessionMatch (r1 r2 : Nat)
  | gateContributionArrival (rec : Nat) (c : Contrib)
  | gateTimeout (rec : Nat)
  | arbiterWordsArrival (rec : Nat) (words : List Word)
  -- events: the fabric (R376 to R388)
  | flitReceive (port : Nat) (f : Flit)
  | remoteRequestArrival (r : RemReq)
  | remoteAnswerArrival (a : RemAns)
  | mirrorReceipt (home base n world : Nat) (mode : TMode)
  | tokenReturnHome (dev base world : Nat)
  | deviceLossTimeout (part dev : Nat)
  | lossReport (dev : Nat)
  -- events: host, doorbells, Heartwood (R343, R352, R347 to R351)
  | hostInboundAccess (fn : Nat) (a : HostAcc)
  | coalesceDelayExpiry (world : Nat)
  | hwdb (part : Nat) (v : Word)
  | heartwoodWindow
  | getVersion (sess : Nat)
  | getCapabilities (sess : Nat)
  | negotiateAlgorithms (sess : Nat)
  | getDigests (sess : Nat)
  | getCertificate (sess : Nat)
  | challenge (sess nonce : Nat)
  | getMeasurements (sess : Nat)
  | keyExchange (sess : Nat)
  | finish (sess : Nat)
  | heartbeat (sess : Nat)
  | keyUpdate (sess : Nat)
  | endSession (sess : Nat)
  | modelKeyDelivery (sess : Nat) (k : ModelKey)
  | heartbeatLapse (sess : Nat)
  | scrubGranule (gr : Nat)
  -- events: reset, power, reliability, links, debug
  | warmReset
  | coldPowerUp (cfg : List PartCfg)
  | thermalCut
  | clockStepDown (die : Nat) (thermal : Bool)
  | clockStepUp (die : Nat)
  | undervoltStep (die dom : Nat)
  | reliabilityWindow (die dom : Nat) (crossed : Bool)
  | softError (at_ : ErrAt) (correctable : Bool)
  | flushComplete (core op : Nat)
  | linkTrained (port : Nat)
  | domainEnumeration (dev : Nat)
  | debugPortRequest (r : DbgReq)
  | coldPowerLoss
  | mirrorEntryReserve (home base n world : Nat)
  deriving DecidableEq, Repr

end Sys2Proof
end

