-- ==== Sys2Proof/WellFormed.lean ====
section
/-!
DEFINITION. When an instruction, as syntax, is one the encoding rules admit (R25 to R32 and the encoding tables): each check
has the name of the case of R32 it belongs to. Events have no encoding and nothing to check.
-/
namespace Sys2Proof

/-- The cases of R32. -/
inductive Illegal
  | opcode        -- unassigned opcode value
  | unusedField   -- a nonzero bit in a field that must be zero
  | type          -- a type code the instruction does not accept
  | modifier      -- a modifier value the instruction does not accept
  | specifier     -- a reserved specifier
  | destination   -- 0xFF, or a special other than `zero`, or a y register where none may stand, as destination
  | oddPair       -- an odd specifier for a 64-bit operand
  | multiple      -- a multiple-register operand not aligned, or past the last register
  | predicate     -- nonzero bits [7:3] of a predicate field
  | target        -- a direct target with slot 5, 6 or 7
  | immediate     -- an immediate R30 forbids
  | immOperand    -- 0xFF in a field that must name a register
  | number        -- a tile, pattern, accumulator or convergence-register number out of range
  deriving DecidableEq, Repr

def Ty.bits : Ty → Nat
  | .u8 | .s8 => 8
  | .u16 | .s16 | .bf16 | .f16 => 16
  | .u64 | .s64 => 64
  | _ => 32
def Ty.signed : Ty → Bool
  | .s8 | .s16 | .s32 | .s64 => true
  | _ => false
def Ty.is64 : Ty → Bool
  | .u64 | .s64 => true
  | _ => false
def Ty.isFloat : Ty → Bool
  | .f32 | .bf16 | .f16 => true
  | _ => false
/-- Codes 0x0 to 0x7 (R94). -/
def Ty.isInt : Ty → Bool
  | .u8 | .s8 | .u16 | .s16 | .u32 | .s32 | .u64 | .s64 => true
  | _ => false
/-- The types of plain loads and stores: 0x0 to 0xA and 0xF (R143). -/
def Ty.isPlain (t : Ty) : Bool := t.isInt || t.isFloat || t == .b32
def Ty.b32u64 (t : Ty) : Bool := t == .b32 || t == .u64
def Ty.b32u32u64 (t : Ty) : Bool := t == .b32 || t == .u32 || t == .u64
def Ty.u32u64 (t : Ty) : Bool := t == .u32 || t == .u64
def Ty.b8or16 (t : Ty) : Bool := t == .s16 || t == .u16 || t == .s8 || t == .u8

/-- The place of a special in R24's table. -/
def Special.idx (s : Special) : Nat := s.ctorIdx

/-- Alignment of a specifier to n, for operands of more than one register (R25, R143). -/
def Src.al (n : Nat) : Src → Bool
  | .x r => r.toNat % n == 0
  | .y r => r.toNat % n == 0
  | .sp s => s.idx % n == 0
  | .imm => true
/-- The base of a pair, or `zero` (R42). -/
def Src.base : Src → Bool
  | .x r => r.toNat % 2 == 0
  | .y r => r.toNat % 2 == 0
  | .sp s => s == .zero
  | .imm => false
def Dst.al (n : Nat) : Dst → Bool
  | .x r => r.toNat % n == 0
  | .y r => r.toNat % n == 0
  | .zero => true
def Src.isImm : Src → Bool
  | .imm => true
  | _ => false
/-- A source that stands in the destination field (`resm`, R32): neither 0xFF nor a special other than `zero`. -/
def Src.inDst : Src → Bool
  | .imm => false
  | .sp s => s == .zero
  | _ => true
/-- The registers n to n + k - 1 exist (R143). -/
def Src.fits (k : Nat) : Src → Bool
  | .x r => r.toNat + k ≤ 128
  | .y r => r.toNat + k ≤ 64
  | _ => true
def Dst.fits (k : Nat) : Dst → Bool
  | .x r => r.toNat + k ≤ 128
  | .y r => r.toNat + k ≤ 64
  | .zero => true
def Dst.isY : Dst → Bool
  | .y _ => true
  | _ => false

/-- The immediate as an operand of a type narrower than 32 bits (R30). -/
def immFits (t : Ty) (v : Word) : Bool :=
  match t.bits with
  | 8  => if t.signed then (v.setWidth 8).signExtend 32 == v else (v.setWidth 8).setWidth 32 == v
  | 16 => if t.signed then (v.setWidth 16).signExtend 32 == v else (v.setWidth 16).setWidth 32 == v
  | _  => true

abbrev Check := Bool × Illegal

/-- A source read in pairs when `w` (R25). -/
def ckPair (w : Bool) (s : Src) : Check := (!w || s.al 2, .oddPair)
def ckDPair (w : Bool) (d : Dst) : Check := (!w || d.al 2, .oddPair)
/-- The immediate field is read only through a source (R22). -/
def ckImm (h : Hdr) (l : List Src) : Check := (l.any Src.isImm || h.imm == 0, .unusedField)
/-- A source read as a value of the type (R30). -/
def ckVal (h : Hdr) (t : Ty) (s : Src) : Check := (!s.isImm || immFits t h.imm, .immediate)
def ckReg (s : Src) : Check := (!s.isImm, .immOperand)
def ckType (b : Bool) : Check := (b, .type)
def ckMod (b : Bool) : Check := (b, .modifier)
def ckX (d : Dst) : Check := (!d.isY, .destination)
def ckNoImm (h : Hdr) : Check := (h.imm == 0, .unusedField)

/-- Two or three sources and a destination, all values of the type (R94, R115). -/
def ckInt (ok : Bool) (h : Hdr) (t : Ty) (d : Dst) (l : List Src) : List Check :=
  ckType ok :: ckDPair t.is64 d :: ckImm h l :: (l.map (ckPair t.is64) ++ l.map (ckVal h t))
/-- Sources taken as whole 32-bit words (R30). -/
def ckWords (ok : Bool) (h : Hdr) (l : List Src) : List Check := [ckType ok, ckImm h l]

/-- The base of a memory operand: no immediate, and in space g the even register of a pair or `zero` (R42, R30). R42 and R135 ask for a
single register in l, w and k: any special is taken there too (DESIGN CHOICE, log 25). -/
def ckG (a : Src) : List Check := [ckReg a, ckPair true a, (a.base, .specifier)]
def ckBase (m : MMod) (a : Src) : List Check := if m.space == .g then ckG a else [ckReg a]
def ckLoadOrd (m : MMod) : Check := ckMod (m.ord == .rlx || m.ord == .acq)
def ckStoreOrd (m : MMod) : Check := ckMod (m.ord == .rlx || m.ord == .rel)
def ckSpace (m : MMod) (l : List Space) : Check := ckMod (l.contains m.space)

/-- The types of an atomic (R145). -/
def AOp.takes : AOp → Ty → Bool
  | .add, t | .min, t | .max, t => t == .u32 || t == .s32 || t == .u64 || t == .s64
  | .and, t | .or, t | .xor, t | .exch, t => t.b32u64
  | .inc, t | .dec, t => t.u32u64

/-- The types of `red` and `scan` (R172). -/
def ROp.takes : ROp → Ty → Bool
  | .add, t | .mul, t | .min, t | .max, t => t.isInt || t.isFloat
  | .and, t | .or, t | .xor, t => t.b32u64
def ROp.sats : ROp → Bool
  | .add | .mul => true
  | _ => false
def ckRed (h : Hdr) (op : ROp) (t : Ty) (rm : Rm) (sat : Bool) (d : Dst) (a : Src) : List Check :=
  [ckType (op.takes t), ckMod (t.isFloat || rm == .rne), ckMod (!sat || (op.sats && t.isInt)),
   ckDPair t.is64 d, ckPair t.is64 a, ckImm h [a]]

/-- The pairs of `tcvt` (R127): destination, source. -/
def tcvtOk : Ty → Ty → Bool
  | .t1, .s8 | .s8, .t1 | .t5, .s32 | .t5, .f32 | .s32, .t5 | .f32, .t5
  | .t11, .s32 | .t11, .f32 | .s32, .t11 | .f32, .t11 => true
  | _, _ => false
/-- Whether `tcvt` reads B (R127). -/
def tcvtB : Ty → Ty → Bool
  | .t1, .s8 | .s8, .t1 => true
  | _, _ => false
/-- Whether `bxal` reads B (R128). -/
def BxOp.readsB : BxOp → Bool
  | .expA | .expB => false
  | _ => true

/-- Destination types of `acc.rd` (R230). -/
def Interp.takes : Interp → Ty → Bool
  | .s32, t => t == .s32 || t == .s16 || t == .s8 || t.isFloat
  | .bx, t => t.isFloat
  | .w48, t => t == .s64 || t == .s32 || t.isFloat
  | .ring, t => t == .u16 || t == .u32
def Interp.isPair : Interp → Bool
  | .w48 | .ring => true
  | _ => false

/-- The key types of R238. -/
def Ty.isKey : Ty → Bool
  | .u32 | .s32 | .u16 | .s16 | .f32 | .bf16 | .f16 => true
  | _ => false

/-- Alignment of a share group (R361). -/
def ShTy.group : ShTy → Nat
  | .s16 | .b16 | .tr16 => 4
  | .s32 | .tr32 => 8
def ShTy.wide (t : ShTy) : Bool := t == .s32
def ShTy.arith (t : ShTy) : Bool := t == .s16 || t == .s32
def ShTy.word (t : ShTy) : Bool := t == .s16 || t == .s32 || t == .b16
def ckGrp (t : ShTy) (s : Src) : List Check := [ckReg s, (s.al t.group, .multiple)]
def ckPub (s : Option Src) : List Check := s.toList.map ckReg
def ckLow16 (h : Hdr) : Check := (h.imm.extractLsb' 16 16 == 0, .unusedField)

def ckMma (h : Hdr) (pair : Bool) (acc : BitVec 4) (l : List Src) : List Check :=
  [ckImm h l, (!pair || acc.toNat % 2 == 0, .multiple)]

def ckFn (h : Hdr) (t : Ty) (d : Dst) (a : Src) : List Check := ckInt t.isFloat h t d [a]

/-- The checks of R32 on an instruction; none on an event. -/
def Instr.checks : Instr → List Check
  | .iadd h t _ d a b | .isub h t _ d a b | .imul h t _ d a b | .idiv h t _ d a b
  | .irem h t d a b | .imin h t d a b | .imax h t d a b => ckInt t.isInt h t d [a, b]
  | .imulh h t d a b => ckInt (t.isInt && t.bits ≥ 32) h t d [a, b]
  | .imad h t _ d a b c | .iclamp h t d a b c => ckInt t.isInt h t d [a, b, c]
  | .ineg h t _ d a => ckInt t.isInt h t d [a]
  | .iabs h t _ d a => ckInt (t.isInt && t.signed) h t d [a]
  | .iand h t d a b | .ior h t d a b | .ixor h t d a b | .iandn h t d a b => ckInt t.b32u64 h t d [a, b]
  | .inot h t d a | .mov h t d a => ckInt t.b32u64 h t d [a]
  | .shl h t d a b | .shr h t d a b | .rotl h t d a b =>
      [ckType t.b32u32u64, ckDPair t.is64 d, ckPair t.is64 a, ckImm h [a, b]]
  | .sra h t d a b => [ckType (t == .s32 || t == .s64), ckDPair t.is64 d, ckPair t.is64 a, ckImm h [a, b]]
  | .fshl h t d a b c =>
      [ckType t.u32u64, ckDPair t.is64 d, ckPair t.is64 a, ckPair t.is64 b, ckImm h [a, b, c]]
  | .popc h t _ a | .clz h t _ a | .ctz h t _ a => [ckType t.u32u64, ckPair t.is64 a, ckImm h [a]]
  | .brev h t d a => ckInt t.b32u32u64 h t d [a]
  | .bfx h t _ a b => ckWords (t == .u32 || t == .s32) h [a, b]
  | .bfi h t _ a b c => ckWords (t == .b32 || t == .u32) h [a, b, c]
  | .perm h _ a b c => ckWords true h [a, b, c]
  | .icmp h t _ _ a b => ckInt t.isInt h t .zero [a, b]
  | .sel h t d a b _ => ckInt t.b32u64 h t d [a, b]
  | .plog h _ _ _ _ => [(h.imm.extractLsb' 8 24 == 0, .unusedField)]
  | .lea h t _ d a b =>
      [ckType (t == .u32 || t == .s32 || t == .u64), ckDPair true d, ckPair true a, ckPair t.is64 b, ckImm h [a, b]]
  | .iaddc h t _ d a b _ | .isubb h t _ d a b _ => ckInt t.u32u64 h t d [a, b]
  | .idp4 h t _ _ a b c | .isad h t _ _ a b c => ckWords (t == .s8 || t == .u8) h [a, b, c]
  | .pack h t _ a b | .unpk h t _ a b => ckWords t.b8or16 h [a, b]
  | .fadd h t _ d a b | .fsub h t _ d a b | .fmul h t _ d a b | .fdiv h t _ d a b
  | .fmin h t d a b | .fmax h t d a b | .fcpsg h t d a b => ckInt t.isFloat h t d [a, b]
  | .fma h t _ d a b c => ckInt t.isFloat h t d [a, b, c]
  | .fabs h t d a | .fneg h t d a | .fclass h t d a | .frnd h t _ d a => ckFn h t d a
  | .fcmp h t _ _ a b => ckInt t.isFloat h t .zero [a, b]
  | .fcvt h dy sy _ _ _ a =>
      [ckType (dy.isFloat && sy.isFloat && dy != sy), ckImm h [a], ckVal h sy a]
  | .f2i h dy sy _ d a => [ckType (dy.isInt && sy.isFloat), ckDPair dy.is64 d, ckImm h [a], ckVal h sy a]
  | .i2f h dy sy _ _ a => [ckType (dy.isFloat && sy.isInt), ckPair sy.is64 a, ckImm h [a], ckVal h sy a]
  | .tcvt h dy sy rm _ a b =>
      [ckType (tcvtOk dy sy), ckMod (sy == .f32 || rm == .rne), (b.isSome == tcvtB dy sy, .unusedField),
       ckImm h (a :: b.toList)]
  | .bxal h op _ a b => [(b.isSome == op.readsB, .unusedField), ckImm h (a :: b.toList)]
  | .fexp2 h t _ d a | .flog2 h t _ d a | .frsqrt h t _ d a | .fsin h t _ d a | .fcos h t _ d a
  | .ftanh h t _ d a | .fsigm h t _ d a | .ferf h t _ d a => ckFn h t d a
  | .frcp h t acc rm d a | .fsqrt h t acc rm d a => ckMod (acc || rm == .rne) :: ckFn h t d a
  | .br h | .call h => [(h.imm.extractLsb' 0 3 ≤ 4#3, .target)]
  | .brx h a | .callx h a => [ckPair true a, ckImm h [a]]
  | .ret h | .tail h | .nop h | .yield h | .gleave h | .patFence h | .mmRel h | .mmFence h | .sortStateRel h =>
      [ckNoImm h]
  | .spawn h q a b c => [ckMod (2#5 ≤ q && q ≤ 16#5), ckPair true a, ckImm h [a, b, c]]
  | .exit _ _ _ a => ckG a
  | .trap h | .brk h => [ckLow16 h]
  | .sys h d => [ckX d, ckLow16 h]
  | .cstk h a b => [ckPair true a, ckImm h [a, b]]
  | .rdsr h _ | .wrsr h _ => [(h.imm.extractLsb' 12 20 == 0, .unusedField)]
  | .eret h a => [ckReg a, ckNoImm h]
  | .sleep h a | .gslice h a | .traceOn h a | .traceOff h a | .traceMark h a | .patDef h _ _ a
  | .mmRsv h _ a | .mmDecl h _ _ a | .sortRun h a | .sortTopk h a => [ckImm h [a]]
  | .shSessQry h d a => [ckX d, ckImm h [a]]
  | .resm h a b pc v =>
      [ckReg a, ckImm h [b]] ++ pc.toList.map ckReg ++ [(pc.toList.all (Src.al 2), .oddPair), (v.toList.all Src.inDst, .destination)]
  | .kill h a b | .sstepThr h a b | .sstepGrp h a b => [ckReg a, ckImm h [b]]
  | .dqPush h a b => [ckImm h [a, b]]
  | .dump _ m sec a b => [ckReg b, ckStoreOrd m, ckSpace m [.g], ckMod (sec ≤ 3#4)] ++ ckG a
  | .haltHold h _ | .haltRel h _ | .haltQ h _ => [ckNoImm h]
  | .ld _ m t d a => [ckType t.isPlain, ckLoadOrd m, ckDPair t.is64 d] ++ ckBase m a
  | .ldu _ m t d a =>
      [ckType t.isPlain, ckLoadOrd m, ckDPair t.is64 d, (d.isY, .destination),
       (match a with | .y _ => true | .sp .zero => true | _ => false, .specifier)] ++ ckBase m a
  | .ld4 _ m d a => [ckLoadOrd m, (d.al 4, .multiple)] ++ ckBase m a
  | .st _ m t a b => [ckType t.isPlain, ckStoreOrd m, ckSpace m [.g, .l, .w], ckReg b, ckPair t.is64 b] ++ ckBase m a
  | .st4 _ m a b => [ckStoreOrd m, ckSpace m [.g, .l, .w], ckReg b, (b.al 4, .multiple)] ++ ckBase m a
  | .ldm _ m n d a => [ckLoadOrd m, (d.fits (n.toNat + 1), .multiple)] ++ ckBase m a
  | .stm _ m n a b =>
      [ckStoreOrd m, ckSpace m [.g, .l, .w], ckReg b, (b.fits (n.toNat + 1), .multiple)] ++ ckBase m a
  | .stz _ m a => [ckStoreOrd m, ckSpace m [.g, .l]] ++ ckBase m a
  | .atom _ m op t d a b =>
      [ckType (op.takes t), ckSpace m [.g, .l], ckDPair t.is64 d, ckReg b, ckPair t.is64 b] ++ ckBase m a
  | .atomg _ m op t a b => [ckType (op.takes t), ckSpace m [.g, .l], ckReg b, ckPair t.is64 b] ++ ckBase m a
  | .cas _ m t d a b c =>
      [ckType t.b32u64, ckSpace m [.g, .l], ckDPair t.is64 d, ckReg b, ckPair t.is64 b, ckReg c, ckPair t.is64 c]
        ++ ckBase m a
  | .atomf _ m _ t _ a b => [ckType t.isFloat, ckSpace m [.g, .l], ckReg b] ++ ckBase m a
  | .prf _ _ a => ckG a
  | .fence h ord _ => [ckMod (ord != .rlx), ckNoImm h]
  | .wait h => [(h.imm &&& 0xC0C0C0C0 == 0, .unusedField)]
  | .inv _ a b | .flush _ a b => ckReg b :: ckG a
  | .rld _ m t d a c => [ckType t.isPlain, ckLoadOrd m, ckSpace m [.g], ckDPair t.is64 d, ckReg c] ++ ckBase m a
  | .rst _ m t a b c =>
      [ckType t.isPlain, ckStoreOrd m, ckSpace m [.g], ckReg b, ckPair t.is64 b, ckReg c] ++ ckBase m a
  | .ratom _ m op t d a b c =>
      [ckType (op.takes t), ckSpace m [.g], ckDPair t.is64 d, ckReg b, ckPair t.is64 b, ckReg c] ++ ckBase m a
  | .rcas _ m t d a b c =>
      [ckType t.b32u64, ckSpace m [.g], ckDPair t.is64 d, ckReg b,
       (b.al (if t.is64 then 4 else 2), .multiple), ckReg c] ++ ckBase m a
  | .ratomf _ m _ t _ a b c => [ckType t.isFloat, ckSpace m [.g], ckReg b, ckReg c] ++ ckBase m a
  | .ldcv _ m _ a => [ckLoadOrd m, ckSpace m [.g, .l]] ++ ckBase m a
  | .stcv _ m _ a => [ckStoreOrd m, ckSpace m [.g, .l]] ++ ckBase m a
  | .gjoin h a b c => [ckImm h (a :: b :: c.toList)]
  | .gbar h sc => [ckMod (sc != .th), ckNoImm h]
  | .rwait h sc _ a => [ckMod (sc != .th), ckImm h [a]]
  | .vote h op d _ =>
      [(match op, d with
        | .ballot, .reg .zero => false
        | .ballot, .reg _ => true
        | .ballot, .pred _ => false
        | _, .pred _ => true
        | _, .reg _ => false, .destination), ckNoImm h]
  | .shfl h _ t d a b => [ckType t.b32u64, ckDPair t.is64 d, ckPair t.is64 a, ckImm h [a, b]]
  | .red h op t rm sat d a | .scan h op _ t rm sat d a => ckRed h op t rm sat d a
  | .gmatch h _ t _ a => [ckType (t.b32u64 || t.isFloat), ckPair t.is64 a, ckImm h [a]]
  | .mwait _ m _ a b c => [ckLoadOrd m, ckSpace m [.g], ckReg b, ckReg c] ++ ckBase m a
  | .dqPop h _ | .gsatRd h _ | .gsatClr h _ | .gsatArm h _ | .gsatDisarm h _ => [ckNoImm h]
  | .tileDef _ _ a | .patLd _ _ a => ckG a
  | .tileFree h _ | .tileQry h _ _ | .tileRdySet h _ | .tileRdyClr h _ => [ckNoImm h]
  | .tileFill h _ a s => ckImm h [a] :: s.toList.map ckReg
  | .cpIn h _ _ _ b s | .cpOut h _ _ _ b s => [ckNoImm h] ++ ckG b ++ s.toList.map ckReg
  | .cpTt h _ _ _ s => ckNoImm h :: s.toList.map ckReg
  | .spCfg h d a => [ckX d, ckImm h [a]]
  | .mmSign h _ => [ckNoImm h]
  | .mmMmaT1i8 h _ _ _ acc _ b | .mmMmaT5i8 h _ _ _ acc _ b => ckMma h false acc [b]
  | .mmMmaT5i8Bx h _ _ _ acc _ b c => ckMma h false acc [b, c]
  | .mmMmaT11i16 h _ _ _ acc _ b | .mmMmaRing16 h _ _ _ acc _ b | .mmMmaRing32 h _ _ _ acc _ b => ckMma h true acc [b]
  | .wbLd _ _ a b c => ckReg b :: ckReg c :: ckG a
  | .accClr h w acc => [ckNoImm h, (!w || acc.toNat % 2 == 0, .multiple)]
  | .accRd h itp t rm _ acc =>
      [ckType (itp.takes t), ckMod (rm == .rne || (t.isFloat && itp != .bx)), (!itp.isPair || acc.toNat % 2 == 0, .multiple),
       ckNoImm h]
  | .accSt h w acc _ => [ckNoImm h, (!w || acc.toNat % 2 == 0, .multiple)]
  | .sortLoad h _ _ _ t _ _ _ => [ckType t.isKey, ckNoImm h]
  | .sortStore h _ _ => [ckNoImm h]
  | .sortMerge h => [(h.imm &&& 0xFFFFC0C0 == 0, .unusedField)]
  | .sortMatch h d a => [ckX d, (d.al 4, .multiple), ckImm h [a]]
  | .sortStateRd h _ => [ckNoImm h]
  | .ownClaim h _ _ _ a b => [ckImm h [b]] ++ ckG a
  | .ownLend _ _ a b => ckReg b :: ckG a
  | .ownRet _ a | .ownSplit _ _ a | .ownJoin _ _ a | .ownDrop _ a | .ownQuery _ _ a => ckG a
  | .ownShare _ _ _ a b => ckReg b :: ckG a
  | .ownQuerySelf h _ => [ckNoImm h]
  | .shSessOpen _ d a => ckX d :: ckG a
  | .shBeg h t d _ b c =>
      [ckX d, (d.al t.group, .multiple), (b.isSome == t.word, .unusedField), ckReg c, ckNoImm h]
  | .shXch h t d a b c | .shReveal h t d a b c =>
      [ckX d, ckType t.word, ckDPair t.wide d, ckPair t.wide a, ckReg b, ckImm h [a, c],
       (!c.isImm || h.imm.extractLsb' 16 16 == 0, .immediate)]
  | .shFin h t d a b c | .shTrunc h t d a b c =>
      [ckX d, ckType t.arith, ckPair t.wide b, ckReg c, ckNoImm h]
        ++ ckGrp (match t with | .s32 => .s32 | _ => .s16) a
  | .shAdd h t d a b p | .shSub h t d a b p => [ckX d, ckType t.arith, ckImm h [a, b]] ++ ckPub p
  | .shCmul h t d a b => [ckX d, ckType t.arith, ckImm h [a, b]]
  | .shAnd h d a _ c => [ckX d, ckReg c, ckNoImm h] ++ ckGrp .b16 a
  | .shXor h d a b p => [ckX d, ckImm h [a, b]] ++ ckPub p
  | .shCvtA2b h _ d _ b => [ckX d, ckReg b, ckNoImm h]
  | .shCvtB2a h t _ d _ b => [ckX d, ckType t.arith, ckReg b, (h.imm.extractLsb' 4 28 == 0, .unusedField)]
  | .shPool _ _ d a b _ => [ckX d, ckReg b] ++ ckG a
  | .shClose h d a => [ckX d, ckReg a, ckNoImm h]
  | .partQsc h d a | .partRes h d a | .worldClr h d a => [ckX d, ckImm h [a]]
  | .partWil h d a b | .worldLat h d a b | .fabCfgBind h d a b | .fabCfgUnbind h d a b | .fabCfgPort h d a b
  | .fabCfgQry h d a b => [ckX d, ckImm h [a, b]]
  | .partWnb h d a b => [ckX d, ckReg b, ckPair true b, ckImm h [a]]
  | .fabCfgRoute h d a b => [ckX d, ckPair true b, ckImm h [a, b]]
  | .xltSdRange h d a b c => [ckX d, ckReg b, ckReg c, ckNoImm h] ++ ckG a
  | .xltSdWorld h d c => [ckX d, ckReg c, ckNoImm h]
  | .xltSdPart h d => [ckX d, ckNoImm h]
  | .keySet h d a b => [ckX d, ckImm h [b]] ++ ckG a
  | _ => []

/-- The first check that fails, by name. -/
def Instr.illFormed (i : Instr) : Option Illegal := (i.checks.find? fun c => !c.1).map (·.2)

def Instr.wellFormed (i : Instr) : Bool := i.illFormed.isNone

end Sys2Proof
end

