-- ==== Sys2Proof/Decode.lean ====
section
/-!
DEFINITION. Instruction words (R21 to R36 and the encoding tables of every chapter): the common layout, the decoder, which
refuses by a name of R32's cases, and the encoder.
-/
namespace Sys2Proof

/-- The common layout of R21. -/
structure Fields where
  op    : BitVec 8
  d     : BitVec 8 := 0
  a     : BitVec 8 := 0
  b     : BitVec 8 := 0
  c     : BitVec 8 := 0
  guard : BitVec 3 := 0
  inv   : Bool := false
  ty    : BitVec 4 := 0
  md    : BitVec 16 := 0
  imm   : Word := 0
  deriving DecidableEq, Repr

def Fields.unpack (w : InstrWord) : Fields where
  op    := w.extractLsb' 0 8
  d     := w.extractLsb' 8 8
  a     := w.extractLsb' 16 8
  b     := w.extractLsb' 24 8
  c     := w.extractLsb' 32 8
  guard := w.extractLsb' 40 3
  inv   := w.getLsbD 43
  ty    := w.extractLsb' 44 4
  md    := w.extractLsb' 48 16
  imm   := w.extractLsb' 64 32

def Fields.pack (f : Fields) : InstrWord :=
  f.imm ++ f.md ++ f.ty ++ BitVec.ofBool f.inv ++ f.guard ++ f.c ++ f.b ++ f.a ++ f.d ++ f.op

/-! ### Codes of operands (R23, R24, R26, R27) -/

def Src.code : Src → BitVec 8
  | .x n => n.setWidth 8
  | .y n => 0x80 + n.setWidth 8
  | .sp s => BitVec.ofNat 8 (0xC0 + s.idx)
  | .imm => 0xFF
def Dst.code : Dst → BitVec 8
  | .x n => n.setWidth 8
  | .y n => 0x80 + n.setWidth 8
  | .zero => 0xC0
def Pred.code (k : Pred) : BitVec 8 := k.setWidth 8

abbrev Dec := Except Illegal

def Dec.src (v : BitVec 8) : Dec Src :=
  if v.toNat < 0x80 then .ok (.x (v.setWidth 7))
  else if v.toNat < 0xC0 then .ok (.y (v.setWidth 6))
  else if v = 0xFF then .ok .imm
  else match Special.all[v.toNat - 0xC0]? with
    | some s => .ok (.sp s)
    | none => .error .specifier
def Dec.dst (v : BitVec 8) : Dec Dst :=
  if v.toNat < 0x80 then .ok (.x (v.setWidth 7))
  else if v.toNat < 0xC0 then .ok (.y (v.setWidth 6))
  else if v = 0xC0 then .ok .zero
  else if v = 0xFF ∨ v.toNat < 0xD0 then .error .destination
  else .error .specifier
def Dec.pred (v : BitVec 8) : Dec Pred := if v.toNat < 8 then .ok (v.setWidth 3) else .error .predicate
/-- A plain number below 16 or 128 (R191, R216, R242). -/
def Dec.num4 (v : BitVec 8) : Dec (BitVec 4) := if v.toNat < 16 then .ok (v.setWidth 4) else .error .number
def Dec.num7 (v : BitVec 8) : Dec (BitVec 7) := if v.toNat < 128 then .ok (v.setWidth 7) else .error .number
/-- The value with this code in an enumeration listed in code order. -/
def Dec.enum (l : List α) (v : BitVec n) : Dec α :=
  match l[v.toNat]? with
  | some x => .ok x
  | none => .error .modifier
def Dec.ty (v : BitVec 4) : Dec Ty :=
  match Ty.all[v.toNat]? with
  | some x => .ok x
  | none => .error .type
def Dec.shTy (v : BitVec 4) : Dec ShTy :=
  match ShTy.all[v.toNat]? with
  | some x => .ok x
  | none => .error .type
def Dec.opt (p : Bool) (x : Dec α) : Dec (Option α) := if p then x.map some else .ok none

def Ty.code (t : Ty) : BitVec 4 := BitVec.ofNat 4 t.ctorIdx
def ShTy.code (t : ShTy) : BitVec 4 := BitVec.ofNat 4 t.ctorIdx
def Rm.code (r : Rm) : BitVec 2 := BitVec.ofNat 2 r.ctorIdx
def MOrd.code (r : MOrd) : BitVec 2 := BitVec.ofNat 2 r.ctorIdx
def Scope.code (r : Scope) : BitVec 3 := BitVec.ofNat 3 r.ctorIdx
def Space.code (r : Space) : BitVec 2 := BitVec.ofNat 2 r.ctorIdx

/-! ### Modifier layouts (R28) -/

/-- Memory: per-instruction [63:58], space [57:56], eviction [55:53], scope [52:50], ordering [49:48]. -/
def MMod.code (m : MMod) (per : BitVec 6) : BitVec 16 := per ++ m.space.code ++ m.evict ++ m.scope.code ++ m.ord.code
def Dec.mmod (v : BitVec 16) : Dec MMod := do
  let o ← Dec.enum MOrd.all (v.extractLsb' 0 2)
  let s ← Dec.enum Scope.all (v.extractLsb' 2 3)
  let p ← Dec.enum Space.all (v.extractLsb' 8 2)
  .ok { ord := o, scope := s, evict := v.extractLsb' 5 3, space := p }
/-- The scale of `lea`: modifier bits [52:49], 0 to 7 (R102). -/
def Dec.scale (v : BitVec 16) : Dec (BitVec 3) := if v.getLsbD 4 then .error .modifier else .ok (v.extractLsb' 1 3)
def perOf (v : BitVec 16) : BitVec 6 := v.extractLsb' 10 6

/-- Integer: saturate [48], per-instruction [52:49]. -/
def intMod (sat : Bool) (per : BitVec 4) : BitVec 16 := 0#11 ++ per ++ BitVec.ofBool sat
/-- Float, convert, function: rounding [49:48], grade [50], saturate [51], per-instruction [55:52]. -/
def fltMod (rm : Rm) (acc sat : Bool) (per : BitVec 4) : BitVec 16 :=
  0#8 ++ per ++ BitVec.ofBool sat ++ BitVec.ofBool acc ++ rm.code
/-- A modifier whose only used bits are its lowest n. -/
def lowMod (v : BitVec n) : BitVec 16 := v.setWidth 16
/-- Group class: op [50:48], rounding [52:51], saturate [53], kind [54] (R172). -/
def redMod (op : ROp) (rm : Rm) (sat exc : Bool) : BitVec 16 :=
  0#9 ++ BitVec.ofBool exc ++ BitVec.ofBool sat ++ rm.code ++ BitVec.ofNat 3 op.ctorIdx
/-- `mm.mma`: convergence register [51:48], z [52], s [53] (R216). -/
def mmaMod (cv : BitVec 4) (z s : Bool) : BitVec 16 := 0#10 ++ BitVec.ofBool s ++ BitVec.ofBool z ++ cv

def Fields.hdr (f : Fields) : Hdr := { guard := f.guard, inv := f.inv, imm := f.imm }
def Hdr.fields (h : Hdr) (op : BitVec 8) (d a b c : BitVec 8 := 0) (ty : BitVec 4 := 0) (md : BitVec 16 := 0) : Fields :=
  { op, d, a, b, c, guard := h.guard, inv := h.inv, ty, md, imm := h.imm }

def optCode : Option Src → BitVec 8
  | some s => s.code
  | none => 0
def optNum : Option (BitVec 7) → BitVec 8
  | some n => n.setWidth 8
  | none => 0
def VDst.code : VDst → BitVec 8
  | .pred k => k.code
  | .reg d => d.code

/-- The integer class (R94 to R105). -/
def parseInt (f : Fields) : Dec Instr :=
  match f.op.toNat with
  | 0x00 => do .ok (.iadd f.hdr (← Dec.ty f.ty) (f.md.getLsbD 0) (← Dec.dst f.d) (← Dec.src f.a)
        (← Dec.src f.b))
  | 0x01 => do .ok (.isub f.hdr (← Dec.ty f.ty) (f.md.getLsbD 0) (← Dec.dst f.d) (← Dec.src f.a)
        (← Dec.src f.b))
  | 0x02 => do .ok (.imul f.hdr (← Dec.ty f.ty) (f.md.getLsbD 0) (← Dec.dst f.d) (← Dec.src f.a)
        (← Dec.src f.b))
  | 0x03 => do .ok (.imulh f.hdr (← Dec.ty f.ty) (← Dec.dst f.d) (← Dec.src f.a) (← Dec.src f.b))
  | 0x04 => do .ok (.imad f.hdr (← Dec.ty f.ty) (f.md.getLsbD 0) (← Dec.dst f.d) (← Dec.src f.a)
        (← Dec.src f.b) (← Dec.src f.c))
  | 0x05 => do .ok (.idiv f.hdr (← Dec.ty f.ty) (f.md.getLsbD 0) (← Dec.dst f.d) (← Dec.src f.a)
        (← Dec.src f.b))
  | 0x06 => do .ok (.irem f.hdr (← Dec.ty f.ty) (← Dec.dst f.d) (← Dec.src f.a) (← Dec.src f.b))
  | 0x07 => do .ok (.ineg f.hdr (← Dec.ty f.ty) (f.md.getLsbD 0) (← Dec.dst f.d) (← Dec.src f.a))
  | 0x08 => do .ok (.iabs f.hdr (← Dec.ty f.ty) (f.md.getLsbD 0) (← Dec.dst f.d) (← Dec.src f.a))
  | 0x09 => do .ok (.imin f.hdr (← Dec.ty f.ty) (← Dec.dst f.d) (← Dec.src f.a) (← Dec.src f.b))
  | 0x0A => do .ok (.imax f.hdr (← Dec.ty f.ty) (← Dec.dst f.d) (← Dec.src f.a) (← Dec.src f.b))
  | 0x0B => do .ok (.iclamp f.hdr (← Dec.ty f.ty) (← Dec.dst f.d) (← Dec.src f.a) (← Dec.src f.b)
        (← Dec.src f.c))
  | 0x0C => do .ok (.iand f.hdr (← Dec.ty f.ty) (← Dec.dst f.d) (← Dec.src f.a) (← Dec.src f.b))
  | 0x0D => do .ok (.ior f.hdr (← Dec.ty f.ty) (← Dec.dst f.d) (← Dec.src f.a) (← Dec.src f.b))
  | 0x0E => do .ok (.ixor f.hdr (← Dec.ty f.ty) (← Dec.dst f.d) (← Dec.src f.a) (← Dec.src f.b))
  | 0x0F => do .ok (.inot f.hdr (← Dec.ty f.ty) (← Dec.dst f.d) (← Dec.src f.a))
  | 0x10 => do .ok (.iandn f.hdr (← Dec.ty f.ty) (← Dec.dst f.d) (← Dec.src f.a) (← Dec.src f.b))
  | 0x11 => do .ok (.shl f.hdr (← Dec.ty f.ty) (← Dec.dst f.d) (← Dec.src f.a) (← Dec.src f.b))
  | 0x12 => do .ok (.shr f.hdr (← Dec.ty f.ty) (← Dec.dst f.d) (← Dec.src f.a) (← Dec.src f.b))
  | 0x13 => do .ok (.sra f.hdr (← Dec.ty f.ty) (← Dec.dst f.d) (← Dec.src f.a) (← Dec.src f.b))
  | 0x14 => do .ok (.rotl f.hdr (← Dec.ty f.ty) (← Dec.dst f.d) (← Dec.src f.a) (← Dec.src f.b))
  | 0x15 => do .ok (.fshl f.hdr (← Dec.ty f.ty) (← Dec.dst f.d) (← Dec.src f.a) (← Dec.src f.b) (← Dec.src f.c))
  | 0x16 => do .ok (.popc f.hdr (← Dec.ty f.ty) (← Dec.dst f.d) (← Dec.src f.a))
  | 0x17 => do .ok (.clz f.hdr (← Dec.ty f.ty) (← Dec.dst f.d) (← Dec.src f.a))
  | 0x18 => do .ok (.ctz f.hdr (← Dec.ty f.ty) (← Dec.dst f.d) (← Dec.src f.a))
  | 0x19 => do .ok (.brev f.hdr (← Dec.ty f.ty) (← Dec.dst f.d) (← Dec.src f.a))
  | 0x1A => do .ok (.bfx f.hdr (← Dec.ty f.ty) (← Dec.dst f.d) (← Dec.src f.a) (← Dec.src f.b))
  | 0x1B => do .ok (.bfi f.hdr (← Dec.ty f.ty) (← Dec.dst f.d) (← Dec.src f.a) (← Dec.src f.b) (← Dec.src f.c))
  | 0x1C => do .ok (.perm f.hdr (← Dec.dst f.d) (← Dec.src f.a) (← Dec.src f.b) (← Dec.src f.c))
  | 0x1D => do .ok (.icmp f.hdr (← Dec.ty f.ty) (← Dec.enum ICond.all (f.md.extractLsb' 1 4)) (← Dec.pred f.d)
        (← Dec.src f.a) (← Dec.src f.b))
  | 0x1E => do .ok (.sel f.hdr (← Dec.ty f.ty) (← Dec.dst f.d) (← Dec.src f.a) (← Dec.src f.b) (← Dec.pred f.c))
  | 0x1F => do .ok (.mov f.hdr (← Dec.ty f.ty) (← Dec.dst f.d) (← Dec.src f.a))
  | 0x20 => do .ok (.plog f.hdr (← Dec.pred f.d) (← Dec.pred f.a) (← Dec.pred f.b) (← Dec.pred f.c))
  | 0x21 => do .ok (.lea f.hdr (← Dec.ty f.ty) (← Dec.scale f.md) (← Dec.dst f.d) (← Dec.src f.a)
        (← Dec.src f.b))
  | 0x22 => do .ok (.iaddc f.hdr (← Dec.ty f.ty) (f.md.extractLsb' 1 3) (← Dec.dst f.d) (← Dec.src f.a)
        (← Dec.src f.b) (← Dec.pred f.c))
  | 0x23 => do .ok (.isubb f.hdr (← Dec.ty f.ty) (f.md.extractLsb' 1 3) (← Dec.dst f.d) (← Dec.src f.a)
        (← Dec.src f.b) (← Dec.pred f.c))
  | 0x24 => do .ok (.idp4 f.hdr (← Dec.ty f.ty) (f.md.getLsbD 0) (← Dec.dst f.d) (← Dec.src f.a)
        (← Dec.src f.b) (← Dec.src f.c))
  | 0x25 => do .ok (.isad f.hdr (← Dec.ty f.ty) (f.md.getLsbD 0) (← Dec.dst f.d) (← Dec.src f.a)
        (← Dec.src f.b) (← Dec.src f.c))
  | 0x26 => do .ok (.pack f.hdr (← Dec.ty f.ty) (← Dec.dst f.d) (← Dec.src f.a) (← Dec.src f.b))
  | 0x27 => do .ok (.unpk f.hdr (← Dec.ty f.ty) (← Dec.dst f.d) (← Dec.src f.a) (← Dec.src f.b))
  | _ => .error .opcode

/-- The float class (R115 to R130). -/
def parseFlt (f : Fields) : Dec Instr :=
  match f.op.toNat with
  | 0x30 => do .ok (.fadd f.hdr (← Dec.ty f.ty) (← Dec.enum Rm.all (f.md.extractLsb' 0 2)) (← Dec.dst f.d)
        (← Dec.src f.a) (← Dec.src f.b))
  | 0x31 => do .ok (.fsub f.hdr (← Dec.ty f.ty) (← Dec.enum Rm.all (f.md.extractLsb' 0 2)) (← Dec.dst f.d)
        (← Dec.src f.a) (← Dec.src f.b))
  | 0x32 => do .ok (.fmul f.hdr (← Dec.ty f.ty) (← Dec.enum Rm.all (f.md.extractLsb' 0 2)) (← Dec.dst f.d)
        (← Dec.src f.a) (← Dec.src f.b))
  | 0x33 => do .ok (.fma f.hdr (← Dec.ty f.ty) (← Dec.enum Rm.all (f.md.extractLsb' 0 2)) (← Dec.dst f.d)
        (← Dec.src f.a) (← Dec.src f.b) (← Dec.src f.c))
  | 0x34 => do .ok (.fdiv f.hdr (← Dec.ty f.ty) (← Dec.enum Rm.all (f.md.extractLsb' 0 2)) (← Dec.dst f.d)
        (← Dec.src f.a) (← Dec.src f.b))
  | 0x35 => do .ok (.fmin f.hdr (← Dec.ty f.ty) (← Dec.dst f.d) (← Dec.src f.a) (← Dec.src f.b))
  | 0x36 => do .ok (.fmax f.hdr (← Dec.ty f.ty) (← Dec.dst f.d) (← Dec.src f.a) (← Dec.src f.b))
  | 0x37 => do .ok (.fabs f.hdr (← Dec.ty f.ty) (← Dec.dst f.d) (← Dec.src f.a))
  | 0x38 => do .ok (.fneg f.hdr (← Dec.ty f.ty) (← Dec.dst f.d) (← Dec.src f.a))
  | 0x39 => do .ok (.fcmp f.hdr (← Dec.ty f.ty) (← Dec.enum FCond.all (f.md.extractLsb' 4 4)) (← Dec.pred f.d)
        (← Dec.src f.a) (← Dec.src f.b))
  | 0x3A => do .ok (.fclass f.hdr (← Dec.ty f.ty) (← Dec.dst f.d) (← Dec.src f.a))
  | 0x3B => do .ok (.fcpsg f.hdr (← Dec.ty f.ty) (← Dec.dst f.d) (← Dec.src f.a) (← Dec.src f.b))
  | 0x3C => do .ok (.frnd f.hdr (← Dec.ty f.ty) (← Dec.enum Rm.all (f.md.extractLsb' 0 2)) (← Dec.dst f.d)
        (← Dec.src f.a))
  | 0x3D => do .ok (.fcvt f.hdr (← Dec.ty f.ty) (← Dec.ty (f.md.extractLsb' 4 4)) (← Dec.enum Rm.all
        (f.md.extractLsb' 0 2)) (f.md.getLsbD 3) (← Dec.dst f.d) (← Dec.src f.a))
  | 0x3E => do .ok (.f2i f.hdr (← Dec.ty f.ty) (← Dec.ty (f.md.extractLsb' 4 4)) (← Dec.enum Rm.all
        (f.md.extractLsb' 0 2)) (← Dec.dst f.d) (← Dec.src f.a))
  | 0x3F => do .ok (.i2f f.hdr (← Dec.ty f.ty) (← Dec.ty (f.md.extractLsb' 4 4)) (← Dec.enum Rm.all
        (f.md.extractLsb' 0 2)) (← Dec.dst f.d) (← Dec.src f.a))
  | 0x40 => do
        let t ← Dec.ty f.ty
        let sty ← Dec.ty (f.md.extractLsb' 4 4)
        let rm ← Dec.enum Rm.all (f.md.extractLsb' 0 2)
        let d ← Dec.dst f.d
        let a ← Dec.src f.a
        let tB ← Dec.opt (tcvtB t sty) (Dec.src f.b)
        .ok (.tcvt f.hdr t sty rm d a tB)
  | 0x41 => do
        let bxop ← Dec.enum BxOp.all (f.md.extractLsb' 4 4)
        let d ← Dec.dst f.d
        let a ← Dec.src f.a
        let bB ← Dec.opt bxop.readsB (Dec.src f.b)
        .ok (.bxal f.hdr bxop d a bB)
  | 0x42 => do .ok (.fexp2 f.hdr (← Dec.ty f.ty) (f.md.getLsbD 2) (← Dec.dst f.d) (← Dec.src f.a))
  | 0x43 => do .ok (.flog2 f.hdr (← Dec.ty f.ty) (f.md.getLsbD 2) (← Dec.dst f.d) (← Dec.src f.a))
  | 0x44 => do .ok (.frcp f.hdr (← Dec.ty f.ty) (f.md.getLsbD 2) (← Dec.enum Rm.all (f.md.extractLsb' 0 2))
        (← Dec.dst f.d) (← Dec.src f.a))
  | 0x45 => do .ok (.frsqrt f.hdr (← Dec.ty f.ty) (f.md.getLsbD 2) (← Dec.dst f.d) (← Dec.src f.a))
  | 0x46 => do .ok (.fsqrt f.hdr (← Dec.ty f.ty) (f.md.getLsbD 2) (← Dec.enum Rm.all (f.md.extractLsb' 0 2))
        (← Dec.dst f.d) (← Dec.src f.a))
  | 0x47 => do .ok (.fsin f.hdr (← Dec.ty f.ty) (f.md.getLsbD 2) (← Dec.dst f.d) (← Dec.src f.a))
  | 0x48 => do .ok (.fcos f.hdr (← Dec.ty f.ty) (f.md.getLsbD 2) (← Dec.dst f.d) (← Dec.src f.a))
  | 0x49 => do .ok (.ftanh f.hdr (← Dec.ty f.ty) (f.md.getLsbD 2) (← Dec.dst f.d) (← Dec.src f.a))
  | 0x4A => do .ok (.fsigm f.hdr (← Dec.ty f.ty) (f.md.getLsbD 2) (← Dec.dst f.d) (← Dec.src f.a))
  | 0x4B => do .ok (.ferf f.hdr (← Dec.ty f.ty) (f.md.getLsbD 2) (← Dec.dst f.d) (← Dec.src f.a))
  | _ => .error .opcode

/-- The control class (R86, R90, R106, R261). -/
def parseCtl (f : Fields) : Dec Instr :=
  match f.op.toNat with
  | 0x50 => .ok (.br f.hdr)
  | 0x51 => do .ok (.brx f.hdr (← Dec.src f.a))
  | 0x52 => .ok (.call f.hdr)
  | 0x53 => do .ok (.callx f.hdr (← Dec.src f.a))
  | 0x54 => .ok (.ret f.hdr)
  | 0x55 => do .ok (.spawn f.hdr (f.md.extractLsb' 0 5) (← Dec.src f.a) (← Dec.src f.b) (← Dec.src f.c))
  | 0x56 => .ok (.tail f.hdr)
  | 0x57 => do .ok (.exit f.hdr (← Dec.enum Scope.all (f.md.extractLsb' 2 3)) (f.md.extractLsb' 5 3)
        (← Dec.src f.a))
  | 0x58 => .ok (.trap f.hdr)
  | 0x59 => do .ok (.sys f.hdr (← Dec.dst f.d))
  | 0x5A => .ok (.nop f.hdr)
  | 0x5B => .ok (.yield f.hdr)
  | 0x5C => .ok (.brk f.hdr)
  | 0x5D => do .ok (.cstk f.hdr (← Dec.src f.a) (← Dec.src f.b))
  | 0x5E => do .ok (.rdsr f.hdr (← Dec.dst f.d))
  | 0x5F => do .ok (.wrsr f.hdr (← Dec.src f.a))
  | 0x67 => do .ok (.sleep f.hdr (← Dec.src f.a))
  | 0x60 => do .ok (.eret f.hdr (← Dec.src f.a))
  | 0x61 => do .ok (.resm f.hdr (← Dec.src f.a) (← Dec.src f.b) (← Dec.opt (f.md.getLsbD 0) (Dec.src f.c))
        (← Dec.opt (f.md.getLsbD 1) (Dec.src f.d)))
  | 0x62 => do .ok (.kill f.hdr (← Dec.src f.a) (← Dec.src f.b))
  | 0x63 =>
    match (f.md.extractLsb' 0 1).toNat with
    | 0 => do .ok (.sstepThr f.hdr (← Dec.src f.a) (← Dec.src f.b))
    | _ => do .ok (.sstepGrp f.hdr (← Dec.src f.a) (← Dec.src f.b))
  | 0x64 => do .ok (.dump f.hdr (← Dec.mmod f.md) ((perOf f.md).setWidth 4) (← Dec.src f.a) (← Dec.src f.b))
  | 0x65 =>
    match (f.md.extractLsb' 0 2).toNat with
    | 0 => do .ok (.haltHold f.hdr (← Dec.dst f.d))
    | 1 => do .ok (.haltRel f.hdr (← Dec.dst f.d))
    | 2 => do .ok (.haltQ f.hdr (← Dec.dst f.d))
    | _ => .error .modifier
  | 0x66 =>
    match (f.md.extractLsb' 0 2).toNat with
    | 0 => do .ok (.traceOn f.hdr (← Dec.src f.a))
    | 1 => do .ok (.traceOff f.hdr (← Dec.src f.a))
    | 2 => do .ok (.traceMark f.hdr (← Dec.src f.a))
    | _ => .error .modifier
  | _ => .error .opcode

/-- The memory class (R143 to R153, R232, R382). -/
def parseMem (f : Fields) : Dec Instr :=
  match f.op.toNat with
  | 0x70 => do .ok (.ld f.hdr (← Dec.mmod f.md) (← Dec.ty f.ty) (← Dec.dst f.d) (← Dec.src f.a))
  | 0x71 => do .ok (.ldu f.hdr (← Dec.mmod f.md) (← Dec.ty f.ty) (← Dec.dst f.d) (← Dec.src f.a))
  | 0x72 => do .ok (.ld4 f.hdr (← Dec.mmod f.md) (← Dec.dst f.d) (← Dec.src f.a))
  | 0x73 => do .ok (.st f.hdr (← Dec.mmod f.md) (← Dec.ty f.ty) (← Dec.src f.a) (← Dec.src f.b))
  | 0x74 => do .ok (.st4 f.hdr (← Dec.mmod f.md) (← Dec.src f.a) (← Dec.src f.b))
  | 0x75 => do .ok (.atom f.hdr (← Dec.mmod f.md) (← Dec.enum AOp.all (perOf f.md)) (← Dec.ty f.ty)
        (← Dec.dst f.d) (← Dec.src f.a) (← Dec.src f.b))
  | 0x76 => do .ok (.atomg f.hdr (← Dec.mmod f.md) (← Dec.enum AOp.all (perOf f.md)) (← Dec.ty f.ty)
        (← Dec.src f.a) (← Dec.src f.b))
  | 0x77 => do .ok (.cas f.hdr (← Dec.mmod f.md) (← Dec.ty f.ty) (← Dec.dst f.d) (← Dec.src f.a)
        (← Dec.src f.b) (← Dec.src f.c))
  | 0x78 => do .ok (.prf f.hdr (f.md.extractLsb' 5 3) (← Dec.src f.a))
  | 0x79 => do .ok (.fence f.hdr (← Dec.enum MOrd.all (f.md.extractLsb' 0 2)) (← Dec.enum Scope.all
        (f.md.extractLsb' 2 3)))
  | 0x7A => .ok (.wait f.hdr)
  | 0x7B => do .ok (.inv f.hdr (← Dec.src f.a) (← Dec.src f.b))
  | 0x7C => do .ok (.flush f.hdr (← Dec.src f.a) (← Dec.src f.b))
  | 0x7D => do .ok (.stz f.hdr (← Dec.mmod f.md) (← Dec.src f.a))
  | 0x7E => do .ok (.rld f.hdr (← Dec.mmod f.md) (← Dec.ty f.ty) (← Dec.dst f.d) (← Dec.src f.a)
        (← Dec.src f.c))
  | 0x7F => do .ok (.rst f.hdr (← Dec.mmod f.md) (← Dec.ty f.ty) (← Dec.src f.a) (← Dec.src f.b)
        (← Dec.src f.c))
  | 0x80 => do .ok (.ratom f.hdr (← Dec.mmod f.md) (← Dec.enum AOp.all (perOf f.md)) (← Dec.ty f.ty)
        (← Dec.dst f.d) (← Dec.src f.a) (← Dec.src f.b) (← Dec.src f.c))
  | 0x81 => do .ok (.rcas f.hdr (← Dec.mmod f.md) (← Dec.ty f.ty) (← Dec.dst f.d) (← Dec.src f.a)
        (← Dec.src f.b) (← Dec.src f.c))
  | 0x82 => do .ok (.ldm f.hdr (← Dec.mmod f.md) ((perOf f.md).setWidth 4) (← Dec.dst f.d) (← Dec.src f.a))
  | 0x83 => do .ok (.stm f.hdr (← Dec.mmod f.md) ((perOf f.md).setWidth 4) (← Dec.src f.a) (← Dec.src f.b))
  | 0x84 => do .ok (.ldcv f.hdr (← Dec.mmod f.md) ((perOf f.md).setWidth 4) (← Dec.src f.a))
  | 0x85 => do .ok (.stcv f.hdr (← Dec.mmod f.md) ((perOf f.md).setWidth 4) (← Dec.src f.a))
  | 0x86 => do .ok (.atomf f.hdr (← Dec.mmod f.md) (← Dec.enum FOp.all (perOf f.md)) (← Dec.ty f.ty)
        (← Dec.dst f.d) (← Dec.src f.a) (← Dec.src f.b))
  | 0x87 => do .ok (.ratomf f.hdr (← Dec.mmod f.md) (← Dec.enum FOp.all (perOf f.md)) (← Dec.ty f.ty)
        (← Dec.dst f.d) (← Dec.src f.a) (← Dec.src f.b) (← Dec.src f.c))
  | _ => .error .opcode

/-- The group class (R159, R172, R176). -/
def parseGrp (f : Fields) : Dec Instr :=
  match f.op.toNat with
  | 0x90 => do .ok (.gjoin f.hdr (← Dec.src f.a) (← Dec.src f.b) (← Dec.opt (f.md.getLsbD 0) (Dec.src f.c)))
  | 0x91 => .ok (.gleave f.hdr)
  | 0x92 => do .ok (.gslice f.hdr (← Dec.src f.a))
  | 0x93 => do .ok (.gbar f.hdr (← Dec.enum Scope.all (f.md.extractLsb' 2 3)))
  | 0x94 => do .ok (.rwait f.hdr (← Dec.enum Scope.all (f.md.extractLsb' 2 3)) (← Dec.pred f.d) (← Dec.src f.a))
  | 0x95 => do
        let vop ← Dec.enum VOp.all' (f.md.extractLsb' 0 2)
        let vdst ← match vop with | .ballot => (Dec.dst f.d).map .reg | _ => (Dec.pred f.d).map .pred
        let ka ← Dec.pred f.a
        .ok (.vote f.hdr vop vdst ka)
  | 0x96 => do .ok (.shfl f.hdr (← Dec.enum ShMode.all (f.md.extractLsb' 0 2)) (← Dec.ty f.ty) (← Dec.dst f.d)
        (← Dec.src f.a) (← Dec.src f.b))
  | 0x97 => do .ok (.red f.hdr (← Dec.enum ROp.all (f.md.extractLsb' 0 3)) (← Dec.ty f.ty) (← Dec.enum Rm.all
        (f.md.extractLsb' 3 2)) (f.md.getLsbD 5) (← Dec.dst f.d) (← Dec.src f.a))
  | 0x98 => do .ok (.scan f.hdr (← Dec.enum ROp.all (f.md.extractLsb' 0 3)) (f.md.getLsbD 6) (← Dec.ty f.ty)
        (← Dec.enum Rm.all (f.md.extractLsb' 3 2)) (f.md.getLsbD 5) (← Dec.dst f.d) (← Dec.src f.a))
  | 0x99 => do .ok (.gmatch f.hdr (f.md.getLsbD 0) (← Dec.ty f.ty) (← Dec.dst f.d) (← Dec.src f.a))
  | 0x9A => do .ok (.mwait f.hdr (← Dec.mmod f.md) (← Dec.dst f.d) (← Dec.src f.a) (← Dec.src f.b)
        (← Dec.src f.c))
  | 0x9B => do .ok (.dqPush f.hdr (← Dec.src f.a) (← Dec.src f.b))
  | 0x9C => do .ok (.dqPop f.hdr (← Dec.dst f.d))
  | 0x9D =>
    match (f.md.extractLsb' 0 2).toNat with
    | 0 => do .ok (.gsatRd f.hdr (← Dec.dst f.d))
    | 1 => do .ok (.gsatClr f.hdr (← Dec.dst f.d))
    | 2 => do .ok (.gsatArm f.hdr (← Dec.dst f.d))
    | _ => do .ok (.gsatDisarm f.hdr (← Dec.dst f.d))
  | _ => .error .opcode

/-- The tile class (R191). -/
def parseTile (f : Fields) : Dec Instr :=
  match f.op.toNat with
  | 0xA0 => do .ok (.tileDef f.hdr (← Dec.num7 f.d) (← Dec.src f.a))
  | 0xA1 => do .ok (.tileFree f.hdr (← Dec.num7 f.d))
  | 0xA2 => do .ok (.tileQry f.hdr (← Dec.num7 f.c) (← Dec.dst f.d))
  | 0xA3 =>
    match (f.md.extractLsb' 0 1).toNat with
    | 0 => do .ok (.tileRdySet f.hdr (← Dec.num7 f.d))
    | _ => do .ok (.tileRdyClr f.hdr (← Dec.num7 f.d))
  | 0xA4 => do .ok (.tileFill f.hdr (← Dec.num7 f.d) (← Dec.src f.a) (← Dec.opt (f.md.getLsbD 0) (Dec.src f.c)))
  | 0xA5 => do .ok (.patDef f.hdr (← Dec.num4 f.d) (f.md.extractLsb' 0 4) (← Dec.src f.a))
  | 0xA6 => do .ok (.patLd f.hdr (← Dec.num4 f.d) (← Dec.src f.a))
  | 0xA7 => .ok (.patFence f.hdr)
  | 0xA8 => do .ok (.cpIn f.hdr (f.md.extractLsb' 5 3) (← Dec.num7 f.d) (← Dec.num4 f.a) (← Dec.src f.b)
        (← Dec.opt (f.md.getLsbD 0) (Dec.src f.c)))
  | 0xA9 => do .ok (.cpOut f.hdr (f.md.extractLsb' 5 3) (← Dec.num7 f.d) (← Dec.num4 f.a) (← Dec.src f.b)
        (← Dec.opt (f.md.getLsbD 0) (Dec.src f.c)))
  | 0xAA => do .ok (.cpTt f.hdr (f.md.getLsbD 1) (← Dec.num7 f.d) (← Dec.num7 f.a) (← Dec.opt (f.md.getLsbD 0)
        (Dec.src f.c)))
  | 0xAB => do .ok (.spCfg f.hdr (← Dec.dst f.d) (← Dec.src f.a))
  | _ => .error .opcode

/-- The matrix class (R35, R216). -/
def parseMat (f : Fields) : Dec Instr :=
  match f.op.toNat with
  | 0xB0 => do .ok (.mmRsv f.hdr (← Dec.pred f.d) (← Dec.src f.a))
  | 0xB1 => .ok (.mmRel f.hdr)
  | 0xB2 => do .ok (.mmDecl f.hdr (f.md.getLsbD 0) (← Dec.num4 f.d) (← Dec.src f.a))
  | 0xB3 => do .ok (.mmSign f.hdr (f.md.extractLsb' 0 4))
  | 0xB4 => .ok (.mmFence f.hdr)
  | 0xB5 =>
    match f.ty.toNat with
    | 0 => do .ok (.mmMmaT1i8 f.hdr (f.md.extractLsb' 0 4) (f.md.getLsbD 4) (f.md.getLsbD 5) (← Dec.num4 f.d)
        (← Dec.num7 f.a) (← Dec.src f.b))
    | 1 => do .ok (.mmMmaT5i8 f.hdr (f.md.extractLsb' 0 4) (f.md.getLsbD 4) (f.md.getLsbD 5) (← Dec.num4 f.d)
        (← Dec.num7 f.a) (← Dec.src f.b))
    | 2 => do .ok (.mmMmaT5i8Bx f.hdr (f.md.extractLsb' 0 4) (f.md.getLsbD 4) (f.md.getLsbD 5)
        (← Dec.num4 f.d) (← Dec.num7 f.a) (← Dec.src f.b) (← Dec.src f.c))
    | _ => .error .type
  | 0xB6 => do .ok (.mmMmaT11i16 f.hdr (f.md.extractLsb' 0 4) (f.md.getLsbD 4) (f.md.getLsbD 5)
        (← Dec.num4 f.d) (← Dec.num7 f.a) (← Dec.src f.b))
  | 0xB7 =>
    match f.ty.toNat with
    | 0 => do .ok (.mmMmaRing16 f.hdr (f.md.extractLsb' 0 4) (f.md.getLsbD 4) (f.md.getLsbD 5)
        (← Dec.num4 f.d) (← Dec.num7 f.a) (← Dec.src f.b))
    | 1 => do .ok (.mmMmaRing32 f.hdr (f.md.extractLsb' 0 4) (f.md.getLsbD 4) (f.md.getLsbD 5)
        (← Dec.num4 f.d) (← Dec.num7 f.a) (← Dec.src f.b))
    | _ => .error .type
  | 0xB8 => do .ok (.wbLd f.hdr (f.md.extractLsb' 5 3) (← Dec.src f.a) (← Dec.src f.b) (← Dec.src f.c))
  | 0xB9 => do .ok (.accClr f.hdr (f.md.getLsbD 0) (← Dec.num4 f.d))
  | 0xBA => do .ok (.accRd f.hdr (← Dec.enum Interp.all (f.md.extractLsb' 2 2)) (← Dec.ty f.ty)
        (← Dec.enum Rm.all (f.md.extractLsb' 0 2)) (← Dec.num7 f.d) (← Dec.num4 f.a))
  | 0xBB => do .ok (.accSt f.hdr (f.md.getLsbD 0) (← Dec.num4 f.d) (← Dec.num7 f.a))
  | _ => .error .opcode

/-- The sort class (R242). -/
def parseSrt (f : Fields) : Dec Instr :=
  match f.op.toNat with
  | 0xC0 => do .ok (.sortLoad f.hdr (f.md.getLsbD 0) (f.md.getLsbD 1) (f.md.getLsbD 2) (← Dec.ty f.ty)
        (← Dec.pred f.d) (← Dec.num7 f.a) (← Dec.opt (f.md.getLsbD 3) (Dec.num7 f.b)))
  | 0xC1 => do .ok (.sortRun f.hdr (← Dec.src f.a))
  | 0xC2 => do .ok (.sortStore f.hdr (← Dec.num7 f.d) (← Dec.opt (f.md.getLsbD 0) (Dec.num7 f.a)))
  | 0xC3 => do .ok (.sortTopk f.hdr (← Dec.src f.a))
  | 0xC4 => .ok (.sortMerge f.hdr)
  | 0xC5 => do .ok (.sortMatch f.hdr (← Dec.dst f.d) (← Dec.src f.a))
  | 0xC6 =>
    match (f.md.extractLsb' 0 1).toNat with
    | 0 => do .ok (.sortStateRd f.hdr (← Dec.dst f.d))
    | _ => .ok (.sortStateRel f.hdr)
  | _ => .error .opcode

/-- The token class (R308). -/
def parseTok (f : Fields) : Dec Instr :=
  match f.op.toNat with
  | 0xC8 => do .ok (.ownClaim f.hdr (← Dec.enum TMode.all (f.md.extractLsb' 0 2)) (f.md.getLsbD 2)
        (← Dec.pred f.d) (← Dec.src f.a) (← Dec.src f.b))
  | 0xC9 => do .ok (.ownLend f.hdr (← Dec.pred f.d) (← Dec.src f.a) (← Dec.src f.b))
  | 0xCA => do .ok (.ownRet f.hdr (← Dec.src f.a))
  | 0xCB => do .ok (.ownSplit f.hdr (← Dec.pred f.d) (← Dec.src f.a))
  | 0xCC => do .ok (.ownJoin f.hdr (← Dec.pred f.d) (← Dec.src f.a))
  | 0xCD => do .ok (.ownShare f.hdr (← Dec.enum TMode.all (f.md.extractLsb' 0 2)) (← Dec.pred f.d)
        (← Dec.src f.a) (← Dec.src f.b))
  | 0xCE => do .ok (.ownDrop f.hdr (← Dec.src f.a))
  | 0xCF =>
    match (f.md.extractLsb' 0 1).toNat with
    | 0 => do .ok (.ownQuery f.hdr (← Dec.dst f.d) (← Dec.src f.a))
    | _ => do .ok (.ownQuerySelf f.hdr (← Dec.dst f.d))
  | _ => .error .opcode

/-- The share class (R361). -/
def parseShr (f : Fields) : Dec Instr :=
  match f.op.toNat with
  | 0xD0 =>
    match (f.md.extractLsb' 0 1).toNat with
    | 0 => do .ok (.shSessOpen f.hdr (← Dec.dst f.d) (← Dec.src f.a))
    | _ => do .ok (.shSessQry f.hdr (← Dec.dst f.d) (← Dec.src f.a))
  | 0xD1 => do
        let t ← Dec.shTy f.ty
        let d ← Dec.dst f.d
        let a ← Dec.src f.a
        let wB ← Dec.opt t.word (Dec.src f.b)
        let c ← Dec.src f.c
        .ok (.shBeg f.hdr t d a wB c)
  | 0xD2 => do .ok (.shXch f.hdr (← Dec.shTy f.ty) (← Dec.dst f.d) (← Dec.src f.a) (← Dec.src f.b)
        (← Dec.src f.c))
  | 0xD3 => do .ok (.shFin f.hdr (← Dec.shTy f.ty) (← Dec.dst f.d) (← Dec.src f.a) (← Dec.src f.b)
        (← Dec.src f.c))
  | 0xD4 => do .ok (.shAdd f.hdr (← Dec.shTy f.ty) (← Dec.dst f.d) (← Dec.src f.a) (← Dec.src f.b) (← Dec.opt
        (f.md.getLsbD 0) (Dec.src f.c)))
  | 0xD5 => do .ok (.shSub f.hdr (← Dec.shTy f.ty) (← Dec.dst f.d) (← Dec.src f.a) (← Dec.src f.b) (← Dec.opt
        (f.md.getLsbD 0) (Dec.src f.c)))
  | 0xD6 => do .ok (.shCmul f.hdr (← Dec.shTy f.ty) (← Dec.dst f.d) (← Dec.src f.a) (← Dec.src f.b))
  | 0xD7 => do .ok (.shTrunc f.hdr (← Dec.shTy f.ty) (← Dec.dst f.d) (← Dec.src f.a) (← Dec.src f.b)
        (← Dec.src f.c))
  | 0xD8 => do .ok (.shAnd f.hdr (← Dec.dst f.d) (← Dec.src f.a) (← Dec.src f.b) (← Dec.src f.c))
  | 0xD9 => do .ok (.shXor f.hdr (← Dec.dst f.d) (← Dec.src f.a) (← Dec.src f.b) (← Dec.opt (f.md.getLsbD 0)
        (Dec.src f.c)))
  | 0xDA =>
    match (f.md.extractLsb' 0 1).toNat with
    | 0 => do .ok (.shCvtA2b f.hdr (f.md.getLsbD 1) (← Dec.dst f.d) (← Dec.src f.a) (← Dec.src f.b))
    | _ => do .ok (.shCvtB2a f.hdr (← Dec.shTy f.ty) (f.md.getLsbD 1) (← Dec.dst f.d) (← Dec.src f.a)
        (← Dec.src f.b))
  | 0xDB => do .ok (.shReveal f.hdr (← Dec.shTy f.ty) (← Dec.dst f.d) (← Dec.src f.a) (← Dec.src f.b)
        (← Dec.src f.c))
  | 0xDC => do .ok (.shPool f.hdr (← Dec.shTy f.ty) (← Dec.dst f.d) (← Dec.src f.a) (← Dec.src f.b)
        (← Dec.src f.c))
  | 0xDD => do .ok (.shClose f.hdr (← Dec.dst f.d) (← Dec.src f.a))
  | _ => .error .opcode

/-- The privileged class (R304, R333, R346, R380). -/
def parsePrv (f : Fields) : Dec Instr :=
  match f.op.toNat with
  | 0xE0 => do .ok (.partQsc f.hdr (← Dec.dst f.d) (← Dec.src f.a))
  | 0xE1 => do .ok (.partRes f.hdr (← Dec.dst f.d) (← Dec.src f.a))
  | 0xE2 => do .ok (.partWil f.hdr (← Dec.dst f.d) (← Dec.src f.a) (← Dec.src f.b))
  | 0xE3 => do .ok (.partWnb f.hdr (← Dec.dst f.d) (← Dec.src f.a) (← Dec.src f.b))
  | 0xE4 =>
    match (f.md.extractLsb' 0 2).toNat with
    | 0 => do .ok (.xltSdRange f.hdr (← Dec.dst f.d) (← Dec.src f.a) (← Dec.src f.b) (← Dec.src f.c))
    | 1 => do .ok (.xltSdWorld f.hdr (← Dec.dst f.d) (← Dec.src f.c))
    | 2 => do .ok (.xltSdPart f.hdr (← Dec.dst f.d))
    | _ => .error .modifier
  | 0xE5 => do .ok (.worldLat f.hdr (← Dec.dst f.d) (← Dec.src f.a) (← Dec.src f.b))
  | 0xE6 => do .ok (.worldClr f.hdr (← Dec.dst f.d) (← Dec.src f.a))
  | 0xE7 =>
    match (f.md.extractLsb' 0 3).toNat with
    | 0 => do .ok (.fabCfgRoute f.hdr (← Dec.dst f.d) (← Dec.src f.a) (← Dec.src f.b))
    | 1 => do .ok (.fabCfgBind f.hdr (← Dec.dst f.d) (← Dec.src f.a) (← Dec.src f.b))
    | 2 => do .ok (.fabCfgUnbind f.hdr (← Dec.dst f.d) (← Dec.src f.a) (← Dec.src f.b))
    | 3 => do .ok (.fabCfgPort f.hdr (← Dec.dst f.d) (← Dec.src f.a) (← Dec.src f.b))
    | 4 => do .ok (.fabCfgQry f.hdr (← Dec.dst f.d) (← Dec.src f.a) (← Dec.src f.b))
    | _ => .error .modifier
  | 0xE8 => do .ok (.keySet f.hdr (← Dec.dst f.d) (← Dec.src f.a) (← Dec.src f.b))
  | _ => .error .opcode

/-- The instruction a word's fields name, before the checks of R32. -/
def parse (f : Fields) : Dec Instr :=
  match (f.op.extractLsb' 4 4).toNat with
  | 0x0 | 0x1 | 0x2 => parseInt f
  | 0x3 | 0x4 => parseFlt f
  | 0x5 | 0x6 => parseCtl f
  | 0x7 | 0x8 => parseMem f
  | 0x9 => parseGrp f
  | 0xA => parseTile f
  | 0xB => parseMat f
  | 0xC => if f.op.toNat < 0xC8 then parseSrt f else parseTok f
  | 0xD => parseShr f
  | 0xE => parsePrv f
  | _ => .error .opcode

/-- The fields of an instruction's word; none for an event, which has no word. -/
def Instr.toFields : Instr → Option Fields
  | .iadd h t sat d a b => some (h.fields 0x00 (ty := t.code) (d := d.code) (a := a.code) (b := b.code) (md := intMod sat 0))
  | .isub h t sat d a b => some (h.fields 0x01 (ty := t.code) (d := d.code) (a := a.code) (b := b.code) (md := intMod sat 0))
  | .imul h t sat d a b => some (h.fields 0x02 (ty := t.code) (d := d.code) (a := a.code) (b := b.code) (md := intMod sat 0))
  | .imulh h t d a b => some (h.fields 0x03 (ty := t.code) (d := d.code) (a := a.code) (b := b.code))
  | .imad h t sat d a b c => some (h.fields 0x04 (ty := t.code) (d := d.code) (a := a.code) (b := b.code) (c := c.code) (md := intMod sat 0))
  | .idiv h t sat d a b => some (h.fields 0x05 (ty := t.code) (d := d.code) (a := a.code) (b := b.code) (md := intMod sat 0))
  | .irem h t d a b => some (h.fields 0x06 (ty := t.code) (d := d.code) (a := a.code) (b := b.code))
  | .ineg h t sat d a => some (h.fields 0x07 (ty := t.code) (d := d.code) (a := a.code) (md := intMod sat 0))
  | .iabs h t sat d a => some (h.fields 0x08 (ty := t.code) (d := d.code) (a := a.code) (md := intMod sat 0))
  | .imin h t d a b => some (h.fields 0x09 (ty := t.code) (d := d.code) (a := a.code) (b := b.code))
  | .imax h t d a b => some (h.fields 0x0A (ty := t.code) (d := d.code) (a := a.code) (b := b.code))
  | .iclamp h t d a b c => some (h.fields 0x0B (ty := t.code) (d := d.code) (a := a.code) (b := b.code) (c := c.code))
  | .iand h t d a b => some (h.fields 0x0C (ty := t.code) (d := d.code) (a := a.code) (b := b.code))
  | .ior h t d a b => some (h.fields 0x0D (ty := t.code) (d := d.code) (a := a.code) (b := b.code))
  | .ixor h t d a b => some (h.fields 0x0E (ty := t.code) (d := d.code) (a := a.code) (b := b.code))
  | .inot h t d a => some (h.fields 0x0F (ty := t.code) (d := d.code) (a := a.code))
  | .iandn h t d a b => some (h.fields 0x10 (ty := t.code) (d := d.code) (a := a.code) (b := b.code))
  | .shl h t d a b => some (h.fields 0x11 (ty := t.code) (d := d.code) (a := a.code) (b := b.code))
  | .shr h t d a b => some (h.fields 0x12 (ty := t.code) (d := d.code) (a := a.code) (b := b.code))
  | .sra h t d a b => some (h.fields 0x13 (ty := t.code) (d := d.code) (a := a.code) (b := b.code))
  | .rotl h t d a b => some (h.fields 0x14 (ty := t.code) (d := d.code) (a := a.code) (b := b.code))
  | .fshl h t d a b c => some (h.fields 0x15 (ty := t.code) (d := d.code) (a := a.code) (b := b.code) (c := c.code))
  | .popc h t d a => some (h.fields 0x16 (ty := t.code) (d := d.code) (a := a.code))
  | .clz h t d a => some (h.fields 0x17 (ty := t.code) (d := d.code) (a := a.code))
  | .ctz h t d a => some (h.fields 0x18 (ty := t.code) (d := d.code) (a := a.code))
  | .brev h t d a => some (h.fields 0x19 (ty := t.code) (d := d.code) (a := a.code))
  | .bfx h t d a b => some (h.fields 0x1A (ty := t.code) (d := d.code) (a := a.code) (b := b.code))
  | .bfi h t d a b c => some (h.fields 0x1B (ty := t.code) (d := d.code) (a := a.code) (b := b.code) (c := c.code))
  | .perm h d a b c => some (h.fields 0x1C (d := d.code) (a := a.code) (b := b.code) (c := c.code) (ty := (Ty.code .b32)))
  | .icmp h t icond kd a b => some (h.fields 0x1D (ty := t.code) (d := kd.code) (a := a.code) (b := b.code) (md := intMod false (BitVec.ofNat 4 icond.ctorIdx)))
  | .sel h t d a b kc => some (h.fields 0x1E (ty := t.code) (d := d.code) (a := a.code) (b := b.code) (c := kc.code))
  | .mov h t d a => some (h.fields 0x1F (ty := t.code) (d := d.code) (a := a.code))
  | .plog h kd ka kb kc => some (h.fields 0x20 (d := kd.code) (a := ka.code) (b := kb.code) (c := kc.code))
  | .lea h t scale d a b => some (h.fields 0x21 (ty := t.code) (d := d.code) (a := a.code) (b := b.code) (md := intMod false (0#1 ++ scale)))
  | .iaddc h t ko d a b kc => some (h.fields 0x22 (ty := t.code) (d := d.code) (a := a.code) (b := b.code) (c := kc.code) (md := intMod false (0#1 ++ ko)))
  | .isubb h t ko d a b kc => some (h.fields 0x23 (ty := t.code) (d := d.code) (a := a.code) (b := b.code) (c := kc.code) (md := intMod false (0#1 ++ ko)))
  | .idp4 h t sat d a b c => some (h.fields 0x24 (ty := t.code) (d := d.code) (a := a.code) (b := b.code) (c := c.code) (md := intMod sat 0))
  | .isad h t sat d a b c => some (h.fields 0x25 (ty := t.code) (d := d.code) (a := a.code) (b := b.code) (c := c.code) (md := intMod sat 0))
  | .pack h t d a b => some (h.fields 0x26 (ty := t.code) (d := d.code) (a := a.code) (b := b.code))
  | .unpk h t d a b => some (h.fields 0x27 (ty := t.code) (d := d.code) (a := a.code) (b := b.code))
  | .fadd h t rm d a b => some (h.fields 0x30 (ty := t.code) (d := d.code) (a := a.code) (b := b.code) (md := fltMod rm false false 0))
  | .fsub h t rm d a b => some (h.fields 0x31 (ty := t.code) (d := d.code) (a := a.code) (b := b.code) (md := fltMod rm false false 0))
  | .fmul h t rm d a b => some (h.fields 0x32 (ty := t.code) (d := d.code) (a := a.code) (b := b.code) (md := fltMod rm false false 0))
  | .fma h t rm d a b c => some (h.fields 0x33 (ty := t.code) (d := d.code) (a := a.code) (b := b.code) (c := c.code) (md := fltMod rm false false 0))
  | .fdiv h t rm d a b => some (h.fields 0x34 (ty := t.code) (d := d.code) (a := a.code) (b := b.code) (md := fltMod rm false false 0))
  | .fmin h t d a b => some (h.fields 0x35 (ty := t.code) (d := d.code) (a := a.code) (b := b.code))
  | .fmax h t d a b => some (h.fields 0x36 (ty := t.code) (d := d.code) (a := a.code) (b := b.code))
  | .fabs h t d a => some (h.fields 0x37 (ty := t.code) (d := d.code) (a := a.code))
  | .fneg h t d a => some (h.fields 0x38 (ty := t.code) (d := d.code) (a := a.code))
  | .fcmp h t fcond kd a b => some (h.fields 0x39 (ty := t.code) (d := kd.code) (a := a.code) (b := b.code) (md := fltMod .rne false false (BitVec.ofNat 4 fcond.ctorIdx)))
  | .fclass h t d a => some (h.fields 0x3A (ty := t.code) (d := d.code) (a := a.code))
  | .fcpsg h t d a b => some (h.fields 0x3B (ty := t.code) (d := d.code) (a := a.code) (b := b.code))
  | .frnd h t rm d a => some (h.fields 0x3C (ty := t.code) (d := d.code) (a := a.code) (md := fltMod rm false false 0))
  | .fcvt h t sty rm fsat d a => some (h.fields 0x3D (ty := t.code) (d := d.code) (a := a.code) (md := fltMod rm false fsat sty.code))
  | .f2i h t sty rm d a => some (h.fields 0x3E (ty := t.code) (d := d.code) (a := a.code) (md := fltMod rm false false sty.code))
  | .i2f h t sty rm d a => some (h.fields 0x3F (ty := t.code) (d := d.code) (a := a.code) (md := fltMod rm false false sty.code))
  | .tcvt h t sty rm d a tB => some (h.fields 0x40 (ty := t.code) (d := d.code) (a := a.code) (b := optCode tB) (md := fltMod rm false false sty.code))
  | .bxal h bxop d a bB => some (h.fields 0x41 (d := d.code) (a := a.code) (b := optCode bB) (ty := (Ty.code .bx8)) (md := fltMod .rne false false (BitVec.ofNat 4 bxop.ctorIdx)))
  | .fexp2 h t acc d a => some (h.fields 0x42 (ty := t.code) (d := d.code) (a := a.code) (md := fltMod .rne acc false 0))
  | .flog2 h t acc d a => some (h.fields 0x43 (ty := t.code) (d := d.code) (a := a.code) (md := fltMod .rne acc false 0))
  | .frcp h t acc rm d a => some (h.fields 0x44 (ty := t.code) (d := d.code) (a := a.code) (md := fltMod rm acc false 0))
  | .frsqrt h t acc d a => some (h.fields 0x45 (ty := t.code) (d := d.code) (a := a.code) (md := fltMod .rne acc false 0))
  | .fsqrt h t acc rm d a => some (h.fields 0x46 (ty := t.code) (d := d.code) (a := a.code) (md := fltMod rm acc false 0))
  | .fsin h t acc d a => some (h.fields 0x47 (ty := t.code) (d := d.code) (a := a.code) (md := fltMod .rne acc false 0))
  | .fcos h t acc d a => some (h.fields 0x48 (ty := t.code) (d := d.code) (a := a.code) (md := fltMod .rne acc false 0))
  | .ftanh h t acc d a => some (h.fields 0x49 (ty := t.code) (d := d.code) (a := a.code) (md := fltMod .rne acc false 0))
  | .fsigm h t acc d a => some (h.fields 0x4A (ty := t.code) (d := d.code) (a := a.code) (md := fltMod .rne acc false 0))
  | .ferf h t acc d a => some (h.fields 0x4B (ty := t.code) (d := d.code) (a := a.code) (md := fltMod .rne acc false 0))
  | .br h => some (h.fields 0x50)
  | .brx h a => some (h.fields 0x51 (a := a.code))
  | .call h => some (h.fields 0x52)
  | .callx h a => some (h.fields 0x53 (a := a.code))
  | .ret h => some (h.fields 0x54)
  | .spawn h q5 a b c => some (h.fields 0x55 (a := a.code) (b := b.code) (c := c.code) (md := lowMod q5))
  | .tail h => some (h.fields 0x56)
  | .exit h sc ev a => some (h.fields 0x57 (a := a.code) (md := MMod.code { scope := sc, evict := ev } 0))
  | .trap h => some (h.fields 0x58)
  | .sys h d => some (h.fields 0x59 (d := d.code))
  | .nop h => some (h.fields 0x5A)
  | .yield h => some (h.fields 0x5B)
  | .brk h => some (h.fields 0x5C)
  | .cstk h a b => some (h.fields 0x5D (a := a.code) (b := b.code))
  | .rdsr h d => some (h.fields 0x5E (d := d.code))
  | .wrsr h a => some (h.fields 0x5F (a := a.code))
  | .sleep h a => some (h.fields 0x67 (a := a.code))
  | .eret h a => some (h.fields 0x60 (a := a.code))
  | .resm h a b rpc rval => some (h.fields 0x61 (a := a.code) (b := b.code) (c := optCode rpc) (d := optCode rval) (md := lowMod (BitVec.ofBool rval.isSome ++ BitVec.ofBool rpc.isSome)))
  | .kill h a b => some (h.fields 0x62 (a := a.code) (b := b.code))
  | .sstepThr h a b => some (h.fields 0x63 (a := a.code) (b := b.code) (md := lowMod 0#1))
  | .sstepGrp h a b => some (h.fields 0x63 (a := a.code) (b := b.code) (md := lowMod 1#1))
  | .dump h m n a b => some (h.fields 0x64 (a := a.code) (b := b.code) (md := m.code (0#2 ++ n)))
  | .haltHold h d => some (h.fields 0x65 (d := d.code) (md := lowMod 0#2))
  | .haltRel h d => some (h.fields 0x65 (d := d.code) (md := lowMod 1#2))
  | .haltQ h d => some (h.fields 0x65 (d := d.code) (md := lowMod 2#2))
  | .traceOn h a => some (h.fields 0x66 (a := a.code) (md := lowMod 0#2))
  | .traceOff h a => some (h.fields 0x66 (a := a.code) (md := lowMod 1#2))
  | .traceMark h a => some (h.fields 0x66 (a := a.code) (md := lowMod 2#2))
  | .ld h m t d a => some (h.fields 0x70 (ty := t.code) (d := d.code) (a := a.code) (md := m.code 0))
  | .ldu h m t d a => some (h.fields 0x71 (ty := t.code) (d := d.code) (a := a.code) (md := m.code 0))
  | .ld4 h m d a => some (h.fields 0x72 (d := d.code) (a := a.code) (ty := (Ty.code .b32)) (md := m.code 0))
  | .st h m t a b => some (h.fields 0x73 (ty := t.code) (a := a.code) (b := b.code) (md := m.code 0))
  | .st4 h m a b => some (h.fields 0x74 (a := a.code) (b := b.code) (ty := (Ty.code .b32)) (md := m.code 0))
  | .atom h m aop t d a b => some (h.fields 0x75 (ty := t.code) (d := d.code) (a := a.code) (b := b.code) (md := m.code (BitVec.ofNat 6 aop.ctorIdx)))
  | .atomg h m aop t a b => some (h.fields 0x76 (ty := t.code) (a := a.code) (b := b.code) (md := m.code (BitVec.ofNat 6 aop.ctorIdx)))
  | .cas h m t d a b c => some (h.fields 0x77 (ty := t.code) (d := d.code) (a := a.code) (b := b.code) (c := c.code) (md := m.code 0))
  | .prf h ev a => some (h.fields 0x78 (a := a.code) (md := MMod.code { evict := ev } 0))
  | .fence h o sc => some (h.fields 0x79 (md := MMod.code { ord := o, scope := sc, evict := 0 } 0))
  | .wait h => some (h.fields 0x7A)
  | .inv h a b => some (h.fields 0x7B (a := a.code) (b := b.code))
  | .flush h a b => some (h.fields 0x7C (a := a.code) (b := b.code))
  | .stz h m a => some (h.fields 0x7D (a := a.code) (md := m.code 0))
  | .rld h m t d a c => some (h.fields 0x7E (ty := t.code) (d := d.code) (a := a.code) (c := c.code) (md := m.code 0))
  | .rst h m t a b c => some (h.fields 0x7F (ty := t.code) (a := a.code) (b := b.code) (c := c.code) (md := m.code 0))
  | .ratom h m aop t d a b c => some (h.fields 0x80 (ty := t.code) (d := d.code) (a := a.code) (b := b.code) (c := c.code) (md := m.code (BitVec.ofNat 6 aop.ctorIdx)))
  | .rcas h m t d a b c => some (h.fields 0x81 (ty := t.code) (d := d.code) (a := a.code) (b := b.code) (c := c.code) (md := m.code 0))
  | .ldm h m n d a => some (h.fields 0x82 (d := d.code) (a := a.code) (ty := (Ty.code .b32)) (md := m.code (0#2 ++ n)))
  | .stm h m n a b => some (h.fields 0x83 (a := a.code) (b := b.code) (ty := (Ty.code .b32)) (md := m.code (0#2 ++ n)))
  | .ldcv h m n a => some (h.fields 0x84 (a := a.code) (ty := (Ty.code .b32)) (md := m.code (0#2 ++ n)))
  | .stcv h m n a => some (h.fields 0x85 (a := a.code) (ty := (Ty.code .b32)) (md := m.code (0#2 ++ n)))
  | .atomf h m fop t d a b => some (h.fields 0x86 (ty := t.code) (d := d.code) (a := a.code) (b := b.code) (md := m.code (BitVec.ofNat 6 fop.ctorIdx)))
  | .ratomf h m fop t d a b c => some (h.fields 0x87 (ty := t.code) (d := d.code) (a := a.code) (b := b.code) (c := c.code) (md := m.code (BitVec.ofNat 6 fop.ctorIdx)))
  | .gjoin h a b optC0 => some (h.fields 0x90 (a := a.code) (b := b.code) (c := optCode optC0) (md := lowMod (BitVec.ofBool optC0.isSome)))
  | .gleave h => some (h.fields 0x91)
  | .gslice h a => some (h.fields 0x92 (a := a.code))
  | .gbar h sc => some (h.fields 0x93 (md := MMod.code { scope := sc, evict := 0 } 0))
  | .rwait h sc kd a => some (h.fields 0x94 (d := kd.code) (a := a.code) (md := MMod.code { scope := sc, evict := 0 } 0))
  | .vote h vop vdst ka => some (h.fields 0x95 (d := vdst.code) (a := ka.code) (md := lowMod (BitVec.ofNat 2 vop.ctorIdx)))
  | .shfl h shm t d a b => some (h.fields 0x96 (ty := t.code) (d := d.code) (a := a.code) (b := b.code) (md := lowMod (BitVec.ofNat 2 shm.ctorIdx)))
  | .red h rop t rrm rsat d a => some (h.fields 0x97 (ty := t.code) (d := d.code) (a := a.code) (md := redMod rop rrm rsat false))
  | .scan h rop rexc t rrm rsat d a => some (h.fields 0x98 (ty := t.code) (d := d.code) (a := a.code) (md := redMod rop rrm rsat rexc))
  | .gmatch h b0 t d a => some (h.fields 0x99 (ty := t.code) (d := d.code) (a := a.code) (md := lowMod (BitVec.ofBool b0)))
  | .mwait h m d a b c => some (h.fields 0x9A (d := d.code) (a := a.code) (b := b.code) (c := c.code) (ty := (Ty.code .b32)) (md := m.code 0))
  | .dqPush h a b => some (h.fields 0x9B (a := a.code) (b := b.code))
  | .dqPop h d => some (h.fields 0x9C (d := d.code))
  | .gsatRd h d => some (h.fields 0x9D (d := d.code) (md := lowMod 0#2))
  | .gsatClr h d => some (h.fields 0x9D (d := d.code) (md := lowMod 1#2))
  | .gsatArm h d => some (h.fields 0x9D (d := d.code) (md := lowMod 2#2))
  | .gsatDisarm h d => some (h.fields 0x9D (d := d.code) (md := lowMod 3#2))
  | .tileDef h tD a => some (h.fields 0xA0 (d := tD.setWidth 8) (a := a.code))
  | .tileFree h tD => some (h.fields 0xA1 (d := tD.setWidth 8))
  | .tileQry h tC d => some (h.fields 0xA2 (c := tC.setWidth 8) (d := d.code))
  | .tileRdySet h tD => some (h.fields 0xA3 (d := tD.setWidth 8) (md := lowMod 0#1))
  | .tileRdyClr h tD => some (h.fields 0xA3 (d := tD.setWidth 8) (md := lowMod 1#1))
  | .tileFill h tD a optC0 => some (h.fields 0xA4 (d := tD.setWidth 8) (a := a.code) (c := optCode optC0) (md := lowMod (BitVec.ofBool optC0.isSome)))
  | .patDef h nD n a => some (h.fields 0xA5 (d := nD.setWidth 8) (a := a.code) (md := lowMod n))
  | .patLd h nD a => some (h.fields 0xA6 (d := nD.setWidth 8) (a := a.code))
  | .patFence h => some (h.fields 0xA7)
  | .cpIn h ev tD nA b optC0 => some (h.fields 0xA8 (d := tD.setWidth 8) (a := nA.setWidth 8) (b := b.code) (c := optCode optC0) (md := 0#8 ++ ev ++ 0#4 ++ BitVec.ofBool optC0.isSome))
  | .cpOut h ev tD nA b optC0 => some (h.fields 0xA9 (d := tD.setWidth 8) (a := nA.setWidth 8) (b := b.code) (c := optCode optC0) (md := 0#8 ++ ev ++ 0#4 ++ BitVec.ofBool optC0.isSome))
  | .cpTt h b1 tD tA optC0 => some (h.fields 0xAA (d := tD.setWidth 8) (a := tA.setWidth 8) (c := optCode optC0) (md := lowMod (BitVec.ofBool b1 ++ BitVec.ofBool optC0.isSome)))
  | .spCfg h d a => some (h.fields 0xAB (d := d.code) (a := a.code))
  | .mmRsv h kd a => some (h.fields 0xB0 (d := kd.code) (a := a.code))
  | .mmRel h => some (h.fields 0xB1)
  | .mmDecl h b0 nD a => some (h.fields 0xB2 (d := nD.setWidth 8) (a := a.code) (md := lowMod (BitVec.ofBool b0)))
  | .mmSign h n => some (h.fields 0xB3 (md := lowMod n))
  | .mmFence h => some (h.fields 0xB4)
  | .mmMmaT1i8 h n z sg nD tA b => some (h.fields 0xB5 (d := nD.setWidth 8) (a := tA.setWidth 8) (b := b.code) (ty := (0#4)) (md := mmaMod n z sg))
  | .mmMmaT5i8 h n z sg nD tA b => some (h.fields 0xB5 (d := nD.setWidth 8) (a := tA.setWidth 8) (b := b.code) (ty := (1#4)) (md := mmaMod n z sg))
  | .mmMmaT5i8Bx h n z sg nD tA b c => some (h.fields 0xB5 (d := nD.setWidth 8) (a := tA.setWidth 8) (b := b.code) (c := c.code) (ty := (2#4)) (md := mmaMod n z sg))
  | .mmMmaT11i16 h n z sg nD tA b => some (h.fields 0xB6 (d := nD.setWidth 8) (a := tA.setWidth 8) (b := b.code) (ty := (0#4)) (md := mmaMod n z sg))
  | .mmMmaRing16 h n z sg nD tA b => some (h.fields 0xB7 (d := nD.setWidth 8) (a := tA.setWidth 8) (b := b.code) (ty := (0#4)) (md := mmaMod n z sg))
  | .mmMmaRing32 h n z sg nD tA b => some (h.fields 0xB7 (d := nD.setWidth 8) (a := tA.setWidth 8) (b := b.code) (ty := (1#4)) (md := mmaMod n z sg))
  | .wbLd h ev a b c => some (h.fields 0xB8 (a := a.code) (b := b.code) (c := c.code) (md := MMod.code { evict := ev } 0))
  | .accClr h b0 nD => some (h.fields 0xB9 (d := nD.setWidth 8) (md := lowMod (BitVec.ofBool b0)))
  | .accRd h itp t rm tD nA => some (h.fields 0xBA (ty := t.code) (d := tD.setWidth 8) (a := nA.setWidth 8) (md := lowMod (BitVec.ofNat 2 itp.ctorIdx ++ rm.code)))
  | .accSt h b0 nD tA => some (h.fields 0xBB (d := nD.setWidth 8) (a := tA.setWidth 8) (md := lowMod (BitVec.ofBool b0)))
  | .sortLoad h b0 b1 b2 t kd tA slB => some (h.fields 0xC0 (ty := t.code) (d := kd.code) (a := tA.setWidth 8) (b := optNum slB) (md := lowMod (BitVec.ofBool slB.isSome ++ BitVec.ofBool b2 ++ BitVec.ofBool b1 ++ BitVec.ofBool b0)))
  | .sortRun h a => some (h.fields 0xC1 (a := a.code))
  | .sortStore h tD ssA => some (h.fields 0xC2 (d := tD.setWidth 8) (a := optNum ssA) (md := lowMod (BitVec.ofBool ssA.isSome)))
  | .sortTopk h a => some (h.fields 0xC3 (a := a.code))
  | .sortMerge h => some (h.fields 0xC4)
  | .sortMatch h d a => some (h.fields 0xC5 (d := d.code) (a := a.code))
  | .sortStateRd h d => some (h.fields 0xC6 (d := d.code) (md := lowMod 0#1))
  | .sortStateRel h => some (h.fields 0xC6 (md := lowMod 1#1))
  | .ownClaim h md b2 kd a b => some (h.fields 0xC8 (d := kd.code) (a := a.code) (b := b.code) (md := lowMod (BitVec.ofBool b2 ++ BitVec.ofNat 2 md.ctorIdx)))
  | .ownLend h kd a b => some (h.fields 0xC9 (d := kd.code) (a := a.code) (b := b.code))
  | .ownRet h a => some (h.fields 0xCA (a := a.code))
  | .ownSplit h kd a => some (h.fields 0xCB (d := kd.code) (a := a.code))
  | .ownJoin h kd a => some (h.fields 0xCC (d := kd.code) (a := a.code))
  | .ownShare h md kd a b => some (h.fields 0xCD (d := kd.code) (a := a.code) (b := b.code) (md := lowMod (BitVec.ofNat 2 md.ctorIdx)))
  | .ownDrop h a => some (h.fields 0xCE (a := a.code))
  | .ownQuery h d a => some (h.fields 0xCF (d := d.code) (a := a.code) (md := lowMod 0#1))
  | .ownQuerySelf h d => some (h.fields 0xCF (d := d.code) (md := lowMod 1#1))
  | .shSessOpen h d a => some (h.fields 0xD0 (d := d.code) (a := a.code) (md := lowMod 0#1))
  | .shSessQry h d a => some (h.fields 0xD0 (d := d.code) (a := a.code) (md := lowMod 1#1))
  | .shBeg h t d a wB c => some (h.fields 0xD1 (ty := t.code) (d := d.code) (a := a.code) (b := optCode wB) (c := c.code))
  | .shXch h t d a b c => some (h.fields 0xD2 (ty := t.code) (d := d.code) (a := a.code) (b := b.code) (c := c.code))
  | .shFin h t d a b c => some (h.fields 0xD3 (ty := t.code) (d := d.code) (a := a.code) (b := b.code) (c := c.code))
  | .shAdd h t d a b optC0 => some (h.fields 0xD4 (ty := t.code) (d := d.code) (a := a.code) (b := b.code) (c := optCode optC0) (md := lowMod (BitVec.ofBool optC0.isSome)))
  | .shSub h t d a b optC0 => some (h.fields 0xD5 (ty := t.code) (d := d.code) (a := a.code) (b := b.code) (c := optCode optC0) (md := lowMod (BitVec.ofBool optC0.isSome)))
  | .shCmul h t d a b => some (h.fields 0xD6 (ty := t.code) (d := d.code) (a := a.code) (b := b.code))
  | .shTrunc h t d a b c => some (h.fields 0xD7 (ty := t.code) (d := d.code) (a := a.code) (b := b.code) (c := c.code))
  | .shAnd h d a b c => some (h.fields 0xD8 (d := d.code) (a := a.code) (b := b.code) (c := c.code) (ty := (ShTy.code .b16)))
  | .shXor h d a b optC0 => some (h.fields 0xD9 (d := d.code) (a := a.code) (b := b.code) (c := optCode optC0) (ty := (ShTy.code .b16)) (md := lowMod (BitVec.ofBool optC0.isSome)))
  | .shCvtA2b h b1 d a b => some (h.fields 0xDA (d := d.code) (a := a.code) (b := b.code) (ty := (ShTy.code .b16)) (md := lowMod (BitVec.ofBool b1 ++ 0#1)))
  | .shCvtB2a h t b1 d a b => some (h.fields 0xDA (ty := t.code) (d := d.code) (a := a.code) (b := b.code) (md := lowMod (BitVec.ofBool b1 ++ 1#1)))
  | .shReveal h t d a b c => some (h.fields 0xDB (ty := t.code) (d := d.code) (a := a.code) (b := b.code) (c := c.code))
  | .shPool h t d a b c => some (h.fields 0xDC (ty := t.code) (d := d.code) (a := a.code) (b := b.code) (c := c.code))
  | .shClose h d a => some (h.fields 0xDD (d := d.code) (a := a.code))
  | .partQsc h d a => some (h.fields 0xE0 (d := d.code) (a := a.code))
  | .partRes h d a => some (h.fields 0xE1 (d := d.code) (a := a.code))
  | .partWil h d a b => some (h.fields 0xE2 (d := d.code) (a := a.code) (b := b.code))
  | .partWnb h d a b => some (h.fields 0xE3 (d := d.code) (a := a.code) (b := b.code))
  | .xltSdRange h d a b c => some (h.fields 0xE4 (d := d.code) (a := a.code) (b := b.code) (c := c.code) (md := lowMod 0#2))
  | .xltSdWorld h d c => some (h.fields 0xE4 (d := d.code) (c := c.code) (md := lowMod 1#2))
  | .xltSdPart h d => some (h.fields 0xE4 (d := d.code) (md := lowMod 2#2))
  | .worldLat h d a b => some (h.fields 0xE5 (d := d.code) (a := a.code) (b := b.code))
  | .worldClr h d a => some (h.fields 0xE6 (d := d.code) (a := a.code))
  | .fabCfgRoute h d a b => some (h.fields 0xE7 (d := d.code) (a := a.code) (b := b.code) (md := lowMod 0#3))
  | .fabCfgBind h d a b => some (h.fields 0xE7 (d := d.code) (a := a.code) (b := b.code) (md := lowMod 1#3))
  | .fabCfgUnbind h d a b => some (h.fields 0xE7 (d := d.code) (a := a.code) (b := b.code) (md := lowMod 2#3))
  | .fabCfgPort h d a b => some (h.fields 0xE7 (d := d.code) (a := a.code) (b := b.code) (md := lowMod 3#3))
  | .fabCfgQry h d a b => some (h.fields 0xE7 (d := d.code) (a := a.code) (b := b.code) (md := lowMod 4#3))
  | .keySet h d a b => some (h.fields 0xE8 (d := d.code) (a := a.code) (b := b.code))
  | _ => none

/-- The word of an instruction; 0 for an event. -/
def encode (i : Instr) : InstrWord := (i.toFields.map Fields.pack).getD 0

/-- Every check of R32 on a word: the instruction, or the case it falls under. -/
def decode (w : InstrWord) : Dec Instr := do
  let f := Fields.unpack w
  let i ← parse f
  match i.illFormed with
  | some e => .error e
  | none => if i.toFields = some f then .ok i else .error .unusedField

/-- The decoder on bits numbered as the table of operations numbers them: bit 0 the least significant of the word. -/
def decodeTableWord (_nbits w : Nat) : Option Instr :=
  match decode (BitVec.ofNat 96 w) with
  | .ok i => some i
  | .error _ => none

end Sys2Proof
end

