-- ==== Sys2Proof/Config.lean ====
section
/-!
DEFINITION. What an implementation fixes and the free values: constants with no body, so no proof can use a value of them.
-/
namespace Sys2Proof.Config

/-- Which of several enabled events, or which of several allowed outcomes, comes next: the argument is the step counter and
a number that tells the choices of one step apart (log 3). -/
opaque choose : Nat → Nat → Nat

/-- An unspecified value (R9): step counter, place. -/
opaque freeWord : Nat → Nat → Word

/-- The result of a function instruction where R131 gives only a bound: function number, grade, f32 input (R132). -/
opaque fnResult : Nat → Bool → Word → Word

/-- The L2 set of a slice that a line address maps to, modulo the 2,048 sets of R296, which gives no mapping (log 16). -/
opaque l2Set : Nat → Nat

/-- How many lines a core's constant cache holds: R138 has it replaced by priority and no rule gives its size (log 55). -/
opaque constLines : Nat

/-- The physical frame at which a world's doorbell page stands on IO0: R352 names the frame and gives no address (log 20). -/
opaque doorbellFrame : Nat → Nat

/-- The 64-bit CRC of a result signature (R324): the polynomial is not given (log 17). -/
opaque crc64 : List Word → DWord

/-- A signature by Heartwood's attestation key, or any other cryptographic function of it, of a message (R347, log 18). -/
opaque sealWord : Nat → List Nat → Nat

/-- How many monitors a slice holds: R176 has its oldest wake when its monitor table is full and no rule gives its size (log 58). -/
opaque monitorSlots : Nat

/-- The predictive-failure threshold of an array class, which Heartwood sets (R326, log 71). -/
opaque errThreshold : Nat → Nat

/-- Words of the SHA3-256 of an image (R347, log 18). -/
opaque sha3 : List (BitVec 8) → Nat → Word

/-- The words by which the debug port names the device: R350 gives the access and no layout (log 43). -/
opaque identity : Nat → Word

/-- How many lines of 128 bytes a handler image takes: R347 has it measured and gives no length (log 72). -/
opaque imageLines : Nat

end Sys2Proof.Config
end

