-- ==== Sys2Proof/Machine/Table.lean ====
section
/-!
DEFINITION. Sparse tables by number: key and value pairs, keys strictly rising. A `Map` lists what is present; a table with a
default (`get`, `set`) lists only the entries that differ from it, so that equal contents are equal data.
-/
namespace Sys2Proof.Machine

abbrev Map (α : Type) := List (Nat × α)

def Map.look : Map α → Nat → Option α
  | [], _ => none
  | (j, v) :: m, k => if k = j then some v else Map.look m k

def Map.has (m : Map α) (k : Nat) : Bool := (m.look k).isSome

/-- The entry in its place, for the one that is there. -/
def Map.put : Map α → Nat → α → Map α
  | [], k, v => [(k, v)]
  | (j, w) :: m, k, v => if k = j then (k, v) :: m else if k < j && !Map.has m k then (k, v) :: (j, w) :: m else (j, w) :: Map.put m k v

def Map.del (m : Map α) (k : Nat) : Map α := m.filter fun e => e.1 != k

def Map.keys (m : Map α) : List Nat := m.map (·.1)
def Map.vals (m : Map α) : List α := m.map (·.2)

/-- A table with default `d`. -/
def Map.get (d : α) (m : Map α) (k : Nat) : α := (m.look k).getD d
def Map.set [DecidableEq α] (d : α) (m : Map α) (k : Nat) (v : α) : Map α := if v = d then m.del k else m.put k v

/-- Keys strictly rising from a bound. -/
def Map.rising : Nat → Map α → Bool
  | _, [] => true
  | lo, (k, _) :: m => decide (lo ≤ k) && Map.rising (k + 1) m
/-- The canonical form of a table with default `d`. -/
def Map.canon [DecidableEq α] (d : α) (m : Map α) : Bool := m.rising 0 && m.all fun e => e.2 != d

/-- The first number below `n` that is not a key. -/
def Map.free (m : Map α) (n : Nat) : Option Nat := (List.range n).find? fun k => !m.has k

/-- The first of the values equal to a pattern, removed. -/
def takeFirst (p : α → Bool) : List α → Option (α × List α)
  | [] => none
  | x :: l => if p x then some (x, l) else (takeFirst p l).map fun (y, l') => (y, x :: l')

/-- The elements at a number, replaced. -/
def modAt (l : List α) (n : Nat) (f : α → α) : List α := l.mapIdx fun i x => if i = n then f x else x

end Sys2Proof.Machine
end

