-- ==== Sys2Proof/Machine/Arith.lean ====
section
/-!
DEFINITION. Integers, bit fields and trits as the types read and write them (R51 to R53, R66 to R71, R94 to R105): exact
mathematics on Int and Nat, one narrowing at the end.
-/
namespace Sys2Proof.Machine

/-- Least and greatest value of an integer type (R53). -/
def tyMin (t : Ty) : Int := if t.signed then -(2 ^ (t.bits - 1) : Nat) else 0
def tyMax (t : Ty) : Int := if t.signed then (2 ^ (t.bits - 1) : Nat) - 1 else (2 ^ t.bits : Nat) - 1

/-- The integer a register or pair holds, read in a type (R51). -/
def rdInt (t : Ty) (v : DWord) : Int :=
  if t.signed then (v.setWidth t.bits).toInt else (v.setWidth t.bits).toNat

/-- A value modulo 2^n as a register, or a pair, holds it: sign-extended for s types, else zero-extended (R51, R53). -/
def wrInt (t : Ty) (x : Int) : DWord :=
  if t.signed then ((BitVec.ofInt t.bits x).signExtend (max t.bits 32)).setWidth 64
  else (BitVec.ofInt t.bits x).setWidth 64

/-- Clamping to a range; the flag says that it clamped (R53, R62). -/
def clamp (lo hi x : Int) : Int × Bool := if x < lo then (lo, true) else if hi < x then (hi, true) else (x, false)

/-- The end of R94: clamp under `.sat`, with SAT where it clamped, else wrap. -/
def intOut (t : Ty) (sat : Bool) (x : Int) : DWord × Bool :=
  if sat then (wrInt t (clamp (tyMin t) (tyMax t) x).1, (clamp (tyMin t) (tyMax t) x).2) else (wrInt t x, false)

/-- Quotient and remainder of R96; the quotient of the least value by -1 is left to wrap or clamp. -/
def divI (t : Ty) (a b : Int) : Int := if b = 0 then (if t.signed then -1 else tyMax t) else a.tdiv b
def remI (a b : Int) : Int := if b = 0 then a else a.tmod b

/-- Logic on the low n bits, shifts and counts (R97). -/
def shlV (t : Ty) (a b : Nat) : Nat := if b < t.bits then a <<< b else 0
def shrV (t : Ty) (a b : Nat) : Nat := if b < t.bits then a >>> b else 0
def sraV (t : Ty) (a : Int) (b : Nat) : Int := a >>> (min b t.bits)
def rotlV (t : Ty) (a b : Nat) : Nat := (a <<< (b % t.bits)) ||| (a >>> (t.bits - b % t.bits))
def fshlV (t : Ty) (a b c : Nat) : Nat :=
  if c % t.bits = 0 then a else (a <<< (c % t.bits)) % 2 ^ t.bits ||| (b >>> (t.bits - c % t.bits))
def popcV (n a : Nat) : Nat := (List.range n).countP a.testBit
def clzV (n a : Nat) : Nat := if a = 0 then n else n - 1 - a.log2
def ctzV (n a : Nat) : Nat := ((List.range n).find? a.testBit).getD n
def brevV (n a : Nat) : Nat := (List.range n).foldl (fun r i => if a.testBit i then r + 2 ^ (n - 1 - i) else r) 0

/-- The field of a descriptor (R98). -/
def fieldPos (desc : Word) : Nat := (desc.extractLsb' 0 8).toNat
def fieldLen (desc : Word) : Nat :=
  if (desc.extractLsb' 8 8).toNat = 0 ∨ fieldPos desc ≥ 32 then 0
  else min (desc.extractLsb' 8 8).toNat (32 - fieldPos desc)
def bfxV (signed : Bool) (a desc : Word) : Word :=
  let v := (a.toNat >>> fieldPos desc) % 2 ^ fieldLen desc
  if signed && fieldLen desc > 0 && v.testBit (fieldLen desc - 1) then BitVec.ofInt 32 (v - (2 ^ fieldLen desc : Nat))
  else BitVec.ofNat 32 v
def bfiV (a b desc : Word) : Word :=
  let m := BitVec.ofNat 32 ((2 ^ fieldLen desc - 1) <<< fieldPos desc)
  (b &&& ~~~m) ||| ((a <<< fieldPos desc) &&& m)

/-- Byte i of a value, lowest first (R5). -/
def byteAt (v : BitVec n) (i : Nat) : Byte := v.extractLsb' (8 * i) 8
def halfAt (v : BitVec n) (i : Nat) : BitVec 16 := v.extractLsb' (16 * i) 16
/-- A word of four bytes, lowest first. -/
def ofBytes4 (b0 b1 b2 b3 : Byte) : Word := b3 ++ b2 ++ b1 ++ b0

/-- `perm` (R99). -/
def permByte (a b c : Word) (i : Nat) : Byte :=
  let s := c.extractLsb' (4 * i) 4
  let v := byteAt (b ++ a : DWord) (s.extractLsb' 0 3).toNat
  if s.getLsbD 3 then (if v.getLsbD 7 then 0xFF else 0) else v
def permV (a b c : Word) : Word := ofBytes4 (permByte a b c 0) (permByte a b c 1) (permByte a b c 2) (permByte a b c 3)

/-- A byte read as signed or unsigned. -/
def byteInt (signed : Bool) (v : Byte) : Int := if signed then v.toInt else v.toNat
def sumI (l : List Int) : Int := l.foldl (· + ·) 0
/-- The sums of R104. -/
def idp4V (signed : Bool) (a b : Word) : Int :=
  sumI ((List.range 4).map fun i => byteInt signed (byteAt a i) * byteInt signed (byteAt b i))
def isadV (signed : Bool) (a b : Word) : Int :=
  sumI ((List.range 4).map fun i => ((byteInt signed (byteAt a i) - byteInt signed (byteAt b i)).natAbs : Int))

/-- `pack` and `unpk` (R105). -/
def packV (t : Ty) (a b : Word) : Word × Bool :=
  let c := fun (x : Int) => clamp (tyMin t) (tyMax t) x
  if t.bits = 16 then
    (((BitVec.ofInt 16 (c b.toInt).1) ++ (BitVec.ofInt 16 (c a.toInt).1) : Word), (c a.toInt).2 || (c b.toInt).2)
  else
    let e := fun (v : Word) (i : Nat) => c (halfAt v i).toInt
    (ofBytes4 (BitVec.ofInt 8 (e a 0).1) (BitVec.ofInt 8 (e a 1).1) (BitVec.ofInt 8 (e b 0).1) (BitVec.ofInt 8 (e b 1).1),
     (e a 0).2 || (e a 1).2 || (e b 0).2 || (e b 1).2)
def unpkV (t : Ty) (a b : Word) : Int :=
  if t.bits = 16 then
    if t.signed then (halfAt a (b.toNat % 2)).toInt else (halfAt a (b.toNat % 2)).toNat
  else byteInt t.signed (byteAt a (b.toNat % 4))

def icmpV (c : ICond) (a b : Int) : Bool :=
  match c with
  | .eq => a == b | .ne => a != b | .lt => a < b | .le => a ≤ b | .gt => a > b | .ge => a ≥ b

/-! ### Trits (R66 to R71) -/

/-- The five trits of a byte, digit 0 first; an invalid code gives five zeros and says so (R66, R67). -/
def trits5 (c : Byte) : List Int × Bool :=
  if c.toNat ≥ 243 then ([0, 0, 0, 0, 0], true)
  else ((List.range 5).map fun i => ((c.toNat / 3 ^ i % 3 : Nat) : Int) - 1, false)
/-- The code of five trits (R66). -/
def tritCode (l : List Int) : Byte :=
  BitVec.ofInt 8 (sumI (l.mapIdx fun i t => (t + 1) * (3 ^ i : Nat)))
/-- The value of a T5 code (R66, R67). -/
def t5Value (c : Byte) : Int × Bool := if c.toNat ≥ 243 then (0, true) else ((c.toNat : Int) - 121, false)
/-- The balanced trits of R70, n of them. -/
def balanced : Nat → Int → List Int
  | 0, _ => []
  | n + 1, v => let m := v % 3
      if m = 2 then -1 :: balanced n ((v + 1) / 3) else m :: balanced n ((v - m) / 3)

/-! ### Key codes (R79, R80) -/

/-- The code by which a key of n bits compares. -/
def keyCode (t : Ty) (zeq : Bool) (b : Word) : Nat :=
  let n := t.bits
  let v := b.toNat % 2 ^ n
  if t.isFloat then
    if zeq && v == 2 ^ (n - 1) then 2 ^ (n - 1)
    else if v < 2 ^ (n - 1) then v + 2 ^ (n - 1) else 2 ^ n - 1 - v
  else if t.signed then (v + 2 ^ (n - 1)) % 2 ^ n
  else v

/-! ### Atomics and reductions on integers (R145, R75 to R77) -/

def aopV (op : AOp) (t : Ty) (old b : DWord) : DWord :=
  let o := rdInt t old
  let x := rdInt t b
  match op with
  | .add => wrInt t (o + x)
  | .min => wrInt t (min o x)
  | .max => wrInt t (max o x)
  | .and => old &&& b
  | .or => old ||| b
  | .xor => old ^^^ b
  | .exch => b
  | .inc => wrInt t (if o ≥ x then 0 else o + 1)
  | .dec => wrInt t (if o = 0 ∨ o > x then x else o - 1)

/-- The identity of a reduction on integers (R76). -/
def ropId (op : ROp) (t : Ty) : Int :=
  match op with
  | .add | .or | .xor => 0
  | .mul => 1
  | .min => tyMax t
  | .max => tyMin t
  | .and => rdInt t (BitVec.allOnes 64)
/-- One node of a reduction on integers (R75, R77). -/
def ropNode (op : ROp) (t : Ty) (sat : Bool) (a b : DWord) : DWord × Bool :=
  let x := rdInt t a
  let y := rdInt t b
  match op with
  | .add => intOut t sat (x + y)
  | .mul => intOut t sat (x * y)
  | .min => (wrInt t (min x y), false)
  | .max => (wrInt t (max x y), false)
  | .and => (a &&& b, false)
  | .or => (a ||| b, false)
  | .xor => (a ^^^ b, false)

end Sys2Proof.Machine
end

