-- ==== Sys2Proof/Machine/State.lean ====
section
/-!
DEFINITION. The state of the machine: plain data, holding everything the spec gives it, and the state right after reset.
INVENTORY.md lists each field with its rule and its reset value.
-/
namespace Sys2Proof.Machine

/-- Why the machine itself stops. Architectural faults stop nothing: they park threads and are next states. -/
inductive Fault
  /-- Raised by the step when the package has no power and the outside world gives it none (R327, R350); safe (log 4). -/
  | noPower
  deriving DecidableEq, Repr

/-- Why an instruction has no meaning here. -/
inductive Refusal
  /-- Raised by an arm of `exec` whose instruction has no meaning yet; safe. -/
  | notModelled (mnemonic : String)
  deriving DecidableEq, Repr

/-- Privilege levels, lowest first (R10). -/
inductive Level | app | handler | steward | root
  deriving DecidableEq, Repr
def Level.num : Level → Nat
  | .app => 0 | .handler => 1 | .steward => 2 | .root => 3

/-- The four counters of a thread (R81). -/
inductive Cls | loads | stores | copies | tileops
  deriving DecidableEq, Repr

/-- Conditions under which a thread that waits inside an instruction executes it again (R164). -/
inductive Why
  | counters (l s c t : Nat)     -- the four counters are at most these (R150, R87, R90)
  | room (c : Cls)               -- a counter is below 63 (R84)
  | tracker                      -- a retirement-tracker entry is free (R87)
  | copyQueue | mmQueue | sortQueue   -- a queue entry is free (R199, R224, R243)
  | held                         -- the thread's earlier writes are held where they go (R198, R225, R200)
  | arrays                       -- the thread's earlier writes to the arrays are performed (R154)
  | tile (n : Nat)               -- a tile that is read is READY or free (R189)
  | cvLoad (n : Nat)             -- no load of the convergence register is outstanding (R232)
  | dqSpace | dqEntry            -- the decision queue has room, or an entry for the unit (R178)
  | token (world base : Nat)     -- the region's token is at rest (R309, R385)
  | released (sc : Scope)        -- what a release at the scope waits for (R137, R288)
  | settled                      -- none of the thread's loads waits for an atomic of the core (R154)
  | line (world va : Nat)        -- no store or atomic of the core to the line is on its way home (R287)
  | gate (rec : Nat)             -- no contribution of the record waits or is uncommitted (R364)
  | engine (t : Nat)             -- thread t has no tile operation outstanding (R263)
  | quiet (cores : List Nat)     -- every one of these cores reads drained (R335)
  | behind (t : Nat) (acc : Bool)   -- thread t of its bundle, which goes first, waits in the same instruction (R167, R178); with an access
  | accesses (l : List (Nat × Nat))   -- these operations of these cores are complete (R304)
  | never
  deriving DecidableEq, Repr

/-- Where a thread stands when it is not simply running (R164, R180). -/
inductive Blk
  | run
  | retry (w : Why)
  | waits (l s c t : Nat)        -- in `wait` (R150)
  | join                         -- in `gjoin`, a member of a forming group (R160)
  | bar (sc : Scope)
  | rwait (sc : Scope) (kd : Pred) (left : Nat)
  | mwait (acq : Option Scope) (d : Dst) (va : Nat) (seen : Word) (left : Option Nat) (woken : Bool)
  | sleep (left : Nat)
  | xch (rec : Nat)
  | pass (world base : Nat)      -- a pass waits for its commit (R310)
  | moving (key : Word) (want slice : Nat) (slot : Option Nat) (at_ : Nat)   -- in `gjoin`: the cycle of its arrival, or until its rights have moved (R160, R413)
  deriving DecidableEq, Repr

/-- A failure held until the thread's next reporting point (R201). -/
structure Fail where
  code : BitVec 6
  pc   : DWord
  elem : Word := 0
  addr : DWord := 0
  deriving DecidableEq, Repr

/-- A unit as the scheduler sees it (R165, R166, R180). -/
structure Sched where
  served : Nat := 0        -- cycle of the last service
  opps   : Nat := 0        -- issue opportunities
  span   : Nat := 0        -- cycles since the last bundle or opportunity
  busy   : Nat := 0        -- cycle at which the lane pipe is free of its bundle
  since  : Nat := 0        -- cycle of the formation or placement
  deriving DecidableEq, Repr

/-- A thread (R81). -/
structure Thread where
  pc      : DWord
  level   : Level := .app
  prio    : Nat := 0
  quota   : Nat
  regs    : Map Word := []          -- x registers, 0 where not listed
  preds   : BitVec 8 := 1           -- k7 .. k0
  stack   : List DWord := []        -- on-chip return addresses, oldest first
  spBase  : DWord := 0
  spLimit : Word := 0
  spilled : Word := 0
  step    : Bool := false
  sat     : Bool := false
  grp     : Option (Nat × Nat) := none   -- group number and slot
  ccnth   : Word := 0
  blk     : Blk := .run
  park    : Option Nat := none      -- the parked sub-bundle it stands in
  hazard  : List Nat := []          -- x registers loads write and no wait has counted (R142)
  fails   : List Fail := []
  bpSkip  : Bool := false           -- issues once at a breakpoint (R267)
  prioDue : Bool := true            -- the PC entered a line whose priority field is not read yet (R13)
  entered : Bool := false           -- has issued since creation (R16)
  yielded : Bool := false
  age     : Nat := 0                -- of a thread in no group
  lane    : Nat := 0
  since   : Nat := 0                -- cycle at which it blocked
  armed   : Nat := 0                -- step at which its monitor was armed (R176)
  framed  : Bool := false           -- saved by eviction (R180)
  late    : Map Nat := []           -- results to come (R131, R133, R167): n for xn, 128 + n for yn, 256 + n for kn, and the cycle
  sched   : Sched := {}
  deriving DecidableEq, Repr

/-- A group (R156, R160). -/
structure Group where
  key    : Word
  want   : Nat
  slice  : Nat
  formed : Bool := false
  mem    : Map Nat := []            -- slot to thread
  y      : Map Word := []
  sat    : Bool := false
  armed  : Bool := false
  gstep  : Bool := false
  ages   : Map Nat := []            -- by PC; 0 where not listed
  hazard : List (Nat × List Nat) := []   -- y registers that loads write, and the threads whose `wait` counts the load (R142)
  phases : Nat := 0
  sched  : Sched := {}
  deriving DecidableEq, Repr

/-- A fault record (R258) without core and world, which the core adds when it posts it. -/
structure FRec where
  park    : Option Nat := none
  unit    : Option UnitId := none
  pc      : DWord := 0
  mask    : Word := 0
  code    : BitVec 6
  service : Bool := false
  retired : Bool := false
  detail  : BitVec 8 := 0
  tid     : Nat := 0
  num     : Word := 0
  gid     : Byte := 0xFF
  flags   : Byte := 0
  addr    : DWord := 0
  deriving DecidableEq, Repr

/-- A parked sub-bundle (R256). -/
structure Parked where
  id      : Nat
  unit    : UnitId
  mems    : List (Nat × Nat)        -- mask bit and thread
  pc      : DWord
  code    : BitVec 6
  service : Bool := false
  dst     : Option Dst := none      -- the destination of `sys`
  bp      : Bool := false           -- raised by a breakpoint register (R267)
  next    : DWord                   -- where a resumption goes on (R93, R260)
  deriving DecidableEq, Repr

/-! ### Outstanding counted operations (R141) -/

/-- What a read-modify-write does (R145 to R147). -/
inductive Rmw
  | int (op : AOp) (ty : Ty) (b : DWord)
  | cas (ty : Ty) (cmp new : DWord)
  | flt (op : FOp) (ty : Ty) (b : Word)
  deriving DecidableEq, Repr

inductive OpBody
  | load  (sp : Space) (va n : Nat) (ty : Ty) (d : Dst) (ord : MOrd) (sc : Scope) (val : Option (List Byte))
  | store (sp : Space) (va : Nat) (data : List Byte) (ord : MOrd) (sc : Scope)
  | rmw   (sp : Space) (va n : Nat) (r : Rmw) (d : Dst) (ord : MOrd) (sc : Scope) (val : Option DWord)
  | flush (va n : Nat)
  | ldcv  (sp : Space) (va cv : Nat) (ord : MOrd) (sc : Scope) (val : Option (List Byte))
  | remote (req : RemReq) (d : Dst) (sent : Bool) (ans : Option RemAns)
  | copy  (id : Nat)
  | engine
  | along (id : Nat)                -- counted with another operation (`ldu`, R143)
  deriving DecidableEq, Repr

/-- Permission state held with a line (R139, R302). -/
structure Perm where
  write : Bool := false
  exec  : Bool := false
  deriving DecidableEq, Repr

/-- Where a line of an accepted access lives: its home address (A' for a secondary page, R305), whether it was reached
through a secondary page, and the physical line it translated to. -/
structure Home where
  va  : Nat
  sec : Bool := false
  pa  : Option Nat
  perm : Perm := {}
  who : Nat := 0                    -- the world the firewall saw (R343)
  deriving DecidableEq, Repr

structure Op where
  id   : Nat
  tid  : Nat
  cls  : Cls
  pc   : DWord
  agent : Word := 0                 -- identifier of the agent it acts for (R307)
  sgn  : Word := 0                  -- the agent whose signatures it enters (R204, R289)
  low  : Bool := true               -- of the active member with the lowest `gslot`: it writes y destinations (R25)
  world : Nat := 0                  -- world whose space it acts in
  evict : Nat := 3
  level : Level := .app             -- of its thread, which decides where a failure is reported (R260)
  homes : List Home := []
  retired : Option Nat := none      -- its thread is gone: the tracker entry that holds it (R87)
  done : Bool := false
  gone : Bool := false              -- dropped: its destination writes never happen (R263, R272)
  bad  : Bool := false              -- its data met an uncorrectable error when it was performed (R321, R322)
  body : OpBody
  deriving DecidableEq, Repr

/-! ### Core-local units -/

/-- A line of 128 bytes in a cache: the L1, the far lines, the constant cache (R186, R299, R412). -/
structure CLine where
  world : Nat
  va    : Nat
  data  : Line
  perm  : Perm := {}
  prio  : Nat := 3
  left  : Nat := 32768              -- core cycles until it lapses (R287)
  bad   : Bool := false             -- parity error (R186)
  syn   : Bool := false             -- a store of the core through a secondary page has passed it by (R155)
  old   : Bool := false             -- it stood when the other die last rotated its signatures (R290)
  deriving DecidableEq, Repr

/-- A line of the fetch buffer (R14, R19) or, of 64 bytes as well, of the record cache (R198). -/
structure FLine where
  world : Nat
  va    : Nat
  data  : FetchLine
  bad   : Bool := false             -- the refetched copy mismatched its parity, or the line is uncorrectable
  deriving DecidableEq, Repr

/-- States of a tile entry (R189), in code order (R193). -/
inductive TileSt | empty | filling | ready | draining
  deriving DecidableEq, Repr

/-- A defined tile entry (R188). -/
structure Tile where
  off   : Nat
  rows  : Nat
  cols  : Nat
  esz   : Nat
  st    : TileSt := .empty
  replay : Bool := false
  err   : BitVec 6 := 0
  mread : Nat := 0                  -- matrix and sort reads (R222, R244)
  deriving DecidableEq, Repr

/-- A copy in the queue (R199), operands as read at acceptance. -/
inductive CopyKind
  | cpIn (tile : Nat) (rec : BitVec 512) (x : DWord) (evict : Nat)
  | cpOut (tile : Nat) (rec : BitVec 512) (x : DWord) (evict : Nat)
  | tt (dst src : Nat) (tr : Bool)
  | fill (tile : Nat) (v : DWord)
  | wb (off va n : Nat) (evict : Nat)
  deriving DecidableEq, Repr

structure Copy where
  id    : Nat
  op    : Nat                       -- its entry among the outstanding operations
  tid   : Nat
  unit  : UnitId
  pc    : DWord
  kind  : CopyKind
  sig   : Option Nat := none
  deriving DecidableEq, Repr

/-- An agent of a core, as the engines and the tokens name it (R204, R307). An agent that has ended keeps a name of its own, so
that its number is free at once (R87, R161, log 22). -/
inductive Agent | unit (u : UnitId) | lead | gone (n : Nat)
  deriving DecidableEq, Repr

/-- The modes of `mm.mma` (R209). -/
inductive MmMode | t1i8 | t5i8 | t5i8bx | t11i16 | ring16 | ring32
  deriving DecidableEq, Repr

structure MmBound where
  mode : MmMode
  acc  : Nat
  tile : Nat
  off  : Nat
  xe   : Nat
  z    : Bool
  deriving DecidableEq, Repr

/-- A convergence register (R220) that is not IDLE. -/
structure Cv where
  owner  : Agent
  mask   : Word
  lead   : Bool
  signed : Word := 0
  leadSigned : Bool := false
  bound  : Option MmBound := none
  ops    : List Nat := []           -- tile operations counted for it
  cover  : List Nat := []           -- stores that a signer had fenced when it signed (R225), by their numbers
  deriving DecidableEq, Repr

/-- An entry of the array queue (R224). -/
inductive MmKind
  | mma (b : MmBound)
  | clr (acc : Nat) (pair : Bool)
  | st (acc tile : Nat) (pair : Bool)
  | rd (acc tile : Nat) (itp : Interp) (ty : Ty) (rm : Rm)
  deriving DecidableEq, Repr

structure MmEntry where
  agent : Agent
  kind  : MmKind
  ops   : List Nat                  -- outstanding operations it counts as
  pc    : DWord
  start : Option Nat := none        -- first working cycle
  pass  : Nat := 0                  -- passes done when it was saved (R234)
  since : Nat                       -- cycle at which it reached the head, or entered
  torn  : List Nat := []            -- operand bytes changed while it was queued or ran (R225): rows, columns + 64,
                                    -- row exponents + 128, column exponents + 192
  wrote : Bool := false             -- its effect is made, its completion is to come
  deriving DecidableEq, Repr

structure Rsv where
  agent : Agent
  mask  : BitVec 16
  releasing : Bool := false         -- `mm.rel` waits for its queued entries (R218)
  deriving DecidableEq, Repr

/-- A cell of the sort array (R237). -/
structure Cell where
  key  : Word := 0
  pay  : Word := 0
  org  : Nat := 0
  valid : Bool := false
  deriving DecidableEq, Repr

/-- A command of the sort array (R243). -/
inductive SortCmd
  | load (k : Nat) (p : Option Nat) (ty : Ty) (desc stable zeq : Bool)
  | run (phases : Nat)
  | store (k : Nat) (p : Option Nat)
  | topk (k : Nat)
  | merge (a b : Nat)
  | smatch (probe : Word) (d : Dst)
  deriving DecidableEq, Repr

structure SortEntry where
  cmd   : SortCmd
  tids  : List Nat
  ops   : List Nat
  pc    : DWord
  start : Option Nat := none
  since : Nat
  seen  : Map Word := []            -- elements read before a store changed them (R251): keys, payloads + 4096
  orig  : Option (Map Cell × Nat) := none   -- the cells and the phase counter at its issue, where a halt has interrupted it (R324)
  lost  : Bool := false             -- phases of it that have completed consumed lost data (R254, R324)
  deriving DecidableEq, Repr

structure SortOpt where
  ty     : Ty := .u32
  desc   : Bool := false
  stable : Bool := false
  zeq    : Bool := false
  rows   : Bool := false            -- ROWS layout
  count  : Nat := 0                 -- phase counter
  loaded : Nat := 0
  deriving DecidableEq, Repr

structure SortArr where
  cells  : Map Cell := []           -- by row·64 + column; the empty cell where not listed
  opt    : SortOpt := {}
  holder : Option Agent := none
  releasing : Bool := false
  queue  : List SortEntry := []
  last   : Nat := 0                 -- last working cycle of the previous command
  deriving DecidableEq, Repr

/-- A spawn record in the steal queue (R86, R282). -/
structure SpawnRec where
  entry : DWord
  count : Nat
  arg   : Word
  quota : Nat
  world : Nat
  next  : Nat := 0                  -- its lowest remaining index; the last is `count` less one
  sig   : Sig := 0                  -- the spawner's signature
  deriving DecidableEq, Repr

/-- A block of threads waiting for placement on a core (R157). -/
structure Block where
  entry : DWord
  first : Nat
  count : Nat
  arg   : Word
  quota : Nat
  world : Nat
  level : Level
  spawn : Bool := false
  sig   : Sig := 0
  deriving DecidableEq, Repr

/-- A thread as a barrier's shadow holds it (R270). -/
structure ShadowThread where
  tid     : Nat
  regs    : Map Word
  preds   : BitVec 8
  stack   : List DWord
  spBase  : DWord
  spLimit : Word
  spilled : Word
  step    : Bool
  sat     : Bool
  ccnth   : Word
  deriving DecidableEq, Repr

/-- The shadow of a unit since its last barrier (R270, R271, R414). -/
structure Shadow where
  threads : List ShadowThread
  y       : Map Word := []
  sat     : Bool := false
  armed   : Bool := false
  slice   : Nat := 1
  pc      : DWord                   -- the instruction after the barrier
  lines   : Map Line := []          -- scratchpad lines as they were, by offset
  accs    : Map (List Word) := []   -- accumulator rows as they were, by accumulator·64 + row
  exps    : Map (List Byte × List Byte) := []   -- exponent vectors as they were, by accumulator
  tiles   : Map (Option Tile) := [] -- tile entries as they were
  copies  : List Copy := []
  rsv     : Option Rsv := none
  cvs     : Map Cv := []
  sort    : Option SortArr := none  -- the sort array as it was, but for its cells
  rows    : Map (List Cell) := []   -- its rows as they were
  marks   : List ErrAt := []        -- uncorrectable errors standing in what was copied (R321)
  atOnce  : Nat := 0                -- frames of the part taken at once (R414)
  frames  : List Nat := []
  irrevocable : Bool := false
  unshadowed  : Bool := false
  rolled      : Bool := false
  cause       : Option FRec := none -- what the rollback that is due was decided on (R272)
  retaken     : Bool := false       -- another agent has reserved one of its accumulators since (R235)
  deriving DecidableEq, Repr

/-- A store to the scratchpad or the weight buffer that an operation of the array need not see: the threads that performed or have
observed it, those that have executed `mm.fence` since, and the thread of a `wb.ld` whose `wait` has not counted it (R225, log 62). -/
structure Loose where
  id     : Nat
  w      : Bool
  off    : Nat
  n      : Nat
  seen   : List Nat := []
  fenced : List Nat := []
  wb     : Option Nat := none
  deriving DecidableEq, Repr

/-- Where a release leaves what an acquire finds (R206, R207): the bytes of a releasing store or atomic, or a tile. -/
inductive PostAt
  | bytes (world : Nat) (sp : Space) (va n : Nat)
  | tile (n : Nat)
  deriving DecidableEq, Repr
/-- A release of an agent of the core: the scratchpad and weight-buffer stores that its thread had performed or observed, by their
numbers (R206, R225); at scope `grp` for its group only. -/
structure Post where
  at_  : PostAt
  grp  : Option Nat
  wide : Bool
  ids  : List Nat
  deriving DecidableEq, Repr

/-- The part of a core that a tenant save keeps (R275). -/
structure Ctx where
  threads : Map Thread := []
  groups  : Map Group := []
  lead    : Option Nat := none
  handler : Option Nat := none
  ops     : List Op := []
  nextOp  : Nat := 0
  held    : Bool := false           -- `halt.hold`
  parked  : List Parked := []
  nextPark : Nat := 0
  recs    : List FRec := []         -- records held (R257)
  fqb     : DWord := 0
  fqctl   : Word := 0
  bps     : Map DWord := []
  bpctl   : Word := 0
  phaseStep : Bool := false
  kwb     : DWord := 0
  shist   : Map Word := []
  sreas   : Map Word := []
  shen    : Bool := false
  dq      : List (Word × Nat) := []
  l1units : Nat := 4
  scratch : List Host.Cell := []
  wbuf    : List Host.Cell := []
  tiles   : Map Tile := []
  pats    : Map (BitVec 512) := []
  copies  : List Copy := []
  replays : List Copy := []         -- copies cancelled at a save, to be re-issued (R203)
  nextCopy : Nat := 0
  acc     : Map Word := []          -- accumulator·4096 + word
  rexp    : Map Byte := []          -- accumulator·64 + row; 133 where not listed
  cexp    : Map Byte := []
  rsv     : List Rsv := []
  cvs     : Map Cv := []
  mq      : List MmEntry := []
  mlast   : Nat := 0                -- last working cycle of the array
  loose   : List Loose := []        -- stores that no fence of a signer covers yet (R225)
  nextLoose : Nat := 0
  posts   : List Post := []         -- its releases, and the stores that each covered
  dqSeen  : List (List Nat) := []   -- the stores that each entry of the decision queue covered
  sort    : SortArr := {}
  shadows : List (UnitId × Shadow) := []
  evicted : List (UnitId × List Nat) := []   -- units out of the register file, and their frames (R180)
  moved   : List (Nat × Bool) := []  -- the model's own: threads that completed an instruction in this step, and whether they jumped
  deriving DecidableEq, Repr

/-- The trace registers (R278). -/
structure Trace where
  base : DWord := 0
  mode : Nat := 0
  size : Nat := 8
  count : Word := 0
  since : Nat := 0                  -- records since the last anchor
  deriving DecidableEq, Repr

/-- The save registers (R274). -/
structure Cxsw where
  done    : Bool := false
  starved : Bool := false
  gen     : Byte := 0
  root    : DWord := 0
  frplo   : Word := 0
  restore : Bool := false           -- a restore is asked for
  save    : Bool := false           -- a save is asked for
  out     : Bool := false           -- the core's world is saved out: nothing is placed here
  deriving DecidableEq, Repr

/-- The stealing engine (R283 to R285). -/
structure Steal where
  queue    : List SpawnRec := []
  lfsr     : BitVec 16 := 1
  asked    : Option (Nat × Nat × Nat) := none   -- request outstanding: victim, free slots, free register bytes
  answer   : Option Block := none   -- BLOCK answer received and not acknowledged
  unacked  : Option (Block × Nat × Nat) := none -- BLOCK answer given and not acknowledged: the thief, the record's position
  wait     : Option Nat := none     -- backing off until this cycle
  enable   : Bool := true
  backoff  : Nat := 8
  stlcnt   : Word := 0
  deriving DecidableEq, Repr

/-- The bundle that the current instruction acts for (R163 to R168): its unit, the members in ascending `gslot`, the PC they
share, and the pipe. -/
structure Bundle where
  core : Nat
  unit : UnitId
  lead : Bool := false
  tids : List Nat
  pc   : DWord
  lane : Nat := 0
  deriving DecidableEq, Repr

/-- A saved world: what its core held, and the frames that hold it (R274, R275). -/
structure Save where
  ctx    : Ctx
  frames : List Nat
  lost   : Bool := false            -- a frame of it has been laid out anew since (R274)
  marks  : List ErrAt := []         -- uncorrectable errors standing in what was saved (R321)
  bundles : List Bundle := []       -- bundles that stood in their pipes (R275, R276)
  deriving DecidableEq, Repr

structure Core where
  latch   : Option Nat := none
  inService : Bool := true
  ccnt    : DWord := 0
  lanes   : Map Nat := []           -- pipe to the cycle at which it is free
  fbuf    : List FLine := []
  l1      : List CLine := []
  ccache  : List CLine := []
  rcache  : List FLine := []
  steal   : Steal := {}
  waiting : List Block := []
  frames  : List Nat := []
  cxsw    : Cxsw := {}
  qcls    : BitVec 2 := 0
  trace   : Trace := {}
  quiesced : Bool := false
  marks   : List ErrAt := []        -- uncorrectable errors standing in its arrays (R321)
  sigs    : Map (Sig × Sig) := []   -- current and previous signature by agent (R289)
  ctx     : Ctx := {}
  deriving DecidableEq, Repr

/-! ### The dies -/

/-- An L2 line (R294). -/
structure L2Line where
  world : Nat
  va    : Nat
  data  : Line
  pa    : Nat                       -- where its fill translated to
  who   : Nat                       -- the world the firewall saw at the fill (R343)
  perm  : Perm
  dirty : Bool := false
  prio  : Nat := 3
  used  : Nat := 0                  -- recency
  poison : BitVec 16 := 0           -- by 64-bit word (R322)
  side  : Sig := BitVec.allOnes 512
  deriving DecidableEq, Repr

/-- A far line (R299). -/
structure FarLine where
  world : Nat
  va    : Nat
  quarter : Nat := 0                -- the requester's quarter, whose slice holds it
  data  : Line
  perm  : Perm
  prio  : Nat := 3
  used  : Nat := 0
  left  : Nat := 32768
  old   : Bool := false             -- it stood when the other die last rotated its signatures (R290)
  poison : BitVec 16 := 0           -- by 64-bit word (R321)
  deriving DecidableEq, Repr

/-- What a pass in flight does at its commit (R310, R312, R313, R413). -/
inductive PassKind
  | lend (rcv : Word) | ret | share (rcv : Word) | toShared (mode : TMode) (rcv : Option Word) | drop | unshare
  | home                            -- a mirror's token goes home (R385)
  | reserve (dev : Nat) (then_ : Option (Option TMode))   -- a mirror entry is asked for; then a lend, or a share
  deriving DecidableEq, Repr
structure Pass where
  by_  : Word                       -- the passing agent
  sgn  : Word := 0                  -- the agent whose signature it carries (R204, R289)
  core : Nat
  kind : PassKind
  upto : Nat                        -- operations of the core accepted before the issue are below this number
  kd   : Option Pred := none        -- the status predicate of the instruction that waits
  deriving DecidableEq, Repr

/-- An entry of the token table (R306); a mirror keeps its home device beside it (R385). -/
structure Token where
  base   : Nat
  n      : Nat
  world  : Nat
  mode   : TMode := .write
  owner  : Word
  lender : Word := 0
  holders : List Word := []         -- agents holding a share, owner included; the share count is its length
  count  : Nat := 0
  taint  : Bool := false
  pending : Option Pass := none     -- a pass in flight
  sig    : Sig := 0
  mirror : Option Nat := none       -- this entry mirrors one of this home device
  deriving DecidableEq, Repr

/-- An operation the replay auditor holds (R324). -/
structure AudSlot where
  core  : Nat
  world : Nat
  inputs : List Nat := []           -- what the entry read: the mode, A, B, exponents and prior accumulators; or cells and options
  sig   : DWord
  left  : Nat                       -- cycle of the die at which the sample is discarded where no core may replay it
  deriving DecidableEq, Repr

/-- A capture unit (R354, R355). -/
structure Capture where
  src   : Word := 0
  edges : Map Word := []
  st    : Nat := 0
  mn    : Word := 0xFFFFFFFF
  mx    : Word := 0
  bins  : Map Word := []
  pend  : Word := 0                 -- triggers since its last cycle, by code
  deriving DecidableEq, Repr

/-- Clock, supply and reliability of a die (R326 to R328). -/
structure Power where
  clk     : Nat := 0
  thermal : Bool := false
  current : Bool := false
  volt    : Map Nat := []           -- lowered steps by domain
  locked  : Map Bool := []
  errors  : Map Nat := []           -- corrected errors of the window by domain·16 + class
  windows : Map Nat := []           -- windows that have ended, by domain
  above   : Nat := 0                -- cycle of the die at which power or temperature was last above its limit
  deriving DecidableEq, Repr

/-- A pair of a remap filter with the permissions of its secondary leaf (R305). -/
structure Remap where
  world : Nat
  page  : Nat                       -- secondary page
  prim  : Nat                       -- primary page
  perm  : Perm
  deriving DecidableEq, Repr

structure Die where
  l2      : List L2Line := []
  far     : List FarLine := []
  tokens  : List Token := []
  quota   : Map Nat := []           -- by world
  errs    : Map Word := []          -- by partition·16 + class
  audctl  : Map Word := []          -- by partition
  audst   : Map Word := []
  audLfsr : Word := 1
  auds    : Map AudSlot := []
  remap   : Map (List Remap) := []  -- remap filters by quarter·24 + slice (R305)
  caps    : Map Capture := []
  age     : Nat := 0                -- cycles of the die
  power   : Power := {}
  deriving DecidableEq, Repr

/-! ### The package -/

/-- A launch accepted and not wholly placed (R281). -/
structure Launch where
  entry : DWord
  count : Nat
  quota : Nat
  world : Nat
  steward : Bool
  next  : Nat := 0
  deriving DecidableEq, Repr

/-- The launch registers of one path (R49). -/
structure LaunchPath where
  lo   : Word := 0
  addr : Nat := 0                   -- address of the record being read
  accepted : Nat := 0
  last : Nat := 0
  busy : Bool := false
  world : Nat := 0                  -- submitting world of the submission being read
  rest  : List Nat := []            -- entry records of a steward image that are still to be submitted
  deriving DecidableEq, Repr

/-- A steward's fault queue and its partition's registers (R329 to R332). -/
structure Part where
  cfg    : PartCfg
  pqm    : BitVec 4
  pmil   : BitVec 24
  pmig   : Nat
  pnbp   : BitVec 48
  pcede  : Word := 0
  pqst   : Word := 0
  actw   : Nat
  sfqb   : DWord := 0
  sfqctl : Word := 0
  recs   : List (FRec × Nat × Nat) := []   -- records held, with core and world
  prior  : List (BitVec 24 × Nat × BitVec 4 × List Nat) := []   -- interleave and quarters before steps no shoot-down has followed, and the worlds whose they were (R337)
  wins   : Map Word := []           -- windows and selectors by register number
  deriving DecidableEq, Repr

structure World where
  part    : Nat
  protectd : Bool := false
  aborted : Bool := false
  root    : Nat := 0                -- page-table root frame
  entry   : DWord := 0              -- handler entry
  quota   : Nat := 16
  fn      : Option Nat := none
  meas    : List Word := []
  dbg     : Bool := false
  deriving DecidableEq, Repr

/-- A 64 KiB granule of physical memory under the Bark firewall (R343, R349). -/
structure Granule where
  part  : Option Nat := none
  world : Option Nat := none
  scrub : Bool := false
  deriving DecidableEq, Repr

/-- A CXL window (R344). -/
structure CxlWin where
  port  : Nat                       -- 0, 1: CXL ports; 2: the host link
  base  : Nat
  size  : Nat
  world : Nat
  key   : Nat
  deriving DecidableEq, Repr

/-- A key slot (R345, R346). -/
structure Key where
  key   : List Byte
  iv    : List Byte
  ports : BitVec 8
  world : Nat
  label : Option Word := none       -- of a model key (R348), and the session that delivered it
  sess  : Option Nat := none
  deriving DecidableEq, Repr

/-- States of a party record of the gate (R356), in code order. -/
inductive GateSt | free | opening | open_ | aborted | ended
  deriving DecidableEq, Repr

/-- A pool attached to a party record (R359): region, items, and its pages as the attach found them. -/
structure Pool where
  base   : Nat
  n      : Nat
  count  : Nat
  cursor : Nat := 0
  pages  : List (Nat × Nat)                -- home page and frame
  deriving DecidableEq, Repr

/-- A party record of the gate (R356, R357). -/
structure Gate where
  st     : GateSt := .free
  world  : Nat := 0
  tag    : Word := 0
  party  : Bool := false
  desc   : List Byte := []
  peer   : Option (Nat × Nat) := none      -- device and record
  timeout : Nat := 0                       -- in IO0 cycles
  nextId : Nat := 0
  waiter : Option Nat := none              -- core whose threads wait in an exchange
  waitTo : List Nat := []
  dst    : Dst := .zero
  held   : Option Contrib := none          -- an exchange that waits for OPEN
  pending : Option Contrib := none         -- sent and not committed
  mine   : Option Contrib := none          -- contributions arrived at the gate
  theirs : Option Contrib := none
  half   : List Word := []                 -- words of a contribution whose second flit has not come (R376)
  since  : Option Nat := none              -- the timer runs since this IO0 cycle
  pools  : Map Pool := []                  -- by kind
  deriving DecidableEq, Repr

/-- Doorbells of one world (R352). -/
structure Bell where
  pending : Nat := 0
  rung    : Nat := 0
  since   : Nat := 0
  thresh  : Nat := 1
  delay   : Nat := 0
  deriving DecidableEq, Repr

/-- A fabric port (R377, R381). -/
structure Port where
  up      : Bool := false
  enabled : Bool := true
  dead    : Bool := false           -- down until `fab.cfg.port` enables it again
  fails   : Nat := 0
  bad     : Nat := 0                -- failures in a row of the flit that is expected
  replays : Nat := 0
  txSeq   : Nat := 0
  rxSeq   : Nat := 0
  replay  : List (Nat × Flit) := []   -- the line each is for, and the flit
  deriving DecidableEq, Repr

/-- A binding of a local world to a peer world of a device (R380). -/
structure Bind where
  dev   : Nat
  world : Nat
  peer  : Nat
  slot  : Nat
  deriving DecidableEq, Repr

/-- What is asked of Heartwood by the mailbox and stands until it is answered (R347). -/
structure Mail where
  part : Nat
  word : Word
  deriving DecidableEq, Repr

/-- A session with a verifier (R347, R348). -/
structure Spdm where
  id    : Nat
  keyed : Bool := false
  open_ : Bool := false
  deriving DecidableEq, Repr

/-- The fabric and the outside links (R374 to R388). -/
structure Fabric where
  devno  : Nat := 1023
  ports  : Map Port := []
  routes : Map Nat := []            -- by partition·1024 + device: the set of ports
  binds  : List Bind := []
  lost   : List (Nat × Nat) := []   -- partition and device
  again  : List (Nat × Nat) := []   -- the lost ones that a route has been set for since, with no port up yet (R386)
  ctrs   : Map Nat := []            -- GCM counters by port, slot and direction: the next to send, the last accepted
  remote : List RemReq := []        -- requests of other devices accepted and not performed
  timers : Map Nat := []            -- loss timers by partition·1024 + device
  deriving DecidableEq, Repr

/-- Heartwood (R346 to R351). -/
structure Heart where
  mbox    : List Mail := []
  spdm    : Map Spdm := []
  owner   : Bool := false           -- owner unlock token
  mfg     : Bool := false           -- manufacturer unlock token
  hostFails : Nat := 0              -- failed accesses of the host (R343)
  reports : List (Nat × Nat) := []  -- silent-data-error reports: the core, and the one that replayed its work (R325)
  deriving DecidableEq, Repr

/-- What left the device (R273, R343, R347, R352, R376, R383). -/
inductive Out
  | flit (port : Nat) (f : Flit)
  | hostReply (fn : Nat) (bytes : List Byte) | hostFail (fn : Nat)
  | msix (fn vector : Nat)
  | abort (world : Nat) (code : BitVec 6)
  | spdm (sess : Nat) (words : List Nat)
  | debug (words : List Word)
  | loss (part dev : Nat)
  | session (dev rec : Nat) (aborted : Bool)   -- to a peer's Heartwood: its record becomes ABORTED, or ENDED (R371, R372)
  deriving DecidableEq, Repr

/-- An event of the machine's own that is due: the rows of the table that data in the state, and nothing outside, brings
about. -/
inductive Due
  | launchRecordRead (path : Nat) | launchBlockPlace (world : Nat) | spawnBlockPlace (core : Nat) | threadPlace (core : Nat)
  | unitRestore (core : Nat) (u : UnitId)
  | stealRequest (core : Nat) | stealAnswer (core : Nat) | stealAck (core : Nat) | stealBackoffExpiry (core : Nat)
  | schedulerCycle (core : Nat) | issueSpanAge (core : Nat) (u : UnitId) | fetchLineFill (core : Nat) (va : DWord)
  | loadComplete (core op : Nat) | storeHeldAtHome (core op : Nat) | flushComplete (core op : Nat)
  | mwaitTimeout (core tid : Nat) | sleepExpiry (core tid : Nat) | rwaitExpiry (core tid : Nat)
  | tokenMoveOnJoin (core tid : Nat)
  | copyComplete (core id : Nat) | copyFail (core id : Nat)
  | arrayEntryStart (core : Nat) | matrixOpComplete (core : Nat) | accInstrComplete (core : Nat)
  | sortCmdStart (core : Nat) | sortCmdComplete (core : Nat)
  | auditReplay (die slot : Nat) (equal : Bool) | auditReplayTimeout (die slot : Nat)
  | faultRecordPost (core : Nat) | rollback (core : Nat) (u : UnitId) | worldAbort (world : Nat) (code : BitVec 6)
  | cxswSave (core : Nat) | cxswRestore (core : Nat)
  | reliabilityWindow (die dom : Nat)
  | signatureRotate (core : Nat) | l1LineExpiry (core world va : Nat) | farLineExpiry (die world va : Nat)
  | l2MissFill (world va : Nat) | tokenPassCommit (world base : Nat)
  | agentEndRights (agent : Word) (world : Nat) (taint : Bool)
  | sessionMatch (r1 r2 : Nat) | gateContributionArrival (rec : Nat) (c : Contrib) | gateTimeout (rec : Nat)
  | remoteRequestArrival (r : RemReq) | deviceLossTimeout (part dev : Nat)
  | coalesceDelayExpiry (world : Nat) | heartwoodWindow | scrubGranule (gr : Nat)
  | captureUnitCycle (part unit : Nat)
  | accessChecks (b : Bundle)       -- an access that has issued goes to its checks (R402)
  deriving DecidableEq, Repr

structure State where
  on      : Bool := true
  cores   : Map Core := []          -- the core as `Core.init` where not listed
  dies    : Map Die := []
  mem     : List Host.Cell := []    -- HBM and CXL windows, by physical address
  poison  : List Nat := []          -- poisoned 64-bit words of memory (R322)
  hwmem   : List Host.Cell := []    -- Heartwood's private memory
  tlb     : Map (List (Nat × Nat × Nat)) := []   -- translation caches by stack: world, page, entry
  parts   : Map Part := []
  worlds  : Map World := []
  bark    : Map Granule := []       -- by physical address / 64 KiB
  cxl     : Map CxlWin := []
  keys    : Map Key := []
  paths   : Map LaunchPath := []    -- host function n at n, partition p at 64 + p, Heartwood's at 68 + p
  launches : List Launch := []
  gate    : Map Gate := []
  contribs : List (Nat × Contrib) := []
  bells   : Map Bell := []          -- by world
  msix    : Map Word := []          -- vectors whose table entry is unmasked, by function
  pba     : Map Word := []          -- pending bits, by function
  saves   : Map Save := []          -- saved worlds by root frame (R275)
  veil    : List Nat := []          -- lines of memory that hold a core's own layout of its frames (R274)
  spoiled : List Nat := []          -- frames software has written to since a core laid something out in them (R274)
  fab     : Fabric := {}
  heart   : Heart := {}
  unlocked : Nat := 0               -- debug port: 0 LOCKED, 1 OWNER, 2 MANUFACTURER
  cfg     : List PartCfg := []      -- the signed configuration of the last cold power-up
  ioclk   : Nat := 0
  scrub   : Map Nat := []           -- by stack: the first granule that its scrub has not reached (R349)
  -- the model's own fields (log 2, 3, 5)
  tick    : Nat := 0
  focus   : Option Bundle := none
  pipes   : List Bundle := []
  walks   : List Bundle := []       -- in their pipes, with an access that has issued and is not accepted (R402)
  inputs  : List Instr := []
  todo    : List Due := []          -- events due at once
  ending  : List (Nat × Word × Nat × Bool) := []   -- agents that ended: core, name, world, TAINT (R317)
  dead    : Nat := 0                -- agents that have ended so far
  outbox  : List Out := []
  deriving DecidableEq, Repr

/-- A core at reset: the steal LFSR is seeded with the core number plus one (R283, log 13). -/
def Core.init (c : Nat) : Core := { steal := { lfsr := BitVec.ofNat 16 (c + 1) } }

/-- Right after reset: power on, no partition formed, no thread live, memory unlisted (log 15). -/
def State.reset : State := {}

/-- The canonical form of a byte memory (log 11): addresses strictly rising and no byte that equals what an unlisted address
reads as. -/
def Memory.wf (m : List Host.Cell) : Bool := Map.canon (0 : Byte) m

end Sys2Proof.Machine
end

