-- ==== Sys2Proof/Machine/Operands.lean ====
section
/-!
DEFINITION. Where things stand in the state, and the operands of an instruction: registers, specials, immediates, pairs,
predicates and destinations (R2, R23 to R26, R29, R30, R142).
-/
namespace Sys2Proof.Machine

/-! ### Places in the state -/

def State.core (s : State) (c : Nat) : Core := (s.cores.look c).getD (Core.init c)
def State.setCore (s : State) (c : Nat) (k : Core) : State := { s with cores := s.cores.put c k }
def State.modCore (s : State) (c : Nat) (f : Core → Core) : State := s.setCore c (f (s.core c))
def State.ctx (s : State) (c : Nat) : Ctx := (s.core c).ctx
def State.modCtx (s : State) (c : Nat) (f : Ctx → Ctx) : State := s.modCore c fun k => { k with ctx := f k.ctx }
def State.thr? (s : State) (c t : Nat) : Option Thread := (s.ctx c).threads.look t
/-- The thread in a slot; a slot with no thread reads as a thread just created. -/
def State.thr (s : State) (c t : Nat) : Thread := (s.thr? c t).getD { pc := 0, quota := 16 }
def State.setThr (s : State) (c t : Nat) (th : Thread) : State :=
  s.modCtx c fun x => { x with threads := x.threads.put t th }
/-- A change to a live thread; nothing where the slot is free. -/
def State.modThr (s : State) (c t : Nat) (f : Thread → Thread) : State :=
  match s.thr? c t with
  | some th => s.setThr c t (f th)
  | none => s
def State.group? (s : State) (c g : Nat) : Option Group := (s.ctx c).groups.look g
def State.modGroup (s : State) (c g : Nat) (f : Group → Group) : State :=
  match s.group? c g with
  | some gr => s.modCtx c fun x => { x with groups := x.groups.put g (f gr) }
  | none => s
def State.die (s : State) (d : Nat) : Die := (s.dies.look d).getD {}
def State.modDie (s : State) (d : Nat) (f : Die → Die) : State := { s with dies := s.dies.put d (f (s.die d)) }
def State.modPart (s : State) (p : Nat) (f : Part → Part) : State :=
  match s.parts.look p with
  | some x => { s with parts := s.parts.put p (f x) }
  | none => s
def State.modWorld (s : State) (w : Nat) (f : World → World) : State :=
  match s.worlds.look w with
  | some x => { s with worlds := s.worlds.put w (f x) }
  | none => s

/-- Physical numbering (R2). -/
def groveOf (c : Nat) : Nat := c / 12
def quarterOf (c : Nat) : Nat := c / 48
def dieOf (c : Nat) : Nat := c / 96
/-- The partition that owns a quarter (R329). -/
def State.partOfQuarter (s : State) (q : Nat) : Option Nat :=
  (s.parts.find? fun p => p.2.pqm.getLsbD q).map (·.1)
def State.partOf (s : State) (c : Nat) : Option Nat := s.partOfQuarter (quarterOf c)
/-- The world a core has latched; 0 where none. -/
def State.worldOf (s : State) (c : Nat) : Nat := ((s.core c).latch).getD 0

/-- The unit a thread belongs to (R158). -/
def Thread.unit (th : Thread) (t : Nat) : UnitId :=
  match th.grp with
  | some (g, _) => .grp g
  | none => .thr t
def State.unitOf (s : State) (c t : Nat) : UnitId := (s.thr c t).unit t
/-- The agent a thread acts for (R204). -/
def State.agentOf (s : State) (c t : Nat) : Agent := if (s.ctx c).lead = some t then .lead else .unit (s.unitOf c t)
/-- The threads of a unit in ascending `gslot`. -/
def State.members (s : State) (c : Nat) : UnitId → List Nat
  | .grp g => ((s.group? c g).map fun gr => gr.mem.vals).getD []
  | .thr t => if (s.thr? c t).isSome then [t] else []

/-! ### Instruction addresses (R12, R13) -/

def lineOf (pc : DWord) : DWord := pc &&& ~~~63#64
def slotOf (pc : DWord) : Nat := (pc.extractLsb' 0 6).toNat / 12
def isInstrAddr (pc : DWord) : Bool := [0, 12, 24, 36, 48].contains (pc.extractLsb' 0 6).toNat
/-- The next instruction in sequential order. -/
def nextPc (pc : DWord) : DWord := if slotOf pc < 4 then pc + 12 else pc + 16
/-- The instruction after a pair. -/
def afterPair (pc : DWord) : DWord := nextPc (nextPc pc)
/-- A direct target (R31). -/
def directTarget (pc : DWord) (imm : Word) : DWord :=
  lineOf pc + (imm.sshiftRight 3).signExtend 64 * 64 + 12 * (imm.extractLsb' 0 3).setWidth 64

/-! ### Issue context -/

/-- One thread of the bundle that executes: its core and slot, the lane pipe, and whether it is the active member with the
lowest `gslot` (R25). -/
structure Env where
  c    : Nat
  t    : Nat
  lane : Nat := 0
  low  : Bool := true
  skew : Nat := 0                   -- cycles after the bundle entered its pipe (R167)
  deriving DecidableEq, Repr

/-- The word of a place that holds an unspecified value (R9). -/
def State.free (s : State) (place : Nat) : Word := Config.freeWord s.tick place

/-- The specials of R24. -/
def specVal (s : State) (e : Env) (sp : Special) : Word :=
  let th := s.thr e.c e.t
  let gr := th.grp.bind fun g => s.group? e.c g.1
  match sp with
  | .zero => 0
  | .tid => BitVec.ofNat 32 e.t
  | .gid => match th.grp with | some g => BitVec.ofNat 32 g.1 | none => BitVec.allOnes 32
  | .gslot => match th.grp with | some g => BitVec.ofNat 32 g.2 | none => BitVec.allOnes 32
  | .gsize => match gr with | some g => BitVec.ofNat 32 g.mem.length | none => 0
  | .core => BitVec.ofNat 32 e.c
  | .grove => BitVec.ofNat 32 (groveOf e.c)
  | .die => BitVec.ofNat 32 (dieOf e.c)
  | .world => BitVec.ofNat 32 (s.worldOf e.c)
  | .devno => BitVec.ofNat 32 s.fab.devno
  | .ccnt => ((s.core e.c).ccnt + BitVec.ofNat 64 e.skew).setWidth 32
  | .ccnth => th.ccnth
  | .lane => BitVec.ofNat 32 e.lane
  | .quota => BitVec.ofNat 32 th.quota
  | .slice => match gr with | some g => BitVec.ofNat 32 g.slice | none => 0
  | .part => BitVec.ofNat 32 ((s.partOf e.c).getD 0)

/-- An x or y register; unspecified while a load into it is not counted (R142). -/
def rdX (s : State) (e : Env) (n : Nat) : Word :=
  let th := s.thr e.c e.t
  if th.hazard.contains n then s.free n else th.regs.get 0 n
def Group.unread (g : Group) (n : Nat) : Bool := g.hazard.any (·.1 == n)
def rdY (s : State) (e : Env) (n : Nat) : Word :=
  match (s.thr e.c e.t).grp.bind fun g => s.group? e.c g.1 with
  | some g => if g.unread n then s.free (128 + n) else g.y.get 0 n
  | none => 0

/-- A source as one 32-bit word: the k-th register from it (R23, R25). A special or the immediate, named where more registers than one
are read, gives its value and then zeros (DESIGN CHOICE, log 25). -/
def rdWord (s : State) (e : Env) (h : Hdr) (src : Src) (k : Nat := 0) : Word :=
  match src with
  | .x n => rdX s e (n.toNat + k)
  | .y n => rdY s e (n.toNat + k)
  | .sp sp => if k = 0 then specVal s e sp else 0
  | .imm => if k = 0 then h.imm else 0
/-- A source as a pair: low half in the even register (R25, R30). An immediate is extended by the flag: R30 says so of s64 and u64
only, and an untyped pair (A of `brx`, `callx`, `spawn`, `cstk` and `lea`) is zero-extended (DESIGN CHOICE, log 59). -/
def rdPair (s : State) (e : Env) (h : Hdr) (src : Src) (sx : Bool := false) : DWord :=
  match src with
  | .imm => if sx then h.imm.signExtend 64 else h.imm.setWidth 64
  | _ => rdWord s e h src 1 ++ rdWord s e h src
/-- A source as a value of a type (R51, R30). -/
def rdVal (s : State) (e : Env) (h : Hdr) (t : Ty) (src : Src) : DWord :=
  if t.is64 then rdPair s e h src (t == .s64) else (rdWord s e h src).setWidth 64

/-- A predicate; k0 reads true (R26). -/
def rdPred (s : State) (e : Env) (k : Pred) : Bool := k == 0 || (s.thr e.c e.t).preds.getLsbD k.toNat
/-- The guard (R29). -/
def guardOk (s : State) (c t : Nat) (h : Hdr) : Bool := rdPred s { c := c, t := t } h.guard != h.inv

/-! ### Destinations -/

/-- Uncorrectable errors of a core that a write has covered go (R321). -/
def clearMarks (s : State) (c : Nat) (p : ErrAt → Bool) : State :=
  if (s.core c).marks.isEmpty then s else s.modCore c fun k => { k with marks := k.marks.filter fun m => !p m }
/-- Uncorrectable errors that stand in some place of a core. -/
def marksWhere (s : State) (c : Nat) (p : ErrAt → Bool) : List ErrAt := (s.core c).marks.filter p
def wrX (s : State) (e : Env) (n : Nat) (v : Word) : State :=
  clearMarks (s.modThr e.c e.t fun th => { th with regs := th.regs.set 0 n v }) e.c (· == .reg e.c e.t n)
def wrY (s : State) (e : Env) (n : Nat) (v : Word) : State :=
  match (s.thr e.c e.t).grp with
  | some g => clearMarks (s.modGroup e.c g.1 fun gr => { gr with y := gr.y.set 0 n v }) e.c (· == .yreg e.c g.1 n)
  | none => s
/-- A destination kept for a later write: a y register only for the active member that writes it (R25). -/
def Env.keep (e : Env) : Dst → Dst
  | .y n => if e.low then .y n else .zero
  | d => d
/-- A word to the k-th register from a destination: x of the thread, y by the lowest active member only, `zero` discards
(R24, R25). -/
def wrWord (s : State) (e : Env) (d : Dst) (v : Word) (k : Nat := 0) : State :=
  match d with
  | .x n => wrX s e (n.toNat + k) v
  | .y n => if e.low then wrY s e (n.toNat + k) v else s
  | .zero => s
def wrPair (s : State) (e : Env) (d : Dst) (v : DWord) : State :=
  wrWord (wrWord s e d (v.setWidth 32)) e d (v.extractLsb' 32 32) 1
/-- A value of a type as the register, or pair, holds it. -/
def wrVal (s : State) (e : Env) (wide : Bool) (d : Dst) (v : DWord) : State :=
  if wide then wrPair s e d v else wrWord s e d (v.setWidth 32)
/-- A predicate; a write to k0 is ignored (R26). -/
def wrPred (s : State) (e : Env) (k : Pred) (b : Bool) : State :=
  if k == 0 then s
  else s.modThr e.c e.t fun th =>
    { th with preds := if b then th.preds ||| (1#8 <<< k.toNat) else th.preds &&& ~~~(1#8 <<< k.toNat) }

/-! ### Register availability (R25) -/

/-- Registers an instruction names: sources and destinations with how many registers each, predicates beside its guard; and
its pass through a lane pipe (R131, R133, R167, R168). -/
structure Uses where
  srcs : List (Src × Nat) := []
  dsts : List (Dst × Nat) := []
  ks   : List Pred := []            -- predicates read
  kds  : List Pred := []            -- predicates written
  lat  : Nat := 1                   -- cycles from the issue to the result
  ival : Nat := 1                   -- cycles in the pipe
  cls  : Bool := false              -- of a class that may issue uniformly
  engine : Bool := false            -- an engine command (R216)
  each : List (Src × Nat) := []     -- sources of an engine command that every active member reads
  deriving DecidableEq, Repr

def srcAvail (th : Thread) : Src × Nat → Bool
  | (.x n, k) => n.toNat + k ≤ th.quota
  | (.y _, _) => th.grp.isSome
  | _ => true
def dstAvail (th : Thread) : Dst × Nat → Bool
  | (.x n, k) => n.toNat + k ≤ th.quota
  | (.y _, _) => th.grp.isSome
  | _ => true
def Uses.avail (u : Uses) (th : Thread) : Bool := u.srcs.all (srcAvail th) && u.dsts.all (dstAvail th)
/-- Whether the instruction reads `ccnt` (R24). -/
def Uses.readsCcnt (u : Uses) : Bool := u.srcs.any fun p => p.1 == .sp .ccnt

/-- Registers and predicates by number: n for xn, 128 + n for yn, 256 + n for kn. -/
def srcKeys : Src × Nat → List Nat
  | (.x n, k) => (List.range k).map (n.toNat + ·)
  | (.y n, k) => (List.range k).map (128 + n.toNat + ·)
  | _ => []
def dstKeys : Dst × Nat → List Nat
  | (.x n, k) => (List.range k).map (n.toNat + ·)
  | (.y n, k) => (List.range k).map (128 + n.toNat + ·)
  | _ => []
def predKey (k : Pred) : Nat := 256 + k.toNat
def Uses.reads (u : Uses) (h : Hdr) : List Nat := u.srcs.flatMap srcKeys ++ (h.guard :: u.ks).map predKey
def Uses.writes (u : Uses) : List Nat := u.dsts.flatMap dstKeys ++ u.kds.map predKey
/-- Sources with one value for every thread of a bundle (R168). -/
def uniformSrc : Src → Bool
  | .y _ | .imm => true
  | .x _ => false
  | .sp v => [Special.zero, .gid, .gsize, .core, .grove, .die, .world, .devno, .slice, .part].contains v
def Uses.uniform (u : Uses) (h : Hdr) : Bool :=
  u.cls && h.guard == 0 && !h.inv && u.ks.isEmpty && u.srcs.all fun p => uniformSrc p.1

def one (l : List Src) : List (Src × Nat) := l.map fun x => (x, 1)
def wide (w : Bool) (l : List Src) : List (Src × Nat) := l.map fun x => (x, if w then 2 else 1)
def wideD (w : Bool) (d : Dst) : List (Dst × Nat) := [(d, if w then 2 else 1)]

end Sys2Proof.Machine
end

