-- ==== Sys2Proof/Machine/Flags.lean ====
section
/-!
DEFINITION. SAT, the machine's one sticky flag (R63 to R65), and where its armed bit stands.
-/
namespace Sys2Proof.Machine

/-- SAT set for the unit of a thread: its group's bit, or its private bit (R64, R65). -/
def setSat (s : State) (c t : Nat) : State :=
  match (s.thr c t).grp with
  | some g => s.modGroup c g.1 fun gr => { gr with sat := true }
  | none => s.modThr c t fun th => { th with sat := true }
def setSatIf (b : Bool) (s : State) (c t : Nat) : State := if b then setSat s c t else s
/-- SAT set for the agent an engine works for; nothing where it is gone (R64, R218). -/
def setSatAgent (s : State) (c : Nat) : Agent → State
  | .unit (.grp g) => s.modGroup c g fun gr => { gr with sat := true }
  | .unit (.thr t) => s.modThr c t fun th => { th with sat := true }
  | .lead => match (s.ctx c).lead with
    | some t => s.modThr c t fun th => { th with sat := true }
    | none => s
  | .gone _ => s
/-- The SAT and armed bits as a thread sees them (R179). -/
def satBits (s : State) (c t : Nat) : Bool × Bool :=
  match (s.thr c t).grp with
  | some g => match s.group? c g.1 with
    | some gr => (gr.sat, gr.armed)
    | none => (false, false)
  | none => ((s.thr c t).sat, false)
def clearSat (s : State) (c t : Nat) : State :=
  match (s.thr c t).grp with
  | some g => s.modGroup c g.1 fun gr => { gr with sat := false }
  | none => s.modThr c t fun th => { th with sat := false }
def setArmed (b : Bool) (s : State) (c t : Nat) : State :=
  match (s.thr c t).grp with
  | some g => s.modGroup c g.1 fun gr => { gr with armed := b }
  | none => s

end Sys2Proof.Machine
end

