-- ==== Sys2Proof/Machine/Ops.lean ====
section
/-!
DEFINITION. The operations every family shares: agents, counters and outstanding operations (R84, R141), rollback shadows
(R270, R271, R414), taking a fault and resuming from one (R92, R93, R256 to R262), completing an instruction (R13, R38),
running an instruction for a bundle (R29, R33, R216), leaving a group and retiring (R87, R161, R263, R317).
-/
namespace Sys2Proof.Machine

/-- What a meaning answers. -/
abbrev Answer := Host.Outcome State Fault Refusal

/-! ### Agents (R204, R307, R309, R329) -/

def agentWord (c : Nat) : Agent → Word
  | .unit (.grp g) => BitVec.ofNat 32 (0x80000000 + c * 65536 + g)
  | .unit (.thr t) => BitVec.ofNat 32 (0x90000000 + c * 65536 + t)
  | .lead => BitVec.ofNat 32 (0xA0000000 + c * 65536)
  | .gone n => BitVec.ofNat 32 (n % 2 ^ 30 + 1)
def stewardWord : Word := 0xB0000000
def deviceWord (dev : Nat) : Word := BitVec.ofNat 32 (0xC0000000 + dev)
/-- The agent of R204 that a thread belongs to, whose signatures it keeps (R289). The lead's `tid` stands in [10:0] (R307). -/
def State.sigId (s : State) (c t : Nat) : Word :=
  match s.agentOf c t with
  | .lead => agentWord c .lead + BitVec.ofNat 32 t
  | a => agentWord c a
/-- The identifier under which a thread holds tokens: a steward thread acts for the steward agent (R307, R309). -/
def State.agentId (s : State) (c t : Nat) : Word :=
  if (s.thr c t).level = .steward then stewardWord else s.sigId c t
/-- The world in whose space a thread's accesses act (R329). -/
def State.actWorld (s : State) (c t : Nat) : Nat :=
  if (s.thr c t).level = .steward then
    match (s.partOf c).bind s.parts.look with
    | some p => p.actw
    | none => s.worldOf c
  else s.worldOf c

/-! ### Outstanding operations and counters (R84, R141) -/

/-- A remote access is counted once its target has accepted it (R383). -/
def OpBody.accepted : OpBody → Bool
  | .remote _ _ _ none => false
  | _ => true
def Ctx.count (x : Ctx) (t : Nat) (k : Cls) : Nat :=
  x.ops.countP fun o => o.tid == t && o.cls == k && o.retired.isNone && o.body.accepted
def State.count (s : State) (c t : Nat) (k : Cls) : Nat := (s.ctx c).count t k
/-- An operation leaves once it is done and no older one of its owner and class is outstanding. -/
def pruneOps : List (Nat × Cls × Option Nat) → List Op → List Op
  | _, [] => []
  | held, o :: l =>
    if o.done && !held.contains (o.tid, o.cls, o.retired) then pruneOps held l
    else o :: pruneOps (if o.done then held else (o.tid, o.cls, o.retired) :: held) l
def State.op? (s : State) (c id : Nat) : Option Op := (s.ctx c).ops.find? (·.id == id)
def State.modOp (s : State) (c id : Nat) (f : Op → Op) : State :=
  s.modCtx c fun x => { x with ops := x.ops.map fun o => if o.id = id then f o else o }
/-- The operation completes, and with it those counted along with it. -/
def finishOp (s : State) (c id : Nat) : State :=
  s.modCtx c fun x => { x with ops := pruneOps [] (x.ops.map fun o =>
    if o.id = id || o.body == .along id then { o with done := true } else o) }
/-- An operation about to be accepted. -/
def newOp (s : State) (c t : Nat) (k : Cls) (pc : DWord) (body : OpBody) (homes : List Home := []) (evict : Nat := 3)
    (low : Bool := true) : Op :=
  { id := (s.ctx c).nextOp, tid := t, cls := k, pc := pc, agent := s.agentId c t, sgn := s.sigId c t, world := s.actWorld c t,
    level := (s.thr c t).level, evict := evict, homes := homes, low := low, body := body }
/-- An accepted operation raises its thread's counter; the answer is the operation's number. -/
def addOp (s : State) (c t : Nat) (k : Cls) (pc : DWord) (body : OpBody) (homes : List Home := []) (evict : Nat := 3)
    (low : Bool := true) : State × Nat :=
  (s.modCtx c fun x => { x with nextOp := (s.ctx c).nextOp + 1, ops := x.ops ++ [newOp s c t k pc body homes evict low] }, (s.ctx c).nextOp)
/-- Tracker entries in use (R87). -/
def trackerUsed (x : Ctx) : List Nat := (x.ops.filterMap (·.retired)).eraseDups
/-- Registers a load writes: hazard numbers, n for xn and 128 + n for yn (R142). -/
def dstHazard : Dst → Nat → List Nat
  | .x n, k => (List.range k).map (n.toNat + ·)
  | .y n, k => (List.range k).map (128 + n.toNat + ·)
  | .zero, _ => []
def OpBody.hazard : OpBody → List Nat
  | .load _ _ n ty d _ _ _ => dstHazard d (if ty == .b32 || ty.is64 then (n + 3) / 4 else 1)
  | .rmw _ _ _ r d _ _ _ => dstHazard d (match r with
    | .int _ ty _ => if ty.is64 then 2 else 1
    | .cas ty _ _ => if ty.is64 then 2 else 1
    | .flt _ _ _ => 1)
  | .remote r d _ _ => dstHazard d (if r.ty.is64 then 2 else 1)
  | _ => []
/-- A load's destination is unspecified until a `wait` has counted the load: an x register to its thread, a y register to the whole
group, where the thread is the member that writes it (R25, R142). `ts` are the threads that count the load. -/
def markHazard (s : State) (c t : Nat) (l : List Nat) (low : Bool := true) (ts : List Nat := [t]) : State :=
  let s := s.modThr c t fun th => { th with hazard := (th.hazard ++ l.filter (· < 128)).eraseDups }
  match (s.thr c t).grp with
  | some g => if low then s.modGroup c g.1 fun gr => { gr with hazard := gr.hazard ++ (l.filter (· ≥ 128)).map fun n => (n - 128, ts) } else s
  | none => s
/-- Threads that count an operation along with its own (`ldu`, R143). -/
def Ctx.riders (x : Ctx) (id : Nat) : List Nat :=
  x.ops.filterMap fun o => if o.body == .along id && o.retired.isNone then some o.tid else none
/-- Whether a live thread counts an operation. -/
def Ctx.counts (x : Ctx) (o : Op) (t : Nat) : Bool := (o.tid == t && o.retired.isNone) || (x.riders o.id).contains t
/-- A `wait` counted what is no longer outstanding (R142). The destination of `sort.match` is kept until its operation
leaves (R249). -/
def clearHazard (s : State) (c t : Nat) : State :=
  let x := s.ctx c
  let own := x.ops.filter fun o => o.tid == t && o.retired.isNone
  let sm := (x.sort.queue.filterMap fun q => match q.cmd with
    | .smatch _ d => if q.tids.contains t then some (dstHazard d 4) else none
    | _ => none).flatten
  let along := own.flatMap fun o => match o.body with
    | .along id => ((x.ops.find? (·.id == id)).map (·.body.hazard)).getD []
    | b => b.hazard.filter fun n => n < 128 || o.low
  let due := fun (n : Nat) => along.contains n || sm.contains n
  let s := s.modThr c t fun th => { th with hazard := th.hazard.filter due }
  let s := match (s.thr c t).grp with
    | some g => s.modGroup c g.1 fun gr => { gr with hazard := gr.hazard.filter fun p => !p.2.contains t || due (128 + p.1) }
    | none => s
  s.modCtx c fun x => { x with loose := x.loose.map fun q => if q.wb = some t then { q with wb := none, seen := q.seen ++ [t] } else q }

/-! ### Save frames (R9, R274) -/

def rangesMeet (a n b m : Nat) : Bool := a < b + m && b < a + n
def frameOf (a : Nat) : Nat := a / 4096 * 4096
/-- A core lays something out in frames: what their memory reads as is its own, until software writes there. What a saved world held in
one of them is lost (R274). -/
def State.takeFrames (s : State) (fr : List Nat) : State :=
  let fs := fr.map frameOf
  { s with veil := (s.veil.filter fun a => !fs.contains (frameOf a)) ++ fs.flatMap fun f => (List.range 32).map fun i => f + 128 * i
           spoiled := s.spoiled.filter fun f => !fs.contains f
           saves := s.saves.map fun e => (e.1, if e.2.frames.any fun f => fs.contains (frameOf f) then { e.2 with lost := true } else e.2) }
/-- Bytes of memory that are written hold what was written, and a frame among them is spoiled. -/
def State.unveil (s : State) (a n : Nat) : State :=
  let hit := s.veil.filter fun l => rangesMeet a n l 128
  if hit.isEmpty then s
  else { s with veil := s.veil.filter fun l => !rangesMeet a n l 128, spoiled := (s.spoiled ++ hit.map frameOf).eraseDups }
/-- What comes back from a frame that software has changed is unspecified: the registers and predicates of the threads, and the y registers
of their groups (R9, log 27). -/
def blurThreads (s : State) (c : Nat) (ts : List Nat) : State :=
  let some_ := fun (m : Map Word) (base n : Nat) => (List.range n).foldl (fun m i => m.set 0 i (s.free (base + i))) m
  let s' := ts.foldl (fun s' t => s'.modThr c t fun th =>
    { th with regs := some_ th.regs (2 ^ 58 + 128 * t) th.quota, preds := (s.free (2 ^ 56 + t)).setWidth 8 ||| 1 }) s
  s'.modCtx c fun x => { x with
    groups := x.groups.map fun e =>
      (e.1, if e.2.mem.any fun m => ts.contains m.2 then { e.2 with y := some_ e.2.y (2 ^ 55 + 64 * e.1) 64 } else e.2) }
/-- Threads come back from frames. -/
def fromFrames (s : State) (c : Nat) (fr ts : List Nat) (lost : Bool := false) : State :=
  if lost || fr.any fun f => s.spoiled.contains (frameOf f) then blurThreads s c ts else s

/-! ### Rollback shadows (R270, R271, R414) -/

def cdiv (a b : Nat) : Nat := (a + b - 1) / b
def shadowNeed (sh : Shadow) : Nat :=
  sh.atOnce + cdiv sh.lines.length 32 + cdiv sh.accs.length 16 + cdiv sh.rows.length 4 + cdiv sh.copies.length 64
def Ctx.shadow (x : Ctx) (u : UnitId) : Option Shadow := (x.shadows.find? (·.1 == u)).map (·.2)
def Ctx.setShadow (x : Ctx) (u : UnitId) (sh : Option Shadow) : Ctx :=
  { x with shadows := (x.shadows.filter (·.1 != u)) ++ (match sh with | some v => [(u, v)] | none => []) }
def modShadow (s : State) (c : Nat) (u : UnitId) (f : Shadow → Shadow) : State :=
  match (s.ctx c).shadow u with
  | some sh => s.modCtx c fun x => x.setShadow u (some (f sh))
  | none => s
/-- A copy-on-write part joins the shadow, with the frames it needs; where they are not free the interval is unshadowed. -/
def addShadow (s : State) (c : Nat) (u : UnitId) (f : Shadow → Shadow) : State :=
  match (s.ctx c).shadow u with
  | none => s
  | some sh =>
    let free := (s.core c).frames
    let more := shadowNeed (f sh) - sh.frames.length
    if sh.unshadowed then s
    else if free.length < more then modShadow s c u fun v => { v with unshadowed := true }
    else modShadow ((s.takeFrames (free.take more)).modCore c fun k => { k with frames := free.drop more }) c u fun v => { f v with frames := free.take more ++ v.frames }
/-- The interval becomes irrevocable (R271). -/
def irrevocable (s : State) (c t : Nat) : State := modShadow s c (s.unitOf c t) fun v => { v with irrevocable := true }
/-- A shadow that ends returns its frames. -/
def dropShadow (s : State) (c : Nat) (u : UnitId) : State :=
  match (s.ctx c).shadow u with
  | none => s
  | some sh => (s.modCore c fun k => { k with frames := k.frames ++ sh.frames }).modCtx c fun x => x.setShadow u none
def Thread.shadow (t : Nat) (th : Thread) : ShadowThread :=
  { tid := t, regs := th.regs, preds := th.preds, stack := th.stack, spBase := th.spBase, spLimit := th.spLimit,
    spilled := th.spilled, step := th.step, sat := th.sat, ccnth := th.ccnth }
/-- The agent that a unit's members act for: the lead's where the unit is the lead thread (R204). -/
def shadowAgent (s : State) (c : Nat) : UnitId → Agent
  | .thr t => if (s.ctx c).lead = some t then .lead else .unit (.thr t)
  | u => .unit u
/-- A copy whose thread is live. -/
def State.copyLive (s : State) (c : Nat) (q : Copy) : Bool := (s.op? c q.op).any fun o => o.retired.isNone
/-- The shadow of a unit, with the instruction after the barrier (R174, R270). The frames of the shadow before it return once those
of the part taken at once are there; the copies in flight take theirs then (R414). -/
def takeShadow (s : State) (c : Nat) (u : UnitId) (pc : DWord) : State :=
  let mem := s.members c u
  let x := s.ctx c
  let a := shadowAgent s c u
  let gr := match u with | .grp g => x.groups.look g | .thr _ => none
  let cps := x.copies.filter fun q => mem.contains q.tid && s.copyLive c q
  let once := cdiv (832 + mem.foldl (fun n t => n + 128 + 4 * (s.thr c t).quota) 0) 4096
  let old := ((x.shadow u).map (·.frames)).getD []
  let free := (s.core c).frames
  if free.length < once then dropShadow s c u
  else
    let more := cdiv cps.length 64
    let rest := free.drop once ++ old
    let short := decide (rest.length < more)
    let sh : Shadow :=
      { threads := mem.map fun t => (s.thr c t).shadow t
        y := (gr.map (·.y)).getD [], sat := (gr.map (·.sat)).getD false, armed := (gr.map (·.armed)).getD false
        slice := (gr.map (·.slice)).getD 1, pc := pc, copies := cps
        rsv := x.rsv.find? fun r => r.agent == a && !r.releasing, cvs := x.cvs.filter fun e => e.2.owner == a
        sort := if x.sort.holder = some a then some { x.sort with cells := [] } else none
        marks := marksWhere s c fun m => match m with | .reg _ t _ => mem.contains t | .yreg _ g _ => u == .grp g | _ => false
        atOnce := once, frames := free.take once ++ (if short then [] else rest.take more), unshadowed := short }
    ((s.takeFrames sh.frames).modCore c fun k => { k with frames := if short then rest else rest.drop more }).modCtx c fun x => x.setShadow u (some sh)

/-- Bytes of a byte memory. -/
def peek (m : List Host.Cell) (a : Nat) : Byte := Map.get (0 : Byte) m a
def poke (m : List Host.Cell) (a : Nat) (v : Byte) : List Host.Cell := Map.set (0 : Byte) m a v
def peekN (m : List Host.Cell) (a n : Nat) : List Byte := (List.range n).map fun i => peek m (a + i)
def pokeL (m : List Host.Cell) (a : Nat) (l : List Byte) : List Host.Cell := (l.foldl (fun (p : List Host.Cell × Nat) v => (poke p.1 p.2 v, p.2 + 1)) (m, a)).1
/-- Bytes and numbers, least significant byte first (R5). -/
def bytesOf (n v : Nat) : List Byte := (List.range n).map fun i => BitVec.ofNat 8 (v / 256 ^ i)
def natOf : List Byte → Nat
  | [] => 0
  | b :: l => b.toNat + 256 * natOf l
def lineBytes (l : Line) : List Byte := bytesOf 128 l.toNat
def lineOfBytes (l : List Byte) : Line := BitVec.ofNat 1024 (natOf l)

/-! ### Tiles and the engines' operands (R188, R209, R214, R225, R251) -/

def Tile.pitch (t : Tile) : Nat := 64 * cdiv (t.cols * t.esz) 64
def Tile.foot (t : Tile) : Nat × Nat := (t.off, t.off + t.rows * t.pitch)
def Tile.meets (t : Tile) (a n : Nat) : Bool := a < t.foot.2 && t.foot.1 < a + n
def scratchSize (x : Ctx) : Nat := 65536 * (16 - x.l1units)
/-- Offset of the linear element k of a tile (R196). -/
def Tile.at_ (t : Tile) (k : Nat) : Nat := t.off + k / t.cols * t.pitch + k % t.cols * t.esz
/-- What R209 says of a mode: element size of A, column stride, bytes of a column that are read, block bytes, passes, whether
it uses a pair. -/
structure MmShape where
  esz : Nat
  stride : Nat
  used : Nat
  block : Nat
  passes : Nat
  pair : Bool
def MmMode.shape : MmMode → MmShape
  | .t1i8 => ⟨1, 40, 39, 2560, 1, false⟩
  | .t5i8 => ⟨1, 192, 192, 12288, 5, false⟩
  | .t5i8bx => ⟨1, 192, 192, 12352, 5, false⟩
  | .t11i16 => ⟨2, 384, 384, 24576, 22, true⟩
  | .ring16 => ⟨2, 384, 384, 24576, 22, true⟩
  | .ring32 => ⟨4, 768, 768, 49152, 84, true⟩
/-- Rows, columns and exponents of an operation whose bytes a range of the scratchpad or the weight buffer holds. -/
def mmTouched (x : Ctx) (b : MmBound) (w : Bool) (off n : Nat) : List Nat :=
  let sh := b.mode.shape
  (List.range 64).flatMap fun i =>
    if w then
      (if rangesMeet off n (b.off + i * sh.stride) sh.used then [64 + i] else []) ++
      (if b.mode == .t5i8bx && rangesMeet off n (b.off + 12288 + i) 1 then [192 + i] else [])
    else
      (match x.tiles.look b.tile with
        | some t => if rangesMeet off n (t.off + i * t.pitch) (192 * sh.esz) then [i] else []
        | none => []) ++
      (if b.mode == .t5i8bx && rangesMeet off n (b.xe + i) 1 then [128 + i] else [])
def elemWord (x : Ctx) (t : Tile) (k : Nat) : Word := BitVec.ofNat 32 (natOf (peekN x.scratch (t.at_ k) t.esz))
/-- Elements of a tile under a sort read that a store is about to change: each is read before or after it (R251). -/
def sortSeen (s : State) (x : Ctx) (base : Nat) (n : Option Nat) (off len : Nat) (m : Map Word) : Map Word :=
  match n.bind x.tiles.look with
  | none => m
  | some t =>
    if !t.meets off len then m
    else (List.range (t.rows * t.cols)).foldl (fun m k =>
      if rangesMeet off len (t.at_ k) t.esz && !m.has (base + k) && Config.choose s.tick (base + k) % 2 == 0 then
        m.put (base + k) (elemWord x t k)
      else m) m
/-- A write into bytes that an operation of the array, or a load of the sort array, has not finished reading (R225, R251). -/
def markTorn (s : State) (c : Nat) (w : Bool) (off n : Nat) : State :=
  let x := s.ctx c
  if x.mq.isEmpty && x.sort.queue.isEmpty then s
  else s.modCtx c fun y => { y with
    mq := y.mq.map fun q => match q.kind with
      | .mma b => { q with torn := (q.torn ++ mmTouched x b w off n).eraseDups }
      | _ => q
    sort := { y.sort with queue := y.sort.queue.map fun q => match q.cmd with
      | .load k p _ _ _ _ => if w then q else { q with seen := sortSeen s x 4096 p off n (sortSeen s x 0 (some k) off n q.seen) }
      | _ => q } }

/-! ### Uncorrectable errors standing in a core's arrays (R321) -/

/-- An error standing in the words of 64 bits of a range of the scratchpad or the weight buffer. -/
def markedBytes (s : State) (c : Nat) (w : Bool) (off n : Nat) : Bool :=
  (s.core c).marks.any fun m => match m with
    | .scratch _ o => !w && rangesMeet off n (o / 8 * 8) 8
    | .wbuf _ o => w && rangesMeet off n (o / 8 * 8) 8
    | _ => false
/-- Words of 64 bits that a write covers lose their error. -/
def unmarkBytes (s : State) (c : Nat) (w : Bool) (off n : Nat) : State :=
  if (s.core c).marks.isEmpty then s
  else s.modCore c fun k => { k with marks := k.marks.filter fun m => match m with
    | .scratch _ o => w || !(off ≤ o / 8 * 8 && o / 8 * 8 + 8 ≤ off + n)
    | .wbuf _ o => !w || !(off ≤ o / 8 * 8 && o / 8 * 8 + 8 ≤ off + n)
    | _ => true }

def Loose.inside (q : Loose) (w : Bool) (off n : Nat) : Bool := q.w == w && off ≤ q.off && q.off + q.n ≤ off + n

/-- Scratchpad lines a unit is about to write (R270). -/
def cowScratch (s : State) (c : Nat) (u : UnitId) (off n : Nat) : State :=
  (List.range (if n = 0 then 0 else (off + n - 1) / 128 - off / 128 + 1)).foldl (fun s i =>
    let a := (off / 128 + i) * 128
    match (s.ctx c).shadow u with
    | some sh => if sh.lines.has a then s else
        addShadow s c u fun v => { v with
          lines := v.lines.put a (lineOfBytes (peekN (s.ctx c).scratch a 128))
          marks := v.marks ++ marksWhere s c fun m => match m with | .scratch _ o => a ≤ o && o < a + 128 | _ => false }
    | none => s) s
/-- The scratchpad holds the bytes. -/
def writeScratch (s : State) (c : Nat) (u : Option UnitId) (off : Nat) (l : List Byte) : State :=
  let s := match u with | some u => cowScratch s c u off l.length | none => s
  (unmarkBytes (markTorn s c false off l.length) c false off l.length).modCtx c fun x =>
    { x with scratch := pokeL x.scratch off l, loose := x.loose.filter (!·.inside false off l.length) }
def writeWbuf (s : State) (c off : Nat) (l : List Byte) : State :=
  (unmarkBytes (markTorn s c true off l.length) c true off l.length).modCtx c fun x =>
    { x with wbuf := pokeL x.wbuf off l, loose := x.loose.filter (!·.inside true off l.length) }
/-- A store of a thread, or a `wb.ld`, that no fence covers yet (R225). -/
def noteLoose (s : State) (c : Nat) (w : Bool) (off n : Nat) (seen : List Nat) (wb : Option Nat := none) : State :=
  s.modCtx c fun x => { x with
    loose := x.loose ++ [{ id := x.nextLoose, w := w, off := off, n := n, seen := seen, wb := wb }], nextLoose := x.nextLoose + 1 }
/-- Threads that have observed each other's stores: those of one phase (R174, R206). -/
def meetLoose (s : State) (c : Nat) (ts : List Nat) : State :=
  s.modCtx c fun x => { x with
    loose := x.loose.map fun q => if q.seen.any ts.contains then { q with seen := (q.seen ++ ts).eraseDups } else q }
/-- A thread has observed some stores (R206). -/
def observe (s : State) (c t : Nat) (ids : List Nat) : State :=
  if ids.isEmpty then s
  else s.modCtx c fun x => { x with loose := x.loose.map fun q => if ids.contains q.id && !q.seen.contains t then { q with seen := q.seen ++ [t] } else q }
/-- The stores a thread has performed or observed. -/
def Ctx.seenBy (x : Ctx) (t : Nat) : List Nat := (x.loose.filter (·.seen.contains t)).map (·.id)
/-- The stores that a load of the thread returned. -/
def observeBytes (s : State) (c : Nat) (ts : List Nat) (w : Bool) (off n : Nat) : State :=
  let ids := ((s.ctx c).loose.filter fun q => q.w == w && q.wb.isNone && rangesMeet q.off q.n off n).map (·.id)
  ts.foldl (fun s t => observe s c t ids) s
def PostAt.meets : PostAt → PostAt → Bool
  | .bytes w sp a n, .bytes w' sp' b m => w == w' && sp == sp' && rangesMeet a n b m
  | .tile a, .tile b => a == b
  | _, _ => false
/-- What other releases left at a place is gone. -/
def dropPosts (s : State) (c : Nat) (p : PostAt) : State :=
  if (s.ctx c).posts.isEmpty then s else s.modCtx c fun x => { x with posts := x.posts.filter fun q => !q.at_.meets p }
/-- A releasing store, atomic or tile of a thread stands where an acquire may find it (R206, R207). -/
def post (s : State) (c t : Nat) (p : PostAt) (sc : Scope) : State :=
  let s := dropPosts s c p
  let ids := (s.ctx c).seenBy t
  if ids.isEmpty || sc == .th then s
  else s.modCtx c fun x => { x with posts := x.posts ++ [{ at_ := p, grp := (s.thr c t).grp.map (·.1), wide := sc != .grp, ids := ids }] }
/-- An acquire whose load reads what a release stored observes what the releasing agent had (R206). -/
def takePosts (s : State) (c t : Nat) (p : PostAt) (sc : Scope) : State :=
  let g := (s.thr c t).grp.map (·.1)
  let hit := (s.ctx c).posts.filter fun q => q.at_.meets p && sc != .th && ((q.wide && sc != .grp) || (g.isSome && q.grp == g))
  hit.foldl (fun s q => observe s c t q.ids) s
/-- A tile entry changes; the shadow keeps what it was (R203). -/
def setTile (s : State) (c : Nat) (u : Option UnitId) (n : Nat) (v : Option Tile) : State :=
  let old := (s.ctx c).tiles.look n
  let s := match u with
    | some u => modShadow s c u fun sh => if sh.tiles.has n then sh else { sh with tiles := sh.tiles.put n old }
    | none => s
  s.modCtx c fun x => { x with tiles := match v with | some t => x.tiles.put n t | none => x.tiles.del n }
def modTile (s : State) (c : Nat) (u : Option UnitId) (n : Nat) (f : Tile → Tile) : State :=
  match (s.ctx c).tiles.look n with
  | some t => setTile s c u n (some (f t))
  | none => s
def unitOfAgent (s : State) (c : Nat) : Agent → Option UnitId
  | .unit u => some u
  | .lead => (s.ctx c).lead.map .thr
  | .gone _ => none

/-! ### Taking a fault (R92, R256 to R260) -/

/-- What a thread raises, with what its record says of it (R258). -/
structure Raise where
  code    : BitVec 6
  detail  : BitVec 8 := 0
  num     : Word := 0
  service : Bool := false
  dst     : Option Dst := none
  addr    : DWord := 0
  bp      : Bool := false
  used    : Bool := false         -- 0x14 from a consumed error: R272 decides
  at_     : Option DWord := none  -- PC the record names where it is not the thread's (R201)
  deriving DecidableEq, Repr

def sendSteward (s : State) (c : Nat) (r : FRec) : State :=
  match s.partOf c with
  | some p => s.modPart p fun q => { q with recs := q.recs ++ [(r, c, s.worldOf c)] }
  | none => s
/-- Where a record goes: the world's handler; for a handler thread the steward, with 0x1C; for a steward thread the
steward's queue (R255, R260). -/
def report (s : State) (c : Nat) (lv : Level) (r : FRec) : State :=
  match lv with
  | .app => s.modCtx c fun x => { x with recs := x.recs ++ [r] }
  | .handler => sendSteward s c { r with code := 0x1C, detail := r.code.setWidth 8 }
  | .steward | .root => sendSteward s c r
/-- Where a resumption without a new PC goes on (R93, R260). -/
def resumePc (r : Raise) (pc : DWord) : DWord :=
  if r.code = 0x18 ∨ (r.code = 0x19 ∧ !r.bp) then nextPc pc else pc

/-- What a record says of threads that raised the same code at the same place (R258), but for the mask. -/
def faultRec (s : State) (c : Nat) (l : List (Nat × Raise)) (t0 : Nat) (r : Raise) : FRec :=
  let th := s.thr c t0
  { unit := some (th.unit t0), pc := r.at_.getD th.pc, code := r.code, service := r.service, detail := r.detail
    tid := l.foldl (fun m p => min m p.1) t0, num := r.num, gid := match th.grp with | some g => BitVec.ofNat 8 g.1 | none => 0xFF
    flags := if r.bp then 2 else 0, addr := r.addr }
/-- Taking a fault: threads that raised the same code at the same place park as one sub-bundle, with one record. Registers,
counters and memory are as they were. -/
def parkSub (s : State) (c : Nat) (l : List (Nat × Raise)) : State :=
  match l with
  | [] => s
  | (t0, r) :: _ =>
    let th := s.thr c t0
    let mems := l.map fun p => (((s.thr c p.1).grp.map (·.2)).getD 0, p.1)
    let id := (s.ctx c).nextPark
    let sub : Parked := { id := id, unit := th.unit t0, mems := mems, pc := th.pc, code := r.code, service := r.service,
                          dst := r.dst, bp := r.bp, next := resumePc r th.pc }
    let rec_ : FRec := { faultRec s c l t0 r with park := some id, mask := mems.foldl (fun m p => m ||| (1#32 <<< p.1)) 0 }
    let s := s.modCtx c fun x => { x with nextPark := id + 1, parked := x.parked ++ [sub] }
    let s := l.foldl (fun s p => s.modThr c p.1 fun th => { th with park := some id, blk := .run }) s
    report s c th.level rec_

/-- What a core decides on a consumed uncorrectable error of a unit (R272); true: the threads park. `r` is the record of a rollback. -/
def errorDecision (s : State) (c : Nat) (u : UnitId) (r : FRec) : State × Bool :=
  let x := s.ctx c
  let mem := s.members c u
  let parkd := mem.any fun t => (s.thr c t).park.isSome
  match x.shadow u with
  | some sh =>
    if parkd || sh.rolled then (s, true)
    else
      let lost := sh.retaken || (sh.sort.any (·.holder.isSome) && x.sort.holder.isSome && x.sort.holder != some (shadowAgent s c u))
      if s.todo.contains (.rollback c u) then (s, false)
      else if sh.irrevocable || sh.unshadowed || lost then refuse s u
      else (modShadow { s with todo := s.todo ++ [.rollback c u] } c u fun v => { v with cause := some r }, false)
  | none => if parkd then (s, true) else refuse s u
where
  refuse (s : State) (u : UnitId) : State × Bool :=
    if s.todo.contains (.worldAbort (s.worldOf c) 0x15) then (s, false) else
    let mem := s.members c u
    let r : FRec := { unit := some u, code := 0x15, pc := (mem.head?.map fun t => (s.thr c t).pc).getD 0,
                      tid := mem.head?.getD 0, gid := match u with | .grp g => BitVec.ofNat 8 g | .thr _ => 0xFF }
    let s := if s.worldOf c < 4 then s else report s c .app r
    (sendSteward { s with todo := s.todo ++ [.worldAbort (s.worldOf c) 0x15] } c r, false)

def faultKey (s : State) (c : Nat) (p : Nat × Raise) : UnitId × DWord × BitVec 6 := (s.unitOf c p.1, (s.thr c p.1).pc, p.2.code)
/-- Every thread that raised something in one step parks, or its unit rolls back; what a member of it raises behind the error goes with
the interval (R272). A handler's own fault is reported as one (R255). -/
def takeFaults (s : State) (c : Nat) (l : List (Nat × Raise)) : State :=
  (l.map (faultKey s c)).eraseDups.foldl (fun s' k =>
    let m := l.filter fun p => faultKey s c p == k
    match m with
    | (t, r) :: _ =>
      if s'.todo.contains (.rollback c (s'.unitOf c t)) then s'
      else if r.used && (s'.thr c t).level != .handler then
        let d := errorDecision s' c (s'.unitOf c t) { faultRec s' c m t r with flags := 1 }
        if d.2 then parkSub d.1 c m else d.1
      else parkSub s' c m
    | [] => s') s

/-- A failure held until the thread's next reporting point, or a record of its own where the thread is gone (R88, R201). -/
def retiredRec (t : Nat) (f : Fail) : FRec :=
  { pc := f.pc, code := f.code, retired := true, tid := t, num := f.elem, addr := f.addr }
def failOp (s : State) (c : Nat) (o : Op) (code : BitVec 6) (elem : Word := 0) (addr : DWord := 0) : State :=
  let f : Fail := { code := code, pc := o.pc, elem := elem, addr := addr }
  if o.retired.isSome then report s c o.level (retiredRec o.tid f)
  else s.modThr c o.tid fun th => { th with fails := th.fails ++ [f] }
/-- Every thread counted for some operations holds a failure, once however often it is counted (R227, R233, R254). -/
def failOps (s : State) (c : Nat) (ids : List Nat) (code : BitVec 6) : State :=
  ((ids.filterMap (s.op? c)).foldl (fun (p : State × List (Nat × Option Nat)) o =>
    if p.2.contains (o.tid, o.retired) then p else (failOp p.1 c o code, (o.tid, o.retired) :: p.2)) (s, [])).1
def Fail.raise (f : Fail) : Raise :=
  { code := f.code, num := f.elem, addr := f.addr, at_ := some f.pc, used := f.code == 0x14 }
/-- The first failure a thread holds is raised (R201). -/
def popFail (s : State) (c t : Nat) : Option (State × Raise) :=
  match (s.thr c t).fails with
  | f :: rest => some (s.modThr c t fun th => { th with fails := rest }, f.raise)
  | [] => none

/-! ### Resuming (R93, R262) -/

/-- Members of a sub-bundle leave it at a PC, or where R260 says. -/
def resumeSub (s : State) (c : Nat) (p : Parked) (mask : Word) (pc : Option DWord) : State :=
  let go := p.mems.filter fun m => mask.getLsbD m.1
  let stay := p.mems.filter fun m => !mask.getLsbD m.1
  let s := go.foldl (fun s m => s.modThr c m.2 fun th =>
    { th with park := none, blk := .run, pc := pc.getD p.next, prioDue := true,
              bpSkip := p.bp && (pc.isNone || pc == some p.pc) }) s
  s.modCtx c fun x => { x with parked := x.parked.filterMap fun q =>
    if q.id = p.id then (if stay.isEmpty then none else some { q with mems := stay }) else some q }

/-! ### Completing an instruction -/

def advance (s : State) (c t : Nat) (pc : DWord) (jumped : Bool := false) : State :=
  (s.modThr c t fun th =>
    { th with pc := pc, blk := .run, bpSkip := false, entered := true,
              prioDue := th.prioDue || lineOf pc != lineOf th.pc }).modCtx c fun x =>
    { x with moved := x.moved ++ [(t, jumped)] }
def advanceNext (s : State) (c t : Nat) : State := advance s c t (nextPc (s.thr c t).pc)
def setBlk (s : State) (c t : Nat) (b : Blk) : State :=
  s.modThr c t fun th =>
    { th with blk := b, since := if th.blk == .run then (s.core c).ccnt.toNat else th.since, entered := true }

/-- How an instruction ends for a thread. -/
inductive Res
  | done (s : State)
  | jump (s : State) (pc : DWord)
  | wait (s : State) (b : Blk)
  | gone (s : State)
  | fail (s : State) (r : Raise)
  deriving DecidableEq, Repr

def Res.ok? : Res → Bool
  | .fail _ _ => false
  | _ => true
def raise (s : State) (code : BitVec 6) (addr : DWord := 0) : Res := .fail s { code := code, addr := addr }

/-- The checks of R33 before the instruction's own: privilege, then registers. -/
def preCheck (s : State) (c t : Nat) (lv : Level) (u : Uses) : Option Raise :=
  let th := s.thr c t
  if th.level.num < lv.num then some { code := 0x02 }
  else if !u.avail th then some { code := 0x0F }
  else none

/-- Whether an instruction reads a register with an uncorrectable error (R321). -/
def srcMarked (s : State) (c t : Nat) (u : Uses) : Bool :=
  (s.core c).marks.any fun m => match m with
    | .reg _ t' n => t' == t && u.srcs.any fun p => match p.1 with | .x r => r.toNat ≤ n && n < r.toNat + p.2 | _ => false
    | .yreg _ g n => (s.thr c t).grp.any (·.1 == g) &&
        u.srcs.any fun p => match p.1 with | .y r => r.toNat ≤ n && n < r.toNat + p.2 | _ => false
    | _ => false

/-! ### The lane pipe (R167, R168) -/

def schedOf (s : State) (c : Nat) : UnitId → Sched
  | .grp g => ((s.group? c g).map (·.sched)).getD {}
  | .thr t => (s.thr c t).sched
def modSched (s : State) (c : Nat) (u : UnitId) (f : Sched → Sched) : State :=
  match u with
  | .grp g => s.modGroup c g fun gr => { gr with sched := f gr.sched }
  | .thr t => s.modThr c t fun th => { th with sched := f th.sched }
def nowOf (s : State) (c : Nat) : Nat := (s.core c).ccnt.toNat
/-- Cycles after the bundle formed at which a thread enters the pipe: after the thread before it, and when the results that its
sources await are there. -/
def startAt (s : State) (c t : Nat) (h : Hdr) (u : Uses) (after : Nat) : Nat :=
  (u.reads h).foldl (fun n k => max n ((s.thr c t).late.get 0 k - nowOf s c)) after
/-- When the results of an issue are there. -/
def noteResults (s : State) (c t : Nat) (u : Uses) (start : Nat) : State :=
  s.modThr c t fun th => { th with
    late := u.writes.foldl (fun m k => m.set 0 k (if u.lat ≤ 1 then 0 else nowOf s c + start + u.lat)) th.late }
/-- A bundle has occupied its pipe for some cycles. -/
def occupy (s : State) (b : Bundle) (n : Nat) : State :=
  let free := nowOf s b.core + max 1 n
  let s := modSched s b.core b.unit fun q => { q with busy := free }
  if b.lead then s else s.modCore b.core fun k => { k with lanes := k.lanes.set 0 b.lane free }

/-! ### Instructions for the threads of a bundle (R29, R33, R167) -/

/-- A bundle in the middle of an instruction: the state, whether no member has acted yet, what was raised, the cycle at which
the pipe takes the next thread, and the cycle at which it is free. -/
structure Run where
  s   : State
  low : Bool := true
  raised : List (Nat × Raise) := []
  time : Nat := 0
  free : Nat := 0
  stall : Option Nat := none        -- a thread whose accesses go first waits (R167, R178)
  deriving DecidableEq, Repr
def Run.pass (r : Run) (u : Uses) (h : Hdr) (start : Nat) : Run :=
  { r with time := if u.uniform h then r.time else start + u.ival, free := max r.free (start + u.ival) }

def latchCcnt (u : Uses) (s : State) (c t skew : Nat) : State :=
  if u.readsCcnt then s.modThr c t fun th => { th with ccnth := ((s.core c).ccnt + BitVec.ofNat 64 skew).extractLsb' 32 32 } else s
/-- A wait whose instruction executes again has read nothing yet. -/
def Blk.again : Blk → Bool
  | .retry .never => false
  | .retry _ => true
  | _ => false
/-- Waits behind which the later threads of a bundle stay: they present their accesses, and their entries for a queue, in ascending
`gslot` order (R167, R178). -/
def Blk.inOrder : Blk → Bool
  | .retry (.released _) | .retry .settled | .retry (.line _ _) | .retry .dqSpace | .retry .copyQueue => true
  | _ => false
/-- An access that has issued and is not accepted (R402). -/
def Blk.unaccepted : Blk → Bool
  | .retry (.released _) | .retry .settled | .retry (.line _ _) | .retry .arrays | .retry .never => true
  | .retry (.behind _ a) => a
  | _ => false
def endFor (u : Uses) (c t : Nat) (pc : DWord) (start : Nat) (r : Run) : Res → Run
  | .done s => { r with s := advance (noteResults (latchCcnt u s c t start) c t u start) c t (nextPc pc), low := false }
  | .jump s pc' => { r with s := advance (latchCcnt u s c t start) c t pc' true, low := false }
  | .wait s b => { r with s := setBlk (if b.again then s else latchCcnt u s c t start) c t b, low := false
                          stall := if b.inOrder then some t else r.stall }
  | .gone s => { r with s := s, low := false }
  | .fail s x => { r with s := s, raised := r.raised ++ [(t, x)] }
def memberStep (b : Bundle) (lv : Level) (u : Uses) (h : Hdr) (act : Env → DWord → State → Res) (r : Run) (t : Nat) : Run :=
  match r.s.thr? b.core t with
  | none => r
  | some th =>
    if th.park.isSome then r
    else match preCheck r.s b.core t lv u with
      | some x => { r with raised := r.raised ++ [(t, x)] }
      | none =>
        if !guardOk r.s b.core t h then { r with s := advance r.s b.core t (nextPc th.pc) }
        else if srcMarked r.s b.core t u then { r with raised := r.raised ++ [(t, { code := 0x14, used := true })] }
        else if let some w := r.stall then { r with s := setBlk r.s b.core t (.retry (.behind w (r.s.thr b.core w).blk.unaccepted)) }
        else
          let start := startAt r.s b.core t h u r.time
          endFor u b.core t th.pc start (r.pass u h start)
            (act { c := b.core, t := t, lane := b.lane, low := r.low, skew := start } th.pc r.s)
/-- An instruction that acts for each thread whose guard holds, in ascending `gslot` (R29, R33, R167). -/
def perThread (lv : Level) (u : Uses) (h : Hdr) (act : Env → DWord → State → Res) (s : State) : State :=
  match s.focus with
  | none => s
  | some b =>
    let r := b.tids.foldl (memberStep b lv u h act) { s := s }
    takeFaults (occupy r.s b r.free) b.core r.raised

/-- Members of a bundle that the checks of R33 stop. Those of an engine command read registers from the lowest active member alone, and a
failed check parks every active member (R216, R243); R33 and R92 would make it each member's own (DESIGN CHOICE, log 77). -/
def bundleFaults (s : State) (c : Nat) (lv : Level) (u : Uses) (h : Hdr) (live : List Nat) : List (Nat × Raise) :=
  let own := fun (t : Nat) (u : Uses) => (preCheck s c t lv u).or
    (if guardOk s c t h && srcMarked s c t u then some { code := 0x14, used := true } else none)
  let act := live.filter (guardOk s c · h)
  let all := act.findSome? fun t => own t (if act.head? == some t then u else { u with srcs := u.each })
  live.filterMap fun t => (if u.engine && guardOk s c t h then all else own t u).map (t, ·)
/-- An instruction that acts once per bundle for its active members (R170, R216): a failed check of its own parks them all. -/
def perBundle (lv : Level) (u : Uses) (h : Hdr) (act : Env → DWord → List Nat → State → Res) (s : State) : State :=
  match s.focus with
  | none => s
  | some b =>
    let live := b.tids.filter fun t => (s.thr? b.core t).isSome && (s.thr b.core t).park.isNone
    let bad := bundleFaults s b.core lv u h live
    let good := live.filter fun t => !bad.any (·.1 == t)
    let act_ := good.filter (guardOk s b.core · h)
    let s := good.foldl (fun s t => if guardOk s b.core t h then s else advanceNext s b.core t) s
    match act_ with
    | [] => takeFaults s b.core bad
    | t0 :: _ =>
      let starts := act_.foldl (fun (l : List (Nat × Nat)) t =>
        l ++ [(t, startAt s b.core t h u (match l.getLast? with | some p => if u.uniform h then 0 else p.2 + u.ival | none => 0))]) []
      let free := starts.foldl (fun n p => max n (p.2 + u.ival)) 0
      let e : Env := { c := b.core, t := t0, lane := b.lane, skew := (starts.map (·.2)).headD 0 }
      let done := fun (s : State) (l : List (Nat × Raise)) => takeFaults (occupy s b free) b.core (bad ++ l)
      match act e (s.thr b.core t0).pc act_ s with
      | .done s' => done (starts.foldl (fun s p =>
          advanceNext (noteResults (latchCcnt u s b.core p.1 p.2) b.core p.1 u p.2) b.core p.1) s') []
      | .jump s' pc => done (starts.foldl (fun s p => advance (latchCcnt u s b.core p.1 p.2) b.core p.1 pc true) s') []
      | .wait s' k => done (starts.foldl (fun s p =>
          setBlk (if k.again then s else latchCcnt u s b.core p.1 p.2) b.core p.1 k) s') []
      | .gone s' => done s' []
      | .fail s' x => done s' (act_.map (·, x))
/-- A write to every active member, or once to a y destination (R25). -/
def eachWrite (e : Env) (ts : List Nat) (f : Env → State → State) (s : State) : State :=
  (ts.foldl (fun (p : State × Bool) t => (f { e with t := t, low := p.2 } p.1, false)) (s, true)).1

/-! ### The engines' holds (R218, R227, R243) -/

def readersAdd (s : State) (c n : Nat) (d : Int) : State :=
  s.modCtx c fun x => { x with tiles := match x.tiles.look n with
    | some t => x.tiles.put n { t with mread := (t.mread + d).toNat }
    | none => x.tiles }
/-- A convergence register is cancelled: its counters fall and their threads hold 0x0D (R227). -/
def cancelCv (s : State) (c n : Nat) (report_ : Bool := true) : State :=
  match (s.ctx c).cvs.look n with
  | none => s
  | some cv =>
    let s := cv.ops.foldl (finishOp · c) (if report_ then failOps s c cv.ops 0x0D else s)
    let s := match cv.bound with | some b => readersAdd s c b.tile (-1) | none => s
    s.modCtx c fun x => { x with cvs := x.cvs.del n }
/-- A thread that is a declared signer and has not signed cancels the register when it goes (R227). -/
def cancelSigner (s : State) (c t : Nat) : State :=
  let th := s.thr c t
  (s.ctx c).cvs.foldl (fun s (n, cv) =>
    let declared := match cv.owner, th.grp with
      | .unit (.grp g), some (g', sl) => g = g' && cv.mask.getLsbD sl && !cv.signed.getLsbD sl
      | .unit (.thr t'), none => t = t' && cv.mask.getLsbD 0 && !cv.signed.getLsbD 0
      | _, _ => false
    let led := (s.ctx c).lead = some t && cv.lead && !cv.leadSigned
    if declared || led then cancelCv s c n else s) s
def accSet (pair : Bool) (a : Nat) : List Nat := if pair then [a, a + 1] else [a]
/-- The accumulators an entry writes or reads. -/
def MmKind.accs : MmKind → List Nat
  | .mma b => accSet b.mode.shape.pair b.acc
  | .clr a p | .st a _ p => accSet p a
  | .rd a _ i _ _ => accSet (i == .w48 || i == .ring) a
/-- The reservations of the agents that hold them, and of those released, each until the last queued entry on its accumulators has
completed: no other reservation has entries on them meanwhile (R218). -/
def settleRsv (s : State) (c : Nat) : State :=
  s.modCtx c fun x => { x with rsv := x.rsv.filter fun r => !r.releasing || x.mq.any fun q => q.kind.accs.any r.mask.getLsbD }
/-- The release of an agent's reservation: its registers are cancelled, and the accumulators become free once its queued
entries have completed (R218). -/
def releaseMm (s : State) (c : Nat) (a : Agent) : State :=
  let s := (s.ctx c).cvs.foldl (fun s (n, cv) => if cv.owner = a then cancelCv s c n else s) s
  settleRsv (s.modCtx c fun x => { x with rsv := x.rsv.map fun r => if r.agent = a then { r with releasing := true } else r }) c
/-- The end of a hold of the sort array, once the holder's commands have completed (R250). -/
def releaseSort (s : State) (c : Nat) (a : Agent) : State :=
  s.modCtx c fun x => if x.sort.holder = some a then
      { x with sort := if x.sort.queue.isEmpty then { x.sort with holder := none } else { x.sort with releasing := true } }
    else x

/-! ### Agents that end (R87, R161, R317) -/

def PassKind.rename (f : Word → Word) : PassKind → PassKind
  | .lend r => .lend (f r)
  | .share r => .share (f r)
  | .toShared m r => .toShared m (r.map f)
  | k => k
/-- An entry under another name of an agent. -/
def Token.rename (f : Word → Word) (t : Token) : Token :=
  { t with owner := f t.owner, lender := f t.lender, holders := t.holders.map f
           pending := t.pending.map fun p => { p with by_ := f p.by_, sgn := f p.sgn, kind := p.kind.rename f } }
/-- An agent takes another name wherever it stands: in the engines and the operations of its core, its signatures, and the token
entries of its world. -/
def renameAgent (s : State) (c w : Nat) (a b : Agent) (ida idb : Word) : State :=
  let f := fun (v : Word) => if v = ida then idb else v
  let g := fun (v : Agent) => if v = a then b else v
  let s := s.modCore c fun k => { k with
    sigs := match k.sigs.look ida.toNat with | some v => (k.sigs.del ida.toNat).put idb.toNat v | none => k.sigs
    ctx := { k.ctx with
      ops := k.ctx.ops.map fun o => { o with agent := f o.agent, sgn := f o.sgn }
      rsv := k.ctx.rsv.map fun r => { r with agent := g r.agent }
      mq := k.ctx.mq.map fun q => { q with agent := g q.agent }
      sort := { k.ctx.sort with holder := k.ctx.sort.holder.map g } } }
  { s with dies := s.dies.map fun e => (e.1, { e.2 with tokens := e.2.tokens.map fun t => if t.world = w then t.rename f else t }) }
/-- An agent ends: its holds are released, its number is free, and under a name of its own its token rights pass on once its
stores and copies are held or have failed (R317). -/
def endAgent (s : State) (c : Nat) (a : Agent) (id : Word) (world : Nat) (taint : Bool) : State :=
  let b : Agent := .gone s.dead
  let s := renameAgent (releaseSort (releaseMm s c a) c a) c world a b id (agentWord c b)
  { s with ending := s.ending ++ [(c, agentWord c b, world, taint)], dead := s.dead + 1 }

/-! ### Leaving a group and retiring (R87, R161, R263) -/

/-- Copies in flight of a live thread belong to its unit, whose shadow keeps what they change (R203). -/
def copiesOf (s : State) (c t : Nat) (u : UnitId) : State :=
  s.modCtx c fun x => { x with copies := x.copies.map fun q => if q.tid = t && s.copyLive c q then { q with unit := u } else q }
/-- The y registers an operation still writes. -/
def OpBody.toY (b : OpBody) : Bool := b.hazard.any (· ≥ 128)
/-- A load that several threads count (`ldu`, R143) goes on under one of the others when the thread whose operation stands for it
leaves: `heir` picks that thread among them. -/
def passLoad (s : State) (c t : Nat) (heir : Nat → Bool) : State :=
  ((s.ctx c).ops.filter fun o => o.tid == t && o.retired.isNone && !o.done).foldl (fun s o =>
    match (s.ctx c).ops.find? fun q => q.body == .along o.id && q.retired.isNone && heir q.tid with
    | none => s
    | some q =>
      let pass := fun (p : Op) =>
        if p.id = q.id then { o with id := q.id, tid := q.tid, cls := q.cls }
        else if p.id = o.id ∨ p.body = .along o.id then { p with body := .along q.id, homes := [] } else p
      s.modCtx c fun x => { x with ops := x.ops.map pass }) s
/-- A y register whose pending load no member's `wait` can count any more holds an unspecified value (R142). -/
def Group.forget (s : State) (t : Nat) (g : Group) : Group :=
  let left := g.hazard.map fun p => (p.1, p.2.filter (· != t))
  { g with hazard := left.filter fun p => !p.2.isEmpty
           y := (left.filter (·.2.isEmpty)).foldl (fun m p => m.set 0 p.1 (s.free (192 + p.1))) g.y }
/-- The thread leaves its group; the last member dissolves it. Loads it has outstanding to y registers write nothing more: no
`wait` can count them for the group (R142); a load that another member counts goes on as that member's. -/
def leaveGroup (s : State) (c t : Nat) (killed : Bool := false) : State :=
  match (s.thr c t).grp with
  | none => s
  | some (g, sl) =>
    let s := cancelSigner s c t
    let s := passLoad s c t fun v => v != t && (s.thr c v).grp.any (·.1 == g)
    let s := s.modGroup c g fun gr => { gr.forget s t with mem := gr.mem.del sl }
    let s := s.modThr c t fun th => { th with grp := none, sat := false, age := 0 }
    let s := copiesOf (s.modCtx c fun x => { x with ops := x.ops.map fun o => if o.tid = t ∧ o.body.toY then { o with gone := true } else o }) c t (.thr t)
    match s.group? c g with
    | some gr => if gr.mem.isEmpty then
        let s := endAgent s c (.unit (.grp g)) (agentWord c (.unit (.grp g))) (s.worldOf c) killed
        (dropShadow s c (.grp g)).modCtx c fun x => { x with groups := x.groups.del g }
      else s
    | none => s
/-- The thread leaves the parked sub-bundle it stands in. -/
def unpark (s : State) (c t : Nat) : State :=
  s.modCtx c fun x => { x with parked := x.parked.filterMap fun p =>
    let m := p.mems.filter (·.2 != t)
    if m.isEmpty then none else some { p with mems := m } }

/-- What a peer on another device is told of a session, Heartwood to Heartwood (R371, R372, log 73). -/
def tellPeer (s : State) (g : Gate) (aborted : Bool) : State :=
  match g.peer with
  | some (d, r) => if d = s.fab.devno then s else { s with outbox := s.outbox ++ [.session d r aborted] }
  | none => s
/-- A gate session aborts (R372): both records, the waiting threads, and the worlds. `own` is the code the side of `r` raises. -/
def abortSession (s : State) (r : Nat) (own : BitVec 6) (other : BitVec 6 := 0x12) : State :=
  match s.gate.look r with
  | none => s
  | some g =>
    if g.st == .aborted || g.st == .ended || g.st == .free then s
    else
      let peers := s.gate.filterMap fun (n, q) =>
        if n != r && q.peer == some (s.fab.devno, r) && q.st == .open_ then some n else none
      let ends := (r, own) :: peers.map (·, other)
      ends.foldl (fun s (n, code) => match s.gate.look n with
        | none => s
        | some q =>
          let s := { s with gate := s.gate.put n { q with st := .aborted, held := none, pending := none, mine := none, theirs := none, half := [], since := none, waiter := none, waitTo := [] } }
          let s := tellPeer { s with contribs := s.contribs.filter (·.1 != n), todo := s.todo ++ [.worldAbort q.world code] } q true
          let s := match q.waiter with
            | some c => takeFaults s c (q.waitTo.map fun t => (t, { code := code }))
            | none => s
          s.cores.keys.foldl (fun s c => takeFaults s c ((s.ctx c).threads.filterMap fun (t, th) =>
            if th.blk == .retry (.gate n) then some (t, { code := code }) else none)) s) s

/-- An accepted atomic that is still to be performed: it is performed exactly once, whatever becomes of its thread (R145). -/
def Op.owed (o : Op) : Bool := !o.done && (match o.body with | .rmw _ _ _ _ _ _ _ none => true | _ => false)
/-- Retirement: the thread's outstanding operations go to a tracker entry, it leaves its group, and its slot is free. With
`killed` its loads and the destination writes of its atomics are dropped (R87, R263). -/
def retire (s : State) (c t : Nat) (killed : Bool := false) : State :=
  match s.thr? c t with
  | none => s
  | some th =>
    let s := match th.blk with | .xch r => abortSession s r 0x12 | _ => s
    let wasLead := (s.ctx c).lead = some t
    let id := s.sigId c t
    let w := s.actWorld c t
    let s := cancelSigner s c t
    let s := if th.grp.isSome then leaveGroup s c t killed
      else if wasLead then (endAgent s c .lead id w killed).modCtx c fun x => { x with lead := none }
      else dropShadow (endAgent s c (.unit (.thr t)) id w killed) c (.thr t)
    let s := passLoad (unpark s c t) c t (· != t)
    let s := th.fails.foldl (fun s f => report s c th.level (retiredRec t f)) s
    let slot := ((List.range 17).find? fun n => !(trackerUsed (s.ctx c)).contains n).getD 16
    s.modCtx c fun x => { x with
      threads := x.threads.del t
      loose := x.loose.map fun q => { q with seen := q.seen.filter (· != t), fenced := q.fenced.filter (· != t), wb := q.wb.filter (· != t) }
      handler := if x.handler = some t then none else x.handler
      ops := pruneOps [] ((x.ops.filter fun o => !(o.tid == t && o.retired.isNone && o.cls == .loads && !o.owed)).map fun o =>
        if o.tid = t ∧ o.retired.isNone then { o with retired := some slot, gone := o.gone || o.cls == .loads } else o) }

/-! ### The replay auditor's samples (R324) -/

def audCtl (s : State) (d p : Nat) : Word := (s.die d).audctl.get 25 p
def audSkip (s : State) (d p : Nat) : State :=
  s.modDie d fun x =>
    let v := x.audst.get 0 p
    { x with audst := x.audst.set 0 p (if v.extractLsb' 16 8 = 0xFF then v else v + 0x10000) }
/-- One step of a die's 32-bit LFSR; its taps are the model's (log 13). -/
def lfsr32 (v : Word) : Word := (v >>> 1) ||| (((v ^^^ (v >>> 10) ^^^ (v >>> 30) ^^^ (v >>> 31)) &&& 1) <<< 31)
/-- The LFSR of the core's die advances at a completion that consumed lost data, and nothing is sampled (R324). -/
def audAdvance (s : State) (c : Nat) (audited : Bool) : State :=
  if audited then s.modDie (dieOf c) fun x => { x with audLfsr := lfsr32 x.audLfsr } else s
/-- A completion at the auditor: the LFSR advances, and an entry that it picks is logged in a free slot or skipped. -/
def auditSample (s : State) (c : Nat) (inputs : List Nat) (words : List Word) : State :=
  let d := dieOf c
  let s := s.modDie d fun x => { x with audLfsr := lfsr32 x.audLfsr }
  match s.partOf c with
  | none => s
  | some p =>
    let k := audCtl s d p
    if !k.getLsbD 0 ∨ (s.die d).audLfsr.toNat % 2 ^ (k.toNat / 2 % 32) ≠ 0 then s
    else match (s.die d).auds.free 8 with
      | none => audSkip s d p
      | some n =>
        let v : AudSlot := { core := c, world := s.worldOf c, inputs := inputs, sig := Config.crc64 words, left := (s.die d).age + 2 ^ 20 }
        s.modDie d fun x => { x with auds := x.auds.put n v }

/-! ### Latches (R340, R341) -/

/-- What a change of world latch leaves of a core's private state (R14, R136, R177, R178, R182, R183, R189, R195, R198, R236,
R254, R259, R267, R283, R285, R340). Frames of shadows and of evicted units return to the free list. -/
def clearCtx (c : Nat) (k : Core) : Core :=
  { k with ctx := { nextOp := k.ctx.nextOp, nextPark := k.ctx.nextPark, nextCopy := k.ctx.nextCopy },
           frames := k.frames ++ k.ctx.shadows.flatMap (·.2.frames) ++ k.ctx.evicted.flatMap (·.2),
           fbuf := [], l1 := [], ccache := [], rcache := [], trace := {}, sigs := [], waiting := [], marks := [],
           steal := { lfsr := BitVec.ofNat 16 (c + 1) } }

end Sys2Proof.Machine
end

