-- ==== Sys2Proof/Machine/Memory.lean ====
section
/-!
DEFINITION. Global memory: slices and homes (R293 to R299), translation (R300 to R305), the Bark firewall (R343 to R345),
caches of a core (R186, R287, R412), signatures and side-bands (R289 to R292), and the checks of an access (R135, R139, R140,
R187).
-/
namespace Sys2Proof.Machine

/-! ### Homes (R293, R296) -/

def quarters (q : BitVec 4) : List Nat := (List.range 4).filter q.getLsbD
/-- The partition a world belongs to; a steward world is its own partition's. -/
def State.worldPart (s : State) (w : Nat) : Option Part := (s.worlds.look w).bind fun x => s.parts.look x.part
def lineHash (va : Nat) : Nat := (va / 2 ^ 7 % 2 ^ 16) ^^^ (va / 2 ^ 23 % 2 ^ 16) ^^^ (va / 2 ^ 39 % 2 ^ 9)
/-- The home of a line: quarter and slice within the quarter, slices numbered by die and then slice. -/
def homeSlice (pqm : BitVec 4) (va : Nat) : Nat × Nat :=
  let qs := quarters pqm
  let k := lineHash va * (24 * qs.length) / 65536
  (qs.getD (k / 24) 0, k % 24)
def State.homeOf (s : State) (w va : Nat) : Nat × Nat := homeSlice (((s.worldPart w).map (·.pqm)).getD 1) va
def State.homeDie (s : State) (w va : Nat) : Nat := (s.homeOf w va).1 / 2
def lineVa (va : Nat) : Nat := va / 128 * 128
/-- The parts of a range by line: line, offset in it, offset in the range, bytes. -/
def segs (va n : Nat) : List (Nat × Nat × Nat × Nat) :=
  if n = 0 then [] else
  (List.range ((va + n - 1) / 128 - va / 128 + 1)).map fun i =>
    let l := (va / 128 + i) * 128
    let lo := max va l
    let hi := min (va + n) (l + 128)
    (l, lo - l, lo - va, hi - lo)

/-! ### The firewall and the ports (R302, R343 to R345) -/

/-- Whether the granules, and the windows, of world `v` are open to world `who`: its own, and to a steward world those of its
partition's worlds that are not protected. -/
def ownsFor (s : State) (who v : Nat) : Bool :=
  who == v || (who < 4 && (match s.worlds.look v with | some y => y.part == who && !y.protectd | none => false))
/-- Whether a granule admits a world (R343); `walk` for a page walk, which may read the steward world's as well. -/
def barkOk (s : State) (w : Nat) (pa : Nat) (walk : Bool := false) : Bool :=
  match s.bark.look (pa / 65536), s.worlds.look w with
  | some g, some x => !g.scrub && g.part == some x.part && g.world.any fun v => ownsFor s w v || (walk && v == x.part)
  | _, _ => false
/-- The key check of traffic through a window or link (R345): port bit of the slot. -/
def keyOk (s : State) (slot world port : Nat) : Bool :=
  slot != 0 && (match s.keys.look slot with | some k => k.world == world && k.ports.getLsbD port | none => false)
/-- Whether a window admits a world and its key seals the traffic (R344, R345). -/
def windowOk (s : State) (who : Nat) (c : CxlWin) (walk : Bool := false) : Bool :=
  (ownsFor s who c.world || (walk && ((s.worlds.look who).any fun x => x.part == c.world))) &&
    keyOk s c.key c.world (match c.port with | 0 => 1 | 1 => 2 | _ => 0)
/-- Where a byte of a window's port stands among the memory cells. -/
def CxlWin.cell (c : CxlWin) (off : Nat) : Nat := (c.port + 1) * 2 ^ 80 + c.base + off
/-- The cell of a frame of `n` bytes, after R302, R343 and R344, or the code; `walk` for a page table's. -/
def frameAt (s : State) (who pa n : Nat) (walk : Bool := false) : Except (BitVec 6) Nat :=
  let win := pa / 2 ^ 39
  if win = 0 then (if barkOk s who pa walk then .ok pa else .error 0x08)
  else if win ≤ 16 then
    match s.cxl.look (win - 1) with
    | none => .error 0x08
    | some c =>
      if pa % 2 ^ 39 + n > c.size ∨ !windowOk s who c walk then .error 0x08 else .ok (c.cell (pa % 2 ^ 39))
  else .error 0x04
/-- Whether R302 decodes a leaf's frame: an HBM frame on the stack that its address selects, or a window. -/
def onStack (stack pa : Nat) : Bool := if pa / 2 ^ 39 = 0 then pa / 2 ^ 36 % 8 == stack else pa / 2 ^ 39 ≤ 16

/-! ### Compression and capacity (R295 to R297) -/

def allWithin (w b : Nat) (lo hi : Int) (l : Line) : Bool :=
  (List.range (128 / w)).all fun i =>
    let d := (BitVec.ofNat b (l.toNat / 2 ^ (8 * w * i)) - BitVec.ofNat b l.toNat).toInt
    lo ≤ d && d ≤ hi
/-- The format code and stored size of a line. -/
def format (l : Line) : Nat × Nat :=
  if l = 0 then (0, 32)
  else if allWithin 8 64 0 0 l then (1, 32)
  else if allWithin 8 64 (-128) 127 l then (2, 32)
  else if allWithin 4 32 (-128) 127 l then (3, 64)
  else if allWithin 8 64 (-32768) 32767 l then (4, 64)
  else (7, 128)
/-- A set of a slice: quarter, slice within it, set number (R296). -/
def State.setOf (s : State) (w va : Nat) : Nat × Nat × Nat := ((s.homeOf w va).1, (s.homeOf w va).2, Config.l2Set va % 2048)
def State.farSetOf (s : State) (f : FarLine) : Nat × Nat × Nat :=
  (f.quarter, (s.homeOf f.world f.va).2, Config.l2Set f.va % 2048)
/-- Bytes of memory within a line. A core's own layout of its frames reads as an unspecified value (R9, R274). -/
def memBytes (s : State) (pa n : Nat) : List Byte :=
  if s.veil.contains (pa / 128 * 128) then (List.range n).map fun i => (s.free (2 ^ 64 + pa + i)).setWidth 8 else peekN s.mem pa n
/-- The memory bytes of a line, and its poisoned words. -/
def memLine (s : State) (pa : Nat) : Line := lineOfBytes (memBytes s pa 128)
def memPoison (s : State) (pa : Nat) : BitVec 16 :=
  (List.range 16).foldl (fun m i => if s.poison.contains (pa / 8 + i) then m ||| (1#16 <<< i) else m) 0
/-- A write-back reaches memory where Bark still admits the world its fill was made for, or the window's key still seals it
(R343, R345, R348). -/
def backOk (s : State) (l : L2Line) : Bool :=
  if l.pa < 2 ^ 39 then barkOk s l.who l.pa
  else s.cxl.any fun e => e.2.cell 0 ≤ l.pa && l.pa + 128 ≤ e.2.cell e.2.size && windowOk s l.who e.2
def writeBack (s : State) (l : L2Line) : State :=
  if l.dirty && backOk s l then
    { (s.unveil l.pa 128) with
             mem := pokeL s.mem l.pa (lineBytes l.data)
             poison := (s.poison.filter fun a => a < l.pa / 8 || l.pa / 8 + 16 ≤ a) ++
               (List.range 16).filterMap fun i => if l.poison.getLsbD i then some (l.pa / 8 + i) else none }
  else s
/-- Lines of a world in the slices of its partition, far lines included (R297). -/
def State.lineCount (s : State) (w : Nat) : Nat :=
  [0, 1].foldl (fun n d => n + (s.die d).l2.countP (·.world == w) + (s.die d).far.countP (·.world == w)) 0
def quotaOf (s : State) (w : Nat) : Nat := (s.die 0).quota.get 0 w
/-- A line of a set as a candidate of R297; a far line names its quarter. -/
structure Victim where
  world : Nat
  va    : Nat
  prio  : Nat
  used  : Nat
  far   : Option Nat := none
  deriving DecidableEq, Repr
/-- The lines and far lines that a set holds. -/
def candidatesOf (s : State) (set : Nat × Nat × Nat) : List Victim :=
  let x := s.die (set.1 / 2)
  ((x.l2.filter fun l => s.setOf l.world l.va == set).map fun l => { world := l.world, va := l.va, prio := l.prio, used := l.used }) ++
  ((x.far.filter fun f => s.farSetOf f == set).map fun f =>
    { world := f.world, va := f.va, prio := f.prio, used := f.used, far := some f.quarter })
/-- The first of the least by eviction priority and recency. -/
def least : List Victim → Option Victim
  | [] => none
  | l :: rest => match least rest with
    | none => some l
    | some m => if m.prio < l.prio ∨ (m.prio = l.prio ∧ m.used < l.used) then some m else some l
def FarLine.at_ (f : FarLine) (w va q : Nat) : Bool := f.world == w && f.va == va && f.quarter == q
/-- One eviction from a set for a line of world `w` (R297). -/
def evictOne (s : State) (w : Nat) (set : Nat × Nat × Nat) : State :=
  let d := set.1 / 2
  let ls := candidatesOf s set
  let above := ls.filter fun l => quotaOf s l.world != 0 && s.lineCount l.world > quotaOf s l.world
  let own := ls.filter (·.world == w)
  match least (if !above.isEmpty then above else if !own.isEmpty then own else ls) with
  | none => s
  | some v => match v.far with
    | some q => s.modDie d fun x => { x with far := x.far.filter fun f => !f.at_ v.world v.va q }
    | none =>
      let back := (s.die d).l2.filter fun l => l.world == v.world && l.va == v.va
      (back.foldl writeBack s).modDie d fun x => { x with l2 := x.l2.filter fun l => !(l.world == v.world && l.va == v.va) }
/-- Whether a set lacks a tag or the bytes for a line (R296). -/
def setFull (s : State) (set : Nat × Nat × Nat) (size : Nat) : Bool :=
  let x := s.die (set.1 / 2)
  let ls := x.l2.filter fun l => s.setOf l.world l.va == set
  let far := x.far.filter fun f => s.farSetOf f == set
  ls.length + far.length ≥ 32 ||
    ls.foldl (fun n l => n + (format l.data).2) 0 + far.foldl (fun n l => n + (format l.data).2) 0 + size > 2048
def makeRoom : Nat → State → Nat → Nat × Nat × Nat → Nat → State
  | 0, s, _, _, _ => s
  | n + 1, s, w, set, size => if setFull s set size then makeRoom n (evictOne s w set) w set size else s

/-! ### Translation (R300 to R303, R330) -/

structure Leaf where
  page  : Nat          -- frame address of the 4 KiB page, or the primary page's virtual address
  write : Bool
  exec  : Bool
  sec   : Bool
  deriving DecidableEq, Repr

def mem64 (s : State) (pa : Nat) : Nat := natOf (memBytes s pa 8)
/-- One level of a walk: the table's frame and the levels left (R301). -/
def walkFrom (s : State) (w va : Nat) : Nat → Nat → Except (BitVec 6) Leaf
  | 0, _ => .error 0x04
  | n + 1, frame =>
    let shift := 12 + 9 * n
    match frameAt s w (frame + 8 * (va / 2 ^ shift % 512)) 8 true with
    | .error x => .error x
    | .ok at_ =>
      let e := mem64 s at_
      let bit := fun i => e.testBit i
      let addr := e / 2 ^ 12 % 2 ^ 40 * 4096
      if !bit 0 || e / 2 ^ 52 != 0 || e / 2 ^ 5 % 128 != 0 then .error 0x04
      else if n = 0 then .ok { page := addr, write := bit 1, exec := bit 2, sec := bit 4 }
      else if bit 3 then
        if n = 3 || bit 4 || addr % 2 ^ shift != 0 then .error 0x04
        else .ok { page := addr + va % 2 ^ shift / 4096 * 4096, write := bit 1, exec := bit 2, sec := false }
      else if bit 4 then .error 0x04
      else walkFrom s w va n addr
def stackOf (s : State) (w va : Nat) : Nat :=
  match s.worldPart w with
  | some p => (p.pmil.toNat / 8 ^ (va / 2 ^ p.pmig % 8)) % 8
  | none => 0
/-- A line of a world whose stack or home slice a change of the interleave or of the quarters moved, until a shoot-down of the partition
(R337): accesses to it return and write unspecified values, with no fault. -/
def windowLine (s : State) (w va : Nat) : Bool :=
  match s.worldPart w with
  | some p => p.prior.any fun o => o.2.2.2.contains w &&
      ((o.1.toNat / 8 ^ (va / 2 ^ o.2.1 % 8)) % 8 != stackOf s w va || homeSlice o.2.2.1 va != homeSlice p.pqm va)
  | none => false
def freeLine (s : State) (va : Nat) : Line :=
  lineOfBytes ((List.range 32).flatMap fun i => bytesOf 4 (s.free (2 ^ 60 + lineVa va / 4 + i)).toNat)
/-- The stack that a line is checked against. -/
def stackFor (s : State) (w va pa : Nat) : Nat := if windowLine s w va then pa / 2 ^ 36 % 8 else stackOf s w va
def Leaf.code (l : Leaf) : Nat := l.page * 8 + l.write.toNat + 2 * l.exec.toNat + 4 * l.sec.toNat
def Leaf.ofCode (n : Nat) : Leaf :=
  { page := n / 8, write := n.testBit 0, exec := n.testBit 1, sec := n.testBit 2 }
/-- The leaf for a page: from the stack's translation cache, where the walk may also be taken again (R303), or from a walk. -/
def leafOf (s : State) (w va : Nat) : Except (BitVec 6) Leaf :=
  if va ≥ 2 ^ 48 then .error 0x04
  else
    let root := ((s.worlds.look w).map (·.root)).getD 0
    let fresh := walkFrom s w va 4 root
    match ((s.tlb.look (stackOf s w va)).getD []).find? fun e => e.1 == w && e.2.1 == va / 4096 with
    | some (_, _, c) => if Config.choose s.tick (va / 4096) % 2 = 0 then .ok (.ofCode c) else fresh
    | none => fresh
/-- Steps 3 to 5 of R139 for a leaf's line: R302 decodes its frame, then the permissions are checked, then the firewall. A line in
the window of R337 meets no firewall on its stack. -/
def settleLeaf (s : State) (who va pa : Nat) (ok : Perm → Bool) (w : Nat) (h : Home) : Except (BitVec 6) Home :=
  if !onStack (stackFor s w va pa) pa then .error 0x04
  else if !ok h.perm then .error 0x05
  else if windowLine s w va && pa / 2 ^ 39 == 0 then .ok { h with pa := some pa, who := who }
  else match frameAt s who pa 128 with
    | .ok a => .ok { h with pa := some a, who := who }
    | .error e => .error e
/-- What the base die returns for a line: home, permissions, or the code (R300, R302, R305). `ok` is what the access requires. -/
def xlate (s : State) (w who va : Nat) (ok : Perm → Bool := fun _ => true) : Except (BitVec 6) Home :=
  match leafOf s w va with
  | .error e => .error e
  | .ok l =>
    if !l.sec then
      settleLeaf s who va (l.page + lineVa va % 4096) ok w { va := lineVa va, pa := none, perm := { write := l.write, exec := l.exec } }
    else
      let va2 := l.page + lineVa va % 4096
      match leafOf s w va2 with
      | .error e => .error e
      | .ok m =>
        if m.sec then .error 0x04
        else settleLeaf s who va2 (m.page + va2 % 4096) ok w
          { va := va2, sec := true, pa := none, perm := { write := l.write && m.write, exec := l.exec && m.exec } }
/-- The translation caches after a walk: 8,192 entries a stack, oldest dropped. -/
def cacheLeaf (s : State) (w va : Nat) : State :=
  match leafOf s w va with
  | .error _ => s
  | .ok l =>
    let st := stackOf s w va
    let old := ((s.tlb.look st).getD []).filter fun e => !(e.1 == w && e.2.1 == va / 4096)
    { s with tlb := s.tlb.put st (((w, va / 4096, l.code) :: old).take 8192) }
/-- The remap filter beside the home slice of a secondary address; 1,024 pairs (R305). -/
def remapKey (s : State) (w va : Nat) : Nat := (s.homeOf w va).1 * 24 + (s.homeOf w va).2
def remapHit (s : State) (w va : Nat) : Option Remap :=
  (((s.die (s.homeDie w va)).remap.look (remapKey s w va)).getD []).find? fun e => e.world == w && e.page == va / 4096
/-- The filter records a secondary page with its leaf's permissions. -/
def noteSecondary (s : State) (w va : Nat) (h : Home) : State :=
  if h.sec && (remapHit s w va).isNone then
    let r : Remap := { world := w, page := va / 4096, prim := h.va / 4096, perm := h.perm }
    let n := remapKey s w va
    s.modDie (s.homeDie w va) fun d => { d with remap := d.remap.put n ((r :: (d.remap.look n).getD []).take 1024) }
  else s

/-! ### The L2 as seen at home -/

def State.l2? (s : State) (w va : Nat) : Option L2Line :=
  (s.die (s.homeDie w va)).l2.find? fun l => l.world == w && l.va == va
def State.modL2 (s : State) (w va : Nat) (f : L2Line → L2Line) : State :=
  s.modDie (s.homeDie w va) fun d => { d with l2 := d.l2.map fun l => if l.world == w && l.va == va then f l else l }
/-- A line that is absent is filled from memory (R294, R300); a line refilled has an all-ones side-band (R291). -/
def fillL2 (s : State) (w : Nat) (h : Home) (prio : Nat) : State :=
  match s.l2? w h.va, h.pa with
  | some _, _ => s.modL2 w h.va fun l => { l with used := s.tick }
  | none, some pa =>
    let data := memLine s pa
    let s := makeRoom 64 s w (s.setOf w h.va) (format data).2
    s.modDie (s.homeDie w h.va) fun d =>
      { d with l2 := d.l2 ++ [{ world := w, va := h.va, data := data, pa := pa, who := h.who, perm := h.perm, prio := prio, used := s.tick,
                                poison := memPoison s pa }] }
  | none, none => s
/-- The bytes of a line at home, without a change of state. -/
def homeLine (s : State) (w : Nat) (h : Home) : Line :=
  if windowLine s w h.va then freeLine s h.va else
  match s.l2? w h.va, h.pa with
  | some l, _ => l.data
  | none, some pa => memLine s pa
  | none, none => 0
def homePoison (s : State) (w : Nat) (h : Home) : BitVec 16 :=
  if windowLine s w h.va then 0 else match s.l2? w h.va, h.pa with
  | some l, _ => l.poison
  | none, some pa => memPoison s pa
  | none, none => 0
/-- Bytes of a range at home, by its lines. -/
def homeBytes (s : State) (w va n : Nat) (hs : List Home) : List Byte :=
  ((segs va n).zip hs).flatMap fun (sg, h) => ((lineBytes (homeLine s w h)).drop sg.2.1).take sg.2.2.2
def overlay (l : List Byte) (off : Nat) (d : List Byte) : List Byte := l.take off ++ d ++ l.drop (off + d.length)
/-- Monitors on a line wake (R176); what releases left there is overwritten. -/
def wakeLine (s : State) (w va : Nat) : State :=
  { s with cores := s.cores.map fun (c, k) =>
      (c, { k with ctx := { k.ctx with posts := k.ctx.posts.filter (!·.at_.meets (.bytes w .g va 128)), threads := k.ctx.threads.map fun (t, th) => (t,
        match th.blk with
        | .mwait a d v seen left _ =>
          if lineVa v = va && s.actWorld c t = w then { th with blk := .mwait a d v seen left true } else th
        | _ => th) } }) }
/-- A write that makes a line's stored size grow evicts others until the set holds it (R295 to R297). -/
def roomToGrow (s : State) (w : Nat) (h : Home) (off : Nat) (d : List Byte) : State :=
  match s.l2? w h.va with
  | none => s
  | some l =>
    let size := (format (lineOfBytes (overlay (lineBytes l.data) off d))).2
    if size ≤ (format l.data).2 then s
    else
      let t := s.modDie (s.homeDie w h.va) fun x => { x with l2 := x.l2.filter fun q => !(q.world == w && q.va == h.va) }
      (makeRoom 64 t w (s.setOf w h.va) size).modDie (s.homeDie w h.va) fun x => { x with l2 := x.l2 ++ [l] }
/-- A write performed at home: data, dirty, poison of words wholly written cleared, monitors woken (R294, R322, R176). The far
line of the writer's die, 2 where the writer is outside, is dropped, and the side-band set or joined where the write carries a signature (R291, R299). -/
def homeWrite (s : State) (w die : Nat) (h : Home) (off : Nat) (d : List Byte) (sig : Option (Sig × Bool)) (prio : Nat := 3) : State :=
  let d := if windowLine s w h.va then (List.range d.length).map fun i => (s.free (2 ^ 61 + i)).setWidth 8 else d
  let s := roomToGrow (fillL2 s w h prio) w h off d
  let s := s.modL2 w h.va fun l =>
    { l with
      data := lineOfBytes (overlay (lineBytes l.data) off d), dirty := true, prio := prio
      poison := (List.range 16).foldl (fun p i =>
        if off ≤ 8 * i ∧ 8 * i + 8 ≤ off + d.length then p &&& ~~~(1#16 <<< i) else p) l.poison
      side := match sig with
        | some (v, true) => v
        | some (v, false) => l.side ||| v
        | none => l.side }
  let s := if die < 2 then s.modDie die fun x => { x with far := x.far.filter fun l => !(l.world == w && l.va == h.va) } else s
  wakeLine s w h.va
/-- A write of a range at home. -/
def homeWriteN (s : State) (w die va : Nat) (d : List Byte) (hs : List Home) (sig : Option (Sig × Bool) := none) (prio : Nat := 3) : State :=
  ((segs va d.length).zip hs).foldl (fun s (sg, h) =>
    homeWrite s w die h sg.2.1 ((d.drop sg.2.2.1).take sg.2.2.2) sig prio) s

/-! ### The caches of a core -/

def Core.l1? (k : Core) (w va : Nat) : Option CLine := k.l1.find? fun l => l.world == w && l.va == va
def dropL1 (s : State) (c : Nat) (p : CLine → Bool) : State := s.modCore c fun k => { k with l1 := k.l1.filter fun l => !p l }
/-- A plain store updates an L1 copy if one is present (R186). A store through a secondary page may pass the copy of the primary
line by until a fence orders the two (R155). -/
def storeL1 (s : State) (c w va : Nat) (d : List Byte) (hs : List Home) : State :=
  ((segs va d.length).zip hs).foldl (fun s (sg, h) =>
    s.modCore c fun k => { k with l1 := k.l1.map fun l =>
      if !(l.world == w && l.va == h.va) then l
      else if h.sec && Config.choose s.tick (h.va + 1) % 2 == 0 then { l with syn := true }
      else { l with data := lineOfBytes (overlay (lineBytes l.data) sg.2.1 ((d.drop sg.2.2.1).take sg.2.2.2)) } }) s
/-- What every acquire at scope `core` or wider drops: the constant cache (R412), and the L1 lines that a store through a synonym
passed by (R155). -/
def dropConst (s : State) (c : Nat) : State :=
  s.modCore c fun k => { k with ccache := [], l1 := k.l1.filter fun l => !l.syn }

/-! ### Signatures (R289 to R292) -/

def sigBits (va : Nat) : Sig :=
  (1#512 <<< (va / 2 ^ 7 % 512)) ||| (1#512 <<< ((va / 2 ^ 16 % 512) ^^^ (va / 2 ^ 25 % 512)))
def hits (va : Nat) (sg : Sig) : Bool := sg &&& sigBits va == sigBits va
def Core.sig (k : Core) (a : Word) : Sig × Sig := k.sigs.get (0, 0) a.toNat
def setSig (s : State) (c : Nat) (a : Word) (v : Sig × Sig) : State :=
  s.modCore c fun k => { k with sigs := k.sigs.set (0, 0) a.toNat v }
def joinSig (s : State) (c : Nat) (a : Word) (v : Sig) : State :=
  let o := (s.core c).sig a
  setSig s c a (o.1 ||| v, o.2)
def enterSig (s : State) (c : Nat) (a : Word) (va : Nat) : State := joinSig s c a (sigBits va)
/-- The line of a write held at home enters a second time (R290). A thread that has joined a group since, or left one, has it in the
signatures of its agent now as well, where `gjoin` put the entry of its issue (log 22). -/
def enterHeld (s : State) (c : Nat) (o : Op) (va : Nat) : State :=
  let s := enterSig s c o.sgn va
  if o.retired.isNone && s.sigId c o.tid != o.sgn then enterSig s c (s.sigId c o.tid) va else s
def carried (s : State) (c : Nat) (a : Word) : Sig := ((s.core c).sig a).1 ||| ((s.core c).sig a).2

def farScope : Scope → Bool
  | .th | .grp | .core => false
  | _ => true
def pkgScope : Scope → Bool
  | .pkg | .dom | .sys => true
  | _ => false
/-- An acquire that has no signature: every line of the L1, and at `pkg` or wider every far line of the world (R292, R319);
at `core` or wider the constant cache (R412). -/
def acquireAll (s : State) (c w : Nat) (sc : Scope) : State :=
  let s := if sc == .th || sc == .grp then s else dropConst s c
  let s := if farScope sc then dropL1 s c fun _ => true else s
  if pkgScope sc then s.modDie (dieOf c) fun d => { d with far := d.far.filter (·.world != w) } else s
/-- The signatures that a receipt joins: an agent's own, for the steward agent those of every steward thread of the core (R204,
R310, log 56). -/
def receivers (s : State) (c : Nat) (a : Word) : List Word :=
  if a = stewardWord then ((s.ctx c).threads.filter fun e => e.2.level == .steward).map fun e => s.sigId c e.1 else [a]
/-- The receipt of a signature (R292, R310, R319): every line that hits it goes, of whichever world. -/
def applySig (s : State) (c : Nat) (a : Word) (sg : Sig) (far : Bool) : State :=
  let s := dropL1 s c fun l => hits l.va sg
  let s := if far then s.modDie (dieOf c) fun d => { d with far := d.far.filter fun l => !hits l.va sg } else s
  (receivers s c a).foldl (fun s a => joinSig s c a sg) s
/-- An acquiring read of a line (R292). -/
def acquireLine (s : State) (c w : Nat) (a : Word) (h : Home) (sc : Scope) : State :=
  let s := if sc == .th || sc == .grp then s else dropConst s c
  if !farScope sc then s
  else
    let side := match s.l2? w h.va with | some l => l.side | none => BitVec.allOnes 512
    let s := dropL1 s c fun l => l.world == w && l.va == h.va
    let s := s.modDie (dieOf c) fun d => { d with far := d.far.filter fun l => !(l.world == w && l.va == h.va) }
    if side = BitVec.allOnes 512 then joinSig (acquireAll s c w sc) c a side else applySig s c a side (pkgScope sc)

/-! ### Checks of an access (R139, R140, R187) -/

inductive Acc
  | load | store | atomic | watch | fetch
  | ring                            -- an atomic that a doorbell page takes (R352)
  deriving DecidableEq, Repr
def Acc.writes : Acc → Bool
  | .store | .atomic | .ring => true
  | _ => false
def permOk (k : Acc) (p : Perm) : Bool :=
  match k with
  | .store | .atomic | .ring => p.write
  | .fetch => p.exec
  | _ => true

/-- The entry that covers an address (R306). -/
def Token.covers (w va : Nat) (t : Token) : Bool := t.mirror.isNone && t.world == w && t.base ≤ va && va < t.base + 2 ^ t.n
def State.token? (s : State) (w va : Nat) : Option Token :=
  ((s.die 0).tokens.find? (Token.covers w va)).or ((s.die 1).tokens.find? (Token.covers w va))
/-- What an agent holds of an entry: none, or the mode it holds it in. From the issue of a pass the passing agent holds what it
will hold after it (R310), but for an access accepted `before` it. -/
def Token.heldBy (t : Token) (a : Word) (before : Pass → Bool := fun _ => false) : Option TMode :=
  let now := if t.mode == .write then (if t.owner = a ∧ a ≠ 0 then some .write else none)
             else if t.holders.contains a then some t.mode else none
  match t.pending with
  | some p => if p.by_ = a ∧ !before p then
      match p.kind with
      | .toShared m _ | .reserve _ (some (some m)) => some m
      | .share _ | .reserve _ (some none) => now
      | .lend _ | .ret | .drop | .unshare | .home | .reserve _ none => none
    else now
  | none => now
/-- R140. -/
def tokenCheck (s : State) (w : Nat) (a : Word) (va : Nat) (k : Acc) (before : Pass → Bool := fun _ => false) : Option (BitVec 6) :=
  let held := (s.token? w va).bind (·.heldBy a before)
  match k, held with
  | .load, some .at => some 0x07
  | .load, _ | .watch, _ | .fetch, _ => none
  | .store, some .write => none
  | .store, some _ => some 0x07
  | .store, none => some 0x06
  | .atomic, some .rs | .ring, some .rs => some 0x07
  | .atomic, some _ | .ring, some _ => none
  | .atomic, none | .ring, none => some 0x06

def Perm.meet (p q : Perm) : Perm := { write := p.write && q.write, exec := p.exec && q.exec }
/-- Translation, protection and firewall for one line, in the order of R139, from the permissions held with it or from the base
die. An access that hits a remap filter is forwarded at once to the primary line (R305). -/
def lineCheck (s : State) (c w : Nat) (va : Nat) (k : Acc) : Except (BitVec 6) Home :=
  let who := s.worldOf c
  let keep := fun (h : Home) => if permOk k h.perm then .ok h else (.error 0x05 : Except (BitVec 6) Home)
  let l2 := fun (v : Nat) => if who = w then s.l2? w v else none
  if va ≥ 2 ^ 48 then .error 0x04
  else match remapHit s w va with
    | some m =>
      let v := m.prim * 4096 + lineVa va % 4096
      (match l2 v with
        | some l => keep { va := v, sec := true, pa := some l.pa, who := l.who, perm := l.perm.meet m.perm }
        | none => match xlate s w who v fun p => permOk k (p.meet m.perm) with
          | .ok h => if h.sec then .error 0x04 else .ok { h with sec := true, perm := h.perm.meet m.perm }
          | .error e => .error e)
    | none =>
      match l2 (lineVa va) with
      | some l => keep { va := lineVa va, pa := some l.pa, who := l.who, perm := l.perm }
      | none =>
        let fresh := xlate s w who va (permOk k)
        match if k == .fetch || who != w then none else (s.core c).l1? w (lineVa va) with
        | some l => keep { va := lineVa va, perm := l.perm, who := who, pa := match fresh with | .ok h => if h.sec then none else h.pa | .error _ => none }
        | none => fresh
/-- The lines of a range, checked in ascending order; the answer names the address that fails. -/
def rangeCheck (s : State) (c w va n : Nat) (k : Acc) : Except (BitVec 6 × Nat) (List Home) :=
  (segs va n).foldlM (fun acc sg => match lineCheck s c w sg.1 k with
    | .ok h => .ok (acc ++ [h])
    | .error e => .error (e, sg.1 + sg.2.1)) []
def isDoorbell (w : Nat) (h : Home) : Bool := h.pa.any fun p => p / 4096 == Config.doorbellFrame w
/-- The token step for a part of an access; a doorbell page must be held in ATOMIC mode, and a WRITE holder's ring raises 0x07
(R140, R352, log 75). -/
def tokenStep (s : State) (w : Nat) (a : Word) (va : Nat) (k : Acc) (h : Home) (before : Pass → Bool := fun _ => false) : Option (BitVec 6) :=
  (tokenCheck s w a va k before).or
    (if isDoorbell w h && (s.token? w va).bind (·.heldBy a before) != some .at then some 0x07 else none)
/-- Steps 3 to 6 of R139 for a `g` access, with the caches that the checks leave filled. A doorbell page takes ringing atomics
only: any other access has no permission there (R352). -/
def globalCheck (s : State) (c t va n : Nat) (k : Acc) : Except (BitVec 6 × Nat) (State × List Home) :=
  let w := s.actWorld c t
  match rangeCheck s c w va n k with
  | .error e => .error e
  | .ok hs =>
    if hs.any (isDoorbell w) && k != .ring then .error (0x05, va)
    else match ((segs va n).zip hs).findSome? fun (sg, h) => tokenStep s w (s.agentId c t) (h.va + sg.2.1) k h with
    | some e => .error (e, va)
    | none => .ok (((segs va n).zip hs).foldl (fun s (sg, h) => noteSecondary (cacheLeaf s w sg.1) w sg.1 h) s, hs)

/-- Steps 2 of R139 and R187 for an `l` access. -/
def scratchCheck (x : Ctx) (off n : Nat) (k : Acc) : Option (BitVec 6) :=
  if off + n > scratchSize x then some 0x05
  else if x.tiles.any fun e => e.2.meets off n && (match e.2.st with
      | .filling => true
      | .draining => k.writes
      | _ => false) then some 0x09
  else none

/-- The address of an access by space (R135). -/
def addrOf (s : State) (e : Env) (h : Hdr) (sp : Space) (a : Src) : Nat :=
  match sp with
  | .g => (rdPair s e h a + h.imm.signExtend 64).toNat
  | _ => (rdWord s e h a + h.imm).toNat
def baseUses (sp : Space) (a : Src) : List (Src × Nat) := wide (sp == .g) [a]

/-- The address that a record of R201 carries for an access: its virtual address for `g` and `k`, 0 for the others. -/
def spaceVa (x : Ctx) (sp : Space) (off : Nat) : Nat :=
  match sp with
  | .k => (x.kwb.toNat + off) % 2 ^ 64
  | .g => off
  | .l | .w => 0
def raiseAt (addr : Nat) (c : BitVec 6) : Raise := { code := c, addr := BitVec.ofNat 64 addr }
/-- The checks of R139 after alignment, for an access of each space. -/
def scratchAccess (s : State) (x : Ctx) (off n : Nat) (k : Acc) : Except Raise (State × Nat × List Home) :=
  match scratchCheck x off n k with
  | some c => .error (raiseAt 0 c)
  | none => .ok (s, off, [])
def windowAccess (s : State) (off n : Nat) : Except Raise (State × Nat × List Home) :=
  if off + n > 262144 then .error (raiseAt 0 0x05) else .ok (s, off, [])
def constAccess (s : State) (e : Env) (va off n : Nat) (k : Acc) : Except Raise (State × Nat × List Home) :=
  if off + n > 65536 then .error (raiseAt va 0x05)
  else match rangeCheck s e.c (s.actWorld e.c e.t) va n k with
    | .error p => .error (raiseAt p.2 p.1)
    | .ok hs => if hs.any (isDoorbell (s.actWorld e.c e.t)) then .error (raiseAt va 0x05) else .ok (s, va, hs)
/-- The same for `g`. -/
def globalAccess (s : State) (e : Env) (va n : Nat) (k : Acc) : Except Raise (State × Nat × List Home) :=
  match globalCheck s e.c e.t va n k with
  | .error p => .error (raiseAt p.2 p.1)
  | .ok p => .ok (p.1, va, p.2)
/-- The checks of R139 in order for an access of a thread: the state with what they cached, the address in its space (a `k`
access is global from here on), and the lines. -/
def accessCheck (s : State) (e : Env) (sp : Space) (off n al : Nat) (k : Acc) : Except Raise (State × Nat × List Home) :=
  if off % al ≠ 0 then .error (raiseAt (spaceVa (s.ctx e.c) sp off) 0x03)
  else match sp with
    | .l => scratchAccess s (s.ctx e.c) off n k
    | .w => windowAccess s off n
    | .k => constAccess s e (spaceVa (s.ctx e.c) .k off) off n k
    | .g => globalAccess s e off n k

end Sys2Proof.Machine
end

