-- ==== Sys2Proof/Machine/Fetch.lean ====
section
/-!
DEFINITION. Fetch lines: the line word, parity and malformed lines (R11 to R20), and the fetch of a line through the core's fetch
buffer (R14, R19).
-/
namespace Sys2Proof.Machine

def lineWord (l : FetchLine) : Word := l.extractLsb' 480 32
def targetMask (l : FetchLine) : BitVec 5 := l.extractLsb' 480 5
def pairTemplate (l : FetchLine) : BitVec 4 := l.extractLsb' 485 4
def linePrio (l : FetchLine) : Nat := (l.extractLsb' 489 10).toNat
def slotWord (l : FetchLine) (n : Nat) : InstrWord := l.extractLsb' (96 * n) 96
/-- Whether slot `n` opens a pair (R17). -/
def opensPair (l : FetchLine) (n : Nat) : Bool := (pairTemplate l).getLsbD n
/-- A line breaks R17 or R18. -/
def malformed (l : FetchLine) : Bool :=
  let p := pairTemplate l
  p &&& (p >>> 1) != 0 || (List.range 4).any (fun j => p.getLsbD j && (targetMask l).getLsbD (j + 1)) ||
    l.extractLsb' 499 5 != 0
def oddOnes (v : Nat) : Bool := (List.range 64).foldl (fun b i => b != v.testBit i) false
/-- R19: each eighth with its bit of byte 63 holds an even number of ones, byte 63 itself taken as zero. -/
def parityOk (l : FetchLine) : Bool :=
  let v := l.toNat % 2 ^ 504
  (List.range 8).all fun i => oddOnes (v / 2 ^ (64 * i) % 2 ^ 64) == l.getLsbD (504 + i)

/-- The bytes and the poison of a line for a fetch. A fetch is no access in the sense of R337: a line that a step has moved is
fetched from where it is held, as the steward of R405 to R407 runs on (log 32). -/
def fetchBytes (s : State) (w : Nat) (h : Home) : Line × BitVec 16 :=
  if windowLine s w h.va then
    match ((s.die 0).l2 ++ (s.die 1).l2).find? fun l => l.world == w && l.va == h.va, h.pa with
    | some l, _ => (l.data, l.poison)
    | none, some pa => (memLine s pa, memPoison s pa)
    | none, none => (0, 0)
  else (homeLine s w h, homePoison s w h)
/-- The line at an address as its home slice holds it, with its home; the code where it cannot be fetched (R16): a doorbell
page takes no fetch (R352). -/
def fetchHome (s : State) (c va : Nat) : Except (BitVec 6) (FLine × Home) :=
  let w := s.worldOf c
  match lineCheck s c w va .fetch with
  | .error e => .error e
  | .ok h =>
    if isDoorbell w h then .error 0x05 else
    let f := fetchBytes s w h
    let l : FetchLine := f.1.extractLsb' (8 * (va % 128)) 512
    let bad := (List.range 8).any fun i => f.2.getLsbD (va % 128 / 8 + i)
    .ok ({ world := w, va := va, data := l, bad := bad || !parityOk l }, h)
/-- The line that holds an address in the fetch buffer. -/
def fbuf? (s : State) (c : Nat) (pc : DWord) : Option FLine :=
  (s.core c).fbuf.find? fun l => l.world == s.worldOf c && l.va == (lineOf pc).toNat
/-- A line enters the fetch buffer, in place of an older copy. A line whose refetched copy mismatches does not stay (R19). -/
def fillFetch (s : State) (c : Nat) (pc : DWord) : State :=
  let va := (lineOf pc).toNat
  match fetchHome s c va with
  | .error _ => s
  | .ok (l, h) =>
    let w := s.worldOf c
    let s := noteSecondary (cacheLeaf s w va) w va h
    let s := if windowLine s w h.va then s else fillL2 s w h 3
    s.modCore c fun k => { k with fbuf := (k.fbuf.filter fun q => !(q.world == w && q.va == va)) ++ (if l.bad then [] else [l]) }
/-- The line for an instruction address: from the fetch buffer, or fetched now. -/
def fetchLine (s : State) (c : Nat) (pc : DWord) : State × Except (BitVec 6) FetchLine :=
  match fbuf? s c pc with
  | some l =>
    if l.bad then (s.modCore c fun k => { k with fbuf := k.fbuf.filter (· != l) }, .error 0x14) else (s, .ok l.data)
  | none => match fetchHome s c (lineOf pc).toNat with
    | .error e => (s, .error e)
    | .ok (l, _) => (fillFetch s c pc, if l.bad then .error 0x14 else .ok l.data)

/-- The checks of a control transfer to a target (R16). -/
def checkTarget (s : State) (c : Nat) (pc : DWord) : State × Option Raise :=
  if !isInstrAddr pc then (s, some { code := 0x03, addr := pc })
  else match fetchLine s c pc with
    | (s', .error e) => (s', some { code := e, addr := pc })
    | (s', .ok l) => (s', if (targetMask l).getLsbD (slotOf pc) then none else some { code := 0x01, addr := pc })

end Sys2Proof.Machine
end

