-- ==== Sys2Proof/Machine/Fp.lean ====
section
/-!
DEFINITION. Floating point (R54 to R62, R115 to R126): patterns are unpacked to exact values, computed on exactly, and rounded
once by one function.
-/
namespace Sys2Proof.Machine

/-- Exponent and fraction widths of a float type (R54). -/
structure Fmt where
  eb : Nat
  fb : Nat
  deriving DecidableEq, Repr
def Ty.fmt : Ty → Fmt
  | .bf16 => ⟨8, 7⟩
  | .f16 => ⟨5, 10⟩
  | _ => ⟨8, 23⟩
def Fmt.bits (f : Fmt) : Nat := 1 + f.eb + f.fb
def Fmt.bias (f : Fmt) : Nat := 2 ^ (f.eb - 1) - 1
def Fmt.emin (f : Fmt) : Int := 1 - (f.bias : Int)
/-- Magnitude patterns: infinity, the largest finite value, the quiet bit. -/
def Fmt.infM (f : Fmt) : Nat := (2 ^ f.eb - 1) * 2 ^ f.fb
def Fmt.maxM (f : Fmt) : Nat := f.infM - 1
def Fmt.quiet (f : Fmt) : Nat := 2 ^ (f.fb - 1)
def Fmt.sign (f : Fmt) (v : Nat) : Bool := v.testBit (f.eb + f.fb)
def Fmt.mag (f : Fmt) (v : Nat) : Nat := v % 2 ^ (f.eb + f.fb)
def Fmt.put (f : Fmt) (s : Bool) (m : Nat) : Nat := (if s then 2 ^ (f.eb + f.fb) else 0) + m
def Fmt.isNan (f : Fmt) (v : Nat) : Bool := f.mag v > f.infM
def Fmt.isInf (f : Fmt) (v : Nat) : Bool := f.mag v == f.infM
def Fmt.isZero (f : Fmt) (v : Nat) : Bool := f.mag v == 0
def Fmt.isSub (f : Fmt) (v : Nat) : Bool := 0 < f.mag v && f.mag v < 2 ^ f.fb
def Fmt.isQuiet (f : Fmt) (v : Nat) : Bool := v.testBit (f.fb - 1)

/-- A finite pattern as (-1)^s · m · 2^e. -/
structure Dy where
  s : Bool
  m : Nat
  e : Int
  deriving DecidableEq, Repr
def Fmt.dy (f : Fmt) (v : Nat) : Dy :=
  let m := f.mag v
  if m < 2 ^ f.fb then ⟨f.sign v, m, f.emin - f.fb⟩
  else ⟨f.sign v, m % 2 ^ f.fb + 2 ^ f.fb, f.emin - f.fb + (m / 2 ^ f.fb - 1 : Nat)⟩
/-- The signed mantissa at an exponent not above its own. -/
def Dy.at (x : Dy) (e : Int) : Int := (if x.s then -1 else 1) * ((x.m <<< (x.e - e).toNat : Nat) : Int)

/-- floor(log2(n/d)) for positive n and d. -/
def ratLog (n d : Nat) : Int :=
  let e := (n.log2 : Int) - d.log2
  if n * 2 ^ (-e).toNat < d * 2 ^ e.toNat then e - 1 else e

/-- Whether a quotient with a remainder rounds up in magnitude (R56). -/
def roundUp (rm : Rm) (s : Bool) (q r d : Nat) : Bool :=
  match rm with
  | .rne => 2 * r > d || (2 * r == d && q % 2 == 1)
  | .rz => false
  | .ru => r != 0 && !s
  | .rd => r != 0 && s

/-- The magnitude pattern of (-1)^s · (n/d) · 2^e rounded once to the format, unbounded above (R56). -/
def roundM (f : Fmt) (rm : Rm) (s : Bool) (n d : Nat) (e : Int) : Nat :=
  if n = 0 then 0 else
  let n' := n * 2 ^ e.toNat
  let d' := d * 2 ^ (-e).toNat
  let ex := max (ratLog n' d') f.emin
  let u := ex - f.fb
  let a := n' * 2 ^ (-u).toNat
  let b := d' * 2 ^ u.toNat
  (ex - f.emin).toNat * 2 ^ f.fb + a / b + (if roundUp rm s (a / b) (a % b) b then 1 else 0)

/-- Overflow of arithmetic (R57). -/
def overM (f : Fmt) (rm : Rm) (s : Bool) : Nat :=
  match rm with
  | .rne => f.infM
  | .rz => f.maxM
  | .ru => if s then f.maxM else f.infM
  | .rd => if s then f.infM else f.maxM
/-- Rounding of an arithmetic result. -/
def roundF (f : Fmt) (rm : Rm) (s : Bool) (n d : Nat) (e : Int) : Nat :=
  let m := roundM f rm s n d e
  f.put s (if m ≥ f.infM then overM f rm s else m)
/-- Rounding of a conversion: the nearest bound with SAT beyond the range (R62). -/
def roundC (f : Fmt) (rm : Rm) (s : Bool) (n d : Nat) (e : Int) : Nat × Bool :=
  let m := roundM f rm s n d e
  (f.put s (min m f.maxM), m > f.maxM)
/-- Rounding to an integer (R56). -/
def roundZ (rm : Rm) (x : Dy) : Int :=
  let n := x.m * 2 ^ x.e.toNat
  let d := 2 ^ (-x.e).toNat
  let q := n / d + (if roundUp rm x.s (n / d) (n % d) d then 1 else 0)
  if x.s then -(q : Int) else q

/-! ### NaNs (R58 to R61) -/

/-- The event NaN of a cause at an instruction address (R58). -/
def eventNan (t : Ty) (cause : Nat) (addr : DWord) : Nat :=
  match t with
  | .bf16 => 0x7FC0 + cause
  | .f16 => 0x7E00 + cause
  | _ => 0x7FC00000 + cause * 2 ^ 16 + (addr.extractLsb' 6 16).toNat
/-- The first NaN among the inputs, made quiet (R60). -/
def firstNan (f : Fmt) (l : List Nat) : Option Nat := (l.find? f.isNan).map fun v => v ||| f.quiet
/-- The cause field of a NaN (R121, R61). -/
def nanCause (t : Ty) (v : Nat) : Nat := match t with | .bf16 | .f16 => v % 64 | _ => v / 2 ^ 16 % 64

/-! ### Arithmetic (R115 to R122) -/

/-- The sum of two finite values rounded, with the zero signs of R116. -/
def addFin (f : Fmt) (rm : Rm) (a b : Dy) : Nat :=
  let e := min a.e b.e
  let x := a.at e + b.at e
  if x = 0 then f.put (if a.s = b.s then a.s else rm = .rd) 0
  else roundF f rm (x < 0) x.natAbs 1 e

def faddV (t : Ty) (rm : Rm) (addr : DWord) (a b : Nat) : Nat :=
  let f := Ty.fmt t
  match firstNan f [a, b] with
  | some n => n
  | none =>
    if f.isInf a then (if f.isInf b && f.sign a != f.sign b then eventNan t 1 addr else a)
    else if f.isInf b then b
    else addFin f rm (f.dy a) (f.dy b)
def negV (f : Fmt) (v : Nat) : Nat := f.put (!f.sign v) (f.mag v)
def fsubV (t : Ty) (rm : Rm) (addr : DWord) (a b : Nat) : Nat :=
  let f := Ty.fmt t
  match firstNan f [a, b] with
  | some n => n
  | none => faddV t rm addr a (negV f b)
def fmulV (t : Ty) (rm : Rm) (addr : DWord) (a b : Nat) : Nat :=
  let f := Ty.fmt t
  let s := f.sign a != f.sign b
  match firstNan f [a, b] with
  | some n => n
  | none =>
    if f.isInf a || f.isInf b then (if f.isZero a || f.isZero b then eventNan t 2 addr else f.put s f.infM)
    else roundF f rm s ((f.dy a).m * (f.dy b).m) 1 ((f.dy a).e + (f.dy b).e)
def fmaV (t : Ty) (rm : Rm) (addr : DWord) (a b c : Nat) : Nat :=
  let f := Ty.fmt t
  let s := f.sign a != f.sign b
  match firstNan f [a, b, c] with
  | some n => n
  | none =>
    if f.isInf a || f.isInf b then
      if f.isZero a || f.isZero b then eventNan t 2 addr
      else if f.isInf c && f.sign c != s then eventNan t 1 addr
      else f.put s f.infM
    else if f.isInf c then c
    else addFin f rm ⟨s, (f.dy a).m * (f.dy b).m, (f.dy a).e + (f.dy b).e⟩ (f.dy c)
def fdivV (t : Ty) (rm : Rm) (addr : DWord) (a b : Nat) : Nat :=
  let f := Ty.fmt t
  let s := f.sign a != f.sign b
  match firstNan f [a, b] with
  | some n => n
  | none =>
    if f.isInf a then (if f.isInf b then eventNan t 4 addr else f.put s f.infM)
    else if f.isInf b then f.put s 0
    else if f.isZero b then (if f.isZero a then eventNan t 3 addr else f.put s f.infM)
    else roundF f rm s (f.dy a).m (f.dy b).m ((f.dy a).e - (f.dy b).e)

/-- The order of two patterns that are not NaN, as integers: -0 below +0 (R118). -/
def fOrd (f : Fmt) (v : Nat) : Int := if f.sign v then -(f.mag v : Int) - 1 else f.mag v
def fminV (t : Ty) (a b : Nat) : Nat :=
  let f := Ty.fmt t
  match firstNan f [a, b] with
  | some n => n
  | none => if fOrd f b < fOrd f a then b else a
def fmaxV (t : Ty) (a b : Nat) : Nat :=
  let f := Ty.fmt t
  match firstNan f [a, b] with
  | some n => n
  | none => if fOrd f a < fOrd f b then b else a
def fabsV (t : Ty) (a : Nat) : Nat := let f := Ty.fmt t; (firstNan f [a]).getD (f.mag a)
def fnegV (t : Ty) (a : Nat) : Nat := let f := Ty.fmt t; (firstNan f [a]).getD (negV f a)
def fcpsgV (t : Ty) (a b : Nat) : Nat := let f := Ty.fmt t; (firstNan f [a, b]).getD (f.put (f.sign b) (f.mag a))
/-- The value as an integer that orders with the zeros equal (R120). -/
def fVal (f : Fmt) (v : Nat) : Int := if f.sign v then -(f.mag v : Int) else f.mag v
def fcmpV (t : Ty) (c : FCond) (a b : Nat) : Bool :=
  let f := Ty.fmt t
  let un := f.isNan a || f.isNan b
  let x := fVal f a
  let y := fVal f b
  match c with
  | .eq => !un && x == y | .ne => un || x != y | .lt => !un && x < y | .le => !un && x ≤ y
  | .gt => !un && x > y | .ge => !un && x ≥ y | .un => un | .ord => !un
def fclassV (t : Ty) (a : Nat) : Nat :=
  let f := Ty.fmt t
  if f.isNan a then (if f.isQuiet a then 2 ^ 9 else 2 ^ 8) + nanCause t a * 2 ^ 16
  else
    let k := if f.isZero a then 1 else if f.isSub a then 2 else if f.isInf a then 4 else 3
    if f.sign a then 2 ^ (4 - k) else 2 ^ (3 + k)
def frndV (t : Ty) (rm : Rm) (a : Nat) : Nat :=
  let f := Ty.fmt t
  match firstNan f [a] with
  | some n => n
  | none =>
    if f.isInf a || (f.dy a).e ≥ 0 then a
    else f.put (f.sign a) (roundM f .rne false (roundZ rm (f.dy a)).natAbs 1 0)

/-! ### Conversions (R61, R62, R123 to R128) -/

/-- A NaN of one float format in another (R61). -/
def nanTo (dt st : Ty) (v : Nat) : Nat :=
  let f := Ty.fmt dt
  f.put ((Ty.fmt st).sign v) (f.infM + f.quiet + (match dt with | .bf16 | .f16 => nanCause st v | _ => nanCause st v * 2 ^ 16))
def fcvtV (dt st : Ty) (rm : Rm) (sat : Bool) (a : Nat) : Nat × Bool :=
  let g := Ty.fmt st
  let f := Ty.fmt dt
  if g.isNan a then (nanTo dt st a, false)
  else if g.isInf a then (f.put (g.sign a) (if sat then f.maxM else f.infM), sat)
  else roundC f rm (g.sign a) (g.dy a).m 1 (g.dy a).e
/-- A float rounded to an integer and clamped to a range; a NaN gives zero with SAT (R61, R62, R125). -/
def toIntV (st : Ty) (rm : Rm) (lo hi : Int) (a : Nat) : Int × Bool :=
  let g := Ty.fmt st
  if g.isNan a then (0, true)
  else if g.isInf a then (if g.sign a then lo else hi, true)
  else clamp lo hi (roundZ rm (g.dy a))
def i2fV (dt : Ty) (rm : Rm) (x : Int) : Nat × Bool := roundC (Ty.fmt dt) rm (x < 0) x.natAbs 1 0

/-- The least BX8 exponent of a bound for a magnitude (R72): the first e at which m·2^(x+133-e) rounds to at most the bound. -/
def bxExp (bound : Nat) (x : Dy) : Nat :=
  ((List.range 256).find? fun (e : Nat) => (roundZ .rne ⟨false, x.m, x.e + 133 - (e : Int)⟩).natAbs ≤ bound).getD 255
def bxalExp (bound : Nat) (a : Nat) : Nat × Bool :=
  let f := Ty.fmt .f32
  if f.isNan a || f.isInf a then (0, true) else if f.isZero a then (0, false) else (bxExp bound (f.dy a), false)
def bxalMan (bound : Int) (a e : Nat) : Int × Bool :=
  let f := Ty.fmt .f32
  if f.isNan a then (0, true)
  else if f.isInf a then (if f.sign a then -bound else bound, true)
  else clamp (-bound) bound (roundZ .rne ⟨f.sign a, (f.dy a).m, (f.dy a).e + 133 - e⟩)
def bxalDec (m : Int) (e : Nat) : Nat × Bool := roundC (Ty.fmt .f32) .rne (m < 0) m.natAbs 1 ((e : Int) - 133)

/-- `atomf` and the float nodes (R147, R172). -/
def fopV (op : FOp) (t : Ty) (addr : DWord) (a b : Nat) : Nat :=
  match op with
  | .add => faddV t .rne addr a b
  | .min => fminV t a b
  | .max => fmaxV t a b
/-- The identity of a reduction on floats (R76). -/
def fropId (op : ROp) (t : Ty) : Nat :=
  let f := Ty.fmt t
  match op with
  | .add => f.put true 0
  | .mul => f.bias * 2 ^ f.fb
  | .min => f.infM
  | .max => f.put true f.infM
  | _ => 0
/-- One node of a float reduction: an identity input returns the other bit for bit (R76). -/
def fropNode (op : ROp) (t : Ty) (rm : Rm) (addr : DWord) (a b : Nat) : Nat :=
  if a = fropId op t then b
  else if b = fropId op t then a
  else match op with
    | .add => faddV t rm addr a b
    | .mul => fmulV t rm addr a b
    | .min => fminV t a b
    | .max => fmaxV t a b
    | _ => 0

end Sys2Proof.Machine
end

