-- ==== Sys2Proof/Machine/LoadStore.lean ====
section
/-!
DEFINITION. The memory class but for the remote forms and convergence images (R135 to R155), and the events that complete its
accesses (R141, R142, R287 to R300). Loads and plain atomics are performed when they complete; acquiring ones at issue; a
store is visible to its core from acceptance and to all others once held at home (R205, log 21).
-/
namespace Sys2Proof.Machine

/-! ### Order among the accesses of a core (R154, R287, R288) -/

/-- Where an operation writes: space, address, bytes. -/
def OpBody.writes : OpBody → Option (Space × Nat × Nat)
  | .store sp va data _ _ => some (sp, va, data.length)
  | .rmw sp va n _ _ _ _ _ => some (sp, va, n)
  | _ => none
def OpBody.isRmw : OpBody → Bool
  | .rmw .. => true
  | _ => false
/-- A store or atomic not yet performed: an acquiring atomic is performed at issue. -/
def Op.pendingWrite (o : Op) : Bool :=
  !o.done && (match o.body with
    | .store .. => true
    | .rmw _ _ _ _ _ _ _ val => val.isNone
    | _ => false)
def Op.touches (o : Op) (w : Nat) (va : Nat) : Bool := o.world == w && o.homes.any (·.va == va)
/-- Older operations of the core. -/
def older (x : Ctx) (id : Nat) : List Op := x.ops.filter (·.id < id)
/-- A store or atomic of the core, older than `id`, on its way home to a line (R287). -/
def lineBusy (x : Ctx) (id w va : Nat) : Bool := (older x id).any fun o => o.pendingWrite && o.touches w va
/-- An older write of the same thread to overlapping bytes of a local array that has not been performed. -/
def localBusy (x : Ctx) (id t : Nat) (sp : Space) (a n : Nat) (rmwOnly : Bool := false) : Bool :=
  (older x id).any fun o => o.tid == t && o.retired.isNone && o.pendingWrite && (!rmwOnly || o.body.isRmw) &&
    (match o.body.writes with | some (q, b, m) => q == sp && rangesMeet a n b m | none => false)

/-- Bytes of a range under a later write. -/
def under (va : Nat) (l : List Byte) (b : Nat) (d : List Byte) : List Byte :=
  l.mapIdx fun i v => if b ≤ va + i ∧ va + i < b + d.length then d.getD (va + i - b) v else v
/-- A thread's own stores to a local array on their way, oldest first (R154). -/
def withStores (x : Ctx) (id t : Nat) (sp : Space) (va : Nat) (l : List Byte) : List Byte :=
  (older x id).foldl (fun l o => match o.body with
    | .store q b d _ _ => if o.pendingWrite && q == sp && o.tid == t && o.retired.isNone then under va l b d else l
    | _ => l) l

/-- The line of the L1 that an access of a location hits: never through a secondary page, nor one with a parity error. -/
def l1Hit (s : State) (c w va : Nat) (h : Home) : Option CLine :=
  if h.sec || windowLine s w h.va then none else ((s.core c).l1? w va).filter fun l => !l.bad
/-- The far line that a plain load of a core finds: in the slice of its own quarter (R299). -/
def farHit (s : State) (c w : Nat) (h : Home) : Option FarLine :=
  if h.sec || windowLine s w h.va || s.homeDie w h.va == dieOf c then none
  else (s.die (dieOf c)).far.find? (·.at_ w h.va (quarterOf c))
/-- The copy of a line that a load of the space finds on its own die: in the L1, as a far line where it does not acquire, or in
the constant cache. -/
def nearLine (s : State) (c w : Nat) (sp : Space) (va : Nat) (h : Home) (acq : Bool := false) : Option Line :=
  if sp == .k then if windowLine s w h.va then none else ((s.core c).ccache.find? fun l => l.world == w && l.va == va).map (·.data)
  else match l1Hit s c w va h with
    | some l => some l.data
    | none => if acq then none else (farHit s c w h).map (·.data)
def isRel : MOrd → Bool
  | .rel | .ar => true
  | _ => false
def isAcq : MOrd → Bool
  | .acq | .ar => true
  | _ => false
/-- An image load as the load of its 32 bytes (R232). -/
def Op.asLoad (o : Op) : Op :=
  match o.body with
  | .ldcv sp va _ ord sc val => { o with body := .load sp va 32 .b32 .zero ord sc val }
  | _ => o
def OpBody.setVal (b : OpBody) (l : List Byte) : OpBody :=
  match b with
  | .load sp va n ty d ord sc _ => .load sp va n ty d ord sc (some l)
  | .ldcv sp va cv ord sc _ => .ldcv sp va cv ord sc (some l)
  | b => b
/-- A load or image load whose value is not fixed. -/
def OpBody.unread : OpBody → Bool
  | .load _ _ _ _ _ _ _ none | .ldcv _ _ _ _ _ none => true
  | _ => false
/-- The bytes a load finds (R186, R299, R412). -/
def loadNow (s : State) (c : Nat) (o : Op) : List Byte :=
  let x := s.ctx c
  match o.asLoad.body with
  | .load sp va n _ _ ord _ val =>
    match val, sp with
    | some l, _ => l
    | none, .l => withStores x o.id o.tid .l va (peekN x.scratch va n)
    | none, .w => withStores x o.id o.tid .w va (peekN x.wbuf va n)
    | none, sp => ((segs va n).zip o.homes).flatMap fun (sg, h) =>
        ((lineBytes ((nearLine s c o.world sp sg.1 h (isAcq ord)).getD (homeLine s o.world h))).drop sg.2.1).take sg.2.2.2
  | _ => []
/-- Whether the order of the core lets a load be performed: a miss waits until no store or atomic of the core to the line is on
its way home (R154, R287, R412). -/
def loadReady (s : State) (c : Nat) (o : Op) : Bool :=
  let x := s.ctx c
  match o.asLoad.body with
  | .load sp va n _ _ _ _ val => val.isSome || (match sp with
    | .g => ((segs va n).zip o.homes).all fun (sg, h) => (l1Hit s c o.world sg.1 h).isSome || !lineBusy x x.nextOp o.world h.va
    | .k => ((segs va n).zip o.homes).all fun (sg, h) =>
        (nearLine s c o.world .k sg.1 h).isSome || !lineBusy x x.nextOp o.world h.va
    | sp => !localBusy x o.id o.tid sp va n true && (x.riders o.id).all fun t => !localBusy x o.id t sp va n)
  | _ => false
/-- Where an unread load reads: space, address, bytes. -/
def Op.unreadRange (o : Op) : Option (Space × Nat × Nat) :=
  if !o.body.unread then none else match o.asLoad.body with
    | .load sp va n _ _ _ _ _ => some (sp, va, n)
    | _ => none
def Op.readsIn (o : Op) (sp : Space) (va n : Nat) : Bool := o.unreadRange.any fun p => p.1 == sp && rangesMeet p.2.1 p.2.2 va n
/-- A thread's loads of one location are performed in program order (R154, R287). -/
def inTurn (x : Ctx) (o : Op) : Bool :=
  o.unreadRange.all fun p => (older x o.id).all fun q =>
    !(q.readsIn p.1 p.2.1 p.2.2 && q.world == o.world && (o.tid :: x.riders o.id).any (x.counts q))
/-- A part of a line meets a poisoned word. -/
def partOf (p : BitVec 16) (off n : Nat) : Bool := (List.range 16).any fun i => p.getLsbD i && rangesMeet (8 * i) 8 off n
def poisonedPart (s : State) (w : Nat) (h : Home) (off n : Nat) : Bool := partOf (homePoison s w h) off n
def poisoned (s : State) (w va n : Nat) (hs : List Home) : Bool :=
  ((segs va n).zip hs).any fun (sg, h) => poisonedPart s w h sg.2.1 sg.2.2.2
/-- Whether a load reads an uncorrectable error as it is performed: poison at home, or an error standing in the scratchpad or the
weight buffer (R321, R322). -/
def loadBad (s : State) (c : Nat) (o : Op) : Bool :=
  o.bad || (match o.asLoad.body with
    | .load sp va n _ _ ord _ none => (match sp with
      | .g | .k => ((segs va n).zip o.homes).any fun (sg, h) =>
          if (nearLine s c o.world sp sg.1 h (isAcq ord)).isNone then poisonedPart s o.world h sg.2.1 sg.2.2.2
          else sp == .g && !isAcq ord && (l1Hit s c o.world sg.1 h).isNone && (farHit s c o.world h).any fun f => partOf f.poison sg.2.1 sg.2.2.2
      | q => markedBytes s c (q == .w) va n)
    | _ => false)

/-! ### The caches as loads are performed (R138, R186, R299, R412) -/

/-- A line enters a cache of a core at a priority: one of the lowest priority, oldest, leaves where the cache is full (R138). -/
def allocLine (cap : Nat) (ls : List CLine) (l : CLine) : List CLine :=
  let ls := ls.filter fun m => !(m.world == l.world && m.va == l.va)
  let lo := ls.foldl (fun m l => min m l.prio) 8
  (if ls.length < cap then ls else match takeFirst (fun l => l.prio == lo) ls with
    | some (_, rest) => rest
    | none => ls) ++ [l]
def allocL1 (s : State) (c w va : Nat) (data : Line) (perm : Perm) (prio left : Nat) : State :=
  let l : CLine := { world := w, va := va, data := data, perm := perm, prio := prio, left := left }
  s.modCore c fun k => { k with l1 := allocLine (512 * k.ctx.l1units) k.l1 l }
/-- A line enters the constant cache, which holds at least one line. A poisoned line stays at home (R322). -/
def allocConst (s : State) (c w va : Nat) (h : Home) (prio : Nat) : State :=
  if (nearLine s c w .k va h).isSome || windowLine s w h.va || homePoison s w h != 0 then s
  else
    let l : CLine := { world := w, va := va, data := homeLine s w h, perm := h.perm, prio := prio }
    s.modCore c fun k => { k with ccache := allocLine (max 1 Config.constLines) k.ccache l }
/-- A far line is kept for the requester's quarter; a set holds at most four (R297, R299). -/
def allocFar (s : State) (c w : Nat) (h : Home) (data : Line) (prio : Nat) : State :=
  let f : FarLine := { world := w, va := h.va, quarter := quarterOf c, data := data, perm := h.perm, prio := prio, used := s.tick }
  let set := s.farSetOf f
  let d := dieOf c
  let same := (s.die d).far.filter fun g => s.farSetOf g == set
  let s := if same.length < 4 then s else
    let lru := same.foldl (fun m g => min m g.used) s.tick
    s.modDie d fun x => { x with far := match takeFirst (fun g => s.farSetOf g == set && g.used == lru) x.far with
      | some (_, rest) => rest
      | none => x.far }
  let s := makeRoom 64 s w set (format data).2
  s.modDie d fun x => { x with far := x.far ++ [f] }
/-- A line from home enters the L1, and may be kept as a far line on a die that is not its own. A poisoned line stays at home
(R322). -/
def fillHome (s : State) (c w va : Nat) (h : Home) (prio : Nat) (far : Bool) : State :=
  let s := fillL2 s w h prio
  if homePoison s w h != 0 then s
  else
    let data := homeLine s w h
    let s := if far && s.homeDie w h.va != dieOf c && Config.choose s.tick va % 2 != 0 then allocFar s c w h data prio else s
    allocL1 s c w va data h.perm prio 32768
/-- The caches after a load of a line (R186, R299, R300, R305). An acquiring load reads no far line, and drops the one of its
location (R299). -/
def loadFill (s : State) (c w : Nat) (va : Nat) (h : Home) (prio : Nat) (acq : Bool := false) : State :=
  if (l1Hit s c w va h).isSome then s
  else
    let s := dropL1 s c fun l => l.world == w && l.va == va && l.bad
    if h.sec || windowLine s w h.va then fillL2 s w h prio
    else if acq then
      fillHome (s.modDie (dieOf c) fun d => { d with far := d.far.filter fun f => !(f.world == w && f.va == h.va) }) c w va h prio false
    else match farHit s c w h with
      | some f =>
        let s := s.modDie (dieOf c) fun d => { d with far := d.far.map fun g => if g.at_ w h.va (quarterOf c) then { g with used := s.tick } else g }
        if f.poison != 0 then s else allocL1 s c w va f.data h.perm prio f.left
      | none => fillHome s c w va h prio true
/-- The thread of an operation, while it lives. -/
def Op.live (o : Op) : List Nat := if o.retired.isNone then [o.tid] else []
/-- What the caches and signatures keep of a load that is performed, and what its threads have observed. -/
def loadFills (s : State) (c : Nat) (o : Op) : State :=
  match o.asLoad.body with
  | .load .g va n _ _ ord _ none => ((segs va n).zip o.homes).foldl (fun s (sg, h) =>
      enterSig (loadFill s c o.world sg.1 h o.evict (isAcq ord)) c o.sgn sg.1) s
  | .load .k va n _ _ _ _ none => ((segs va n).zip o.homes).foldl (fun s (sg, h) => allocConst s c o.world sg.1 h o.evict) s
  | .load .l va n _ _ _ _ none => observeBytes s c (o.live ++ (s.ctx c).riders o.id) false va n
  | .load .w va n _ _ _ _ none => observeBytes s c (o.live ++ (s.ctx c).riders o.id) true va n
  | _ => s
/-- A load is performed: its value is fixed now (R137). -/
def capture (s : State) (c : Nat) (o : Op) : State :=
  if !o.body.unread then s
  else
    let l := loadNow s c o
    let bad := loadBad s c o
    (loadFills s c o).modOp c o.id fun q => { q with body := q.body.setVal l, bad := bad }
/-- The thread's loads and image loads that are not performed. -/
def ownLoads (x : Ctx) (t : Nat) : List Op := x.ops.filter fun o => o.body.unread && x.counts o t
/-- The thread's loads are performed: before a release, a fence, or a later write to the same bytes. -/
def captureLoads (s : State) (c t : Nat) : State := (ownLoads (s.ctx c) t).foldl (capture · c) s
def captureRange (s : State) (c t : Nat) (sp : Space) (va n : Nat) : State :=
  ((ownLoads (s.ctx c) t).filter (·.readsIn sp va n)).foldl (capture · c) s
/-- Every load of the thread could be performed now. -/
def loadsSettled (s : State) (c t : Nat) : Bool := (ownLoads (s.ctx c) t).all (loadReady s c)
def domScope (sc : Scope) : Bool := sc == .dom || sc == .sys
/-- A remote store or atomic that its target has not performed (R388). -/
def Op.remoteDue (o : Op) : Bool :=
  !o.done && (match o.body with | .remote r _ _ none => r.kind != .load | _ => false)
/-- What a release waits for: the thread's local writes and atomics, and at a scope beyond the core every `g` store of the core
that is on its way home (R137, R288; the core's others stand for those the agent may have observed, log 21); at `dom` and `sys`
the remote writes of its agent as well (R388). -/
def releaseReady (s : State) (c t : Nat) (sc : Scope) : Bool :=
  loadsSettled s c t && (s.ctx c).ops.all fun o =>
    let own := o.tid == t && o.retired.isNone
    match o.body with
    | .store sp _ _ _ _ => o.done || !((own && sp != .g) || (farScope sc && sp == .g))
    | .rmw sp _ _ _ _ _ _ val => o.done || val.isSome || !(own || (farScope sc && sp == .g))
    | .remote .. => !o.remoteDue || !(o.sgn == s.sigId c t && domScope sc)
    | _ => true
def localScope (sp : Space) (sc : Scope) : Scope := if (sp == .l || sp == .w) && farScope sc then .core else sc

/-! ### Writing a loaded value (R51) -/

def writeLoaded (s : State) (e : Env) (ty : Ty) (d : Dst) (l : List Byte) : State :=
  if ty == .b32 then (List.range (l.length / 4)).foldl (fun s i => wrWord s e d (BitVec.ofNat 32 (natOf ((l.drop (4 * i)).take 4))) i) s
  else wrVal s e ty.is64 d (wrInt ty (rdInt ty (BitVec.ofNat 64 (natOf l))))
/-! ### Loads (R143) -/

/-- A load accepted: counted, and performed at once where it acquires. At scope `grove` and wider it is served from the home
slice and allocates nothing (R292). -/
def acceptLoad (s : State) (e : Env) (pc : DWord) (m : MMod) (va n : Nat) (hs : List Home) (ty : Ty) (d : Dst)
    (ts : List Nat := [e.t]) : State :=
  let body : OpBody := .load m.space va n ty d m.ord m.scope none
  let s := if isAcq m.ord then captureRange s e.c e.t m.space va n else s
  let o := newOp s e.c e.t .loads pc body hs m.evict.toNat e.low
  let s := markHazard (addOp s e.c e.t .loads pc body hs m.evict.toNat e.low).1 e.c e.t body.hazard e.low ts
  if isAcq m.ord then
    let w := s.actWorld e.c e.t
    let a := s.sigId e.c e.t
    let sc := localScope m.space m.scope
    let s := takePosts s e.c e.t (.bytes w m.space va n) sc
    match m.space with
    | .g =>
      let s := if farScope sc then
          let s := hs.foldl (fun s h => fillL2 s w h m.evict.toNat) s
          let s := s.modOp e.c o.id fun q => { q with body := q.body.setVal (homeBytes s w va n hs), bad := poisoned s w va n hs }
          (segs va n).foldl (fun s sg => enterSig s e.c a sg.1) s
        else capture s e.c o
      hs.foldl (fun s h => acquireLine s e.c w a h sc) s
    | _ =>
      let s := capture s e.c o
      if sc == .th || sc == .grp then s else dropConst s e.c
  else s
/-- What an acquiring access waits for before it is performed: the thread's earlier loads of its bytes, and at home, that no write of
the core to its lines is on its way; a load below scope `grove` may hit the L1 as it is, and a `k` load the constant cache (R412). -/
def acqReady (s : State) (e : Env) (m : MMod) (va n : Nat) (hs : List Home) : Option Why :=
  let x := s.ctx e.c
  let w := s.actWorld e.c e.t
  if !isAcq m.ord then none
  else if (ownLoads x e.t).any fun o => o.readsIn m.space va n && !loadReady s e.c o then some .settled
  else match m.space with
    | .g => (((segs va n).zip hs).find? fun (sg, h) =>
        lineBusy x x.nextOp w h.va && (farScope m.scope || (l1Hit s e.c w sg.1 h).isNone)).map fun p => .line w p.2.va
    | .k => (((segs va n).zip hs).find? fun (sg, h) =>
        lineBusy x x.nextOp w h.va && (nearLine s e.c w .k sg.1 h).isNone).map fun p => .line w p.2.va
    | sp => if localBusy x x.nextOp e.t sp va n true then some .arrays else none
def loadAct (m : MMod) (n al : Nat) (ty : Ty) (d : Dst) (h : Hdr) (a : Src) (e : Env) (pc : DWord) (s : State) : Res :=
  if s.count e.c e.t .loads ≥ 63 then .wait s (.retry (.room .loads))
  else match accessCheck s e m.space (addrOf s e h m.space a) n al .load with
    | .error r => .fail s r
    | .ok (s', va, hs) => match acqReady s e m va n hs with
      | some w => .wait s (.retry w)
      | none => .done (acceptLoad s' e pc m va n hs ty d)
def loadUses (m : MMod) (a : Src) (d : Dst) (k : Nat) : Uses := { srcs := baseUses m.space a, dsts := [(d, k)] }

def execLd (h : Hdr) (m : MMod) (ty : Ty) (d : Dst) (a : Src) (s : State) : Answer :=
  .next (perThread .app (loadUses m a d (if ty.is64 then 2 else 1)) h (loadAct m (ty.bits / 8) (ty.bits / 8) ty d h a) s)
def execLd4 (h : Hdr) (m : MMod) (d : Dst) (a : Src) (s : State) : Answer :=
  .next (perThread .app (loadUses m a d 4) h (loadAct m 16 16 .b32 d h a) s)
def execLdm (h : Hdr) (m : MMod) (n : BitVec 4) (d : Dst) (a : Src) (s : State) : Answer :=
  .next (perThread .app (loadUses m a d (n.toNat + 1)) h (loadAct m (4 * (n.toNat + 1)) 4 .b32 d h a) s)
/-- `ldu` issues once per bundle; every active member counts it (R143), and what each of them has under way to the location goes
before it (R154). -/
def execLdu (h : Hdr) (m : MMod) (ty : Ty) (d : Dst) (a : Src) (s : State) : Answer :=
  let n := ty.bits / 8
  .next (perBundle .app { loadUses m a d (if ty.is64 then 2 else 1) with cls := true } h (fun e pc ts s =>
    if ts.any fun t => s.count e.c t .loads ≥ 63 then .wait s (.retry (.room .loads))
    else match accessCheck s e m.space (addrOf s e h m.space a) n n .load with
      | .error r => .fail s r
      | .ok (s', va, hs) => match ts.findSome? fun t => (acqReady s { e with t := t } m va n hs).or
            (if isAcq m.ord && t != e.t && m.space != .g && localBusy (s.ctx e.c) (s.ctx e.c).nextOp t m.space va n then some .arrays else none) with
        | some w => .wait s (.retry w)
        | none =>
          let s1 := if isAcq m.ord then ts.foldl (fun s t => captureRange s e.c t m.space va n) s' else s'
          .done ((ts.drop 1).foldl (fun q t => (addOp q e.c t .loads pc (.along (s.ctx e.c).nextOp)).1)
            (acceptLoad s1 e pc m va n hs ty d ts))) s)

/-! ### Stores (R143, R144) -/

/-- A store accepted: from here on the core sees it (R186, R205). -/
def acceptStore (s : State) (e : Env) (pc : DWord) (m : MMod) (va : Nat) (hs : List Home) (data : List Byte) : State :=
  let s := captureRange s e.c e.t m.space va data.length
  let s := if isRel m.ord then captureLoads s e.c e.t else s
  let w := s.actWorld e.c e.t
  let s := if m.space == .g then
      (segs va data.length).foldl (fun s sg => enterSig s e.c (s.sigId e.c e.t) sg.1) (storeL1 s e.c w va data hs)
    else s
  let s := if m.space != .g then s
    else if isRel m.ord then post s e.c e.t (.bytes w .g va data.length) m.scope else dropPosts s e.c (.bytes w .g va data.length)
  (addOp s e.c e.t .stores pc (.store m.space va data m.ord m.scope) hs m.evict.toNat).1
/-- What holds a store back: a load of its thread that cannot be performed yet, or, where it releases, what a release at its own core needs. -/
def arraysHeld (s : State) (c t : Nat) : Bool :=
  (s.ctx c).ops.all fun o => !(o.tid == t && o.retired.isNone && o.pendingWrite && o.body.writes.any (·.1 != .g))
def storeWait (s : State) (e : Env) (m : MMod) : Option Why :=
  if !loadsSettled s e.c e.t then some .settled
  else if isRel m.ord && !releaseReady s e.c e.t .core then some (.released .core)
  else none
def storeAct (m : MMod) (n al : Nat) (h : Hdr) (a : Src) (data : State → Env → List Byte) (e : Env) (pc : DWord) (s : State) : Res :=
  if s.count e.c e.t .stores ≥ 63 then .wait s (.retry (.room .stores))
  else match accessCheck s e m.space (addrOf s e h m.space a) n al .store with
    | .error r => .fail s r
    | .ok (s', va, hs) => match storeWait s e m with
      | some w => .wait s (.retry w)
      | none => .done (acceptStore s' e pc m va hs (data s e))
def storeUses (m : MMod) (a b : Src) (k : Nat) : Uses := { srcs := baseUses m.space a ++ [(b, k)] }
def wordsOf (s : State) (e : Env) (h : Hdr) (b : Src) (k : Nat) : List Byte :=
  (List.range k).flatMap fun i => bytesOf 4 (rdWord s e h b i).toNat

def execSt (h : Hdr) (m : MMod) (ty : Ty) (a b : Src) (s : State) : Answer :=
  .next (perThread .app (storeUses m a b (if ty.is64 then 2 else 1)) h
    (storeAct m (ty.bits / 8) (ty.bits / 8) h a fun s e => bytesOf (ty.bits / 8) (rdVal s e h ty b).toNat) s)
def execSt4 (h : Hdr) (m : MMod) (a b : Src) (s : State) : Answer :=
  .next (perThread .app (storeUses m a b 4) h (storeAct m 16 16 h a fun s e => wordsOf s e h b 4) s)
def execStm (h : Hdr) (m : MMod) (n : BitVec 4) (a b : Src) (s : State) : Answer :=
  .next (perThread .app (storeUses m a b (n.toNat + 1)) h
    (storeAct m (4 * (n.toNat + 1)) 4 h a fun s e => wordsOf s e h b (n.toNat + 1)) s)
def execStz (h : Hdr) (m : MMod) (a : Src) (s : State) : Answer :=
  .next (perThread .app { srcs := baseUses m.space a } h (storeAct m 128 128 h a fun _ _ => List.replicate 128 0) s)

/-! ### Atomics (R145 to R147, R352) -/

def Rmw.size : Rmw → Nat
  | .int _ ty _ | .cas ty _ _ | .flt _ ty _ => ty.bits / 8
def Rmw.wide (r : Rmw) : Bool := r.size == 8
/-- The new value; an event NaN carries the address of the instruction. -/
def Rmw.new (r : Rmw) (pc : DWord) (old : DWord) : DWord :=
  match r with
  | .int op ty b => aopV op ty old b
  | .cas _ cmp new => if old = cmp then new else old
  | .flt op ty b => BitVec.ofNat 64 (fopV op ty pc (old.toNat % 2 ^ ty.bits) (b.toNat % 2 ^ ty.bits))
/-- The old value as the destination register holds it. -/
def Rmw.old (r : Rmw) (old : DWord) : DWord :=
  match r with
  | .int _ ty _ => wrInt ty (rdInt ty old)
  | _ => old
/-- Pending vectors post in ascending order through the function's table (R352). -/
def postVector (s : State) (w v : Nat) : State :=
  match (s.worlds.look w).bind (·.fn) with
  | none => s
  | some fn =>
    if !(s.msix.get 0 fn).getLsbD v then { s with pba := s.pba.set 0 fn (s.pba.get 0 fn ||| (1#32 <<< v)) }
    else { s with outbox := s.outbox ++ [.msix fn v] }
def postBell (s : State) (w : Nat) : State :=
  let b := (s.bells.look w).getD {}
  let s := (List.range 16).foldl (fun s v => if b.pending.testBit v then postVector s w v else s) s
  { s with bells := s.bells.put w { b with pending := 0, rung := 0, since := 0 } }
def ring (s : State) (w v : Nat) : State :=
  if ((s.worlds.look w).bind (·.fn)).isNone then s
  else
    let b := (s.bells.look w).getD {}
    let b := { b with since := if b.pending = 0 then s.ioclk else b.since, pending := b.pending ||| 2 ^ v, rung := b.rung + 1 }
    let s := { s with bells := s.bells.put w b }
    if b.rung ≥ b.thresh then postBell s w else s
/-- A doorbell page takes `or` of a nonzero value to one of its 16 words (R352). -/
def doorOk (va : Nat) : Rmw → Bool
  | .int .or ty b => !ty.is64 && b.setWidth 32 != 0 && va % 4096 < 64
  | _ => false
def Rmw.acc (r : Rmw) (va : Nat) : Acc := if doorOk va r then .ring else .atomic

/-- A store or an atomic of a thread performed in the scratchpad. -/
def writeLocal (s : State) (c : Nat) (o : Op) (va : Nat) (d : List Byte) : State :=
  noteLoose (writeScratch s c (if o.retired.isNone then some (s.unitOf c o.tid) else none) va d) c false va d.length o.live
/-- An atomic performed: at the home slice, or in the scratchpad. The answer is the old value, or none where it reads poison
(R145, R291, R322). -/
def performRmw (s : State) (c : Nat) (o : Op) : State × Option DWord :=
  match o.body with
  | .rmw sp va n r _ ord sc _ =>
    if sp == .l && markedBytes s c false va n then (s, none)
    else if sp == .l then
      let old := BitVec.ofNat 64 (natOf (peekN (s.ctx c).scratch va n))
      (writeLocal s c o va (bytesOf n (r.new o.pc old).toNat), some old)
    else
      let h := o.homes.headD { va := lineVa va, pa := none }
      if isDoorbell o.world h then (ring s o.world (va % 4096 / 4), some 0)
      else
        let s := fillL2 s o.world h o.evict
        if poisoned s o.world va n o.homes then (s, none)
        else
          let old := BitVec.ofNat 64 (natOf (homeBytes s o.world va n o.homes))
          let sg := if isRel ord && farScope sc then some (carried s c o.sgn, false) else none
          let s := homeWrite s o.world (dieOf c) h (va % 128) (bytesOf n (r.new o.pc old).toNat) sg o.evict
          let s := dropL1 s c fun l => l.world == o.world && l.va == h.va
          (enterHeld s c o (lineVa va), some old)
  | _ => (s, none)
/-- What a write leaves for an acquire, as it is performed (R206). -/
def postOp (s : State) (c : Nat) (o : Op) (sp : Space) (va n : Nat) (ord : MOrd) (sc : Scope) : State :=
  if isRel ord && o.retired.isNone then post s c o.tid (.bytes o.world sp va n) (localScope sp sc) else dropPosts s c (.bytes o.world sp va n)
def setRmwVal (s : State) (c id : Nat) (v : DWord) : State :=
  s.modOp c id fun q => { q with body := match q.body with
    | .rmw sp va n r d ord sc _ => .rmw sp va n r d ord sc (some v)
    | b => b }
/-- An atomic accepted; an acquiring one is performed at once. -/
def acceptRmw (s : State) (e : Env) (pc : DWord) (m : MMod) (va : Nat) (hs : List Home) (r : Rmw) (d : Dst) (k : Cls) : State :=
  let w := s.actWorld e.c e.t
  let a := s.sigId e.c e.t
  let s := captureRange s e.c e.t m.space va r.size
  let s := if m.ord == .rlx then s else captureLoads s e.c e.t
  let s := irrevocable s e.c e.t
  let s := if m.space == .g then
      enterSig (dropL1 s e.c fun l => l.world == w && hs.any fun h => h.va == l.va) e.c a (lineVa va)
    else s
  let body : OpBody := .rmw m.space va r.size r d m.ord m.scope none
  let o := newOp s e.c e.t k pc body hs m.evict.toNat e.low
  let s := markHazard (addOp s e.c e.t k pc body hs m.evict.toNat e.low).1 e.c e.t body.hazard e.low
  if isAcq m.ord then
    let s := takePosts s e.c e.t (.bytes w m.space va r.size) (localScope m.space m.scope)
    let (s, v) := performRmw s e.c o
    let s := postOp s e.c o m.space va r.size m.ord m.scope
    let s := match v with
      | some v => setRmwVal s e.c o.id v
      | none => failOp (finishOp s e.c o.id) e.c o 0x14 0 (BitVec.ofNat 64 va)
    let sc := localScope m.space m.scope
    match m.space, hs with
    | .g, h :: _ => acquireLine s e.c w a h sc
    | _, _ => if sc == .th || sc == .grp then s else dropConst s e.c
  else s
def rmwWait (s : State) (e : Env) (m : MMod) (va n : Nat) (hs : List Home) : Option Why :=
  match storeWait s e m with
  | some w => some w
  | none =>
    if m.ord == .ar && !releaseReady s e.c e.t (localScope m.space m.scope) then some (.released (localScope m.space m.scope))
    else if isAcq m.ord then acqReady s e { m with scope := .pkg } va n hs
    else none
def rmwAct (m : MMod) (k : Cls) (h : Hdr) (a : Src) (d : Dst) (rf : State → Env → Rmw) (e : Env) (pc : DWord) (s : State) : Res :=
  let r := rf s e
  let off := addrOf s e h m.space a
  if s.count e.c e.t k ≥ 63 then .wait s (.retry (.room k))
  else match accessCheck s e m.space off r.size r.size (r.acc off) with
    | .error x => .fail s x
    | .ok (s', va, hs) => match rmwWait s e m va r.size hs with
      | some w => .wait s (.retry w)
      | none => .done (acceptRmw s' e pc m va hs r d k)
def rmwUses (m : MMod) (wd : Bool) (a : Src) (l : List Src) (d : Dst) : Uses :=
  { srcs := baseUses m.space a ++ wide wd l, dsts := wideD wd d }

def execAtom (h : Hdr) (m : MMod) (op : AOp) (ty : Ty) (d : Dst) (a b : Src) (s : State) : Answer :=
  .next (perThread .app (rmwUses m ty.is64 a [b] d) h (rmwAct m .loads h a d fun s e => .int op ty (rdVal s e h ty b)) s)
def execAtomg (h : Hdr) (m : MMod) (op : AOp) (ty : Ty) (a b : Src) (s : State) : Answer :=
  .next (perThread .app (rmwUses m ty.is64 a [b] .zero) h (rmwAct m .stores h a .zero fun s e => .int op ty (rdVal s e h ty b)) s)
def execCas (h : Hdr) (m : MMod) (ty : Ty) (d : Dst) (a b c : Src) (s : State) : Answer :=
  .next (perThread .app (rmwUses m ty.is64 a [b, c] d) h
    (rmwAct m .loads h a d fun s e => .cas ty (rdVal s e h ty b) (rdVal s e h ty c)) s)
def execAtomf (h : Hdr) (m : MMod) (op : FOp) (ty : Ty) (d : Dst) (a b : Src) (s : State) : Answer :=
  .next (perThread .app (rmwUses m false a [b] d) h (rmwAct m .loads h a d fun s e => .flt op ty (rdWord s e h b)) s)

/-! ### Prefetch, fences, waits, ranges (R148 to R152) -/

/-- The line of an address comes into the L2 and into the L1 of the core, and stands there at the given priority. -/
def prefetch (s : State) (c w va : Nat) (h : Home) (prio : Nat) : State :=
  let s := (fillL2 (loadFill s c w va h prio) w h prio).modL2 w h.va fun l => { l with prio := prio }
  s.modCore c fun k => { k with l1 := k.l1.map fun l => if l.world == w && l.va == va then { l with prio := prio } else l }
/-- An address that a check refuses, the token's among them, is dropped; a miss to a line with a store of the core on its way is
served once that store is held (R287, log 57). -/
def execPrf (h : Hdr) (evict : BitVec 3) (a : Src) (s : State) : Answer :=
  .next (perThread .app { srcs := baseUses .g a } h (fun e _ s =>
    let va := addrOf s e h .g a
    let w := s.actWorld e.c e.t
    match globalCheck s e.c e.t va 1 .load with
    | .error _ => .done s
    | .ok (s', hs) => match hs.find? fun q => (l1Hit s e.c w (lineVa va) q).isNone && lineBusy (s.ctx e.c) (s.ctx e.c).nextOp w q.va with
      | some q => .wait s (.retry (.line w q.va))
      | none => .done (hs.foldl (fun s q => prefetch s e.c w (lineVa va) q evict.toNat) s')) s)

/-- A release by a thread, once it is ready (R149, R174, R178). -/
def releaseAt (s : State) (c t : Nat) : State := captureLoads s c t
def execFence (h : Hdr) (ord : MOrd) (scope : Scope) (s : State) : Answer :=
  .next (perThread .app {} h (fun e _ s =>
    if isRel ord && !releaseReady s e.c e.t scope then .wait s (.retry (.released scope))
    else if !loadsSettled s e.c e.t then .wait s (.retry .settled)
    else
      let s := captureLoads s e.c e.t
      .done (if isAcq ord then acquireAll s e.c (s.actWorld e.c e.t) scope else s)) s)

def waitLimits (v : Word) : Nat × Nat × Nat × Nat :=
  ((v.extractLsb' 0 6).toNat, (v.extractLsb' 8 6).toNat, (v.extractLsb' 16 6).toNat, (v.extractLsb' 24 6).toNat)
def withinLimits (s : State) (c t l st cp tl : Nat) : Bool :=
  s.count c t .loads ≤ l && s.count c t .stores ≤ st && s.count c t .copies ≤ cp && s.count c t .tileops ≤ tl
/-- `wait`, a reporting point (R150, R201). -/
def execWait (h : Hdr) (s : State) : Answer :=
  .next (perThread .app {} h (fun e _ s =>
    match popFail s e.c e.t with
    | some (s', r) => .fail s' r
    | none =>
      let (l, st, cp, tl) := waitLimits h.imm
      if withinLimits s e.c e.t l st cp tl then .done (clearHazard s e.c e.t) else .wait s (.waits l st cp tl)) s)

/-- The range of `inv` and `flush`: a 128-byte boundary and a multiple of 128 (R151). -/
def rangeOf (s : State) (e : Env) (h : Hdr) (a b : Src) : Option (Nat × Nat) :=
  let va := addrOf s e h .g a
  let n := (rdWord s e h b).toNat
  if va % 128 ≠ 0 ∨ n % 128 ≠ 0 then none else some (va, n)
def execInv (h : Hdr) (a b : Src) (s : State) : Answer :=
  .next (perThread .app { srcs := wide true [a] ++ one [b] } h (fun e _ s =>
    match rangeOf s e h a b with
    | none => raise s 0x03 (BitVec.ofNat 64 (addrOf s e h .g a))
    | some (va, n) => .done (s.modCore e.c fun k =>
      { k with l1 := k.l1.filter fun l => !rangesMeet l.va 128 va n
               fbuf := k.fbuf.filter fun l => !rangesMeet l.va 64 va n
               ccache := k.ccache.filter fun l => !rangesMeet l.va 128 va n })) s)
/-- The pages of a range: unmapped ones are skipped, others must be writable (R152, R302). -/
def flushCheck (s : State) (c w va n : Nat) : Except (BitVec 6 × Nat) Unit :=
  (List.range (if n = 0 then 0 else (va + n - 1) / 4096 - va / 4096 + 1)).foldlM (fun _ i =>
    let p := max va ((va / 4096 + i) * 4096)
    match lineCheck s c w p .store with
    | .error 0x04 => .ok ()
    | .error x => .error (x, p)
    | .ok _ => .ok ()) ()
def execFlush (h : Hdr) (a b : Src) (s : State) : Answer :=
  .next (perThread .app { srcs := wide true [a] ++ one [b] } h (fun e pc s =>
    if rdWord s e h b ≠ 0 ∧ s.count e.c e.t .stores ≥ 63 then .wait s (.retry (.room .stores))
    else match rangeOf s e h a b with
      | none => raise s 0x03 (BitVec.ofNat 64 (addrOf s e h .g a))
      | some (va, n) =>
        if n = 0 then .done s
        else match flushCheck s e.c (s.actWorld e.c e.t) va n with
          | .error (x, p) => raise s x (BitVec.ofNat 64 p)
          | .ok _ => .done (addOp s e.c e.t .stores pc (.flush va n)).1) s)

/-! ### Completion (R141, R142, R287, R290, R291, R300) -/

/-- Whether an older `g` store or atomic of the core, or at `dom` and `sys` an older remote one of the agent, is still to be performed
before a releasing store or atomic (R288, R388). -/
def relReady (x : Ctx) (o : Op) (sp : Space) (ord : MOrd) (sc : Scope) : Bool :=
  !(isRel ord && farScope (localScope sp sc)) || (older x o.id).all fun q =>
    !(q.pendingWrite && !q.homes.isEmpty) && !(domScope sc && q.remoteDue && q.sgn == o.sgn)
/-- A plain load or atomic completes: its value is fixed, the caches hold what they now may, and the destination is written. -/
def completeLoad (s : State) (c : Nat) (o : Op) : State :=
  let e : Env := { c := c, t := o.tid, low := o.low }
  match o.body with
  | .load _ va _ ty d _ _ _ =>
    if !loadReady s c o || !inTurn (s.ctx c) o then s
    else
      let s' := loadFills s c o
      if loadBad s c o then failOp (finishOp s' c o.id) c o 0x14 0 (BitVec.ofNat 64 va)
      else finishOp (if o.gone then s' else writeLoaded s' e ty d (loadNow s c o)) c o.id
  | .rmw sp va n r d ord sc val =>
    match val with
    | some v => finishOp (if o.gone then s else wrVal s e r.wide d (r.old v)) c o.id
    | none =>
      let x := s.ctx c
      let ready := match sp with
        | .g => o.homes.all fun h => !lineBusy x o.id o.world h.va
        | q => !localBusy x o.id o.tid q va n
      if !ready || !relReady x o sp ord sc then s
      else match performRmw s c o with
        | (s, some v) =>
          let s := postOp s c o sp va n ord sc
          finishOp (if o.gone then s else wrVal s e r.wide d (r.old v)) c o.id
        | (s, none) => failOp (finishOp s c o.id) c o 0x14 0 (BitVec.ofNat 64 va)
  | _ => s
/-- Whether an outstanding store may be performed now: writes to a line in order, a release after the stores before it. -/
def storeReady (s : State) (c : Nat) (o : Op) : Bool :=
  let x := s.ctx c
  match o.body with
  | .store sp va data ord sc => (match sp with
    | .g => (o.homes.all fun h => !lineBusy x o.id o.world h.va) && relReady x o .g ord sc
    | q => !localBusy x o.id o.tid q va data.length)
  | .rmw sp va n _ _ ord sc val => val.isSome || ((match sp with
      | .g => o.homes.all fun h => !lineBusy x o.id o.world h.va
      | q => !localBusy x o.id o.tid q va n) && relReady x o sp ord sc)
  | .load .. => loadReady s c o && inTurn x o
  | _ => false
/-- A store is held: at its home slice, or in its array. -/
def holdStore (s : State) (c : Nat) (o : Op) : State :=
  match o.body with
  | .store sp va data ord sc =>
    if !storeReady s c o then s
    else
      let s := match sp with
        | .g =>
          let sg := if isRel ord && farScope sc then some (carried s c o.sgn, true) else none
          let s := homeWriteN s o.world (dieOf c) va data o.homes sg o.evict
          (segs va data.length).foldl (fun s q => enterHeld s c o q.1) s
        | .w => noteLoose (writeWbuf s c va data) c true va data.length o.live
        | _ => writeLocal s c o va data
      finishOp (postOp s c o sp va data.length ord sc) c o.id
  | _ => completeLoad s c o

/-- The array holds the thread's own stores and counted atomics to the local spaces: by its `tail` at the latest (log 76). -/
def settleLocal (s : State) (c t : Nat) : State :=
  ((s.ctx c).ops.filter fun o => o.tid == t && o.retired.isNone && o.cls == .stores && o.pendingWrite && o.body.writes.any (·.1 != .g)).foldl (holdStore · c) s
/-- Whether no older store or atomic of the core to the range of a `flush` is on its way home (R303). -/
def flushReady (s : State) (c : Nat) (o : Op) : Bool :=
  match o.body with
  | .flush va n => (older (s.ctx c) o.id).all fun q => !(q.pendingWrite && q.world == o.world && (q.homes.any (fun h => rangesMeet h.va 128 va n) ||
      (match q.body.writes with | some (sp, b, m) => sp == .g && rangesMeet b m va n | none => false)))
  | _ => false
/-- Whether a line lies in a range, by its own address or through a secondary page that a remap filter holds. -/
def inRange (s : State) (w va n : Nat) (l : L2Line) : Bool :=
  l.world == w && (rangesMeet l.va 128 va n || ([0, 1].any fun d => (s.die d).remap.any fun f => f.2.any fun e =>
    e.world == w && e.prim == l.va / 4096 && rangesMeet (e.page * 4096 + l.va % 4096) 128 va n))
/-- The dirty lines of a range reach memory (R152). -/
def execFlushComplete (c id : Nat) (s : State) : Answer :=
  match s.op? c id with
  | some o => match o.body with
    | .flush va n =>
      if !flushReady s c o then .next s
      else
        let hit := fun (l : L2Line) => l.dirty && inRange s o.world va n l
        let s := [0, 1].foldl (fun s d =>
          let s := ((s.die d).l2.filter hit).foldl writeBack s
          s.modDie d fun x => { x with l2 := x.l2.map fun l => if hit l then { l with dirty := false } else l }) s
        .next (finishOp s c id)
    | _ => .next s
  | none => .next s
/-- A line that an outstanding access needs is filled from its stack (R300). -/
def execL2MissFill (w va : Nat) (s : State) : Answer :=
  let need := s.cores.findSome? fun (_, k) => k.ctx.ops.findSome? fun o =>
    if o.world = w ∧ !o.done then (o.homes.find? fun h => h.va == va).map fun h => (h, o.evict) else none
  match need with
  | some (h, p) => .next (fillL2 s w h p)
  | none => .next s
/-- An L1 line is dropped 2^15 cycles after its fill (R287). -/
def execL1LineExpiry (c w va : Nat) (s : State) : Answer := .next (dropL1 s c fun l => l.world == w && l.va == va)
/-- A far line is dropped 2^15 cycles after its fill (R299). -/
def execFarLineExpiry (d w va : Nat) (s : State) : Answer :=
  .next (s.modDie d fun x => { x with far := x.far.filter fun l => !(l.world == w && l.va == va) })
/-- An operation of a retired thread faults: it is discarded, a record is posted, and the count falls (R88). -/
def execRetiredFaultPost (c id : Nat) (code : BitVec 6) (s : State) : Answer :=
  match s.op? c id with
  | some o => if o.retired.isSome ∧ !o.done then .next (finishOp (failOp s c o code) c id) else .next s
  | none => .next s
/-- Previous becomes current and current is cleared, in the cycle in which bits [14:0] of the core's count wrap (R290). -/
def rotateSigs (s : State) (c : Nat) : State :=
  s.modCore c fun k => { k with sigs := k.sigs.filterMap fun (a, v) => if v.1 = 0 then none else some (a, (0, v.1)) }
def execSignatureRotate (c : Nat) (s : State) : Answer := .next (rotateSigs s c)

end Sys2Proof.Machine
end

