-- ==== Sys2Proof/Machine/Control.lean ====
section
/-!
DEFINITION. Control flow: branches, calls and the spill area, spawning and retiring threads, traps and the quiet instructions
(R86 to R91, R106 to R112).
-/
namespace Sys2Proof.Machine

/-! ### Transfers (R107) -/

def jumpTo (s : State) (e : Env) (pc : DWord) : Res :=
  match checkTarget s e.c pc with
  | (s, some r) => .fail s r
  | (s, none) => .jump s pc
def execBr (h : Hdr) (s : State) : Answer :=
  .next (perThread .app {} h (fun e pc s => jumpTo s e (directTarget pc h.imm)) s)
def execBrx (h : Hdr) (a : Src) (s : State) : Answer :=
  .next (perThread .app { srcs := wide true [a] } h (fun e _ s => jumpTo s e (rdPair s e h a)) s)

/-! ### Calls and returns (R108, R109) -/

/-- A spill area access of 8 bytes: what it waits for, its fault code, or the state and lines. -/
inductive Spill
  | held (w : Why) | bad (code : BitVec 6) | ok (s : State) (hs : List Home)
def spillCheck (s : State) (e : Env) (va : Nat) (k : Acc) : Spill :=
  let w := s.actWorld e.c e.t
  if va % 8 ≠ 0 then .bad 0x03
  else match rangeCheck s e.c w va 8 k with
    | .error (c, _) => .bad c
    | .ok hs =>
      if hs.any (isDoorbell w) then .bad 0x05
      else if !loadsSettled s e.c e.t then .held .settled
      else match hs.find? fun h => lineBusy (s.ctx e.c) (s.ctx e.c).nextOp w h.va with
        | some h => .held (.line w h.va)
        | none => .ok (((segs va 8).zip hs).foldl (fun s (sg, h) => noteSecondary (cacheLeaf s w sg.1) w sg.1 h) s) hs
def spillAddr (th : Thread) (n : Nat) : Nat := (th.spBase.toNat + 8 * n) % 2 ^ 64
/-- A return address pushed; the oldest goes to the spill area when the chip's four are taken. -/
def pushCall (s : State) (e : Env) (pc tgt : DWord) : Res :=
  match checkTarget s e.c tgt with
  | (s, some r) => .fail s r
  | (s, none) =>
    let th := s.thr e.c e.t
    let ra := nextPc pc
    if th.stack.length < 4 then .jump (s.modThr e.c e.t fun t => { t with stack := t.stack ++ [ra] }) tgt
    else if th.spLimit = 0 ∨ th.spilled.toNat * 8 + 8 > th.spLimit.toNat then raise s 0x10
    else
      let va := spillAddr th th.spilled.toNat
      match spillCheck s e va .store with
      | .held w => .wait s (.retry w)
      | .bad c => .fail s { code := 0x10, detail := c.setWidth 8, addr := BitVec.ofNat 64 va }
      | .ok s hs =>
        let w := s.actWorld e.c e.t
        let d := bytesOf 8 (th.stack.headD 0).toNat
        let s := storeL1 (captureRange s e.c e.t .g va 8) e.c w va d hs
        let s := enterSig (homeWriteN s w (dieOf e.c) va d hs) e.c (s.sigId e.c e.t) va
        .jump (s.modThr e.c e.t fun t => { t with stack := t.stack.drop 1 ++ [ra], spilled := t.spilled + 1 }) tgt
def execCall (h : Hdr) (s : State) : Answer :=
  .next (perThread .app {} h (fun e pc s => pushCall s e pc (directTarget pc h.imm)) s)
def execCallx (h : Hdr) (a : Src) (s : State) : Answer :=
  .next (perThread .app { srcs := wide true [a] } h (fun e pc s => pushCall s e pc (rdPair s e h a)) s)

/-- A return address comes off the stack. A refill that reads poisoned data raises 0x10 as R108 has of any fault; its detail, which R108
does not list, is 0x14 (log 66). -/
def popCall (s : State) (e : Env) : Res :=
  let th := s.thr e.c e.t
  match th.stack.getLast? with
  | some pc => match checkTarget s e.c pc with
    | (s, some r) => .fail s r
    | (s, none) => .jump (s.modThr e.c e.t fun t => { t with stack := t.stack.dropLast }) pc
  | none =>
    if th.spilled = 0 then raise s 0x10
    else
      let va := spillAddr th (th.spilled.toNat - 1)
      match spillCheck s e va .load with
      | .held w => .wait s (.retry w)
      | .bad c => .fail s { code := 0x10, detail := c.setWidth 8, addr := BitVec.ofNat 64 va }
      | .ok s hs =>
        let w := s.actWorld e.c e.t
        if poisoned s w va 8 hs then .fail s { code := 0x10, detail := 0x14, addr := BitVec.ofNat 64 va }
        else
          let pc := BitVec.ofNat 64 (natOf (homeBytes s w va 8 hs))
          match checkTarget (hs.foldl (fun s h => fillL2 s w h 3) s) e.c pc with
          | (s, some r) => .fail s r
          | (s, none) => .jump (s.modThr e.c e.t fun t => { t with spilled := t.spilled - 1 }) pc
def execRet (h : Hdr) (s : State) : Answer := .next (perThread .app {} h (fun e _ s => popCall s e) s)

def execCstk (h : Hdr) (a b : Src) (s : State) : Answer :=
  .next (perThread .app { srcs := [(a, 2), (b, 1)] } h (fun e _ s =>
    let base := rdPair s e h a
    let lim := rdWord s e h b
    if base.toNat % 8 ≠ 0 ∨ lim.toNat % 8 ≠ 0 then raise s 0x03
    else if (s.thr e.c e.t).spilled ≠ 0 then raise s 0x10
    else .done (s.modThr e.c e.t fun t => { t with spBase := base, spLimit := lim })) s)

/-! ### Threads (R86 to R91) -/

def execSpawn (h : Hdr) (q8 : BitVec 5) (a b c : Src) (s : State) : Answer :=
  .next (perThread .app { srcs := [(a, 2), (b, 1), (c, 1)] } h (fun e _ s =>
    let n := (rdWord s e h b).toNat % 65536
    if n = 0 then .done s
    else if (s.core e.c).steal.queue.length ≥ 256 then raise s 0x11
    else if !releaseReady s e.c e.t .pkg then .wait s (.retry (.released .pkg))
    else
      let s1 := irrevocable (releaseAt s e.c e.t) e.c e.t
      let r : SpawnRec := { entry := rdPair s e h a, count := n, arg := rdWord s e h c, quota := 8 * q8.toNat,
                            world := s.worldOf e.c, sig := carried s1 e.c (s.sigId e.c e.t) }
      .done (s1.modCore e.c fun k => { k with steal := { k.steal with queue := k.steal.queue ++ [r] } })) s)

/-- A thread completes its last instruction. -/
def finishThread (s : State) (c t : Nat) : State :=
  (retire s c t).modCtx c fun x => { x with moved := x.moved ++ [(t, false)] }
def execTail (h : Hdr) (s : State) : Answer :=
  .next (perThread .app {} h (fun e _ s =>
    let s := settleLocal s e.c e.t
    if s.count e.c e.t .loads > 0 ∨ s.count e.c e.t .tileops > 0 then .wait s (.retry (.counters 0 63 63 0))
    else if s.count e.c e.t .stores + s.count e.c e.t .copies > 0 ∧ (trackerUsed (s.ctx e.c)).length ≥ 16 then
      .wait s (.retry .tracker)
    else .gone (finishThread s e.c e.t)) s)

/-- The increment of `exit`, as an atomic performed at once. -/
def exitAdd (s : State) (e : Env) (pc : DWord) (sc : Scope) (evict : BitVec 3) (va : Nat) (hs : List Home) : Op :=
  { id := (s.ctx e.c).nextOp, tid := e.t, cls := .stores, pc := pc, agent := s.agentId e.c e.t, sgn := s.sigId e.c e.t, world := s.actWorld e.c e.t,
    evict := evict.toNat, homes := hs, body := .rmw .g va 4 (.int .add .u32 1) .zero .rel sc none }
/-- A failure the thread holds is raised before its address is looked at: `exit` is a reporting point (R201) and R90's first test is the
alignment, and no rule orders the two (DESIGN CHOICE, log 75). -/
def execExit (h : Hdr) (scope : Scope) (evict : BitVec 3) (a : Src) (s : State) : Answer :=
  .next (perThread .app { srcs := wide true [a] } h (fun e pc s =>
    let va := addrOf s e h .g a
    match popFail s e.c e.t with
    | some (s', r) => .fail s' r
    | none =>
      if va % 4 ≠ 0 then raise s 0x03 (BitVec.ofNat 64 va)
      else if s.count e.c e.t .stores > 0 ∨ s.count e.c e.t .copies > 0 then .wait s (.retry (.counters 63 0 0 63))
      else if !releaseReady s e.c e.t scope then .wait s (.retry (.released scope))
      else if s.count e.c e.t .loads > 0 ∨ s.count e.c e.t .tileops > 0 then .wait s (.retry (.counters 0 63 63 0))
      else match accessCheck s e .g va 4 4 .atomic with
        | .error r => .fail s r
        | .ok (s', va, hs) =>
          match hs.find? fun h => lineBusy (s.ctx e.c) (s.ctx e.c).nextOp (s.actWorld e.c e.t) h.va with
          | some h => .wait s (.retry (.line (s.actWorld e.c e.t) h.va))
          | none => match performRmw (irrevocable s' e.c e.t) e.c (exitAdd s e pc scope evict va hs) with
            | (s, some _) => .gone (finishThread s e.c e.t)
            | (s, none) => .fail s { code := 0x14, addr := BitVec.ofNat 64 va, used := true }) s)

/-! ### Traps and the quiet instructions (R110 to R112) -/

def execTrap (h : Hdr) (s : State) : Answer :=
  .next (perThread .app {} h (fun _ _ s => .fail s { code := 0x18, num := h.imm }) s)
def execSys (h : Hdr) (d : Dst) (s : State) : Answer :=
  .next (perThread .app { dsts := [(d, 1)] } h (fun _ _ s => .fail s { code := 0x18, num := h.imm ||| (d.code.setWidth 32 <<< 16), service := true, dst := some d }) s)
def execBrk (h : Hdr) (s : State) : Answer :=
  .next (perThread .app {} h (fun _ _ s => .fail s { code := 0x19, num := h.imm }) s)
def execNop (h : Hdr) (s : State) : Answer := .next (perThread .app {} h (fun _ _ s => .done s) s)
def execYield (h : Hdr) (s : State) : Answer :=
  .next (perThread .app {} h (fun e _ s => .done (s.modThr e.c e.t fun t => { t with yielded := true })) s)
def execSleep (h : Hdr) (a : Src) (s : State) : Answer :=
  .next (perThread .app { srcs := one [a] } h (fun e _ s =>
    let n := (rdWord s e h a).toNat
    if n = 0 then .done s else .wait s (.sleep n)) s)

end Sys2Proof.Machine
end

