-- ==== Sys2Proof/Machine/Int.lean ====
section
/-!
DEFINITION. The integer class (R94 to R105). Each instruction is an operation `alu…`: the registers and predicates it names and
what it writes as a function of the state, so that a pair can read both before either writes (R38); `exec…` issues it alone.
-/
namespace Sys2Proof.Machine

/-- What an arithmetic instruction writes for one thread. -/
structure Write where
  d    : Dst := .zero
  wide : Bool := false
  v    : DWord := 0
  kd   : Option (Pred × Bool) := none
  sat  : Bool := false
  deriving DecidableEq, Repr
def Write.apply (w : Write) (s : State) (e : Env) : State :=
  let s := wrVal s e w.wide w.d w.v
  let s := match w.kd with | some (k, b) => wrPred s e k b | none => s
  setSatIf w.sat s e.c e.t

/-- An instruction of the integer or float class. -/
structure Alu where
  h    : Hdr
  uses : Uses
  eval : State → Env → DWord → Write

/-- A latency and an interval (R131, R133). -/
def Alu.timed (a : Alu) (lat ival : Nat) : Alu := { a with uses := { a.uses with lat := lat, ival := ival } }
/-- It issues alone: each thread whose guard holds reads, then writes (R94, R115). -/
def runAlu (a : Alu) (s : State) : State :=
  perThread .app { a.uses with cls := true } a.h (fun e pc s => .done ((a.eval s e pc).apply s e)) s

/-- Operations on the values of an integer type: one, two or three sources (R94). -/
def intAlu (h : Hdr) (t : Ty) (d : Dst) (l : List Src) (f : List Int → DWord × Bool) : Alu :=
  { h := h, uses := { srcs := wide t.is64 l, dsts := wideD t.is64 d }
    eval := fun s e _ =>
      let r := f (l.map fun x => rdInt t (rdVal s e h t x))
      { d := d, wide := t.is64, v := r.1, sat := r.2 } }
def int1 (h : Hdr) (t : Ty) (d : Dst) (a : Src) (f : Int → DWord × Bool) : Alu :=
  { h := h, uses := { srcs := wide t.is64 [a], dsts := wideD t.is64 d }
    eval := fun s e _ =>
      let r := f (rdInt t (rdVal s e h t a))
      { d := d, wide := t.is64, v := r.1, sat := r.2 } }
def int2 (h : Hdr) (t : Ty) (d : Dst) (a b : Src) (f : Int → Int → DWord × Bool) : Alu :=
  { h := h, uses := { srcs := wide t.is64 [a, b], dsts := wideD t.is64 d }
    eval := fun s e _ =>
      let r := f (rdInt t (rdVal s e h t a)) (rdInt t (rdVal s e h t b))
      { d := d, wide := t.is64, v := r.1, sat := r.2 } }
def int3 (h : Hdr) (t : Ty) (d : Dst) (a b c : Src) (f : Int → Int → Int → DWord × Bool) : Alu :=
  { h := h, uses := { srcs := wide t.is64 [a, b, c], dsts := wideD t.is64 d }
    eval := fun s e _ =>
      let r := f (rdInt t (rdVal s e h t a)) (rdInt t (rdVal s e h t b)) (rdInt t (rdVal s e h t c))
      { d := d, wide := t.is64, v := r.1, sat := r.2 } }
/-- Operations on bits: one or two sources of the type (R97). -/
def bits1 (h : Hdr) (t : Ty) (d : Dst) (a : Src) (f : DWord → DWord) : Alu :=
  { h := h, uses := { srcs := wide t.is64 [a], dsts := wideD t.is64 d }
    eval := fun s e _ => { d := d, wide := t.is64, v := f (rdVal s e h t a) } }
def bits2 (h : Hdr) (t : Ty) (d : Dst) (a b : Src) (f : DWord → DWord → DWord) : Alu :=
  { h := h, uses := { srcs := wide t.is64 [a, b], dsts := wideD t.is64 d }
    eval := fun s e _ => { d := d, wide := t.is64, v := f (rdVal s e h t a) (rdVal s e h t b) } }
/-- A shift: B is one word whatever the type (R97). -/
def shift (h : Hdr) (t : Ty) (d : Dst) (a b : Src) (f : Int → Nat → Int) : Alu :=
  { h := h, uses := { srcs := wide t.is64 [a] ++ one [b], dsts := wideD t.is64 d }
    eval := fun s e _ =>
      { d := d, wide := t.is64, v := wrInt t (f (rdInt t (rdVal s e h t a)) (rdWord s e h b).toNat) } }
/-- A count: a u32 in one register (R97). -/
def countOp (h : Hdr) (t : Ty) (d : Dst) (a : Src) (f : Nat → Nat → Nat) : Alu :=
  { h := h, uses := { srcs := wide t.is64 [a], dsts := [(d, 1)] }
    eval := fun s e _ => { d := d, v := BitVec.ofNat 64 (f t.bits (rdVal s e h t a).toNat) } }
/-- Two or three whole words to one word (R98, R99, R104, R105). -/
def words2 (h : Hdr) (d : Dst) (a b : Src) (f : Word → Word → DWord × Bool) : Alu :=
  { h := h, uses := { srcs := one [a, b], dsts := [(d, 1)] }
    eval := fun s e _ =>
      let r := f (rdWord s e h a) (rdWord s e h b)
      { d := d, v := r.1, sat := r.2 } }
def words3 (h : Hdr) (d : Dst) (a b c : Src) (f : Word → Word → Word → DWord × Bool) : Alu :=
  { h := h, uses := { srcs := one [a, b, c], dsts := [(d, 1)] }
    eval := fun s e _ =>
      let r := f (rdWord s e h a) (rdWord s e h b) (rdWord s e h c)
      { d := d, v := r.1, sat := r.2 } }

/-! ### Arithmetic (R95, R96) -/

def aluIadd (h : Hdr) (t : Ty) (sat : Bool) (d : Dst) (a b : Src) : Alu := int2 h t d a b fun x y => intOut t sat (x + y)
def aluIsub (h : Hdr) (t : Ty) (sat : Bool) (d : Dst) (a b : Src) : Alu := int2 h t d a b fun x y => intOut t sat (x - y)
def aluImul (h : Hdr) (t : Ty) (sat : Bool) (d : Dst) (a b : Src) : Alu := int2 h t d a b fun x y => intOut t sat (x * y)
def aluImulh (h : Hdr) (t : Ty) (d : Dst) (a b : Src) : Alu := int2 h t d a b fun x y => (wrInt t (x * y / (2 ^ t.bits : Nat)), false)
def aluImad (h : Hdr) (t : Ty) (sat : Bool) (d : Dst) (a b c : Src) : Alu :=
  int3 h t d a b c fun x y z => intOut t sat (x * y + z)
def aluIdiv (h : Hdr) (t : Ty) (sat : Bool) (d : Dst) (a b : Src) : Alu := int2 h t d a b fun x y => intOut t sat (divI t x y)
def aluIrem (h : Hdr) (t : Ty) (d : Dst) (a b : Src) : Alu := int2 h t d a b fun x y => (wrInt t (remI x y), false)
def aluIneg (h : Hdr) (t : Ty) (sat : Bool) (d : Dst) (a : Src) : Alu := int1 h t d a fun x => intOut t sat (-x)
def aluIabs (h : Hdr) (t : Ty) (sat : Bool) (d : Dst) (a : Src) : Alu := int1 h t d a fun x => intOut t sat x.natAbs
def aluImin (h : Hdr) (t : Ty) (d : Dst) (a b : Src) : Alu := int2 h t d a b fun x y => (wrInt t (min x y), false)
def aluImax (h : Hdr) (t : Ty) (d : Dst) (a b : Src) : Alu := int2 h t d a b fun x y => (wrInt t (max x y), false)
def aluIclamp (h : Hdr) (t : Ty) (d : Dst) (a b c : Src) : Alu :=
  int3 h t d a b c fun x y z => (wrInt t (min (max x y) z), false)

/-! ### Logic, shifts, counts, fields (R97 to R99) -/

def aluIand (h : Hdr) (t : Ty) (d : Dst) (a b : Src) : Alu := bits2 h t d a b (· &&& ·)
def aluIor (h : Hdr) (t : Ty) (d : Dst) (a b : Src) : Alu := bits2 h t d a b (· ||| ·)
def aluIxor (h : Hdr) (t : Ty) (d : Dst) (a b : Src) : Alu := bits2 h t d a b (· ^^^ ·)
def aluInot (h : Hdr) (t : Ty) (d : Dst) (a : Src) : Alu := bits1 h t d a (~~~ ·)
def aluIandn (h : Hdr) (t : Ty) (d : Dst) (a b : Src) : Alu := bits2 h t d a b fun x y => x &&& ~~~y
def aluShl (h : Hdr) (t : Ty) (d : Dst) (a b : Src) : Alu := shift h t d a b fun x n => shlV t x.toNat n
def aluShr (h : Hdr) (t : Ty) (d : Dst) (a b : Src) : Alu := shift h t d a b fun x n => shrV t x.toNat n
def aluSra (h : Hdr) (t : Ty) (d : Dst) (a b : Src) : Alu := shift h t d a b (sraV t)
def aluRotl (h : Hdr) (t : Ty) (d : Dst) (a b : Src) : Alu := shift h t d a b fun x n => rotlV t x.toNat n
def aluFshl (h : Hdr) (t : Ty) (d : Dst) (a b c : Src) : Alu :=
  { h := h, uses := { srcs := wide t.is64 [a, b] ++ one [c], dsts := wideD t.is64 d }
    eval := fun s e _ =>
      { d := d, wide := t.is64
        v := BitVec.ofNat 64 (fshlV t (rdVal s e h t a).toNat (rdVal s e h t b).toNat (rdWord s e h c).toNat) } }
def aluPopc (h : Hdr) (t : Ty) (d : Dst) (a : Src) : Alu := countOp h t d a popcV
def aluClz (h : Hdr) (t : Ty) (d : Dst) (a : Src) : Alu := countOp h t d a clzV
def aluCtz (h : Hdr) (t : Ty) (d : Dst) (a : Src) : Alu := countOp h t d a ctzV
def aluBrev (h : Hdr) (t : Ty) (d : Dst) (a : Src) : Alu := bits1 h t d a fun x => BitVec.ofNat 64 (brevV t.bits x.toNat)
def aluBfx (h : Hdr) (t : Ty) (d : Dst) (a b : Src) : Alu := words2 h d a b fun x y => ((bfxV t.signed x y).setWidth 64, false)
def aluBfi (h : Hdr) (_t : Ty) (d : Dst) (a b c : Src) : Alu := words3 h d a b c fun x y z => ((bfiV x y z).setWidth 64, false)
def aluPerm (h : Hdr) (d : Dst) (a b c : Src) : Alu := words3 h d a b c fun x y z => ((permV x y z).setWidth 64, false)

/-! ### Compare, select, move, predicates, addresses, carries (R100 to R103) -/

def aluIcmp (h : Hdr) (t : Ty) (cond : ICond) (kd : Pred) (a b : Src) : Alu :=
  { h := h, uses := { srcs := wide t.is64 [a, b], kds := [kd] }
    eval := fun s e _ =>
      { kd := some (kd, icmpV cond (rdInt t (rdVal s e h t a)) (rdInt t (rdVal s e h t b))) } }
def aluSel (h : Hdr) (t : Ty) (d : Dst) (a b : Src) (kc : Pred) : Alu :=
  { h := h, uses := { srcs := wide t.is64 [a, b], dsts := wideD t.is64 d, ks := [kc] }
    eval := fun s e _ => { d := d, wide := t.is64, v := rdVal s e h t (if rdPred s e kc then a else b) } }
def aluMov (h : Hdr) (t : Ty) (d : Dst) (a : Src) : Alu := bits1 h t d a id
def aluPlog (h : Hdr) (kd ka kb kc : Pred) : Alu :=
  { h := h, uses := { ks := [ka, kb, kc], kds := [kd] }
    eval := fun s e _ =>
      let n := 4 * (rdPred s e ka).toNat + 2 * (rdPred s e kb).toNat + (rdPred s e kc).toNat
      { kd := some (kd, h.imm.getLsbD n) } }
def aluLea (h : Hdr) (t : Ty) (scale : BitVec 3) (d : Dst) (a b : Src) : Alu :=
  { h := h, uses := { srcs := wide true [a] ++ wide t.is64 [b], dsts := wideD true d }
    eval := fun s e _ =>
      let x : DWord := match t with
        | .u64 => rdPair s e h b
        | .s32 => (rdWord s e h b).signExtend 64
        | _ => (rdWord s e h b).setWidth 64
      { d := d, wide := true, v := rdPair s e h a + (x <<< scale.toNat) } }
def aluIaddc (h : Hdr) (t : Ty) (ko : Pred) (d : Dst) (a b : Src) (kc : Pred) : Alu :=
  { h := h, uses := { srcs := wide t.is64 [a, b], dsts := wideD t.is64 d, ks := [kc], kds := [ko] }
    eval := fun s e _ =>
      let v := rdInt t (rdVal s e h t a) + rdInt t (rdVal s e h t b) + (rdPred s e kc).toNat
      { d := d, wide := t.is64, v := wrInt t v, kd := some (ko, v ≥ (2 ^ t.bits : Nat)) } }
def aluIsubb (h : Hdr) (t : Ty) (ko : Pred) (d : Dst) (a b : Src) (kc : Pred) : Alu :=
  { h := h, uses := { srcs := wide t.is64 [a, b], dsts := wideD t.is64 d, ks := [kc], kds := [ko] }
    eval := fun s e _ =>
      let v := rdInt t (rdVal s e h t a) - rdInt t (rdVal s e h t b) - (rdPred s e kc).toNat
      { d := d, wide := t.is64, v := wrInt t v, kd := some (ko, v < 0) } }

/-! ### Bytes and halves (R104, R105) -/

def aluIdp4 (h : Hdr) (t : Ty) (sat : Bool) (d : Dst) (a b c : Src) : Alu :=
  words3 h d a b c fun x y z =>
    if t.signed then intOut .s32 sat (z.toInt + idp4V true x y) else intOut .u32 sat (z.toNat + idp4V false x y)
def aluIsad (h : Hdr) (t : Ty) (sat : Bool) (d : Dst) (a b c : Src) : Alu :=
  words3 h d a b c fun x y z => intOut .u32 sat (z.toNat + isadV t.signed x y)
def aluPack (h : Hdr) (t : Ty) (d : Dst) (a b : Src) : Alu :=
  words2 h d a b fun x y => ((packV t x y).1.setWidth 64, (packV t x y).2)
def aluUnpk (h : Hdr) (t : Ty) (d : Dst) (a b : Src) : Alu :=
  words2 h d a b fun x y => (wrInt (if t.signed then .s32 else .u32) (unpkV t x y), false)

/-! ### Issue -/

def execIadd (h : Hdr) (t : Ty) (sat : Bool) (d : Dst) (a b : Src) (s : State) : Answer := .next (runAlu (aluIadd h t sat d a b) s)
def execIsub (h : Hdr) (t : Ty) (sat : Bool) (d : Dst) (a b : Src) (s : State) : Answer := .next (runAlu (aluIsub h t sat d a b) s)
def execImul (h : Hdr) (t : Ty) (sat : Bool) (d : Dst) (a b : Src) (s : State) : Answer := .next (runAlu (aluImul h t sat d a b) s)
def execImulh (h : Hdr) (t : Ty) (d : Dst) (a b : Src) (s : State) : Answer := .next (runAlu (aluImulh h t d a b) s)
def execImad (h : Hdr) (t : Ty) (sat : Bool) (d : Dst) (a b c : Src) (s : State) : Answer :=
  .next (runAlu (aluImad h t sat d a b c) s)
def execIdiv (h : Hdr) (t : Ty) (sat : Bool) (d : Dst) (a b : Src) (s : State) : Answer := .next (runAlu (aluIdiv h t sat d a b) s)
def execIrem (h : Hdr) (t : Ty) (d : Dst) (a b : Src) (s : State) : Answer := .next (runAlu (aluIrem h t d a b) s)
def execIneg (h : Hdr) (t : Ty) (sat : Bool) (d : Dst) (a : Src) (s : State) : Answer := .next (runAlu (aluIneg h t sat d a) s)
def execIabs (h : Hdr) (t : Ty) (sat : Bool) (d : Dst) (a : Src) (s : State) : Answer := .next (runAlu (aluIabs h t sat d a) s)
def execImin (h : Hdr) (t : Ty) (d : Dst) (a b : Src) (s : State) : Answer := .next (runAlu (aluImin h t d a b) s)
def execImax (h : Hdr) (t : Ty) (d : Dst) (a b : Src) (s : State) : Answer := .next (runAlu (aluImax h t d a b) s)
def execIclamp (h : Hdr) (t : Ty) (d : Dst) (a b c : Src) (s : State) : Answer := .next (runAlu (aluIclamp h t d a b c) s)
def execIand (h : Hdr) (t : Ty) (d : Dst) (a b : Src) (s : State) : Answer := .next (runAlu (aluIand h t d a b) s)
def execIor (h : Hdr) (t : Ty) (d : Dst) (a b : Src) (s : State) : Answer := .next (runAlu (aluIor h t d a b) s)
def execIxor (h : Hdr) (t : Ty) (d : Dst) (a b : Src) (s : State) : Answer := .next (runAlu (aluIxor h t d a b) s)
def execInot (h : Hdr) (t : Ty) (d : Dst) (a : Src) (s : State) : Answer := .next (runAlu (aluInot h t d a) s)
def execIandn (h : Hdr) (t : Ty) (d : Dst) (a b : Src) (s : State) : Answer := .next (runAlu (aluIandn h t d a b) s)
def execShl (h : Hdr) (t : Ty) (d : Dst) (a b : Src) (s : State) : Answer := .next (runAlu (aluShl h t d a b) s)
def execShr (h : Hdr) (t : Ty) (d : Dst) (a b : Src) (s : State) : Answer := .next (runAlu (aluShr h t d a b) s)
def execSra (h : Hdr) (t : Ty) (d : Dst) (a b : Src) (s : State) : Answer := .next (runAlu (aluSra h t d a b) s)
def execRotl (h : Hdr) (t : Ty) (d : Dst) (a b : Src) (s : State) : Answer := .next (runAlu (aluRotl h t d a b) s)
def execFshl (h : Hdr) (t : Ty) (d : Dst) (a b c : Src) (s : State) : Answer := .next (runAlu (aluFshl h t d a b c) s)
def execPopc (h : Hdr) (t : Ty) (d : Dst) (a : Src) (s : State) : Answer := .next (runAlu (aluPopc h t d a) s)
def execClz (h : Hdr) (t : Ty) (d : Dst) (a : Src) (s : State) : Answer := .next (runAlu (aluClz h t d a) s)
def execCtz (h : Hdr) (t : Ty) (d : Dst) (a : Src) (s : State) : Answer := .next (runAlu (aluCtz h t d a) s)
def execBrev (h : Hdr) (t : Ty) (d : Dst) (a : Src) (s : State) : Answer := .next (runAlu (aluBrev h t d a) s)
def execBfx (h : Hdr) (t : Ty) (d : Dst) (a b : Src) (s : State) : Answer := .next (runAlu (aluBfx h t d a b) s)
def execBfi (h : Hdr) (t : Ty) (d : Dst) (a b c : Src) (s : State) : Answer := .next (runAlu (aluBfi h t d a b c) s)
def execPerm (h : Hdr) (d : Dst) (a b c : Src) (s : State) : Answer := .next (runAlu (aluPerm h d a b c) s)
def execIcmp (h : Hdr) (t : Ty) (cond : ICond) (kd : Pred) (a b : Src) (s : State) : Answer :=
  .next (runAlu (aluIcmp h t cond kd a b) s)
def execSel (h : Hdr) (t : Ty) (d : Dst) (a b : Src) (kc : Pred) (s : State) : Answer := .next (runAlu (aluSel h t d a b kc) s)
def execMov (h : Hdr) (t : Ty) (d : Dst) (a : Src) (s : State) : Answer := .next (runAlu (aluMov h t d a) s)
def execPlog (h : Hdr) (kd ka kb kc : Pred) (s : State) : Answer := .next (runAlu (aluPlog h kd ka kb kc) s)
def execLea (h : Hdr) (t : Ty) (scale : BitVec 3) (d : Dst) (a b : Src) (s : State) : Answer :=
  .next (runAlu (aluLea h t scale d a b) s)
def execIaddc (h : Hdr) (t : Ty) (ko : Pred) (d : Dst) (a b : Src) (kc : Pred) (s : State) : Answer :=
  .next (runAlu (aluIaddc h t ko d a b kc) s)
def execIsubb (h : Hdr) (t : Ty) (ko : Pred) (d : Dst) (a b : Src) (kc : Pred) (s : State) : Answer :=
  .next (runAlu (aluIsubb h t ko d a b kc) s)
def execIdp4 (h : Hdr) (t : Ty) (sat : Bool) (d : Dst) (a b c : Src) (s : State) : Answer :=
  .next (runAlu (aluIdp4 h t sat d a b c) s)
def execIsad (h : Hdr) (t : Ty) (sat : Bool) (d : Dst) (a b c : Src) (s : State) : Answer :=
  .next (runAlu (aluIsad h t sat d a b c) s)
def execPack (h : Hdr) (t : Ty) (d : Dst) (a b : Src) (s : State) : Answer := .next (runAlu (aluPack h t d a b) s)
def execUnpk (h : Hdr) (t : Ty) (d : Dst) (a b : Src) (s : State) : Answer := .next (runAlu (aluUnpk h t d a b) s)

end Sys2Proof.Machine
end

