-- ==== Sys2Proof/Machine/Real.lean ====
section
/-!
DEFINITION. The function instructions (R129 to R132). Where the spec fixes the result (special inputs, invalid and reduced
domains, exact and correctly rounded cases) it is computed; where it gives a bound, the result is the free value
`Config.fnResult` as long as that lies within the bound, which is judged in fixed point with 480 fraction bits (log 19).
-/
namespace Sys2Proof.Machine

/-- The functions, in opcode order (R130). -/
inductive Fn | exp2 | log2 | rcp | rsqrt | sqrt | sin | cos | tanh | sigm | erf
  deriving DecidableEq, Repr

/-! ### Fixed-point approximations, `fixP` fraction bits -/

def fixP : Nat := 480
def fixOne : Int := 2 ^ 480
def fixMul (a b : Int) : Int := a * b / fixOne
def fixDiv (a b : Int) : Int := a * fixOne / b
/-- A dyadic value in fixed point. -/
def Dy.fix (x : Dy) : Int :=
  let e := x.e + 480
  (if x.s then -1 else 1) * (if e ≥ 0 then ((x.m * 2 ^ e.toNat : Nat) : Int) else ((x.m / 2 ^ (-e).toNat : Nat) : Int))

/-- Sum of a power series: term k is the previous one through `f`. -/
def series (f : Nat → Int → Int) : Nat → Nat → Int → Int
  | 0, _, _ => 0
  | n + 1, k, t => t + series f n (k + 1) (f k t)
/-- arctan(1/q) and artanh(1/q), from the powers of 1/q. -/
def atanInv (q : Int) : Int := series (fun k _ =>
  (if k % 2 = 0 then -1 else 1) * (fixOne / (q ^ (2 * k + 3)) / ((2 * k + 3 : Nat) : Int))) 220 0 (fixOne / q)
def fixPi : Int := 16 * atanInv 5 - 4 * atanInv 239
def fixLn2 : Int := 2 * series (fun k _ => fixOne / (3 ^ (2 * k + 3)) / ((2 * k + 3 : Nat) : Int)) 160 0 (fixOne / 3)

/-- e^x for |x| ≤ 1. -/
def expSmall (x : Int) : Int := series (fun k t => fixMul t x / ((k + 1 : Nat) : Int)) 110 0 fixOne
/-- e^x times 2^s, halving the argument nine times. -/
def fixExp (x : Int) : Int :=
  let n := x / fixLn2
  let r := expSmall (x - n * fixLn2)
  if n ≥ 0 then r * 2 ^ n.toNat else r / 2 ^ (-n).toNat
def sinSmall (x : Int) : Int :=
  series (fun k t => -(fixMul (fixMul t x) x) / (((2 * k + 2) * (2 * k + 3) : Nat) : Int)) 70 0 x
def cosSmall (x : Int) : Int :=
  series (fun k t => -(fixMul (fixMul t x) x) / (((2 * k + 1) * (2 * k + 2) : Nat) : Int)) 70 0 fixOne
/-- Sine of x + a quarter turns. -/
def fixSin (x : Int) (a : Int) : Int :=
  let h := fixPi / 2
  let q := x / h
  let r := x - q * h
  match ((q + a) % 4).toNat with
  | 0 => sinSmall r
  | 1 => cosSmall r
  | 2 => -(sinSmall r)
  | _ => -(cosSmall r)
/-- log2 of m·2^e, m positive. -/
def fixLog2 (m : Nat) (e : Int) : Int :=
  let k := m.log2
  let y := ((m : Int) * fixOne) / (2 ^ k : Nat)
  let z := fixDiv (y - fixOne) (y + fixOne)
  let z2 := fixMul z z
  let s := series (fun k t => fixMul t z2 * ((2 * k + 1 : Nat) : Int) / ((2 * k + 3 : Nat) : Int)) 310 0 z
  (e + k) * fixOne + fixDiv (2 * s) fixLn2
/-- erf of 0 ≤ x < 10. -/
def fixErf (x : Int) : Int :=
  let x2 := fixMul x x
  let s := series (fun k t => -(fixMul t x2) * ((2 * k + 1 : Nat) : Int) / (((k + 1) * (2 * k + 3) : Nat) : Int)) 700 0 x
  -- 2/√π: the square root of π from its integer square root
  fixDiv (2 * s) ((fixPi * fixOne).toNat.sqrt : Int)

/-- A value that is strictly between 0 and 1. -/
def within01 (y : Int) : Int := max 1 (min (fixOne - 1) y)
/-- tanh and erf of a positive value, and the values at its negative. -/
def oddFix (v : Int) (f : Int → Int) : Int := if v < 0 then -(within01 (f (-v))) else within01 (f v)
/-- The value of a function at a finite f32 input other than its special inputs, in fixed point. No function reaches the limit it tends
to, so that R131 measures a value near 1 with the ULP below 1. -/
def fnFix (fn : Fn) (x : Dy) : Int :=
  let v := x.fix
  match fn with
  | .exp2 => if v < -400 * fixOne then 1 else fixExp (fixMul v fixLn2)
  | .log2 => fixLog2 x.m x.e
  | .sin => fixSin v 0
  | .cos => fixSin v 1
  | .tanh => oddFix v fun v => if v > 200 * fixOne then fixOne else fixDiv (fixExp (2 * v) - fixOne) (fixExp (2 * v) + fixOne)
  | .sigm => within01 (if v < -400 * fixOne then 0 else if v > 400 * fixOne then fixOne else fixDiv fixOne (fixOne + fixExp (-v)))
  | .erf => oddFix v fun v => if v > 10 * fixOne then fixOne else fixErf v
  | _ => 0

/-- ULP of R131 of a value in fixed point. -/
def fixUlp (y : Int) : Int := 2 ^ (max ((y.natAbs.log2 : Int) - 480) (-126) - 23 + 480).toNat
/-- Bounds of R131: units in the last place, and an absolute bound as a power of two, where one is given. -/
def fnBound (fn : Fn) (acc : Bool) : Nat × Option Nat :=
  if acc then (1, none) else match fn with
    | .exp2 | .rsqrt => (2, none)
    | .log2 => (2, some 21)
    | .rcp | .sqrt => (1, none)
    | .sin | .cos | .erf => (0, some 21)
    | .tanh => (2, some 22)
    | .sigm => (0, some 22)
/-- Whether a finite f32 pattern lies within the bound of a value. -/
def fnWithin (fn : Fn) (acc : Bool) (y : Int) (r : Nat) : Bool :=
  let b := fnBound fn acc
  let lim := max ((b.1 : Int) * fixUlp y) (match b.2 with | some k => 2 ^ (480 - k) | none => 0)
  (((Ty.fmt .f32).dy r).fix - y).natAbs ≤ lim.natAbs

/-! ### Roots and reciprocals, compared exactly -/

/-- The integer square root, by bits from the k-th down. -/
def isqrt : Nat → Nat → Nat → Nat
  | 0, _, r => r
  | k + 1, n, r => if (r + 2 ^ k) * (r + 2 ^ k) ≤ n then isqrt k n (r + 2 ^ k) else isqrt k n r
/-- √(m·2^e) as n·2^x with n carrying a sticky bit below its last place. -/
def sqrtDy (m : Nat) (e : Int) : Nat × Int :=
  let sh : Nat := 64 + (if e % 2 = 0 then 0 else 1)
  let n := m * 2 ^ sh
  let r := isqrt 60 n 0
  (2 * r + (if r * r = n then 0 else 1), (e - sh) / 2 - 1)

/-- The fixed-point value of the functions above, extended to roots and reciprocals of positive input. -/
def fnExact (fn : Fn) (x : Dy) : Int :=
  let sg : Int := if x.s then -1 else 1
  match fn with
  | .rcp => sg * ((2 ^ ((480 : Int) - x.e).toNat / x.m : Nat) : Int)
  | .sqrt => (((2 ^ 480 * (Dy.fix ⟨false, x.m, x.e⟩).toNat : Nat).sqrt : Nat) : Int)
  | .rsqrt => ((((2 ^ (1440 : Nat)) / (Dy.fix ⟨false, x.m, x.e⟩).toNat : Nat).sqrt : Nat) : Int)
  | _ => fnFix fn x

def Fn.num (f : Fn) : Nat := f.ctorIdx

/-- The special inputs of R130; `none` where the input is none of them. Patterns are f32. -/
def fnSpecial (fn : Fn) (v : Nat) : Option Nat :=
  let f := Ty.fmt .f32
  let s := f.sign v
  let one := 0x3F800000
  if f.isZero v then some (match fn with
    | .exp2 | .cos => one
    | .log2 => f.put true f.infM
    | .rcp | .rsqrt => f.put s f.infM
    | .sqrt | .sin | .tanh | .erf => v
    | .sigm => 0x3F000000)
  else if f.isInf v then match fn with
    | .exp2 => some (if s then 0 else f.infM)
    | .log2 => if s then none else some f.infM
    | .rcp => some (f.put s 0)
    | .rsqrt => if s then none else some 0
    | .sqrt => if s then none else some f.infM
    | .sin | .cos => none
    | .tanh | .erf => some (f.put s one)
    | .sigm => some (if s then 0 else one)
  else if fn = .log2 ∧ v = one then some 0
  else none
/-- The invalid sets (R130): the cause. -/
def fnInvalid (fn : Fn) (v : Nat) : Option Nat :=
  let f := Ty.fmt .f32
  match fn with
  | .log2 => if f.sign v then some 6 else none
  | .rsqrt | .sqrt => if f.sign v then some 5 else none
  | .sin | .cos => if f.isInf v then some 7 else none
  | _ => none
/-- The reduced domain of the fast grade for finite inputs (R130). -/
def fnReduced (fn : Fn) (v : Nat) : Bool :=
  let f := Ty.fmt .f32
  match fn with
  | .exp2 => fVal f v ≥ fVal f 0xC2FC0000 && fVal f v < fVal f 0x43000000
  | .rcp => f.mag v ≥ 0x00800000 && f.mag v ≤ 0x7E800000
  | .sin | .cos => f.mag v ≤ 0x43800000
  | _ => true

/-- Exact cases of R130: 2^x at an integral x with a normal result, log2 of a power of two. -/
def fnExactCase (fn : Fn) (x : Dy) : Option Nat :=
  match fn with
  | .exp2 =>
    let k := roundZ .rz x
    if x.at (min x.e 0) = k * (2 ^ (-(min x.e 0)).toNat : Nat) ∧ -126 ≤ k ∧ k ≤ 127 then some ((k + 127).toNat * 2 ^ 23)
    else none
  | .log2 =>
    if x.m = 2 ^ x.m.log2 then
      let n : Int := x.e + x.m.log2
      some ((Ty.fmt .f32).put (n < 0) (roundM (Ty.fmt .f32) .rne false n.natAbs 1 0))
    else none
  | _ => none

/-- The f32 result at a finite input that is neither special nor invalid: the free value if it is within the bound, else the
exact value rounded. -/
def fnBounded (fn : Fn) (acc : Bool) (v : Nat) : Nat :=
  let f := Ty.fmt .f32
  let x := f.dy v
  match fnExactCase fn x with
  | some r => r
  | none =>
    if fn = .exp2 ∧ fVal f v ≥ fVal f 0x43000000 then f.infM
    else
      let y := fnExact fn x
      let r := (Config.fnResult fn.num acc (BitVec.ofNat 32 v)).toNat
      if !f.isNan r && !f.isInf r && fnWithin fn acc y r then r
      else roundF f .rne (y < 0) y.natAbs 1 (-480)

/-- A function instruction of a type (R129). -/
def fnV (fn : Fn) (t : Ty) (acc : Bool) (rm : Rm) (addr : DWord) (a : Nat) : Nat :=
  let g := Ty.fmt t
  let f := Ty.fmt .f32
  match firstNan g [a] with
  | some n => n
  | none =>
    let a1 := if !acc && g.isSub a then g.put (g.sign a) 0 else a
    let v := if t = .f32 then a1 else (fcvtV .f32 t .rne false a1).1
    -- narrowing to the type, and the flush of a subnormal result in the fast grade
    let out := fun (r : Nat) =>
      let w := if t = .f32 then r
        else if f.isInf r then g.put (f.sign r) g.infM
        else roundF g (if acc && (fn = .rcp || fn = .sqrt) then rm else .rne) (f.sign r) (f.dy r).m 1 (f.dy r).e
      if !acc && g.isSub w then g.put (g.sign w) 0 else w
    match fnSpecial fn v with
    | some r => out r
    | none =>
      match fnInvalid fn v with
      | some c => eventNan t c addr
      | none =>
        if !acc && !fnReduced fn v then eventNan t 8 addr
        else if acc && fn = .rcp then
          roundF g rm (f.sign v) 1 (f.dy v).m (-(f.dy v).e)
        else if acc && fn = .sqrt then
          roundF g rm false (sqrtDy (f.dy v).m (f.dy v).e).1 1 (sqrtDy (f.dy v).m (f.dy v).e).2
        else out (fnBounded fn acc v)

end Sys2Proof.Machine
end

