-- ==== Sys2Proof/Machine/Float.lean ====
section
/-!
DEFINITION. The float class: arithmetic, sign, compare, classify, round, conversions and functions (R115 to R134).
-/
namespace Sys2Proof.Machine

/-- Sources of a float type to a value of the type (R115); event NaNs carry the address of the instruction (R58). -/
def flt1 (h : Hdr) (d : Dst) (a : Src) (t : Ty) (f : DWord → Nat → Nat) : Alu :=
  { h := h, uses := { srcs := one [a], dsts := [(d, 1)] }
    eval := fun s e pc => { d := d, v := BitVec.ofNat 64 (f pc ((rdWord s e h a).toNat % 2 ^ t.bits)) } }
def flt2 (h : Hdr) (d : Dst) (a b : Src) (t : Ty) (f : DWord → Nat → Nat → Nat) : Alu :=
  { h := h, uses := { srcs := one [a, b], dsts := [(d, 1)] }
    eval := fun s e pc =>
      { d := d
        v := BitVec.ofNat 64 (f pc ((rdWord s e h a).toNat % 2 ^ t.bits) ((rdWord s e h b).toNat % 2 ^ t.bits)) } }
def flt3 (h : Hdr) (d : Dst) (a b c : Src) (t : Ty) (f : DWord → Nat → Nat → Nat → Nat) : Alu :=
  { h := h, uses := { srcs := one [a, b, c], dsts := [(d, 1)] }
    eval := fun s e pc =>
      { d := d
        v := BitVec.ofNat 64 (f pc ((rdWord s e h a).toNat % 2 ^ t.bits) ((rdWord s e h b).toNat % 2 ^ t.bits)
          ((rdWord s e h c).toNat % 2 ^ t.bits)) } }
/-- A conversion from one word, with its SAT event (R123). -/
def conv1 (h : Hdr) (wideOut : Bool) (d : Dst) (a : Src) (f : Word → DWord × Bool) : Alu :=
  { h := h, uses := { srcs := one [a], dsts := wideD wideOut d, lat := 3 }
    eval := fun s e _ =>
      let r := f (rdWord s e h a)
      { d := d, wide := wideOut, v := r.1, sat := r.2 } }
/-- A conversion from one or two words to one (R127, R128). -/
def conv2 (h : Hdr) (d : Dst) (a : Src) (b : Option Src) (f : Word → Word → DWord × Bool) : Alu :=
  { h := h, uses := { srcs := one (a :: b.toList), dsts := [(d, 1)] }
    eval := fun s e _ =>
      let r := f (rdWord s e h a) (match b with | some x => rdWord s e h x | none => 0)
      { d := d, v := r.1, sat := r.2 } }

/-! ### Arithmetic (R117) -/

def aluFadd (h : Hdr) (t : Ty) (rm : Rm) (d : Dst) (a b : Src) : Alu := (flt2 h d a b t (faddV t rm)).timed 4 1
def aluFsub (h : Hdr) (t : Ty) (rm : Rm) (d : Dst) (a b : Src) : Alu := (flt2 h d a b t (fsubV t rm)).timed 4 1
def aluFmul (h : Hdr) (t : Ty) (rm : Rm) (d : Dst) (a b : Src) : Alu := (flt2 h d a b t (fmulV t rm)).timed 4 1
def aluFma (h : Hdr) (t : Ty) (rm : Rm) (d : Dst) (a b c : Src) : Alu := (flt3 h d a b c t (fmaV t rm)).timed 4 1
def aluFdiv (h : Hdr) (t : Ty) (rm : Rm) (d : Dst) (a b : Src) : Alu := (flt2 h d a b t (fdivV t rm)).timed 14 4

/-! ### Order, signs, classes, rounding (R118 to R122) -/

def aluFmin (h : Hdr) (t : Ty) (d : Dst) (a b : Src) : Alu := (flt2 h d a b t fun _ => fminV t).timed 2 1
def aluFmax (h : Hdr) (t : Ty) (d : Dst) (a b : Src) : Alu := (flt2 h d a b t fun _ => fmaxV t).timed 2 1
def aluFabs (h : Hdr) (t : Ty) (d : Dst) (a : Src) : Alu := (flt1 h d a t fun _ => fabsV t).timed 2 1
def aluFneg (h : Hdr) (t : Ty) (d : Dst) (a : Src) : Alu := (flt1 h d a t fun _ => fnegV t).timed 2 1
def aluFcmp (h : Hdr) (t : Ty) (cond : FCond) (kd : Pred) (a b : Src) : Alu :=
  { h := h, uses := { srcs := one [a, b], kds := [kd], lat := 2 }
    eval := fun s e _ =>
      { kd := some (kd, fcmpV t cond ((rdWord s e h a).toNat % 2 ^ t.bits) ((rdWord s e h b).toNat % 2 ^ t.bits)) } }
def aluFclass (h : Hdr) (t : Ty) (d : Dst) (a : Src) : Alu := (flt1 h d a t fun _ => fclassV t).timed 2 1
def aluFcpsg (h : Hdr) (t : Ty) (d : Dst) (a b : Src) : Alu := (flt2 h d a b t fun _ => fcpsgV t).timed 2 1
def aluFrnd (h : Hdr) (t : Ty) (rm : Rm) (d : Dst) (a : Src) : Alu := (flt1 h d a t fun _ => frndV t rm).timed 3 1

/-! ### Conversions (R123 to R128) -/

def natOut (r : Nat × Bool) : DWord × Bool := (BitVec.ofNat 64 r.1, r.2)
def aluFcvt (h : Hdr) (dt st : Ty) (rm : Rm) (sat : Bool) (d : Dst) (a : Src) : Alu :=
  conv1 h false d a fun x => natOut (fcvtV dt st rm sat (x.toNat % 2 ^ st.bits))
def aluF2i (h : Hdr) (dt st : Ty) (rm : Rm) (d : Dst) (a : Src) : Alu :=
  conv1 h dt.is64 d a fun x =>
    let r := toIntV st rm (tyMin dt) (tyMax dt) (x.toNat % 2 ^ st.bits)
    (wrInt dt r.1, r.2)
def aluI2f (h : Hdr) (dt st : Ty) (rm : Rm) (d : Dst) (a : Src) : Alu :=
  { h := h, uses := { srcs := wide st.is64 [a], dsts := [(d, 1)], lat := 3 }
    eval := fun s e _ =>
      let r := i2fV dt rm (rdInt st (rdVal s e h st a))
      { d := d, v := BitVec.ofNat 64 r.1, sat := r.2 } }
/-- The rows of R127. -/
def tcvtV (dt st : Ty) (rm : Rm) (a b : Word) : DWord × Bool :=
  let clampTo := fun (lim lo : Int) (x : Int) => clamp lo lim x
  match dt, st with
  | .t1, .s8 =>
    let el := ((List.range 4).map fun i => (byteAt a i).toInt) ++ [(byteAt b 0).toInt]
    let r := el.map (clampTo 1 (-1))
    ((tritCode (r.map (·.1))).setWidth 64, r.any (·.2))
  | .s8, .t1 =>
    let r := trits5 (byteAt a 0)
    let at_ := fun i => BitVec.ofInt 8 (r.1.getD i 0)
    ((if b.getLsbD 0 then ofBytes4 (at_ 4) 0 0 0 else ofBytes4 (at_ 0) (at_ 1) (at_ 2) (at_ 3)).setWidth 64, r.2)
  | .t5, .s32 => let r := clampTo 121 (-121) a.toInt; (BitVec.ofInt 64 (r.1 + 121), r.2)
  | .t5, _ => let r := toIntV .f32 rm (-121) 121 a.toNat; (BitVec.ofInt 64 (r.1 + 121), r.2)
  | .s32, .t5 => let r := t5Value (byteAt a 0); (wrInt .s32 r.1, r.2)
  | .f32, .t5 => let r := t5Value (byteAt a 0); (BitVec.ofNat 64 (i2fV .f32 .rne r.1).1, r.2)
  | .t11, .s32 => let r := clampTo 32767 (-32768) a.toInt; ((BitVec.ofInt 16 r.1).setWidth 64, r.2)
  | .t11, _ => let r := toIntV .f32 rm (-32768) 32767 a.toNat; ((BitVec.ofInt 16 r.1).setWidth 64, r.2)
  | .s32, _ => (wrInt .s32 (halfAt a 0).toInt, false)
  | _, _ => (BitVec.ofNat 64 (i2fV .f32 .rne (halfAt a 0).toInt).1, false)
def aluTcvt (h : Hdr) (dt st : Ty) (rm : Rm) (d : Dst) (a : Src) (b : Option Src) : Alu := (conv2 h d a b (tcvtV dt st rm)).timed 3 1
def bxalV (op : BxOp) (a b : Word) : DWord × Bool :=
  let e := (byteAt b 0).toNat
  let man := fun (r : Int × Bool) => ((BitVec.ofInt 8 r.1).setWidth 64, r.2)
  match op with
  | .expA => natOut (bxalExp 127 a.toNat)
  | .expB => natOut (bxalExp 121 a.toNat)
  | .manA => man (bxalMan 127 a.toNat e)
  | .manB => man (bxalMan 121 a.toNat e)
  | .dec => natOut (bxalDec (byteAt a 0).toInt e)
def aluBxal (h : Hdr) (op : BxOp) (d : Dst) (a : Src) (b : Option Src) : Alu := (conv2 h d a b (bxalV op)).timed 3 1

/-! ### Functions (R129 to R132) -/

/-- The latency of a function by grade; the accurate grade holds the function unit for four cycles (R131). -/
def fnTime (acc : Bool) (fast accurate : Nat) (a : Alu) : Alu := if acc then a.timed accurate 4 else a.timed fast 1
def aluFexp2 (h : Hdr) (t : Ty) (acc : Bool) (d : Dst) (a : Src) : Alu := fnTime acc 6 18 (flt1 h d a t (fnV .exp2 t acc .rne))
def aluFlog2 (h : Hdr) (t : Ty) (acc : Bool) (d : Dst) (a : Src) : Alu := fnTime acc 6 18 (flt1 h d a t (fnV .log2 t acc .rne))
def aluFrcp (h : Hdr) (t : Ty) (acc : Bool) (rm : Rm) (d : Dst) (a : Src) : Alu := fnTime acc 6 14 (flt1 h d a t (fnV .rcp t acc rm))
def aluFrsqrt (h : Hdr) (t : Ty) (acc : Bool) (d : Dst) (a : Src) : Alu := fnTime acc 6 14 (flt1 h d a t (fnV .rsqrt t acc .rne))
def aluFsqrt (h : Hdr) (t : Ty) (acc : Bool) (rm : Rm) (d : Dst) (a : Src) : Alu := fnTime acc 6 14 (flt1 h d a t (fnV .sqrt t acc rm))
def aluFsin (h : Hdr) (t : Ty) (acc : Bool) (d : Dst) (a : Src) : Alu := fnTime acc 8 24 (flt1 h d a t (fnV .sin t acc .rne))
def aluFcos (h : Hdr) (t : Ty) (acc : Bool) (d : Dst) (a : Src) : Alu := fnTime acc 8 24 (flt1 h d a t (fnV .cos t acc .rne))
def aluFtanh (h : Hdr) (t : Ty) (acc : Bool) (d : Dst) (a : Src) : Alu := fnTime acc 8 22 (flt1 h d a t (fnV .tanh t acc .rne))
def aluFsigm (h : Hdr) (t : Ty) (acc : Bool) (d : Dst) (a : Src) : Alu := fnTime acc 8 22 (flt1 h d a t (fnV .sigm t acc .rne))
def aluFerf (h : Hdr) (t : Ty) (acc : Bool) (d : Dst) (a : Src) : Alu := fnTime acc 8 22 (flt1 h d a t (fnV .erf t acc .rne))

/-! ### Issue -/

def execFadd (h : Hdr) (t : Ty) (rm : Rm) (d : Dst) (a b : Src) (s : State) : Answer := .next (runAlu (aluFadd h t rm d a b) s)
def execFsub (h : Hdr) (t : Ty) (rm : Rm) (d : Dst) (a b : Src) (s : State) : Answer := .next (runAlu (aluFsub h t rm d a b) s)
def execFmul (h : Hdr) (t : Ty) (rm : Rm) (d : Dst) (a b : Src) (s : State) : Answer := .next (runAlu (aluFmul h t rm d a b) s)
def execFma (h : Hdr) (t : Ty) (rm : Rm) (d : Dst) (a b c : Src) (s : State) : Answer :=
  .next (runAlu (aluFma h t rm d a b c) s)
def execFdiv (h : Hdr) (t : Ty) (rm : Rm) (d : Dst) (a b : Src) (s : State) : Answer := .next (runAlu (aluFdiv h t rm d a b) s)
def execFmin (h : Hdr) (t : Ty) (d : Dst) (a b : Src) (s : State) : Answer := .next (runAlu (aluFmin h t d a b) s)
def execFmax (h : Hdr) (t : Ty) (d : Dst) (a b : Src) (s : State) : Answer := .next (runAlu (aluFmax h t d a b) s)
def execFabs (h : Hdr) (t : Ty) (d : Dst) (a : Src) (s : State) : Answer := .next (runAlu (aluFabs h t d a) s)
def execFneg (h : Hdr) (t : Ty) (d : Dst) (a : Src) (s : State) : Answer := .next (runAlu (aluFneg h t d a) s)
def execFcmp (h : Hdr) (t : Ty) (cond : FCond) (kd : Pred) (a b : Src) (s : State) : Answer :=
  .next (runAlu (aluFcmp h t cond kd a b) s)
def execFclass (h : Hdr) (t : Ty) (d : Dst) (a : Src) (s : State) : Answer := .next (runAlu (aluFclass h t d a) s)
def execFcpsg (h : Hdr) (t : Ty) (d : Dst) (a b : Src) (s : State) : Answer := .next (runAlu (aluFcpsg h t d a b) s)
def execFrnd (h : Hdr) (t : Ty) (rm : Rm) (d : Dst) (a : Src) (s : State) : Answer := .next (runAlu (aluFrnd h t rm d a) s)
def execFcvt (h : Hdr) (dt st : Ty) (rm : Rm) (sat : Bool) (d : Dst) (a : Src) (s : State) : Answer :=
  .next (runAlu (aluFcvt h dt st rm sat d a) s)
def execF2i (h : Hdr) (dt st : Ty) (rm : Rm) (d : Dst) (a : Src) (s : State) : Answer :=
  .next (runAlu (aluF2i h dt st rm d a) s)
def execI2f (h : Hdr) (dt st : Ty) (rm : Rm) (d : Dst) (a : Src) (s : State) : Answer :=
  .next (runAlu (aluI2f h dt st rm d a) s)
def execTcvt (h : Hdr) (dt st : Ty) (rm : Rm) (d : Dst) (a : Src) (b : Option Src) (s : State) : Answer :=
  .next (runAlu (aluTcvt h dt st rm d a b) s)
def execBxal (h : Hdr) (op : BxOp) (d : Dst) (a : Src) (b : Option Src) (s : State) : Answer :=
  .next (runAlu (aluBxal h op d a b) s)
def execFexp2 (h : Hdr) (t : Ty) (acc : Bool) (d : Dst) (a : Src) (s : State) : Answer :=
  .next (runAlu (aluFexp2 h t acc d a) s)
def execFlog2 (h : Hdr) (t : Ty) (acc : Bool) (d : Dst) (a : Src) (s : State) : Answer :=
  .next (runAlu (aluFlog2 h t acc d a) s)
def execFrcp (h : Hdr) (t : Ty) (acc : Bool) (rm : Rm) (d : Dst) (a : Src) (s : State) : Answer :=
  .next (runAlu (aluFrcp h t acc rm d a) s)
def execFrsqrt (h : Hdr) (t : Ty) (acc : Bool) (d : Dst) (a : Src) (s : State) : Answer :=
  .next (runAlu (aluFrsqrt h t acc d a) s)
def execFsqrt (h : Hdr) (t : Ty) (acc : Bool) (rm : Rm) (d : Dst) (a : Src) (s : State) : Answer :=
  .next (runAlu (aluFsqrt h t acc rm d a) s)
def execFsin (h : Hdr) (t : Ty) (acc : Bool) (d : Dst) (a : Src) (s : State) : Answer := .next (runAlu (aluFsin h t acc d a) s)
def execFcos (h : Hdr) (t : Ty) (acc : Bool) (d : Dst) (a : Src) (s : State) : Answer := .next (runAlu (aluFcos h t acc d a) s)
def execFtanh (h : Hdr) (t : Ty) (acc : Bool) (d : Dst) (a : Src) (s : State) : Answer :=
  .next (runAlu (aluFtanh h t acc d a) s)
def execFsigm (h : Hdr) (t : Ty) (acc : Bool) (d : Dst) (a : Src) (s : State) : Answer :=
  .next (runAlu (aluFsigm h t acc d a) s)
def execFerf (h : Hdr) (t : Ty) (acc : Bool) (d : Dst) (a : Src) (s : State) : Answer := .next (runAlu (aluFerf h t acc d a) s)

end Sys2Proof.Machine
end

