-- ==== Sys2Proof/Machine/Fabric.lean ====
section
/-!
DEFINITION. The fabric (R374 to R388): routes, bindings and flits, remote memory access from both ends, mirrors of tokens, and
the loss of a device.
-/
namespace Sys2Proof.Machine

/-! ### Ports, routes, bindings (R375 to R380) -/

def State.port (s : State) (n : Nat) : Port := (s.fab.ports.look n).getD {}
def State.setPort (s : State) (n : Nat) (p : Port) : State := { s with fab := { s.fab with ports := s.fab.ports.put n p } }
def State.route (s : State) (p d : Nat) : Nat := s.fab.routes.get 0 (p * 1024 + d)
def Port.live (p : Port) : Bool := p.up && p.enabled
/-- The ports of a route that are up and that the partition still has (R331). -/
def State.upPorts (s : State) (p d : Nat) : List Nat := (List.range 48).filter fun n =>
  (s.route p d).testBit n && (s.port n).live && (s.parts.look p).any fun x => x.pnbp.getLsbD n
def State.bind? (s : State) (d w : Nat) : Option Bind := s.fab.binds.find? fun b => b.dev == d && b.world == w
def State.lostTo (s : State) (p d : Nat) : Bool := s.fab.lost.contains (p, d)
def ctrKey (port slot : Nat) (rx : Bool) : Nat := (port * 512 + slot) * 2 + rx.toNat
/-- The next counter to send under a slot on a port; the last value is never sent (R378). -/
def State.txCtr (s : State) (port slot : Nat) : Nat := s.fab.ctrs.get 1 (ctrKey port slot false)
def ctrLast : Nat := 2 ^ 64 - 1
/-- The port for a message to a device for a line (R379). -/
def State.pickPort (s : State) (p d va : Nat) : Option Nat :=
  let up := s.upPorts p d
  up[(lineHash va ^^^ d) * up.length / 65536]?
/-- A flit for a line leaves on a port and stays in its replay buffer (R376, R377). -/
def sendFlit (s : State) (port dest slot vc va : Nat) (m : Msg) : State :=
  let p := s.port port
  let k := ctrKey port slot false
  let ctr := s.fab.ctrs.get 1 k
  let f : Flit := { dest := dest, src := s.fab.devno, key := if vc = 3 then 0 else slot, seq := p.txSeq, vc := vc,
                    ctr := ctr, msg := m, good := true }
  let s := s.setPort port { p with txSeq := (p.txSeq + 1) % 4096, replay := (p.replay ++ [(va, f)]).drop (p.replay.length + 1 - 64) }
  { s with fab := { s.fab with ctrs := if vc = 3 then s.fab.ctrs else s.fab.ctrs.set 1 k (ctr + 1) }
           outbox := s.outbox ++ [.flit port f] }
/-- Loss timers run for the devices whose route has ports and none that is up (R386). -/
def noteTimers (s : State) : State :=
  s.fab.routes.foldl (fun s e =>
    let live := !(s.upPorts (e.1 / 1024) (e.1 % 1024)).isEmpty
    { s with fab := { s.fab with timers :=
        if live then s.fab.timers.del e.1 else if s.fab.timers.has e.1 then s.fab.timers else s.fab.timers.put e.1 s.ioclk } }) s
/-- Flits of a port leave again, bit for bit as before (R377). -/
def replayFlits (s : State) (port : Nat) (l : List Flit) : State :=
  let p := s.port port
  { (s.setPort port { p with replays := min 65535 (p.replays + l.length) }) with outbox := s.outbox ++ l.map (.flit port) }
/-- The flits of a port that is down, in order: those whose line another port takes over leave there, as new flits of that port under its
own counter (log 36); the others stay in the port's buffer until it, or another port of their route, is up (R379). -/
def takeOver (s : State) (port : Nat) : State :=
  let p := s.port port
  p.replay.foldl (fun s (va, f) =>
    let q := (s.keys.look f.key).bind fun k => (s.worlds.look k.world).bind fun x => s.pickPort x.part f.dest va
    match q.filter fun q => f.vc < 3 && s.txCtr q f.key < ctrLast with
    | some q =>
      let s := sendFlit s q f.dest f.key f.vc va f.msg
      s.setPort q { s.port q with replays := min 65535 ((s.port q).replays + 1) }
    | none => s.setPort port { s.port port with replay := (s.port port).replay ++ [(va, f)] }) (s.setPort port { p with replay := [] })
/-- A port goes down; the flits that the other end has not acknowledged are replayed on the ports that take over (R377, R379). Which
those are is free, for an acknowledgement does not show (log 36). -/
def portDown (s : State) (port : Nat) : State :=
  let p := s.port port
  let acked := if p.live then Config.choose s.tick port % (p.replay.length + 1) else 0
  takeOver (noteTimers (s.setPort port { p with up := false, bad := 0, replay := p.replay.drop acked })) port
/-- A port comes up: what stands in its buffer leaves again, and other ports' flits that it takes over; a lost device with a new route is
reached again (R379, R386). -/
def portUp (s : State) (port : Nat) : State :=
  let p := s.port port
  let s := s.setPort port { p with up := true, bad := 0 }
  let s := if p.up then s else replayFlits s port (p.replay.map (·.2))
  let s := (List.range 48).foldl (fun s n => if (s.port n).live then s else takeOver s n) (noteTimers s)
  let back := fun (e : Nat × Nat) => s.fab.again.contains e && !(s.upPorts e.1 e.2).isEmpty
  { s with fab := { s.fab with lost := s.fab.lost.filter (!back ·), again := s.fab.again.filter (!back ·) } }
/-- A flit leaves, and the far end may reject it some times, which is free (log 36): the sender replays it bit for bit, and the
sixteenth failure in a row takes the port down (R377). -/
def sendOn (s : State) (port dest slot vc va : Nat) (m : Msg) : State :=
  let s := sendFlit s port dest slot vc va m
  let n := Config.choose s.tick (2 ^ 70 + port) % 17
  let s := replayFlits s port (List.replicate (min n 15) ((s.port port).replay.getLast?.map (·.2)).toList).flatten
  if n = 16 then portDown (s.setPort port { s.port port with dead := true }) port else s
/-- A message of a world to a device, on the port its line selects; nothing where no port is up or the slot's counter is spent. -/
def sendMsg (s : State) (w d va vc : Nat) (m : Msg) : State :=
  match (s.worlds.look w).map (·.part), s.bind? d w with
  | some p, some b => match s.pickPort p d va with
    | some port => if s.txCtr port b.slot < ctrLast then sendOn s port d b.slot vc va m else s
    | none => s
  | _, _ => s

/-! ### Issue of a remote access (R382, R383) -/

def remRmw (r : RemReq) : Option Rmw :=
  match r.kind with
  | .atom op => some (.int op r.ty r.data)
  | .cas => some (.cas r.ty r.data r.data2)
  | .atomf op => some (.flt op r.ty (r.data.setWidth 32))
  | _ => none
def remAcc : RemKind → Acc
  | .load => .load
  | .store => .store
  | _ => .atomic
/-- R140 against the mirror that covers an address of a device. -/
def mirrorCheck (s : State) (d w : Nat) (a : Word) (va : Nat) (k : Acc) : Option (BitVec 6) :=
  let hit := fun (t : Token) => t.mirror == some d && t.world == w && decide (t.base ≤ va ∧ va < t.base + 2 ^ t.n)
  let held := (((s.die 0).tokens.find? hit).or ((s.die 1).tokens.find? hit)).bind fun t =>
    if t.mode == .write then t.heldBy a else some t.mode
  match k, held with
  | .load, _ | .watch, _ | .fetch, _ => none
  | .store, some .write => none
  | .store, some _ => some 0x07
  | .atomic, some .rs | .ring, some .rs => some 0x07
  | .atomic, some _ | .ring, some _ => none
  | _, none => some 0x06
def remId (c op : Nat) : Nat := c * 2 ^ 48 + op
/-- A remote access of a thread: the checks at issue, then the request; the thread waits for its answer. -/
def remoteAct (m : MMod) (k : RemKind) (ty : Ty) (cls : Cls) (h : Hdr) (a c : Src) (d : Dst) (data : State → Env → DWord × DWord)
    (e : Env) (pc : DWord) (s : State) : Res :=
  let w := s.actWorld e.c e.t
  let dv := (rdWord s e h c).toNat
  let va := addrOf s e h .g a
  let n := ty.bits / 8
  if s.count e.c e.t cls ≥ 63 then .wait s (.retry (.room cls))
  else if dv ≥ 1024 then raise s 0x05 (BitVec.ofNat 64 va)
  else if va % n ≠ 0 then raise s 0x03 (BitVec.ofNat 64 va)
  else if dv ≥ 576 ∨ dv = s.fab.devno ∨ s.fab.devno = 1023 then raise s 0x05 (BitVec.ofNat 64 va)
  else match s.bind? dv w, (s.worlds.look w).map (·.part) with
    | some b, some p =>
      match if s.lostTo p dv then none else s.pickPort p dv va with
      | none => raise s 0x16 (BitVec.ofNat 64 va)
      | some port =>
        if !keyOk s b.slot w 3 ∨ s.txCtr port b.slot ≥ ctrLast then raise s 0x08 (BitVec.ofNat 64 va)
        else match mirrorCheck s dv w (s.agentId e.c e.t) va (remAcc k) with
          | some x => raise s x (BitVec.ofNat 64 va)
          | none =>
            if isRel m.ord && !releaseReady s e.c e.t m.scope then .wait s (.retry (.released m.scope))
            else
              let s := if m.ord == .rlx then s else captureLoads s e.c e.t
              let s := if k == .load then s else irrevocable s e.c e.t
              let v := data s e
              let id := remId e.c (s.ctx e.c).nextOp
              let r : RemReq := { src := s.fab.devno, dest := dv, id := id, world := b.peer, kind := k, va := va, size := n, ty := ty, ord := m.ord,
                                  scope := m.scope, data := v.1, data2 := v.2, pc := pc }
              let s := (addOp s e.c e.t cls pc (.remote r d true none) [] m.evict.toNat e.low).1
              .wait (sendOn s port dv b.slot 0 va (.req r)) (.retry .never)
    | _, _ => raise s 0x08 (BitVec.ofNat 64 va)
def remoteUses (a c : Src) (l : List (Src × Nat)) (d : Dst) (wd : Bool) : Uses := { srcs := (a, 2) :: (c, 1) :: l, dsts := wideD wd d }

def execRld (h : Hdr) (m : MMod) (ty : Ty) (d : Dst) (a c : Src) (s : State) : Answer :=
  .next (perThread .app (remoteUses a c [] d ty.is64) h (remoteAct m .load ty .loads h a c d fun _ _ => (0, 0)) s)
def execRst (h : Hdr) (m : MMod) (ty : Ty) (a b c : Src) (s : State) : Answer :=
  .next (perThread .app (remoteUses a c (wide ty.is64 [b]) .zero false) h
    (remoteAct m .store ty .stores h a c .zero fun s e => (rdVal s e h ty b, 0)) s)
def execRatom (h : Hdr) (m : MMod) (op : AOp) (ty : Ty) (d : Dst) (a b c : Src) (s : State) : Answer :=
  .next (perThread .app (remoteUses a c (wide ty.is64 [b]) d ty.is64) h
    (remoteAct m (.atom op) ty .loads h a c d fun s e => (rdVal s e h ty b, 0)) s)
/-- `rcas` finds the compare value and the new value in consecutive registers. -/
def execRcas (h : Hdr) (m : MMod) (ty : Ty) (d : Dst) (a b c : Src) (s : State) : Answer :=
  .next (perThread .app (remoteUses a c [(b, if ty.is64 then 4 else 2)] d ty.is64) h
    (remoteAct m .cas ty .loads h a c d fun s e =>
      if ty.is64 then (rdWord s e h b 1 ++ rdWord s e h b, rdWord s e h b 3 ++ rdWord s e h b 2)
      else ((rdWord s e h b).setWidth 64, (rdWord s e h b 1).setWidth 64)) s)
def execRatomf (h : Hdr) (m : MMod) (op : FOp) (ty : Ty) (d : Dst) (a b c : Src) (s : State) : Answer :=
  .next (perThread .app (remoteUses a c [(b, 1)] d false) h
    (remoteAct m (.atomf op) ty .loads h a c d fun s e => ((rdWord s e h b).setWidth 64, 0)) s)

/-! ### At the target (R383, R384, R388) -/

/-- Steps 3 to 5 of R139 for a line as seen from outside the cores. -/
def homeCheck (s : State) (w who va : Nat) (k : Acc) : Except (BitVec 6) Home :=
  let got : Except (BitVec 6) Home := match if who = w then s.l2? w (lineVa va) else none with
    | some l => .ok { va := lineVa va, pa := some l.pa, who := l.who, perm := l.perm }
    | none => xlate s w who va
  match got with
  | .ok h => if permOk k h.perm then .ok h else .error 0x05
  | .error e => .error e
/-- A remote request is checked and performed; its answer. -/
def serve (s : State) (r : RemReq) : State × RemAns :=
  let w := r.world
  let no := fun (c : BitVec 6) => (s, ({ id := r.id, code := some c, val := 0 } : RemAns))
  if (s.bind? r.src w).isNone ∨ (s.worlds.look w).isNone then no 0x08
  else match homeCheck s w w r.va (remAcc r.kind) with
    | .error c => no c
    | .ok h =>
      let bell := isDoorbell w h
      if bell && !(match remRmw r with | some q => doorOk r.va q | none => false) then no 0x05
      else match tokenStep s w (deviceWord r.src) (h.va + r.va % 128) (remAcc r.kind) h with
      | some c => no c
      | none =>
        if bell then (ring s w (r.va % 4096 / 4), { id := r.id, code := none, val := 0 })
        else
          let s' := fillL2 s w h 3
          let sg := if isRel r.ord then some (BitVec.allOnes 512, true) else none
          match r.kind with
          | .store => (homeWrite s' w 2 h (r.va % 128) (bytesOf r.size r.data.toNat) sg, { id := r.id, code := none, val := 0 })
          | _ =>
            if poisoned s' w r.va r.size [h] then no 0x14
            else
              let old := BitVec.ofNat 64 (natOf (homeBytes s' w r.va r.size [h]))
              match remRmw r with
              | some q => (homeWrite s' w 2 h (r.va % 128) (bytesOf r.size (q.new r.pc old).toNat) sg, { id := r.id, code := none, val := old })
              | none => (s', { id := r.id, code := none, val := old })
def execRemoteRequestArrival (r : RemReq) (s : State) : Answer :=
  let s := { s with fab := { s.fab with remote := s.fab.remote.filter (· != r) } }
  let (s', a) := serve s r
  .next (sendMsg s' r.world r.src r.va 1 (.ans a))

/-! ### The answer (R383, R385, R388) -/

/-- What a remote access writes to its destination. -/
def remoteWrite (s : State) (e : Env) (r : RemReq) (d : Dst) (v : DWord) : State :=
  match remRmw r with
  | some q => wrVal s e q.wide d (q.old v)
  | none => if r.kind == .load then writeLoaded s e r.ty d (bytesOf r.size v.toNat) else s
/-- A reservation of a mirror entry answered: the pass goes on, or the instruction's status is false (R385). -/
def reserveId (w base : Nat) : Nat := 2 ^ 64 + w * 2 ^ 48 + base
def passFails (s : State) (d : Nat) (t : Token) (p : Pass) : State :=
  let s := s.modDie d fun x => { x with tokens := x.tokens.map fun q => if q.base = t.base ∧ q.world = t.world ∧ q.mirror = t.mirror then { q with pending := none } else q }
  (s.ctx p.core).threads.foldl (fun s (n, th) =>
    if th.blk == .pass t.world t.base then
      advanceNext (match p.kd with | some k => wrPred s { c := p.core, t := n } k false | none => s) p.core n
    else s) s
def reserveAnswer (s : State) (a : RemAns) : State :=
  [0, 1].foldl (fun s d => (s.die d).tokens.foldl (fun s t => match t.pending with
    | some p => match p.kind with
      | .reserve dev then_ =>
        if reserveId t.world t.base = a.id then
          match a.code with
          | some _ => passFails s d t p
          | none =>
            let kind := match then_ with
              | none => .lend (deviceWord dev)
              | some none => .share (deviceWord dev)
              | some (some m) => .toShared m (some (deviceWord dev))
            s.modDie d fun x => { x with tokens := x.tokens.map fun q =>
              if q.base = t.base ∧ q.world = t.world ∧ q.mirror = t.mirror then { q with pending := some { p with kind := kind } } else q }
        else s
      | _ => s
    | none => s) s) s
def remoteAnswer (s : State) (a : RemAns) : State :=
  if a.id ≥ 2 ^ 64 then reserveAnswer s a
  else
    let c := a.id / 2 ^ 48
    match s.op? c (a.id % 2 ^ 48) with
    | some o => match o.body with
      | .remote r d sent none =>
        if o.retired.isSome then s.modCtx c fun k => { k with ops := k.ops.filter (·.id != o.id) }
        else match a.code with
        | some x =>
          let s := s.modCtx c fun k => { k with ops := k.ops.filter (·.id != o.id) }
          takeFaults (setBlk s c o.tid .run) c [(o.tid, { code := x, addr := BitVec.ofNat 64 r.va, used := x == 0x14 })]
        | none =>
          let s := s.modOp c o.id fun q => { q with body := .remote r d sent (some a) }
          let s := markHazard s c o.tid (OpBody.hazard (.remote r d sent (some a))) o.low
          let s := if !isAcq r.ord then s
            else if r.scope == .dom || r.scope == .sys then acquireAll s c o.world r.scope
            else if r.scope == .th || r.scope == .grp then s else dropConst s c
          advanceNext s c o.tid
      | .remote r d false (some _) => match a.code with
        | some x => finishOp (failOp s c o x 0 (BitVec.ofNat 64 r.va)) c o.id
        | none => s.modOp c o.id fun q => { q with body := .remote r d true (some a) }
      | _ => s
    | none => s
def execRemoteAnswerArrival (a : RemAns) (s : State) : Answer := .next (remoteAnswer s a)
/-- Completion of an accepted remote access; a y destination is the lowest active member's (R25). -/
def completeRemote (s : State) (c : Nat) (o : Op) : State :=
  match o.body with
  | .remote r d true (some a) => finishOp (if o.gone then s else remoteWrite s { c := c, t := o.tid, low := o.low } r d a.val) c o.id
  | _ => s

/-! ### Mirrors (R385) -/

def tableSize : Nat := 65536
/-- A mirror entry is reserved, or the table is full. -/
def mirrorReserve (s : State) (home base n w : Nat) : State :=
  let d := s.homeDie w base
  let full := (s.die d).tokens.length ≥ tableSize
  let s' := if full then s else
    s.modDie d fun x => { x with tokens := x.tokens ++ [{ base := base, n := n, world := w, owner := 0, mirror := some home }] }
  sendMsg s' w home base 1 (.ans { id := reserveId (((s.bind? home w).map (·.peer)).getD 0) base,
                                   code := if full then some 0x11 else none, val := 0 })
def execMirrorEntryReserve (home base n w : Nat) (s : State) : Answer := .next (mirrorReserve s home base n w)
/-- The receipt of a pass creates the mirror. -/
def mirrorReceipt (s : State) (home base n w : Nat) (mode : TMode) : State :=
  let d := s.homeDie w base
  let t : Token := { base := base, n := n, world := w, mode := mode, owner := stewardWord, mirror := some home,
                     holders := if mode == .write then [] else [stewardWord], count := if mode == .write then 0 else 1 }
  s.modDie d fun x => { x with tokens := (x.tokens.filter fun q => !(q.mirror == some home && q.base == base && q.world == w)) ++ [t] }
def execMirrorReceipt (home base n w : Nat) (mode : TMode) (s : State) : Answer := .next (mirrorReceipt s home base n w mode)

/-! ### Receipt of a flit (R345, R376 to R378) -/

def TMode.ofNat : Nat → TMode
  | 0 => .write
  | 1 => .rs
  | _ => .at
/-- Whether a flit passes the checks of its port. -/
def flitOk (s : State) (port : Nat) (f : Flit) : Bool :=
  f.good && f.dest == s.fab.devno && f.seq == (s.port port).rxSeq &&
    (f.vc == 3 || (f.vc < 3 && f.key != 0 && (match s.keys.look f.key with | some k => k.ports.getLsbD 3 | none => false) &&
      f.ctr > s.fab.ctrs.get 0 (ctrKey port f.key true)))
/-- A flit that fails is discarded and counted; the sixteenth failure in a row takes the port down. -/
def flitFails (s : State) (port : Nat) : State :=
  let p := s.port port
  let s := s.setPort port { p with fails := min 255 (p.fails + 1), bad := p.bad + 1 }
  if p.bad + 1 ≥ 16 then portDown (s.setPort port { s.port port with dead := true }) port else s
def flitTaken (s : State) (port : Nat) (f : Flit) : State :=
  let p := s.port port
  let s := s.setPort port { p with rxSeq := (p.rxSeq + 1) % 4096, bad := 0 }
  if f.vc = 3 then s else { s with fab := { s.fab with ctrs := s.fab.ctrs.set 0 (ctrKey port f.key true) f.ctr } }
/-- The world a flit's key slot belongs to. -/
def flitWorld (s : State) (f : Flit) : Option Nat := (s.keys.look f.key).map (·.world)

end Sys2Proof.Machine
end

