-- ==== Sys2Proof/Machine/Token.lean ====
section
/-!
DEFINITION. Owner tokens (R306 to R318, R385, R413): the instructions of the token class, passes and their receipts, and what
becomes of the rights of an agent that ends.
-/
namespace Sys2Proof.Machine

/-! ### Entries -/

def State.tokens (s : State) : List (Nat × Token) := [0, 1].flatMap fun d => (s.die d).tokens.map fun t => (d, t)
def Token.spans (w va : Nat) (t : Token) : Bool := t.world == w && decide (t.base ≤ va ∧ va < t.base + 2 ^ t.n)
/-- The entry that covers an address, with the die that keeps it; a mirror only where no entry of this device does. -/
def State.entry? (s : State) (w va : Nat) : Option (Nat × Token) :=
  (s.tokens.find? fun e => e.2.mirror.isNone && e.2.spans w va).or (s.tokens.find? fun e => e.2.spans w va)
def sameEntry (t q : Token) : Bool := q.base == t.base && q.world == t.world && q.mirror == t.mirror
def setEntry (s : State) (d : Nat) (t : Token) (v : Option Token) : State :=
  s.modDie d fun x => { x with tokens := x.tokens.filterMap fun q => if sameEntry t q then v else some q }
def addEntry (s : State) (d : Nat) (t : Token) : State := s.modDie d fun x => { x with tokens := x.tokens ++ [t] }
def tableFull (s : State) (d : Nat) : Bool := (s.die d).tokens.length ≥ tableSize
def Token.named (a : Word) (t : Token) : Bool := t.owner == a || t.lender == a || t.holders.contains a
/-- Entries of a world in which an agent has a right. -/
def State.rights (s : State) (a : Word) (w : Nat) : List (Nat × Token) := s.tokens.filter fun e => e.2.world == w && e.2.named a && a != 0
/-- The agent that a pass in flight brings a right. -/
def PassKind.receiver : PassKind → Option Word
  | .lend r | .share r | .toShared _ (some r) => some r
  | _ => none

/-! ### Agents named by identifiers (R307, R310, R312) -/

def wordKind (a : Word) : Nat := (a.extractLsb' 28 3).toNat
def wordCore (a : Word) : Nat := (a.extractLsb' 16 8).toNat
def wordNum (a : Word) : Nat := (a.extractLsb' 0 11).toNat
def wordDev (a : Word) : Option Nat := if deviceWord (wordNum a) = a ∧ wordKind a = 4 then some (wordNum a) else none
/-- A partition's steward core: the lowest core in service that is latched to its steward world (R329). -/
def State.stewardCore (s : State) (p : Nat) : Option Nat := (s.cores.find? fun e => e.2.latch == some p && e.2.inService).map (·.1)
def State.stewardOf (s : State) (w : Nat) : Option Nat := (s.worlds.look w).bind fun x => s.stewardCore x.part
/-- The core of an agent (R307, R310), one that has ended included. -/
def coreOfWord (s : State) (w : Nat) (a : Word) : Option Nat :=
  if a = stewardWord then s.stewardOf w
  else if wordKind a ≤ 2 ∧ a.getLsbD 31 then some (wordCore a)
  else (s.ending.find? (·.2.1 == a)).map (·.1)
/-- Whether an identifier names a live agent of a world on this device. -/
def liveAgent (s : State) (w : Nat) (a : Word) : Bool :=
  if a = stewardWord then true
  else
    let c := wordCore a
    let x := s.ctx c
    let n := wordNum a
    (s.core c).latch == some w &&
      (if a = agentWord c (.unit (.grp n)) then x.groups.has n
       else if a = agentWord c (.unit (.thr n)) then
         (match x.threads.look n with | some th => th.grp.isNone && th.level != .steward && x.lead != some n | none => false)
       else a = agentWord c .lead + BitVec.ofNat 32 n && x.lead == some n)
/-- A receipt (R310): an acquire at scope `pkg` by the receiver on its core. -/
def receipt (s : State) (w : Nat) (rcv : Word) (sig : Sig) : State :=
  match coreOfWord s w rcv with
  | some c => applySig (dropConst s c) c rcv sig true
  | none => s

/-! ### Passes (R310, R312, R313, R318, R385) -/

/-- The rights an agent that ends leaves in an entry, and who receives them (R317). -/
def Token.ends (a : Word) (sig : Sig) (taint : Bool) (t : Token) : Token × Option Word :=
  if !t.named a then (t, none)
  else
    let t' := { t with taint := t.taint || taint }
    if t.mode == .write then
      if t.owner = a then
        if t.lender = 0 then ({ t' with owner := stewardWord, sig := sig }, some stewardWord)
        else ({ t' with owner := t.lender, lender := 0, sig := sig }, some t.lender)
      else ({ t' with lender := stewardWord }, none)
    else if t.owner = a then
      let had := t.holders.contains stewardWord
      ({ t' with owner := stewardWord, holders := if had then t.holders.erase a else t.holders.map fun h => if h = a then stewardWord else h
                 count := if had then t.count - 1 else t.count }, some stewardWord)
    else ({ t' with holders := t.holders.erase a, count := t.count - 1 }, none)
def endRight (s : State) (e : Nat × Token) (a : Word) (sig : Sig) (taint : Bool) : State :=
  let (t', rcv) := e.2.ends a sig taint
  let s := setEntry s e.1 e.2 (some t')
  match rcv with
  | some r => receipt s t'.world r sig
  | none => s
/-- Whether a pass is a release at scope `dom`: it takes a right to another device, or home (R385). -/
def PassKind.far (k : PassKind) : Bool := k == .home || k.receiver.any fun r => (wordDev r).isSome
/-- What was accepted before the issue of a pass is held: the agent's copies, and as a release at scope `pkg` has it the `g` stores and
atomics of its core, and at `dom` the agent's remote ones (R288, R310, R385, R388). -/
def passReady (s : State) (p : Pass) : Bool :=
  (match p.kind with | .reserve _ _ => false | _ => true) &&
  (s.ctx p.core).ops.all fun o => o.done || o.id ≥ p.upto || (match o.body with
    | .store .g .. => false
    | .rmw .g _ _ _ _ _ _ val => val.isSome && o.agent != p.by_
    | .copy _ => o.agent != p.by_
    | .remote r _ _ _ => o.agent != p.by_ || !p.kind.far || r.kind == .load
    | _ => true)
/-- The entry after a pass, and its receiver. -/
def Token.passed (t : Token) (p : Pass) (sig : Sig) : Option Token × Option Word :=
  let t' := { t with sig := sig, pending := none }
  match p.kind with
  | .lend rcv => (some { t' with owner := rcv, lender := p.by_ }, some rcv)
  | .ret => (some { t' with owner := t.lender, lender := 0 }, some t.lender)
  | .share rcv => (some (if t.holders.contains rcv then t' else { t' with holders := t.holders ++ [rcv], count := t.count + 1 }), some rcv)
  | .toShared m none => (some { t' with mode := m, holders := [p.by_], count := 1 }, none)
  | .toShared m (some rcv) => (some { t' with mode := m, holders := [p.by_, rcv], count := 2 }, some rcv)
  | .drop | .home => (none, none)
  | .unshare => (some { t' with holders := t.holders.erase p.by_, count := t.count - 1 }, none)
  | .reserve _ _ => (some t, none)
/-- The commit of a pass, its receipt, and the end of the instruction that waits. A receiver that has ended receives under its
name of an ended agent, and what it received passes on with its other rights (R318). -/
def commitPass (s : State) (d : Nat) (t : Token) (p : Pass) : State :=
  let sig := carried s p.core p.sgn
  let (v, rcv) := t.passed p sig
  let s := setEntry s d t v
  let s := match v, rcv with
    | some v, some r => match wordDev r with
      | some dev =>
        if (s.worlds.look t.world).any (fun (x : World) => s.lostTo x.part dev) then endRight s (d, v) r sig true
        else match s.bind? dev t.world with
        | some b => sendMsg s t.world dev t.base 0 (.token s.fab.devno t.base t.n v.mode.ctorIdx b.peer)
        | none => s
      | none => receipt s t.world r sig
    | _, _ => s
  let s := match p.kind, t.mirror with
    | .home, some dev => match s.bind? dev t.world with
      | some b => sendMsg s t.world dev t.base 0 (.tokenHome t.base t.n b.peer)
      | none => s
    | _, _ => s
  (s.ctx p.core).threads.foldl (fun s (n, th) =>
    if th.blk == .pass t.world t.base then
      advanceNext (match p.kd with | some k => wrPred s { c := p.core, t := n } k true | none => s) p.core n
    else s) s
def execTokenPassCommit (w base : Nat) (s : State) : Answer :=
  match s.tokens.find? fun e => e.2.world == w && e.2.base == base && e.2.pending.any (passReady s) with
  | some (d, t) => match t.pending with
    | some p => .next (commitPass s d t p)
    | none => .next s
  | none => .next s

/-- An ended agent's rights pass on once its stores and copies are held or have failed (R317). -/
def agentQuiet (s : State) (c : Nat) (a : Word) : Bool := (s.ctx c).ops.all fun o => o.done || o.agent != a || (match o.body with
  | .store .. | .rmw .. | .copy _ | .remote .. => false
  | _ => true)
def endsNow (s : State) (c : Nat) (a : Word) (w : Nat) (taint : Bool) : State :=
  let sig := carried s c a
  let s := (s.rights a w).foldl (fun s e => endRight s e a sig taint) s
  setSig { s with ending := s.ending.filter fun e => !(e.1 == c && e.2.1 == a) } c a (0, 0)
/-- Whether an ended agent's rights can pass on: nothing of it is on its way, and no pass of its entries, or to it, is in flight
(R317, R318). -/
def endsReady (s : State) (c : Nat) (a : Word) (w : Nat) : Bool :=
  agentQuiet s c a && (s.rights a w).all (fun e => e.2.pending.isNone) &&
    s.tokens.all fun e => !(e.2.pending.any fun p => p.kind.receiver == some a)
def execAgentEndRights (a : Word) (w : Nat) (taint : Bool) (s : State) : Answer :=
  match s.ending.find? fun e => e.2 == (a, w, taint) with
  | some (c, _) => if endsReady s c a w then .next (endsNow s c a w taint) else .next s
  | none => .next s

/-- The rights of a thread that joins a group (R413). -/
def Token.moves (a g : Word) (sig : Sig) (t : Token) : Token :=
  let had := t.holders.contains g && t.holders.contains a
  { t with owner := if t.owner = a then g else t.owner, lender := if t.lender = a then g else t.lender
           holders := if had then t.holders.erase a else t.holders.map fun h => if h = a then g else h
           count := if had then t.count - 1 else t.count, sig := sig }
/-- The rights move in one step; a right on its way to the thread goes to the group. -/
def moveRights (s : State) (c w : Nat) (a g : Word) : State :=
  let sig := carried s c a
  let l := s.rights a w
  let s := l.foldl (fun s e => setEntry s e.1 e.2 (some (e.2.moves a g sig))) s
  let s := s.tokens.foldl (fun s e => if e.2.world == w && e.2.pending.any fun p => p.kind.receiver == some a then
    setEntry s e.1 e.2 (some (e.2.rename fun v => if v = a then g else v)) else s) s
  if l.isEmpty then s else applySig (dropConst s c) c g sig true

/-! ### The instructions (R308 to R315) -/

/-- A command on a line in the window of R337 raises nothing and waits for nothing: whether it acts, where it could, and the status it
writes are free (R407, log 32). -/
def windowed (s : State) (e : Env) (ts : List Nat) (w va : Nat) (kd : Option Pred) (r : Res) : Res :=
  if !windowLine s w va then r
  else
    let s' := match r with
      | .done t => if Config.choose s.tick (2 ^ 71 + va) % 2 = 0 then t else s
      | _ => s
    .done (match kd with
      | some k => ts.foldl (fun q t => wrPred q { c := e.c, t := t } k ((s.free (2 ^ 57 + t)).getLsbD 0)) s'
      | none => s')
/-- A token command of a bundle, and the address it names (R216, R309): irrevocable, unless it faults or waits. -/
def tokenCmd (u : Uses) (h : Hdr) (at_ : State → Env → Nat) (kd : Option Pred) (act : Env → List Nat → Nat → Word → State → Res) (s : State) : State :=
  perBundle .app u h (fun e _ ts s =>
    let w := s.actWorld e.c e.t
    windowed s e ts w (at_ s e) kd (act e ts w (s.agentId e.c e.t) s)) s
def setKd (s : State) (c : Nat) (ts : List Nat) (k : Pred) (b : Bool) : State := ts.foldl (fun s t => wrPred s { c := c, t := t } k b) s
def tokenUses (a : Src) (l : List Src) : Uses := { srcs := (a, 2) :: one l }
/-- The status of a command that completes at once. -/
def answerKd (s : State) (e : Env) (ts : List Nat) (k : Pred) (b : Bool) : Res := .done (setKd (irrevocable s e.c e.t) e.c ts k b)
/-- The entry of a command: absent, or pending (R309). -/
def withEntry (s : State) (w va : Nat) (f : Nat → Token → Res) : Res :=
  match s.entry? w va with
  | none => raise s 0x06 (BitVec.ofNat 64 va)
  | some (d, t) => if t.pending.isSome then .wait s (.retry (.token w t.base)) else f d t
/-- The issue of a pass; the bundle waits for its commit. -/
def startPass (s : State) (e : Env) (a : Word) (d : Nat) (t : Token) (k : PassKind) (kd : Option Pred) : Res :=
  let s := irrevocable s e.c e.t
  let p : Pass := { by_ := a, sgn := s.sigId e.c e.t, core := e.c, kind := k, upto := (s.ctx e.c).nextOp, kd := kd }
  let s := setEntry s d t (some { t with pending := some p })
  let s := match k with
    | .reserve dev _ => match s.bind? dev t.world with
      | some b => sendMsg s t.world dev t.base 0 (.reserve s.fab.devno t.base t.n b.peer)
      | none => s
    | _ => s
  .wait s (.pass t.world t.base)
/-- Whether a device can take a right in a region: its world is bound to the device, and the region is of this one (R385). -/
def devTakes (s : State) (t : Token) (dev : Nat) : Bool :=
  t.mirror.isNone && (s.bind? dev t.world).isSome && (match (s.worlds.look t.world).map (·.part) with
    | some p => !s.lostTo p dev && !(s.upPorts p dev).isEmpty
    | none => false)

def claimMode (t : Token) (a : Word) (mode : TMode) : Token :=
  { t with owner := a, mode := mode, holders := if mode == .write then [] else [a], count := if mode == .write then 0 else 1, taint := false }
def claimCheck (s : State) (e : Env) (w va n : Nat) (mode : TMode) : Option Raise :=
  if n < 12 ∨ n > 30 then some { code := 0x01 }
  else if va % 2 ^ n ≠ 0 then some { code := 0x03, addr := BitVec.ofNat 64 va }
  else match lineCheck s e.c w va (if mode == .rs then .load else .store) with
    | .error x => some { code := x, addr := BitVec.ofNat 64 va }
    | .ok _ => none
/-- A mirror is taken in WRITE mode, and only where it is a WRITE mirror (R385). -/
def execOwnClaim (h : Hdr) (mode : TMode) (taint : Bool) (kd : Pred) (a b : Src) (s : State) : Answer :=
  .next (tokenCmd (tokenUses a [b]) h (fun s e => (rdPair s e h a).toNat) (some kd) (fun e ts w ag s =>
    let va := (rdPair s e h a).toNat
    let n := (rdWord s e h b).toNat
    match claimCheck s e w va n mode with
    | some r => .fail s r
    | none =>
      let meets := fun (x : Nat × Token) => x.2.world == w && rangesMeet x.2.base (2 ^ x.2.n) va (2 ^ n)
      let own := s.tokens.filter fun x => meets x && x.2.mirror.isNone
      match if own.isEmpty then s.tokens.filter meets else own with
      | [] =>
        let d := s.homeDie w va
        if tableFull s d then answerKd s e ts kd false
        else
          let s := addEntry s d (claimMode { base := va, n := n, world := w, owner := ag } ag mode)
          let s := dropConst (dropL1 s e.c fun _ => true) e.c
          let s := s.modDie (dieOf e.c) fun x => { x with far := x.far.filter (·.world != w) }
          answerKd s e ts kd true
      | [(d, t)] =>
        if t.base = va ∧ t.n = n ∧ t.lender = 0 ∧ t.pending.isNone ∧ (t.mirror.isNone ∨ (t.mode = .write ∧ mode = .write)) ∧
            ((t.owner = stewardWord ∧ t.count ≤ 1 ∧ (!t.taint || taint)) ∨ (t.owner = ag ∧ t.mode ≠ .write ∧ t.count = 1)) then
          answerKd (receipt (setEntry s d t (some (claimMode t ag mode))) w ag t.sig) e ts kd true
        else answerKd s e ts kd false
      | _ => answerKd s e ts kd false) s)

def execOwnLend (h : Hdr) (kd : Pred) (a b : Src) (s : State) : Answer :=
  .next (tokenCmd (tokenUses a [b]) h (fun s e => addrOf s e h .g a) (some kd) (fun e ts w ag s =>
    let va := addrOf s e h .g a
    let rcv := rdWord s e h b
    withEntry s w va fun d t =>
      if t.owner ≠ ag then raise s 0x06 (BitVec.ofNat 64 va)
      else if t.mode ≠ .write ∨ t.lender ≠ 0 then raise s 0x07 (BitVec.ofNat 64 va)
      else match wordDev rcv with
        | some dev => if devTakes s t dev then startPass s e ag d t (.reserve dev none) (some kd) else answerKd s e ts kd false
        | none => if rcv = ag ∨ !liveAgent s w rcv then answerKd s e ts kd false else startPass s e ag d t (.lend rcv) (some kd)) s)
def execOwnRet (h : Hdr) (a : Src) (s : State) : Answer :=
  .next (tokenCmd (tokenUses a []) h (fun s e => addrOf s e h .g a) none (fun e _ w ag s =>
    let va := addrOf s e h .g a
    withEntry s w va fun d t =>
      if t.owner = ag ∧ t.lender ≠ 0 then startPass s e ag d t .ret none
      else if t.owner = ag ∧ t.mirror.isSome ∧ t.mode = .write then startPass s e ag d t .home none
      else raise s 0x06 (BitVec.ofNat 64 va)) s)
def mine (t : Token) (ag : Word) : Bool := t.owner == ag && t.mode == .write && t.lender == 0 && t.mirror.isNone
def execOwnSplit (h : Hdr) (kd : Pred) (a : Src) (s : State) : Answer :=
  .next (tokenCmd (tokenUses a []) h (fun s e => addrOf s e h .g a) (some kd) (fun e ts w ag s =>
    let va := addrOf s e h .g a
    withEntry s w va fun d t =>
      if !mine t ag then raise s 0x07 (BitVec.ofNat 64 va)
      else
        let up := t.base + 2 ^ (t.n - 1)
        let d2 := s.homeDie w up
        if t.n = 12 ∨ tableFull s d2 then answerKd s e ts kd false
        else
          let s := setEntry s d t (some { t with n := t.n - 1 })
          answerKd (addEntry s d2 { t with base := up, n := t.n - 1 }) e ts kd true) s)
def execOwnJoin (h : Hdr) (kd : Pred) (a : Src) (s : State) : Answer :=
  .next (tokenCmd (tokenUses a []) h (fun s e => addrOf s e h .g a) (some kd) (fun e ts w ag s =>
    let va := addrOf s e h .g a
    withEntry s w va fun d t =>
      if !mine t ag then raise s 0x07 (BitVec.ofNat 64 va)
      else
        let lowHalf := t.base / 2 ^ t.n % 2 = 0
        let other := if lowHalf then t.base + 2 ^ t.n else t.base - 2 ^ t.n
        match s.tokens.find? fun x => x.2.mirror.isNone && x.2.world == w && x.2.base == other && x.2.n == t.n with
        | some (d2, q) =>
          if t.n < 30 ∧ q.owner = t.owner ∧ q.mode = t.mode ∧ q.lender = 0 ∧ q.pending.isNone ∧ !t.taint ∧ !q.taint then
            let (dl, tl, du, tu) := if lowHalf then (d, t, d2, q) else (d2, q, d, t)
            let s := setEntry (setEntry s du tu none) dl tl (some { tl with n := tl.n + 1, sig := tl.sig ||| tu.sig })
            answerKd s e ts kd true
          else answerKd s e ts kd false
        | none => answerKd s e ts kd false) s)
/-- The share given by an agent that holds one (R313). -/
def giveShare (s : State) (e : Env) (ts : List Nat) (ag : Word) (d : Nat) (t : Token) (rcv : Word) (kd : Pred) : Res :=
  if t.holders.contains rcv then answerKd s e ts kd true
  else if t.count ≥ 4095 then answerKd s e ts kd false
  else match wordDev rcv with
    | some dev => if devTakes s t dev then startPass s e ag d t (.reserve dev (some none)) (some kd) else answerKd s e ts kd false
    | none => if liveAgent s t.world rcv then startPass s e ag d t (.share rcv) (some kd) else answerKd s e ts kd false
def execOwnShare (h : Hdr) (mode : TMode) (kd : Pred) (a b : Src) (s : State) : Answer :=
  .next (tokenCmd (tokenUses a [b]) h (fun s e => addrOf s e h .g a) (some kd) (fun e ts w ag s =>
    let va := addrOf s e h .g a
    let rcv := rdWord s e h b
    withEntry s w va fun d t =>
      if t.mode == .write then
        if t.owner ≠ ag ∨ t.lender ≠ 0 ∨ mode = .write then raise s 0x07 (BitVec.ofNat 64 va)
        else if rcv = ag then startPass s e ag d t (.toShared mode none) (some kd)
        else match wordDev rcv with
          | some dev =>
            if devTakes s t dev then startPass s e ag d t (.reserve dev (some (some mode))) (some kd) else answerKd s e ts kd false
          | none => if liveAgent s w rcv then startPass s e ag d t (.toShared mode (some rcv)) (some kd) else answerKd s e ts kd false
      else if !t.holders.contains ag then raise s 0x06 (BitVec.ofNat 64 va)
      else if mode ≠ .write ∧ mode ≠ t.mode then raise s 0x07 (BitVec.ofNat 64 va)
      else giveShare s e ts ag d t rcv kd) s)
def execOwnDrop (h : Hdr) (a : Src) (s : State) : Answer :=
  .next (tokenCmd (tokenUses a []) h (fun s e => addrOf s e h .g a) none (fun e _ w ag s =>
    let va := addrOf s e h .g a
    withEntry s w va fun d t =>
      if t.mirror.isSome then raise s 0x07 (BitVec.ofNat 64 va)
      else if t.mode == .write then
        if t.owner = ag ∧ t.lender = 0 then startPass s e ag d t .drop none else raise s 0x07 (BitVec.ofNat 64 va)
      else if t.owner = ag then
        if t.count = 1 then startPass s e ag d t .drop none else raise s 0x07 (BitVec.ofNat 64 va)
      else if t.holders.contains ag then startPass s e ag d t .unshare none
      else raise s 0x06 (BitVec.ofNat 64 va)) s)

/-- The word of `own.query` (R315). -/
def queryWord (s : State) (w va : Nat) (ag : Word) : Word :=
  match s.entry? w va with
  | none => 3
  | some (_, t) =>
    BitVec.ofNat 32 (t.mode.ctorIdx + 4 * (t.heldBy ag).isSome.toNat + 8 * (t.lender == ag).toNat + 16 * (t.lender != 0).toNat +
      32 * t.taint.toNat + 64 * t.pending.isSome.toNat + 128 * t.n + 4096 * t.count)
def execOwnQuery (h : Hdr) (d : Dst) (a : Src) (s : State) : Answer :=
  .next (perBundle .app { srcs := [(a, 2)], dsts := [(d, 1)] } h (fun e _ ts s =>
    let va := addrOf s e h .g a
    let v := if windowLine s (s.actWorld e.c e.t) va then s.free (2 ^ 57 + va) else queryWord s (s.actWorld e.c e.t) va (s.agentId e.c e.t)
    .done (eachWrite e ts (fun e s => wrWord s e d v) s)) s)
def execOwnQuerySelf (h : Hdr) (d : Dst) (s : State) : Answer :=
  .next (perBundle .app { dsts := [(d, 1)] } h (fun e _ ts s =>
    let v := s.agentId e.c e.t
    .done (eachWrite e ts (fun e s => wrWord s e d v) s)) s)

/-- A token sent home by `own.ret` on a mirror (R385). -/
def tokenHome (s : State) (dev base w : Nat) : State :=
  match s.tokens.find? fun e => e.2.mirror.isNone && e.2.world == w && e.2.base == base && e.2.owner == deviceWord dev with
  | some (d, t) =>
    let s := setEntry s d t (some { t with owner := t.lender, lender := 0 })
    match coreOfWord s w t.lender with
    | some c =>
      let s := dropConst (dropL1 s c fun _ => true) c
      s.modDie (dieOf c) fun x => { x with far := x.far.filter (·.world != w) }
    | none => s
  | none => s
def execTokenReturnHome (dev base w : Nat) (s : State) : Answer := .next (tokenHome s dev base w)

end Sys2Proof.Machine
end

