-- ==== Sys2Proof/Machine/Group.lean ====
section
/-!
DEFINITION. Groups, collectives, barriers, waiting on memory, the decision queue and SAT control (R156 to R162, R170 to R179, R413).
-/
namespace Sys2Proof.Machine

/-! ### Formation and leaving (R160 to R162, R413) -/

def widthOk (w : Nat) : Bool := [2, 4, 8, 16, 32].contains w
/-- The forming group with a key and a shape. -/
def forming? (s : State) (c : Nat) (key : Word) (want slice : Nat) : Option (Nat × Group) :=
  (s.ctx c).groups.find? fun e => !e.2.formed && e.2.key == key && e.2.want == want && e.2.slice == slice
/-- Group numbers in use, as R160 counts them for a thread. -/
def gidsUsed (s : State) (c t : Nat) : List Nat :=
  let l := (s.ctx c).groups.keys
  match (s.thr c t).grp with
  | some (g, _) => if (s.members c (.grp g)).length = 1 then l.filter (· != g) else l
  | none => l
/-- What stops an arrival at `gjoin`. -/
def joinCheck (s : State) (c t : Nat) (key : Word) (want slice : Nat) (slot : Option Nat) : Option (BitVec 6) :=
  let f := forming? s c key want slice
  if f.isNone ∧ (gidsUsed s c t).length ≥ 64 then some 0x11
  else if (match slot with
      | some n => decide (n ≥ want) || (match f with | some (_, gr) => gr.mem.has n | none => false)
      | none => false) then some 0x11
  else none
/-- The rights of the thread's own agent, where it is in no group, and whether they can move now. -/
def joinRights (s : State) (c t : Nat) : List (Nat × Token) :=
  if (s.thr c t).grp.isSome || (s.thr c t).level == .steward then [] else s.rights (s.agentId c t) (s.actWorld c t)
def canMove (s : State) (c t : Nat) : Bool :=
  agentQuiet s c (s.agentId c t) && (joinRights s c t).all fun e => e.2.pending.isNone
/-- The last member arrives: every member goes on, and the group's first shadow is taken. -/
def formGroup (s : State) (c g : Nat) : State :=
  let s := s.modGroup c g fun gr => { gr with formed := true, sched := { since := (s.core c).ccnt.toNat } }
  let pc := nextPc (((s.members c (.grp g)).head?.map fun t => (s.thr c t).pc).getD 0)
  let s := (s.members c (.grp g)).foldl (fun s t => advanceNext s c t) s
  takeShadow s c (.grp g) pc
/-- The thread enters, every check having passed: it leaves its group, or ends its own agent, whose rights move. -/
def enterGroup (s : State) (c t : Nat) (key : Word) (want slice : Nat) (slot : Option Nat) : State :=
  let a := s.sigId c t
  let w := s.actWorld c t
  let alone := (s.thr c t).grp.isNone
  let own := (s.core c).sig a
  let priv := (s.thr c t).sat
  let s := leaveGroup s c t
  let (s, g) := match forming? s c key want slice with
    | some (g, _) => (s, g)
    | none =>
      let g := ((List.range 64).find? fun g => !(s.ctx c).groups.has g).getD 0
      (s.modCtx c fun x => { x with groups := x.groups.put g { key := key, want := want, slice := slice } }, g)
  let s := if alone then
      let k := agentWord c (.unit (.grp g))
      let s := moveRights s c w a k
      let s := setSig (setSig s c k (((s.core c).sig k).1 ||| own.1, ((s.core c).sig k).2 ||| own.2)) c a (0, 0)
      let s := releaseSort (releaseMm s c (.unit (.thr t))) c (.unit (.thr t))
      let b : Agent := .gone s.dead
      dropShadow { renameAgent s c w (.unit (.thr t)) b a (agentWord c b) with dead := s.dead + 1 } c (.thr t)
    else s
  let gr := (s.group? c g).getD { key := key, want := want, slice := slice }
  let s := copiesOf s c t (.grp g)
  let n := slot.getD (((List.range want).find? fun n => !gr.mem.has n).getD 0)
  let s := s.modGroup c g fun gr => { gr with mem := gr.mem.put n t, sat := gr.sat || (alone && priv) }
  let s := setBlk (s.modThr c t fun th => { th with grp := some (g, n), sat := false }) c t .join
  if gr.mem.length + 1 = want then formGroup s c g else s
def execGjoin (h : Hdr) (a b : Src) (slot : Option Src) (s : State) : Answer :=
  .next (perThread .app { srcs := one (a :: b :: slot.toList) } h (fun e _ s =>
    let shape := rdWord s e h b
    let want := (shape.extractLsb' 0 8).toNat
    let slice := (shape.extractLsb' 8 8).toNat
    if (s.ctx e.c).lead = some e.t ∨ shape.extractLsb' 16 16 ≠ 0 ∨ !widthOk slice ∨ want < 1 ∨ want > 32 then raise s 0x01
    else .wait s (.moving (rdWord s e h a) want slice (slot.map fun x => (rdWord s e h x).toNat) (nowOf s e.c + e.skew))) s)
/-- A thread that has arrived enters its group, or what stops it does, once the cycle of its arrival is over; rights that cannot move yet
hold it back (R160, R413; when an arrival enters is the model's choice, log 80). -/
def joinOne (s : State) (c t : Nat) : State :=
  match (s.thr c t).blk with
  | .moving key want slice n at_ =>
    if nowOf s c ≤ at_ then s
    else match joinCheck s c t key want slice n with
      | some code => takeFaults s c [(t, { code := code })]
      | none => if !(joinRights s c t).isEmpty && !canMove s c t then s else enterGroup s c t key want slice n
  | _ => s
/-- The arrivals of a core that wait, by cycle and then by `tid` (R160). -/
def arrivals (s : State) (c : Nat) : List (Nat × Nat) :=
  (s.ctx c).threads.foldl (fun l (t, th) => match th.blk with
    | .moving _ _ _ _ a => (l.takeWhile fun p => p.1 < a || (p.1 == a && p.2 < t)) ++ [(a, t)] ++ (l.dropWhile fun p => p.1 < a || (p.1 == a && p.2 < t))
    | _ => l) []
/-- What has arrived in the cycles before enters, in the order of arrival: threads of one cycle in ascending `tid` order. -/
def joinArrivals (s : State) (c : Nat) : State := (arrivals s c).foldl (fun s p => joinOne s c p.2) s
/-- The rights of a joining thread can move: it enters its group, or what has changed meanwhile stops it (R413). -/
def execTokenMoveOnJoin (c t : Nat) (s : State) : Answer := .next (joinOne s c t)

def execGleave (h : Hdr) (s : State) : Answer :=
  .next (perThread .app {} h (fun e _ s => .done (leaveGroup s e.c e.t)) s)
def execGslice (h : Hdr) (a : Src) (s : State) : Answer :=
  .next (perThread .app { srcs := one [a] } h (fun e _ s =>
    let w := (rdWord s e h a).toNat
    if !widthOk w then raise s 0x01
    else match (s.thr e.c e.t).grp with
      | some (g, _) => .done (s.modGroup e.c g fun gr => { gr with slice := w })
      | none => .done s) s)

/-! ### Collectives (R75 to R77, R170 to R173) -/

/-- The slice of a thread: its active members by local slot, and its own local index. -/
def sliceOf (s : State) (c : Nat) (ts : List Nat) (t : Nat) : List (Option Nat) × Nat :=
  match (s.thr c t).grp with
  | some (g, sl) =>
    let w := ((s.group? c g).map (·.slice)).getD 1
    ((List.range w).map fun j => ts.find? fun u => (s.thr c u).grp == some (g, sl / w * w + j), sl % w)
  | none => ([some t], 0)
/-- A collective: what each active member receives, from the state before any of them is written. -/
def collective (u : Uses) (h : Hdr) (f : State → Env → List (Option Nat) → Nat → DWord) (wr : State → Env → DWord → State) (s : State) : State :=
  perBundle .app u h (fun e _ ts s =>
    let vals := ts.map fun t => let (sl, j) := sliceOf s e.c ts t; (t, f s { e with t := t } sl j)
    .done (vals.foldl (fun (p : State × Bool) v => (wr p.1 { e with t := v.1, low := p.2 } v.2, false)) (s, true)).1) s

def execVote (h : Hdr) (op : VOp) (d : VDst) (ka : Pred) (s : State) : Answer :=
  .next (collective { dsts := (match d with | .reg r => [(r, 1)] | .pred _ => []), ks := [ka], kds := (match d with | .pred k => [k] | .reg _ => []) } h
    (fun s e sl _ =>
      let vs := sl.map fun o => o.map fun t => rdPred s { e with t := t } ka
      let act := vs.filterMap id
      match op with
      | .all => BitVec.ofNat 64 (act.all id).toNat
      | .any => BitVec.ofNat 64 (act.any id).toNat
      | .uni => BitVec.ofNat 64 (act.all id || !act.any id).toNat
      | .ballot => BitVec.ofNat 64 ((List.range vs.length).foldl (fun m i => if vs.getD i none == some true then m + 2 ^ i else m) 0))
    (fun s e v => match d with
      | .pred k => wrPred s e k (v != 0)
      | .reg r => wrWord s e r (v.setWidth 32)) s)
/-- The source slot of `shfl`; none where it is out of range. -/
def shflFrom (m : ShMode) (w j b : Nat) : Option Nat :=
  match m with
  | .idx => if b ≥ w then none else some b
  | .up => if j < b then none else some (j - b)
  | .down => if j + b ≥ w then none else some (j + b)
  | .xor => if j ^^^ b ≥ w then none else some (j ^^^ b)
def execShfl (h : Hdr) (mode : ShMode) (ty : Ty) (d : Dst) (a b : Src) (s : State) : Answer :=
  .next (collective { srcs := wide ty.is64 [a] ++ one [b], dsts := wideD ty.is64 d } h
    (fun s e sl j =>
      let q := shflFrom mode sl.length j (rdWord s e h b).toNat
      match q.bind fun q => sl.getD q none with
      | some t => rdVal s { e with t := t } h ty a
      | none => rdVal s e h ty a)
    (fun s e v => wrVal s e ty.is64 d v) s)

/-- Adjacent values combined. -/
def treeLevel (node : α → α → α) : List α → List α
  | a :: b :: l => node a b :: treeLevel node l
  | l => l
/-- The fixed pairwise tree of R75, for at most 32 values. -/
def tree (node : α → α → α) : Nat → List α → Option α
  | 0, l => l.head?
  | n + 1, l => if l.length ≤ 1 then l.head? else tree node n (treeLevel node l)
/-- A value of the tree: bits, and whether a node saturated on the way. -/
abbrev RVal := DWord × Bool
def redId (op : ROp) (ty : Ty) : DWord :=
  if ty.isFloat then BitVec.ofNat 64 (fropId op ty) else wrInt ty (ropId op ty)
def redNode (op : ROp) (ty : Ty) (rm : Rm) (sat : Bool) (pc : DWord) (a b : RVal) : RVal :=
  if ty.isFloat then (BitVec.ofNat 64 (fropNode op ty rm pc (a.1.toNat % 2 ^ ty.bits) (b.1.toNat % 2 ^ ty.bits)), false)
  else let r := ropNode op ty sat a.1 b.1; (r.1, a.2 || b.2 || r.2)
/-- A slot's value: its A as a value of the type, or the identity. -/
def redIn (s : State) (e : Env) (h : Hdr) (op : ROp) (ty : Ty) (a : Src) (o : Option Nat) : RVal :=
  match o with
  | some t =>
    let v := rdVal s { e with t := t } h ty a
    (if ty.isFloat then BitVec.ofNat 64 (v.toNat % 2 ^ ty.bits) else wrInt ty (rdInt ty v), false)
  | none => (redId op ty, false)
/-- Writes of a reduction: the value, and SAT where a node saturated. -/
def redOut (s : State) (e : Env) (ty : Ty) (d : Dst) (r : RVal) : State := setSatIf r.2 (wrVal s e ty.is64 d r.1) e.c e.t
def redCollective (h : Hdr) (ty : Ty) (d : Dst) (a : Src) (f : State → Env → DWord → List (Option Nat) → Nat → RVal) (s : State) : State :=
  perBundle .app { srcs := wide ty.is64 [a], dsts := wideD ty.is64 d } h (fun e pc ts s =>
    let vals := ts.map fun t => let (sl, j) := sliceOf s e.c ts t; (t, f s { e with t := t } pc sl j)
    .done (vals.foldl (fun (p : State × Bool) v => (redOut p.1 { e with t := v.1, low := p.2 } ty d v.2, false)) (s, true)).1) s
def execRed (h : Hdr) (op : ROp) (ty : Ty) (rm : Rm) (sat : Bool) (d : Dst) (a : Src) (s : State) : Answer :=
  .next (redCollective h ty d a (fun s e pc sl _ =>
    (tree (redNode op ty rm sat pc) 6 (sl.map (redIn s e h op ty a))).getD (redId op ty, false)) s)
/-- The running values of a scan before and after each slot. -/
def scanFrom (node : RVal → RVal → RVal) : RVal → List RVal → List (RVal × RVal)
  | _, [] => []
  | acc, v :: l => (acc, node acc v) :: scanFrom node (node acc v) l
def execScan (h : Hdr) (op : ROp) (exc : Bool) (ty : Ty) (rm : Rm) (sat : Bool) (d : Dst) (a : Src) (s : State) : Answer :=
  .next (redCollective h ty d a (fun s e pc sl j =>
    let l := scanFrom (redNode op ty rm sat pc) (redId op ty, false) (sl.map (redIn s e h op ty a))
    let p := l.getD j ((redId op ty, false), (redId op ty, false))
    -- SAT is set by any node of the chain
    ((if exc then p.1 else p.2).1, l.any fun q => q.2.2)) s)
def matchCode (ty : Ty) (zeq : Bool) (v : DWord) : Nat := if ty.isFloat then keyCode ty zeq (v.setWidth 32) else v.toNat
def execGmatch (h : Hdr) (zeq : Bool) (ty : Ty) (d : Dst) (a : Src) (s : State) : Answer :=
  .next (collective { srcs := wide ty.is64 [a], dsts := [(d, 1)] } h
    (fun s e sl _ =>
      let key := fun t => matchCode ty zeq (rdVal s { e with t := t } h ty a)
      BitVec.ofNat 64 ((List.range sl.length).foldl (fun m i => match sl.getD i none with
        | some t => if key t = key e.t then m + 2 ^ i else m
        | none => m) 0))
    (fun s e v => wrWord s e d (v.setWidth 32)) s)

/-! ### Barriers (R174, R175) -/

/-- An arrival: a reporting point, then a release at the scope (R149, R201). -/
def arrive (s : State) (e : Env) (sc : Scope) (b : Blk) : Res :=
  match popFail s e.c e.t with
  | some (s', r) => .fail s' r
  | none => if !releaseReady s e.c e.t sc then .wait s (.retry (.released sc)) else .wait (releaseAt s e.c e.t) b
def execGbar (h : Hdr) (scope : Scope) (s : State) : Answer :=
  .next (perThread .app {} h (fun e _ s => arrive s e scope (.bar scope)) s)
def execRwait (h : Hdr) (scope : Scope) (kd : Pred) (a : Src) (s : State) : Answer :=
  .next (perThread .app { srcs := one [a] } h (fun e _ s => arrive s e scope (.rwait scope kd (rdWord s e h a).toNat)) s)
/-- An `rwait` whose count has been reached withdraws its arrival (R175). -/
def execRwaitExpiry (c t : Nat) (s : State) : Answer :=
  match s.thr? c t with
  | some th => match th.blk with
    | .rwait _ kd 0 => .next (advanceNext (wrPred s { c := c, t := t } kd false) c t)
    | _ => .next s
  | none => .next s

/-! ### Waiting on memory (R176) -/

/-- The acquire of an `mwait` on the line it watches. -/
def mwaitAcquire (s : State) (c t va : Nat) : Option Scope → State
  | some sc => acquireLine (takePosts s c t (.bytes (s.actWorld c t) .g va 4) sc) c (s.actWorld c t) (s.sigId c t) { va := lineVa va, pa := none } sc
  | none => s
def endMwait (s : State) (c t : Nat) (code : Word) : State :=
  match (s.thr c t).blk with
  | .mwait acq d va _ _ _ => advanceNext (mwaitAcquire (wrWord s { c := c, t := t } d code) c t va acq) c t
  | _ => s
/-- Monitors armed at the slice that holds a line: core, thread, and the step at which each was armed. -/
def monitorsAt (s : State) (key : Nat) : List (Nat × Nat × Nat) :=
  s.cores.flatMap fun (c, k) => k.ctx.threads.filterMap fun (t, th) => match th.blk with
    | .mwait _ _ v _ _ false => if remapKey s (s.actWorld c t) (lineVa v) = key then some (c, t, th.armed) else none
    | _ => none
/-- A monitor wakes: its line was written, or it leaves its slice's table. -/
def wakeMonitor (s : State) (c t : Nat) : State :=
  s.modThr c t fun th => match th.blk with
    | .mwait a d v seen left _ => { th with blk := .mwait a d v seen left true }
    | _ => th
/-- A thread is about to arm a monitor; where the slice's table is full, its oldest monitor wakes (R176). -/
def armMonitor (s : State) (c t va : Nat) : State :=
  let l := monitorsAt s (remapKey s (s.actWorld c t) (lineVa va))
  let s := if l.length < Config.monitorSlots then s
    else match l with
      | m :: rest => let o := rest.foldl (fun o p => if p.2.2 < o.2.2 then p else o) m; wakeMonitor s o.1 o.2.1
      | [] => s
  s.modThr c t fun th => { th with armed := s.tick }
def execMwait (h : Hdr) (m : MMod) (d : Dst) (a b c : Src) (s : State) : Answer :=
  .next (perThread .app { srcs := [(a, 2), (b, 1), (c, 1)], dsts := [(d, 1)] } h (fun e _ s =>
    match accessCheck s e .g (addrOf s e h .g a) 4 4 .watch with
    | .error r => .fail s r
    | .ok (s', va, hs) =>
      let w := s.actWorld e.c e.t
      if hs.any (fun h => (s.ctx e.c).ops.any fun o => o.pendingWrite && o.touches w h.va && (match o.body.writes with
          | some (_, x, n) => rangesMeet x n va 4
          | none => false)) then .wait s (.retry (.line w ((hs.head?.map (·.va)).getD va)))
      else if poisoned s w va 4 hs then .fail s { code := 0x14, addr := BitVec.ofNat 64 va, used := true }
      else
        let hv := ((hs.head?.map (·.va)).getD (lineVa va)) + va % 128
        let s := enterSig (hs.foldl (fun s h => fillL2 s w h m.evict.toNat) s') e.c (s.sigId e.c e.t) va
        let v := BitVec.ofNat 32 (natOf (homeBytes s w va 4 hs))
        let acq := if m.ord == .acq then some m.scope else none
        if v ≠ rdWord s e h b then .done (mwaitAcquire (wrWord s e d 0) e.c e.t hv acq)
        else
          let n := (rdWord s e h c).toNat
          .wait (armMonitor s e.c e.t hv) (.mwait acq (e.keep d) hv v (if n = 0 then none else some n) false)) s)
/-- An `mwait` whose time has run out; a write in the same cycle goes before it. -/
def mwaitTimeout (s : State) (c t : Nat) : State :=
  match (s.thr c t).blk with
  | .mwait _ _ _ _ (some 0) woken => if (s.thr? c t).isSome then endMwait s c t (if woken then 1 else 3) else s
  | _ => s
def execMwaitTimeout (c t : Nat) (s : State) : Answer := .next (mwaitTimeout s c t)
def execSleepExpiry (c t : Nat) (s : State) : Answer :=
  match s.thr? c t with
  | some th => match th.blk with
    | .sleep 0 => .next (advanceNext s c t)
    | _ => .next s
  | none => .next s

/-! ### The decision queue (R178) -/

def execDqPush (h : Hdr) (a b : Src) (s : State) : Answer :=
  .next (perThread .app { srcs := one [a, b] } h (fun e _ s =>
    let t := (rdWord s e h b).toNat
    if t ≥ 128 ∨ (64 ≤ t ∧ t ≤ 126) then raise s 0x01
    else if (s.ctx e.c).dq.length ≥ 64 then .wait s (.retry .dqSpace)
    else if !releaseReady s e.c e.t .core then .wait s (.retry (.released .core))
    else .done ((releaseAt s e.c e.t).modCtx e.c fun x =>
      { x with dq := x.dq ++ [(rdWord s e h a, t)], dqSeen := x.dqSeen ++ [x.seenBy e.t] })) s)
def dqFor (u : UnitId) (t : Nat) : Bool := t == 127 || (match u with | .grp g => t == g | .thr _ => false)
def unitRank : UnitId → Nat
  | .grp g => g
  | .thr t => 64 + t
/-- A bundle blocked in `dq.pop`: when it blocked, and its unit and place, which order those of one cycle (log 61). -/
abbrev Popper := Nat × UnitId × DWord
def Popper.before (p q : Popper) : Bool :=
  p.1 < q.1 || (p.1 == q.1 && (unitRank p.2.1 < unitRank q.2.1 || (p.2.1 == q.2.1 && p.2.2.toNat < q.2.2.toNat)))
/-- The bundles blocked in `dq.pop` before one, in the order in which they are served. -/
def poppersBefore (s : State) (c : Nat) (u : UnitId) (since : Nat) (pc : DWord) : List Popper :=
  ((s.ctx c).threads.filterMap fun (t, th) =>
    let p : Popper := (th.since, th.unit t, th.pc)
    if th.blk == .retry .dqEntry && Popper.before p (since, u, pc) then some p else none).eraseDups.foldl (fun l p =>
      l.takeWhile (Popper.before · p) ++ [p] ++ l.dropWhile (Popper.before · p)) []
/-- The position of the entry a bundle takes: the oldest for its unit that no earlier popper takes. -/
def dqTake (s : State) (c : Nat) (u : UnitId) (since : Nat) (pc : DWord) : Option Nat :=
  let before := poppersBefore s c u since pc
  let taken := before.foldl (fun (l : List Nat) v =>
    match (List.range (s.ctx c).dq.length).find? fun i => !l.contains i && dqFor v.2.1 (((s.ctx c).dq.getD i (0, 0)).2) with
    | some i => i :: l
    | none => l) []
  (List.range (s.ctx c).dq.length).find? fun i => !taken.contains i && dqFor u (((s.ctx c).dq.getD i (0, 0)).2)
def popSince (s : State) (c t : Nat) : Nat :=
  if (s.thr c t).blk == .retry .dqEntry then (s.thr c t).since else (s.core c).ccnt.toNat
def execDqPop (h : Hdr) (d : Dst) (s : State) : Answer :=
  .next (perBundle .app { dsts := [(d, 1)] } h (fun e pc ts s =>
    let u := s.unitOf e.c e.t
    match dqTake s e.c u (popSince s e.c e.t) pc with
    | none => .wait s (.retry .dqEntry)
    | some i =>
      let v := ((s.ctx e.c).dq.getD i (0, 0)).1
      let s := ts.foldl (fun s t => observe s e.c t ((s.ctx e.c).dqSeen.getD i [])) s
      let s := s.modCtx e.c fun x => { x with dq := x.dq.eraseIdx i, dqSeen := x.dqSeen.eraseIdx i }
      .done (eachWrite e ts (fun e s => wrWord s e d v) (acquireAll s e.c (s.actWorld e.c e.t) .core))) s)

/-! ### SAT control (R179) -/

def gsat (h : Hdr) (d : Dst) (f : State → Nat → Nat → State) (s : State) : State :=
  perBundle .app { dsts := [(d, 1)] } h (fun e _ ts s =>
    let b := satBits s e.c e.t
    let v := BitVec.ofNat 32 (b.1.toNat + 2 * b.2.toNat)
    .done (f (eachWrite e ts (fun e s => wrWord s e d v) s) e.c e.t)) s
def execGsatRd (h : Hdr) (d : Dst) (s : State) : Answer := .next (gsat h d (fun s _ _ => s) s)
def execGsatClr (h : Hdr) (d : Dst) (s : State) : Answer := .next (gsat h d clearSat s)
def execGsatArm (h : Hdr) (d : Dst) (s : State) : Answer := .next (gsat h d (setArmed true) s)
def execGsatDisarm (h : Hdr) (d : Dst) (s : State) : Answer := .next (gsat h d (setArmed false) s)

end Sys2Proof.Machine
end

