-- ==== Sys2Proof/Machine/Tile.lean ====
section
/-!
DEFINITION. Tiles, pattern records, the record cache and the copy engine (R184, R188 to R203, R207, R231, R389). A copy is performed
whole when it completes or fails (log 23).
-/
namespace Sys2Proof.Machine

/-! ### Images and records (R190, R195 to R198) -/

def bytesNat (l : List Byte) (off n : Nat) : Nat := natOf ((l.drop off).take n)
/-- Step 4 of R192 with the image's fields. -/
def tileOfImage (x : Ctx) (l : List Byte) : Option Tile :=
  let code := bytesNat l 5 1
  let t : Tile := { off := bytesNat l 0 4, rows := bytesNat l 4 1, cols := bytesNat l 6 2, esz := 2 ^ code }
  if t.off % 64 = 0 ∧ 1 ≤ t.rows ∧ t.rows ≤ 64 ∧ code < 4 ∧ 1 ≤ t.cols ∧ t.cols ≤ 4096 / t.esz ∧ bytesNat l 8 8 = 0 ∧
      t.foot.2 ≤ scratchSize x then some t else none
/-- A pattern record as R195 reads it. -/
structure Pat where
  base  : Nat
  esz   : Nat
  isz   : Nat
  n     : Nat → Nat
  st    : Nat → Int
  ibase : Nat
def patOf (r : BitVec 512) : Pat :=
  let f := fun (at_ n : Nat) => (r.toNat / 2 ^ (8 * at_)) % 2 ^ (8 * n)
  { base := f 0 8, esz := 2 ^ f 8 1, isz := match f 9 1 with | 0 => 0 | 1 => 2 | _ => 4
    n := fun i => f (12 + 2 * i) 2, st := fun i => (BitVec.ofNat 32 (f (20 + 4 * i) 4)).toInt, ibase := f 40 8 }
def Pat.total (p : Pat) : Nat := p.n 0 * p.n 1 * p.n 2 * p.n 3
/-- Whether a record is legal under R195. -/
def patOk (r : BitVec 512) : Bool :=
  let f := fun (at_ n : Nat) => (r.toNat / 2 ^ (8 * at_)) % 2 ^ (8 * n)
  let p := patOf r
  f 8 1 < 4 && f 9 1 < 3 && f 10 2 == 0 && f 36 4 == 0 && f 48 16 == 0 && p.base % p.esz == 0 &&
    (List.range 4).all (fun i => 1 ≤ p.n i && p.st i % (p.esz : Int) == 0) && (p.isz == 0 || p.ibase % p.isz == 0)

/-- The bytes of an image through the record cache, checked as a load (R192, R198). Of two values that R198 allows after a store without
`pat.fence`, the old is read where the cache holds the line and else what is at home; a full cache drops the line it has held longest,
which R198 does not say (DESIGN CHOICE, log 67). -/
def readImage (s : State) (e : Env) (va n : Nat) : Except Raise (State × List Byte) :=
  match globalCheck s e.c e.t va n .load with
  | .error (x, a) => .error { code := x, addr := BitVec.ofNat 64 a }
  | .ok (s', hs) =>
    let w := s.actWorld e.c e.t
    let line := va / 64 * 64
    match (s'.core e.c).rcache.find? fun l => l.world == w && l.va == line with
    | some l => .ok (s', (bytesOf 64 l.data.toNat).drop (va % 64) |>.take n)
    | none =>
      if poisoned s' w line 64 hs then .error { code := 0x14, addr := BitVec.ofNat 64 va, used := true }
      else
        let d := homeBytes s' w line 64 hs
        let s' := hs.foldl (fun s h => fillL2 s w h 3) s'
        let q : FLine := { world := w, va := line, data := BitVec.ofNat 512 (natOf d) }
        .ok (s'.modCore e.c fun k => { k with rcache := (q :: k.rcache).take 64 }, (d.drop (va % 64)).take n)

/-! ### Tile instructions (R192 to R194) -/

def execTileDef (h : Hdr) (tl : BitVec 7) (a : Src) (s : State) : Answer :=
  .next (perThread .app { srcs := [(a, 2)] } h (fun e _ s =>
    let va := addrOf s e h .g a
    if va % 16 ≠ 0 then raise s 0x03 (BitVec.ofNat 64 va)
    else match readImage s e va 16 with
      | .error r => .fail s r
      | .ok (s, l) =>
        if (s.ctx e.c).tiles.has tl.toNat then raise s 0x09
        else match tileOfImage (s.ctx e.c) l with
          | none => raise s 0x0A
          | some t =>
            if (s.ctx e.c).tiles.any fun q => q.2.meets t.foot.1 (t.foot.2 - t.foot.1) then raise s 0x09
            else .done (setTile s e.c (some (s.unitOf e.c e.t)) tl.toNat (some t))) s)
def tileAct (h : Hdr) (tl : BitVec 7) (ok : Tile → Bool) (act : Env → State → Tile → Res) (s : State) : State :=
  perThread .app {} h (fun e _ s => match (s.ctx e.c).tiles.look tl.toNat with
    | some t => if ok t then act e s t else raise s 0x09
    | none => raise s 0x09) s
def isEmptyTile (t : Tile) : Bool := t.st == .empty && !t.replay
/-- A tile under a read of the array or the sort array is neither cleared nor freed (R226, R251). -/
def isClearable (t : Tile) : Bool := t.st == .ready && t.mread == 0
def execTileFree (h : Hdr) (tl : BitVec 7) (s : State) : Answer :=
  .next (tileAct h tl (fun t => isEmptyTile t || isClearable t)
    (fun e s _ => .done (setTile s e.c (some (s.unitOf e.c e.t)) tl.toNat none)) s)
def execTileRdySet (h : Hdr) (tl : BitVec 7) (s : State) : Answer :=
  .next (tileAct h tl isEmptyTile (fun e s t =>
    if !releaseReady s e.c e.t .core then .wait s (.retry (.released .core))
    else
      let s := (releaseAt s e.c e.t).modCtx e.c fun x => { x with
        loose := x.loose.filter fun q => !(q.seen.contains e.t && q.inside false t.foot.1 (t.foot.2 - t.foot.1)) }
      .done (setTile (post s e.c e.t (.tile tl.toNat) .core) e.c (some (s.unitOf e.c e.t)) tl.toNat (some { t with st := .ready }))) s)
def execTileRdyClr (h : Hdr) (tl : BitVec 7) (s : State) : Answer :=
  .next (tileAct h tl isClearable
    (fun e s t => .done (setTile s e.c (some (s.unitOf e.c e.t)) tl.toNat (some { t with st := .empty }))) s)
/-- The acquire at scope `core` of a thread that meets a READY tile (R207). -/
def tileAcquire (s : State) (c t n : Nat) : State := acquireAll (takePosts s c t (.tile n) .core) c (s.actWorld c t) .core
def tileWord (o : Option Tile) : Word :=
  match o with
  | none => 0
  | some t => BitVec.ofNat 32 (t.st.ctorIdx + 4 + 8 * t.replay.toNat + 16 * t.err.toNat + 65536 * t.rows)
def execTileQry (h : Hdr) (tl : BitVec 7) (d : Dst) (s : State) : Answer :=
  .next (perThread .app { dsts := [(d, 1)] } h (fun e _ s =>
    let o := (s.ctx e.c).tiles.look tl.toNat
    let s' := wrWord s e d (tileWord o)
    .done (if o.any (·.st == .ready) then tileAcquire s' e.c e.t tl.toNat else s')) s)

/-! ### Pattern instructions (R195, R197, R198) -/

def setPat (s : State) (c n : Nat) (v : BitVec 512) : State := s.modCtx c fun x => { x with pats := x.pats.set 0 n v }
def execPatDef (h : Hdr) (pat : BitVec 4) (w : BitVec 4) (a : Src) (s : State) : Answer :=
  .next (perThread .app { srcs := one [a] } h (fun e _ s =>
    let old := (s.ctx e.c).pats.get 0 pat.toNat
    let sh := 32 * w.toNat
    let v := (old &&& ~~~((0xFFFFFFFF : BitVec 512) <<< sh)) ||| ((rdWord s e h a).setWidth 512 <<< sh)
    .done (setPat s e.c pat.toNat v)) s)
def execPatLd (h : Hdr) (pat : BitVec 4) (a : Src) (s : State) : Answer :=
  .next (perThread .app { srcs := [(a, 2)] } h (fun e _ s =>
    let va := addrOf s e h .g a
    if va % 64 ≠ 0 then raise s 0x03 (BitVec.ofNat 64 va)
    else match readImage s e va 64 with
      | .error r => .fail s r
      | .ok (s, l) => .done (setPat s e.c pat.toNat (BitVec.ofNat 512 (natOf l)))) s)
/-- Whether the earlier `g` writes of a thread are held at home, the copies it made to memory among them. -/
def writesHeld (s : State) (c t : Nat) (upto : Nat) : Bool :=
  (s.ctx c).ops.all fun o => o.done || o.tid != t || o.retired.isSome || o.id ≥ upto || (match o.body with
    | .store .g .. => false
    | .rmw .g _ _ _ _ _ _ val => val.isSome
    | .copy id => (s.ctx c).copies.all fun q => q.id != id || (match q.kind with | .cpOut .. => false | _ => true)
    | _ => true)
def execPatFence (h : Hdr) (s : State) : Answer :=
  .next (perThread .app {} h (fun e _ s =>
    if writesHeld s e.c e.t (s.ctx e.c).nextOp then .done (s.modCore e.c fun k => { k with rcache := [] })
    else .wait s (.retry .held)) s)

/-! ### Copy instructions (R194, R199, R200, R202, R231) -/

def signalCheck (s : State) (e : Env) (h : Hdr) (sig : Option Src) : Except Raise (Option Nat) :=
  match sig with
  | none => .ok none
  | some x =>
    let a := (rdWord s e h x).toNat
    if a % 4 ≠ 0 then .error { code := 0x03 }
    else if a + 4 > scratchSize (s.ctx e.c) then .error { code := 0x05 }
    else if (s.ctx e.c).tiles.any fun q => q.2.meets a 4 then .error { code := 0x09 }
    else .ok (some a)
/-- A copy accepted: it is counted, and waits in the queue. -/
def acceptCopy (s : State) (e : Env) (pc : DWord) (k : CopyKind) (sig : Option Nat) : State :=
  let id := (s.ctx e.c).nextCopy
  let (s, op) := addOp s e.c e.t .copies pc (.copy id)
  let q : Copy := { id := id, op := op, tid := e.t, unit := s.unitOf e.c e.t, pc := pc, kind := k, sig := sig }
  s.modCtx e.c fun x => { x with nextCopy := id + 1, copies := x.copies ++ [q] }
/-- What holds every copy instruction back: a full counter or a full queue. -/
def copyRoom (s : State) (e : Env) : Option Why :=
  if s.count e.c e.t .copies ≥ 63 then some (.room .copies)
  else if (s.ctx e.c).copies.length ≥ 32 then some .copyQueue
  else none
def withRoom (s : State) (e : Env) (f : Unit → Res) : Res :=
  match copyRoom s e with
  | some w => .wait s (.retry w)
  | none => f ()
def tileAt (s : State) (e : Env) (n : BitVec 7) : Option Tile := (s.ctx e.c).tiles.look n.toNat
def tileSt (s : State) (e : Env) (n : BitVec 7) (st : TileSt) : State :=
  modTile s e.c (some (s.unitOf e.c e.t)) n.toNat fun t => { t with st := st }

def execTileFill (h : Hdr) (tl : BitVec 7) (a : Src) (sig : Option Src) (s : State) : Answer :=
  .next (perThread .app { srcs := one (a :: sig.toList) } h (fun e pc s => withRoom s e fun _ =>
    match tileAt s e tl with
    | none => raise s 0x09
    | some t =>
      if t.esz = 8 ∧ (a.isImm ∨ !a.al 2) then raise s 0x01
      else if t.esz = 8 ∧ !srcAvail (s.thr e.c e.t) (a, 2) then raise s 0x0F
      else if !isEmptyTile t then raise s 0x09
      else match signalCheck s e h sig with
        | .error r => .fail s r
        | .ok g =>
          let v := if t.esz = 8 then rdPair s e h a else (rdWord s e h a).setWidth 64
          .done (acceptCopy (tileSt s e tl .filling) e pc (.fill tl.toNat v) g)) s)
def copyShape (r : BitVec 512) (t : Tile) : Bool := patOk r && (patOf r).esz == t.esz && decide ((patOf r).total ≤ t.rows * t.cols)
def execCpIn (h : Hdr) (evict : BitVec 3) (tl : BitVec 7) (pat : BitVec 4) (b : Src) (sig : Option Src) (s : State) : Answer :=
  .next (perThread .app { srcs := (b, 2) :: one sig.toList } h (fun e pc s => withRoom s e fun _ =>
    match tileAt s e tl with
    | none => raise s 0x09
    | some t =>
      let r := (s.ctx e.c).pats.get 0 pat.toNat
      if !copyShape r t then raise s 0x0A
      else if !isEmptyTile t then raise s 0x09
      else match signalCheck s e h sig with
        | .error x => .fail s x
        | .ok g => .done (acceptCopy (tileSt s e tl .filling) e pc (.cpIn tl.toNat r (rdPair s e h b) evict.toNat) g)) s)
def execCpOut (h : Hdr) (evict : BitVec 3) (tl : BitVec 7) (pat : BitVec 4) (b : Src) (sig : Option Src) (s : State) : Answer :=
  .next (perThread .app { srcs := (b, 2) :: one sig.toList } h (fun e pc s => withRoom s e fun _ =>
    match tileAt s e tl with
    | none => raise s 0x09
    | some t =>
      if t.st ≠ .ready then .wait s (.retry (.tile tl.toNat))
      else
        let r := (s.ctx e.c).pats.get 0 pat.toNat
        if !copyShape r t then raise s 0x0A
        else match signalCheck s e h sig with
          | .error x => .fail s x
          | .ok g =>
            .done (acceptCopy (tileSt (tileAcquire s e.c e.t tl.toNat) e tl .draining) e pc (.cpOut tl.toNat r (rdPair s e h b) evict.toNat) g)) s)
def execCpTt (h : Hdr) (tr : Bool) (dtl stl : BitVec 7) (sig : Option Src) (s : State) : Answer :=
  .next (perThread .app { srcs := one sig.toList } h (fun e pc s => withRoom s e fun _ =>
    if dtl = stl then raise s 0x09
    else match tileAt s e dtl, tileAt s e stl with
      | some d, some t =>
        if t.st ≠ .ready then .wait s (.retry (.tile stl.toNat))
        else if d.esz ≠ t.esz ∨ d.rows < (if tr then t.cols else t.rows) ∨ d.cols < (if tr then t.rows else t.cols) then raise s 0x0A
        else if !isEmptyTile d then raise s 0x09
        else match signalCheck s e h sig with
          | .error x => .fail s x
          | .ok g =>
            .done (acceptCopy (tileSt (tileSt (tileAcquire s e.c e.t stl.toNat) e dtl .filling) e stl .draining) e pc (.tt dtl.toNat stl.toNat tr) g)
      | _, _ => raise s 0x09) s)
def execWbLd (h : Hdr) (evict : BitVec 3) (a b c : Src) (s : State) : Answer :=
  .next (perThread .app { srcs := [(a, 2), (b, 1), (c, 1)] } h (fun e pc s =>
    let va := addrOf s e h .g a
    let off := (rdWord s e h b).toNat
    let n := (rdWord s e h c).toNat
    let checked := fun (_ : Unit) =>
      if va % 64 ≠ 0 ∨ off % 64 ≠ 0 ∨ n % 64 ≠ 0 then raise s 0x03 (BitVec.ofNat 64 va)
      else if off + n > 262144 then raise s 0x05
      else if n = 0 then .done s
      else .done (acceptCopy s e pc (.wb off va n evict.toNat) none)
    if n = 0 then checked () else withRoom s e checked) s)

/-! ### The split of the SRAM (R183, R184) -/

/-- Whether an `l` access of any agent of the core is outstanding: an atomic until the scratchpad holds it (R184). -/
def scratchBusy (x : Ctx) : Bool := x.ops.any fun o => !o.done && (match o.body with
  | .load .l .. | .store .l .. | .rmw .l _ _ _ _ _ _ none | .ldcv .l .. => true
  | _ => false)
def execSpCfg (h : Hdr) (d : Dst) (a : Src) (s : State) : Answer :=
  .next (perThread .app { srcs := one [a], dsts := [(d, 1)] } h (fun e _ s =>
    let n := (rdWord s e h a).toNat
    let x := s.ctx e.c
    if n < 2 ∨ n > 8 then raise s 0x01
    else if !x.tiles.isEmpty ∨ !x.copies.isEmpty ∨ scratchBusy x then .done (wrWord s e d 1)
    else
      let keep := 65536 * (16 - max x.l1units n)
      let s := (unmarkBytes (dropL1 s e.c fun _ => true) e.c false keep (2 ^ 20)).modCtx e.c fun x =>
        { x with l1units := n, scratch := x.scratch.filter fun q => q.1 < keep, loose := x.loose.filter fun q => q.w || q.off < keep }
      .done (wrWord s e d 0)) s)

/-! ### The engine at work (R196, R199 to R202, R207, R231, R389) -/

/-- What a copy stops on: the code, the element and its address. -/
structure CopyErr where
  code : BitVec 6
  k    : Nat
  va   : Nat
/-- Whether the thread's earlier stores let a copy begin (R199). -/
def copyReady (s : State) (c : Nat) (q : Copy) : Bool :=
  (s.ctx c).ops.all fun o => o.done || o.tid != q.tid || o.id ≥ q.op || (match o.body, q.kind with
    | .store .g .., .cpIn .. | .store .g .., .cpOut .. | .store .g .., .wb .. | .store .l .., .cpOut .. => false
    | .rmw .g _ _ _ _ _ _ none, .cpIn .. | .rmw .g _ _ _ _ _ _ none, .cpOut .. | .rmw .g _ _ _ _ _ _ none, .wb .. => false
    | .rmw .l _ _ _ _ _ _ none, .cpOut .. => false
    | _, _ => true)
/-- One element read or written at home under the checks of R139 and R140, as the agent of an operation. -/
def engineCheck (s : State) (c : Nat) (o : Op) (va n : Nat) (k : Acc) : Except (BitVec 6) (List Home) :=
  if va % n ≠ 0 then .error 0x03
  else match rangeCheck s c o.world va n k with
    | .error (x, _) => .error x
    | .ok hs =>
      if hs.any (isDoorbell o.world) then .error 0x05
      else match ((segs va n).zip hs).findSome? fun (sg, h) => tokenCheck s o.world o.agent (h.va + sg.2.1) k fun p => p.core == c && o.id < p.upto with
        | some x => .error x
        | none => .ok hs
def engineRead (s : State) (c : Nat) (o : Op) (va n : Nat) : Except (BitVec 6) (State × List Byte) :=
  match engineCheck s c o va n .load with
  | .error x => .error x
  | .ok hs =>
    if poisoned s o.world va n hs then .error 0x14
    else .ok (enterSig (hs.foldl (fun s h => fillL2 s o.world h o.evict) s) c o.sgn va, homeBytes s o.world va n hs)
def engineWrite (s : State) (c : Nat) (o : Op) (va : Nat) (d : List Byte) : Except (BitVec 6) State :=
  match engineCheck s c o va d.length .store with
  | .error x => .error x
  | .ok hs =>
    let s := homeWriteN s o.world (dieOf c) va d hs none o.evict
    .ok (enterHeld (dropL1 s c fun l => l.world == o.world && hs.any fun h => h.va == l.va) c o va)
/-- The address of element k (R196), and its row's index: an indirect row reads it once, before its first element. -/
def elemAddr (s : State) (c : Nat) (o : Op) (p : Pat) (x : DWord) (k : Nat) (row : Option (Nat × Nat)) :
    Except (BitVec 6) (State × Nat × Nat) :=
  let q := k / p.n 0
  let rest : Int := (q / p.n 1 % p.n 2 : Nat) * p.st 2 + (q / p.n 1 / p.n 2 : Nat) * p.st 3 + (k % p.n 0 : Nat) * p.st 0
  let at_ := fun (v : Nat) => (((p.base : Int) + x.toNat + (v : Int) * p.st 1 + rest) % (2 ^ 64 : Nat)).toNat
  if p.isz = 0 then .ok (s, at_ (q % p.n 1), 0)
  else match row with
    | some (q', v) => if q' = q then .ok (s, at_ v, v) else read q at_
    | none => read q at_
where
  read (q : Nat) (at_ : Nat → Nat) : Except (BitVec 6) (State × Nat × Nat) :=
    match engineRead s c o ((p.ibase + q * p.isz) % 2 ^ 64) p.isz with
    | .error x => .error x
    | .ok (s', l) => .ok (s', at_ (natOf l), natOf l)
/-- The address of the index of element k. -/
def Pat.idxAt (p : Pat) (k : Nat) : Nat := (p.ibase + k / p.n 0 * p.isz) % 2 ^ 64
/-- Elements read for `cp.in`, in order, up to the first that fails. -/
def gather (c : Nat) (o : Op) (p : Pat) (x : DWord) : List Nat → Option (Nat × Nat) → State → State × List (List Byte) × Option CopyErr
  | [], _, s => (s, [], none)
  | k :: l, row, s =>
    match elemAddr s c o p x k row with
    | .error e => (s, [], some ⟨e, k, p.idxAt k⟩)
    | .ok (s, va, v) => match engineRead s c o va p.esz with
      | .error e => (s, [], some ⟨e, k, va⟩)
      | .ok (s, d) => let r := gather c o p x l (some (k / p.n 0, v)) s; (r.1, d :: r.2.1, r.2.2)
/-- Elements written by `cp.out`, in order, up to the first that fails or whose source holds uncorrectable data (R321). -/
def scatter (c : Nat) (o : Op) (p : Pat) (x : DWord) (t : Tile) : List Nat → Option (Nat × Nat) → State → State × Option CopyErr
  | [], _, s => (s, none)
  | k :: l, row, s =>
    match elemAddr s c o p x k row with
    | .error e => (s, some ⟨e, k, p.idxAt k⟩)
    | .ok (s, va, v) =>
      if markedBytes s c false (t.at_ k) t.esz then (s, some ⟨0x14, k, va⟩)
      else match engineWrite s c o va (peekN (s.ctx c).scratch (t.at_ k) t.esz) with
        | .error e => (s, some ⟨e, k, va⟩)
        | .ok s => scatter c o p x t l (some (k / p.n 0, v)) s
/-- The units of `wb.ld`, of 64 bytes. -/
def gatherWb (c : Nat) (o : Op) (va : Nat) : List Nat → State → State × List Byte × Option CopyErr
  | [], s => (s, [], none)
  | k :: l, s =>
    let a := (va + 64 * k) % 2 ^ 64
    match engineRead s c o a 64 with
    | .error e => (s, [], some ⟨e, k, a⟩)
    | .ok (s, d) => let r := gatherWb c o va l s; (r.1, d ++ r.2.1, r.2.2)
/-- The whole footprint of a tile with given elements, everything else zero. -/
def footprint (t : Tile) (elem : Nat → Nat → List Byte) : List Byte :=
  (List.range t.rows).flatMap fun r =>
    ((List.range t.cols).flatMap (elem r)) ++ List.replicate (t.pitch - t.cols * t.esz) 0
/-- The unit whose shadow keeps what a copy changes: none once its thread is gone (R203, R263). -/
def Copy.shadowed (q : Copy) (o : Op) : Option UnitId := if o.retired.isNone then some q.unit else none
/-- The work of a copy: the state, and where it stopped. -/
def runCopy (s : State) (c : Nat) (q : Copy) (o : Op) : State × Option CopyErr :=
  let u := q.shadowed o
  match q.kind with
  | .cpIn n rec_ x _ => match (s.ctx c).tiles.look n with
    | none => (s, none)
    | some t =>
      let p := patOf rec_
      let (s, els, e) := gather c o p x (List.range p.total) none s
      match e with
      | some e => (els.zipIdx.foldl (fun s (d, k) => writeScratch s c u (t.at_ k) d) s, some e)
      | none => (writeScratch s c u t.off (footprint t fun r i => els.getD (r * t.cols + i) (List.replicate t.esz 0)), none)
  | .cpOut n rec_ x _ => match (s.ctx c).tiles.look n with
    | none => (s, none)
    | some t => scatter c o (patOf rec_) x t (List.range (patOf rec_).total) none s
  | .tt dn sn tr => match (s.ctx c).tiles.look dn, (s.ctx c).tiles.look sn with
    | some d, some t =>
      let elem := fun (k : Nat) => peekN (s.ctx c).scratch (t.at_ k) t.esz
      let get := fun (r i : Nat) =>
        let (r', i') := if tr then (i, r) else (r, i)
        if r' < t.rows ∧ i' < t.cols then elem (r' * t.cols + i') else List.replicate d.esz 0
      match (List.range (t.rows * t.cols)).find? fun k => markedBytes s c false (t.at_ k) t.esz with
      | none => (writeScratch s c u d.off (footprint d get), none)
      | some k =>
        ((List.range k).foldl (fun s j =>
          writeScratch s c u (d.at_ (if tr then j % t.cols * d.cols + j / t.cols else j / t.cols * d.cols + j % t.cols)) (elem j)) s, some ⟨0x14, k, 0⟩)
    | _, _ => (s, none)
  | .fill n v => match (s.ctx c).tiles.look n with
    | none => (s, none)
    | some t => (writeScratch s c u t.off (footprint t fun _ _ => bytesOf t.esz v.toNat), none)
  | .wb off va n _ =>
    let (s, d, e) := gatherWb c o va (List.range (n / 64)) s
    (noteLoose (writeWbuf s c off d) c true off d.length [] (if o.retired.isNone then some q.tid else none), e)
/-- The tiles of a copy: the one it fills, the one it reads. -/
def CopyKind.tiles : CopyKind → Option Nat × Option Nat
  | .cpIn n _ _ _ | .fill n _ => (some n, none)
  | .cpOut n _ _ _ => (none, some n)
  | .tt d n _ => (some d, some n)
  | .wb _ _ _ _ => (none, none)
def optTile (s : State) (c : Nat) (u : Option UnitId) (n : Option Nat) (f : Tile → Tile) : State :=
  match n with
  | some n => modTile s c u n f
  | none => s
/-- The end of a copy, complete or failed (R199, R201, R202). A signal word whose bits hold an uncorrectable error is not written, and the
thread holds 0x14 with the word's offset as its element, as an atomic that reads one (R321, log 76). -/
def endCopy (s : State) (c : Nat) (q : Copy) (o : Op) (e : Option CopyErr) : State :=
  let u := q.shadowed o
  let t := q.kind.tiles
  let s := optTile s c u t.2 fun t => { t with st := .ready }
  let s := match e with
    | none =>
      let s := optTile s c u t.1 fun t => { t with st := .ready, err := 0 }
      match q.sig with
      | some a =>
        if markedBytes s c false a 4 then failOp s c o 0x14 (BitVec.ofNat 32 a)
        else dropPosts (writeScratch s c u a (bytesOf 4 (natOf (peekN (s.ctx c).scratch a 4) + 1))) c (.bytes o.world .l a 4)
      | none => s
    | some e =>
      let s := optTile s c u t.1 fun t => { t with st := .empty, err := e.code }
      failOp s c o e.code (BitVec.ofNat 32 e.k) (BitVec.ofNat 64 e.va)
  finishOp (s.modCtx c fun x => { x with copies := x.copies.filter (·.id != q.id) }) c o.id
def CopyKind.evict : CopyKind → Nat
  | .cpIn _ _ _ v | .cpOut _ _ _ v | .wb _ _ _ v => v
  | _ => 3
/-- A copy that may begin runs to its end; `fails` tells which end the event is. -/
def finishCopy (s : State) (c id : Nat) (fails : Bool) : State :=
  match (s.ctx c).copies.find? (·.id == id) with
  | none => s
  | some q => match s.op? c q.op with
    | none => s
    | some o =>
      if !copyReady s c q then s
      else
        let (s', e) := runCopy s c q { o with evict := q.kind.evict }
        if e.isSome = fails then endCopy s' c q o e else s
def execCopyComplete (c id : Nat) (s : State) : Answer := .next (finishCopy s c id false)
def execCopyFail (c id : Nat) (s : State) : Answer := .next (finishCopy s c id true)

end Sys2Proof.Machine
end

