-- ==== Sys2Proof/Machine/Matrix.lean ====
section
/-!
DEFINITION. The sign-select matrix array (R209 to R236): reservations, convergence registers and signing, operations in the
array queue, the accumulator instructions, and convergence images.
-/
namespace Sys2Proof.Machine

/-! ### Accumulators (R212, R215, R235) -/

def accWord (x : Ctx) (a w : Nat) : Word := x.acc.get 0 (a * 4096 + w)
/-- Element `w` of an accumulator, or of a pair, as a signed value. -/
def accVal (x : Ctx) (pair : Bool) (a w : Nat) : Int :=
  if pair then ((accWord x (a + 1) w).setWidth 16 ++ accWord x a w : BitVec 48).toInt else (accWord x a w).toInt
/-- A row of an accumulator as the shadow keeps it. -/
def accRow (x : Ctx) (a r : Nat) : List Word := (List.range 64).map fun c => accWord x a (64 * r + c)
def expBytes (m : Map Byte) (a : Nat) : List Byte := (List.range 64).map fun i => m.get 133 (a * 64 + i)
def setExps (m : Map Byte) (a : Nat) (l : List Byte) : Map Byte :=
  (l.foldl (fun (p : Map Byte × Nat) v => (p.1.set 133 (a * 64 + p.2) v, p.2 + 1)) (m, 0)).1
/-- Accumulators that an agent is about to write: rows and exponents join its unit's shadow where the unit held them at its last
barrier. -/
def cowAcc (s : State) (c : Nat) (ag : Agent) (as : List Nat) : State :=
  match unitOfAgent s c ag with
  | none => s
  | some u => as.foldl (fun s a =>
      match (s.ctx c).shadow u with
      | some sh =>
        if sh.accs.has (a * 64) || !(sh.rsv.any fun r => r.mask.getLsbD a) then s
        else
          let x := s.ctx c
          addShadow s c u fun v => { v with
            accs := (List.range 64).foldl (fun m r => m.put (a * 64 + r) (accRow x a r)) v.accs
            exps := v.exps.put a (expBytes x.rexp a, expBytes x.cexp a)
            marks := v.marks ++ marksWhere s c fun m => match m with | .acc _ b _ => a == b | _ => false }
      | none => s) s
/-- Every word of accumulators `as` written: word `w` of accumulator `a` becomes `f a w`. An error in a word goes with it. -/
def writeAccs (s : State) (c : Nat) (ag : Agent) (as : List Nat) (f : Nat → Nat → Word) : State :=
  let s := cowAcc s c ag as
  (s.modCtx c fun x => { x with acc := as.foldl (fun m a =>
    (List.range 4096).foldl (fun m w => m.set 0 (a * 4096 + w) (f a w)) m) x.acc }).modCore c fun k =>
    { k with marks := k.marks.filter fun m => match m with | .acc _ a _ => !as.contains a | _ => true }
def resetExps (s : State) (c : Nat) (as : List Nat) : State :=
  s.modCtx c fun x => { x with
    rexp := x.rexp.filter fun e => !as.contains (e.1 / 64)
    cexp := x.cexp.filter fun e => !as.contains (e.1 / 64) }
def accMarked (s : State) (c a w : Nat) : Bool :=
  (s.core c).marks.any fun m => match m with | .acc _ b v => a == b && w == v | _ => false

/-! ### Reservations (R217, R218) -/

/-- The mask an agent holds; none where it holds no reservation. An agent whose release waits for its queued entries (R218) holds none,
and may reserve other accumulators meanwhile: R217 does not say (DESIGN CHOICE, log 63). -/
def heldMask (x : Ctx) (a : Agent) : Option (BitVec 16) := (x.rsv.find? fun r => r.agent == a && !r.releasing).map (·.mask)
def reservedMask (x : Ctx) : BitVec 16 := x.rsv.foldl (fun m r => m ||| r.mask) 0
/-- What each active member of a command receives in a predicate. -/
def eachPred (s : State) (e : Env) (ts : List Nat) (k : Pred) (b : Bool) : State :=
  ts.foldl (fun s t => wrPred s { e with t := t } k b) s

/-- A new reservation of accumulators that a unit of another agent held at its last barrier: that unit rolls back no more (R235). -/
def retake (s : State) (c : Nat) (a : Agent) (mask : BitVec 16) : State :=
  s.modCtx c fun x => { x with
    shadows := x.shadows.map fun e =>
      if shadowAgent s c e.1 != a && e.2.rsv.any (fun r => r.mask &&& mask != 0) then (e.1, { e.2 with retaken := true }) else e }
def execMmRsv (h : Hdr) (kd : Pred) (a : Src) (s : State) : Answer :=
  .next (perBundle .app { srcs := one [a], engine := true } h (fun e _ ts s =>
    let m := rdWord s e h a
    if m.extractLsb' 16 16 ≠ 0 then raise s 0x01
    else
      let mask : BitVec 16 := m.setWidth 16
      let ag := s.agentOf e.c e.t
      let x := s.ctx e.c
      if (heldMask x ag).isSome ∨ mask = 0 ∨ mask &&& reservedMask x ≠ 0 then .done (eachPred s e ts kd false)
      else .done (eachPred ((retake s e.c ag mask).modCtx e.c fun x => { x with rsv := x.rsv ++ [{ agent := ag, mask := mask }] }) e ts kd true)) s)
def execMmRel (h : Hdr) (s : State) : Answer :=
  .next (perBundle .app { engine := true } h (fun e _ _ s =>
    let ag := s.agentOf e.c e.t
    if (heldMask (s.ctx e.c) ag).isNone then raise s 0x0B else .done (releaseMm s e.c ag)) s)

/-! ### Convergence registers and signing (R220 to R224) -/

/-- Whether a load of the register's image is outstanding (R232). -/
def cvLoading (x : Ctx) (n : Nat) : Bool := x.ops.any fun o => !o.done && (match o.body with
  | .ldcv _ _ cv _ _ _ => cv == n
  | _ => false)
/-- What stands between a thread and its signature: none where it is not declared, else the slot, or the lead bit, and whether it
has signed. -/
def signerOf (s : State) (c t : Nat) (cv : Cv) : Option (Option Nat × Bool) :=
  if (s.ctx c).lead = some t then (if cv.lead then some (none, cv.leadSigned) else none)
  else match cv.owner, (s.thr c t).grp with
    | .unit (.grp g), some (g', sl) => if g = g' ∧ cv.mask.getLsbD sl then some (some sl, cv.signed.getLsbD sl) else none
    | .unit (.thr t'), none => if t = t' ∧ cv.mask.getLsbD 0 then some (some 0, cv.signed.getLsbD 0) else none
    | _, _ => none
def maySign (s : State) (c t : Nat) (cv : Cv) : Bool := (signerOf s c t cv).any fun p => !p.2
/-- Stores that a thread had performed or observed when it last executed `mm.fence` (R225). -/
def fencedBy (s : State) (c t : Nat) : List Nat := ((s.ctx c).loose.filter (·.fenced.contains t)).map (·.id)
def signed (s : State) (c t : Nat) (cv : Cv) : Cv :=
  match signerOf s c t cv with
  | some (some sl, _) => { cv with signed := cv.signed ||| (1#32 <<< sl), cover := cv.cover ++ fencedBy s c t }
  | some (none, _) => { cv with leadSigned := true, cover := cv.cover ++ fencedBy s c t }
  | none => cv
def allSigned (cv : Cv) : Bool := cv.mask &&& ~~~cv.signed == 0 && (!cv.lead || cv.leadSigned)
/-- Every active member counts a tile operation. -/
def countEngine (s : State) (c : Nat) (ts : List Nat) (pc : DWord) : State × List Nat :=
  ts.foldl (fun p t => let r := addOp p.1 c t .tileops pc .engine; (r.1, p.2 ++ [r.2])) (s, [])
def tileopsFull (s : State) (c : Nat) (ts : List Nat) : Bool := ts.any fun t => s.count c t .tileops ≥ 63
/-- An entry enters the array queue. -/
def enqueueMm (s : State) (c : Nat) (q : MmEntry) : State := s.modCtx c fun x => { x with mq := x.mq ++ [q] }
def mqFull (x : Ctx) : Bool := x.mq.length ≥ 8
/-- Operand bytes of an operation under stores that no signer had fenced when it signed: old or new, it is not said (R225). -/
def uncovered (s : State) (c : Nat) (b : MmBound) (cv : Cv) : List Nat :=
  (((s.ctx c).loose.filter fun q => !cv.cover.contains q.id).flatMap fun q => mmTouched (s.ctx c) b q.w q.off q.n).eraseDups
/-- A register with every signature and a bound operation issues it and is IDLE again. -/
def issueCv (s : State) (c n : Nat) (pc : DWord) (cv : Cv) : State :=
  match cv.bound with
  | some b =>
    if allSigned cv then
      enqueueMm (s.modCtx c fun x => { x with cvs := x.cvs.del n }) c
        { agent := cv.owner, kind := .mma b, ops := cv.ops, pc := pc, since := (s.core c).ccnt.toNat, torn := uncovered s c b cv }
    else s.modCtx c fun x => { x with cvs := x.cvs.put n cv }
  | none => s.modCtx c fun x => { x with cvs := x.cvs.put n cv }

/-- Whether a signer set is valid for an agent (R221). -/
def signersOk (s : State) (c : Nat) (a : Agent) (lead : Bool) (mask : Word) : Bool :=
  (mask != 0 || lead) && (!lead || (s.ctx c).lead.isSome) &&
    (match a with
      | .unit (.grp g) => match s.group? c g with
        | some gr => (List.range 32).all fun i => !mask.getLsbD i || gr.mem.has i
        | none => false
      | .unit (.thr _) => mask &&& ~~~1#32 == 0
      | .lead => mask == 0
      | .gone _ => false)
def execMmDecl (h : Hdr) (lead : Bool) (cv : BitVec 4) (a : Src) (s : State) : Answer :=
  .next (perBundle .app { srcs := one [a], engine := true } h (fun e _ _ s =>
    let x := s.ctx e.c
    let ag := s.agentOf e.c e.t
    if cvLoading x cv.toNat then .wait s (.retry (.cvLoad cv.toNat))
    else match heldMask x ag with
      | none => raise s 0x0B
      | some m =>
        if !m.getLsbD cv.toNat ∨ x.cvs.has cv.toNat then raise s 0x0C
        else
          let mask := rdWord s e h a
          if !signersOk s e.c ag lead mask then raise s 0x0D
          else .done (s.modCtx e.c fun x => { x with cvs := x.cvs.put cv.toNat { owner := ag, mask := mask, lead := lead, bound := none } })) s)
def execMmSign (h : Hdr) (cv : BitVec 4) (s : State) : Answer :=
  .next (perBundle .app { engine := true } h (fun e pc ts s =>
    let x := s.ctx e.c
    if cvLoading x cv.toNat then .wait s (.retry (.cvLoad cv.toNat))
    else if tileopsFull s e.c ts then .wait s (.retry (.room .tileops))
    else match x.cvs.look cv.toNat with
      | none => raise s 0x0D
      | some v =>
        if !(ts.all fun t => maySign s e.c t v) then raise s 0x0D
        else
          let v' := ts.foldl (fun v t => signed s e.c t v) v
          if v'.bound.isSome && allSigned v' && mqFull x then .wait s (.retry .mmQueue)
          else
            let r := countEngine s e.c ts pc
            .done (issueCv r.1 e.c cv.toNat pc { v' with ops := v'.ops ++ r.2 })) s)

def fenceLoose (s : State) (c t : Nat) : State :=
  s.modCtx c fun x => { x with loose := x.loose.map fun q => if q.seen.contains t then { q with fenced := q.fenced ++ [t] } else q }
/-- `mm.fence` (R225): the release at scope `core` that waits for the thread's local stores. -/
def execMmFence (h : Hdr) (s : State) : Answer :=
  .next (perThread .app {} h (fun e _ s =>
    if releaseReady s e.c e.t .core then .done (fenceLoose (releaseAt s e.c e.t) e.c e.t) else .wait s (.retry (.released .core))) s)

/-- The accumulators of BOUND operations, those of register `n` apart. -/
def boundAccs (x : Ctx) (n : Nat) : List Nat := x.cvs.flatMap fun (m, v) =>
  if m = n then [] else match v.bound with
    | some b => accSet b.mode.shape.pair b.acc
    | none => []
/-- The checks of `mm.mma` in order (R222): what it raises, what it waits for, or the register. -/
def mmaCheck (s : State) (c : Nat) (a : Agent) (ts : List Nat) (n : Nat) (b : MmBound) (sg : Bool) : Except (Sum (BitVec 6) Why) Cv :=
  let x := s.ctx c
  let sh := b.mode.shape
  match x.cvs.look n with
  | none => .error (.inl 0x0D)
  | some v =>
    if v.bound.isSome then .error (.inl 0x0C)
    else if v.owner ≠ a ∧ !(a = .lead ∧ v.lead) then .error (.inl 0x0D)
    else
      let mask := (heldMask x v.owner).getD 0
      if (accSet sh.pair b.acc).any fun i => !mask.getLsbD i || (boundAccs x n).contains i then .error (.inl 0x0C)
      else match x.tiles.look b.tile with
        | none => .error (.inl 0x09)
        | some t =>
          if t.rows ≠ 64 ∨ t.cols ≠ 192 ∨ t.esz ≠ sh.esz then .error (.inl 0x0A)
          else if t.st ≠ .ready then .error (.inr (.tile b.tile))
          else if b.off % 64 ≠ 0 then .error (.inl 0x03)
          else if b.off + sh.block > 262144 then .error (.inl 0x05)
          else if b.mode = .t5i8bx ∧ b.xe % 64 ≠ 0 then .error (.inl 0x03)
          else if b.mode = .t5i8bx ∧ b.xe + 64 > scratchSize x then .error (.inl 0x05)
          else if sg && !(ts.all fun t => maySign s c t v) then .error (.inl 0x0D)
          else .ok v
/-- `mm.mma` in every mode. -/
def mma (mode : MmMode) (h : Hdr) (cv : BitVec 4) (z sg : Bool) (acc : BitVec 4) (tl : BitVec 7) (b : Src) (xe : Option Src) (s : State) : State :=
  perBundle .app { srcs := one (b :: xe.toList), engine := true } h (fun e pc ts s =>
    let n := cv.toNat
    let bd : MmBound := { mode := mode, acc := acc.toNat, tile := tl.toNat, off := (rdWord s e h b).toNat,
                          xe := (xe.map fun x => (rdWord s e h x).toNat).getD 0, z := z }
    if cvLoading (s.ctx e.c) n then .wait s (.retry (.cvLoad n))
    else if tileopsFull s e.c ts then .wait s (.retry (.room .tileops))
    else match mmaCheck s e.c (s.agentOf e.c e.t) ts n bd sg with
      | .error (.inl x) => raise s x
      | .error (.inr w) => .wait s (.retry w)
      | .ok v =>
        let v := if sg then ts.foldl (fun v t => signed s e.c t v) v else v
        if allSigned v && mqFull (s.ctx e.c) then .wait s (.retry .mmQueue)
        else
          let r := countEngine (readersAdd (ts.foldl (fun s t => tileAcquire s e.c t bd.tile) s) e.c bd.tile 1) e.c ts pc
          .done (issueCv r.1 e.c n pc { v with bound := some bd, ops := v.ops ++ r.2 })) s
def execMmMmaT1i8 (h : Hdr) (cv : BitVec 4) (z sg : Bool) (acc : BitVec 4) (tl : BitVec 7) (b : Src) (s : State) : Answer :=
  .next (mma .t1i8 h cv z sg acc tl b none s)
def execMmMmaT5i8 (h : Hdr) (cv : BitVec 4) (z sg : Bool) (acc : BitVec 4) (tl : BitVec 7) (b : Src) (s : State) : Answer :=
  .next (mma .t5i8 h cv z sg acc tl b none s)
def execMmMmaT5i8Bx (h : Hdr) (cv : BitVec 4) (z sg : Bool) (acc : BitVec 4) (tl : BitVec 7) (b c : Src) (s : State) : Answer :=
  .next (mma .t5i8bx h cv z sg acc tl b (some c) s)
def execMmMmaT11i16 (h : Hdr) (cv : BitVec 4) (z sg : Bool) (acc : BitVec 4) (tl : BitVec 7) (b : Src) (s : State) : Answer :=
  .next (mma .t11i16 h cv z sg acc tl b none s)
def execMmMmaRing16 (h : Hdr) (cv : BitVec 4) (z sg : Bool) (acc : BitVec 4) (tl : BitVec 7) (b : Src) (s : State) : Answer :=
  .next (mma .ring16 h cv z sg acc tl b none s)
def execMmMmaRing32 (h : Hdr) (cv : BitVec 4) (z sg : Bool) (acc : BitVec 4) (tl : BitVec 7) (b : Src) (s : State) : Answer :=
  .next (mma .ring32 h cv z sg acc tl b none s)

/-! ### Accumulator instructions (R226, R228 to R230) -/

/-- The checks of R228 on the accumulators. -/
def accCheck (s : State) (c : Nat) (a : Agent) (as : List Nat) : Option (BitVec 6) :=
  let x := s.ctx c
  match heldMask x a with
  | none => some 0x0B
  | some m => if as.any fun i => !m.getLsbD i || (boundAccs x 16).contains i then some 0x0C else none
/-- An accumulator instruction: counters, the checks, room in the queue, then the entry. -/
def accAct (h : Hdr) (as : List Nat) (tile : State → Nat → Option (Sum (BitVec 6) Why)) (take : State → Env → State) (k : MmKind)
    (s : State) : State :=
  perBundle .app { engine := true } h (fun e pc ts s =>
    if tileopsFull s e.c ts then .wait s (.retry (.room .tileops))
    else match accCheck s e.c (s.agentOf e.c e.t) as with
      | some x => raise s x
      | none => match tile s e.c with
        | some (.inl x) => raise s x
        | some (.inr w) => .wait s (.retry w)
        | none =>
          if mqFull (s.ctx e.c) then .wait s (.retry .mmQueue)
          else
            let r := countEngine (take s e) e.c ts pc
            .done (enqueueMm r.1 e.c { agent := s.agentOf e.c e.t, kind := k, ops := r.2, pc := pc, since := (s.core e.c).ccnt.toNat })) s
def execAccClr (h : Hdr) (w48 : Bool) (acc : BitVec 4) (s : State) : Answer :=
  .next (accAct h (accSet w48 acc.toNat) (fun _ _ => none) (fun s _ => s) (.clr acc.toNat w48) s)
def execAccSt (h : Hdr) (w48 : Bool) (acc : BitVec 4) (tl : BitVec 7) (s : State) : Answer :=
  .next (accAct h (accSet w48 acc.toNat)
    (fun s c => match (s.ctx c).tiles.look tl.toNat with
      | none => some (.inl 0x09)
      | some t =>
        if t.rows ≠ 64 ∨ t.cols ≠ 64 ∨ t.esz ≠ (if w48 then 8 else 4) then some (.inl 0x0A)
        else if t.st ≠ .ready then some (.inr (.tile tl.toNat))
        else none)
    (fun s e => tileSt (tileAcquire s e.c e.t tl.toNat) e tl .draining) (.st acc.toNat tl.toNat w48) s)
def Interp.pair : Interp → Bool
  | .w48 | .ring => true
  | _ => false
/-- Destinations of an interpretation (R230). -/
def interpTakes (i : Interp) (t : Ty) : Bool :=
  match i with
  | .s32 => [Ty.s32, .s16, .s8, .f32, .bf16, .f16].contains t
  | .bx => [Ty.f32, .bf16, .f16].contains t
  | .w48 => [Ty.s64, .s32, .f32, .bf16, .f16].contains t
  | .ring => [Ty.u16, .u32].contains t
def execAccRd (h : Hdr) (itp : Interp) (ty : Ty) (rm : Rm) (tl : BitVec 7) (acc : BitVec 4) (s : State) : Answer :=
  .next (accAct h (accSet (Interp.pair itp) acc.toNat)
    (fun s c => match (s.ctx c).tiles.look tl.toNat with
      | none => some (.inl 0x09)
      | some t =>
        if !isEmptyTile t then some (.inl 0x09)
        else if t.rows ≠ 64 ∨ t.cols ≠ 64 ∨ t.esz ≠ ty.bits / 8 then some (.inl 0x0A)
        else if !interpTakes itp ty then some (.inl 0x01)
        else none)
    (fun s e => tileSt s e tl .filling) (.rd acc.toNat tl.toNat itp ty rm) s)

/-! ### The array at work (R210, R211, R215, R224, R230, R233) -/

/-- The working cycles of an entry, and how many cycles after the last of them it completes. -/
def MmKind.work : MmKind → Nat
  | .mma b => 8 * b.mode.shape.passes
  | .clr _ _ => 2
  | .st _ _ pair => if pair then 32 else 16
  | .rd _ _ _ ty _ => if ty.bits = 64 then 32 else 16
def MmKind.tail : MmKind → Nat
  | .mma _ => 5
  | _ => 1
/-- The cycle in which an entry that has reached the head starts. -/
def mmStart (x : Ctx) (q : MmEntry) : Nat := if x.mlast > 0 ∧ x.mlast ≥ q.since then x.mlast + 1 else q.since + 12
def mmDone (q : MmEntry) : Option Nat := q.start.map fun st => st + q.kind.work - 1 + q.kind.tail
def mmNext (x : Ctx) : Option Nat := (List.range x.mq.length).find? fun i => (x.mq[i]?).any (·.start.isNone)
/-- Exponent byte i of an operation's rows or columns: unspecified where a store changed it meanwhile or its data is lost. -/
def expByte (s : State) (c : Nat) (q : MmEntry) (b : MmBound) (row : Bool) (i : Nat) : Byte :=
  let at_ := if row then b.xe + i else b.off + 12288 + i
  if q.torn.contains ((if row then 128 else 192) + i) || markedBytes s c (!row) at_ 1 then (s.free (4096 + at_)).setWidth 8
  else peek (if row then (s.ctx c).scratch else (s.ctx c).wbuf) at_
/-- The exponent vectors an operation sets (R215). -/
def setOpExps (s : State) (c : Nat) (q : MmEntry) : State :=
  match q.kind with
  | .mma b =>
    if b.mode = .t5i8bx then
      let s := cowAcc s c q.agent [b.acc]
      let r := (List.range 64).map (expByte s c q b true)
      let k := (List.range 64).map (expByte s c q b false)
      s.modCtx c fun x => { x with rexp := setExps x.rexp b.acc r, cexp := setExps x.cexp b.acc k }
    else s
  | _ => s
/-- The first entry that has not started starts; the one behind it reaches the head. -/
def execArrayEntryStart (c : Nat) (s : State) : Answer :=
  let x := s.ctx c
  match mmNext x with
  | none => .next s
  | some i => match x.mq[i]? with
    | none => .next s
    | some q =>
      let st := mmStart x q
      if (s.core c).ccnt.toNat < st then .next s
      else
        let s := s.modCtx c fun x => { x with
          mlast := st + q.kind.work - 1
          mq := modAt (modAt x.mq i fun q => { q with start := some st }) (i + 1) fun q => { q with since := (s.core c).ccnt.toNat } }
        .next (setOpExps s c q)

/-- Element k of column c of the B block, and whether its code is invalid (R67, R210, R214). -/
def bElem (m : List Host.Cell) (b : MmBound) (c k : Nat) : Int × Bool :=
  let at_ := b.off + c * b.mode.shape.stride
  match b.mode with
  | .t1i8 => let t := trits5 (peek m (at_ + k / 5)); (t.1.getD (k % 5) 0, t.2)
  | .t5i8 | .t5i8bx => t5Value (peek m (at_ + k))
  | .t11i16 | .ring16 => ((BitVec.ofNat 16 (natOf (peekN m (at_ + 2 * k) 2))).toInt, false)
  | .ring32 => ((BitVec.ofNat 32 (natOf (peekN m (at_ + 4 * k) 4))).toInt, false)
/-- Every byte of a column that is read: an invalid code in one of them sets SAT, at the unused digits of its last byte too. -/
def bColumn (m : List Host.Cell) (b : MmBound) (c : Nat) : List Int × Bool :=
  let l := (List.range 192).map (bElem m b c)
  (l.map (·.1), l.any (·.2))
def aElem (x : Ctx) (t : Tile) (r k : Nat) : Int :=
  (BitVec.ofNat (8 * t.esz) (natOf (peekN x.scratch (t.off + r * t.pitch + k * t.esz) t.esz))).toInt
/-- A word of element `w` of accumulator `a` whose signed value is `v`. -/
def accBits (base : Nat) (pair : Bool) (v : Int) (a : Nat) : Word :=
  if pair then (if a = base then BitVec.ofInt 32 v else ((BitVec.ofInt 48 v).extractLsb' 32 16).signExtend 32)
  else BitVec.ofInt 32 v
def dot (a b : List Int) : Int := (a.zip b).foldl (fun n p => n + p.1 * p.2) 0
/-- R211: the state with the accumulator written, and whether uncorrectable data was consumed. -/
def runMma (s : State) (c : Nat) (q : MmEntry) (b : MmBound) : State × Bool :=
  let x := s.ctx c
  let sh := b.mode.shape
  match x.tiles.look b.tile with
  | none => (s, false)
  | some t =>
    let rowBad := fun r => markedBytes s c false (t.off + r * t.pitch) (192 * sh.esz)
    let colBad := fun k => markedBytes s c true (b.off + k * sh.stride) sh.used
    let badR := (List.range 64).filter rowBad
    let badC := (List.range 64).filter colBad
    let freeR := badR ++ q.torn.filter (· < 64)
    let freeC := badC ++ (q.torn.filter fun n => 64 ≤ n && n < 128).map (· - 64)
    let cols := (List.range 64).map (bColumn x.wbuf b)
    let rows := (List.range 64).map fun r => (List.range 192).map (aElem x t r)
    let accBad := fun w => !b.z && (accSet sh.pair b.acc).any fun a => accMarked s c a w
    let val := fun w =>
      let (r, k) := (w / 64, w % 64)
      (if b.z then 0 else accVal x sh.pair b.acc w) + dot (rows.getD r []) (cols.getD k ([], false)).1
    let free := fun w => freeR.contains (w / 64) || freeC.contains (w % 64) || accBad w
    let s1 := writeAccs s c q.agent (accSet sh.pair b.acc) fun a w =>
      if free w then s.free (8192 + a * 4096 + w) else accBits b.acc sh.pair (val w) a
    let later := ((x.mq.dropWhile (· != q)).drop 1).any fun p => p.start.isSome && (match p.kind with
      | .mma p => p.mode == .t5i8bx && p.acc == b.acc
      | _ => false)
    let s1 := if q.torn.any (· ≥ 128) && !later then setOpExps s1 c q else s1
    let sat := (List.range 64).any fun k => (cols.getD k ([], false)).2 && (!freeC.contains k || Config.choose s.tick k % 2 = 0)
    let lost := !badR.isEmpty || !badC.isEmpty || (List.range 4096).any accBad ||
      (b.mode = .t5i8bx && (markedBytes s c false b.xe 64 || markedBytes s c true (b.off + 12288) 64))
    (if sat then setSatAgent s1 c q.agent else s1, lost)
/-- Element `w` of an accumulator converted for `acc.rd`: bits and SAT (R230). -/
def accOut (x : Ctx) (itp : Interp) (ty : Ty) (rm : Rm) (a w : Nat) : Nat × Bool :=
  let v := accVal x (Interp.pair itp) a w
  match itp with
  | .ring => ((BitVec.ofInt 48 v).toNat % 2 ^ ty.bits, false)
  | .bx =>
    let e : Int := (x.rexp.get 133 (a * 64 + w / 64)).toNat + (x.cexp.get 133 (a * 64 + w % 64)).toNat - 266
    roundC (Ty.fmt ty) .rne (v < 0) v.natAbs 1 e
  | .s32 | .w48 =>
    if ty.isFloat then roundC (Ty.fmt ty) rm (v < 0) v.natAbs 1 0
    else let r := clamp (tyMin ty) (tyMax ty) v; ((BitVec.ofInt 64 r.1).toNat % 2 ^ ty.bits, r.2)
/-- The effect of an accumulator instruction. -/
def runAcc (s : State) (c : Nat) (q : MmEntry) : State × Bool :=
  let x := s.ctx c
  let u := unitOfAgent s c q.agent
  match q.kind with
  | .clr a pair => (resetExps (writeAccs s c q.agent (accSet pair a) fun _ _ => 0) c (accSet pair a), false)
  | .st a n pair => match x.tiles.look n with
    | none => (s, false)
    | some t =>
      let bad := fun w => markedBytes s c false (t.at_ w) t.esz
      let s1 := writeAccs s c q.agent (accSet pair a) fun b w =>
        if bad w then s.free (8192 + b * 4096 + w)
        else accBits a pair ((BitVec.ofNat 64 (natOf (peekN x.scratch (t.at_ w) t.esz))).toInt) b
      (modTile (resetExps s1 c (accSet pair a)) c u n fun t => { t with st := .ready }, (List.range 4096).any bad)
  | .rd a n itp ty rm => match x.tiles.look n with
    | none => (s, false)
    | some t =>
      let bad := fun w => (accSet (Interp.pair itp) a).any fun b => accMarked s c b w
      let out := fun (r k : Nat) =>
        if bad (64 * r + k) then bytesOf t.esz ((s.free (2 * (64 * r + k))).toNat + 2 ^ 32 * (s.free (2 * (64 * r + k) + 1)).toNat)
        else bytesOf t.esz (accOut x itp ty rm a (64 * r + k)).1
      let s1 := writeScratch s c u t.off (footprint t out)
      let s1 := modTile s1 c u n fun t => { t with st := .ready, err := 0 }
      let sat := (List.range 4096).any fun w => !bad w && (accOut x itp ty rm a w).2
      (if sat then setSatAgent s1 c q.agent else s1, (List.range 4096).any bad)
  | .mma b => runMma s c q b
def MmKind.audited : MmKind → Bool
  | .mma _ => true
  | _ => false
/-- What the auditor logs of an operation (R324): the mode, the A tile, the B block, the exponents, the accumulators before it. -/
def mmInputs (x : Ctx) (b : MmBound) : List Nat :=
  let sh := b.mode.shape
  let a := match x.tiles.look b.tile with
    | some t => (List.range 64).flatMap fun i => peekN x.scratch (t.off + i * t.pitch) (192 * sh.esz)
    | none => []
  let e := if b.mode == .t5i8bx then peekN x.scratch b.xe 64 else []
  let accs := accSet sh.pair b.acc
  b.mode.ctorIdx :: b.z.toNat :: ((a ++ peekN x.wbuf b.off sh.block ++ e).map (·.toNat) ++
    (accs.flatMap fun n => (List.range 64).flatMap fun i => [(x.rexp.get 133 (n * 64 + i)).toNat, (x.cexp.get 133 (n * 64 + i)).toNat]) ++
    (accs.flatMap fun n => (List.range 4096).map fun k => (accWord x n k).toNat))
/-- The effects of entry i, after those of earlier entries on the same accumulators. Threads counted for an entry that consumed lost
data hold 0x14. -/
def performMm (c : Nat) : List Nat → State → State
  | [], s => s
  | i :: l, s => match (s.ctx c).mq[i]? with
    | none => performMm c l s
    | some q =>
      if q.wrote then performMm c l s
      else
        let (s', lost) := runAcc s c q
        let s' := if lost then audAdvance (failOps s' c q.ops 0x14) c q.kind.audited
          else match q.kind with
            | .mma b => auditSample s' c (mmInputs (s.ctx c) b) ((accSet b.mode.shape.pair b.acc).flatMap fun a => (List.range 4096).map (accWord (s'.ctx c) a))
            | _ => s'
        performMm c l (s'.modCtx c fun x => { x with mq := modAt x.mq i fun q => { q with wrote := true } })
/-- Entry i completes: its effect is there, the tile read ends, and its counters fall. -/
def completeMm (s : State) (c i : Nat) : State :=
  match (s.ctx c).mq[i]? with
  | none => s
  | some q =>
    let before := (List.range i).filter fun j => ((s.ctx c).mq[j]?).any fun p => p.kind.accs.any q.kind.accs.contains
    let s := performMm c (before ++ [i]) s
    let s := match q.kind with | .mma b => readersAdd s c b.tile (-1) | _ => s
    let s := q.ops.foldl (finishOp · c) s
    settleRsv (s.modCtx c fun x => { x with mq := x.mq.eraseIdx i }) c
/-- The first entry of a kind whose completion is due. -/
def mmDue (s : State) (c : Nat) (isMma : Bool) : Option Nat :=
  let x := s.ctx c
  (List.range x.mq.length).find? fun i => (x.mq[i]?).any fun q =>
    (match q.kind with | .mma _ => isMma | _ => !isMma) && (mmDone q).any (· ≤ (s.core c).ccnt.toNat)
def execMatrixOpComplete (c : Nat) (s : State) : Answer :=
  match mmDue s c true with
  | some i => .next (completeMm s c i)
  | none => .next s
def execAccInstrComplete (c : Nat) (s : State) : Answer :=
  match mmDue s c false with
  | some i => .next (completeMm s c i)
  | none => .next s

/-! ### System registers (R219) -/

def mmstWord (s : State) (c t : Nat) : Word :=
  let x := s.ctx c
  let now := (s.core c).ccnt.toNat
  let pass := (x.mq.findSome? fun q => match q.kind, q.start with
    | .mma b, some st => if now < st + q.kind.work then some (min ((now - st) / 8) (b.mode.shape.passes - 1)) else none
    | _, _ => none).getD 0
  BitVec.ofNat 32 (((heldMask x (s.agentOf c t)).getD 0).toNat + (if x.mq.isEmpty then 0 else 65536) + 2 ^ 17 * x.mq.length + 2 ^ 21 * pass)
def mmrsvWord (s : State) (c : Nat) : Word := (reservedMask (s.ctx c)).setWidth 32

/-! ### Convergence images (R232) -/

def ownerCode (s : State) (c : Nat) : Agent → Nat
  | .unit (.grp g) => g
  | .unit (.thr t) => 2 ^ 14 + t
  | .lead => 2 ^ 15 + ((s.ctx c).lead).getD 0
  | .gone _ => 0
def MmMode.code : MmMode → Nat × Nat
  | .t1i8 => (0xB5, 0) | .t5i8 => (0xB5, 1) | .t5i8bx => (0xB5, 2) | .t11i16 => (0xB6, 0) | .ring16 => (0xB7, 0) | .ring32 => (0xB7, 1)
def cvImage (s : State) (c n : Nat) : List Byte :=
  match (s.ctx c).cvs.look n with
  | none => List.replicate 32 0
  | some v =>
    let b := fun (f : MmBound → Nat) => (v.bound.map f).getD 0
    bytesOf 1 (if v.bound.isSome then 2 else 1) ++
    bytesOf 1 (v.lead.toNat + 2 * v.leadSigned.toNat + 4 * b (·.z.toNat)) ++
    bytesOf 2 (ownerCode s c v.owner) ++ bytesOf 4 v.mask.toNat ++ bytesOf 4 v.signed.toNat ++
    bytesOf 1 (b (·.mode.code.1)) ++ bytesOf 1 (b (·.mode.code.2)) ++ bytesOf 1 (b (·.acc)) ++ bytesOf 1 (b (·.tile)) ++
    bytesOf 4 (b (·.off)) ++ bytesOf 4 (b (·.xe)) ++ List.replicate 8 0
def execStcv (h : Hdr) (m : MMod) (cv : BitVec 4) (a : Src) (s : State) : Answer :=
  .next (perThread .app { srcs := baseUses m.space a } h (storeAct m 32 32 h a fun s e => cvImage s e.c cv.toNat) s)
def execLdcv (h : Hdr) (m : MMod) (cv : BitVec 4) (a : Src) (s : State) : Answer :=
  .next (perThread .app { srcs := baseUses m.space a } h (fun e pc s =>
    let x := s.ctx e.c
    if cvLoading x cv.toNat then .wait s (.retry (.cvLoad cv.toNat))
    else match loadAct m 32 32 .b32 .zero h a e pc s with
      | .done s' => match heldMask x (s.agentOf e.c e.t) with
        | none => raise s 0x0B
        | some k =>
          if !k.getLsbD cv.toNat ∨ x.cvs.has cv.toNat then raise s 0x0C
          else .done (s'.modOp e.c x.nextOp fun o => { o with body := match o.body with
            | .load sp va _ _ _ ord sc val => .ldcv sp va cv.toNat ord sc val
            | b => b })
      | r => r) s)
/-- The image takes effect, or the register stays IDLE and the thread holds 0x0A. Where the agent has given its reservation back since
the instruction issued, R232 does not say: a valid image is dropped and nothing fails (DESIGN CHOICE, log 63). -/
def applyImage (s : State) (c : Nat) (o : Op) (n : Nat) (l : List Byte) : State :=
  let ag := s.agentOf c o.tid
  let st := bytesNat l 0 1
  let fl := bytesNat l 1 1
  let ok := st = 1 ∧ bytesNat l 8 4 = 0 ∧ fl / 2 % 2 = 0 ∧ bytesNat l 2 2 = ownerCode s c ag
  if st = 0 then s
  else if ok then
    if ((heldMask (s.ctx c) ag).any fun m => m.getLsbD n) && !(s.ctx c).cvs.has n then
      s.modCtx c fun x => { x with cvs := x.cvs.put n { owner := ag, mask := BitVec.ofNat 32 (bytesNat l 4 4), lead := fl % 2 = 1, bound := none } }
    else s
  else failOp s c o 0x0A

end Sys2Proof.Machine
end

