-- ==== Sys2Proof/Machine/Sort.lean ====
section
/-!
DEFINITION. The sort array (R237 to R254).
-/
namespace Sys2Proof.Machine

/-! ### Cells and the network (R237, R239, R240) -/

/-- The row and column of a position. -/
def cellAt (rows : Bool) (p : Nat) : Nat × Nat :=
  let r := p / 64
  (r, if rows || r % 2 = 0 then p % 64 else 63 - p % 64)
def cellOf (m : Map Cell) (rc : Nat × Nat) : Cell := m.get {} (rc.1 * 64 + rc.2)
def codeOf (o : SortOpt) (x : Cell) : Nat := keyCode o.ty o.zeq x.key
def before (o : SortOpt) (x y : Cell) : Bool :=
  if x.valid != y.valid then x.valid
  else if !x.valid then false
  else if codeOf o x ≠ codeOf o y then xor (codeOf o x < codeOf o y) o.desc
  else o.stable && x.org < y.org
/-- Compare-exchange of places i and j, i the earlier place. -/
def cx (o : SortOpt) (l : List Cell) (i j : Nat) : List Cell :=
  match l[i]?, l[j]? with
  | some x, some y => if before o y x then (l.set i y).set j x else l
  | _, _ => l
/-- One stage of the network of a phase on a line of 64 cells. -/
def stage (o : SortOpt) (p q : Nat) (l : List Cell) : List Cell :=
  (List.range 64).foldl (fun l i =>
    if i.testBit q then l
    else if p < 5 && i.testBit (p + 1) then cx o l (i + 2 ^ q) i else cx o l i (i + 2 ^ q)) l
def sortLine (o : SortOpt) (l : List Cell) : List Cell :=
  (List.range 6).foldl (fun l p => (List.range (p + 1)).foldl (fun l k => stage o p (p - k) l) l) l
/-- Cells of the grid put back at their places. -/
def putCells (m : Map Cell) (l : List ((Nat × Nat) × Cell)) : Map Cell :=
  l.foldl (fun m (rc, v) => m.set {} (rc.1 * 64 + rc.2) v) m
/-- A network on the lines whose places are given. -/
def onLines (m : Map Cell) (lines : List (List (Nat × Nat))) (f : List Cell → List Cell) : Map Cell :=
  putCells m (lines.flatMap fun l => l.zip (f (l.map (cellOf m))))
def snakeRow (r : Nat) : List (Nat × Nat) := (List.range 64).map fun i => cellAt false (64 * r + i)
def plainRow (r : Nat) : List (Nat × Nat) := (List.range 64).map fun i => (r, i)
def column (k : Nat) : List (Nat × Nat) := (List.range 64).map fun i => (i, k)
/-- Phase n of a full sort (R241). -/
def phase (o : SortOpt) (n : Nat) (m : Map Cell) : Map Cell :=
  onLines m ((List.range 64).map (if n % 2 = 0 then snakeRow else column)) (sortLine o)
def runPhases (a : SortArr) (n : Nat) : SortArr :=
  (List.range n).foldl (fun a _ => { a with cells := phase a.opt a.opt.count a.cells, opt := { a.opt with count := a.opt.count + 1 } }) a

/-! ### The hold, the queue and the state ahead (R243) -/

/-- The options and counters once a command has completed. -/
def SortCmd.after (n : Nat) (o : SortOpt) : SortCmd → SortOpt
  | .load _ _ ty desc stable zeq => { ty := ty, desc := desc, stable := stable, zeq := zeq, rows := false, count := 0, loaded := n }
  | .run k => { o with count := o.count + k }
  | .topk _ => { o with rows := true, count := 0 }
  | _ => o
/-- The options as they will stand once every command in the queue has completed. -/
def SortArr.ahead (a : SortArr) : SortOpt := a.queue.foldl (fun o q => q.cmd.after o.loaded o) a.opt
def holdsSort (s : State) (c : Nat) (a : Agent) : Bool := (s.ctx c).sort.holder == some a
def sortFull (x : Ctx) : Bool := x.sort.queue.length ≥ 4
/-- A command enters the queue, counted for every active member. -/
def enqueueSort (s : State) (c : Nat) (ts : List Nat) (pc : DWord) (k : SortCmd) : State :=
  let r := ts.foldl (fun (p : State × List Nat) t => let r := addOp p.1 c t .tileops pc .engine; (r.1, p.2 ++ [r.2])) (s, [])
  let q : SortEntry := { cmd := k, tids := ts, ops := r.2, pc := pc, since := (s.core c).ccnt.toNat }
  r.1.modCtx c fun x => { x with sort := { x.sort with queue := x.sort.queue ++ [q] } }
/-- What holds a command back: a full counter or a full queue. -/
def sortRoom (s : State) (c : Nat) (ts : List Nat) : Option Why :=
  if ts.any fun t => s.count c t .tileops ≥ 63 then some (.room .tileops)
  else if sortFull (s.ctx c) then some .sortQueue
  else none
/-- A command of the holder: the hold, its own checks, room, then the queue. -/
def sortAct (u : Uses) (h : Hdr) (act : Env → List Nat → State → Except (BitVec 6) (State × SortCmd)) (s : State) : State :=
  perBundle .app { u with engine := true } h (fun e pc ts s =>
    if !holdsSort s e.c (s.agentOf e.c e.t) then raise s 0x0E
    else match act e ts s with
      | .error x => raise s x
      | .ok (s', k) => match sortRoom s e.c ts with
        | some w => .wait s (.retry w)
        | none => .done (enqueueSort s' e.c ts pc k)) s

/-! ### Commands (R244 to R250) -/

/-- A key tile and a payload tile of the right shape. -/
def sortShape (ty : Ty) (k : Tile) (p : Option Tile) : Bool :=
  k.esz == ty.bits / 8 && k.rows * k.cols ≤ 4096 && (p.all fun p => p.esz == 4 && p.rows == k.rows && p.cols == k.cols)
def optTileAt (s : State) (e : Env) (n : Option (BitVec 7)) : Option (Option Tile) :=
  match n with
  | none => some none
  | some n => (tileAt s e n).map some
/-- The array joins the shadow of a unit that takes its hold within an interval (R253). Another agent may have used it since the barrier:
what the shadow keeps is the array as it stands when the hold is taken, with no holder (DESIGN CHOICE, log 77). -/
def shadowSort (s : State) (c : Nat) (a : Agent) : State :=
  match unitOfAgent s c a with
  | some u => modShadow s c u fun sh => if sh.sort.isSome then sh else
      { sh with sort := some { (s.ctx c).sort with cells := [], queue := [], holder := none } }
  | none => s
/-- `sort.load` (R244). One by the holder while its `sort.state.rel` waits for queued commands makes the hold go on: R250 does not say
whether it still ends (DESIGN CHOICE, log 77). -/
def execSortLoad (h : Hdr) (desc stable zeq : Bool) (ty : Ty) (kd : Pred) (tk : BitVec 7) (tp : Option (BitVec 7)) (s : State) : Answer :=
  .next (perBundle .app { engine := true } h (fun e pc ts s =>
    match tileAt s e tk, optTileAt s e tp with
    | some k, some p =>
      if !sortShape ty k p then raise s 0x0A
      else if k.st ≠ .ready then .wait s (.retry (.tile tk.toNat))
      else if p.any (·.st != .ready) then .wait s (.retry (.tile ((tp.getD 0).toNat)))
      else
        let ag := s.agentOf e.c e.t
        if (s.ctx e.c).sort.holder.isSome && !holdsSort s e.c ag then
          .done (ts.foldl (fun s t => wrPred s { e with t := t } kd false) s)
        else match sortRoom s e.c ts with
          | some w => .wait s (.retry w)
          | none =>
            let s := ts.foldl (fun s t => (tk :: tp.toList).foldl (fun s n => tileAcquire s e.c t n.toNat) s) (shadowSort s e.c ag)
            let s := ts.foldl (fun s t => wrPred s { e with t := t } kd true) s
            let s := s.modCtx e.c fun x => { x with sort := { x.sort with holder := some ag, releasing := false } }
            let s := (tk :: tp.toList).foldl (fun s n => readersAdd s e.c n.toNat 1) s
            .done (enqueueSort s e.c ts pc (.load tk.toNat (tp.map (·.toNat)) ty desc stable zeq))
    | _, _ => raise s 0x09) s)
def execSortRun (h : Hdr) (a : Src) (s : State) : Answer :=
  .next (sortAct { srcs := one [a] } h (fun e _ s =>
    let o := (s.ctx e.c).sort.ahead
    if o.rows then .error 0x0E
    else .ok (s, .run (min (o.count + (rdWord s e h a).toNat) 13 - o.count))) s)
def execSortStore (h : Hdr) (tk : BitVec 7) (tp : Option (BitVec 7)) (s : State) : Answer :=
  .next (sortAct {} h (fun e _ s =>
    match tileAt s e tk, optTileAt s e tp with
    | some k, some p =>
      let o := (s.ctx e.c).sort.ahead
      if !isEmptyTile k || p.any (fun p => !isEmptyTile p) then .error 0x09
      else if !sortShape o.ty k p || (o.rows && k.cols > 64) then .error 0x0A
      else .ok ((tk :: tp.toList).foldl (fun s n => tileSt s e n .filling) s, .store tk.toNat (tp.map (·.toNat)))
    | _, _ => .error 0x09) s)
def execSortTopk (h : Hdr) (a : Src) (s : State) : Answer :=
  .next (sortAct { srcs := one [a] } h (fun e _ s => .ok (s, .topk (rdWord s e h a).toNat)) s)
def execSortMerge (h : Hdr) (s : State) : Answer :=
  .next (sortAct {} h (fun e _ s =>
    let a := (h.imm.extractLsb' 0 6).toNat
    let b := (h.imm.extractLsb' 8 6).toNat
    if !(s.ctx e.c).sort.ahead.rows || a == b then .error 0x0E else .ok (s, .merge a b)) s)
def execSortMatch (h : Hdr) (d : Dst) (a : Src) (s : State) : Answer :=
  .next (sortAct { srcs := one [a], dsts := [(d, 4)] } h (fun e ts s =>
    .ok (ts.foldl (fun s t => markHazard s e.c t (dstHazard d 4) (ts.head? == some t) ts) s, .smatch (rdWord s e h a) d)) s)

/-- Phases of an executing run that have completed. -/
def runDone (s : State) (c : Nat) : Nat :=
  match (s.ctx c).sort.queue with
  | q :: _ => match q.cmd, q.start with
    | .run k, some st => min k (((s.core c).ccnt.toNat - st) / 21)
    | _, _ => 0
  | [] => 0
def sortWord (s : State) (c t : Nat) : Word :=
  let a := (s.ctx c).sort
  BitVec.ofNat 32 (a.opt.count + runDone s c + 16 * a.opt.rows.toNat + 32 * a.holder.isSome.toNat +
    64 * (a.holder == some (s.agentOf c t)).toNat + 128 * (!a.queue.isEmpty).toNat + 256 * a.opt.ty.ctorIdx +
    2 ^ 12 * a.opt.desc.toNat + 2 ^ 13 * a.opt.stable.toNat + 2 ^ 14 * a.opt.zeq.toNat + 2 ^ 16 * a.opt.loaded)
def execSortStateRd (h : Hdr) (d : Dst) (s : State) : Answer :=
  .next (perBundle .app { dsts := [(d, 1)], engine := true } h (fun e _ ts s =>
    .done (eachWrite e ts (fun e s' => wrWord s' e d (sortWord s e.c e.t)) s)) s)
def execSortStateRel (h : Hdr) (s : State) : Answer :=
  .next (perBundle .app { engine := true } h (fun e _ _ s =>
    let ag := s.agentOf e.c e.t
    if holdsSort s e.c ag then .done (releaseSort s e.c ag) else raise s 0x0E) s)

/-! ### The array at work (R243 to R249, R254) -/

def SortCmd.cycles : SortCmd → Nat
  | .load _ _ _ _ _ _ | .store _ _ => 64
  | .run k => max 1 (21 * k)
  | .topk _ => 22
  | .merge _ _ | .smatch _ _ => 8
def sortStart (a : SortArr) (q : SortEntry) : Nat := if a.last > 0 ∧ a.last ≥ q.since then a.last + 1 else q.since + 4
def sortNext (a : SortArr) : Option Nat := (List.range a.queue.length).find? fun i => (a.queue[i]?).any (·.start.isNone)
def execSortCmdStart (c : Nat) (s : State) : Answer :=
  let a := (s.ctx c).sort
  match sortNext a with
  | none => .next s
  | some i => match a.queue[i]? with
    | none => .next s
    | some q =>
      let st := sortStart a q
      if (s.core c).ccnt.toNat < st then .next s
      else .next (s.modCtx c fun x => { x with sort := { x.sort with
        last := st + q.cmd.cycles - 1
        queue := modAt (modAt x.sort.queue i fun q => { q with start := some st }) (i + 1) fun q => { q with since := (s.core c).ccnt.toNat } } })

/-- Rows about to be written join every shadow that covers the array (R253). -/
def cowRows (s : State) (c : Nat) (rows : List Nat) : State :=
  ((s.ctx c).shadows.map (·.1)).foldl (fun s u => rows.foldl (fun s r => match (s.ctx c).shadow u with
      | some sh =>
        if sh.sort.isNone || sh.rows.has r then s
        else addShadow s c u fun v => { v with
          rows := v.rows.put r ((List.range 64).map fun k => cellOf (s.ctx c).sort.cells (r, k))
          marks := v.marks ++ marksWhere s c fun m => match m with | .cell _ i => i / 64 == r | _ => false }
      | none => s) s) s
def modSort (s : State) (c : Nat) (f : SortArr → SortArr) : State := s.modCtx c fun x => { x with sort := f x.sort }
/-- The cells a command reads hold unspecified values where their data is lost. -/
def lostCells (s : State) (c : Nat) (reads : Nat → Bool) : State × Bool :=
  let l := (s.core c).marks.filterMap fun m => match m with | .cell _ i => if reads i then some i else none | _ => none
  if l.isEmpty then (s, false)
  else
    let s' := l.foldl (fun s' i =>
      let v : Cell := { key := s.free (4 * i), pay := s.free (4 * i + 1), org := (s.free (4 * i + 2)).toNat % 4096,
                        valid := (s.free (4 * i + 3)).getLsbD 0 }
      modSort s' c fun a => { a with cells := a.cells.set {} i v }) s
    (s'.modCore c fun k => { k with marks := k.marks.filter fun m => match m with | .cell _ i => !reads i | _ => true }, true)
/-- The cells of `sort.load`: SNAKE positions from the tiles' linear elements. -/
def loadCells (s : State) (c : Nat) (q : SortEntry) (k : Tile) (p : Option Tile) : Map Cell :=
  let x := s.ctx c
  let n := k.rows * k.cols
  let get := fun (base : Nat) (t : Tile) (i : Nat) =>
    if markedBytes s c false (t.at_ i) t.esz then s.free (base + i) else (q.seen.look (base + i)).getD (elemWord x t i)
  putCells [] ((List.range 4096).map fun i => (cellAt false i,
    if i < n then { key := get 0 k i, pay := match p with | some t => get 4096 t i | none => BitVec.ofNat 32 i, org := i, valid := true }
    else { org := i }))
/-- The places whose valid element matches a probe, ascending (R249). -/
def matchPlaces (a : SortArr) (probe : Word) : List Nat :=
  (List.range 4096).filter fun p =>
    let v := cellOf a.cells (cellAt a.opt.rows p)
    v.valid && codeOf a.opt v == keyCode a.opt.ty a.opt.zeq probe
/-- The bytes of a tile that `sort.store` writes. -/
def storeBytes (a : SortArr) (t : Tile) (f : Cell → Nat) : List Byte :=
  footprint t fun r k =>
    bytesOf t.esz (f (cellOf a.cells (if a.opt.rows then (r, k) else cellAt false (r * t.cols + k))))
def matchAnswer (a : SortArr) : List Nat → List Word
  | [] => [0xFFFFFFFF, 0, 0xFFFFFFFF, 0]
  | p :: m => let v := cellOf a.cells (cellAt a.opt.rows p); [BitVec.ofNat 32 p, BitVec.ofNat 32 (m.length + 1), v.pay, v.key]
def matchOut (a : SortArr) (probe : Word) : List Word := matchAnswer a (matchPlaces a probe)
/-- The effect of a command; true where it consumed lost data. -/
def runSort (s : State) (c : Nat) (q : SortEntry) : State × Bool :=
  let x := s.ctx c
  let u := x.sort.holder.bind (unitOfAgent s c)
  let all := fun (_ : Nat) => true
  match q.cmd with
  | .load k p ty desc stable zeq =>
    let s1 := (k :: p.toList).foldl (fun s n => readersAdd s c n (-1)) s
    match x.tiles.look k with
    | none => (s1, false)
    | some tk =>
      let tp := p.bind x.tiles.look
      let lost := (tk :: tp.toList).any fun t => (List.range (tk.rows * tk.cols)).any fun i => markedBytes s c false (t.at_ i) t.esz
      let s1 := cowRows s1 c (List.range 64)
      let s1 := s1.modCore c fun k => { k with marks := k.marks.filter fun m => match m with | .cell _ _ => false | _ => true }
      (modSort s1 c fun a => { a with
        cells := loadCells s c q tk tp
        opt := SortCmd.after (tk.rows * tk.cols) a.opt (.load k p ty desc stable zeq) }, lost)
  | .run n =>
    if n = 0 then (s, false)
    else
      let (s1, lost) := lostCells (cowRows s c (List.range 64)) c all
      (modSort s1 c fun a => runPhases a n, lost)
  | .store k p =>
    match x.tiles.look k with
    | none => (s, false)
    | some tk =>
      let used := fun (i : Nat) => (List.range (tk.rows * tk.cols)).any fun e =>
        let rc := if x.sort.opt.rows then (e / tk.cols, e % tk.cols) else cellAt false e
        rc.1 * 64 + rc.2 = i
      let (s1, lost) := lostCells s c used
      let a := (s1.ctx c).sort
      let put := fun (s : State) (n : Nat) (t : Tile) (f : Cell → Nat) =>
        modTile (writeScratch s c u t.off (storeBytes a t f)) c u n fun t => { t with st := .ready, err := 0 }
      let s1 := put s1 k tk fun v => if v.valid then v.key.toNat else 0
      match p, p.bind x.tiles.look with
      | some n, some tp => (put s1 n tp fun v => if v.valid then v.pay.toNat else 0xFFFFFFFF, lost)
      | _, _ => (s1, lost)
  | .topk k =>
    let (s1, lost) := lostCells (cowRows s c (List.range 64)) c all
    (modSort s1 c fun a =>
      let m := onLines a.cells ((List.range 64).map plainRow) (sortLine a.opt)
      let m := putCells m ((List.range 64).flatMap fun r => (List.range 64).filterMap fun i =>
        if i ≥ k then some ((r, i), { cellOf m (r, i) with valid := false }) else none)
      { a with cells := m, opt := { a.opt with rows := true, count := 0 } }, lost)
  | .merge ra rb =>
    let (s1, lost) := lostCells (cowRows s c [ra, rb]) c fun i => i / 64 == ra || i / 64 == rb
    (modSort s1 c fun a =>
      let line := (List.range 64).map (fun i => (ra, i)) ++ (List.range 64).map (fun i => (rb, 63 - i))
      let m := [6, 5, 4, 3, 2, 1, 0].foldl (fun l q =>
        (List.range 128).foldl (fun l i => if i.testBit q then l else cx a.opt l i (i + 2 ^ q)) l) (line.map (cellOf a.cells))
      let dst := (List.range 64).map (fun i => (ra, i)) ++ (List.range 64).map (fun i => (rb, i))
      { a with cells := putCells a.cells (dst.zip m) }, lost)
  | .smatch probe d =>
    let (s1, lost) := lostCells s c all
    let out := matchOut (s1.ctx c).sort probe
    (q.tids.foldl (fun s t => if (s.thr? c t).isSome then
        (List.range 4).foldl (fun s i => wrWord s { c := c, t := t } d (out.getD i 0) i) s
      else s) s1, lost)
/-- The cycle in which a command completes. -/
def sortDone (q : SortEntry) : Option Nat := q.start.map fun st => st + q.cmd.cycles - 1 + 2
def SortCmd.audited : SortCmd → Bool
  | .run _ | .topk _ | .merge _ _ | .smatch _ _ => true
  | _ => false
def cellWords (m : Map Cell) : List Word :=
  (List.range 4096).flatMap fun i => let v := m.get {} i; [v.key, v.pay, BitVec.ofNat 32 (2 * v.org + v.valid.toNat)]
/-- What the auditor logs of a command (R324): the options, and the cells at its issue. -/
def sortInputs (a : SortArr) (q : SortEntry) : List Nat :=
  a.opt.ty.ctorIdx :: a.opt.desc.toNat :: a.opt.stable.toNat :: a.opt.zeq.toNat :: a.opt.rows.toNat ::
    (q.orig.getD (a.cells, a.opt.count)).2 :: (cellWords (q.orig.getD (a.cells, a.opt.count)).1).map (·.toNat)
/-- The oldest command ends: its effect, its counters, and the end of a hold that waited for it. -/
def completeSort (s : State) (c : Nat) (q : SortEntry) : State :=
  let ins := sortInputs (s.ctx c).sort q
  let (s, lost) := runSort s c q
  let s := if lost then failOps s c q.ops 0x14 else s
  let s := if lost || q.lost then audAdvance s c q.cmd.audited
    else if q.cmd.audited then auditSample s c ins (cellWords (s.ctx c).sort.cells) else s
  let s := q.ops.foldl (finishOp · c) s
  modSort s c fun a =>
    let rest := a.queue.drop 1
    let free := a.releasing && rest.isEmpty
    { a with queue := rest, holder := if free then none else a.holder, releasing := a.releasing && !free }
/-- The first phases of an executing run take effect; what remains of it goes on behind them (R245, R250). -/
def advanceRun (s : State) (c n : Nat) : State :=
  match (s.ctx c).sort.queue with
  | q :: rest => match q.cmd, q.start with
    | .run k, some st =>
      if n = 0 then s
      else
        let old := q.orig.getD ((s.ctx c).sort.cells, (s.ctx c).sort.opt.count)
        let (s, lost) := lostCells (cowRows s c (List.range 64)) c fun _ => true
        let s := if lost then failOps s c q.ops 0x14 else s
        modSort s c fun a => { (runPhases a n) with
          queue := { q with cmd := .run (k - n), orig := some old, lost := q.lost || lost, start := some (if n < k then st + 21 * n else st + 21 * n - 1) } :: rest }
    | _, _ => s
  | [] => s
/-- The oldest command completes once its cycles have passed. -/
def execSortCmdComplete (c : Nat) (s : State) : Answer :=
  match (s.ctx c).sort.queue with
  | [] => .next s
  | q :: _ =>
    if !(sortDone q).any (· ≤ (s.core c).ccnt.toNat) then .next s
    else .next (completeSort s c q)

end Sys2Proof.Machine
end

