-- ==== Sys2Proof/Machine/Complete.lean ====
section
/-!
DEFINITION. The events that complete counted accesses (R141, R142, R232, R287, R383): loads and atomics, stores, images of
convergence registers and remote accesses.
-/
namespace Sys2Proof.Machine

/-- An image load completes: the image is read as a load reads, and takes effect (R232). -/
def completeLdcv (s : State) (c : Nat) (o : Op) (n : Nat) : State :=
  if !loadReady s c o || !inTurn (s.ctx c) o then s
  else
    let s' := completeLoad s c o.asLoad
    if loadBad s c o || o.gone then s' else applyImage s' c o n (loadNow s c o)
def completeOp (s : State) (c : Nat) (o : Op) : State :=
  if o.done then s
  else match o.body with
    | .load .. | .rmw .. => completeLoad s c o
    | .ldcv _ _ n _ _ _ => completeLdcv s c o n
    | .remote .. => completeRemote s c o
    | _ => s
def execLoadComplete (c id : Nat) (s : State) : Answer :=
  match s.op? c id with
  | some o => .next (completeOp s c o)
  | none => .next s
/-- A store, or an atomic counted as one, is held at its home or performed in its array. -/
def execStoreHeldAtHome (c id : Nat) (s : State) : Answer :=
  match s.op? c id with
  | some o =>
    if o.done then .next s
    else match o.body with
      | .store .. => .next (holdStore s c o)
      | _ => .next (completeOp s c o)
  | none => .next s
/-- Whether a completion event of an operation does something now. -/
def opReady (s : State) (c : Nat) (o : Op) : Bool :=
  !o.done && (match o.body with
    | .load .. | .ldcv .. => loadReady s c o && inTurn (s.ctx c) o
    | .store .. | .rmw .. => storeReady s c o
    | .remote _ _ true (some _) => true
    | _ => false)

end Sys2Proof.Machine
end

