-- ==== Sys2Proof/Machine/Handler.lean ====
section
/-!
DEFINITION. The handler's instructions (R261 to R269, R278, R279): resuming and killing, stepping, snapshots, halts and trace.
-/
namespace Sys2Proof.Machine

/-! ### Stores of the core's own rings (R257, R278) -/

/-- A frame under Bark without its world check: the granule is of the world's partition and no scrub waits for it; a window's size and
key hold (R257, R343 to R345). The stores of trace pass both by (R278). -/
def ringFrame (s : State) (w page : Nat) (bark : Bool) : Except (BitVec 6) Nat :=
  if page < 2 ^ 39 then
    match s.bark.look (page / 65536), s.worlds.look w with
    | some g, some x => if !bark || (!g.scrub && g.part == some x.part) then .ok page else .error 0x08
    | _, _ => if bark then .error 0x08 else .ok page
  else match s.cxl.look (page / 2 ^ 39 - 1) with
    | some c => if page % 2 ^ 39 + 128 ≤ c.size && (!bark || windowOk s c.world c) then .ok (c.cell (page % 2 ^ 39)) else .error 0x08
    | none => .error 0x08
/-- The home of a line of a ring of the world, or the code of R139: translated and checked for writing, exempt from the firewall's world
check and from tokens. -/
def ringHome (s : State) (w va : Nat) (bark : Bool := true) : Except (BitVec 6) Home :=
  let frame := fun (v page : Nat) (wr sec : Bool) =>
    if !onStack (stackFor s w v page) page then .error 0x04
    else if !wr then .error 0x05
    else (ringFrame s w page bark).map fun pa => ({ va := lineVa v, sec := sec, pa := some pa, perm := { write := true } } : Home)
  match leafOf s w va with
  | .error e => .error e
  | .ok l =>
    if l.sec then
      let v := l.page + lineVa va % 4096
      match leafOf s w v with
      | .error e => .error e
      | .ok m => if m.sec then .error 0x04 else frame v (m.page + v % 4096) (l.write && m.write) true
    else frame va (l.page + lineVa va % 4096) l.write false
/-- Bytes within one line written by the core itself. -/
def ringWrite (s : State) (c w va : Nat) (d : List Byte) (bark : Bool := true) : Except (BitVec 6) State :=
  (ringHome s w va bark).map fun h => dropL1 (homeWrite s w (dieOf c) h (va % 128) d none) c fun l => l.world == w && l.va == h.va
def ringWord (s : State) (w va : Nat) : Except (BitVec 6) Word :=
  (ringHome s w va).map fun h => BitVec.ofNat 32 (natOf (homeBytes s w va 4 [h]))

/-! ### Frontiers (R163) -/

/-- An entry of a frontier. -/
structure Entry where
  pc   : DWord
  prio : Nat
  age  : Nat
  mems : List (Nat × Nat)           -- slot and thread
  deriving DecidableEq, Repr
def insertEntry (e : Entry) : List Entry → List Entry
  | [] => [e]
  | f :: l => if e.prio > f.prio ∨ (e.prio = f.prio ∧ e.pc.toNat < f.pc.toNat) then e :: f :: l else f :: insertEntry e l
def entryMask (e : Entry) : Word := e.mems.foldl (fun m p => m ||| (1#32 <<< p.1)) 0
/-- The frontier of a unit, in order. -/
def frontier (s : State) (c : Nat) (u : UnitId) : List Entry :=
  let mems : List (Nat × Nat) := match u with
    | .grp g => ((s.group? c g).map (·.mem)).getD []
    | .thr t => [(0, t)]
  let live := mems.filter fun p => (s.thr? c p.2).any (·.park.isNone)
  let age := fun (t : Nat) (pc : DWord) => match u with
    | .grp g => ((s.group? c g).map fun gr => gr.ages.get 0 pc.toNat).getD 0
    | .thr _ => (s.thr c t).age
  ((live.map fun p => (s.thr c p.2).pc).eraseDups.map fun pc =>
    let m := live.filter fun p => (s.thr c p.2).pc == pc
    let t := (m.head?.map (·.2)).getD 0
    { pc := pc, prio := (s.thr c t).prio, age := age t pc, mems := m : Entry }).foldl (fun l e => insertEntry e l) []

/-! ### Triggers of the capture units (R354) -/

/-- An event of a core, by its trigger code, for the units of its quarter that have selected the core. -/
def capTrigger (s : State) (c code : Nat) : State :=
  let q := quarterOf c
  s.modDie (q / 2) fun d => { d with caps := d.caps.map fun e =>
    if e.2.st ≠ 0 ∧ e.1 / 32 = q % 2 ∧ e.2.src.toNat / 256 % 64 = c % 48 then (e.1, { e.2 with pend := e.2.pend ||| (1#32 <<< code) }) else e }

/-! ### Trace (R278, R279) -/

/-- One record written to the ring; a store that fails drops it. -/
def tracePut (s : State) (c : Nat) (r : List Byte) : State :=
  let tr := (s.core c).trace
  let va := (tr.base.toNat + 16 * (tr.count.toNat % 2 ^ tr.size)) % 2 ^ 64
  match ringWrite s c (s.worldOf c) va r false with
  | .error _ => s
  | .ok s => s.modCore c fun k => { k with trace := { k.trace with count := k.trace.count + 1, since := k.trace.since + 1 } }
def traceBytes (kind b1 b2 b4 b8 : Nat) : List Byte := bytesOf 1 kind ++ bytesOf 1 b1 ++ bytesOf 2 b2 ++ bytesOf 4 b4 ++ bytesOf 8 b8
def ccntWord (s : State) (c : Nat) : Nat := (s.core c).ccnt.toNat % 2 ^ 32
/-- An anchor: a header, the live threads, and the frontiers of the groups. -/
def anchor (s : State) (c : Nat) : State :=
  let x := s.ctx c
  let thr := x.threads.map fun (t, th) =>
    traceBytes 5 (match th.grp with | some g => g.1 | none => 0xFF) t th.prio th.pc.toNat
  let fr := x.groups.keys.flatMap fun g => (frontier s c (.grp g)).map fun e => traceBytes 6 g e.prio (entryMask e).toNat e.pc.toNat
  let head := traceBytes 4 0 (thr.length + fr.length) (ccntWord s c) (s.core c).trace.count.toNat
  let s := (head :: (thr ++ fr)).foldl (tracePut · c) s
  s.modCore c fun k => { k with trace := { k.trace with since := 0 } }
/-- A record that is no part of an anchor; every 1,024 of them an anchor follows. -/
def traceRec (s : State) (c : Nat) (r : List Byte) : State :=
  let s := tracePut s c r
  if (s.core c).trace.since ≥ 1024 then anchor s c else s
def traceStep (s : State) (c t : Nat) (taken paired : Bool) : State :=
  traceRec s c (traceBytes 1 (taken.toNat + 2 * paired.toNat) t (ccntWord s c) (s.thr c t).pc.toNat)
/-- The step with which a thread ends. It has no PC after it: that field holds an unspecified value (log 69). -/
def traceEnd (s : State) (c t : Nat) : State :=
  traceRec s c (traceBytes 1 0 t (ccntWord s c) ((s.free (2 ^ 57 + 2 * t)).toNat + 2 ^ 32 * (s.free (2 ^ 57 + 2 * t + 1)).toNat))
def tracePark (s : State) (c : Nat) (p : Parked) : State :=
  let tid := p.mems.foldl (fun m q => min m q.2) 2047
  let mask : Word := p.mems.foldl (fun m q => m ||| (1#32 <<< q.1)) 0
  traceRec s c (traceBytes 2 p.code.toNat tid mask.toNat p.pc.toNat)
def execTraceOn (h : Hdr) (a : Src) (s : State) : Answer :=
  .next (perThread .handler { srcs := one [a] } h (fun e _ s =>
    let m := (rdWord s e h a).toNat % 4
    if m ≠ 1 ∧ m ≠ 2 then raise s 0x01
    else .done (anchor (s.modCore e.c fun k => { k with trace := { k.trace with mode := m } }) e.c)) s)
def execTraceOff (h : Hdr) (a : Src) (s : State) : Answer :=
  .next (perThread .handler { srcs := one [a] } h (fun e _ s =>
    .done (s.modCore e.c fun k => { k with trace := { k.trace with mode := 0 } })) s)
def execTraceMark (h : Hdr) (a : Src) (s : State) : Answer :=
  .next (perThread .handler { srcs := one [a] } h (fun e _ s =>
    .done (capTrigger (traceRec s e.c (traceBytes 3 0 0 (ccntWord s e.c) (rdWord s e h a).toNat)) e.c 2)) s)

/-! ### Resuming, killing, stepping (R261 to R264) -/

/-- The parked sub-bundle of the target of an instruction; none where the target is the issuer or is not parked. -/
def targetSub (s : State) (e : Env) (t : Nat) : Option Parked :=
  if t = e.t then none else (s.ctx e.c).parked.find? fun p => p.mems.any (·.2 == t)
def execEret (h : Hdr) (a : Src) (s : State) : Answer :=
  .next (perThread .handler { srcs := one [a] } h (fun e _ s =>
    match targetSub s e (rdWord s e h a).toNat with
    | some p => .done (resumeSub s e.c p (BitVec.allOnes 32) none)
    | none => .done s) s)
/-- The value of a resumed `sys` (R110): to each member's destination, once to a y register. -/
def sysValue (s : State) (c : Nat) (p : Parked) (mask : Word) (v : Word) : State :=
  match p.service, p.dst with
  | true, some d =>
    if p.code = 0x18 then
      ((p.mems.filter fun m => mask.getLsbD m.1).foldl (fun (q : State × Bool) m =>
        (wrWord q.1 { c := c, t := m.2, low := q.2 } d v, false)) (s, true)).1
    else s
  | _, _ => s
def execResm (h : Hdr) (a b : Src) (pc val : Option Src) (s : State) : Answer :=
  .next (perThread .handler { srcs := one (a :: b :: val.toList) ++ wide true pc.toList } h (fun e _ s =>
    match targetSub s e (rdWord s e h a).toNat with
    | none => .done s
    | some p =>
      let m := rdWord s e h b
      let s := match val with | some v => sysValue s e.c p m (rdWord s e h v) | none => s
      let s := resumeSub s e.c p m (pc.map (rdPair s e h))
      .done (if pc.isSome then (p.mems.filter fun q => m.getLsbD q.1).foldl (fun s q =>
        s.modThr e.c q.2 fun th => { th with entered := false }) s else s)) s)
/-- The masked members end, once their tile operations are over and the tracker has room (R87, R263). -/
def execKill (h : Hdr) (a b : Src) (s : State) : Answer :=
  .next (perThread .handler { srcs := one [a, b] } h (fun e _ s =>
    match targetSub s e (rdWord s e h a).toNat with
    | none => .done s
    | some p =>
      let m := rdWord s e h b
      let ts := (p.mems.filter fun q => m.getLsbD q.1).map (·.2)
      let s1 := ts.foldl (fun s t => cancelSigner s e.c t) s
      let need := ts.countP fun t => s1.count e.c t .stores + s1.count e.c t .copies > 0
      match ts.find? fun t => s1.count e.c t .tileops > 0 with
      | some t => .wait s1 (.retry (.engine t))
      | none =>
        if need > 0 ∧ (trackerUsed (s1.ctx e.c)).length + need > 16 then .wait s1 (.retry .tracker)
        else .done (ts.foldl (fun s t => retire s e.c t true) s1)) s)
def execSstepThr (h : Hdr) (a b : Src) (s : State) : Answer :=
  .next (perThread .handler { srcs := one [a, b] } h (fun e _ s =>
    let t := (rdWord s e h a).toNat
    if t = e.t then .done s else .done (s.modThr e.c t fun th => { th with step := (rdWord s e h b).getLsbD 0 })) s)
def execSstepGrp (h : Hdr) (a b : Src) (s : State) : Answer :=
  .next (perThread .handler { srcs := one [a, b] } h (fun e _ s =>
    match (s.thr? e.c (rdWord s e h a).toNat).bind (·.grp) with
    | some g => .done (s.modGroup e.c g.1 fun gr => { gr with gstep := (rdWord s e h b).getLsbD 0 })
    | none => .done s) s)

/-! ### Halts (R265) -/

/-- Whether no bundle of an app-level unit is in a pipe, where one with an unaccepted access still is (R402), the queues are empty and every
app-level counter is zero. -/
def drained (s : State) (c : Nat) : Bool :=
  let x := s.ctx c
  let app := fun (t : Nat) => (s.thr? c t).any (·.level == .app)
  !((s.pipes ++ s.walks).any fun b => b.core == c && b.tids.any app) &&
    !(x.threads.any fun p => p.2.level == .app && p.2.park.isNone && p.2.blk.unaccepted) && x.copies.isEmpty && x.mq.isEmpty && x.sort.queue.isEmpty &&
    !(x.ops.any fun o => o.retired.isNone && o.body.accepted && app o.tid) &&
    !(x.groups.any fun g => g.2.sched.busy > (s.core c).ccnt.toNat) &&
    !(x.threads.any fun p => p.2.level == .app && p.2.sched.busy > (s.core c).ccnt.toNat)
def haltWord (s : State) (c : Nat) : Word := BitVec.ofNat 32 ((s.ctx c).held.toNat + 2 * (drained s c).toNat)
def halt (h : Hdr) (d : Dst) (f : Bool → Bool) (s : State) : State :=
  perThread .handler { dsts := [(d, 1)] } h (fun e _ s =>
    .done ((wrWord s e d (haltWord s e.c)).modCtx e.c fun x => { x with held := f x.held })) s
def execHaltHold (h : Hdr) (d : Dst) (s : State) : Answer := .next (halt h d (fun _ => true) s)
def execHaltRel (h : Hdr) (d : Dst) (s : State) : Answer := .next (halt h d (fun _ => false) s)
def execHaltQ (h : Hdr) (d : Dst) (s : State) : Answer := .next (halt h d id s)

/-! ### Snapshots (R266) -/

def zeros (n : Nat) : List Byte := List.replicate n 0
def isHeld (s : State) (c : Nat) (th : Thread) : Bool := (s.ctx c).held && th.level == .app && th.park.isNone
def dumpThrHead (th : Thread) : List Byte :=
  bytesOf 8 th.pc.toNat ++ bytesOf 2 th.prio ++ bytesOf 1 th.quota ++ bytesOf 1 th.stack.length ++ bytesOf 1 th.preds.toNat ++
  bytesOf 1 (if th.park.isSome then 1 else 2) ++
  bytesOf 1 ((th.grp.map (·.1)).getD 0xFF) ++ bytesOf 1 ((th.grp.map (·.2)).getD 0xFF)
def dumpThrCounts (s : State) (c t : Nat) : List Byte :=
  bytesOf 1 (s.count c t .loads) ++ bytesOf 1 (s.count c t .stores) ++ bytesOf 1 (s.count c t .copies) ++ bytesOf 1 (s.count c t .tileops)
def dumpThrTail (th : Thread) : List Byte :=
  bytesOf 4 th.spLimit.toNat ++ bytesOf 8 th.spBase.toNat ++ bytesOf 4 th.spilled.toNat ++
  bytesOf 1 (th.step.toNat + 2 * th.sat.toNat) ++ zeros 27 ++
  ((List.range 4).flatMap fun i => bytesOf 8 (th.stack.getD i 0).toNat) ++ zeros 32 ++
  ((List.range th.quota).flatMap fun i => bytesOf 4 (th.regs.get 0 i).toNat)
def dumpThr (s : State) (c t : Nat) : List Byte :=
  dumpThrHead (s.thr c t) ++ dumpThrCounts s c t ++ dumpThrTail (s.thr c t)
def waiting (th : Thread) : Bool := match th.blk with | .bar _ | .rwait _ _ _ => true | _ => false
def dumpGrp (s : State) (c g : Nat) : List Byte :=
  match s.group? c g with
  | none => zeros 832
  | some gr =>
    let arr : Word := gr.mem.foldl (fun m p => if waiting (s.thr c p.2) then m ||| (1#32 <<< p.1) else m) 0
    let es := frontier s c (.grp g)
    bytesOf 1 g ++ bytesOf 1 gr.mem.length ++ bytesOf 1 gr.slice ++ bytesOf 1 (gr.sat.toNat + 2 * gr.armed.toNat + 4 * gr.gstep.toNat) ++
    bytesOf 4 arr.toNat ++ bytesOf 4 (gr.phases % 2 ^ 32) ++ zeros 52 ++
    ((List.range 64).flatMap fun i => bytesOf 4 (gr.y.get 0 i).toNat) ++
    (es.flatMap fun e => bytesOf 8 e.pc.toNat ++ bytesOf 2 e.prio ++ bytesOf 1 e.age ++ bytesOf 1 0 ++ bytesOf 4 (entryMask e).toNat) ++
    zeros (16 * (32 - es.length))
def dumpTiles (x : Ctx) : List Byte :=
  (List.range 128).flatMap fun n => match x.tiles.look n with
    | none => zeros 16
    | some t => bytesOf 4 t.off ++ bytesOf 1 t.rows ++ bytesOf 1 (t.esz.log2) ++ bytesOf 2 t.cols ++ bytesOf 1 t.st.ctorIdx ++
        bytesOf 1 t.err.toNat ++ zeros 6
/-- Records produced so far and not consumed, as the queue's memory says. -/
def fqProduced (s : State) (c : Nat) : Nat :=
  let x := s.ctx c
  match ringWord s (s.worldOf c) x.fqb.toNat with
  | .ok n => n.toNat
  | .error _ => 0
/-- System register SPCFG (R185). -/
def spcfgWord (x : Ctx) : Word :=
  BitVec.ofNat 32 (x.l1units + 16 * (16 - x.l1units) + 256 * x.copies.length + 2 ^ 14 * x.tiles.length)
/-- Records of a core's fault queue that are produced and not consumed. -/
def fqOpen (s : State) (c : Nat) : Nat :=
  let x := s.ctx c
  if x.fqctl.toNat % 16 = 0 then 0 else (fqProduced s c + 65536 - x.fqctl.toNat / 65536) % 65536
def dumpCore (s : State) (c t : Nat) : List Byte :=
  let x := s.ctx c
  bytesOf 4 (s.worldOf c) ++ bytesOf 4 (spcfgWord x).toNat ++ bytesOf 4 (mmstWord s c t).toNat ++ bytesOf 4 (sortWord s c t).toNat ++
  bytesOf 4 (haltWord s c).toNat ++ bytesOf 4 (fqOpen s c) ++ bytesOf 1 (s.core c).cxsw.gen.toNat ++ zeros 39
/-- The bytes of a section; none where the target does not meet the Target column. -/
def dumpData (s : State) (e : Env) (sec : BitVec 4) (t : Nat) : Option (List Byte) :=
  let stands := fun (th : Thread) => th.park.isSome || isHeld s e.c th
  match sec.toNat with
  | 0 => match s.thr? e.c t with
    | some th => if stands th then some (dumpThr s e.c t) else none
    | none => none
  | 1 => match (s.thr? e.c t).bind (·.grp) with
    | some g => if (s.members e.c (.grp g.1)).all fun u => stands (s.thr e.c u) then some (dumpGrp s e.c g.1) else none
    | none => none
  | 2 => some (dumpTiles (s.ctx e.c))
  | _ => some (dumpCore s e.c e.t)
def execDump (h : Hdr) (m : MMod) (sec : BitVec 4) (a b : Src) (s : State) : Answer :=
  .next (perThread .handler { srcs := baseUses .g a ++ one [b] } h (fun e pc s =>
    let va := addrOf s e h .g a
    if va % 64 ≠ 0 then raise s 0x03 (BitVec.ofNat 64 va)
    else match dumpData s e sec (rdWord s e h b).toNat with
      | none => raise s 0x05 (BitVec.ofNat 64 va)
      | some d => storeAct m d.length 64 h a (fun _ _ => d) e pc s) s)

end Sys2Proof.Machine
end

