-- ==== Sys2Proof/Machine/Share.lean ====
section
/-!
DEFINITION. Share arithmetic and the exchange gate (R356 to R373, R387).
-/
namespace Sys2Proof.Machine

/-! ### Records and sessions (R356, R357, R370, R371) -/

def State.gateRec (s : State) (n : Nat) : Gate := (s.gate.look n).getD {}
def State.modGate (s : State) (n : Nat) (f : Gate → Gate) : State := { s with gate := s.gate.put n (f (s.gateRec n)) }
/-- The record a session operand names, where the acting world may name it. -/
def sessionOf (s : State) (e : Env) (v : Word) : Except (BitVec 6) (Nat × Gate) :=
  let n := v.toNat % 64
  let g := s.gateRec n
  if g.st = .free ∨ g.world ≠ s.actWorld e.c e.t then .error 0x05 else .ok (n, g)
def Gate.ended (g : Gate) : Bool := g.st == .aborted || g.st == .ended
def isSteward (s : State) (e : Env) : Bool := (s.thr e.c e.t).level.num ≥ 2
/-- Fields of a descriptor (R357). -/
def descRemote (d : List Byte) : Bool := bytesNat d 4 1 / 2 % 2 = 1
def descParty (d : List Byte) : Bool := bytesNat d 4 1 % 2 = 1
def descOk (d : List Byte) : Bool :=
  bytesNat d 4 1 < 4 && bytesNat d 9 3 == 0 && bytesNat d 16 16 == 0 && 4 ≤ bytesNat d 8 1 &&
    1 ≤ bytesNat d 12 4 && bytesNat d 12 4 ≤ 2 ^ 20 && (if descRemote d then bytesNat d 6 2 ≤ 575 else bytesNat d 5 1 ≤ 3)
/-- The 32 bytes of a world's recorded handler measurement. -/
def measBytes (s : State) (w : Nat) : List Byte := (((s.worlds.look w).map (·.meas)).getD []).flatMap fun v => bytesOf 4 v.toNat
/-- Whether two records of this gate name each other: tags, parties, partitions and worlds. -/
def namesEach (s : State) (a b : Gate) : Bool :=
  let part := fun (w : Nat) => ((s.worlds.look w).map (·.part)).getD 4
  a.tag == b.tag && a.party != b.party && !descRemote a.desc && !descRemote b.desc &&
    bytesNat a.desc 8 1 == b.world && bytesNat b.desc 8 1 == a.world &&
    bytesNat a.desc 5 1 == part b.world && bytesNat b.desc 5 1 == part a.world
def measMatch (s : State) (a b : Gate) : Bool :=
  measBytes s b.world == (a.desc.drop 32) && measBytes s a.world == (b.desc.drop 32)
/-- A timer has lapsed: in the cycle in which it runs out a commit still goes first (R372, R373). -/
def gateExpired (s : State) (g : Gate) : Bool :=
  (g.st == .open_ || g.st == .opening) && g.since.any fun t => s.ioclk > t + g.timeout
def matches_ (s : State) (a b : Nat) : Bool :=
  let g := s.gateRec a
  let q := s.gateRec b
  a != b && g.st == .opening && q.st == .opening && namesEach s g q && measMatch s g q && !gateExpired s g && !gateExpired s q
/-- A record that an open has just taken is matched at once where its peer's stands (R357, R392). -/
def matchDue (s : State) (n : Nat) : State :=
  match s.gate.keys.find? (matches_ s n) with
  | some m => { s with todo := s.todo ++ [.sessionMatch (min n m) (max n m)] }
  | none => s
/-- The status of an open, with the record it takes (R370). -/
def openSession (s : State) (w : Nat) (d : List Byte) : State × Word :=
  let r : Gate := { st := .opening, world := w, tag := BitVec.ofNat 32 (bytesNat d 0 4), party := descParty d, desc := d,
                    timeout := 1024 * bytesNat d 12 4 }
  if !descOk d then (s, 2)
  else if s.gate.any (fun p => p.2.st != .free && p.2.world == w && p.2.tag == r.tag && p.2.party == r.party) then (s, 2)
  else if s.gate.any (fun p => p.2.st == .opening && namesEach s r p.2 && !measMatch s r p.2) then (s, 2)
  else match (List.range 64).find? fun n => (s.gateRec n).st == .free with
    | none => (s, 1)
    | some n => (matchDue { s with gate := s.gate.put n r } n, BitVec.ofNat 32 (256 * n))
def execShSessOpen (h : Hdr) (d : Dst) (a : Src) (s : State) : Answer :=
  .next (perThread .app { srcs := [(a, 2)], dsts := [(d, 1)] } h (fun e _ s =>
    if !isSteward s e then .done (wrWord s e d 2)
    else match accessCheck s e .g (addrOf s e h .g a) 64 64 .load with
      | .error r => .fail s r
      | .ok (s', va, hs) =>
        let w := s.actWorld e.c e.t
        match hs.find? fun h => lineBusy (s.ctx e.c) (s.ctx e.c).nextOp w h.va with
        | some h => .wait s (.retry (.line w h.va))
        | none =>
          if poisoned s w va 64 hs then .fail s { code := 0x14, addr := BitVec.ofNat 64 va, used := true }
          else
            let s1 := enterSig (hs.foldl (fun s h => fillL2 s w h 3) s') e.c (s.sigId e.c e.t) va
            let (s2, v) := openSession s1 w (homeBytes s w va 64 hs)
            .done (wrWord s2 e d v)) s)
def gateWord (n : Nat) (g : Gate) : Word :=
  BitVec.ofNat 32 (n + 256 * g.st.ctorIdx + 2 ^ 11 * g.party.toNat + 2 ^ 12 * g.pending.isSome.toNat)
def execShSessQry (h : Hdr) (d : Dst) (a : Src) (s : State) : Answer :=
  .next (perThread .app { srcs := one [a], dsts := [(d, 1)] } h (fun e _ s =>
    let tag := rdWord s e h a
    let v := match s.gate.find? fun p => p.2.st != .free && p.2.world == s.actWorld e.c e.t && p.2.tag == tag with
      | some (n, g) => gateWord n g
      | none => BitVec.allOnes 32
    .done (wrWord s e d v)) s)

/-! ### Pools (R358 to R360) -/

def ShTy.item : ShTy → Nat
  | .s32 | .tr32 => 16
  | _ => 8
def entryOf (t : Token) (w base n : Nat) : Bool := t.mirror.isNone && t.world == w && t.base == base && t.n == n
/-- Whether an entry meets a region. -/
def entryMeets (t : Token) (w base n : Nat) : Bool :=
  t.mirror.isNone && t.world == w && rangesMeet t.base (2 ^ t.n) base (2 ^ n)
def attachPool (s : State) (c w rec_ : Nat) (ty : ShTy) (base xn : Nat) : State × Word :=
  let g := s.gateRec rec_
  let k := ty.ctorIdx
  if !(g.st = .opening ∨ g.st = .open_) ∨ g.pools.has k ∨ xn = 0 ∨ xn > 65535 ∨ base % 4096 ≠ 0 then (s, 2)
  else
    let n := max 12 ((xn * ShTy.item ty - 1).log2 + 1)
    let meets := s.tokens.filter fun e => entryMeets e.2 w base n
    let own := fun (t : Token) => entryOf t w base n && t.mode == .write && t.owner == stewardWord && t.lender == 0 && t.pending.isNone
    let pages := (List.range (2 ^ n / 4096)).map fun i => lineCheck s c w (base + 4096 * i) .store
    let frames := pages.filterMap fun p => match p with
      | .ok h => h.pa.map fun pa => (h.va, pa)
      | .error _ => none
    if base % 2 ^ n ≠ 0 ∨ !(meets.all fun e => own e.2) ∨ frames.length ≠ pages.length then (s, 2)
    else
      let d := s.homeDie w base
      if tableFull s d then (s, 5)
      else
        let t : Token := { base := base, n := n, world := w, owner := 0 }
        let s := match meets with
          | e :: _ => setEntry s e.1 e.2 (some t)
          | [] => addEntry s d t
        (s.modGate rec_ fun g => { g with pools := g.pools.put k { base := base, n := n, count := xn, pages := frames } }, 0)
def execShPool (h : Hdr) (ty : ShTy) (d : Dst) (a b c : Src) (s : State) : Answer :=
  .next (perThread .app { srcs := [(a, 2), (b, 1), (c, 1)], dsts := [(d, 1)] } h (fun e _ s =>
    let n := (rdWord s e h b).toNat % 64
    if !isSteward s e ∨ (s.gateRec n).st = .free then .done (wrWord s e d 2)
    else match sessionOf s e (rdWord s e h b) with
      | .error x => raise s x
      | .ok _ =>
        let (s, v) := attachPool s e.c (s.actWorld e.c e.t) n ty (addrOf s e h .g a) (rdWord s e h c).toNat
        .done (wrWord s e d v)) s)
/-- The home of a byte of a pool, by the frames recorded at the attach. -/
def Pool.home (p : Pool) (off : Nat) : Home :=
  let q := p.pages.getD (off / 4096) (0, 0)
  let o := off % 4096 / 128 * 128
  { va := q.1 / 4096 * 4096 + o, pa := some (q.2 / 4096 * 4096 + o) }
/-- The words of an item. -/
def itemWords (ty : ShTy) (l : List Byte) : List Word :=
  (List.range 4).map fun i => BitVec.ofNat 32 (bytesNat l (ShTy.item ty / 4 * i) (ShTy.item ty / 4))
/-- The next item of a pool consumed (R360); what `sh.beg` raises instead. -/
def takeItem (s : State) (e : Env) (rec_ : Nat) (g : Gate) (ty : ShTy) : Except (State × Raise) (State × List Word) :=
  match g.pools.look ty.ctorIdx with
  | none => .error (s, { code := 0x11 })
  | some p =>
    if p.cursor = p.count then .error (s, { code := 0x11 })
    else
      let sz := ShTy.item ty
      let off := p.cursor * sz
      let hm := p.home off
      if poisoned s g.world (p.base + off) sz [hm] then .error (s, { code := 0x14, used := true })
      else
        let it := itemWords ty (homeBytes s g.world (p.base + off) sz [hm])
        if (it.getD 3 0).toNat ≠ p.cursor then .error (abortSession s rec_ 0x12, { code := 0x12 })
        else
          let s := homeWrite s g.world (dieOf e.c) hm (off % 128) (List.replicate sz 0xFF) none
          let s := dropL1 s e.c fun l => l.world == g.world && l.va == hm.va
          .ok (s.modGate rec_ fun g => { g with pools := g.pools.put ty.ctorIdx { p with cursor := p.cursor + 1 } }, it)

/-! ### Words (R74, R358, R362) -/

def ShTy.bits : ShTy → Nat
  | .s32 | .tr32 => 32
  | _ => 16
/-- A value modulo 2^n as a word (R74). -/
def shWord (ty : ShTy) (v : Int) : Word := BitVec.ofInt 32 (v % (2 ^ ShTy.bits ty : Nat))
def shVal (ty : ShTy) (w : Word) : Int := (w.toNat % 2 ^ ShTy.bits ty : Nat)
/-- The words of the group that `sh.beg` writes (R363). -/
def begWords (ty : ShTy) (p : Bool) (x y : Word) (it : List Word) : List Word :=
  let i := fun (n : Nat) => it.getD n 0
  let sub := fun (a b : Word) => shWord ty (shVal ty a - shVal ty b)
  let half := fun (a b : Word) => (a &&& 0xFFFF) ||| (b <<< 16)
  let dtr := shWord ty (shVal ty x + shVal ty (i 0) + (if p then 0 else (2 ^ (ShTy.bits ty - 2) : Nat)))
  match ty with
  | .s16 => [half (sub x (i 0)) (sub y (i 1)), i 0, i 1, i 2]
  | .b16 => [half (x ^^^ i 0) (y ^^^ i 1), i 0, i 1, i 2]
  | .s32 => [sub x (i 0), sub y (i 1), i 0, i 1, i 2, 0, 0, 0]
  | .tr16 => [dtr, i 0, i 1, i 2]
  | .tr32 => [dtr, 0, i 0, i 1, i 2, 0, 0, 0]
def groupLen (ty : ShTy) : Nat := if ShTy.item ty = 16 then 8 else 4
def execShBeg (h : Hdr) (ty : ShTy) (d : Dst) (a : Src) (b : Option Src) (c : Src) (s : State) : Answer :=
  .next (perThread .app { srcs := one (a :: c :: b.toList), dsts := [(d, groupLen ty)] } h (fun e _ s =>
    match sessionOf s e (rdWord s e h c) with
    | .error x => raise s x
    | .ok (n, g) =>
      if g.ended then raise s 0x12
      else match takeItem s e n g ty with
        | .error (s', r) => .fail s' r
        | .ok (s', it) =>
          let ws := begWords ty g.party (rdWord s e h a) ((b.map (rdWord s e h ·)).getD 0) it
          .done (irrevocable ((List.range ws.length).foldl (fun s i => wrWord s e d (ws.getD i 0) i) s') e.c e.t)) s)

/-! ### Local operations (R362, R366, R367) -/

/-- A local operation of two operands; with a session the party decides, and a public operand counts for party 0. -/
def shLocal (h : Hdr) (ty : ShTy) (d : Dst) (a b : Src) (pub : Option Src) (f : Int → Int → Int) (s : State) : State :=
  perThread .app { srcs := one (a :: b :: pub.toList), dsts := [(d, 1)] } h (fun e _ s =>
    let x := shVal ty (rdWord s e h a)
    let y := shVal ty (rdWord s e h b)
    match pub with
    | none => .done (wrWord s e d (shWord ty (f x y)))
    | some q => match sessionOf s e (rdWord s e h q) with
      | .error r => raise s r
      | .ok (_, g) => .done (wrWord s e d (shWord ty (if g.party then x else f x y)))) s
def xorI (a b : Int) : Int := ((a.toNat ^^^ b.toNat : Nat) : Int)
def execShAdd (h : Hdr) (ty : ShTy) (d : Dst) (a b : Src) (pub : Option Src) (s : State) : Answer := .next (shLocal h ty d a b pub (· + ·) s)
def execShSub (h : Hdr) (ty : ShTy) (d : Dst) (a b : Src) (pub : Option Src) (s : State) : Answer := .next (shLocal h ty d a b pub (· - ·) s)
def execShCmul (h : Hdr) (ty : ShTy) (d : Dst) (a b : Src) (s : State) : Answer := .next (shLocal h ty d a b none (· * ·) s)
def execShXor (h : Hdr) (d : Dst) (a b : Src) (pub : Option Src) (s : State) : Answer := .next (shLocal h .b16 d a b pub xorI s)
/-- A conversion that party N's record makes, and the other writes 0 for. -/
def shCvt (h : Hdr) (ty : ShTy) (pn : Bool) (d : Dst) (a c : Src) (f : Word → Word) (s : State) : State :=
  perThread .app { srcs := one [a, c], dsts := [(d, 1)] } h (fun e _ s =>
    match sessionOf s e (rdWord s e h c) with
    | .error r => raise s r
    | .ok (_, g) => .done (wrWord s e d (if g.party = pn then shWord ty (shVal ty (f (rdWord s e h a))) else 0))) s
def execShCvtA2b (h : Hdr) (pn : Bool) (d : Dst) (a b : Src) (s : State) : Answer := .next (shCvt h .b16 pn d a b id s)
def execShCvtB2a (h : Hdr) (ty : ShTy) (pn : Bool) (d : Dst) (a b : Src) (s : State) : Answer :=
  .next (shCvt h ty pn d a b (fun w => BitVec.ofNat 32 (w.getLsbD (h.imm.toNat % 16)).toNat) s)
/-- An operation that finishes from a group and an opened word: `f` of the party, the group and the opened pair. -/
def shFinish (h : Hdr) (ty : ShTy) (d : Dst) (a b c : Src) (f : State → Bool → (Nat → Word) → Word × Word → Word) (s : State) : State :=
  perThread .app { srcs := [(a, groupLen ty), (b, if ty == .s32 then 2 else 1), (c, 1)], dsts := [(d, 1)] } h (fun e _ s =>
    match sessionOf s e (rdWord s e h c) with
    | .error r => raise s r
    | .ok (_, g) =>
      let o := (rdWord s e h b, if ty == .s32 then rdWord s e h b 1 else 0)
      .done (wrWord s e d (f s g.party (fun i => rdWord s e h a i) o))) s
/-- The opened words d and e, and the group's a, b and c. -/
def opened (ty : ShTy) (w : Nat → Word) (o : Word × Word) : (Int × Int) × (Int × Int × Int) :=
  if ty == .s32 then ((shVal ty o.1, shVal ty o.2), (shVal ty (w 2), shVal ty (w 3), shVal ty (w 4)))
  else ((shVal ty o.1, shVal ty (o.1 >>> 16)), (shVal ty (w 1), shVal ty (w 2), shVal ty (w 3)))
def execShFin (h : Hdr) (ty : ShTy) (d : Dst) (a b c : Src) (s : State) : Answer :=
  .next (shFinish h ty d a b c (fun _ p w o =>
    let ((dd, ee), (x, y, z)) := opened ty w o
    shWord ty (z + dd * y + ee * x + (if p then 0 else dd * ee))) s)
def execShAnd (h : Hdr) (d : Dst) (a b c : Src) (s : State) : Answer :=
  .next (shFinish h .b16 d a b c (fun _ p w o =>
    let dd := o.1 &&& 0xFFFF
    let ee := o.1 >>> 16
    (w 3 ^^^ (dd &&& w 2) ^^^ (ee &&& w 1) ^^^ (if p then 0 else dd &&& ee)) &&& 0xFFFF) s)
/-- R367; a shift above n − 2 is no pair's, and party 0's value is then unspecified. -/
def truncV (ty : ShTy) (p : Bool) (c q f : Nat) (free : Word) : Word :=
  let n := ShTy.bits ty
  if p then shWord ty (-(q : Int))
  else if f > n - 2 then shWord ty free.toNat
  else shWord ty ((c / 2 ^ f : Nat) - (2 ^ (n - 2 - f) : Nat) - (q : Int))
def execShTrunc (h : Hdr) (ty : ShTy) (d : Dst) (a b c : Src) (s : State) : Answer :=
  .next (shFinish h ty d a b c (fun s p w o =>
    let (q, f) := if ty == .s32 then (w 3, w 4) else (w 2, w 3)
    truncV ty p (shVal ty o.1).toNat (shVal ty q).toNat (shVal ty f).toNat (s.free 0)) s)

/-! ### Exchanges (R364, R365, R387) -/

def combine (ty : ShTy) (a b : Word) : Word :=
  match ty with
  | .s16 => ((a &&& 0xFFFF) + (b &&& 0xFFFF) &&& 0xFFFF) ||| ((a >>> 16) + (b >>> 16)) <<< 16
  | .b16 => a ^^^ b
  | _ => a + b
/-- Words that fit one flit beside the header unit (R376). -/
def flitWords : Nat := 60
/-- Words sent to a peer's gate: a long list goes in two consecutive flits of one port (R376). -/
def sendWords (s : State) (w dev : Nat) (l : List Word) (m : List Word → Msg) : State :=
  if l.length ≤ flitWords then sendMsg s w dev 0 2 (m l)
  else sendMsg (sendMsg s w dev 0 2 (m (l.take flitWords))) w dev 0 2 (m (l.drop flitWords))
/-- The timer of an exchange runs (R372). -/
def startTimer (s : State) (n : Nat) : State := s.modGate n fun g => { g with since := g.since.or (some s.ioclk) }
/-- A contribution is sent: to the gate, or over the fabric to the arbiter, while each side counts its own timeout (R387). -/
def sendContrib (s : State) (n : Nat) (k : Contrib) : State :=
  let g := s.gateRec n
  let s := s.modGate n fun g => { g with pending := some k, held := none, nextId := (g.nextId + 1) % 65536 }
  match g.peer with
  | some (dev, r) =>
    if dev ≠ s.fab.devno ∧ g.party then sendWords (startTimer s n) g.world dev k.words fun l => .gate r { k with words := l }
    else { s with contribs := s.contribs ++ [(n, k)] }
  | none => s
/-- The words of an exchange, each member's in turn. -/
def contribWords (s : State) (e : Env) (h : Hdr) (ty : ShTy) (a : Src) (ts : List Nat) : List Word :=
  ts.flatMap fun t => (List.range (if ty == .s32 then 2 else 1)).map fun i => rdWord s { e with t := t } h a i
def exchange (reveal : Bool) (h : Hdr) (ty : ShTy) (d : Dst) (a b c : Src) (s : State) : State :=
  let k := if ty == .s32 then 2 else 1
  perBundle .app { srcs := [(a, k), (b, 1), (c, 1)], dsts := [(d, k)], engine := true, each := [(a, k)] } h (fun e _ ts s =>
    match sessionOf s e (rdWord s e h b) with
    | .error x => raise s x
    | .ok (n, g) =>
      if g.ended then raise s 0x12
      else if g.pending.isSome || g.held.isSome then .wait s (.retry (.gate n))
      else
        let v : Contrib := { reveal := reveal, ty := ty, id := (rdWord s e h c).setWidth 16, m := ts.length,
                             words := contribWords s e h ty a ts }
        if g.st == .open_ && v.id.toNat != g.nextId then .fail (abortSession s n 0x12) { code := 0x12 }
        else
          let s := ts.foldl (fun s t => irrevocable s e.c t) s
          let s := s.modGate n fun g => { g with waiter := some e.c, waitTo := ts, dst := d }
          if g.st == .open_ then .wait (sendContrib s n v) (.xch n)
          else .wait (s.modGate n fun g => { g with held := some v, since := some s.ioclk }) (.xch n)) s
def execShXch (h : Hdr) (ty : ShTy) (d : Dst) (a b c : Src) (s : State) : Answer := .next (exchange false h ty d a b c s)
def execShReveal (h : Hdr) (ty : ShTy) (d : Dst) (a b c : Src) (s : State) : Answer := .next (exchange true h ty d a b c s)

/-- The results of an exchange reach a side (R364). -/
def deliver (s : State) (n : Nat) (k : Contrib) (peer : List Word) : State :=
  let g := s.gateRec n
  let c := g.waiter.getD 0
  let w := if k.ty == .s32 then 2 else 1
  let out := fun (i : Nat) => combine k.ty (k.words.getD i 0) (peer.getD i 0)
  let s := s.modGate n fun g => { g with pending := none, mine := none, theirs := none, since := none, waiter := none, waitTo := [] }
  g.waitTo.zipIdx.foldl (fun s (t, j) =>
    if (s.thr? c t).any (·.blk == .xch n) then
      let e : Env := { c := c, t := t, low := j == 0 }
      advanceNext ((List.range w).foldl (fun s i => wrWord s e g.dst (out (w * j + i)) i) s) c t
    else s) s
/-- Both contributions have arrived: the gate commits, or the headers disagree (R365). -/
def tryCommit (s : State) (n : Nat) : State :=
  let g := s.gateRec n
  match g.mine, g.theirs, g.peer with
  | some a, some b, some (dev, r) =>
    if a.reveal ≠ b.reveal ∨ a.ty ≠ b.ty ∨ a.m ≠ b.m ∨ a.id ≠ b.id then abortSession s n 0x12
    else
      let s := deliver s n a b.words
      if dev = s.fab.devno then deliver s r b a.words else sendWords s g.world dev a.words (.arbiter r)
  | _, _, _ => s
/-- The record of this gate whose timer has lapsed first, of a record and its peer (R372). -/
def firstExpired (s : State) (n : Nat) : Option Nat :=
  let peer := match (s.gateRec n).peer with | some (dev, r) => if dev = s.fab.devno then [r] else [] | none => []
  let due := fun (m : Nat) => ((s.gateRec m).since.getD 0) + (s.gateRec m).timeout
  ((n :: peer).filter fun m => gateExpired s (s.gateRec m)).foldl (fun o m => match o with
    | some v => if due m < due v then some m else some v
    | none => some m) none
/-- A contribution that a record here has sent arrives at the gate. One behind a timer that has lapsed commits nothing: the session aborts
(R372, R373). -/
def gateArrival (s : State) (n : Nat) (k : Contrib) : State :=
  match takeFirst (· == (n, k)) s.contribs, firstExpired s n with
  | none, _ => s
  | some _, some m => abortSession s m 0x13
  | some (_, rest), none =>
    let s := startTimer { s with contribs := rest } n
    let s := s.modGate n fun g => { g with mine := some k }
    match (s.gateRec n).peer with
    | some (dev, r) => if dev = s.fab.devno then tryCommit (s.modGate r fun g => { g with theirs := some k }) n else tryCommit s n
    | none => s
/-- A contribution of a peer on another device arrives at the arbiter (R387). -/
def peerArrival (s : State) (n : Nat) (k : Contrib) : State :=
  let g := s.gateRec n
  if g.st == .open_ && !g.party && g.peer.any (·.1 != s.fab.devno) && g.theirs.isNone then
    match firstExpired s n with
    | some m => abortSession s m 0x13
    | none => tryCommit (s.modGate n fun g => { g with theirs := some k }) n
  else s
def execGateContributionArrival (rec_ : Nat) (c : Contrib) (s : State) : Answer :=
  .next (if s.contribs.contains (rec_, c) then gateArrival s rec_ c else peerArrival s rec_ c)
/-- The arbiter's words arrive at party 1's gate. -/
def arbiterWords (s : State) (n : Nat) (ws : List Word) : State :=
  let g := s.gateRec n
  match g.pending with
  | some k => if g.st == .open_ && g.party && g.peer.any (·.1 != s.fab.devno) then deliver s n k ws else s
  | none => s
/-- How many words an exchange of a type has. -/
def exchangeWords (k : Contrib) : Nat := if k.ty == .s32 then 2 * k.m else k.m
/-- A flit of an exchange: the words are taken as arrived with the last (R365, R376). -/
def gateFlit (s : State) (n : Nat) (k : Contrib) : State :=
  let l := (s.gateRec n).half ++ k.words
  if l.length < exchangeWords k then s.modGate n fun g => { g with half := l }
  else peerArrival (s.modGate n fun g => { g with half := [] }) n { k with words := l }
def arbiterFlit (s : State) (n : Nat) (ws : List Word) : State :=
  let g := s.gateRec n
  let l := g.half ++ ws
  if g.pending.any fun k => l.length < exchangeWords k then s.modGate n fun g => { g with half := l }
  else arbiterWords (s.modGate n fun g => { g with half := [] }) n l
def execArbiterWordsArrival (rec_ : Nat) (ws : List Word) (s : State) : Answer := .next (arbiterWords s rec_ ws)
def execGateTimeout (rec_ : Nat) (s : State) : Answer :=
  if gateExpired s (s.gateRec rec_) then .next (abortSession s rec_ 0x13) else .next s

/-- A record is OPEN. -/
def opensAs (s : State) (n : Nat) (peer : Nat × Nat) : State := s.modGate n fun g => { g with st := .open_, peer := some peer }
/-- An exchange that waited for its record to be OPEN is checked and sent. -/
def sendHeld (s : State) (n : Nat) : State :=
  let g := s.gateRec n
  match g.held with
  | none => s
  | some k => if g.st ≠ .open_ then s else if k.id.toNat = g.nextId then sendContrib s n k else abortSession s n 0x12
/-- Two records that match become OPEN in one step; a record that names a peer on another device is matched by the two
Heartwoods, and the event then names the peer's record there (R357). -/
def execSessionMatch (r1 r2 : Nat) (s : State) : Answer :=
  if matches_ s r1 r2 then
    .next (sendHeld (sendHeld (opensAs (opensAs s r1 (s.fab.devno, r2)) r2 (s.fab.devno, r1)) r1) r2)
  else
    let g := s.gateRec r1
    if g.st == .opening && descRemote g.desc && bytesNat g.desc 6 2 != s.fab.devno && !gateExpired s g then
      .next (sendHeld (opensAs s r1 (bytesNat g.desc 6 2, r2)) r1)
    else .next s

/-! ### Closing (R371) -/

/-- The pools of a record detach: their regions pass to the steward with TAINT clear, also where an abort has passed them before
(R360). -/
def detach (s : State) (n : Nat) : State :=
  let g := s.gateRec n
  let s := g.pools.foldl (fun s (_, p) =>
    match s.tokens.find? fun e => entryOf e.2 g.world p.base p.n && (e.2.owner == 0 || e.2.owner == stewardWord) with
    | some (d, t) => setEntry s d t (some { t with owner := stewardWord, taint := false })
    | none => s) s
  s.modGate n fun g => { g with pools := [] }
def freeRecord (s : State) (n : Nat) : State := { (detach s n) with gate := (detach s n).gate.del n }
/-- The end of an OPEN record without a pending contribution: its peer becomes ENDED. -/
def endPeer (s : State) (n : Nat) : State :=
  match (s.gateRec n).peer with
  | some (dev, r) =>
    if dev ≠ s.fab.devno then tellPeer s (s.gateRec n) false
    else if (s.gateRec r).st = .open_ then s.modGate r fun g => { g with st := .ended } else s
  | none => s
/-- What a peer's Heartwood tells of a session (R371, R372, log 73). -/
def sessionTold (s : State) (dev n : Nat) (aborted : Bool) : State :=
  let g := s.gateRec n
  if g.st ≠ .open_ ∨ g.peer.all (·.1 != dev) then s
  else if aborted then abortSession s n 0x12 else s.modGate n fun g => { g with st := .ended }
def contribOpen (s : State) (n : Nat) : Bool :=
  let g := s.gateRec n
  g.pending.isSome || g.theirs.isSome || (match g.peer with
    | some (dev, r) => dev == s.fab.devno && (s.gateRec r).pending.isSome
    | none => false)
/-- Threads whose exchange waits on a record that is closed while OPENING execute it again, and find the record FREE (R356, R371): the spec
does not say what becomes of them (DESIGN CHOICE, log 78). -/
def wakeHeld (s : State) (n : Nat) : State :=
  let g := s.gateRec n
  match g.waiter with
  | some c => g.waitTo.foldl (fun s t => if (s.thr c t).blk = .xch n then setBlk s c t .run else s) s
  | none => s
/-- A record in any state but FREE is closed. -/
def closeRecord (s : State) (n : Nat) : State :=
  let g := s.gateRec n
  if g.st = .open_ then
    if contribOpen s n then freeRecord (abortSession s n 0x12) n else freeRecord (endPeer s n) n
  else freeRecord (if g.st = .opening then wakeHeld s n else s) n
def execShClose (h : Hdr) (d : Dst) (a : Src) (s : State) : Answer :=
  .next (perThread .app { srcs := one [a], dsts := [(d, 1)] } h (fun e _ s =>
    let n := (rdWord s e h a).toNat % 64
    if !isSteward s e ∨ (s.gateRec n).st = .free then .done (wrWord s e d 2)
    else match sessionOf s e (rdWord s e h a) with
      | .error x => raise s x
      | .ok _ => .done (wrWord (closeRecord s n) e d 0)) s)

end Sys2Proof.Machine
end

