-- ==== Sys2Proof/Machine/Place.lean ====
section
/-!
DEFINITION. Launches, placement, eviction and stealing (R47, R49, R81, R82, R85, R157, R180, R281 to R286).
-/
namespace Sys2Proof.Machine

/-! ### Room (R81, R82, R157) -/

def tidOk (s : State) (c t : Nat) : Bool := !(s.ctx c).threads.has t
def tidsFree (s : State) (c : Nat) : List Nat := (List.range 2048).filter (tidOk s c)
/-- Register bytes of the threads that are in the register file. -/
def regBytes (x : Ctx) : Nat := x.threads.foldl (fun n p => if p.2.framed then n else n + 4 * p.2.quota) 0
/-- Slots and register bytes that are free, those of blocks waiting to be placed taken off. -/
def slotsFree (s : State) (c : Nat) : Nat := (tidsFree s c).length - (s.core c).waiting.foldl (fun n b => n + b.count) 0
def bytesFree (s : State) (c : Nat) : Nat :=
  524288 - regBytes (s.ctx c) - (s.core c).waiting.foldl (fun n b => n + 4 * b.count * b.quota) 0
def hasRoom (s : State) (c n quota : Nat) : Bool := slotsFree s c ≥ n && bytesFree s c ≥ 4 * n * quota
/-- A core on which new threads may be placed: in service, neither quiesced (R335) nor saved out (R275), its world not aborted (R342). -/
def placing (s : State) (c : Nat) : Bool := !(s.worlds.look (s.worldOf c)).any (·.aborted) && (s.core c).inService && (s.core c).latch.isSome && !(s.core c).quiesced && !(s.core c).cxsw.save && !(s.core c).cxsw.out

/-! ### Creating threads (R81, R85, R282) -/

/-- A new thread of a block, with its first shadow (R270). -/
def newThread (s : State) (c t : Nat) (b : Block) (i : Nat) : State :=
  let s := clearMarks s c fun m => match m with | .reg _ u _ => u == t | _ => false
  let s := s.setThr c t { pc := b.entry, level := b.level, quota := b.quota,
                          regs := Map.set 0 (Map.set 0 [] 0 b.arg) 1 (BitVec.ofNat 32 i),
                          sched := { since := (s.core c).ccnt.toNat } }
  takeShadow s c (.thr t) b.entry
/-- A block placed whole, in the lowest free slots; spawned threads begin with an acquire at scope `pkg` that applies their
spawner's signature (R282, R292). The threads of a launch see every image written before it (R198). -/
def placeBlock (s : State) (c : Nat) (b : Block) : State :=
  let s := if b.spawn then s else s.modCore c fun k => { k with rcache := [] }
  ((tidsFree s c).take b.count).zipIdx.foldl (fun s (t, i) =>
    let s := newThread s c t b (b.first + i)
    if b.spawn then applySig (dropConst s c) c (s.sigId c t) b.sig true else s) s
/-! ### Eviction (R180) -/

/-- A blocking point at which a member may be evicted. -/
def evictPoint (s : State) (c t : Nat) (th : Thread) : Bool :=
  match th.blk with
  | .join | .bar _ | .rwait _ _ _ | .retry .dqEntry | .mwait .. => true
  | .waits .. => (s.ctx c).ops.any fun o => o.tid == t && o.retired.isNone && !o.done && (match o.body with | .remote r .. => r.kind != .store | _ => false)
  | _ => false
def unitsOf (s : State) (c : Nat) : List UnitId :=
  let x := s.ctx c
  x.groups.keys.map .grp ++ (x.threads.filter fun p => p.2.grp.isNone).map fun p => .thr p.1
def evictable (s : State) (c : Nat) (u : UnitId) : Bool :=
  let ms := (s.members c u).map fun t => (t, s.thr c t)
  ms.all (fun p => p.2.level != .handler && !p.2.framed && (s.ctx c).lead != some p.1 && (p.2.park.isSome || evictPoint s c p.1 p.2)) &&
    ms.any (fun p => p.2.park.isNone)
/-- Frames that an evicted unit takes, counted as the part of a shadow that is taken at once (R414). -/
def evictFrames (s : State) (c : Nat) (u : UnitId) : Nat :=
  cdiv (832 + (s.members c u).foldl (fun n t => n + 128 + 4 * (s.thr c t).quota) 0) 4096
/-- The moment since which every blocked member of a unit has been blocked. -/
def blockedSince (s : State) (c : Nat) (u : UnitId) : Nat :=
  (s.members c u).foldl (fun m t => if (s.thr c t).park.isNone then max m (s.thr c t).since else m) 0
/-- The unit that has been blocked longest among those that may be evicted. R180 does not say when a unit of several members began to
be blocked, nor what breaks a tie: it is when its last blocked member blocked, and the first by `gid` and then by `tid` goes (DESIGN
CHOICE, log 60). -/
def victimUnit (s : State) (c : Nat) : Option UnitId :=
  ((unitsOf s c).filter (evictable s c)).foldl (fun o u => match o with
    | some v => if blockedSince s c u < blockedSince s c v then some u else some v
    | none => some u) none
/-- A unit leaves the register file; nothing where the free list has too few frames. -/
def evict (s : State) (c : Nat) : Option State :=
  match victimUnit s c with
  | none => none
  | some u =>
    let n := evictFrames s c u
    let fr := (s.core c).frames
    if fr.length < n then none
    else
      let s := (s.members c u).foldl (fun s t => s.modThr c t fun th => { th with framed := true }) s
      some ((s.takeFrames (fr.take n)).modCore c fun k => { k with frames := fr.drop n, ctx := { k.ctx with evicted := k.ctx.evicted ++ [(u, fr.take n)] } })
/-- An operation of a core that has not completed. -/
def State.open_ (s : State) (p : Nat × Nat) : Bool := (s.op? p.1 p.2).any fun o => !o.done
/-- Whether the condition a thread waits for in an instruction that executes again holds, but for one that waits behind another
(R84, R87, R137, R150, R178, R189, R198 to R200, R224, R225, R243, R263, R288, R304, R309, R335, R364). -/
def whyOwn (s : State) (c t : Nat) : Why → Bool
  | .counters l st cp tl => withinLimits s c t l st cp tl
  | .room k => s.count c t k < 63
  | .tracker => (trackerUsed (s.ctx c)).length < 16
  | .copyQueue => (s.ctx c).copies.length < 32
  | .mmQueue => !mqFull (s.ctx c)
  | .sortQueue => !sortFull (s.ctx c)
  | .held => writesHeld s c t (s.ctx c).nextOp
  | .arrays => arraysHeld s c t
  | .tile n => match (s.ctx c).tiles.look n with
    | some q => q.st == .ready
    | none => true
  | .cvLoad n => !cvLoading (s.ctx c) n
  | .dqSpace => (s.ctx c).dq.length < 64
  | .dqEntry => (dqTake s c (s.unitOf c t) (s.thr c t).since (s.thr c t).pc).isSome
  | .token w base => match s.tokens.find? fun e => e.2.world == w && e.2.base == base with
    | some e => e.2.pending.isNone
    | none => true
  | .released sc => releaseReady s c t sc
  | .settled => loadsSettled s c t
  | .line w va => !lineBusy (s.ctx c) (s.ctx c).nextOp w va
  | .gate r => (s.gateRec r).pending.isNone && (s.gateRec r).held.isNone
  | .engine u => s.count c u .tileops = 0
  | .quiet cores => cores.all (drained s)
  | .accesses l => !l.any s.open_
  | .behind _ _ => true
  | .never => false
/-- Whether a thread's condition holds; one behind another thread of its bundle goes on with it. -/
def whyHolds (s : State) (c t : Nat) : Why → Bool
  | .behind u _ => match s.thr? c u with
    | some th => th.park.isSome || (match th.blk with | .retry w => whyOwn s c u w | _ => true)
    | none => true
  | w => whyOwn s c t w
/-- Whether a thread's wait is over, so that an evicted unit returns. -/
def awake (s : State) (c t : Nat) : Bool :=
  let th := s.thr c t
  th.park.isNone && (match th.blk with
    | .run => true
    | .retry w => whyHolds s c t w
    | .waits l st cp tl => withinLimits s c t l st cp tl || !th.fails.isEmpty
    | .mwait _ _ _ _ _ woken => woken
    | _ => false)
/-- An evicted unit comes back when a member's wait is over; so it does where its phase has completed into a trap, which parks every
member (R174, R180). -/
def restoreDue (s : State) (c : Nat) (u : UnitId) : Bool :=
  (s.ctx c).evicted.any (·.1 == u) &&
    ((s.members c u).any (awake s c) || (s.members c u).all fun t => (s.thr c t).park.isSome)
/-- Units that wait to come back; they go before every placement. -/
def restoring (s : State) (c : Nat) : Bool := (s.ctx c).evicted.any fun e => restoreDue s c e.1
def restoreNeed (s : State) (c : Nat) (u : UnitId) : Nat := (s.members c u).foldl (fun n t => n + 4 * (s.thr c t).quota) 0
/-- An evicted unit is back in the register file, once it has room. -/
def execUnitRestore (c : Nat) (u : UnitId) (s : State) : Answer :=
  match (s.ctx c).evicted.find? (·.1 == u) with
  | none => .next s
  | some e =>
    if !restoreDue s c u then .next s
    else if 524288 - regBytes (s.ctx c) < restoreNeed s c u then .next ((evict s c).getD s)
    else
      let s := fromFrames ((s.members c u).foldl (fun s t => s.modThr c t fun th => { th with framed := false }) s) c e.2 (s.members c u)
      .next (s.modCore c fun k => { k with frames := k.frames ++ e.2, ctx := { k.ctx with evicted := k.ctx.evicted.filter (·.1 != u) } })

/-- A block that waits takes the room it waited for; a unit that comes back goes before it and may have taken it (R180). -/
def execThreadPlace (c : Nat) (s : State) : Answer :=
  match (s.core c).waiting with
  | b :: rest =>
    if !placing s c || restoring s c then .next s
    else if 524288 - regBytes (s.ctx c) < 4 * b.count * b.quota then .next ((evict s c).getD s)
    else .next (placeBlock (s.modCore c fun k => { k with waiting := rest }) c b)
  | [] => .next s
/-- A block waits that can be placed, or for which a unit can be evicted. -/
def placeDue (s : State) (c : Nat) : Bool :=
  match (s.core c).waiting with
  | b :: _ => placing s c && !restoring s c &&
      (524288 - regBytes (s.ctx c) ≥ 4 * b.count * b.quota || (evict s c).isSome)
  | [] => false

/-! ### Launches (R47, R49, R281) -/

def stewardPath (p : Nat) : Nat := 64 + p
def heartPath (p : Nat) : Nat := 68 + p
def State.path (s : State) (n : Nat) : LaunchPath := (s.paths.look n).getD {}
def State.setPath (s : State) (n : Nat) (p : LaunchPath) : State := { s with paths := s.paths.put n p }
/-- A write to LNCHHI submits; it is ignored while a submission is being read. -/
def submit (s : State) (path : Nat) (world : Nat) (hi : Word) : State :=
  let p := s.path path
  if p.busy then s else s.setPath path { p with addr := hi.toNat * 2 ^ 32 + p.lo.toNat, busy := true, world := world }
def lnchst (p : LaunchPath) : Word := BitVec.ofNat 32 (p.accepted % 65536 + 65536 * p.last + 2 ^ 19 * p.busy.toNat)
/-- The world created with a function. -/
def State.fnWorld (s : State) (fn : Nat) : Option Nat := (s.worlds.find? fun e => e.2.fn == some fn).map (·.1)
def execLnchhiHost (fn : Nat) (hi : Word) (s : State) : Answer :=
  match s.fnWorld fn with
  | some w => .next (submit s fn w hi)
  | none => .next s
def stewardSubmit (s : State) (p : Nat) (hi : Word) : State :=
  match s.parts.look p with
  | some q => submit s (stewardPath p) q.actw hi
  | none => s
def execLnchhiSteward (p : Nat) (hi : Word) (s : State) : Answer := .next (stewardSubmit s p hi)

/-- The outcome of a submission, and the launch that is accepted. -/
def readRecord (s : State) (path : Nat) (p : LaunchPath) : Nat × Option Launch :=
  let va := p.addr
  if va % 32 ≠ 0 then (1, none)
  else match homeCheck s p.world p.world va .load with
    | .error _ => (1, none)
    | .ok h =>
      if poisoned s p.world va 32 [h] then (1, none)
      else
        let l := homeBytes s p.world va 32 [h]
        let given := bytesNat l 14 1 % 2 = 1
        let world := if given then bytesNat l 13 1 else p.world
        let count := bytesNat l 8 4
        let q := bytesNat l 12 1
        if path < heartPath 0 ∧ world ≠ p.world then (2, none)
        else if count = 0 ∨ count > 393216 ∨ q < 16 ∨ q > 128 ∨ q % 8 ≠ 0 ∨ bytesNat l 14 1 ≥ 2 ∨ bytesNat l 15 17 ≠ 0 then (3, none)
        else if !(s.cores.any fun e => e.2.inService && e.2.latch == some world &&
            s.partOf e.1 == (s.worlds.look p.world).map (·.part)) then (4, none)
        else (0, some { entry := BitVec.ofNat 64 (bytesNat l 0 8), count := count, quota := q, world := world, steward := world < 4 })
/-- The read of a submitted record completes; the next record of a steward image is then submitted. -/
def execLaunchRecordRead (path : Nat) (s : State) : Answer :=
  let p := s.path path
  if !p.busy then .next s
  else
    let (last, l) := readRecord s path p
    let p := { p with busy := false, last := last, accepted := if l.isSome then (p.accepted + 1) % 65536 else p.accepted }
    let p := match p.rest with
      | a :: rest => { p with addr := a, busy := true, rest := rest }
      | [] => p
    .next { (s.setPath path p) with launches := s.launches ++ l.toList }
/-- The next block of a launch. -/
def Launch.block (l : Launch) : Block :=
  { entry := l.entry, first := l.next, count := min 32 (l.count - l.next), arg := 0, quota := l.quota, world := l.world,
    level := if l.steward then .steward else .app }
def launchOf (s : State) (w : Nat) : Option Launch := s.launches.find? (·.world == w)
/-- The cores a launch may be placed on: those latched to its world that place. An aborted world's cores stay empty (R342). -/
def launchCores (s : State) (w : Nat) : List Nat :=
  if (s.worlds.look w).any (·.aborted) then [] else (List.range 192).filter fun c => (s.core c).latch == some w && placing s c && !restoring s c
/-- The core with the most free slots that has room, the lowest on a tie. -/
def pickCore (s : State) (l : List Nat) (b : Block) : Option Nat :=
  (l.filter fun c => hasRoom s c b.count b.quota).foldl (fun o c => match o with
    | some d => if slotsFree s c > slotsFree s d then some c else some d
    | none => some c) none
/-- A core that could take a block but for register space evicts; R180 does not say which of a world's cores does: it is the lowest
that has the slots and a unit to evict (DESIGN CHOICE, log 60). -/
def evictFor (s : State) (l : List Nat) (n : Nat) : Option State :=
  (l.filter fun c => slotsFree s c ≥ n).findSome? (evict s)
def nextLaunch (s : State) (w : Nat) (c : Nat) (b : Block) : State :=
  let s := s.modCore c fun k => { k with waiting := k.waiting ++ [b] }
  match takeFirst (fun (l : Launch) => l.world == w) s.launches with
  | some (l, rest) =>
    let l' := { l with next := l.next + b.count }
    { s with launches := if l'.next ≥ l.count then rest else l' :: rest }
  | none => s
def execLaunchBlockPlace (w : Nat) (s : State) : Answer :=
  match launchOf s w with
  | none => .next s
  | some l =>
    let cs := launchCores s w
    match pickCore s cs l.block with
    | some c => .next (nextLaunch s w c l.block)
    | none => .next ((evictFor s cs l.block.count).getD s)
def launchDue (s : State) (w : Nat) : Bool := match launchOf s w with
  | some l => (pickCore s (launchCores s w) l.block).isSome || (evictFor s (launchCores s w) l.block.count).isSome
  | none => false

/-! ### The steal queue (R282 to R285) -/

/-- The block at the head of a record, and the one at its tail; `count` is one above the highest remaining index. -/
def SpawnRec.block (r : SpawnRec) (lo hi : Nat) : Block :=
  { entry := r.entry, first := lo, count := hi + 1 - lo, arg := r.arg, quota := r.quota, world := r.world,
    level := if r.world < 4 then .steward else .app, spawn := true, sig := r.sig }
def SpawnRec.head (r : SpawnRec) : Block := r.block r.next (min (r.count - 1) (32 * (r.next / 32) + 31))
def SpawnRec.tail (r : SpawnRec) : Block := r.block (max r.next (32 * ((r.count - 1) / 32))) (r.count - 1)
def modSteal (s : State) (c : Nat) (f : Steal → Steal) : State := s.modCore c fun k => { k with steal := f k.steal }
/-- The owner's placement waits while a block that was answered is unacknowledged. -/
def spawnReady (s : State) (c : Nat) : Option Block :=
  let k := s.core c
  if !placing s c || restoring s c || k.steal.unacked.isSome then none else k.steal.queue.head?.map (·.head)
def execSpawnBlockPlace (c : Nat) (s : State) : Answer :=
  match spawnReady s c with
  | none => .next s
  | some b =>
    if hasRoom s c b.count b.quota then
      let s := s.modCore c fun k => { k with waiting := k.waiting ++ [b] }
      .next (modSteal s c fun q => { q with queue := match q.queue with
        | r :: rest => if r.next + b.count ≥ r.count then rest else { r with next := r.next + b.count } :: rest
        | [] => [] })
    else .next ((evictFor s [c] b.count).getD s)
def spawnDue (s : State) (c : Nat) : Bool := match spawnReady s c with
  | some b => hasRoom s c b.count b.quota || (evictFor s [c] b.count).isSome
  | none => false
def coreIdle (s : State) (c : Nat) : Bool :=
  let k := s.core c
  k.steal.queue.isEmpty && k.waiting.isEmpty && (tidsFree s c).length ≥ 32
def wantsSteal (s : State) (c : Nat) : Bool :=
  let k := s.core c
  placing s c && k.steal.enable && k.steal.asked.isNone && k.steal.wait.isNone && coreIdle s c
/-- One step of the LFSR with taps 16, 14, 13 and 11 (R283). -/
def lfsr16 (v : BitVec 16) : BitVec 16 :=
  (v >>> 1) ||| (((v ^^^ (v >>> 2) ^^^ (v >>> 3) ^^^ (v >>> 5)) &&& 1) <<< 15)
def victimCore (c : Nat) (l : BitVec 16) : Nat := 12 * (c / 12) + (c % 12 + 1 + l.toNat % 11) % 12
def execStealRequest (c : Nat) (s : State) : Answer :=
  if !wantsSteal s c then .next s
  else .next (modSteal s c fun q =>
    { q with asked := some (victimCore c q.lfsr, slotsFree s c, bytesFree s c), lfsr := lfsr16 q.lfsr })
/-- Thieves whose request a victim has not answered. -/
def askers (s : State) (v : Nat) : List Nat :=
  (List.range 12).map (12 * (v / 12) + ·) |>.filter fun c =>
    (s.core c).steal.asked.any (·.1 == v) && (s.core c).steal.answer.isNone
/-- The answer NONE: the thief waits 2^backoff cycles. -/
def answerNone (s : State) (thief : Nat) : State :=
  modSteal s thief fun q => { q with asked := none, answer := none, wait := some ((s.core thief).ccnt.toNat + 2 ^ q.backoff) }
/-- The owner is about to place the only block that is left. -/
def ownerTakes (s : State) (v : Nat) : Bool :=
  match (s.core v).steal.queue with
  | [r] => r.head == r.tail && (spawnReady s v).any fun b => hasRoom s v b.count b.quota
  | _ => false
/-- The victim answers one request: BLOCK from its newest record, or NONE; the owner goes first where both want the last block. -/
def answerSteal (s : State) (v thief : Nat) : State :=
  let k := s.core v
  match (s.core thief).steal.asked, k.steal.queue.getLast? with
  | some (_, slots, bytes), some r =>
    let b := r.tail
    if (s.core thief).latch ≠ k.latch ∨ !k.inService ∨ ownerTakes s v ∨ b.count > slots ∨ 4 * b.count * b.quota > bytes then answerNone s thief
    else modSteal (modSteal s v fun q => { q with unacked := some (b, thief, k.steal.queue.length - 1) }) thief fun q => { q with answer := some b }
  | _, _ => answerNone s thief
def execStealAnswer (v : Nat) (s : State) : Answer :=
  let l := askers s v
  if (s.core v).steal.unacked.isSome then .next s
  else match l[Config.choose s.tick 7 % l.length]? with
    | some thief => .next (answerSteal s v thief)
    | none => .next s
/-- The block leaves the victim's record and is a record of the thief's own. -/
def execStealAck (thief : Nat) (s : State) : Answer :=
  let q := (s.core thief).steal
  match q.asked, q.answer with
  | some (v, _, _), some b =>
    let r : SpawnRec := { entry := b.entry, count := b.first + b.count, arg := b.arg, quota := b.quota, world := b.world, next := b.first,
                          sig := b.sig }
    let add := fun (w : Word) (hi : Bool) => if hi then (w.extractLsb' 16 16 + 1) ++ w.extractLsb' 0 16 else w.extractLsb' 16 16 ++ (w.extractLsb' 0 16 + 1)
    let s := modSteal s v fun q =>
      { q with unacked := none, stlcnt := add q.stlcnt true
               queue := match q.unacked with
                 | some (_, _, i) => (modAt q.queue i fun t => { t with count := b.first }).filter fun t => t.next < t.count
                 | none => q.queue }
    .next (modSteal s thief fun q =>
      { q with asked := none, answer := none, stlcnt := add q.stlcnt false, queue := q.queue ++ [r] })
  | _, _ => .next s
def execStealBackoffExpiry (c : Nat) (s : State) : Answer :=
  if (s.core c).steal.wait.any (· ≤ (s.core c).ccnt.toNat) then .next (modSteal s c fun q => { q with wait := none }) else .next s
/-- System register STLST (R285). -/
def stlst (q : Steal) : Word := BitVec.ofNat 32 (q.queue.length + 512 * q.asked.isSome.toNat)

/-- A thief that asks no more: a block that it was answered and has not acknowledged stays with its victim (R286). -/
def dropThefts (s : State) (c : Nat) : State :=
  (List.range 12).foldl (fun s i => modSteal s (12 * (c / 12) + i) fun q =>
    { q with unacked := if q.unacked.any (·.2.1 == c) then none else q.unacked }) (modSteal s c fun q => { q with asked := none, answer := none })
/-- A core's part in exchanges of blocks ends: what it was asked stays unanswered, and a block on its way stays with its victim. -/
def dropSteals (s : State) (c : Nat) : State :=
  (List.range 12).foldl (fun s i =>
    let d := 12 * (c / 12) + i
    modSteal s d fun q =>
      { q with unacked := if q.unacked.any (·.2.1 == c) then none else q.unacked
               asked := if q.asked.any (·.1 == c) && q.answer.isSome then none else q.asked
               answer := if q.asked.any (·.1 == c) then none else q.answer }) s

end Sys2Proof.Machine
end

