-- ==== Sys2Proof/Machine/Recover.lean ====
section
/-!
DEFINITION. Posting fault records (R257, R258, R332), rollback (R203, R235, R253, R272), the abort of a world (R273, R317, R342),
tenant saves and restores (R274 to R277), the lead role (R177) and a core that leaves service (R286).
-/
namespace Sys2Proof.Machine

/-! ### Posting (R257, R258, R260, R332) -/

def recBytes (c w : Nat) (r : FRec) : List Byte :=
  bytesOf 8 r.pc.toNat ++ bytesOf 4 r.mask.toNat ++ bytesOf 1 (r.code.toNat + 64 * r.service.toNat + 128 * r.retired.toNat) ++
  bytesOf 1 r.detail.toNat ++ bytesOf 2 (r.tid % 2048) ++ bytesOf 4 r.num.toNat ++ bytesOf 1 r.gid.toNat ++ bytesOf 1 c ++
  bytesOf 1 w ++ bytesOf 1 r.flags.toNat ++ bytesOf 8 (if (3 ≤ r.code ∧ r.code ≤ 8) ∨ r.code = 0x14 then r.addr.toNat else 0)
/-- What a post to a ring does: it waits, it faults with a code, or the record is written and counted. -/
inductive RingPost
  | full | bad (code : BitVec 6) | ok (s : State)
def ringPost (s : State) (c w : Nat) (base : DWord) (ctl : Word) (d : List Byte) : RingPost :=
  let size := ctl.toNat % 16
  if size = 0 then .full
  else match ringWord s w base.toNat with
    | .error e => .bad e
    | .ok n =>
      if (n.toNat + 65536 - ctl.toNat / 65536) % 65536 = 2 ^ size then .full
      else
        match ringWrite s c w ((base.toNat + 64 + 32 * (n.toNat % 2 ^ size)) % 2 ^ 64) d with
        | .error e => .bad e
        | .ok s => match ringWrite s c w base.toNat (bytesOf 4 ((n.toNat + 1) % 2 ^ 32)) with
          | .error e => .bad e
          | .ok s => .ok s
def handlerParked (s : State) (c : Nat) : Bool := (s.ctx c).handler.any fun t => (s.thr c t).park.isSome
/-- The oldest record held for the core's handler, whether or not that thread is parked. A queue write that faults parks the handler
thread; the record stays held. -/
def postOwn (s : State) (c : Nat) : Option State :=
  match (s.ctx c).recs with
  | [] => none
  | r :: rest =>
    match ringPost s c (s.worldOf c) (s.ctx c).fqb (s.ctx c).fqctl (recBytes c (s.worldOf c) r) with
      | .full => none
      | .ok s => some (capTrigger (s.modCtx c fun x => { x with recs := rest }) c 5)
      | .bad e => if handlerParked s c then none else (s.ctx c).handler.map fun t => takeFaults s c [(t, { code := e, addr := (s.ctx c).fqb })]
/-- The oldest record held for the steward of the core's partition; one whose write faults is discarded. -/
def postSteward (s : State) (c : Nat) : Option State :=
  match s.partOf c with
  | none => none
  | some p => match s.parts.look p with
    | none => none
    | some q => match q.recs with
      | [] => none
      | (r, d, w) :: rest =>
        match ringPost s d p q.sfqb q.sfqctl (recBytes d w r) with
        | .full => none
        | .ok s => some (capTrigger (s.modPart p fun q => { q with recs := rest }) d 5)
        | .bad _ => some (s.modPart p fun q => { q with recs := rest })
def execFaultRecordPost (c : Nat) (s : State) : Answer := .next (((postOwn s c).or (postSteward s c)).getD s)
def postDue (s : State) (c : Nat) : Bool := (postOwn s c).isSome || (postSteward s c).isSome

/-! ### What is under way on a core comes to its end, or is dropped -/

/-- The dirty lines of a range reach memory, and the operation completes. -/
def endFlush (s : State) (c id : Nat) : State :=
  match execFlushComplete c id s with
  | .next s' => s'
  | _ => s
/-- Stores, atomics and flushes of a core complete, oldest first. -/
def drainStores (s : State) (c : Nat) : State :=
  ((s.ctx c).ops.map (·.id)).foldl (fun s id => match s.op? c id with
    | some o => if o.done then s else match o.body with
      | .store .. => holdStore s c o
      | .rmw .. => completeOp s c o
      | .flush .. => endFlush s c id
      | .remote r _ _ (some _) => if r.kind == .load then s else completeOp s c o
      | _ => s
    | none => s) s
def dropOps (s : State) (c : Nat) (p : Op → Bool) : State :=
  s.modCtx c fun x => { x with ops := pruneOps [] (x.ops.filter fun o => !p o) }
/-- Entries of the engines that an agent has queued or executing go, and their counters fall (R235, R253); the tiles they read are no
longer read. The entry behind them reaches the head then. No rule says when it starts: the array still works out the last working cycle
of an entry that was executing (DESIGN CHOICE, log 77). -/
def cancelEngines (s : State) (c : Nat) (a : Agent) : State :=
  let x := s.ctx c
  let mine := x.mq.filter (·.agent == a)
  let s := mine.foldl (fun s q => q.ops.foldl (finishOp · c) (match q.kind with | .mma b => readersAdd s c b.tile (-1) | _ => s)) s
  let s := s.modCtx c fun x =>
    let rest := x.mq.filter (·.agent != a)
    { x with mq := if mine.isEmpty then rest else match rest.findIdx? (·.start.isNone) with
        | some i => modAt rest i fun q => { q with since := (s.core c).ccnt.toNat }
        | none => rest }
  let s := (x.cvs.filter fun e => e.2.owner == a).foldl (fun s e => cancelCv s c e.1 false) s
  if x.sort.holder = some a then
    let s := x.sort.queue.foldl (fun s q => q.ops.foldl (finishOp · c) (match q.cmd with
      | .load k p _ _ _ _ => (k :: p.toList).foldl (fun s n => readersAdd s c n (-1)) s
      | _ => s)) s
    modSort s c fun r => { r with queue := [] }
  else s

/-! ### Rollback (R272) -/

/-- Whether a recorded copy is issued again: its thread is still of the unit (R89, R203). -/
def reissues (s : State) (c : Nat) (u : UnitId) (q : Copy) : Bool := (s.members c u).contains q.tid
/-- Tile entries as a shadow holds them. One of a copy that is not issued again stays as it is; reads that others have begun go on. -/
def restoreTiles (s : State) (c : Nat) (u : UnitId) (sh : Shadow) (m : Map Tile) : Map Tile :=
  let lost := fun (n : Nat) => sh.copies.any fun q => !reissues s c u q && (q.kind.tiles.1 == some n || q.kind.tiles.2 == some n)
  sh.tiles.foldl (fun m e => match e.2 with
    | some t =>
      if lost e.1 then m
      else m.put e.1 { t with mread := ((m.look e.1).map (·.mread)).getD 0 }
    | none => m.del e.1) m
/-- A member as its shadow holds it. An event already counted stays (R64, R134). -/
def ShadowThread.back (v : ShadowThread) (th : Thread) : Thread :=
  { th with regs := v.regs, preds := v.preds, stack := v.stack, spBase := v.spBase, spLimit := v.spLimit, spilled := v.spilled,
            step := v.step, sat := th.sat || v.sat, ccnth := v.ccnth }
/-- Whether a place is of what a shadow puts back, the sort array's rows among them or not. -/
def Shadow.restores (sh : Shadow) (u : UnitId) (mem : List Nat) (sort : Bool) : ErrAt → Bool
  | .reg _ t _ => mem.contains t
  | .yreg _ g _ => u == .grp g
  | .scratch _ o => sh.lines.has (o / 128 * 128)
  | .acc _ a w => sh.accs.has (a * 64 + w / 64)
  | .cell _ i => sort && sh.rows.has (i / 64)
  | _ => false
/-- Its members, scratchpad, tiles, accumulators and sort array as a unit's shadow holds them, with the errors that stood in what it
copied (R321). A member that has left does not come back (R89). R253 leaves two cases open: a release of the hold that was pending at
the barrier comes back as a hold with that release pending and an empty queue, which then ends with the next command or release; a unit
that took the hold and gave it back within the interval leaves the array as it is where another agent holds it now (DESIGN CHOICE,
log 77). -/
def restoreShadow (s : State) (c : Nat) (u : UnitId) (sh : Shadow) : State :=
  let a := shadowAgent s c u
  let mem := s.members c u
  let s := sh.lines.foldl (fun s e => writeScratch s c none e.1 (lineBytes e.2)) s
  let s := (sh.threads.filter fun v => mem.contains v.tid).foldl (fun s v => s.modThr c v.tid v.back) s
  let s := match u with
    | .grp g => s.modGroup c g fun gr => { gr with y := sh.y, sat := gr.sat || sh.sat, armed := sh.armed, slice := sh.slice, ages := [] }
    | .thr t => s.modThr c t fun th => { th with age := 0 }
  let sorts := (s.ctx c).sort.holder == some a || (s.ctx c).sort.holder.isNone
  let back := sh.restores u mem (sh.sort.isSome && sorts)
  let s := (clearMarks s c back).modCore c fun k => { k with marks := k.marks ++ sh.marks.filter back }
  let s := s.modCtx c fun x => { x with
    tiles := restoreTiles s c u sh x.tiles
    acc := sh.accs.foldl (fun m e => e.2.zipIdx.foldl (fun m p => m.set 0 (e.1 / 64 * 4096 + e.1 % 64 * 64 + p.2) p.1) m) x.acc
    rexp := sh.exps.foldl (fun m e => setExps m e.1 e.2.1) x.rexp
    cexp := sh.exps.foldl (fun m e => setExps m e.1 e.2.2) x.cexp
    rsv := x.rsv.filter (·.agent != a) ++ sh.rsv.toList
    cvs := sh.cvs.foldl (fun m e => m.put e.1 { e.2 with ops := [] }) (x.cvs.filter fun e => e.2.owner != a)
    sort := match sh.sort with
      | some v =>
        if sorts then
          { v with cells := sh.rows.foldl (fun m e => e.2.zipIdx.foldl (fun m p => m.set {} (e.1 * 64 + p.2) p.1) m) x.sort.cells, queue := [] }
        else x.sort
      | none => x.sort }
  fromFrames ((sh.cvs.filterMap fun e => e.2.bound).foldl (fun s b => readersAdd s c b.tile 1) s) c sh.frames mem
/-- A copy issued again from element 0, counted again (R203). -/
def reissue (s : State) (c : Nat) (q : Copy) : State :=
  let id := (s.ctx c).nextCopy
  let (s, op) := addOp s c q.tid .copies q.pc (.copy id)
  s.modCtx c fun x => { x with nextCopy := id + 1, copies := x.copies ++ [{ q with id := id, op := op, unit := s.unitOf c q.tid }] }
def rollback (s : State) (c : Nat) (u : UnitId) : State :=
  match (s.ctx c).shadow u with
  | none => s
  | some sh =>
    let mem := s.members c u
    let isMem := fun (t : Nat) => mem.contains t
    let lead := mem.headD 0
    let r : FRec := sh.cause.getD { unit := some u, pc := (s.thr c lead).pc, code := 0x14, tid := mem.foldl min lead, flags := 1,
                                    gid := match u with | .grp g => BitVec.ofNat 8 g | .thr _ => 0xFF }
    let level := (s.thr c lead).level
    -- loads drop, copies in flight and engine entries are cancelled
    let s := s.modCtx c fun x => { x with copies := x.copies.filter fun q => !(isMem q.tid && s.copyLive c q) }
    let s := dropOps s c fun o => o.retired.isNone && isMem o.tid && (match o.body with | .load .. | .ldcv .. => true | .remote r _ _ _ => r.kind == .load | _ => false)
    let s := cancelEngines { s with walks := s.walks.filter fun b => !(b.core == c && b.unit == u) } c (shadowAgent s c u)
    -- stores complete
    let s := drainStores s c
    let s := restoreShadow s c u sh
    -- counters are zero; the copies of the barrier are issued again
    let s := dropOps s c fun o => o.retired.isNone && isMem o.tid
    let s := mem.foldl (fun s t => (unpark s c t).modThr c t fun th =>
      { th with pc := sh.pc, blk := .run, park := none, hazard := [], fails := [], prioDue := true }) s
    let s := (sh.copies.filter (reissues s c u)).foldl (reissue · c) s
    report (modShadow s c u fun v => { v with rolled := true, cause := none }) c level r
/-- A unit rolls back, once in an interval (R272). -/
def execRollback (c : Nat) (u : UnitId) (s : State) : Answer :=
  if ((s.ctx c).shadow u).any fun sh => !sh.rolled then .next (rollback s c u) else .next s

/-! ### The abort of a world (R273, R317, R342) -/

/-- Everything of a world on a core is killed, loads dropped, copies and engine entries cancelled; no record is posted but that of the
refused rollback. -/
def killCore (s : State) (c : Nat) : State :=
  let s := drainStores s c
  let s := { s with pipes := s.pipes.filter (·.core != c), walks := s.walks.filter (·.core != c) }
  let s := s.modCtx c fun x => { x with copies := [], replays := [], mq := [], cvs := [], rsv := [], sort := { x.sort with queue := [], holder := none, releasing := false },
                                        tiles := x.tiles.map fun e => (e.1, { e.2 with mread := 0, replay := false }) }
  let s := s.modCtx c fun x => { x with ops := x.ops.filter fun o => o.retired.isSome && !o.done && (match o.body with | .copy _ => false | _ => true)
                                        threads := x.threads.map fun e => (e.1, { e.2 with fails := [], blk := match e.2.blk with | .xch _ => .run | b => b }) }
  let s := (s.ctx c).threads.keys.foldl (fun s t => retire s c t true) s
  let s := (s.ctx c).evicted.foldl (fun s e => s.modCore c fun k => { k with frames := k.frames ++ e.2 }) s
  s.modCore c fun k => { k with waiting := [], steal := { k.steal with queue := [] },
                                ctx := { k.ctx with recs := k.ctx.recs.filter (·.code == 0x15), parked := [], handler := none, evicted := [] } }
/-- Signatures of the agents that have a right in an entry, the steward's apart. -/
def namedSig (s : State) (w : Nat) (t : Token) : Sig :=
  ((t.owner :: t.lender :: t.holders).filter (· != stewardWord)).foldl (fun m a => match coreOfWord s w a with
    | some c => m ||| carried s c a
    | none => m) 0
def Token.reverted (sig : Sig) (t : Token) : Token :=
  { t with owner := stewardWord, lender := 0, pending := none, taint := true, sig := if t.owner = stewardWord then t.sig else sig
           holders := if t.mode == .write then [] else [stewardWord], count := if t.mode == .write then 0 else 1 }
/-- Every token entry of a world reverts to the steward with TAINT, which is a receipt on its core (R310, R317). -/
def revertTokens (s : State) (w : Nat) : State :=
  (s.tokens.filter fun e => e.2.world == w).foldl (fun s e =>
    let t := e.2.reverted (namedSig s w e.2)
    receipt (setEntry s e.1 e.2 (some t)) w stewardWord t.sig) s
def contribPending (g : Gate) : Bool := g.pending.isSome || g.held.isSome
/-- The cores of a world's partition that are latched to it. -/
def worldCores (s : State) (w : Nat) : List Nat := (s.cores.filter fun e => e.2.latch == some w).map (·.1)
def abortWorld (s : State) (w : Nat) (code : BitVec 6) : State :=
  match s.worlds.look w with
  | none => s
  | some x =>
    if x.aborted then s
    else
      let cs := worldCores s w
      let s := s.modWorld w fun x => { x with aborted := true }
      let s := if code = 0x15 then s else sendSteward s (cs.headD 0) { code := code }
      let s := (s.gate.keys).foldl (fun s r =>
        let g := s.gateRec r
        if g.world = w && contribPending g then abortSession s r 0x12 else s) s
      let s := cs.foldl killCore s
      let s := revertTokens s w
      let s := { s with ending := s.ending.filter fun e => e.2.2.1 != w, launches := s.launches.filter (·.world != w)
                        keys := s.keys.filter fun e => e.2.world != w }
      let s := postVector s w 0
      { s with outbox := s.outbox ++ [.abort w code] }
def execWorldAbort (w : Nat) (code : BitVec 6) (s : State) : Answer := .next (abortWorld s w code)

/-! ### A core leaves service (R286, R317, R329) -/

/-- Rights of the agents of a failed core: borrowed tokens return, others revert to the steward, all with TAINT; their stores in
flight are lost. -/
def Token.failCore (c : Nat) (onCore : Word → Bool) (t : Token) : Token :=
  if !(onCore t.owner || onCore t.lender || t.holders.any onCore) then t
  else
    let lender := if onCore t.lender then stewardWord else t.lender
    let t := { t with taint := true, pending := t.pending.filter fun p => p.core != c }
    if t.mode == .write then
      if onCore t.owner then
        if t.lender = 0 then { t with owner := stewardWord } else { t with owner := lender, lender := 0 }
      else { t with lender := lender }
    else
      let hs := t.holders.filter fun a => !onCore a
      let hs := if onCore t.owner && !hs.contains stewardWord then hs ++ [stewardWord] else hs
      { t with owner := if onCore t.owner then stewardWord else t.owner, holders := hs, count := hs.length }
/-- An owner that a right comes to receives it with the failed agent's signature (R310, R317). The agents are those of the core, and the
steward's of every world of its partition where the core is the steward core in the state `o` before (R307). -/
def failTokens (o s : State) (c : Nat) : State :=
  let onCore := fun (w : Nat) (a : Word) => if a = stewardWord then o.stewardOf w == some c else w == o.worldOf c && coreOfWord o w a == some c
  let s := s.tokens.foldl (fun s e =>
    let w := e.2.world
    let t := e.2.failCore c (onCore w)
    if t = e.2 then s
    else if t.owner = e.2.owner then setEntry s e.1 e.2 (some t)
    else
      let sig := carried s c e.2.owner
      receipt (setEntry s e.1 e.2 (some { t with sig := sig })) w t.owner sig) s
  { s with ending := s.ending.filter (·.1 != c) }
/-- Records of a failed core's queue move to the lowest core in service of its grove with its latch, but for a block that was
answered, which stays. -/
def handOver (s : State) (c : Nat) : State × Bool :=
  let k := s.core c
  let kept := k.steal.unacked.bind fun u => k.steal.queue[u.2.2]?.map fun r => (u, { r with next := u.1.first })
  let l := match k.steal.unacked with
    | some (b, _, i) => (modAt k.steal.queue i fun r => { r with count := b.first }).filter fun r => r.next < r.count
    | none => k.steal.queue
  let s := modSteal s c fun q => { q with queue := (kept.map (·.2)).toList, unacked := kept.map fun p => (p.1.1, p.1.2.1, 0) }
  if l.isEmpty then (s, true)
  else match (List.range 12).find? fun i =>
      let d := 12 * (c / 12) + i
      d != c && (s.core d).inService && (s.core d).latch == k.latch with
    | some i => (modSteal s (12 * (c / 12) + i) fun q => { q with queue := q.queue ++ l }, true)
    | none => (s, false)
/-- Work of its world that stands on a core: threads other than the handler, blocks that wait, operations on their way. -/
def residentWork (s : State) (c : Nat) : Bool :=
  let x := s.ctx c
  x.threads.any (fun e => x.handler != some e.1) || !(s.core c).waiting.isEmpty || x.ops.any (!·.done)
/-- The handler of a core that holds no work ends; a block that was answered stays with the core. -/
def killIdle (s : State) (c : Nat) : State :=
  let q := (s.core c).steal
  (killCore s c).modCore c fun k => { k with steal := q }
/-- The world is aborted with the work on the failed core, or where nothing takes its records over (R286). -/
def outOfService (o : State) (c : Nat) : State :=
  let s := o.modCore c fun k => { k with inService := false }
  let w := s.worldOf c
  let latched := (s.core c).latch.isSome
  let work := residentWork s c
  let s := dropOps s c fun o => match o.body with | .store .. | .rmw .. | .flush .. => !o.done | _ => false
  let s := dropThefts (failTokens o s c) c
  let (s, taken) := handOver s c
  if latched ∧ 4 ≤ w then
    if work ∨ !taken then abortWorld (sendSteward s c { code := 0x15 }) w 0x15 else killIdle s c
  else s

/-! ### The lead role (R177) -/

/-- The shadow of a thread that acts for another agent from now on holds nothing of the engines for it. -/
def newAgent (s : State) (c : Nat) (u : UnitId) : State := modShadow s c u fun v => { v with rsv := none, cvs := [], sort := none }
/-- A write of 1 to LEAD by a thread in no group makes it the lead where there is none: it leaves the units, its own agent ends. -/
def leadClaim (s : State) (c t : Nat) : State :=
  match s.thr? c t with
  | none => s
  | some th =>
    if th.grp.isSome ∨ (s.ctx c).lead.isSome then s
    else
      let u := UnitId.thr t
      let s := endAgent s c (.unit u) (s.sigId c t) (s.actWorld c t) false
      (newAgent (cancelSigner s c t) c u).modCtx c fun x => { x with lead := some t }
/-- A write of 0 by the lead gives the role up; it is a unit of its own again. A register that waits for the lead's signature is cancelled
with it, another agent's too: R227 names a signer that leaves its group, retires or is killed, and not this (DESIGN CHOICE, log 77). -/
def leadGiveUp (s : State) (c t : Nat) : State :=
  if (s.ctx c).lead ≠ some t then s
  else
    let s := cancelSigner s c t
    let s := endAgent s c .lead (s.sigId c t) (s.actWorld c t) false
    newAgent (s.modCtx c fun x => { x with lead := none }) c (.thr t)
def execLeadClaim (c t : Nat) (s : State) : Answer := .next (leadClaim s c t)
def execLeadGiveUp (c t : Nat) (s : State) : Answer := .next (leadGiveUp s c t)

/-! ### Tenant saves and restores (R203, R234, R252, R274 to R277) -/

/-- A frame joins the free list. Bits [11:0] of FRPLO must be 0: the frame's are unspecified where they are not (R9). -/
def frpush (s : State) (c : Nat) (hi : Word) : State :=
  s.modCore c fun k => { k with
    frames := k.frames ++ [hi.toNat * 2 ^ 32 + frameOf k.cxsw.frplo.toNat + (if k.cxsw.frplo.toNat % 4096 = 0 then 0 else (s.free (2 ^ 54)).toNat % 4096)] }
def execFrphi (c : Nat) (v : Word) (s : State) : Answer := .next (frpush s c v)
/-- Frames a save takes: its root and the saved bytes, as far as the model counts them (log 27). -/
def saveFrames (s : State) (c : Nat) : Nat :=
  let x := s.ctx c
  1 + cdiv (x.threads.foldl (fun n p => n + 256 + 4 * p.2.quota) 0 + 832 * x.groups.length + 16 * 128 + 64 * 16 + scratchSize x +
    262144 + 16 * 16384 + 16 * 4096) 4096
/-- A contribution of a thread of the core is with an arbiter on another device: whether it is committed is known once its words, or an
abort, arrive (R365, R387, R410). -/
def awaitsArbiter (s : State) (c : Nat) : Bool := s.gate.any fun e =>
  e.2.waiter == some c && e.2.party && e.2.st == .open_ && e.2.pending.isSome && e.2.peer.any (·.1 != s.fab.devno)
/-- A save may be made: every token instruction in flight has completed, every remote store and atomic is answered, no exchange waits for
an arbiter elsewhere, and the core's quarter is not held (R406). -/
def saveReady (s : State) (c : Nat) : Bool :=
  let x := s.ctx c
  (s.core c).cxsw.save && !(s.core c).quiesced && !awaitsArbiter s c &&
  !(x.threads.any fun e => match e.2.blk with | .pass _ _ | .moving .. => true | _ => false) &&
  (s.ending.all (·.1 != c)) &&
  !(x.ops.any fun o => !o.done && (match o.body with | .remote r _ _ none => r.kind != .load | _ => false))
/-- An executing matrix operation stops at its next pass; other entries in execution run to their end (R234). -/
def stopArray (s : State) (c : Nat) : State :=
  let now := (s.core c).ccnt.toNat
  let s := (List.range (s.ctx c).mq.length).foldr (fun i s => match (s.ctx c).mq[i]? with
    | some q => if q.start.isSome && (match q.kind with | .mma _ => false | _ => true) then completeMm s c i else s
    | none => s) s
  s.modCtx c fun x => { x with mlast := 0, mq := x.mq.map fun q => match q.kind, q.start with
    | .mma b, some st => { q with start := none, since := 0, pass := min b.mode.shape.passes (max 1 (cdiv (now - st) 8)) }
    | _, _ => { q with since := 0 } }
/-- The commands that have started, oldest first: an executing run stops at its next phase, any other runs to its end (R252). -/
def stopCmds : Nat → State → Nat → State
  | 0, s, _ => s
  | n + 1, s, c => match (s.ctx c).sort.queue with
    | [] => s
    | q :: _ => match q.cmd, q.start with
      | _, none => s
      | .run k, some st =>
        let m := min k (max 1 (cdiv (nowOf s c - st) 21))
        if m < k then advanceRun s c m else stopCmds n (completeSort s c q) c
      | _, some _ => stopCmds n (completeSort s c q) c
def stopSort (s : State) (c : Nat) : State :=
  modSort (stopCmds (s.ctx c).sort.queue.length s c) c fun a => { a with last := 0, queue := a.queue.map fun q => { q with since := 0 } }
/-- The copies are cancelled into replay packets. -/
def packCopies (s : State) (c : Nat) : State :=
  let s := (s.ctx c).copies.foldl (fun s q => match q.kind.tiles.1 with
    | some n => modTile s c (some q.unit) n fun t => { t with st := .empty, replay := true }
    | none => s) s
  s.modCtx c fun x => { x with replays := x.copies, copies := [] }
/-- Loads become packets: what a plain load found is forgotten (log 27), and an accepted remote load is asked for again, which its `sent`
false says (R384). -/
def packLoads (s : State) (c : Nat) : State :=
  let s := ((s.ctx c).ops.filter fun o => !o.done && (match o.body with | .load .l .. | .load .w .. => true | _ => false)).foldl
    (fun s o => completeOp s c o) s
  s.modCtx c fun x => { x with ops := x.ops.map fun o => match o.body with
    | .load sp va n ty d .rlx sc _ => { o with body := .load sp va n ty d .rlx sc none }
    | .remote r d _ (some a) => if r.kind == .load && !o.done then { o with body := .remote r d false (some a) } else o
    | _ => o }
/-- Nothing stands in a lane pipe, and every result is there. -/
def Ctx.unpiped (x : Ctx) : Ctx :=
  { x with threads := x.threads.map fun e => (e.1, { e.2 with late := [], sched := { e.2.sched with busy := 0 } })
           groups := x.groups.map fun e => (e.1, { e.2 with sched := { e.2.sched with busy := 0 } }) }
def save (s : State) (c : Nat) : State :=
  let k := s.core c
  let need := saveFrames s c
  if k.frames.length < need then
    if k.cxsw.starved then s
    else (sendSteward s c { code := 0x17 }).modCore c fun k => { k with cxsw := { k.cxsw with starved := true } }
  else
    let s := s.gate.keys.foldl (fun s r => let g := s.gateRec r; if g.waiter = some c ∧ contribPending g then abortSession s r 0x12 else s) s
    let mine := (s.pipes ++ s.walks).filter (·.core == c)
    let s := { s with pipes := s.pipes.filter (·.core != c), walks := s.walks.filter (·.core != c) }
    let s := packLoads (packCopies (stopSort (stopArray (drainStores s c) c) c) c) c
    let k := s.core c
    let root := k.frames.headD 0
    let x := { k.ctx.unpiped with moved := [] }
    let fr := k.frames.take need
    { (s.takeFrames fr) with saves := (s.takeFrames fr).saves.put root { ctx := x, frames := fr, marks := k.marks, bundles := mine } }.setCore c { k with
      frames := k.frames.drop need, rcache := [], marks := []
      ctx := { nextOp := x.nextOp, nextPark := x.nextPark, nextCopy := x.nextCopy }
      cxsw := { k.cxsw with save := false, starved := false, done := true, out := true, gen := k.cxsw.gen + 1, root := BitVec.ofNat 64 root } }
def execCxswSave (c : Nat) (s : State) : Answer := if saveReady s c then .next (save s c) else .next s

/-- Operation numbers of a saved world, moved past those its core has used. -/
def Ctx.shift (n : Nat) (x : Ctx) : Ctx :=
  { x with
    nextOp := x.nextOp + n
    ops := x.ops.map fun o => { o with id := o.id + n, body := match o.body with
      | .along i => .along (i + n)
      | .remote r d sent ans => .remote { r with id := r.id + n } d sent ans
      | b => b }
    copies := x.copies.map fun q => { q with op := q.op + n }
    replays := x.replays.map fun q => { q with op := q.op + n }
    cvs := x.cvs.map fun e => (e.1, { e.2 with ops := e.2.ops.map (· + n) })
    mq := x.mq.map fun q => { q with ops := q.ops.map (· + n) }
    sort := { x.sort with queue := x.sort.queue.map fun q => { q with ops := q.ops.map (· + n) } } }
/-- Entries of the engines go on at their next pass or phase. -/
def Ctx.resumeEngines (now : Nat) (x : Ctx) : Ctx :=
  { x with
    mlast := x.mq.foldl (fun m q => if q.pass > 0 then max m (now + q.kind.work - 8 * q.pass) else m) 0
    mq := x.mq.map fun q => if q.pass > 0 then { q with start := some (now + 1 - 8 * q.pass), since := now } else { q with since := now }
    sort := { x.sort with
      last := x.sort.queue.foldl (fun m q => if q.start.isSome then max m (now + q.cmd.cycles) else m) 0
      queue := x.sort.queue.map fun q => { q with since := now, start := q.start.map fun _ => now + 1 } } }
/-- A remote load that was out is asked for again, one that its target had accepted too. -/
def resend (s : State) (c : Nat) : State :=
  let ask := fun (s : State) (o : Op) (r : RemReq) (d : Dst) (sent : Bool) (ans : Option RemAns) =>
    match s.bind? r.dest o.world with
    | some b =>
      let r := { r with id := remId c o.id }
      sendMsg (s.modOp c o.id fun q => { q with body := .remote r d sent ans }) o.world b.dev r.va 0 (.req r)
    | none => s
  (s.ctx c).ops.foldl (fun s o => match o.body with
    | .remote r d _ none => ask s o r d true none
    | .remote r d false (some a) => if o.done then s else ask s o r d false (some a)
    | _ => s) s
/-- A thread saved inside `mwait` reads its word again (R277); one saved asleep goes on at its next instruction (R112). -/
def rearm (s : State) (c : Nat) : State :=
  (s.ctx c).threads.foldl (fun s e => match e.2.blk with
    | .mwait acq d va seen left _ =>
      let w := s.actWorld c e.1
      let v : Word := match homeCheck s w w va .watch with
        | .ok h => BitVec.ofNat 32 (natOf (homeBytes s w va 4 [h]))
        | .error _ => seen
      if v ≠ seen then endMwait s c e.1 2 else s.modThr c e.1 fun th => { th with blk := .mwait acq d va seen left false }
    | .sleep _ => advanceNext s c e.1
    | _ => s) s
/-- A place of a core's arrays on another core. -/
def ErrAt.on (c : Nat) : ErrAt → ErrAt
  | .reg _ t n => .reg c t n | .yreg _ g n => .yreg c g n | .scratch _ o => .scratch c o | .wbuf _ o => .wbuf c o
  | .acc _ a w => .acc c a w | .cell _ i => .cell c i
  | e => e
/-- A saved world comes back: its packets are asked for again, then its bundles go on where they stopped, without a new opportunity
(R276). -/
def restoreSave (s : State) (c : Nat) : State :=
  let k := s.core c
  let s := s.setCore c { k with cxsw := { k.cxsw with restore := false } }
  match s.saves.look k.cxsw.root.toNat with
  | none => s
  | some v =>
    let x := (v.ctx.shift k.ctx.nextOp).resumeEngines k.ccnt.toNat
    let tiles := x.replays.foldl (fun m q => match q.kind.tiles.1 with
      | some n => (match m.look n with | some t => m.put n { t with st := .filling, replay := false } | none => m)
      | none => m) x.tiles
    let x := { x with copies := x.replays, replays := [], tiles := tiles, nextPark := max x.nextPark k.ctx.nextPark,
                      nextCopy := max x.nextCopy k.ctx.nextCopy }
    let mine (b : Bundle) : Bundle := { b with core := c }
    let s := { s with saves := s.saves.del k.cxsw.root.toNat, pipes := s.pipes ++ v.bundles.map mine }
    let s := s.setCore c { k with
      ctx := x, marks := v.marks.map (ErrAt.on c), cxsw := { k.cxsw with restore := false, done := true, out := false } }
    fromFrames (rearm (resend s c) c) c v.frames x.threads.keys v.lost
def execCxswRestore (c : Nat) (s : State) : Answer := if (s.core c).cxsw.restore then .next (restoreSave s c) else .next s

/-! ### Stall counters and offers (R182, R331) -/

def shctlClear (s : State) (c : Nat) : State := s.modCtx c fun x => { x with shist := [], sreas := [] }
def execShctlClear (c : Nat) (s : State) : Answer := .next (shctlClear s c)
/-- Whether the taker of a partition's offer holds a quarter of it. -/
def offerTaken (s : State) (p : Nat) : Bool :=
  (s.parts.look p).any fun q => q.pcede.getLsbD 6 &&
    (s.parts.look (q.pcede.extractLsb' 4 2).toNat).any fun k => k.pqst.extractLsb' 0 4 &&& q.pcede.extractLsb' 0 4 != 0
/-- A write to PCEDE (R331); it is ignored while the taker holds an offered quarter (R406). -/
def pcede (s : State) (p : Nat) (v : Word) : State :=
  if offerTaken s p then s else
  let v := v &&& 0x7F
  let taker := (v.extractLsb' 4 2).toNat
  s.modPart p fun q =>
    if v.getLsbD 6 ∧ !(v.extractLsb' 0 4 = q.pqm ∧ s.parts.has taker ∧ taker ≠ p) then q else { q with pcede := v }
def execPcede (p : Nat) (v : Word) (s : State) : Answer := .next (pcede s p v)

end Sys2Proof.Machine
end

