-- ==== Sys2Proof/Machine/Priv.lean ====
section
/-!
DEFINITION. The privileged class: partitions (R329, R333 to R338), worlds on cores (R340, R341), shoot-downs (R304), the fabric's
configuration (R380) and key slots (R346).
-/
namespace Sys2Proof.Machine

/-- An instruction of the steward level that answers with a status. -/
def stewardOp (u : Uses) (h : Hdr) (d : Dst) (act : Env → Nat → State → Sum (State × Word) (State × Why)) (s : State) : State :=
  perThread .steward { u with dsts := [(d, 1)] } h (fun e _ s =>
    match s.partOf e.c with
    | none => .done (wrWord s e d 2)
    | some p => match act e p s with
      | .inl (s, v) => .done (wrWord s e d v)
      | .inr (s, w) => .wait s (.retry w)) s
def poll : Why := .counters 63 63 63 63
/-- Conditions tested in order: the status of the first that holds (R334). -/
def firstOf : List (Bool × Word) → Option Word
  | [] => none
  | (b, v) :: l => if b then some v else firstOf l

/-! ### Quarters (R331, R335, R337) -/

def maskOf (p : Nat → Bool) : BitVec 4 := BitVec.ofNat 4 ((List.range 4).foldl (fun n i => if p i then n + 2 ^ i else n) 0)
def State.part (s : State) (p : Nat) : Part :=
  (s.parts.look p).getD { cfg := {}, pqm := 0, pmil := 0, pmig := 0, pnbp := 0, actw := p }
/-- Quarters offered to a partition. -/
def offeredTo (s : State) (p : Nat) : BitVec 4 :=
  s.parts.foldl (fun m e => if e.1 ≠ p ∧ e.2.pcede.getLsbD 6 ∧ (e.2.pcede.extractLsb' 4 2).toNat = p then m ||| e.2.pcede.extractLsb' 0 4 else m) 0
def freeQuarters (s : State) : BitVec 4 := maskOf fun q => (s.partOfQuarter q).isNone
def heldBy (x : Part) : BitVec 4 := x.pqst.extractLsb' 0 4
def coresOf (q : BitVec 4) : List Nat := (quarters q).flatMap fun i => (List.range 48).map (48 * i + ·)
def shootPending (x : Part) : Bool := x.pqst.getLsbD 4

/-- What keeps a quarter from being quiesced (R335). -/
def coreBusy (s : State) (c : Nat) : Bool :=
  let k := s.core c
  !k.steal.queue.isEmpty || k.steal.unacked.isSome || !k.ctx.copies.isEmpty ||
    k.ctx.threads.any fun e => match e.2.blk with | .xch _ | .retry (.gate _) => true | _ => false
def quiesce (s : State) (p : Nat) (q : BitVec 4) : State :=
  let s := (coresOf q).foldl (fun s c =>
    let s := s.modCore c fun k => { k with quiesced := true, ctx := { k.ctx with held := true } }
    (askers s c).foldl answerNone s) s
  s.modPart p fun x => { x with pqst := x.pqst ||| q.setWidth 32 }
def execPartQsc (h : Hdr) (d : Dst) (a : Src) (s : State) : Answer :=
  .next (stewardOp { srcs := one [a] } h d (fun e p s =>
    let v := rdWord s e h a
    let q := v.extractLsb' 0 4
    match (s.thr e.c e.t).blk with
    | .retry (.quiet cs) => if cs.all (drained s) then .inl (s, 0) else .inr (s, .quiet cs)
    | _ =>
      if v.extractLsb' 4 28 ≠ 0 ∨ q = 0 ∨ q &&& ~~~((s.part p).pqm ||| offeredTo s p) ≠ 0 then .inl (s, 2)
      else if (coresOf q).any (coreBusy s) then .inl (s, 1)
      else
        let s := quiesce s p q
        if (coresOf q).all (drained s) then .inl (s, 0) else .inr (s, .quiet (coresOf q))) s)
def execPartRes (h : Hdr) (d : Dst) (a : Src) (s : State) : Answer :=
  .next (stewardOp { srcs := one [a] } h d (fun e p s =>
    let v := rdWord s e h a
    let q := v.extractLsb' 0 4
    let x := s.part p
    match firstOf [(v.extractLsb' 4 28 != 0 || q &&& ~~~(heldBy x) != 0, 2), (shootPending x, 4)] with
    | some st => .inl (s, st)
    | none =>
      let s := (coresOf q).foldl (fun s c => s.modCore c fun k => { k with quiesced := false, ctx := { k.ctx with held := false } }) s
      .inl (s.modPart p fun x => { x with pqst := x.pqst &&& ~~~(q.setWidth 32) }, 0)) s)
/-- Quarters whose stacks may stand in PMIL. -/
def stackQuarters (s : State) (p : Nat) : BitVec 4 :=
  (s.part p).pqm ||| (offeredTo s p &&& heldBy (s.part p)) ||| freeQuarters s
def slotStack (v : BitVec 24) (i : Nat) : Nat := v.toNat / 8 ^ i % 8
def stacksIn (v : BitVec 24) (q : BitVec 4) : Bool := (List.range 8).all fun i => q.getLsbD (slotStack v i / 2)
def worldsOf (s : State) (p : Nat) : List Nat := (s.worlds.filter fun e => e.2.part == p).map (·.1)
/-- What the lines of a partition's worlds have been selected by so far. -/
def priorsOf (s : State) (p : Nat) : List (BitVec 24 × Nat × BitVec 4 × List Nat) :=
  let x := s.part p
  x.prior ++ [(x.pmil, x.pmig, x.pqm, worldsOf s p)]
def execPartWil (h : Hdr) (d : Dst) (a b : Src) (s : State) : Answer :=
  .next (stewardOp { srcs := one [a, b] } h d (fun e p s =>
    let v := rdWord s e h a
    let g := (rdWord s e h b).toNat
    if v.extractLsb' 24 8 ≠ 0 ∨ g < 12 ∨ g > 30 ∨ !stacksIn (v.setWidth 24) (stackQuarters s p) then .inl (s, 2)
    else .inl (s.modPart p fun x => { x with prior := priorsOf s p, pqst := x.pqst ||| 0x10, pmil := v.setWidth 24, pmig := g }, 0)) s)

/-! ### Clearing and latching a core (R255, R329, R340, R341) -/

/-- The core is cleared and unlatched; the stores of what it ran are held first. -/
def clearCore (s : State) (c : Nat) : State :=
  let s := drainStores s c
  let s := (s.ctx c).threads.keys.foldl (fun s t => retire s c t true) s
  let s := drainStores (dropSteals s c) c
  { (s.modCore c fun k => { clearCtx c k with latch := none, cxsw := { k.cxsw with out := false, save := false, restore := false } }) with
    pipes := s.pipes.filter (·.core != c), walks := s.walks.filter (·.core != c) }
def placeHandler (s : State) (c w : Nat) : State :=
  match s.worlds.look w with
  | none => s
  | some x =>
    let b : Block := { entry := x.entry, first := 0, count := 1, arg := 0, quota := x.quota, world := w, level := .handler }
    match (tidsFree s c).head? with
    | some t =>
      let s := (newThread s c t b 0).modThr c t fun th => { th with entered := isInstrAddr x.entry }
      s.modCtx c fun x => { x with handler := some t }
    | none => s
def latchCore (s : State) (c w : Nat) : State :=
  let s := s.modCore c fun k => { k with latch := some w, steal := { lfsr := BitVec.ofNat 16 (c + 1) } }
  if w < 4 then s else placeHandler s c w
/-- The lowest core in service of a partition's quarters. -/
def lowestCore (s : State) (q : BitVec 4) : Option Nat := (coresOf q).find? fun c => (s.core c).inService
/-- Heartwood submits the records of a partition's steward image, one after another (R49). -/
def submitImage (s : State) (p : Nat) : State :=
  match (s.part p).cfg.entries with
  | [] => s
  | a :: rest =>
    s.setPath (heartPath p) { s.path (heartPath p) with
      addr := a, busy := true, world := p, rest := rest }
/-- The partition's steward starts again on its lowest core in service. -/
def startSteward (s : State) (p : Nat) : State :=
  match lowestCore s (s.part p).pqm with
  | some c => submitImage (latchCore (if (s.core c).latch.isSome then clearCore s c else s) c p) p
  | none => s
/-- CORE_OUT_OF_SERVICE: its threads and ops end with it; a steward's core gives the steward another
start on the lowest core left, a tenant's core loses its latch and drops what it asked to steal
(R317, R329, R342; the latch is DESIGN CHOICE, log 79). -/
def execCoreOutOfService (c : Nat) (s : State) : Answer :=
  if !(s.core c).inService then .next s
  else
    let w := (s.core c).latch
    let s := outOfService s c
    match w with
    | some p =>
      if p < 4 then
        let s := killCore s c
        .next (startSteward { (s.modCore c fun k => { clearCtx c k with latch := none }) with launches := s.launches.filter (·.world != p) } p)
      else .next (s.modCore c fun k => { clearCtx c k with latch := none, steal := { k.steal with asked := none } })
    | none => .next s

def execWorldClr (h : Hdr) (d : Dst) (a : Src) (s : State) : Answer :=
  .next (stewardOp { srcs := one [a] } h d (fun e p s =>
    let c := (rdWord s e h a).toNat
    let x := s.ctx c
    if c ≥ 192 ∨ s.partOf c ≠ some p ∨ s.stewardCore p = some c then .inl (s, 2)
    else if x.threads.any (fun q => q.2.level == .app) then .inl (s, 1)
    else if !(trackerUsed x).isEmpty ∨ !x.copies.isEmpty ∨ !x.mq.isEmpty ∨ !x.sort.queue.isEmpty then .inr (s, poll)
    else .inl (clearCore s c, 0)) s)
def execWorldLat (h : Hdr) (d : Dst) (a b : Src) (s : State) : Answer :=
  .next (stewardOp { srcs := one [a, b] } h d (fun e p s =>
    let c := (rdWord s e h a).toNat
    let w := (rdWord s e h b).toNat
    if c ≥ 192 ∨ s.partOf c ≠ some p ∨ (s.core c).latch.isSome ∨ !(s.core c).inService ∨ w < 4 then .inl (s, 2)
    else match s.worlds.look w with
      | some x => if x.part ≠ p ∨ x.aborted then .inl (s, 2) else .inl (latchCore s c w, 0)
      | none => .inl (s, 2)) s)

/-! ### New boundaries (R337, R338, R349) -/

def portMask (q : BitVec 4) : BitVec 48 := BitVec.ofNat 48 ((quarters q).foldl (fun n i => n + (2 ^ 12 - 1) * 2 ^ (12 * i)) 0)
/-- A granule enters scrub. -/
def scrubMark (s : State) (gr : Nat) : State := { s with bark := s.bark.put gr { scrub := true } }
/-- The stacks of a freed quarter enter scrub whole. -/
def scrubQuarter (s : State) (q : Nat) : State :=
  [2 * q, 2 * q + 1].foldl (fun s st =>
    { s with scrub := s.scrub.put st (st * 2 ^ 20), bark := s.bark.filter fun e => e.1 / 2 ^ 20 != st }) s
def stackScrubbing (s : State) (st : Nat) : Bool := s.scrub.has st || s.bark.any fun e => e.1 / 2 ^ 20 == st && e.2.scrub
/-- A partition whose offer is taken ends (R338). -/
def endPart (s : State) (p q : Nat) : State :=
  let s := (s.gate.keys).foldl (fun s r =>
    let g := s.gateRec r
    if ((s.worlds.look g.world).map (·.part)) = some q ∧ g.st ≠ .free then abortSession s r 0x12 else s) s
  let s := match s.stewardCore q with | some c => clearCore s c | none => s
  let grain := fun (e : Nat × Granule) =>
    (e.1, if e.2.world = some q then { scrub := true } else if e.2.part = some q then { e.2 with part := some p } else e.2)
  let pass := fun (e : Nat × World) => (e.1, if e.2.part = q then { e.2 with part := p } else e.2)
  -- lines that the ending steward filled for a tenant world are that world's (R338, R343)
  let own := fun (e : Nat × Die) => (e.1, { e.2 with
    tokens := e.2.tokens.filter (·.world != q), l2 := e.2.l2.map fun l => if l.who = q then { l with who := l.world } else l })
  { s with bark := s.bark.map grain, worlds := (s.worlds.map pass).filter (·.1 != q), parts := s.parts.del q
           paths := (s.paths.del (stewardPath q)).del (heartPath q), launches := s.launches.filter (·.world != q)
           keys := s.keys.filter (·.2.world != q), cxl := s.cxl.filter (·.2.world != q), dies := s.dies.map own }
/-- Token entries in their home tables. -/
def rehome (s : State) : State :=
  let l := s.tokens
  [0, 1].foldl (fun s' d => s'.modDie d fun x => { x with tokens := (l.filter fun e => s.homeDie e.2.world e.2.base == d).map (·.2) }) s
/-- The lowest core in service is the steward core: where it is not latched to the steward world, it is cleared and latched (R329). What
runs on the core that was the steward core until then runs on (DESIGN CHOICE, log 70). -/
def latchSteward (s : State) (p : Nat) : State :=
  match lowestCore s (s.part p).pqm with
  | some c => if (s.core c).latch = some p then s else latchCore (if (s.core c).latch.isSome then clearCore s c else s) c p
  | none => s
/-- The step of `part.wnb`. Quarters that come to no partition are free, and their cores unlatched (R329). -/
def rebound (s : State) (p : Nat) (n : BitVec 4) (ports : BitVec 48) : State :=
  let old := (s.part p).pqm
  let taken := (s.parts.filter fun e => e.1 != p && e.2.pqm &&& n != 0).map fun e => (e.1, e.2.pqm)
  let was := taken.foldl (fun m e => m ||| e.2) old
  let priors := priorsOf s p ++ taken.flatMap fun e => priorsOf s e.1
  let s := taken.foldl (fun s e => endPart s p e.1) s
  let s := (coresOf (was &&& ~~~n)).foldl (fun s c => if (s.core c).latch.isSome then clearCore s c else s) s
  let s := s.modPart p fun x => { x with pqm := n, pnbp := ports, prior := priors, pqst := x.pqst ||| 0x10 }
  latchSteward (rehome ((quarters (was &&& ~~~n)).foldl scrubQuarter s)) p
def execPartWnb (h : Hdr) (d : Dst) (a b : Src) (s : State) : Answer :=
  .next (stewardOp { srcs := [(a, 1), (b, 2)] } h d (fun e p s =>
    let v := rdWord s e h a
    let n := v.extractLsb' 0 4
    let pb := rdPair s e h b
    let x := s.part p
    let old := x.pqm
    let free := freeQuarters s
    let lost := old &&& ~~~n
    let steward := s.stewardCore p
    let s' := rebound s p n (pb.setWidth 48)
    match firstOf [
      (v.extractLsb' 4 28 != 0 || n == 0 || pb.extractLsb' 48 16 != 0 || pb.setWidth 48 &&& ~~~(portMask n) != 0, 2),
      (n &&& ~~~(old ||| offeredTo s p ||| free) != 0, 2),
      ((old ||| n) &&& ~~~free &&& ~~~(heldBy x) != 0, 2),
      ((coresOf lost).any fun c => (s.core c).latch.any (· ≥ 4) || steward == some c, 2),
      (!stacksIn x.pmil n, 2),
      ((quarters (n &&& free)).any fun q => stackScrubbing s (2 * q) || stackScrubbing s (2 * q + 1), 3),
      ([0, 1].any fun d => (s'.die d).tokens.length > tableSize, 5)] with
    | some st => .inl (s, st)
    | none => .inl (s', 0)) s)

/-! ### Shoot-downs (R304) -/

/-- Whether an outstanding operation accesses a page of a set. -/
def Op.inPages (inP : Nat → Nat → Bool) (o : Op) : Bool :=
  !o.done && (o.homes.any (fun h => inP o.world (h.va / 4096)) || (match o.body with
    | .flush va n => (List.range (cdiv n 4096 + 1)).any fun i => inP o.world (va / 4096 + i)
    | .load .g va .. | .load .k va .. => inP o.world (va / 4096)
    | .store .g va .. | .rmw .g va .. => inP o.world (va / 4096)
    | _ => false))
/-- Every cached trace of a set of pages goes: lines are written back and dropped, translations dropped. -/
def shoot (s : State) (p : Nat) (inP : Nat → Nat → Bool) : State :=
  let prim := fun (w pg : Nat) => [0, 1].any fun d => (s.die d).remap.any fun f => f.2.any fun e =>
    e.world == w && e.prim == pg && inP w e.page
  let hit := fun (w va : Nat) => inP w (va / 4096) || prim w (va / 4096)
  let s := [0, 1].foldl (fun s d =>
    let s := ((s.die d).l2.filter fun l => hit l.world l.va).foldl writeBack s
    s.modDie d fun x => { x with
      l2 := x.l2.filter fun l => !hit l.world l.va
      far := x.far.filter fun l => !hit l.world l.va
      remap := x.remap.map fun f => (f.1, f.2.filter fun e => !(inP e.world e.page || inP e.world e.prim)) }) s
  let s := (coresOf (s.part p).pqm).foldl (fun s c => if s.cores.has c then s.modCore c fun k => { k with
      l1 := k.l1.filter fun l => !hit l.world l.va
      ccache := k.ccache.filter fun l => !hit l.world l.va
      fbuf := k.fbuf.filter fun l => !hit l.world l.va
      rcache := k.rcache.filter fun l => !hit l.world l.va } else s) s
  { s with tlb := s.tlb.map fun e => (e.1, e.2.filter fun t =>
      !(inP t.1 t.2.1 || ((Leaf.ofCode t.2.2).sec && inP t.1 ((Leaf.ofCode t.2.2).page / 4096)))) }
/-- The operations on their way that access a set of pages; a copy may, where the set has pages of its world. -/
def accesses (s : State) (inP : Nat → Nat → Bool) (inW : Nat → Bool) : List (Nat × Nat) :=
  s.cores.flatMap fun e => (e.2.ctx.ops.filter fun o => o.inPages inP || (!o.done && inW o.world && (match o.body with
    | .copy _ => true
    | _ => false))).map fun o => (e.1, o.id)
/-- A shoot-down: everything cached of its pages goes at once; it completes, and what has been cached anew meanwhile goes with it, once
every access to them that was accepted before it has completed. -/
def shootDown (s : State) (e : Env) (p : Nat) (inP : Nat → Nat → Bool) (inW : Nat → Bool) (part : Bool) : Sum (State × Word) (State × Why) :=
  let finish := fun (s : State) =>
    let s := shoot s p inP
    Sum.inl (if part then s.modPart p fun x => { x with pqst := x.pqst &&& ~~~(0x10#32), prior := [] } else s, 0)
  match (s.thr e.c e.t).blk with
  | .retry (.accesses l) => if l.any s.open_ then .inr (s, .accesses l) else finish s
  | _ =>
    let l := accesses s inP inW
    if l.isEmpty then finish s else .inr (shoot s p inP, .accesses l)
def execXltSdRange (h : Hdr) (d : Dst) (a b c : Src) (s : State) : Answer :=
  .next (perThread .steward { srcs := (a, 2) :: one [b, c], dsts := [(d, 1)] } h (fun e _ s =>
    let va := (rdPair s e h a).toNat
    let n := (rdWord s e h b).toNat
    let w := (rdWord s e h c).toNat
    let p := (s.partOf e.c).getD 0
    if va % 4096 ≠ 0 then raise s 0x03 (BitVec.ofNat 64 va)
    else if !(worldsOf s p).contains w then raise s 0x05
    else match shootDown s e p (fun v pg => v == w && decide (va / 4096 ≤ pg ∧ pg < va / 4096 + n ∧ pg < 2 ^ 36)) (fun v => v == w && n != 0) false with
      | .inl (s, v) => .done (wrWord s e d v)
      | .inr (s, y) => .wait s (.retry y)) s)
def execXltSdWorld (h : Hdr) (d : Dst) (c : Src) (s : State) : Answer :=
  .next (perThread .steward { srcs := one [c], dsts := [(d, 1)] } h (fun e _ s =>
    let w := (rdWord s e h c).toNat
    let p := (s.partOf e.c).getD 0
    if !(worldsOf s p).contains w then raise s 0x05
    else match shootDown s e p (fun v _ => v == w) (· == w) false with
      | .inl (s, v) => .done (wrWord s e d v)
      | .inr (s, y) => .wait s (.retry y)) s)
def execXltSdPart (h : Hdr) (d : Dst) (s : State) : Answer :=
  .next (perThread .steward { dsts := [(d, 1)] } h (fun e _ s =>
    let p := (s.partOf e.c).getD 0
    let ws := worldsOf s p
    match shootDown s e p (fun v _ => ws.contains v) ws.contains true with
    | .inl (s, v) => .done (wrWord s e d v)
    | .inr (s, y) => .wait s (.retry y)) s)

/-! ### The fabric (R379, R380, R386) -/

def tenantOf (s : State) (p w : Nat) : Bool := 4 ≤ w && (s.worlds.look w).any (·.part == p)
/-- The checks every operation of the class shares. -/
def fabDev (s : State) (d : Nat) : Bool := d < 576 && d != s.fab.devno
def fabOp (h : Hdr) (d : Dst) (a b : Src) (k : Nat) (act : State → Nat → Nat → (Nat → Word) → Option (State × Word)) (s : State) : State :=
  stewardOp { srcs := [(a, 1), (b, k)] } h d (fun e p s =>
    .inl ((act s p (rdWord s e h a).toNat (fun i => rdWord s e h b i)).getD (s, 2))) s
def execFabCfgRoute (h : Hdr) (d : Dst) (a b : Src) (s : State) : Answer :=
  .next (fabOp h d a b 2 (fun s p dv v =>
    let m := (v 1 ++ v 0).toNat
    if !fabDev s dv ∨ m ≥ 2 ^ 48 ∨ (List.range 48).any (fun i => m.testBit i && !(s.part p).pnbp.getLsbD i) then none
    else
      let s := { s with fab := { s.fab with routes := s.fab.routes.set 0 (p * 1024 + dv) m, timers := s.fab.timers.del (p * 1024 + dv) } }
      let again := s.fab.again.filter (· != (p, dv))
      some (if (s.upPorts p dv).isEmpty then
              noteTimers { s with fab := { s.fab with again := if s.lostTo p dv && m != 0 then again ++ [(p, dv)] else again } }
            else { s with fab := { s.fab with lost := s.fab.lost.filter (· != (p, dv)), again := again } }, 0)) s)
def execFabCfgBind (h : Hdr) (d : Dst) (a b : Src) (s : State) : Answer :=
  .next (fabOp h d a b 1 (fun s p dv v =>
    let x := v 0
    let w := (x.extractLsb' 0 8).toNat
    let peer := (x.extractLsb' 8 8).toNat
    let slot := (x.extractLsb' 16 9).toNat
    if !fabDev s dv ∨ x.extractLsb' 25 7 ≠ 0 ∨ !tenantOf s p w ∨ peer < 4 ∨ !keyOk s slot w 3 then none
    else
      let v : Bind := { dev := dv, world := w, peer := peer, slot := slot }
      some ({ s with fab := { s.fab with binds := s.fab.binds.filter (fun q => !(q.dev == dv && q.world == w)) ++ [v] } }, 0)) s)
def execFabCfgUnbind (h : Hdr) (d : Dst) (a b : Src) (s : State) : Answer :=
  .next (fabOp h d a b 1 (fun s p dv v =>
    let x := v 0
    let w := (x.extractLsb' 0 8).toNat
    if !fabDev s dv ∨ x.extractLsb' 8 24 ≠ 0 ∨ !tenantOf s p w then none
    else some ({ s with fab := { s.fab with binds := s.fab.binds.filter fun q => !(q.dev == dv && q.world == w) } }, 0)) s)
def execFabCfgPort (h : Hdr) (d : Dst) (a b : Src) (s : State) : Answer :=
  .next (fabOp h d a b 1 (fun s p dv v =>
    let x := v 0
    if dv ≥ 48 ∨ !(s.part p).pnbp.getLsbD dv ∨ x.extractLsb' 1 31 ≠ 0 then none
    else
      let s := portDown (s.setPort dv { s.port dv with enabled := x.getLsbD 0, dead := false }) dv
      some (s, 0)) s)
def execFabCfgQry (h : Hdr) (d : Dst) (a b : Src) (s : State) : Answer :=
  .next (fabOp h d a b 1 (fun s p dv v =>
    let x := v 0
    let w := (x.extractLsb' 0 8).toNat
    if !fabDev s dv ∨ x.extractLsb' 8 24 ≠ 0 ∨ !tenantOf s p w then none
    else
      let up := (s.upPorts p dv).length
      let lost := s.lostTo p dv
      some (s, BitVec.ofNat 32 ((s.route p dv != 0).toNat + 2 * (up > 0 && !lost).toNat + 4 * lost.toNat + 8 * up +
        512 * (s.bind? dv w).isSome.toNat))) s)

/-! ### Keys (R345, R346, R378) -/

/-- A slot is set or erased: its counters start again. -/
def setKey (s : State) (slot : Nat) (k : Option Key) : State :=
  { s with keys := match k with | some v => s.keys.put slot v | none => s.keys.del slot
           fab := { s.fab with ctrs := s.fab.ctrs.filter fun e => e.1 / 2 % 512 != slot } }
def execKeySet (h : Hdr) (d : Dst) (a b : Src) (s : State) : Answer :=
  .next (perThread .root { srcs := [(a, 2), (b, 1)], dsts := [(d, 1)] } h (fun e _ s =>
    let at_ := (rdPair s e h a).toNat
    let slot := (rdWord s e h b).toNat
    let l := peekN s.hwmem at_ 64
    if at_ % 64 ≠ 0 then raise s 0x03 (BitVec.ofNat 64 at_)
    else if slot = 0 ∨ slot > 511 ∨ bytesNat l 44 1 ≥ 16 ∨ bytesNat l 46 1 ≥ 2 ∨ bytesNat l 47 17 ≠ 0 then .done (wrWord s e d 2)
    else
      let k : Key := { key := l.take 32, iv := (l.drop 32).take 12, ports := BitVec.ofNat 8 (bytesNat l 44 1), world := bytesNat l 45 1 }
      .done (wrWord (setKey s slot (if bytesNat l 46 1 = 1 then some k else none)) e d 0)) s)

end Sys2Proof.Machine
end

