-- ==== Sys2Proof/Machine/SysRegs.lean ====
section
/-!
DEFINITION. The system registers (R7, R10, R113): which are assigned and at which level, what each reads, and what a write to
each does. A register belongs to the thread, its core, its die or its partition as its own rule says.
-/
namespace Sys2Proof.Machine

/-- The level of a register; none where the number has no register. -/
def regLevel (n : Nat) : Option Level :=
  if n ≤ 0x004 then some .app
  else if n = 0x005 then some .handler
  else if n = 0x100 ∨ n = 0x101 then some .handler
  else if n = 0x110 then some .app
  else if 0x140 ≤ n ∧ n ≤ 0x147 then some .handler
  else if 0x150 ≤ n ∧ n ≤ 0x15F then some .handler
  else if n = 0x160 ∨ n = 0x170 ∨ n = 0x171 ∨ n = 0x180 then some .app
  else if 0x190 ≤ n ∧ n ≤ 0x192 then some .handler
  else if 0x198 ≤ n ∧ n ≤ 0x1A1 then some .handler
  else if 0x1A8 ≤ n ∧ n ≤ 0x1AB then some .handler
  else if 0x1B0 ≤ n ∧ n ≤ 0x1B5 then some .steward
  else if n = 0x1C0 ∨ n = 0x1C2 then some .handler
  else if n = 0x1C1 then some .app
  else if 0x200 ≤ n ∧ n ≤ 0x202 then some .steward
  else if 0x210 ≤ n ∧ n ≤ 0x213 then some .steward
  else if n = 0x214 then some .app
  else if 0x220 ≤ n ∧ n ≤ 0x22E then some .steward
  else if n = 0x230 then some .handler
  else if 0x231 ≤ n ∧ n ≤ 0x236 then some .steward
  else if 0x240 ≤ n ∧ n ≤ 0x246 then some .steward
  else if 0x250 ≤ n ∧ n ≤ 0x252 then some .steward
  else if n = 0x260 then some .app
  else if n = 0x261 ∨ n = 0x262 then some .steward
  else none

def lo32 (v : DWord) : Word := v.setWidth 32
def hi32 (v : DWord) : Word := v.extractLsb' 32 32
def setLo (v : DWord) (w : Word) : DWord := hi32 v ++ w
def setHi (v : DWord) (w : Word) : DWord := w ++ lo32 v
def word (n : Nat) : Word := BitVec.ofNat 32 n

/-! ### Windows of a partition -/

def Part.win (x : Part) (n : Nat) : Word := x.wins.get 0 n
def Part.setWin (x : Part) (n : Nat) (v : Word) : Part := { x with wins := x.wins.set 0 n v }
/-- A world that a window of a partition names, where it is the partition's own. -/
def ownWorld (s : State) (p : Nat) (v : Word) : Option Nat :=
  let w := v.toNat % 256
  if (s.worlds.look w).any (·.part == p) then some w else none
/-- The capture unit CAPSEL names: quarter, and unit within it (R354). -/
def capUnit (s : State) (p u : Nat) : Option (Nat × Nat) := (quarters (s.part p).pqm)[u / 32]?.map (·, u % 32)
def capOf (s : State) (q j : Nat) : Capture := ((s.die (q / 2)).caps.look (q % 2 * 32 + j)).getD {}
def setCap (s : State) (q j : Nat) (v : Capture) : State :=
  s.modDie (q / 2) fun x => { x with caps := x.caps.put (q % 2 * 32 + j) v }
def modCap (s : State) (p u : Nat) (f : Capture → Capture) : State :=
  match capUnit s p u with
  | some (q, j) => setCap s q j (f (capOf s q j))
  | none => s
/-- CAPCTL [0]: OFF goes to IDLE; the arm write is a trigger of its cycle. -/
def capArm (v : Capture) : Capture := if v.st = 0 then { v with st := 1, pend := 8 } else { v with pend := v.pend ||| 8 }
/-- CAPCTL [3]. -/
def capClear (v : Capture) : Capture := { v with st := 0, mn := 0xFFFFFFFF, mx := 0, bins := [], pend := 0 }
def execCapctlArm (p u : Nat) (s : State) : Answer := .next (modCap s p u capArm)
def execCapctlClear (p u : Nat) (s : State) : Answer := .next (modCap s p u capClear)
/-- A doorbell to Heartwood (R347); ignored while a command of the partition is outstanding. -/
def ringHeart (s : State) (p : Nat) (v : Word) : State :=
  if s.heart.mbox.any (·.part == p) then s
  else { s with heart := { s.heart with mbox := s.heart.mbox ++ [{ part := p, word := v }] } }
def execHwdb (p : Nat) (v : Word) (s : State) : Answer := .next (ringHeart s p v)
/-- The gate record SHSEL names, where its world is the partition's own. -/
def shRec (s : State) (p : Nat) : Option Gate :=
  let r := (((s.part p).win 0x250).toNat) % 64
  match s.gate.look r with
  | some g => if g.st ≠ .free ∧ (s.worlds.look g.world).any (·.part == p) then some g else none
  | none => none

/-! ### Reading -/

/-- The registers of a thread (R114). -/
def readThr (th : Thread) (n : Nat) : Word :=
  match n with
  | 0x000 => word th.stack.length
  | 0x001 => th.spilled
  | 0x002 => lo32 th.spBase
  | 0x003 => hi32 th.spBase
  | 0x004 => th.spLimit
  | _ => word th.step.toNat
/-- The registers of a core, as one of its threads reads them (R136, R177, R182, R185, R218, R250, R259, R267, R278, R274, R285,
R353). -/
def readCore (s : State) (c t n : Nat) : Word :=
  let k := s.core c
  let x := k.ctx
  if 0x140 ≤ n ∧ n ≤ 0x146 then x.shist.get 0 (n - 0x140)
  else if 0x150 ≤ n ∧ n ≤ 0x15F then x.sreas.get 0 (n - 0x150)
  else if 0x198 ≤ n ∧ n ≤ 0x19F then
    let v := x.bps.get 0 ((n - 0x198) / 2)
    if n % 2 = 0 then lo32 v else hi32 v
  else match n with
    | 0x100 => lo32 x.kwb
    | 0x101 => hi32 x.kwb
    | 0x110 => match x.lead with
      | some l => word (1 + 2 * (decide (l = t)).toNat + 4 * l)
      | none => 0
    | 0x147 => word x.shen.toNat
    | 0x160 => spcfgWord x
    | 0x170 => mmstWord s c t
    | 0x171 => mmrsvWord s c
    | 0x180 => sortWord s c t
    | 0x190 => lo32 x.fqb
    | 0x191 => hi32 x.fqb
    | 0x192 => x.fqctl
    | 0x1A0 => x.bpctl
    | 0x1A1 => word x.phaseStep.toNat
    | 0x1A8 => lo32 k.trace.base
    | 0x1A9 => hi32 k.trace.base
    | 0x1AA => word (k.trace.mode + 4 * k.trace.size)
    | 0x1AB => k.trace.count
    | 0x1B0 => word (4 * k.cxsw.done.toNat + 8 * k.cxsw.starved.toNat + 256 * k.cxsw.gen.toNat)
    | 0x1B1 => lo32 k.cxsw.root
    | 0x1B2 => hi32 k.cxsw.root
    | 0x1B5 => word (k.frames.length % 65536)
    | 0x1C0 => word (k.steal.enable.toNat + 16 * k.steal.backoff)
    | 0x1C1 => stlst k.steal
    | 0x1C2 => k.steal.stlcnt
    | 0x230 => k.qcls.setWidth 32
    | _ => 0
/-- System register PWRST (R328). -/
def pwrst (v : Power) : Word :=
  let l := fun (n : Nat) => (v.locked.get false n).toNat
  word (v.clk + 4 * v.thermal.toNat + 8 * v.current.toNat + 16 * l 0 + 32 * l 1 + 64 * l 2)
def pnbg (q : BitVec 4) : Word := (quarters q).foldl (fun v i => v ||| (0xF#32 <<< (4 * i))) 0
/-- The registers of a partition and its windows (R298, R323, R325, R331, R347, R352 to R354, R371, R381, R49). -/
def readPart (s : State) (c p n : Nat) : Word :=
  let x := s.part p
  let d := s.die (dieOf c)
  match n with
  | 0x201 => match ownWorld s p (x.win 0x200) with
    | some w => word (quotaOf s w)
    | none => 0
  | 0x202 => match ownWorld s p (x.win 0x200) with
    | some w => word (s.lineCount w % 2 ^ 24)
    | none => 0
  | 0x211 => if (x.win 0x210).toNat ≤ 9 then d.errs.get 0 (p * 16 + (x.win 0x210).toNat) else 0
  | 0x212 => audCtl s (dieOf c) p
  | 0x213 => d.audst.get 0 p
  | 0x220 => word (x.pqm.toNat + 16 * p)
  | 0x221 => x.pmil.setWidth 32
  | 0x222 => word x.pmig
  | 0x223 => pnbg x.pqm
  | 0x224 => x.pnbp.setWidth 32
  | 0x225 => (x.pnbp.extractLsb' 32 16).setWidth 32
  | 0x226 => x.pcede
  | 0x227 => x.pqst
  | 0x228 => word x.actw
  | 0x229 => lo32 x.sfqb
  | 0x22A => hi32 x.sfqb
  | 0x22B => x.sfqctl
  | 0x232 => match ownWorld s p (x.win 0x231) with
    | some w => let b := (s.bells.look w).getD {}; word (b.thresh + 65536 * b.delay)
    | none => 0
  | 0x236 => lnchst (s.path (stewardPath p))
  | 0x240 => x.win 0x240
  | 0x241 | 0x242 | 0x243 | 0x244 | 0x245 | 0x246 =>
    let sel := x.win 0x240
    match capUnit s p (sel.toNat % 128) with
    | none => 0
    | some (q, j) =>
      let u := capOf s q j
      match n with
      | 0x241 => u.src
      | 0x242 => u.edges.get 0 (sel.extractLsb' 8 4).toNat
      | 0x243 => word (2 * u.st)
      | 0x244 => u.mn
      | 0x245 => u.mx
      | _ => u.bins.get 0 (sel.extractLsb' 12 4).toNat
  | 0x251 => match (shRec s p).bind fun g => g.pools.look ((x.win 0x250).toNat / 64 % 8) with
    | some q => word (q.cursor + 65536 * q.count)
    | none => 0
  | 0x252 => match shRec s p with
    | some g => word (g.nextId % 65536 + 65536 * g.st.ctorIdx + 2 ^ 19 * g.party.toNat + 2 ^ 20 * g.pending.isSome.toNat)
    | none => 0
  | 0x262 =>
    let m := (x.win 0x261).toNat
    if x.pnbp.getLsbD m then
      let v := s.port m
      word (v.up.toNat + 2 * v.enabled.toNat + 256 * v.fails + 65536 * v.replays)
    else 0
  | 0x22E | 0x234 | 0x235 => 0
  | _ => x.win n
/-- What a register reads for a thread that may read it. -/
def readReg (s : State) (c t n : Nat) : Word :=
  if n ≤ 0x005 then readThr (s.thr c t) n
  else if n = 0x214 then pwrst (s.die (dieOf c)).power
  else if n = 0x260 then word s.fab.devno
  else if n < 0x200 ∨ n = 0x230 then readCore s c t n
  else match s.partOf c with
    | some p => readPart s c p n
    | none => 0

/-! ### Writing -/

/-- CXSW [0] and [1]: a save, else a restore, starts. -/
def cxswWrite (v : Word) (q : Cxsw) : Cxsw :=
  if v.getLsbD 0 then { q with save := true, done := false }
  else if v.getLsbD 1 then { q with restore := true, done := false }
  else q
def writeCore (s : State) (c t n : Nat) (v : Word) : State :=
  let ctx := fun (f : Ctx → Ctx) => s.modCtx c f
  let core := fun (f : Core → Core) => s.modCore c f
  if 0x140 ≤ n ∧ n ≤ 0x146 then ctx fun x => { x with shist := x.shist.set 0 (n - 0x140) v }
  else if 0x150 ≤ n ∧ n ≤ 0x15F then ctx fun x => { x with sreas := x.sreas.set 0 (n - 0x150) v }
  else if 0x198 ≤ n ∧ n ≤ 0x19F then
    let i := (n - 0x198) / 2
    ctx fun x => { x with bps := x.bps.set 0 i (if n % 2 = 0 then setLo (x.bps.get 0 i) v else setHi (x.bps.get 0 i) v) }
  else match n with
    | 0x100 => ctx fun x => { x with kwb := setLo x.kwb (v &&& 0xFFFF0000) }
    | 0x101 => ctx fun x => { x with kwb := setHi x.kwb v }
    | 0x110 => if v.getLsbD 0 then leadClaim s c t else leadGiveUp s c t
    | 0x147 =>
      let s := ctx fun x => { x with shen := v.getLsbD 0 }
      if v.getLsbD 1 then shctlClear s c else s
    | 0x190 => ctx fun x => { x with fqb := setLo x.fqb (v &&& 0xFFFFF000) }
    | 0x191 => ctx fun x => { x with fqb := setHi x.fqb v }
    | 0x192 => ctx fun x => { x with fqctl := v &&& 0xFFFF000F }
    | 0x1A0 => ctx fun x => { x with bpctl := v &&& 0x7FFFF }
    | 0x1A1 => ctx fun x => { x with phaseStep := v.getLsbD 0 }
    | 0x1A8 => core fun k => { k with trace := { k.trace with base := setLo k.trace.base (v &&& 0xFFFFF000) } }
    | 0x1A9 => core fun k => { k with trace := { k.trace with base := setHi k.trace.base v } }
    | 0x1AA => core fun k => { k with trace := { k.trace with size := (v.extractLsb' 2 5).toNat } }
    | 0x1B0 => core fun k => { k with cxsw := cxswWrite v k.cxsw }
    | 0x1B1 => core fun k => { k with cxsw := { k.cxsw with root := setLo k.cxsw.root v } }
    | 0x1B2 => core fun k => { k with cxsw := { k.cxsw with root := setHi k.cxsw.root v } }
    | 0x1B3 => core fun k => { k with cxsw := { k.cxsw with frplo := v } }
    | 0x1B4 => frpush s c v
    | 0x1C0 =>
      let b := (v.extractLsb' 4 4).toNat
      modSteal s c fun q => { q with enable := v.getLsbD 0, backoff := if b ≥ 4 then b else q.backoff }
    | 0x1C2 => modSteal s c fun q => { q with stlcnt := v }
    | 0x230 => core fun k => { k with qcls := v.setWidth 2 }
    | _ => s
def writePart (s : State) (c p n : Nat) (v : Word) : State :=
  let x := s.part p
  let part := fun (f : Part → Part) => s.modPart p f
  let win := fun (m : Word) => part fun y => y.setWin n (v &&& m)
  match n with
  | 0x200 | 0x231 => win 0xFF
  | 0x201 => match ownWorld s p (x.win 0x200) with
    | some w => s.modDie 0 fun d => { d with quota := d.quota.set 0 w (v.toNat % 2 ^ 24) }
    | none => s
  | 0x210 => win 0xF
  | 0x211 =>
    if (x.win 0x210).toNat ≤ 9 then s.modDie (dieOf c) fun d => { d with errs := d.errs.set 0 (p * 16 + (x.win 0x210).toNat) v } else s
  | 0x212 =>
    let n := if (v.extractLsb' 1 5).toNat ≤ 16 then v &&& 0x3E else audCtl s (dieOf c) p &&& 0x3E
    s.modDie (dieOf c) fun d => { d with audctl := d.audctl.set 25 p (n ||| (v &&& 1)) }
  | 0x226 => pcede s p v
  | 0x228 => match ownWorld s p v with
    | some w => part fun y => { y with actw := w }
    | none => s
  | 0x229 => part fun y => { y with sfqb := setLo y.sfqb (v &&& 0xFFFFF000) }
  | 0x22A => part fun y => { y with sfqb := setHi y.sfqb v }
  | 0x22B => part fun y => { y with sfqctl := v &&& 0xFFFF000F }
  | 0x22C => win 0xFFFFFFC0
  | 0x22D => win 0xFFFFFFFF
  | 0x22E => ringHeart s p v
  | 0x232 => match ownWorld s p (x.win 0x231) with
    | some w =>
      let b := { (s.bells.look w).getD {} with thresh := v.toNat % 65536, delay := v.toNat / 65536 }
      let s := { s with bells := s.bells.put w b }
      if b.pending ≠ 0 ∧ b.rung ≥ b.thresh then postBell s w else s
    | none => s
  | 0x233 => if v.toNat % 8 ≤ 5 then win 7 else s
  | 0x234 => s.setPath (stewardPath p) { s.path (stewardPath p) with lo := v }
  | 0x235 => stewardSubmit s p v
  | 0x240 => win 0xFF7F
  | 0x241 => modCap s p ((x.win 0x240).toNat % 128) fun u => { u with src := v &&& 0x00FF3FFF }
  | 0x242 =>
    let i := ((x.win 0x240).extractLsb' 8 4).toNat
    if i ≤ 14 then modCap s p ((x.win 0x240).toNat % 128) fun u => { u with edges := u.edges.set 0 i (v &&& 0xFFFF) } else s
  | 0x243 =>
    modCap s p ((x.win 0x240).toNat % 128) fun u =>
      let u := if v.getLsbD 0 then capArm u else u
      if v.getLsbD 3 then capClear u else u
  | 0x250 => win 0x1FF
  | 0x261 => win 0x3F
  | 0x262 =>
    let m := (x.win 0x261).toNat
    if x.pnbp.getLsbD m then
      let q := s.port m
      let old := word (256 * q.fails + 65536 * q.replays) &&& ~~~v
      s.setPort m { q with fails := (old.extractLsb' 8 8).toNat, replays := (old.extractLsb' 16 16).toNat }
    else s
  | _ => s
/-- A write of a register by a thread that may write it. -/
def writeReg (s : State) (c t n : Nat) (v : Word) : State :=
  if n = 0x005 then s.modThr c t fun th => { th with step := v.getLsbD 0 }
  else if n < 0x100 then s
  else if n < 0x200 ∨ n = 0x230 then writeCore s c t n v
  else match s.partOf c with
    | some p => writePart s c p n v
    | none => s

/-! ### The instructions (R113) -/

def regNum (h : Hdr) : Nat := (h.imm.extractLsb' 0 12).toNat
def execRdsr (h : Hdr) (d : Dst) (s : State) : Answer :=
  .next (perThread .app { dsts := [(d, 1)] } h (fun e _ s =>
    match regLevel (regNum h) with
    | none => raise s 0x01
    | some lv => .done (wrWord s e d (if (s.thr e.c e.t).level.num < lv.num then 0 else readReg s e.c e.t (regNum h)))) s)
/-- A launch is submitted after every write that the thread performed before it (R49). -/
def execWrsr (h : Hdr) (a : Src) (s : State) : Answer :=
  .next (perThread .app { srcs := one [a] } h (fun e _ s =>
    match regLevel (regNum h) with
    | none => raise s 0x01
    | some lv =>
      if (s.thr e.c e.t).level.num < lv.num then .done s
      else if regNum h = 0x235 ∧ !releaseReady s e.c e.t .pkg then .wait s (.retry (.released .pkg))
      else .done (writeReg s e.c e.t (regNum h) (rdWord s e h a))) s)

end Sys2Proof.Machine
end

