-- ==== Sys2Proof/Machine/Reliab.lean ====
section
/-!
DEFINITION. Capture units (R354, R355), the replay auditor (R325), errors in the arrays (R321 to R323), voltage, clock and
temperature (R326, R327), scrubbing (R349), and the package's resets (R329, R350).
-/
namespace Sys2Proof.Machine

/-! ### Capture units -/

/-- Whether a trigger code holds in a unit's cycle; codes above 5 name nothing and never hold. -/
def capTrig (v : Capture) (code : Nat) : Bool := code == 1 || (2 ≤ code && code ≤ 5 && v.pend.getLsbD code)
/-- One value in the extremes and in every bin whose bounds hold it. -/
def capValue (v : Capture) (x : Word) : Capture :=
  let edge := fun (i : Nat) => if i = 0 then 0 else if i = 16 then 2 ^ 32 else (v.edges.get 0 (i - 1)).toNat
  { v with
    mn := if x.toNat < v.mn.toNat then x else v.mn
    mx := if x.toNat > v.mx.toNat then x else v.mx
    bins := (List.range 16).foldl (fun m i =>
      if edge i ≤ x.toNat ∧ x.toNat < edge (i + 1) ∧ m.get 0 i ≠ BitVec.allOnes 32 then m.set 0 i (m.get 0 i + 1) else m) v.bins }
/-- What a unit captures in a cycle: the latencies of the events that completed, or the level of its source. -/
def capValues (s : State) (q : Nat) (v : Capture) (lat : List Word) : List Word :=
  let n := v.src.toNat / 256 % 64
  let c := 48 * q + n
  match v.src.toNat % 256 with
  | 1 | 2 | 3 => lat
  | 4 => if n < 48 then lat else []
  | 5 => if n < 48 then [word (s.ctx c).copies.length] else []
  | 6 => if n < 48 then [word (s.ctx c).mq.length] else []
  | 7 => if n < 48 then [word (fqOpen s c)] else []
  | _ => []
/-- One cycle of a unit. -/
def capCycle (s : State) (q : Nat) (lat : List Word) (v : Capture) : Capture :=
  let start := capTrig v (v.src.extractLsb' 16 4).toNat
  let stop := capTrig v (v.src.extractLsb' 20 4).toNat
  let take := (v.st = 1 && start) || v.st = 2
  let v := if take then (capValues s q v lat).foldl capValue v else v
  { v with st := if v.st = 0 then 0 else if take && !stop then 2 else 1, pend := 0 }
def execCaptureUnitCycle (p u : Nat) (lat : List Word) (s : State) : Answer :=
  match capUnit s p u with
  | some (q, j) => .next (setCap s q j (capCycle s q lat (capOf s q j)))
  | none => .next s

/-! ### The replay auditor -/

/-- Cores on which a sample may be replayed. -/
def auditCores (s : State) (v : AudSlot) : List Nat :=
  (coresOf (1#4 <<< quarterOf v.core)).filter fun c =>
    let k := s.core c
    c != v.core && k.inService && k.latch == some v.world && k.ctx.mq.isEmpty && k.ctx.sort.queue.isEmpty
def freeAudit (s : State) (d n : Nat) : State := s.modDie d fun x => { x with auds := x.auds.del n }
def modAudst (s : State) (d p : Nat) (f : Word → Word) : State :=
  s.modDie d fun x => { x with audst := x.audst.set 0 p (f (x.audst.get 0 p)) }
/-- A sample replayed: freed, discarded where the replay meets an uncorrectable error, or its first core quarantined. -/
def execAuditReplay (d n : Nat) (equal : Bool) (s : State) : Answer :=
  match (s.die d).auds.look n with
  | none => .next s
  | some v => match auditCores s v with
    | [] => .next s
    | c :: _ =>
      let p := (s.partOf v.core).getD 0
      let s := freeAudit s d n
      if (s.core c).marks.any (fun m => match m with | .acc .. | .cell .. => true | _ => false) then .next (audSkip s d p)
      else
        let s := modAudst s d p fun w => w.extractLsb' 16 16 ++ (w.extractLsb' 0 16 + 1)
        if equal then .next s
        else
          let s := modAudst s d p fun w => if w.extractLsb' 24 8 = 0xFF then w else w + 0x1000000
          let s := { s with heart := { s.heart with reports := s.heart.reports ++ [(v.core, c)] } }
          execCoreOutOfService v.core (sendSteward s v.core { code := 0x14, detail := 0x80, num := word c })
/-- A sample is discarded once 2^20 cycles have passed and no core may replay it. -/
def auditLapsed (s : State) (d : Nat) (v : AudSlot) : Bool := v.left ≤ (s.die d).age && (auditCores s v).isEmpty
def execAuditReplayTimeout (d n : Nat) (s : State) : Answer :=
  match (s.die d).auds.look n with
  | some v => if auditLapsed s d v then .next (audSkip (freeAudit s d n) d ((s.partOf v.core).getD 0)) else .next s
  | none => .next s

/-! ### Errors in the arrays -/

/-- The array class, the die, the voltage domain and the partitions of a place (R321, R323, R326): a token table is of every partition on
its die. -/
structure Place where
  cls  : Nat
  die  : Nat
  dom  : Option Nat := none
  parts : List Nat := []
/-- A set of a slice by its number on a die: quarter, slice, set. -/
def setOfNum (d n : Nat) : Nat × Nat × Nat := (2 * d + n / 49152 % 2, n / 2048 % 24, n % 2048)
def placeOf (s : State) : ErrAt → Place
  | .fetch c _ => core s c 0 | .l1 c _ _ => core s c 1 | .reg c _ _ => core s c 2 | .yreg c _ _ => core s c 2
  | .scratch c _ => core s c 3 | .wbuf c _ => core s c 4 | .acc c _ _ => core s c 5 | .cell c _ => core s c 6
  | .l2 w va => { cls := 7, die := s.homeDie w va, dom := some 2, parts := ((s.worlds.look w).map (·.part)).toList }
  | .far d w _ => { cls := 7, die := d, dom := some 2, parts := ((s.worlds.look w).map (·.part)).toList }
  | .l2tag d n => { cls := 8, die := d, dom := some 2, parts := (s.partOfQuarter (setOfNum d n).1).toList }
  | .token d => { cls := 8, die := d, dom := some 2, parts := ([2 * d, 2 * d + 1].filterMap s.partOfQuarter).eraseDups }
  | .hbm pa => { cls := 9, die := pa / 2 ^ 38 % 2, parts := ((s.bark.look (pa / 65536)).bind (·.part)).toList }
where
  core (s : State) (c k : Nat) : Place := { cls := k, die := dieOf c, dom := some (quarterOf c % 2), parts := (s.partOf c).toList }
def satInc (v : BitVec 16) : BitVec 16 := if v = 0xFFFF then v else v + 1
/-- The counts of R323 and, for a corrected error, the monitor's own (R326). -/
def countError (s : State) (x : Place) (corrected : Bool) : State :=
  let s := x.parts.foldl (fun s p => s.modDie x.die fun d =>
    let k := p * 16 + x.cls
    let v := d.errs.get 0 k
    { d with errs := d.errs.set 0 k (if corrected then v.extractLsb' 16 16 ++ satInc (v.extractLsb' 0 16)
                                      else satInc (v.extractLsb' 16 16) ++ v.extractLsb' 0 16) }) s
  match x.dom, corrected with
  | some m, true => s.modDie x.die fun d =>
      let k := m * 16 + x.cls
      { d with power := { d.power with errors := d.power.errors.set 0 k (d.power.errors.get 0 k + 1) } }
  | _, _ => s
/-- A world that an error in a tag or a token table strikes is aborted (R322). -/
def abortStruck (s : State) (w : Nat) : State :=
  match (worldCores s w).head? with
  | some c => abortWorld (sendSteward s c { code := 0x15 }) w 0x15
  | none => abortWorld s w 0x15
def dropFetch (s : State) (c : Nat) (va : Nat) (bad : Bool) : State :=
  s.modCore c fun k => { k with fbuf := if bad then k.fbuf.map fun l => if l.va == va then { l with bad := true } else l
                                        else k.fbuf.filter (·.va != va) }
/-- A word of 64 bits of memory is poisoned. -/
def poisonMem (s : State) (a : Nat) : State := if s.poison.contains a then s else { s with poison := s.poison ++ [a] }
/-- An uncorrectable error in place (R321, R322): what consumes it raises 0x14. The poison of a clean line stays with its word in memory,
from which it would be filled again. -/
def strike (s : State) (e : ErrAt) : State :=
  match e with
  | .fetch c va => dropFetch s c va true
  | .l1 c w va => s.modCore c fun k => { k with l1 := k.l1.map fun l => if l.world == w && l.va == va then { l with bad := true } else l }
  | .reg c .. | .yreg c .. | .scratch c _ | .wbuf c _ | .acc c .. | .cell c _ =>
    s.modCore c fun k => { k with marks := if k.marks.contains e then k.marks else k.marks ++ [e] }
  | .l2 w va => match s.l2? w (lineVa va) with
    | none => s
    | some l =>
      let s := s.modL2 w (lineVa va) fun l => { l with poison := l.poison ||| (1#16 <<< (va % 128 / 8)) }
      if l.dirty then s else poisonMem s (l.pa / 8 + va % 128 / 8)
  | .far d w va =>
    let hit (f : FarLine) : FarLine :=
      if f.world == w && f.va == lineVa va then { f with poison := f.poison ||| (1#16 <<< (va % 128 / 8)) } else f
    s.modDie d fun x => { x with far := x.far.map hit }
  | .l2tag d n =>
    let x := s.die d
    let ws := (x.l2.filter fun l => s.setOf l.world l.va == setOfNum d n).map (·.world) ++
      (x.far.filter fun l => s.farSetOf l == setOfNum d n).map (·.world)
    ws.eraseDups.foldl abortStruck s
  | .token d => ((s.die d).tokens.map (·.world)).eraseDups.foldl abortStruck s
  | .hbm pa => poisonMem s (pa / 8)
/-- A corrected error changes nothing that a program can see but refetches a line (R321). -/
def correct (s : State) (e : ErrAt) : State :=
  match e with
  | .fetch c va => dropFetch s c va false
  | .l1 c w va => dropL1 s c fun l => l.world == w && l.va == va
  | _ => s
def execSoftError (e : ErrAt) (correctable : Bool) (s : State) : Answer :=
  let s := countError s (placeOf s e) correctable
  .next (if correctable then correct s e else strike s e)

/-! ### Voltage, clock and temperature -/

def modPower (s : State) (d : Nat) (f : Power → Power) : State := s.modDie d fun x => { x with power := f x.power }
def execClockStepDown (d : Nat) (thermal : Bool) (s : State) : Answer :=
  .next (modPower s d fun p =>
    { p with above := (s.die d).age, clk := min 3 (p.clk + 1), thermal := p.thermal || thermal, current := p.current || !thermal })
/-- The die steps up only once power and temperature have stayed below their limits for 2^20 cycles. -/
def execClockStepUp (d : Nat) (s : State) : Answer :=
  .next (if (s.die d).power.above + 2 ^ 20 ≤ (s.die d).age then modPower s d fun p => { p with clk := p.clk - 1, thermal := false, current := false }
    else s)
/-- The arrays of a domain run cleanly: its window has no corrected error so far (log 71). -/
def cleanDomain (p : Power) (m : Nat) : Bool := p.errors.all fun e => e.1 / 16 != m || e.2 == 0
def execUndervoltStep (d m : Nat) (s : State) : Answer :=
  .next (modPower s d fun p => if p.locked.get false m || !cleanDomain p m then p else { p with volt := p.volt.set 0 m (p.volt.get 0 m + 1) })
/-- A count of the window is above Heartwood's threshold for its class (log 71). -/
def crossed (p : Power) (m : Nat) : Bool := p.errors.any fun e => e.1 / 16 == m && decide (e.2 > Config.errThreshold (e.1 % 16))
/-- A window of a domain has run its 2^24 cycles. -/
def windowDue (s : State) (d m : Nat) : Bool := (s.die d).power.windows.get 0 m < (s.die d).age / 2 ^ 24
/-- The end of a window, with a crossing or without one as its counts have it (log 6): a crossing raises the domain to its floor and
locks it, whatever steps were taken in it; a new one begins. -/
def execReliabilityWindow (d m : Nat) (past : Bool) (s : State) : Answer :=
  if !windowDue s d m || past != crossed (s.die d).power m then .next s
  else .next (modPower s d fun p =>
    let q := { p with errors := p.errors.filter fun e => e.1 / 16 != m, windows := p.windows.set 0 m ((s.die d).age / 2 ^ 24) }
    if past then { q with volt := q.volt.set 0 m 0, locked := q.locked.set false m true } else q)

/-! ### Scrubbing -/

def pendingGranule (s : State) (gr : Nat) : Bool :=
  match s.bark.look gr with
  | some g => g.scrub
  | none => match s.scrub.look (gr / 2 ^ 20) with
    | some cur => cur ≤ gr
    | none => false
/-- A granule's bytes are zero with fresh check bits. -/
def zeroGranule (s : State) (gr : Nat) : State :=
  { (s.unveil (65536 * gr) 65536) with mem := s.mem.filter fun e => e.1 / 65536 != gr, poison := s.poison.filter fun a => a / 8192 != gr }
/-- The scrubber of a stack reaches a granule: one marked pending, or the next of a whole stack's scrub. -/
def scrubGranule (s : State) (gr : Nat) : State :=
  let st := gr / 2 ^ 20
  let next := s.scrub.look st == some gr
  let s := if pendingGranule s gr && ((s.bark.look gr).isSome || next) then
      { (zeroGranule s gr) with bark := match s.bark.look gr with
          | some g => if g.scrub then s.bark.del gr else s.bark
          | none => s.bark }
    else s
  if next then { s with scrub := if (gr + 1) / 2 ^ 20 = st then s.scrub.put st (gr + 1) else s.scrub.del st } else s
def execScrubGranule (gr : Nat) (s : State) : Answer := .next (scrubGranule s gr)

/-! ### Resets (R7, R329, R349, R350) -/

/-- Granules of a partition's image are its steward world's. -/
def loadImage (s : State) (x : PartCfg) : State :=
  x.image.foldl (fun s e =>
    let s := { (s.unveil e.1 e.2.length) with mem := pokeL s.mem e.1 e.2, poison := s.poison.filter fun a => a < e.1 / 8 || (e.1 + e.2.length + 7) / 8 ≤ a }
    (List.range (cdiv (e.1 % 65536 + e.2.length) 65536)).foldl (fun s i =>
      { s with bark := s.bark.put (e.1 / 65536 + i) { part := some x.num, world := some x.num } }) s) s
/-- A partition is formed as the configuration image says; one that breaks R329 is not. -/
def formPart (s : State) (x : PartCfg) : State :=
  if x.num ≥ 4 ∨ x.quarters = 0 ∨ s.parts.has x.num ∨ s.parts.any (fun e => e.2.pqm &&& x.quarters != 0) then s
  else
    let s := { s with
      parts := s.parts.put x.num { cfg := x, pqm := x.quarters, pmil := x.slots, pmig := x.granule, pnbp := x.ports, actw := x.num }
      worlds := s.worlds.put x.num { part := x.num, root := x.root } }
    loadImage s x
/-- Partitions are formed and each steward is started. -/
def formParts (s : State) (l : List PartCfg) : State :=
  let s := l.foldl formPart s
  s.parts.keys.foldl startSteward { s with cfg := l }
/-- Every core of the package, from reset on: its count of cycles runs whether or not it is latched (R4). -/
def allCores : Map Core := (List.range 192).map fun c => (c, Core.init c)
/-- What the outside world has sent and what has left stay across a reset. -/
def afresh (s : State) : State := { State.reset with tick := s.tick, inputs := s.inputs, outbox := s.outbox }
/-- Power comes up: every granule is scrub pending. -/
def execColdPowerUp (cfg : List PartCfg) (s : State) : Answer :=
  .next (formParts { (afresh s) with cores := allCores, scrub := (List.range 8).map fun st => (st, st * 2 ^ 20) } cfg)
def powerOff (s : State) : State := { (afresh s) with on := false }
def execColdPowerLoss (s : State) : Answer := .next (powerOff s)
/-- The cut at 110 °C. -/
def execThermalCut (s : State) : Answer := .next (powerOff s)
/-- A warm reset: memory and the state of the scrubbers stay, every world ends, and the partitions are loaded again. -/
def execWarmReset (s : State) : Answer :=
  .next (formParts { (afresh s) with
    cores := allCores, mem := s.mem, poison := s.poison, veil := s.veil, hwmem := s.hwmem, scrub := s.scrub
    bark := s.bark.map fun e => (e.1, { scrub := true }) } s.cfg)

end Sys2Proof.Machine
end

