-- ==== Sys2Proof/Machine/FabricIn.lean ====
section
/-!
DEFINITION. What the fabric brings (R374, R376 to R378, R383, R385, R387), links that train, and the loss of a device (R386).
-/
namespace Sys2Proof.Machine

/-! ### The loss of a device -/

/-- An access to a lost device ends: one that waits for its answer parks, an accepted one fails at the next reporting point. -/
def loseOp (d : Nat) (c : Nat) (s : State) (o : Op) : State :=
  match o.body with
  | .remote r _ _ ans =>
    if r.dest ≠ d ∨ o.done then s
    else
      let addr := BitVec.ofNat 64 r.va
      match ans with
      | some _ => finishOp (failOp s c o 0x16 0 addr) c o.id
      | none =>
        let s := s.modCtx c fun x => { x with ops := x.ops.filter (·.id != o.id) }
        if o.retired.isSome then s else takeFaults (setBlk s c o.tid .run) c [(o.tid, { code := 0x16, addr := addr })]
  | _ => s
/-- The same for what a saved world has under way: an accepted access fails at the next reporting point of its thread. -/
def loseSaved (ws : List Nat) (d : Nat) (x : Ctx) : Ctx :=
  let hit := fun (o : Op) => ws.contains o.world && !o.done && (match o.body with | .remote r _ _ (some _) => r.dest == d | _ => false)
  let hits := x.ops.filter hit
  { x with
    ops := pruneOps [] (x.ops.map fun o => if hit o then { o with done := true, gone := true } else o)
    threads := x.threads.map fun e => (e.1, { e.2 with fails := e.2.fails ++ (hits.filter fun o => o.tid == e.1 && o.retired.isNone).map fun o =>
      { code := 0x16, pc := o.pc, addr := match o.body with | .remote r _ _ _ => BitVec.ofNat 64 r.va | _ => 0 } }) }
/-- Whether a pass in flight goes to a device. -/
def PassKind.goesTo (a : Word) : PassKind → Bool
  | .lend t | .share t => t == a
  | .toShared _ t => t == some a
  | _ => false
/-- Rights that a lost device held pass back. -/
def Token.lose (a : Word) (q : Token) : Token :=
  if q.pending.any (fun p => PassKind.goesTo a p.kind) then { q with taint := true }
  else if q.mode == .write then
    (if q.owner = a then { q with owner := q.lender, lender := 0, taint := true } else q)
  else if q.holders.contains a then { q with holders := q.holders.erase a, count := q.count - 1, taint := true }
  else q
/-- What a token of this device, or a mirror, becomes. -/
def loseToken (d die : Nat) (s : State) (t : Token) : State :=
  let a := deviceWord d
  if t.mirror = some d then
    let s := match t.pending with | some p => passFails s die t p | none => s
    s.modDie die fun x => { x with tokens := x.tokens.filter fun q => !(q.mirror == some d && q.base == t.base && q.world == t.world) }
  else
    let s := match t.pending with
      | some p => match p.kind with
        | .reserve e _ => if e = d then passFails s die t p else s
        | _ => s
      | none => s
    s.modDie die fun x => { x with tokens := x.tokens.map fun q =>
      if q.base ≠ t.base ∨ q.world ≠ t.world ∨ q.mirror ≠ t.mirror then q else q.lose a }
/-- Device `d` is lost to partition `p`. -/
def loseDevice (s : State) (p d : Nat) : State :=
  if s.lostTo p d ∨ !s.parts.has p then s
  else
    let ws := worldsOf s p
    let s := { s with fab := { s.fab with lost := s.fab.lost ++ [(p, d)], again := s.fab.again.filter (· != (p, d)), timers := s.fab.timers.del (p * 1024 + d) } }
    let s := s.cores.keys.foldl (fun s c =>
      ((s.ctx c).ops.filter fun o => ws.contains o.world).foldl (loseOp d c) s) s
    let lose (e : Nat × Save) : Nat × Save := (e.1, { e.2 with ctx := loseSaved ws d e.2.ctx })
    let s := { s with saves := s.saves.map lose }
    let s := [0, 1].foldl (fun s n => ((s.die n).tokens.filter fun t => ws.contains t.world).foldl (loseToken d n) s) s
    let s := s.gate.keys.foldl (fun s r =>
      let g := s.gateRec r
      if ws.contains g.world && g.peer.any (·.1 == d) then abortSession s r 0x12 else s) s
    let s := { s with outbox := s.outbox ++ [.loss p d] }
    match s.stewardCore p with
    | some c => sendSteward s c { code := 0x16, num := word d }
    | none => s
/-- Every port of the route has stayed down for 2^20 cycles of IO0. -/
def lossDue (s : State) (p d : Nat) : Bool :=
  match s.fab.timers.look (p * 1024 + d) with
  | some t => t + 2 ^ 20 ≤ s.ioclk && s.route p d != 0 && (s.upPorts p d).isEmpty
  | none => false
def execDeviceLossTimeout (p d : Nat) (s : State) : Answer := if lossDue s p d then .next (loseDevice s p d) else .next s
/-- A loss report loses the device to every partition that has a route to it. -/
def lossReport (s : State) (d : Nat) : State :=
  s.parts.keys.foldl (fun s p => if s.route p d ≠ 0 then loseDevice s p d else s) s
def execLossReport (d : Nat) (s : State) : Answer := .next (lossReport s d)

/-! ### Receipt -/

/-- What a flit that passed its port's checks does. -/
def flitActs (s : State) (f : Flit) : State :=
  let w := flitWorld s f
  let own := fun (r : Nat) => (s.gate.look r).any fun g => some g.world == w
  match f.msg with
  | .req r =>
    if r.src ≠ f.src then s
    else if some r.world = w then { s with fab := { s.fab with remote := s.fab.remote ++ [r] } }
    else sendMsg s (w.getD 0) f.src r.va 1 (.ans { id := r.id, code := some 0x08, val := 0 })
  | .ans a => remoteAnswer s a
  | .gate r c => if own r then gateFlit s r c else s
  | .arbiter r l => if own r then arbiterFlit s r l else s
  | .token home base n m v => if some v = w ∧ home = f.src then mirrorReceipt s home base n v (TMode.ofNat m) else s
  | .tokenHome base _ v => if some v = w then tokenHome s f.src base v else s
  | .reserve home base n v => if some v = w ∧ home = f.src then mirrorReserve s home base n v else s
  | .loss d => if f.vc = 3 then lossReport s d else s
  | .session r x => if f.vc = 3 then sessionTold s f.src r x else s
  | .spdm _ => s
def execFlitReceive (port : Nat) (f : Flit) (s : State) : Answer :=
  if !(s.port port).live then .next s
  else if flitOk s port f then .next (flitActs (flitTaken s port f) f)
  else .next (flitFails s port)

/-! ### Links and numbers -/

def execLinkTrained (port : Nat) (s : State) : Answer :=
  let p := s.port port
  if port < 48 ∧ p.enabled ∧ !p.dead then .next (portUp s port) else .next s
def execDomainEnumeration (d : Nat) (s : State) : Answer :=
  if d < 576 then .next { s with fab := { s.fab with devno := d } } else .next s

end Sys2Proof.Machine
end

