-- ==== Sys2Proof/Machine/Heart.lean ====
section
/-!
DEFINITION. The host's accesses (R49, R343, R345), doorbells (R352), Heartwood's mailbox and windows (R347, R350, R351), its
sessions and the keys they deliver (R347, R348), and the debug port (R350).
-/
namespace Sys2Proof.Machine

/-! ### The host -/

/-- The lines of a range as they stand at home; the code where one is refused. -/
def homeRange (s : State) (w va n : Nat) (k : Acc) : Except (BitVec 6) (List Home) :=
  (segs va n).foldlM (fun acc sg => match homeCheck s w w sg.1 k with
    | .ok h => .ok (acc ++ [h])
    | .error e => .error e) []
/-- The IDE stream of a function's world: a key slot of the world that allows the host port (R345). -/
def hostKey (s : State) (w : Nat) : Bool := s.keys.any fun e => e.2.world == w && e.2.ports.getLsbD 0
/-- A host access that fails: a Completer Abort, which Heartwood counts (R343, log 28). -/
def hostFail (s : State) (fn : Nat) : State :=
  { s with outbox := s.outbox ++ [.hostFail fn], heart := { s.heart with hostFails := s.heart.hostFails + 1 } }
def hostReply (s : State) (fn : Nat) (l : List Byte) : State := { s with outbox := s.outbox ++ [.hostReply fn l] }
/-- A host access to memory; it takes no token, and no doorbell page. A write leaves the side-band as it is (R291). -/
def hostMem (s : State) (fn w va n : Nat) (k : Acc) (act : List Home → State → State) : State :=
  if !hostKey s w then hostFail s fn
  else match homeRange s w va n k with
    | .error _ => hostFail s fn
    | .ok hs => if hs.any (isDoorbell w) ∨ (k ≠ .store ∧ poisoned s w va n hs) then hostFail s fn
      else act hs (hs.foldl (fun s h => fillL2 s w h 3) s)
def hostRmw (s : State) (fn w va n : Nat) (r : Rmw) : State :=
  if (n ≠ 4 ∧ n ≠ 8) ∨ va % n ≠ 0 then hostFail s fn
  else hostMem s fn w va n .atomic fun hs s =>
    let old := BitVec.ofNat 64 (natOf (homeBytes s w va n hs))
    hostReply (homeWriteN s w 2 va (bytesOf n (r.new 0 old).toNat) hs) fn (bytesOf n old.toNat)
def sizeTy (n : Nat) : Ty := if n = 8 then .u64 else .u32
/-- An entry of the function's MSI-X table is masked or unmasked; a pending vector posts when it is unmasked (R352). -/
def maskVector (s : State) (fn v : Nat) (m : Bool) : State :=
  let bit := 1#32 <<< v
  if m then { s with msix := s.msix.set 0 fn (s.msix.get 0 fn &&& ~~~bit) }
  else
    let s := { s with msix := s.msix.set 0 fn (s.msix.get 0 fn ||| bit) }
    if (s.pba.get 0 fn).getLsbD v then
      { s with pba := s.pba.set 0 fn (s.pba.get 0 fn &&& ~~~bit), outbox := s.outbox ++ [.msix fn v] }
    else s
def hostAccess (s : State) (fn w : Nat) : HostAcc → State
  | .bar0Read off => hostReply s fn (bytesOf 4 (if off = 8 then (lnchst (s.path fn)).toNat else 0))
  | .bar0Write off v =>
    if off = 0 then s.setPath fn { s.path fn with lo := v } else if off = 4 then submit s fn w v else s
  | .read va n => hostMem s fn w va n .load fun hs s => hostReply s fn (homeBytes s w va n hs)
  | .write va l => hostMem s fn w va l.length .store fun hs s => homeWriteN s w 2 va l hs
  | .atomic va n op v => match op with
    | .add | .exch => hostRmw s fn w va n (.int op (sizeTy n) v)
    | _ => hostFail s fn
  | .cas va n cmp new => hostRmw s fn w va n (.cas (sizeTy n) cmp new)
  | .msixMask v m => if v < 16 then maskVector s fn v m else s
def execHostInboundAccess (fn : Nat) (a : HostAcc) (s : State) : Answer :=
  match s.fnWorld fn with
  | some w => .next (hostAccess s fn w a)
  | none => .next (hostFail s fn)

/-! ### Doorbells -/

def bellDue (s : State) (w : Nat) : Bool :=
  (s.bells.look w).any fun b => b.pending != 0 && b.since + 1024 * b.delay ≤ s.ioclk
def execCoalesceDelayExpiry (w : Nat) (s : State) : Answer := if bellDue s w then .next (postBell s w) else .next s

/-! ### Worlds -/

/-- A world ends (R347): its granules enter scrub, its entries, slots, function, records, windows and bindings go. -/
def endWorld (s : State) (w : Nat) : State :=
  let s := (s.gate.keys.filter fun r => (s.gateRec r).world == w && (s.gateRec r).st != .free).foldl closeRecord s
  let s := match (s.worlds.look w).bind (·.fn) with
    | some fn => { s with msix := s.msix.del fn, pba := s.pba.del fn, paths := s.paths.del fn }
    | none => s
  let die := fun (x : Die) => { x with
    l2 := x.l2.filter (·.world != w), far := x.far.filter (·.world != w), tokens := x.tokens.filter (·.world != w)
    quota := x.quota.del w, remap := x.remap.map fun f => (f.1, f.2.filter (·.world != w)) }
  { s with
    bark := s.bark.map fun e => (e.1, if e.2.world = some w then { scrub := true } else e.2)
    dies := s.dies.map fun e => (e.1, die e.2)
    tlb := s.tlb.map fun e => (e.1, e.2.filter (·.1 != w))
    keys := s.keys.filter (·.2.world != w), cxl := s.cxl.filter (·.2.world != w), bells := s.bells.del w
    launches := s.launches.filter (·.world != w), ending := s.ending.filter (·.2.2.1 != w)
    fab := { s.fab with binds := s.fab.binds.filter (·.world != w) }
    worlds := s.worlds.del w }

/-! ### The mailbox -/

/-- A mailbox as it is read: its address, its command and its operands, seven words of 64 bits (log 29). -/
structure Box where
  part : Nat
  va   : Nat
  cmd  : Nat
  arg  : Nat → Nat
/-- The home of a line of a world for Heartwood, whose accesses Bark admits to every granule but one whose scrub is pending (R343). -/
def heartHome (s : State) (w va : Nat) : Option Home :=
  let frame := fun (v page : Nat) =>
    if !onStack (stackFor s w v page) page then none
    else if page < 2 ^ 39 then (if pendingGranule s (page / 65536) then none else some page)
    else match s.cxl.look (page / 2 ^ 39 - 1) with
      | some c => if page % 2 ^ 39 + 128 ≤ c.size && windowOk s c.world c then some (c.cell (page % 2 ^ 39)) else none
      | none => none
  match leafOf s w va with
  | .error _ => none
  | .ok l =>
    let v := if l.sec then l.page + lineVa va % 4096 else lineVa va
    match leafOf s w v with
    | .error _ => none
    | .ok m => if l.sec && m.sec then none
      else (frame v (m.page + v % 4096)).map fun pa => { va := v, sec := l.sec, pa := some pa, perm := { write := l.write && m.write }, who := w }
def mailBox (s : State) (m : Mail) : Option Box :=
  let x := s.part m.part
  let va := (x.win 0x22D).toNat * 2 ^ 32 + (x.win 0x22C).toNat
  match (heartHome s m.part va).filter (·.perm.write) with
  | none => none
  | some h =>
    let l := homeBytes s m.part va 64 [h]
    some { part := m.part, va := va, cmd := bytesNat l 0 2, arg := fun i => bytesNat l (8 + 8 * i) 8 }
/-- The answer: the result word, then the status with a release at scope `pkg`. -/
def mailReply (s : State) (b : Box) (status : Nat) (result : Option Nat) : State :=
  match (heartHome s b.part b.va).filter (·.perm.write) with
  | none => s
  | some h =>
    let s := match result with
      | some v => homeWrite s b.part 2 h (b.va % 128 + 8) (bytesOf 4 v) none
      | none => s
    homeWrite s b.part 2 h (b.va % 128 + 4) (bytesOf 4 status) (some (BitVec.allOnes 512, true))
/-- Status 5, where a command is about a world that is not the steward's, and 6, where the world is aborted (R342). -/
def worldStatus (s : State) (p w : Nat) (ab : Bool) : Option Nat :=
  match s.worlds.look w with
  | none => some 5
  | some x => if x.part ≠ p then some 5 else if ab && x.aborted then some 6 else none
def hasProtected (s : State) : Bool := s.worlds.any (·.2.protectd)
/-- The handler image of a world that is about to be created, as Heartwood reads it from its entry on (log 72). -/
def handlerImage (s : State) (w : Nat) (x : World) : List Byte :=
  let s := { s with worlds := s.worlds.put w x }
  (List.range Config.imageLines).flatMap fun i =>
    let va := lineVa x.entry.toNat + 128 * i
    match heartHome s w va with
    | some h => homeBytes s w va 128 [h]
    | none => []
/-- A measurement (R347). -/
def measure (l : List Byte) : List Word := (List.range 8).map (Config.sha3 l)
def worldNew (s : State) (b : Box) : State × Nat :=
  let w := b.arg 0
  let q := b.arg 4
  let fn := b.arg 5
  let prot := b.arg 1 % 2 = 1
  if w < 4 ∨ w > 255 ∨ s.worlds.has w ∨ fn > 63 ∨ (fn ≠ 0 ∧ (s.fnWorld fn).isSome) ∨ q < 16 ∨ q > 128 ∨ q % 8 ≠ 0 then (s, 2)
  else if prot ∧ s.unlocked ≠ 0 then (s, 4)
  else
    let x : World := { part := b.part, protectd := prot, root := b.arg 2 / 4096 * 4096, entry := BitVec.ofNat 64 (b.arg 3), quota := q,
                       fn := if fn = 0 then none else some fn, dbg := !prot && s.unlocked != 0 }
    ({ s with worlds := s.worlds.put w { x with meas := measure (handlerImage s w x) } }, 0)
def worldEnd (s : State) (b : Box) : State × Nat :=
  let w := b.arg 0
  match worldStatus s b.part w false with
  | some e => (s, e)
  | none => if w < 4 ∨ s.cores.any (fun e => e.2.latch == some w) then (s, 1) else (endWorld s w, 0)
/-- The granules of a range; none where it is not a range of granules of the partition's stacks. -/
def granules (s : State) (p base n : Nat) : Option (List Nat) :=
  if base % 65536 ≠ 0 ∨ base / 65536 + n > 2 ^ 23 then none
  else
    let l := (List.range n).map (base / 65536 + ·)
    if l.all fun gr => (s.part p).pqm.getLsbD (gr / 2 ^ 20 / 2) then some l else none
def grant (s : State) (b : Box) : State × Nat :=
  let w := b.arg 0
  match worldStatus s b.part w true with
  | some e => (s, e)
  | none => match granules s b.part (b.arg 1) (b.arg 2) with
    | none => (s, 2)
    | some l =>
      if l.any fun gr => (s.bark.look gr).any fun g => !g.scrub then (s, 2)
      else if l.any (pendingGranule s) then (s, 3)
      else ({ s with bark := l.foldl (fun m gr => m.put gr { part := some b.part, world := some w }) s.bark }, 0)
def revoke (s : State) (b : Box) : State × Nat :=
  match granules s b.part (b.arg 0) (b.arg 1) with
  | none => (s, 2)
  | some l =>
    if l.all fun gr => (s.bark.look gr).any fun g => g.part == some b.part && !g.scrub then (l.foldl scrubMark s, 0) else (s, 2)
def cxlWin (s : State) (b : Box) : State × Nat :=
  let n := b.arg 0
  let w := b.arg 4
  match worldStatus s b.part w true with
  | some e => (s, e)
  | none =>
    let taken := (s.cxl.look n).any fun c => (s.worlds.look c.world).any (·.part != b.part)
    if n > 15 ∨ b.arg 1 > 2 ∨ b.arg 3 > 2 ^ 39 ∨ b.arg 5 > 511 ∨ taken then (s, 2)
    else ({ s with cxl := s.cxl.put n { port := b.arg 1, base := b.arg 2, size := b.arg 3, world := w, key := b.arg 5 } }, 0)
/-- Granules that a scrub has not reached, of the stacks of a partition. -/
def scrubCount (s : State) (p : Nat) : Nat :=
  let mine := fun (st : Nat) => (s.part p).pqm.getLsbD (st / 2)
  (s.bark.filter fun e => e.2.scrub && mine (e.1 / 2 ^ 20)).length +
  (s.scrub.foldl (fun n e => if mine e.1 then n + ((e.1 + 1) * 2 ^ 20 - e.2) - (s.bark.filter fun g => g.1 / 2 ^ 20 == e.1 && e.2 ≤ g.1).length else n) 0)
def stateWord (s : State) (w : Nat) : Nat :=
  match s.worlds.look w with
  | none => 0
  | some x => 1 + 2 * x.protectd.toNat + 4 * x.dbg.toNat + 8 * (s.cores.any fun e => e.2.latch == some w).toNat
/-- A command other than WORLD_END and WORLD_NEW: the state, the status, the result. -/
def mailOther (s : State) (b : Box) : State × Nat × Option Nat :=
  match b.cmd with
  | 3 => let r := grant s b; (r.1, r.2, none)
  | 4 => let r := revoke s b; (r.1, r.2, none)
  | 5 => let r := cxlWin s b; (r.1, r.2, none)
  | 6 => match worldStatus s b.part (b.arg 0) true with
    | some e => (s, e, none)
    | none => match s.keys.find? fun e => e.2.world == b.arg 0 && e.2.label == some (word (b.arg 1)) with
      | some (n, _) => (s, 0, some n)
      | none => (s, 2, none)
  | 7 => (s, 0, some (scrubCount s b.part))
  | 8 =>
    if s.worlds.has (b.arg 0) then
      match worldStatus s b.part (b.arg 0) true with
      | some e => (s, e, none)
      | none => (s, 0, some (stateWord s (b.arg 0)))
    else (s, 0, some 0)
  | _ => (s, 2, none)
def mailStep (p : Nat → Bool) (run : State → Box → State × Nat × Option Nat) (s : State) (m : Mail) : State :=
  match mailBox s m with
  | some b => if p b.cmd then let r := run s b; mailReply r.1 b r.2.1 r.2.2 else s
  | none => s
/-- The unlock tokens of a window; a manufacturing token is refused while a protected world exists, or opens as an owner's where
the world was created in the same window (R350, R351). -/
def unlock (s : State) (before : Bool) : State :=
  let h := s.heart
  let lv := if h.mfg then (if !hasProtected s then 2 else if before then 0 else 1) else 0
  let lv := max lv (if h.owner then 1 else 0)
  { s with unlocked := max s.unlocked lv, heart := { h with owner := false, mfg := false } }
/-- The end of a window (R351): WORLD_END, WORLD_NEW, unlock tokens, every other command. -/
def heartWindow (s : State) : State :=
  let l := s.heart.mbox
  let s := { s with heart := { s.heart with mbox := [] } }
  let s := l.foldl (mailStep (· == 2) fun s b => let r := worldEnd s b; (r.1, r.2, none)) s
  let before := hasProtected s
  let boxes := l.filter fun m => match mailBox s m with | some b => b.cmd != 2 | none => false
  let s := boxes.foldl (mailStep (· == 1) fun s b => let r := worldNew s b; (r.1, r.2, none)) s
  let s := unlock s before
  boxes.foldl (mailStep (fun c => c != 1 && c != 2) mailOther) s
def heartDue (s : State) : Bool := !s.heart.mbox.isEmpty || s.heart.owner || s.heart.mfg
def execHeartwoodWindow (s : State) : Answer := .next (heartWindow s)

/-! ### Sessions -/

def State.spdm (s : State) (n : Nat) : Option Spdm := s.heart.spdm.look n
def setSpdm (s : State) (n : Nat) (v : Spdm) : State := { s with heart := { s.heart with spdm := s.heart.spdm.put n v } }
def spdmReply (s : State) (n : Nat) (l : List Nat) : State := { s with outbox := s.outbox ++ [.spdm n l] }
/-- The end of a session erases the keys that it delivered (R348). -/
def endSpdm (s : State) (n : Nat) : State :=
  let s := (s.keys.filter fun e => e.2.sess == some n).foldl (fun s e => setKey s e.1 none) s
  { s with heart := { s.heart with spdm := s.heart.spdm.del n } }
/-- SPDM 1.3 (R347): the answers name the message; what the standard leaves to certificates and keys is free (log 18). -/
def execGetVersion (n : Nat) (s : State) : Answer := .next (spdmReply s n [0x04, 0x13])
def execGetCapabilities (n : Nat) (s : State) : Answer := .next (spdmReply s n [0x61])
def execNegotiateAlgorithms (n : Nat) (s : State) : Answer := .next (spdmReply s n [0x63])
def execGetDigests (n : Nat) (s : State) : Answer := .next (spdmReply s n [0x01, Config.sealWord 1 []])
def execGetCertificate (n : Nat) (s : State) : Answer := .next (spdmReply s n [0x02, Config.sealWord 2 []])
def execChallenge (n nonce : Nat) (s : State) : Answer := .next (spdmReply s n [0x03, nonce, Config.sealWord 3 [nonce]])
/-- The measurements: of the firmware and the stewards, and of each world its handler's, whether it is protected, and the debug
state at its creation. -/
def evidence (s : State) : List Nat :=
  [Config.sealWord 4 []] ++ (s.parts.flatMap fun e => (measure (e.2.cfg.image.flatMap (·.2))).map (·.toNat)) ++
  (s.worlds.filter fun e => e.1 ≥ 4).flatMap fun e => e.1 :: (e.2.meas.map (·.toNat)) ++ [e.2.protectd.toNat, e.2.dbg.toNat]
def execGetMeasurements (n : Nat) (s : State) : Answer :=
  .next (spdmReply s n ([0x60] ++ evidence s ++ [Config.sealWord 6 (evidence s)]))
def execKeyExchange (n : Nat) (s : State) : Answer :=
  .next (spdmReply (setSpdm (endSpdm s n) n { id := n, keyed := true }) n [0x64, Config.sealWord 7 [n]])
def execFinish (n : Nat) (s : State) : Answer :=
  match s.spdm n with
  | some v => if v.keyed then .next (spdmReply (setSpdm s n { v with open_ := true }) n [0x65]) else .next s
  | none => .next s
/-- A message of an open session. -/
def inSession (s : State) (n code : Nat) : State := if (s.spdm n).any (·.open_) then spdmReply s n [code] else s
def execHeartbeat (n : Nat) (s : State) : Answer := .next (inSession s n 0x68)
def execKeyUpdate (n : Nat) (s : State) : Answer := .next (inSession s n 0x69)
def execEndSession (n : Nat) (s : State) : Answer :=
  match s.spdm n with
  | some _ => .next (spdmReply (endSpdm s n) n [0x6C])
  | none => .next s
/-- A heartbeat that lapses ends the session; its period is the verifier's. -/
def execHeartbeatLapse (n : Nat) (s : State) : Answer := .next (if (s.spdm n).isSome then endSpdm s n else s)
/-- A model key is stored in a free slot of its world. -/
def execModelKeyDelivery (n : Nat) (k : ModelKey) (s : State) : Answer :=
  match (s.worlds.look k.world), (List.range 512).find? fun i => i != 0 && !s.keys.has i with
  | some x, some i =>
    if k.world < 4 ∨ x.aborted ∨ !(s.spdm n).any (·.open_) then .next s
    else .next (setKey s i (some { key := k.key, iv := (List.range 12).map fun j => (s.free (2 ^ 63 + j)).setWidth 8, ports := k.ports,
                                   world := k.world, label := some k.label, sess := some n }))
  | _, _ => .next s

/-! ### The debug port -/

/-- Cores that the port reaches: none while LOCKED, those of non-protected worlds in OPEN-NP, every one in OPEN-ALL. -/
def portReaches (s : State) (c : Nat) : Bool :=
  c < 192 && (s.unlocked == 2 || (s.unlocked == 1 && (match (s.core c).latch with
    | some w => (s.worlds.look w).any fun x => !x.protectd
    | none => false)))
def debugReply (s : State) (l : List Word) : State := { s with outbox := s.outbox ++ [.debug l] }
def portReg (n : Nat) : Bool := n ≥ 0x100 && (regLevel n == some .handler || regLevel n == some .steward)
/-- R350 gives the port in every state the device's identity and Heartwood's status, whose words it does not lay out (log 43). -/
def debugPort (s : State) : DbgReq → State
  | .unlockOwner v => if v then { s with heart := { s.heart with owner := true } } else s
  | .unlockMfg v => if v then { s with heart := { s.heart with mfg := true } } else s
  | .halt c op =>
    if !portReaches s c then s
    else debugReply (if op = 0 then s.modCtx c fun x => { x with held := true }
                     else if op = 1 then s.modCtx c fun x => { x with held := false } else s) [haltWord s c]
  | .dumpThr c t =>
    match s.thr? c t with
    | some th => if portReaches s c && (th.park.isSome || isHeld s c th) then debugReply s ((dumpThr s c t).map (·.setWidth 32)) else s
    | none => s
  | .identity => debugReply s ((List.range 8).map Config.identity)
  | .status => debugReply s [s.free (2 ^ 66)]
  | .dumpSec c sec t =>
    if !portReaches s c then s
    else match dumpData s { c := c, t := ((s.ctx c).handler).getD 0 } sec t with
      | some d => debugReply s (d.map (·.setWidth 32))
      | none => s
  | .step c t v => if portReaches s c then s.modThr c t fun th => { th with step := v } else s
  | .trace c m =>
    if !portReaches s c ∨ m > 2 then s
    else
      let s := s.modCore c fun k => { k with trace := { k.trace with mode := m } }
      if m = 0 then s else anchor s c
  | .readReg c n => if portReaches s c && portReg n then debugReply s [readReg s c 0 n] else s
  | .writeReg c n v => if portReaches s c && portReg n then writeReg s c 0 n v else s
def execDebugPortRequest (r : DbgReq) (s : State) : Answer := .next (debugPort s r)

end Sys2Proof.Machine
end

