-- ==== Sys2Proof/Machine/Issue.lean ====
section
/-!
DEFINITION. Issue (R13, R16 to R20, R37, R38, R158, R163 to R168): what a formed bundle does before its instruction, pairs, the
scheduler's cycle (R165, R166, R181), what each step settles (R150, R174 to R176, R264, R268, R278), and which of the machine's
own events are due.
-/
namespace Sys2Proof.Machine

/-! ### Pairs (R37, R38) -/

/-- An instruction that can stand in a pair: whether it is of the float class, and what it does. -/
def aluOf : Instr → Option (Bool × Alu)
  | .iadd h ty sat d a b => some (false, aluIadd h ty sat d a b)
  | .isub h ty sat d a b => some (false, aluIsub h ty sat d a b)
  | .imul h ty sat d a b => some (false, aluImul h ty sat d a b)
  | .imulh h ty d a b => some (false, aluImulh h ty d a b)
  | .imad h ty sat d a b c => some (false, aluImad h ty sat d a b c)
  | .idiv h ty sat d a b => some (false, aluIdiv h ty sat d a b)
  | .irem h ty d a b => some (false, aluIrem h ty d a b)
  | .ineg h ty sat d a => some (false, aluIneg h ty sat d a)
  | .iabs h ty sat d a => some (false, aluIabs h ty sat d a)
  | .imin h ty d a b => some (false, aluImin h ty d a b)
  | .imax h ty d a b => some (false, aluImax h ty d a b)
  | .iclamp h ty d a b c => some (false, aluIclamp h ty d a b c)
  | .iand h ty d a b => some (false, aluIand h ty d a b)
  | .ior h ty d a b => some (false, aluIor h ty d a b)
  | .ixor h ty d a b => some (false, aluIxor h ty d a b)
  | .inot h ty d a => some (false, aluInot h ty d a)
  | .iandn h ty d a b => some (false, aluIandn h ty d a b)
  | .shl h ty d a b => some (false, aluShl h ty d a b)
  | .shr h ty d a b => some (false, aluShr h ty d a b)
  | .sra h ty d a b => some (false, aluSra h ty d a b)
  | .rotl h ty d a b => some (false, aluRotl h ty d a b)
  | .fshl h ty d a b c => some (false, aluFshl h ty d a b c)
  | .popc h ty d a => some (false, aluPopc h ty d a)
  | .clz h ty d a => some (false, aluClz h ty d a)
  | .ctz h ty d a => some (false, aluCtz h ty d a)
  | .brev h ty d a => some (false, aluBrev h ty d a)
  | .bfx h ty d a b => some (false, aluBfx h ty d a b)
  | .bfi h ty d a b c => some (false, aluBfi h ty d a b c)
  | .perm h d a b c => some (false, aluPerm h d a b c)
  | .icmp h ty cond kd a b => some (false, aluIcmp h ty cond kd a b)
  | .sel h ty d a b kc => some (false, aluSel h ty d a b kc)
  | .mov h ty d a => some (false, aluMov h ty d a)
  | .plog h kd ka kb kc => some (false, aluPlog h kd ka kb kc)
  | .lea h ty scale d a b => some (false, aluLea h ty scale d a b)
  | .iaddc h ty ko d a b kc => some (false, aluIaddc h ty ko d a b kc)
  | .isubb h ty ko d a b kc => some (false, aluIsubb h ty ko d a b kc)
  | .idp4 h ty sat d a b c => some (false, aluIdp4 h ty sat d a b c)
  | .isad h ty sat d a b c => some (false, aluIsad h ty sat d a b c)
  | .pack h ty d a b => some (false, aluPack h ty d a b)
  | .unpk h ty d a b => some (false, aluUnpk h ty d a b)
  | .fadd h ty rm d a b => some (true, aluFadd h ty rm d a b)
  | .fsub h ty rm d a b => some (true, aluFsub h ty rm d a b)
  | .fmul h ty rm d a b => some (true, aluFmul h ty rm d a b)
  | .fma h ty rm d a b c => some (true, aluFma h ty rm d a b c)
  | .fdiv h ty rm d a b => some (true, aluFdiv h ty rm d a b)
  | .fmin h ty d a b => some (true, aluFmin h ty d a b)
  | .fmax h ty d a b => some (true, aluFmax h ty d a b)
  | .fabs h ty d a => some (true, aluFabs h ty d a)
  | .fneg h ty d a => some (true, aluFneg h ty d a)
  | .fcmp h ty cond kd a b => some (true, aluFcmp h ty cond kd a b)
  | .fclass h ty d a => some (true, aluFclass h ty d a)
  | .fcpsg h ty d a b => some (true, aluFcpsg h ty d a b)
  | .frnd h ty rm d a => some (true, aluFrnd h ty rm d a)
  | .fcvt h dty sty rm sat d a => some (true, aluFcvt h dty sty rm sat d a)
  | .f2i h dty sty rm d a => some (true, aluF2i h dty sty rm d a)
  | .i2f h dty sty rm d a => some (true, aluI2f h dty sty rm d a)
  | .tcvt h dty sty rm d a b => some (true, aluTcvt h dty sty rm d a b)
  | .bxal h op d a b => some (true, aluBxal h op d a b)
  | .fexp2 h ty acc d a => some (true, aluFexp2 h ty acc d a)
  | .flog2 h ty acc d a => some (true, aluFlog2 h ty acc d a)
  | .frcp h ty acc rm d a => some (true, aluFrcp h ty acc rm d a)
  | .frsqrt h ty acc d a => some (true, aluFrsqrt h ty acc d a)
  | .fsqrt h ty acc rm d a => some (true, aluFsqrt h ty acc rm d a)
  | .fsin h ty acc d a => some (true, aluFsin h ty acc d a)
  | .fcos h ty acc d a => some (true, aluFcos h ty acc d a)
  | .ftanh h ty acc d a => some (true, aluFtanh h ty acc d a)
  | .fsigm h ty acc d a => some (true, aluFsigm h ty acc d a)
  | .ferf h ty acc d a => some (true, aluFerf h ty acc d a)
  | _ => none
/-- The registers that sources name, x registers at n and y registers at 128 + n. -/
def srcRegs (u : Uses) : List Nat := (u.srcs.flatMap srcKeys).eraseDups
def dstBanks (u : Uses) : List Nat := (u.dsts.flatMap dstKeys).map (· % 4)
/-- Whether two instructions make a lawful pair. -/
def lawful (f : Bool × Alu) (g : Bool × Alu) : Bool :=
  f.1 != g.1 && (srcRegs { srcs := f.2.uses.srcs ++ g.2.uses.srcs }).length ≤ 3 &&
    (dstBanks f.2.uses).all (fun b => !(dstBanks g.2.uses).contains b) && f.2.uses.kds.all fun k => !g.2.uses.kds.contains k
/-- The fault of one instruction of a pair for a thread. -/
def aluFault (s : State) (c t : Nat) (a : Alu) : Option Raise :=
  (preCheck s c t .app a.uses).or (if guardOk s c t a.h && srcMarked s c t a.uses then some { code := 0x14, used := true } else none)
/-- A pair in the middle of its bundle: the state, which of its instructions no member has executed, and what was raised. -/
structure PairRun where
  s    : State
  low1 : Bool := true
  low2 : Bool := true
  raised : List (Nat × Raise) := []
  time : Nat := 0
/-- One step of a pair for one thread: both read before either writes. R38 speaks of one thread; in a group a later member reads a y
register as the members before it in the bundle have left it, by either instruction (DESIGN CHOICE, log 64). -/
def pairMember (b : Bundle) (f g : Alu) (r : PairRun) (t : Nat) : PairRun :=
  match (aluFault r.s b.core t f).or (aluFault r.s b.core t g) with
  | some x => { r with raised := r.raised ++ [(t, x)] }
  | none =>
    let go1 := guardOk r.s b.core t f.h
    let go2 := guardOk r.s b.core t g.h
    let at1 := if go1 then startAt r.s b.core t f.h f.uses r.time else r.time
    let start := if go2 then startAt r.s b.core t g.h g.uses at1 else at1
    let e : Env := { c := b.core, t := t, lane := b.lane, skew := start }
    let w1 := f.eval r.s e b.pc
    let w2 := g.eval r.s e (nextPc b.pc)
    let s := if go1 then noteResults (latchCcnt f.uses (w1.apply r.s { e with low := r.low1 }) b.core t start) b.core t f.uses start else r.s
    let s := if go2 then noteResults (latchCcnt g.uses (w2.apply s { e with low := r.low2 }) b.core t start) b.core t g.uses start else s
    { r with
      s := advance s b.core t (afterPair b.pc), low1 := r.low1 && !go1, low2 := r.low2 && !go2
      time := if go1 || go2 then start + max f.uses.ival g.uses.ival else r.time }
def runPair (b : Bundle) (f g : Alu) (s : State) : State :=
  let r := b.tids.foldl (pairMember b f g) { s := s }
  takeFaults (occupy r.s b r.time) b.core r.raised

/-! ### A bundle at its line (R16, R19, R20, R33, R267) -/

/-- A breakpoint register that stops a thread at its PC. -/
def breaks (s : State) (c t : Nat) : Bool :=
  let x := s.ctx c
  let th := s.thr c t
  !th.bpSkip && (List.range 4).any fun n => x.bpctl.getLsbD n && isInstrAddr th.pc && x.bps.get 0 n == th.pc &&
    (!x.bpctl.getLsbD (4 + n) || (x.bpctl.extractLsb' 8 11).toNat == t)
/-- What a bundle issues: nothing more, or one instruction for the threads of the focus. -/
inductive Issue
  | ended (s : State) (paired : Bool := false)
  | one (s : State) (i : Instr)
/-- A fault that the line raises for every thread of the bundle. -/
def lineFault (s : State) (b : Bundle) (code : BitVec 6) (addr : DWord) : Issue :=
  .ended (takeFaults s b.core (b.tids.map fun t => (t, { code := code, addr := addr })))
/-- Whether the opcode of a word is of the class a lawful pair asks beside the first slot's (R37). -/
def otherClass (f : Bool × Alu) (w : InstrWord) : Bool :=
  let op := (w.extractLsb' 0 8).toNat
  if f.1 then op ≤ 0x27 else 0x30 ≤ op && op ≤ 0x4B
/-- The instruction, or the pair, at the bundle's PC. Where the second word of a pair is ill-formed, a fault of the first slot's own goes
before it (R39), unless the word's opcode makes the pair unlawful: that is the first slot's own 0x01 (R32, R33). -/
def issueAt (s : State) (b : Bundle) (l : FetchLine) : Issue :=
  let n := slotOf b.pc
  match decode (slotWord l n) with
  | .error _ => lineFault s b 0x01 0
  | .ok i =>
    if opensPair l n then
      match decode (slotWord l (n + 1)) with
      | .error _ => .ended (takeFaults s b.core (b.tids.map fun t =>
          (t, (((aluOf i).filter fun f => otherClass f (slotWord l (n + 1))).bind fun f => preCheck s b.core t .app f.2.uses).getD { code := 0x01 })))
      | .ok j => match aluOf i, aluOf j with
        | some f, some g => if lawful f g then .ended (runPair b f.2 g.2 s) true else lineFault s b 0x01 0
        | _, _ => lineFault s b 0x01 0
    else .one s i
/-- Threads that stop before they issue park; the bundle goes on with the others. -/
def dropThreads (s : State) (b : Bundle) (l : List (Nat × Raise)) : State × Bundle :=
  let b := { b with tids := b.tids.filter fun t => !(l.any (·.1 == t)) }
  ({ (takeFaults s b.core l) with focus := some b }, b)
/-- A new thread's entry is checked as a target at its first fetch, and a new PC of `resm` where the members first issue from it (R16,
R262). -/
def entryFaults (s : State) (b : Bundle) : List (Nat × Raise) :=
  b.tids.filterMap fun t =>
    if (s.thr b.core t).entered then none else ((checkTarget s b.core b.pc).2).map fun r => (t, r)
/-- The check is made once: `eret` and `resm` without a new PC make none (R262). A thread at no instruction address has nothing to issue
and is checked each time (DESIGN CHOICE, log 65). -/
def markEntered (s : State) (b : Bundle) : State :=
  (b.tids.filter fun t => !(s.thr b.core t).entered).foldl
    (fun s t => s.modThr b.core t fun th => { th with entered := isInstrAddr b.pc }) s
/-- Everything a bundle meets before its instruction. -/
def prepare (s : State) (b : Bundle) : Issue :=
  let b := { b with tids := b.tids.filter fun t => (s.thr? b.core t).any fun th => th.park.isNone && th.pc == b.pc }
  let s := { s with focus := some b }
  let (s, b) := dropThreads (markEntered s b) b (entryFaults s b)
  if b.tids.isEmpty then .ended s
  else match fetchLine s b.core b.pc with
    | (s, .error e) => lineFault s b e b.pc
    | (s, .ok l) =>
      if malformed l then lineFault s b 0x01 0
      else
        let (s, b) := dropThreads s b ((b.tids.filter (breaks s b.core)).map fun t => (t, { code := 0x19, bp := true }))
        if b.tids.isEmpty then .ended s else issueAt s b l

/-! ### Readiness (R164, R181) -/

/-- The instruction at a PC, where its line is in the buffer. -/
def nextInstr (s : State) (c : Nat) (pc : DWord) : Option Instr :=
  match fbuf? s c pc with
  | some l => (decode (slotWord l.data (slotOf pc))).toOption
  | none => none
/-- Whether issue can meet the PC's line: it is in the buffer, or issuing from it faults. -/
def lineMet (s : State) (c : Nat) (pc : DWord) : Bool :=
  !isInstrAddr pc || (fbuf? s c pc).isSome || (match fetchHome s c (lineOf pc).toNat with
    | .error _ => true
    | .ok (l, _) => l.bad)
/-- Tiles that an instruction reads READY. -/
def tilesRead : Instr → List Nat
  | .cpOut _ _ tl _ _ _ => [tl.toNat]
  | .cpTt _ _ _ stl _ => [stl.toNat]
  | .mmMmaT1i8 _ _ _ _ _ tl _ | .mmMmaT5i8 _ _ _ _ _ tl _ | .mmMmaT5i8Bx _ _ _ _ _ tl _ _ | .mmMmaT11i16 _ _ _ _ _ tl _
  | .mmMmaRing16 _ _ _ _ _ tl _ | .mmMmaRing32 _ _ _ _ _ tl _ => [tl.toNat]
  | .accSt _ _ _ tl => [tl.toNat]
  | .sortLoad _ _ _ _ _ _ tk tp => tk.toNat :: (tp.map (·.toNat)).toList
  | _ => []
def collectiveOp : Instr → Bool
  | .vote .. | .shfl .. | .red .. | .scan .. | .gmatch .. => true
  | _ => false
/-- The counter that an instruction raises, for each thread whose guard holds (R141). -/
def countsOn : Instr → Option (Hdr × Cls)
  | .ld h .. | .ldu h .. | .ld4 h .. | .ldm h .. | .atom h .. | .cas h .. | .atomf h .. | .rld h .. | .ratom h .. | .rcas h ..
  | .ratomf h .. | .ldcv h .. => some (h, .loads)
  | .st h .. | .st4 h .. | .stm h .. | .stz h .. | .atomg h .. | .flush h .. | .rst h .. | .stcv h .. | .dump h .. => some (h, .stores)
  | .tileFill h .. | .cpIn h .. | .cpOut h .. | .cpTt h .. | .wbLd h .. => some (h, .copies)
  | .mmSign h .. | .mmMmaT1i8 h .. | .mmMmaT5i8 h .. | .mmMmaT5i8Bx h .. | .mmMmaT11i16 h .. | .mmMmaRing16 h .. | .mmMmaRing32 h ..
  | .accClr h .. | .accRd h .. | .accSt h .. | .sortLoad h .. | .sortRun h .. | .sortStore h .. | .sortTopk h .. | .sortMerge h ..
  | .sortMatch h .. => some (h, .tileops)
  | _ => none
/-- A `flush` or `wb.ld` of no bytes does nothing and is not counted (R151, R231). -/
def emptyRange (s : State) (c t : Nat) : Instr → Bool
  | .flush h _ b => rdWord s { c := c, t := t } h b == 0
  | .wbLd h _ _ _ q => rdWord s { c := c, t := t } h q == 0
  | _ => false
/-- A thread issues nothing more for a counter at 63 (R84), nor for a full copy queue (R199). -/
def fullFor (s : State) (c t : Nat) (k : Cls) : Bool := s.count c t k ≥ 63 || (k == .copies && (s.ctx c).copies.length ≥ 32)
def barrierOp : Instr → Bool
  | .gbar .. | .rwait .. => true
  | _ => false
/-- An instruction that makes an access counted on loads or on stores. -/
def countsAccess (i : Instr) : Bool := (countsOn i).any fun p => p.2 == .loads || p.2 == .stores
/-- A `dump` takes its snapshot when it issues (R266, R403). -/
def dumps : Instr → Bool
  | .dump .. => true
  | _ => false
def roomReason : Cls → Nat
  | .loads => 2 | .stores => 3 | .copies => 4 | .tileops => 5
/-- A token instruction of the thread's agent is not complete: a pass of its own has not committed (R309, R310). -/
def agentPasses (s : State) (c t : Nat) : Bool :=
  [0, 1].any fun d => (s.die d).tokens.any fun k => k.pending.any fun p => p.core == c && p.by_ == s.agentId c t
/-- The reason code of a condition an instruction waits for (R181). -/
def whyReason (s : State) (c t : Nat) : Why → Nat
  | .counters l st cp _ => countReason l st cp
  | .room k => roomReason k
  | .behind _ _ => 3 | .accesses _ => 3
  | .tracker => 3 | .copyQueue => 4 | .mmQueue => 5 | .sortQueue => 5 | .held => 3 | .arrays => 3 | .tile _ => 5 | .cvLoad _ => 2
  | .dqSpace => 10 | .dqEntry => 9 | .token _ _ => 3 | .released _ => 3 | .settled => 2 | .line _ _ => 3 | .gate _ => 13
  | .engine _ => 5 | .quiet _ => 11 | .never => 14
where
  countReason (l st cp : Nat) : Nat :=
    if s.count c t .loads > l then
      (if (s.ctx c).ops.any fun o => o.tid == t && o.cls == .loads && o.retired.isNone && (match o.body with | .remote .. => true | _ => false) then 14 else 2)
    else if s.count c t .stores > st then 3 else if s.count c t .copies > cp then 4 else 5
/-- Why a thread is not ready, as a reason code; none where it is ready. A held thread issues nothing more; an access of its that is not
accepted yet still goes on to its checks (R265, R402). A tile that is not READY holds its instruction back before the shape fault 0x0A
(R164, R189, R244) is looked for (DESIGN CHOICE, log 77). -/
def notReady (s : State) (c t : Nat) : Option Nat :=
  let th := s.thr c t
  if th.framed || (isHeld s c th && !th.blk.unaccepted) then some 11
  else if agentPasses s c t then some 3
  else match th.blk with
    | .run => ready th
    | .retry w => if whyHolds s c t w then ready th
        else some (if (nextInstr s c th.pc).any barrierOp then 6 else whyReason s c t w)
    | .waits l st cp _ => some (whyReason.countReason s c t l st cp)
    | .join | .moving .. => some 7
    | .bar _ | .rwait .. => some 6
    | .mwait .. => some 8
    | .sleep _ => some 12
    | .xch _ => some 13
    | .pass .. => some 3
where
  ready (th : Thread) : Option Nat :=
    if !lineMet s c th.pc then some 1
    else match nextInstr s c th.pc with
      | some i =>
        match (countsOn i).filter fun p => guardOk s c t p.1 && !emptyRange s c t i && fullFor s c t p.2 with
        | some p => some (roomReason p.2)
        | none => if (tilesRead i).all fun n => whyHolds s c t (.tile n) then none else some 5
      | none => none
/-- Of the members ready at one PC, those of the bundle that has been blocked longest in `dq.pop`, where some are (R178). -/
def firstPoppers (s : State) (c : Nat) (l : List Nat) : List Nat :=
  match l.filter fun t => (s.thr c t).blk == .retry .dqEntry with
  | [] => l
  | t :: rest =>
    let m := rest.foldl (fun m u => min m (s.thr c u).since) (s.thr c t).since
    (t :: rest).filter fun u => (s.thr c u).since == m
/-- The members of an entry that would issue; none where the entry is not eligible. -/
def eligible (s : State) (c : Nat) (e : Entry) : List Nat :=
  let r := firstPoppers s c ((e.mems.map (·.2)).filter fun t => (notReady s c t).isNone)
  if (nextInstr s c e.pc).any collectiveOp && r.length < e.mems.length then [] else r

/-! ### The scheduler (R165 to R168, R175, R181) -/

def setAge (s : State) (c : Nat) (u : UnitId) (pc : DWord) (n : Nat) : State :=
  match u with
  | .grp g => s.modGroup c g fun gr => { gr with ages := gr.ages.set 0 pc.toNat n }
  | .thr t => s.modThr c t fun th => { th with age := n }
/-- Units of a core that issue on lane pipes. -/
def liveUnits (s : State) (c : Nat) : List UnitId := (unitsOf s c).filter fun u => match u with
  | .thr t => (s.ctx c).lead != some t
  | .grp _ => true
def inFlight (s : State) (c : Nat) (u : UnitId) : Bool :=
  (schedOf s c u).busy > nowOf s c || (s.pipes ++ s.walks).any fun b => b.core == c && b.unit == u && !b.lead
/-- The entry that the rule of R165 chooses, and its members that issue. -/
def chooseEntry (s : State) (c : Nat) (u : UnitId) : Option (Entry × List Nat) :=
  let cs := ((frontier s c u).map fun e => (e, eligible s c e)).filter fun p => !p.2.isEmpty
  let old := (cs.filter fun p => p.1.age ≥ 64).foldl (fun (o : Option (Entry × List Nat)) p => match o with
    | some q => if p.1.age > q.1.age then some p else some q
    | none => some p) none
  let calm := cs.find? fun p => p.1.mems.all fun m => !(s.thr c m.2).yielded
  old.or (calm.or cs.head?)
def rwaitCount (s : State) (c : Nat) (u : UnitId) : State :=
  (s.members c u).foldl (fun s t => match (s.thr c t).blk with
    | .rwait sc kd n => s.modThr c t fun th => { th with blk := .rwait sc kd (n - 1) }
    | _ => s) s
/-- One opportunity: the ages of the entries, but for the one that issues, and the counts of `rwait`. -/
def opportunity (s : State) (c : Nat) (u : UnitId) (issued : Option DWord) : State :=
  let s := (frontier s c u).foldl (fun s e =>
    setAge s c u e.pc (if some e.pc = issued then 0 else min (e.age + 1) 127)) s
  modSched (rwaitCount s c u) c u fun q => { q with opps := q.opps + 1, span := 0 }
/-- The lowest-numbered free pipe. -/
def freePipe (s : State) (c : Nat) : Option Nat :=
  (List.range 64).find? fun p => (s.core c).lanes.get 0 p ≤ nowOf s c && !s.walks.any fun b => b.core == c && b.lane == p && !b.lead
def clearYield (s : State) (c : Nat) (u : UnitId) : State :=
  (s.members c u).foldl (fun s t => s.modThr c t fun th => { th with yielded := false }) s
def unitHeld (s : State) (c : Nat) (u : UnitId) : Bool := (s.members c u).any fun t => isHeld s c (s.thr c t)
/-- A bundle enters its pipe. Its access may stay unaccepted for a time that the spec does not give, as in a page walk (R402). -/
def enterPipe (s : State) (b : Bundle) : State :=
  if (nextInstr s b.core b.pc).any (fun i => countsAccess i && !dumps i) && Config.choose s.tick (20 + b.lane) % 2 == 1 then { s with walks := s.walks ++ [b] }
  else { s with pipes := s.pipes ++ [b] }
/-- The access of a bundle goes to its checks. -/
def execAccessChecks (b : Bundle) (s : State) : Answer :=
  if s.walks.contains b then .next { s with walks := s.walks.erase b, pipes := s.pipes ++ [b] } else .next s
/-- A served unit forms its bundle; ages and counts stand still while `halt.hold` holds the unit (R265). -/
def formBundle (s : State) (c : Nat) (u : UnitId) (pipe : Nat) : State :=
  match chooseEntry s c u with
  | none => s
  | some (e, ts) =>
    let now := nowOf s c
    let s := if unitHeld s c u then s else clearYield (opportunity s c u (some e.pc)) c u
    let s := modSched s c u fun q => { q with served := now, busy := now + 1 }
    let s := s.modCore c fun k => { k with lanes := k.lanes.set 0 pipe (now + 1) }
    enterPipe s { core := c, unit := u, tids := ts, pc := e.pc, lane := pipe }
def candidates (s : State) (c : Nat) : List UnitId :=
  (liveUnits s c).filter fun u => !inFlight s c u && (chooseEntry s c u).isSome
def nextUnit (s : State) (c : Nat) (l : List UnitId) : Option UnitId :=
  l.foldl (fun o u => match o with
    | none => some u
    | some v =>
      let a := (schedOf s c u).served
      let b := (schedOf s c v).served
      if a < b ∨ (a = b ∧ unitRank u < unitRank v) then some u else some v) none
/-- Up to two units are served. -/
def serveUnits : Nat → List UnitId → State → Nat → State
  | 0, _, s, _ => s
  | n + 1, l, s, c => match nextUnit s c l, freePipe s c with
    | some u, some p => serveUnits n (l.filter (· != u)) (formBundle s c u p) c
    | _, _ => s
/-- The lead thread issues on the scalar front end (R177). -/
def serveLead (s : State) (c : Nat) : State :=
  match (s.ctx c).lead with
  | none => s
  | some t =>
    let th := s.thr c t
    if th.sched.busy > nowOf s c || th.park.isSome || (notReady s c t).isSome || s.walks.any (fun b => b.core == c && b.lead) then s
    else
      let s := s.modThr c t fun th => { th with sched := { th.sched with busy := nowOf s c + 1 } }
      enterPipe s { core := c, unit := .thr t, lead := true, tids := [t], pc := th.pc }
/-- The reason of a unit's first entry (R181). -/
def unitReason (s : State) (c : Nat) (u : UnitId) : Nat :=
  if inFlight s c u then 0
  else match frontier s c u with
    | [] => 11
    | e :: _ => match e.mems.findSome? fun m => notReady s c m.2 with
      | some r => if (nextInstr s c e.pc).any collectiveOp && e.mems.any (fun m => (notReady s c m.2).isNone) then 13 else r
      | none => 11
/-- The group of some that has stood longest. -/
def oldestGroup (l : List (Nat × Group)) : Option UnitId :=
  (l.foldl (fun (o : Option (Nat × Nat)) e => match o with
    | some p => if e.2.sched.since < p.2 then some (e.1, e.2.sched.since) else some p
    | none => some (e.1, e.2.sched.since)) none).map fun p => .grp p.1
/-- The group formed earliest, else the thread in no group with the lowest slot; where only groups that are still forming are resident,
which R181 charges to reason 7, the one created earliest (DESIGN CHOICE, log 68). -/
def oldestUnit (s : State) (c : Nat) : Option UnitId :=
  let x := s.ctx c
  let here := fun (u : UnitId) => !x.evicted.any (·.1 == u)
  let gs := x.groups.filter fun e => here (.grp e.1)
  ((oldestGroup (gs.filter (·.2.formed))).or
    ((x.threads.find? fun e => e.2.grp.isNone && x.lead != some e.1 && here (.thr e.1)).map fun e => .thr e.1)).or (oldestGroup gs)
def histBin (n : Nat) : Nat := if n ≤ 3 then n else if n ≤ 7 then 4 else if n ≤ 15 then 5 else 6
/-- The stall counters of a cycle. -/
def countStall (s : State) (c n : Nat) : State :=
  if !(s.ctx c).shen then s
  else
    let r := match oldestUnit s c with | some u => unitReason s c u | none => 15
    s.modCtx c fun x => { x with
      shist := x.shist.set 0 (histBin n) (x.shist.get 0 (histBin n) + 1)
      sreas := if n = 0 then x.sreas.set 0 r (x.sreas.get 0 r + 1) else x.sreas }
def tickBlk : Blk → Blk
  | .sleep n => .sleep (n - 1)
  | .mwait a d v w (some n) k => .mwait a d v w (some (n - 1)) k
  | b => b
/-- The span without a bundle grows, but not while `halt.hold` holds the unit (R265). -/
def Sched.tick (q : Sched) (held : Bool) : Sched := if held then q else { q with span := q.span + 1 }
/-- Timers of a core's threads count down. -/
def tickThread (held : Bool) (th : Thread) : Thread :=
  { th with blk := tickBlk th.blk, sched := th.sched.tick (held && th.level == .app) }
/-- A group whose members `halt.hold` holds. -/
def groupHeld (x : Ctx) (g : Nat) : Bool := x.held && x.threads.any fun e => e.2.grp.any (·.1 == g) && e.2.level == .app
/-- The far lines of a die grow older by the cycles of its lowest core that runs. -/
def agesFar (s : State) (c : Nat) : Bool := (s.cores.find? fun e => dieOf e.1 == dieOf c).any (·.1 == c)
def ageLines (s : State) (c : Nat) : State :=
  let s := s.modCore c fun k => { k with l1 := k.l1.map fun l => { l with left := l.left - 1 } }
  if agesFar s c then
    s.modDie (dieOf c) fun d => { d with age := d.age + 1, far := d.far.map fun l => { l with left := l.left - 1 } }
  else s
/-- Whether a core issues: it is latched, in service, and no save of its world stands. -/
def issues (s : State) (c : Nat) : Bool :=
  let k := s.core c
  k.inService && k.latch.isSome && !k.cxsw.save && !k.cxsw.out
/-- Every `mwait` whose time ran out in the cycle that ends, without a write in it, ends (R176). -/
def mwaitTimeouts (s : State) (c : Nat) : State :=
  (s.ctx c).threads.keys.foldl (fun s t => mwaitTimeout s c t) s
/-- The copies that a die holds of lines of the other die's writers (R290): what stood when every core there had rotated last is gone
when the first one rotates again, so that no copy outlasts the line's place in a signature, whatever the clock steps of the two dies
(R327; log 3). -/
def dropOld (s : State) (d : Nat) : State :=
  let s := (s.cores.keys.filter (dieOf · == d)).foldl (fun s c => dropL1 s c (·.old)) s
  s.modDie d fun x => { x with far := x.far.filter fun l => !l.old }
def markOld (s : State) (d : Nat) : State :=
  let s := (s.cores.keys.filter (dieOf · == d)).foldl (fun s c =>
    s.modCore c fun k => { k with l1 := k.l1.map fun l => { l with old := true } }) s
  s.modDie d fun x => { x with far := x.far.map fun l => { l with old := true } }
def rotateDie (s : State) (c : Nat) : State :=
  let d := dieOf c
  let others := s.cores.filter fun e => dieOf e.1 == d && e.1 != c
  let s := rotateSigs s c
  let s := if others.all (·.2.ccnt.toNat != nowOf s c) then dropOld s (1 - d) else s
  if others.all (·.2.ccnt.toNat == nowOf s c) then markOld s (1 - d) else s
def isQsc : Instr → Bool
  | .partQsc .. => true
  | _ => false
/-- What issues in the boundary cycle of a `part.qsc` is accepted before the boundary (R335, R406). -/
def qscLast (s : State) : State :=
  let q := fun (b : Bundle) => (nextInstr s b.core b.pc).any isQsc
  { s with pipes := s.pipes.filter (fun b => !q b) ++ s.pipes.filter q }
/-- One cycle of a core; its count of cycles runs whether or not it is latched (R4). -/
def coreCycle (s : State) (c : Nat) : State :=
  let s := mwaitTimeouts s c
  let s := s.modCore c fun k => { k with ccnt := k.ccnt + 1, ctx := { k.ctx with
    threads := k.ctx.threads.map fun e => (e.1, tickThread k.ctx.held e.2)
    groups := k.ctx.groups.map fun e => (e.1, { e.2 with sched := e.2.sched.tick (groupHeld k.ctx e.1) }) } }
  let s := ageLines s c
  let s := joinArrivals (if nowOf s c % 2 ^ 15 = 0 then rotateDie s c else s) c
  if !issues s c then s
  else
    let l := candidates s c
    qscLast (serveLead (serveUnits 2 l (countStall s c l.length) c) c)
def execSchedulerCycle (c : Nat) (s : State) : Answer := .next (coreCycle s c)
/-- A span of 64 cycles without a bundle is an opportunity. -/
def spanDue (s : State) (c : Nat) (u : UnitId) : Bool :=
  (schedOf s c u).span ≥ 64 && !unitHeld s c u
def execIssueSpanAge (c : Nat) (u : UnitId) (s : State) : Answer :=
  if spanDue s c u then .next (opportunity s c u none) else .next s
/-- A line is fetched, or fetched again. -/
def execFetchLineFill (c : Nat) (va : DWord) (s : State) : Answer := .next (fillFetch s c va)

/-! ### What every step settles -/

/-- A thread that is blocked at a reporting point and holds a failure (R201). -/
def reportsNow (s : State) (c t : Nat) : Bool :=
  let th := s.thr c t
  !th.fails.isEmpty && (match th.blk with
    | .waits .. | .bar _ | .rwait .. => true
    | .retry _ => match nextInstr s c th.pc with
      | some (.exit ..) => true
      | _ => false
    | _ => false)
/-- Threads blocked at a reporting point park with the first failure each holds (R201), those of a bundle as one sub-bundle (R256). -/
def settleReports (c : Nat) (s : State) : State :=
  let r := ((s.ctx c).threads.keys.filter (reportsNow s c)).foldl (fun (p : State × List (Nat × Raise)) t =>
    match popFail p.1 c t with
    | some (s, x) => (s, p.2 ++ [(t, x)])
    | none => p) (s, [])
  takeFaults r.1 c r.2
/-- A `wait` or an `mwait` ends (R150, R176). -/
def settleWait (c : Nat) (s : State) (t : Nat) : State :=
  match (s.thr c t).blk with
  | .waits l st cp tl => if withinLimits s c t l st cp tl then advanceNext (clearHazard s c t) c t else s
  | .mwait _ _ _ _ _ true => endMwait s c t 1
  | _ => s
/-- Every member waits at a `gbar` or an `rwait`. -/
def phaseReady (s : State) (c : Nat) (u : UnitId) : Bool :=
  let ms := s.members c u
  !ms.isEmpty && ms.all fun t => let th := s.thr c t; th.park.isNone && waiting th
/-- A member goes on after its barrier (R174). -/
def passBarrier (c : Nat) (s : State) (t : Nat) : State :=
  match (s.thr c t).blk with
  | .bar sc => advanceNext (acquireAll s c (s.actWorld c t) sc) c t
  | .rwait sc kd _ => advanceNext (wrPred (acquireAll s c (s.actWorld c t) sc) { c := c, t := t } kd true) c t
  | _ => s
/-- A phase completes: every member parks where SAT is set and armed, else all go on and the shadow is taken (R174, R268). Where members
waited at barriers of different PCs, the one address to which a rollback returns them (R272) is that of the first member by slot (DESIGN
CHOICE, log 77). -/
def completePhase (s : State) (c : Nat) (u : UnitId) : State :=
  let ms := s.members c u
  let armed := match u with | .grp g => (s.group? c g).any (fun (gr : Group) => gr.sat && gr.armed) | .thr _ => false
  if armed then takeFaults s c (ms.map fun t => (t, { code := 0x1B }))
  else
    let s := ms.foldl (passBarrier c) (meetLoose s c ms)
    let s := match u with | .grp g => s.modGroup c g fun gr => { gr with phases := gr.phases + 1 } | .thr _ => s
    let s := takeShadow (advanceRun s c (runDone s c)) c u (s.thr c (ms.headD 0)).pc
    let s := capTrigger s c 4
    if (s.ctx c).phaseStep then takeFaults s c (ms.map fun t => (t, { code := 0x1A, detail := 2 })) else s
/-- Step traps of the threads that completed an instruction (R264). -/
def stepTraps (s : State) (c : Nat) : State :=
  takeFaults s c ((s.ctx c).moved.filterMap fun m => match s.thr? c m.1 with
    | some th =>
      if th.park.isSome then none
      else if th.step then some (m.1, { code := 0x1A })
      else if (th.grp.bind fun g => s.group? c g.1).any (·.gstep) then some (m.1, { code := 0x1A, detail := 1 })
      else none
    | none => none)
/-- The records of a step, while trace is on: instructions completed, threads resumed, sub-bundles parked (R279). -/
def traceAll (o : State) (c : Nat) (paired : Bool) (s : State) : State :=
  let m := (s.core c).trace.mode
  if m = 0 then s
  else
    let s := (s.ctx c).moved.foldl (fun s p =>
      if (s.thr? c p.1).isNone then (if m == 2 then traceEnd s c p.1 else s)
      else if m == 2 || p.2 then traceStep s c p.1 p.2 paired else s) s
    let back := (s.ctx c).threads.filter fun e => e.2.park.isNone && (o.thr? c e.1).any (·.park.isSome)
    let s := back.foldl (fun s e => traceStep s c e.1 true false) s
    ((s.ctx c).parked.filter fun p => p.id ≥ (o.ctx c).nextPark).foldl (tracePark · c) s
/-- The priority of a PC whose line is new, and the ages of entries that are gone (R13, R163). -/
def settleThread (s : State) (c : Nat) (o : State) (t : Nat) (th : Thread) : Thread :=
  let th := if th.prioDue && th.park.isNone then
      match fbuf? s c th.pc with
      | some l => { th with prio := linePrio l.data, prioDue := false }
      | none => th
    else th
  if th.park.isSome || (o.thr? c t).any (·.pc != th.pc) then { th with age := 0 } else th
def settleFrontiers (o : State) (c : Nat) (s : State) : State :=
  s.modCtx c fun x =>
    let ths := x.threads.map fun e => (e.1, settleThread s c o e.1 e.2)
    let pcs := fun (g : Nat) => (ths.filter fun e => e.2.park.isNone && e.2.grp.any (·.1 == g)).map (·.2.pc.toNat)
    { x with threads := ths, moved := []
             groups := x.groups.map fun e => (e.1, { e.2 with ages := e.2.ages.filter fun a => (pcs e.1).contains a.1 }) }
/-- Frames of evicted units that are gone return. -/
def settleFrames (c : Nat) (s : State) : State :=
  let gone := (s.ctx c).evicted.filter fun e => (s.members c e.1).isEmpty
  if gone.isEmpty then s
  else s.modCore c fun k => { k with frames := k.frames ++ gone.flatMap (·.2), ctx := { k.ctx with evicted := k.ctx.evicted.filter fun e => !gone.contains e } }
/-- `rwait`s whose count has run out expire. -/
def settleRwaits (c : Nat) (s : State) : State :=
  let l := (s.ctx c).threads.filterMap fun e => match e.2.blk with
    | .rwait _ _ 0 => if s.todo.contains (.rwaitExpiry c e.1) then none else some (Due.rwaitExpiry c e.1)
    | _ => none
  if l.isEmpty then s else { s with todo := s.todo ++ l }
def settleCore (o : State) (paired : Bool) (s : State) (c : Nat) : State :=
  let s := (s.ctx c).threads.keys.foldl (settleWait c) (settleReports c s)
  let s := (unitsOf s c).foldl (fun s u => if phaseReady s c u then completePhase s c u else s) s
  let s := stepTraps s c
  settleRwaits c (settleFrames c (settleFrontiers o c (traceAll o c paired s)))
/-- What follows at once from a step, from the state before it. -/
def settle (o : State) (paired : Bool) (s : State) : State :=
  { (s.cores.keys.foldl (settleCore o paired) s) with tick := o.tick + 1, focus := none }

/-! ### Events that are due -/

/-- What a die must do before its next cycle: windows that end, samples that lapse. -/
def dieMust (s : State) (d : Nat) : List Due :=
  (([0, 1, 2].filter (windowDue s d)).map (Due.reliabilityWindow d)) ++
  (((s.die d).auds.filter fun e => auditLapsed s d e.2).map fun e => Due.auditReplayTimeout d e.1)
/-- What a core must do before its next cycle: what is complete in the array and the sort array goes before what starts there (R215);
a fault whose threads have parked is posted, where its queue takes it (R257, R403). -/
def coreMust (s : State) (c : Nat) : List Due :=
  let x := s.ctx c
  let now := nowOf s c
  let mm := if (match mmNext x with | some i => (x.mq[i]?).any fun q => mmStart x q ≤ now | none => false) then [Due.arrayEntryStart c] else []
  let so := if (match sortNext x.sort with | some i => (x.sort.queue[i]?).any fun q => sortStart x.sort q ≤ now | none => false)
    then [Due.sortCmdStart c] else []
  let done := (if (mmDue s c true).isSome then [Due.matrixOpComplete c] else []) ++ (if (mmDue s c false).isSome then [Due.accInstrComplete c] else []) ++
    (if (x.sort.queue.head?.bind sortDone).any (· ≤ now) then [Due.sortCmdComplete c] else [])
  let timers := x.threads.filterMap fun e => match e.2.blk with
    | .sleep 0 => some (Due.sleepExpiry c e.1)
    | _ => none
  let spans := ((liveUnits s c).filter (spanDue s c)).map fun u => Due.issueSpanAge c u
  let old := ((s.core c).l1.filter fun l => l.left == 0).map fun l => Due.l1LineExpiry c l.world l.va
  let far := if agesFar s c then ((s.die (dieOf c)).far.filter fun l => l.left == 0).map fun l => Due.farLineExpiry (dieOf c) l.world l.va else []
  let die := if agesFar s c then dieMust s (dieOf c) else []
  let posts := if postDue s c then [Due.faultRecordPost c] else []
  if done.isEmpty then mm ++ so ++ timers ++ spans ++ old ++ far ++ die ++ posts else done ++ posts
/-- Events of a core that may come next, beside those. -/
def coreMay (s : State) (c : Nat) : List Due :=
  let k := s.core c
  let x := k.ctx
  let on := fun (b : Bool) (d : Due) => if b then [d] else []
  (x.ops.filter (opReady s c)).map (fun o => if o.cls == .stores then Due.storeHeldAtHome c o.id else Due.loadComplete c o.id) ++
  (x.ops.filterMap fun o => match o.body with | .flush _ _ => if o.done then none else some (Due.flushComplete c o.id) | _ => none) ++
  ((x.copies.filter (copyReady s c)).flatMap fun q => [Due.copyComplete c q.id, Due.copyFail c q.id]) ++
  (x.threads.filterMap fun e => match e.2.blk with | .moving _ _ _ _ a => if a < nowOf s c && canMove s c e.1 then some (Due.tokenMoveOnJoin c e.1) else none | _ => none) ++
  (x.threads.filterMap fun e => if e.2.park.isNone && isInstrAddr e.2.pc then some (Due.fetchLineFill c e.2.pc) else none) ++
  (k.l1.map fun l => Due.l1LineExpiry c l.world l.va) ++
  on (placeDue s c) (.threadPlace c) ++
  ((x.evicted.filter fun e => restoreDue s c e.1).map fun e => Due.unitRestore c e.1) ++
  on (spawnDue s c) (.spawnBlockPlace c) ++ on (wantsSteal s c) (.stealRequest c) ++
  on (!(askers s c).isEmpty && k.steal.unacked.isNone) (.stealAnswer c) ++ on k.steal.answer.isSome (.stealAck c) ++
  on (k.steal.wait.any (· ≤ nowOf s c)) (.stealBackoffExpiry c) ++ 
  on (saveReady s c) (.cxswSave c) ++ on k.cxsw.restore (.cxswRestore c)
/-- A core takes its next cycle once every core of its die has come as far: they run on one clock (R327). -/
def cycleDue (s : State) (c : Nat) : Bool :=
  s.cores.all fun e => dieOf e.1 != dieOf c || (nowOf s c ≤ e.2.ccnt.toNat && (coreMust s e.1).isEmpty)
def coreDues (s : State) (c : Nat) : List Due :=
  coreMust s c ++ (if cycleDue s c then [Due.schedulerCycle c] else []) ++ coreMay s c
/-- Granules that a scrubber reaches next. -/
def scrubNext (s : State) : List Nat := s.scrub.map (·.2) ++ (s.bark.filter (·.2.scrub)).map (·.1)
/-- Latencies for a capture unit's cycle: whichever completed. -/
def someValues (s : State) : List Word := (List.range (Config.choose s.tick 13 % 65)).map fun i => s.free (2 ^ 59 + i)
/-- Events of the package. -/
def packageDues (s : State) : List Due :=
  ((s.paths.filter fun e => e.2.busy).map fun e => Due.launchRecordRead e.1) ++
  ((s.worlds.filter fun e => launchDue s e.1).map fun e => Due.launchBlockPlace e.1) ++
  (s.cores.flatMap fun e => e.2.ctx.ops.flatMap fun o => if o.done then [] else
    (o.homes.filter fun h => h.pa.isSome && (s.l2? o.world h.va).isNone).map fun h => Due.l2MissFill o.world h.va) ++
  (s.tokens.filterMap fun e => if e.2.pending.any (passReady s) then some (Due.tokenPassCommit e.2.world e.2.base) else none) ++
  (s.ending.filterMap fun e => if endsReady s e.1 e.2.1 e.2.2.1 then some (Due.agentEndRights e.2.1 e.2.2.1 e.2.2.2) else none) ++
  (s.contribs.map fun e => Due.gateContributionArrival e.1 e.2) ++
  (s.gate.keys.flatMap fun a => (s.gate.keys.filter fun b => a < b && matches_ s a b).map fun b => Due.sessionMatch a b) ++
  (s.fab.remote.map Due.remoteRequestArrival) ++
  ((s.fab.timers.keys.filter fun n => lossDue s (n / 1024) (n % 1024)).map fun n => Due.deviceLossTimeout (n / 1024) (n % 1024)) ++
  ((s.bells.keys.filter (bellDue s)).map Due.coalesceDelayExpiry) ++
  s.walks.map Due.accessChecks ++ (if heartDue s then [Due.heartwoodWindow] else []) ++ (scrubNext s).map Due.scrubGranule ++
  (s.parts.flatMap fun e => ((List.range 128).filter fun u => match capUnit s e.1 u with
    | some (q, j) => (capOf s q j).st != 0
    | none => false).map fun u => Due.captureUnitCycle e.1 u) ++
  ([0, 1].flatMap fun d => (s.die d).auds.flatMap fun e =>
    if (auditCores s e.2).isEmpty then [] else [Due.auditReplay d e.1 true]) ++
  ([0, 1].flatMap fun d => (s.die d).far.map fun l => Due.farLineExpiry d l.world l.va)
/-- Exchanges whose timer has lapsed abort before anything else comes (R372). -/
def gateTimeouts (s : State) : List Due := (s.gate.filter fun e => gateExpired s e.2).map fun e => Due.gateTimeout e.1
def dues (s : State) : List Due :=
  if (gateTimeouts s).isEmpty then s.cores.keys.flatMap (coreDues s) ++ packageDues s else gateTimeouts s
/-- An event of the machine's own takes place. -/
def runDue : Due → State → Answer
  | .launchRecordRead p => execLaunchRecordRead p
  | .launchBlockPlace w => execLaunchBlockPlace w
  | .spawnBlockPlace c => execSpawnBlockPlace c
  | .threadPlace c => execThreadPlace c
  | .unitRestore c u => execUnitRestore c u
  | .stealRequest c => execStealRequest c
  | .stealAnswer c => execStealAnswer c
  | .stealAck c => execStealAck c
  | .stealBackoffExpiry c => execStealBackoffExpiry c
  | .schedulerCycle c => execSchedulerCycle c
  | .issueSpanAge c u => execIssueSpanAge c u
  | .fetchLineFill c va => execFetchLineFill c va
  | .loadComplete c o => execLoadComplete c o
  | .storeHeldAtHome c o => execStoreHeldAtHome c o
  | .flushComplete c o => execFlushComplete c o
  | .mwaitTimeout c t => execMwaitTimeout c t
  | .sleepExpiry c t => execSleepExpiry c t
  | .rwaitExpiry c t => execRwaitExpiry c t
  | .tokenMoveOnJoin c t => execTokenMoveOnJoin c t
  | .copyComplete c n => execCopyComplete c n
  | .copyFail c n => execCopyFail c n
  | .arrayEntryStart c => execArrayEntryStart c
  | .matrixOpComplete c => execMatrixOpComplete c
  | .accInstrComplete c => execAccInstrComplete c
  | .sortCmdStart c => execSortCmdStart c
  | .sortCmdComplete c => execSortCmdComplete c
  | .auditReplay d n e => execAuditReplay d n e
  | .auditReplayTimeout d n => execAuditReplayTimeout d n
  | .faultRecordPost c => execFaultRecordPost c
  | .rollback c u => execRollback c u
  | .worldAbort w x => execWorldAbort w x
  | .cxswSave c => execCxswSave c
  | .cxswRestore c => execCxswRestore c
  | .reliabilityWindow d m => fun s => execReliabilityWindow d m (crossed (s.die d).power m) s
  | .signatureRotate c => execSignatureRotate c
  | .l1LineExpiry c w va => execL1LineExpiry c w va
  | .farLineExpiry d w va => execFarLineExpiry d w va
  | .l2MissFill w va => execL2MissFill w va
  | .tokenPassCommit w b => execTokenPassCommit w b
  | .agentEndRights a w t => execAgentEndRights a w t
  | .sessionMatch a b => execSessionMatch a b
  | .gateContributionArrival r c => execGateContributionArrival r c
  | .gateTimeout r => execGateTimeout r
  | .remoteRequestArrival r => execRemoteRequestArrival r
  | .deviceLossTimeout p d => execDeviceLossTimeout p d
  | .coalesceDelayExpiry w => execCoalesceDelayExpiry w
  | .heartwoodWindow => execHeartwoodWindow
  | .scrubGranule g => execScrubGranule g
  | .captureUnitCycle p u => fun s => execCaptureUnitCycle p u (someValues s) s
  | .accessChecks b => execAccessChecks b
/-- One of the events that are due, whichever comes first; the clock of IO0 has moved on by then. -/
def pickDue (s : State) : Option Due :=
  match dues s with
  | [] => none
  | [d] => some d
  | l => l[Config.choose s.tick 0 % l.length]?
def passTime (s : State) : State := { s with ioclk := s.ioclk + Config.choose s.tick 1 }

end Sys2Proof.Machine
end

