-- ==== Sys2Proof/Machine/Dispatch.lean ====
section
/-!
DEFINITION. Dispatch: each instruction and each event to its meaning.
-/
namespace Sys2Proof.Machine

def exec (i : Instr) (s : State) : Host.Outcome State Fault Refusal :=
  match i with
  | .iadd h ty sat d a b => Sys2Proof.Machine.execIadd h ty sat d a b s
  | .isub h ty sat d a b => Sys2Proof.Machine.execIsub h ty sat d a b s
  | .imul h ty sat d a b => Sys2Proof.Machine.execImul h ty sat d a b s
  | .imulh h ty d a b => Sys2Proof.Machine.execImulh h ty d a b s
  | .imad h ty sat d a b c => Sys2Proof.Machine.execImad h ty sat d a b c s
  | .idiv h ty sat d a b => Sys2Proof.Machine.execIdiv h ty sat d a b s
  | .irem h ty d a b => Sys2Proof.Machine.execIrem h ty d a b s
  | .ineg h ty sat d a => Sys2Proof.Machine.execIneg h ty sat d a s
  | .iabs h ty sat d a => Sys2Proof.Machine.execIabs h ty sat d a s
  | .imin h ty d a b => Sys2Proof.Machine.execImin h ty d a b s
  | .imax h ty d a b => Sys2Proof.Machine.execImax h ty d a b s
  | .iclamp h ty d a b c => Sys2Proof.Machine.execIclamp h ty d a b c s
  | .iand h ty d a b => Sys2Proof.Machine.execIand h ty d a b s
  | .ior h ty d a b => Sys2Proof.Machine.execIor h ty d a b s
  | .ixor h ty d a b => Sys2Proof.Machine.execIxor h ty d a b s
  | .inot h ty d a => Sys2Proof.Machine.execInot h ty d a s
  | .iandn h ty d a b => Sys2Proof.Machine.execIandn h ty d a b s
  | .shl h ty d a b => Sys2Proof.Machine.execShl h ty d a b s
  | .shr h ty d a b => Sys2Proof.Machine.execShr h ty d a b s
  | .sra h ty d a b => Sys2Proof.Machine.execSra h ty d a b s
  | .rotl h ty d a b => Sys2Proof.Machine.execRotl h ty d a b s
  | .fshl h ty d a b c => Sys2Proof.Machine.execFshl h ty d a b c s
  | .popc h ty d a => Sys2Proof.Machine.execPopc h ty d a s
  | .clz h ty d a => Sys2Proof.Machine.execClz h ty d a s
  | .ctz h ty d a => Sys2Proof.Machine.execCtz h ty d a s
  | .brev h ty d a => Sys2Proof.Machine.execBrev h ty d a s
  | .bfx h ty d a b => Sys2Proof.Machine.execBfx h ty d a b s
  | .bfi h ty d a b c => Sys2Proof.Machine.execBfi h ty d a b c s
  | .perm h d a b c => Sys2Proof.Machine.execPerm h d a b c s
  | .icmp h ty cond kd a b => Sys2Proof.Machine.execIcmp h ty cond kd a b s
  | .sel h ty d a b kc => Sys2Proof.Machine.execSel h ty d a b kc s
  | .mov h ty d a => Sys2Proof.Machine.execMov h ty d a s
  | .plog h kd ka kb kc => Sys2Proof.Machine.execPlog h kd ka kb kc s
  | .lea h ty scale d a b => Sys2Proof.Machine.execLea h ty scale d a b s
  | .iaddc h ty ko d a b kc => Sys2Proof.Machine.execIaddc h ty ko d a b kc s
  | .isubb h ty ko d a b kc => Sys2Proof.Machine.execIsubb h ty ko d a b kc s
  | .idp4 h ty sat d a b c => Sys2Proof.Machine.execIdp4 h ty sat d a b c s
  | .isad h ty sat d a b c => Sys2Proof.Machine.execIsad h ty sat d a b c s
  | .pack h ty d a b => Sys2Proof.Machine.execPack h ty d a b s
  | .unpk h ty d a b => Sys2Proof.Machine.execUnpk h ty d a b s
  | .fadd h ty rm d a b => Sys2Proof.Machine.execFadd h ty rm d a b s
  | .fsub h ty rm d a b => Sys2Proof.Machine.execFsub h ty rm d a b s
  | .fmul h ty rm d a b => Sys2Proof.Machine.execFmul h ty rm d a b s
  | .fma h ty rm d a b c => Sys2Proof.Machine.execFma h ty rm d a b c s
  | .fdiv h ty rm d a b => Sys2Proof.Machine.execFdiv h ty rm d a b s
  | .fmin h ty d a b => Sys2Proof.Machine.execFmin h ty d a b s
  | .fmax h ty d a b => Sys2Proof.Machine.execFmax h ty d a b s
  | .fabs h ty d a => Sys2Proof.Machine.execFabs h ty d a s
  | .fneg h ty d a => Sys2Proof.Machine.execFneg h ty d a s
  | .fcmp h ty cond kd a b => Sys2Proof.Machine.execFcmp h ty cond kd a b s
  | .fclass h ty d a => Sys2Proof.Machine.execFclass h ty d a s
  | .fcpsg h ty d a b => Sys2Proof.Machine.execFcpsg h ty d a b s
  | .frnd h ty rm d a => Sys2Proof.Machine.execFrnd h ty rm d a s
  | .fcvt h dty sty rm sat d a => Sys2Proof.Machine.execFcvt h dty sty rm sat d a s
  | .f2i h dty sty rm d a => Sys2Proof.Machine.execF2i h dty sty rm d a s
  | .i2f h dty sty rm d a => Sys2Proof.Machine.execI2f h dty sty rm d a s
  | .tcvt h dty sty rm d a b => Sys2Proof.Machine.execTcvt h dty sty rm d a b s
  | .bxal h op d a b => Sys2Proof.Machine.execBxal h op d a b s
  | .fexp2 h ty acc d a => Sys2Proof.Machine.execFexp2 h ty acc d a s
  | .flog2 h ty acc d a => Sys2Proof.Machine.execFlog2 h ty acc d a s
  | .frcp h ty acc rm d a => Sys2Proof.Machine.execFrcp h ty acc rm d a s
  | .frsqrt h ty acc d a => Sys2Proof.Machine.execFrsqrt h ty acc d a s
  | .fsqrt h ty acc rm d a => Sys2Proof.Machine.execFsqrt h ty acc rm d a s
  | .fsin h ty acc d a => Sys2Proof.Machine.execFsin h ty acc d a s
  | .fcos h ty acc d a => Sys2Proof.Machine.execFcos h ty acc d a s
  | .ftanh h ty acc d a => Sys2Proof.Machine.execFtanh h ty acc d a s
  | .fsigm h ty acc d a => Sys2Proof.Machine.execFsigm h ty acc d a s
  | .ferf h ty acc d a => Sys2Proof.Machine.execFerf h ty acc d a s
  | .br h => Sys2Proof.Machine.execBr h s
  | .brx h a => Sys2Proof.Machine.execBrx h a s
  | .call h => Sys2Proof.Machine.execCall h s
  | .callx h a => Sys2Proof.Machine.execCallx h a s
  | .ret h => Sys2Proof.Machine.execRet h s
  | .spawn h q8 a b c => Sys2Proof.Machine.execSpawn h q8 a b c s
  | .tail h => Sys2Proof.Machine.execTail h s
  | .exit h scope evict a => Sys2Proof.Machine.execExit h scope evict a s
  | .trap h => Sys2Proof.Machine.execTrap h s
  | .sys h d => Sys2Proof.Machine.execSys h d s
  | .nop h => Sys2Proof.Machine.execNop h s
  | .yield h => Sys2Proof.Machine.execYield h s
  | .brk h => Sys2Proof.Machine.execBrk h s
  | .cstk h a b => Sys2Proof.Machine.execCstk h a b s
  | .rdsr h d => Sys2Proof.Machine.execRdsr h d s
  | .wrsr h a => Sys2Proof.Machine.execWrsr h a s
  | .sleep h a => Sys2Proof.Machine.execSleep h a s
  | .eret h a => Sys2Proof.Machine.execEret h a s
  | .resm h a b pc val => Sys2Proof.Machine.execResm h a b pc val s
  | .kill h a b => Sys2Proof.Machine.execKill h a b s
  | .sstepThr h a b => Sys2Proof.Machine.execSstepThr h a b s
  | .sstepGrp h a b => Sys2Proof.Machine.execSstepGrp h a b s
  | .dump h m sec a b => Sys2Proof.Machine.execDump h m sec a b s
  | .haltHold h d => Sys2Proof.Machine.execHaltHold h d s
  | .haltRel h d => Sys2Proof.Machine.execHaltRel h d s
  | .haltQ h d => Sys2Proof.Machine.execHaltQ h d s
  | .traceOn h a => Sys2Proof.Machine.execTraceOn h a s
  | .traceOff h a => Sys2Proof.Machine.execTraceOff h a s
  | .traceMark h a => Sys2Proof.Machine.execTraceMark h a s
  | .ld h m ty d a => Sys2Proof.Machine.execLd h m ty d a s
  | .ldu h m ty d a => Sys2Proof.Machine.execLdu h m ty d a s
  | .ld4 h m d a => Sys2Proof.Machine.execLd4 h m d a s
  | .st h m ty a b => Sys2Proof.Machine.execSt h m ty a b s
  | .st4 h m a b => Sys2Proof.Machine.execSt4 h m a b s
  | .ldm h m n d a => Sys2Proof.Machine.execLdm h m n d a s
  | .stm h m n a b => Sys2Proof.Machine.execStm h m n a b s
  | .stz h m a => Sys2Proof.Machine.execStz h m a s
  | .atom h m op ty d a b => Sys2Proof.Machine.execAtom h m op ty d a b s
  | .atomg h m op ty a b => Sys2Proof.Machine.execAtomg h m op ty a b s
  | .cas h m ty d a b c => Sys2Proof.Machine.execCas h m ty d a b c s
  | .atomf h m op ty d a b => Sys2Proof.Machine.execAtomf h m op ty d a b s
  | .prf h evict a => Sys2Proof.Machine.execPrf h evict a s
  | .fence h ord scope => Sys2Proof.Machine.execFence h ord scope s
  | .wait h => Sys2Proof.Machine.execWait h s
  | .inv h a b => Sys2Proof.Machine.execInv h a b s
  | .flush h a b => Sys2Proof.Machine.execFlush h a b s
  | .rld h m ty d a c => Sys2Proof.Machine.execRld h m ty d a c s
  | .rst h m ty a b c => Sys2Proof.Machine.execRst h m ty a b c s
  | .ratom h m op ty d a b c => Sys2Proof.Machine.execRatom h m op ty d a b c s
  | .rcas h m ty d a b c => Sys2Proof.Machine.execRcas h m ty d a b c s
  | .ratomf h m op ty d a b c => Sys2Proof.Machine.execRatomf h m op ty d a b c s
  | .ldcv h m cv a => Sys2Proof.Machine.execLdcv h m cv a s
  | .stcv h m cv a => Sys2Proof.Machine.execStcv h m cv a s
  | .gjoin h a b slot => Sys2Proof.Machine.execGjoin h a b slot s
  | .gleave h => Sys2Proof.Machine.execGleave h s
  | .gslice h a => Sys2Proof.Machine.execGslice h a s
  | .gbar h scope => Sys2Proof.Machine.execGbar h scope s
  | .rwait h scope kd a => Sys2Proof.Machine.execRwait h scope kd a s
  | .vote h op d ka => Sys2Proof.Machine.execVote h op d ka s
  | .shfl h mode ty d a b => Sys2Proof.Machine.execShfl h mode ty d a b s
  | .red h op ty rm sat d a => Sys2Proof.Machine.execRed h op ty rm sat d a s
  | .scan h op exc ty rm sat d a => Sys2Proof.Machine.execScan h op exc ty rm sat d a s
  | .gmatch h zeq ty d a => Sys2Proof.Machine.execGmatch h zeq ty d a s
  | .mwait h m d a b c => Sys2Proof.Machine.execMwait h m d a b c s
  | .dqPush h a b => Sys2Proof.Machine.execDqPush h a b s
  | .dqPop h d => Sys2Proof.Machine.execDqPop h d s
  | .gsatRd h d => Sys2Proof.Machine.execGsatRd h d s
  | .gsatClr h d => Sys2Proof.Machine.execGsatClr h d s
  | .gsatArm h d => Sys2Proof.Machine.execGsatArm h d s
  | .gsatDisarm h d => Sys2Proof.Machine.execGsatDisarm h d s
  | .tileDef h tl a => Sys2Proof.Machine.execTileDef h tl a s
  | .tileFree h tl => Sys2Proof.Machine.execTileFree h tl s
  | .tileQry h tl d => Sys2Proof.Machine.execTileQry h tl d s
  | .tileRdySet h tl => Sys2Proof.Machine.execTileRdySet h tl s
  | .tileRdyClr h tl => Sys2Proof.Machine.execTileRdyClr h tl s
  | .tileFill h tl a sig => Sys2Proof.Machine.execTileFill h tl a sig s
  | .patDef h pat w a => Sys2Proof.Machine.execPatDef h pat w a s
  | .patLd h pat a => Sys2Proof.Machine.execPatLd h pat a s
  | .patFence h => Sys2Proof.Machine.execPatFence h s
  | .cpIn h evict tl pat b sig => Sys2Proof.Machine.execCpIn h evict tl pat b sig s
  | .cpOut h evict tl pat b sig => Sys2Proof.Machine.execCpOut h evict tl pat b sig s
  | .cpTt h tr dtl stl sig => Sys2Proof.Machine.execCpTt h tr dtl stl sig s
  | .spCfg h d a => Sys2Proof.Machine.execSpCfg h d a s
  | .mmRsv h kd a => Sys2Proof.Machine.execMmRsv h kd a s
  | .mmRel h => Sys2Proof.Machine.execMmRel h s
  | .mmDecl h lead cv a => Sys2Proof.Machine.execMmDecl h lead cv a s
  | .mmSign h cv => Sys2Proof.Machine.execMmSign h cv s
  | .mmFence h => Sys2Proof.Machine.execMmFence h s
  | .mmMmaT1i8 h cv z sg acc tl b => Sys2Proof.Machine.execMmMmaT1i8 h cv z sg acc tl b s
  | .mmMmaT5i8 h cv z sg acc tl b => Sys2Proof.Machine.execMmMmaT5i8 h cv z sg acc tl b s
  | .mmMmaT5i8Bx h cv z sg acc tl b c => Sys2Proof.Machine.execMmMmaT5i8Bx h cv z sg acc tl b c s
  | .mmMmaT11i16 h cv z sg acc tl b => Sys2Proof.Machine.execMmMmaT11i16 h cv z sg acc tl b s
  | .mmMmaRing16 h cv z sg acc tl b => Sys2Proof.Machine.execMmMmaRing16 h cv z sg acc tl b s
  | .mmMmaRing32 h cv z sg acc tl b => Sys2Proof.Machine.execMmMmaRing32 h cv z sg acc tl b s
  | .wbLd h evict a b c => Sys2Proof.Machine.execWbLd h evict a b c s
  | .accClr h w48 acc => Sys2Proof.Machine.execAccClr h w48 acc s
  | .accRd h itp ty rm tl acc => Sys2Proof.Machine.execAccRd h itp ty rm tl acc s
  | .accSt h w48 acc tl => Sys2Proof.Machine.execAccSt h w48 acc tl s
  | .sortLoad h desc stable zeq ty kd tk tp => Sys2Proof.Machine.execSortLoad h desc stable zeq ty kd tk tp s
  | .sortRun h a => Sys2Proof.Machine.execSortRun h a s
  | .sortStore h tk tp => Sys2Proof.Machine.execSortStore h tk tp s
  | .sortTopk h a => Sys2Proof.Machine.execSortTopk h a s
  | .sortMerge h => Sys2Proof.Machine.execSortMerge h s
  | .sortMatch h d a => Sys2Proof.Machine.execSortMatch h d a s
  | .sortStateRd h d => Sys2Proof.Machine.execSortStateRd h d s
  | .sortStateRel h => Sys2Proof.Machine.execSortStateRel h s
  | .ownClaim h mode taint kd a b => Sys2Proof.Machine.execOwnClaim h mode taint kd a b s
  | .ownLend h kd a b => Sys2Proof.Machine.execOwnLend h kd a b s
  | .ownRet h a => Sys2Proof.Machine.execOwnRet h a s
  | .ownSplit h kd a => Sys2Proof.Machine.execOwnSplit h kd a s
  | .ownJoin h kd a => Sys2Proof.Machine.execOwnJoin h kd a s
  | .ownShare h mode kd a b => Sys2Proof.Machine.execOwnShare h mode kd a b s
  | .ownDrop h a => Sys2Proof.Machine.execOwnDrop h a s
  | .ownQuery h d a => Sys2Proof.Machine.execOwnQuery h d a s
  | .ownQuerySelf h d => Sys2Proof.Machine.execOwnQuerySelf h d s
  | .shSessOpen h d a => Sys2Proof.Machine.execShSessOpen h d a s
  | .shSessQry h d a => Sys2Proof.Machine.execShSessQry h d a s
  | .shBeg h ty d a b c => Sys2Proof.Machine.execShBeg h ty d a b c s
  | .shXch h ty d a b c => Sys2Proof.Machine.execShXch h ty d a b c s
  | .shFin h ty d a b c => Sys2Proof.Machine.execShFin h ty d a b c s
  | .shAdd h ty d a b pub => Sys2Proof.Machine.execShAdd h ty d a b pub s
  | .shSub h ty d a b pub => Sys2Proof.Machine.execShSub h ty d a b pub s
  | .shCmul h ty d a b => Sys2Proof.Machine.execShCmul h ty d a b s
  | .shTrunc h ty d a b c => Sys2Proof.Machine.execShTrunc h ty d a b c s
  | .shAnd h d a b c => Sys2Proof.Machine.execShAnd h d a b c s
  | .shXor h d a b pub => Sys2Proof.Machine.execShXor h d a b pub s
  | .shCvtA2b h pn d a b => Sys2Proof.Machine.execShCvtA2b h pn d a b s
  | .shCvtB2a h ty pn d a b => Sys2Proof.Machine.execShCvtB2a h ty pn d a b s
  | .shReveal h ty d a b c => Sys2Proof.Machine.execShReveal h ty d a b c s
  | .shPool h ty d a b c => Sys2Proof.Machine.execShPool h ty d a b c s
  | .shClose h d a => Sys2Proof.Machine.execShClose h d a s
  | .partQsc h d a => Sys2Proof.Machine.execPartQsc h d a s
  | .partRes h d a => Sys2Proof.Machine.execPartRes h d a s
  | .partWil h d a b => Sys2Proof.Machine.execPartWil h d a b s
  | .partWnb h d a b => Sys2Proof.Machine.execPartWnb h d a b s
  | .xltSdRange h d a b c => Sys2Proof.Machine.execXltSdRange h d a b c s
  | .xltSdWorld h d c => Sys2Proof.Machine.execXltSdWorld h d c s
  | .xltSdPart h d => Sys2Proof.Machine.execXltSdPart h d s
  | .worldLat h d a b => Sys2Proof.Machine.execWorldLat h d a b s
  | .worldClr h d a => Sys2Proof.Machine.execWorldClr h d a s
  | .fabCfgRoute h d a b => Sys2Proof.Machine.execFabCfgRoute h d a b s
  | .fabCfgBind h d a b => Sys2Proof.Machine.execFabCfgBind h d a b s
  | .fabCfgUnbind h d a b => Sys2Proof.Machine.execFabCfgUnbind h d a b s
  | .fabCfgPort h d a b => Sys2Proof.Machine.execFabCfgPort h d a b s
  | .fabCfgQry h d a b => Sys2Proof.Machine.execFabCfgQry h d a b s
  | .keySet h d a b => Sys2Proof.Machine.execKeySet h d a b s
  | .lnchhiHost fn hi => Sys2Proof.Machine.execLnchhiHost fn hi s
  | .lnchhiSteward part hi => Sys2Proof.Machine.execLnchhiSteward part hi s
  | .launchRecordRead path => Sys2Proof.Machine.execLaunchRecordRead path s
  | .launchBlockPlace world => Sys2Proof.Machine.execLaunchBlockPlace world s
  | .spawnBlockPlace core => Sys2Proof.Machine.execSpawnBlockPlace core s
  | .threadPlace core => Sys2Proof.Machine.execThreadPlace core s
  | .unitRestore core u => Sys2Proof.Machine.execUnitRestore core u s
  | .stealRequest core => Sys2Proof.Machine.execStealRequest core s
  | .stealAnswer core => Sys2Proof.Machine.execStealAnswer core s
  | .stealAck core => Sys2Proof.Machine.execStealAck core s
  | .stealBackoffExpiry core => Sys2Proof.Machine.execStealBackoffExpiry core s
  | .schedulerCycle core => Sys2Proof.Machine.execSchedulerCycle core s
  | .issueSpanAge core u => Sys2Proof.Machine.execIssueSpanAge core u s
  | .fetchLineFill core va => Sys2Proof.Machine.execFetchLineFill core va s
  | .loadComplete core op => Sys2Proof.Machine.execLoadComplete core op s
  | .storeHeldAtHome core op => Sys2Proof.Machine.execStoreHeldAtHome core op s
  | .mwaitTimeout core tid => Sys2Proof.Machine.execMwaitTimeout core tid s
  | .sleepExpiry core tid => Sys2Proof.Machine.execSleepExpiry core tid s
  | .rwaitExpiry core tid => Sys2Proof.Machine.execRwaitExpiry core tid s
  | .tokenMoveOnJoin core tid => Sys2Proof.Machine.execTokenMoveOnJoin core tid s
  | .retiredFaultPost core op code => Sys2Proof.Machine.execRetiredFaultPost core op code s
  | .copyComplete core id => Sys2Proof.Machine.execCopyComplete core id s
  | .copyFail core id => Sys2Proof.Machine.execCopyFail core id s
  | .arrayEntryStart core => Sys2Proof.Machine.execArrayEntryStart core s
  | .matrixOpComplete core => Sys2Proof.Machine.execMatrixOpComplete core s
  | .accInstrComplete core => Sys2Proof.Machine.execAccInstrComplete core s
  | .sortCmdStart core => Sys2Proof.Machine.execSortCmdStart core s
  | .sortCmdComplete core => Sys2Proof.Machine.execSortCmdComplete core s
  | .auditReplay die slot equal => Sys2Proof.Machine.execAuditReplay die slot equal s
  | .auditReplayTimeout die slot => Sys2Proof.Machine.execAuditReplayTimeout die slot s
  | .faultRecordPost core => Sys2Proof.Machine.execFaultRecordPost core s
  | .rollback core u => Sys2Proof.Machine.execRollback core u s
  | .worldAbort world code => Sys2Proof.Machine.execWorldAbort world code s
  | .cxswSave core => Sys2Proof.Machine.execCxswSave core s
  | .cxswRestore core => Sys2Proof.Machine.execCxswRestore core s
  | .frphi core v => Sys2Proof.Machine.execFrphi core v s
  | .leadClaim core tid => Sys2Proof.Machine.execLeadClaim core tid s
  | .leadGiveUp core tid => Sys2Proof.Machine.execLeadGiveUp core tid s
  | .shctlClear core => Sys2Proof.Machine.execShctlClear core s
  | .pcede part v => Sys2Proof.Machine.execPcede part v s
  | .capctlArm part unit => Sys2Proof.Machine.execCapctlArm part unit s
  | .capctlClear part unit => Sys2Proof.Machine.execCapctlClear part unit s
  | .captureUnitCycle part unit values => Sys2Proof.Machine.execCaptureUnitCycle part unit values s
  | .signatureRotate core => Sys2Proof.Machine.execSignatureRotate core s
  | .l1LineExpiry core world va => Sys2Proof.Machine.execL1LineExpiry core world va s
  | .farLineExpiry die world va => Sys2Proof.Machine.execFarLineExpiry die world va s
  | .l2MissFill world va => Sys2Proof.Machine.execL2MissFill world va s
  | .tokenPassCommit world base => Sys2Proof.Machine.execTokenPassCommit world base s
  | .agentEndRights agent world taint => Sys2Proof.Machine.execAgentEndRights agent world taint s
  | .coreOutOfService core => Sys2Proof.Machine.execCoreOutOfService core s
  | .sessionMatch r1 r2 => Sys2Proof.Machine.execSessionMatch r1 r2 s
  | .gateContributionArrival rec_ c => Sys2Proof.Machine.execGateContributionArrival rec_ c s
  | .gateTimeout rec_ => Sys2Proof.Machine.execGateTimeout rec_ s
  | .arbiterWordsArrival rec_ words => Sys2Proof.Machine.execArbiterWordsArrival rec_ words s
  | .flitReceive port f => Sys2Proof.Machine.execFlitReceive port f s
  | .remoteRequestArrival r => Sys2Proof.Machine.execRemoteRequestArrival r s
  | .remoteAnswerArrival a => Sys2Proof.Machine.execRemoteAnswerArrival a s
  | .mirrorReceipt home base n world mode => Sys2Proof.Machine.execMirrorReceipt home base n world mode s
  | .tokenReturnHome dev base world => Sys2Proof.Machine.execTokenReturnHome dev base world s
  | .deviceLossTimeout part dev => Sys2Proof.Machine.execDeviceLossTimeout part dev s
  | .lossReport dev => Sys2Proof.Machine.execLossReport dev s
  | .hostInboundAccess fn a => Sys2Proof.Machine.execHostInboundAccess fn a s
  | .coalesceDelayExpiry world => Sys2Proof.Machine.execCoalesceDelayExpiry world s
  | .hwdb part v => Sys2Proof.Machine.execHwdb part v s
  | .heartwoodWindow => Sys2Proof.Machine.execHeartwoodWindow s
  | .getVersion sess => Sys2Proof.Machine.execGetVersion sess s
  | .getCapabilities sess => Sys2Proof.Machine.execGetCapabilities sess s
  | .negotiateAlgorithms sess => Sys2Proof.Machine.execNegotiateAlgorithms sess s
  | .getDigests sess => Sys2Proof.Machine.execGetDigests sess s
  | .getCertificate sess => Sys2Proof.Machine.execGetCertificate sess s
  | .challenge sess nonce => Sys2Proof.Machine.execChallenge sess nonce s
  | .getMeasurements sess => Sys2Proof.Machine.execGetMeasurements sess s
  | .keyExchange sess => Sys2Proof.Machine.execKeyExchange sess s
  | .finish sess => Sys2Proof.Machine.execFinish sess s
  | .heartbeat sess => Sys2Proof.Machine.execHeartbeat sess s
  | .keyUpdate sess => Sys2Proof.Machine.execKeyUpdate sess s
  | .endSession sess => Sys2Proof.Machine.execEndSession sess s
  | .modelKeyDelivery sess k => Sys2Proof.Machine.execModelKeyDelivery sess k s
  | .heartbeatLapse sess => Sys2Proof.Machine.execHeartbeatLapse sess s
  | .scrubGranule gr => Sys2Proof.Machine.execScrubGranule gr s
  | .warmReset => Sys2Proof.Machine.execWarmReset s
  | .coldPowerUp cfg => Sys2Proof.Machine.execColdPowerUp cfg s
  | .thermalCut => Sys2Proof.Machine.execThermalCut s
  | .clockStepDown die thermal => Sys2Proof.Machine.execClockStepDown die thermal s
  | .clockStepUp die => Sys2Proof.Machine.execClockStepUp die s
  | .undervoltStep die dom => Sys2Proof.Machine.execUndervoltStep die dom s
  | .reliabilityWindow die dom crossed => Sys2Proof.Machine.execReliabilityWindow die dom crossed s
  | .softError at_ correctable => Sys2Proof.Machine.execSoftError at_ correctable s
  | .flushComplete core op => Sys2Proof.Machine.execFlushComplete core op s
  | .linkTrained port => Sys2Proof.Machine.execLinkTrained port s
  | .domainEnumeration dev => Sys2Proof.Machine.execDomainEnumeration dev s
  | .debugPortRequest r => Sys2Proof.Machine.execDebugPortRequest r s
  | .coldPowerLoss => Sys2Proof.Machine.execColdPowerLoss s
  | .mirrorEntryReserve home base n world => Sys2Proof.Machine.execMirrorEntryReserve home base n world s

end Sys2Proof.Machine
end

