-- ==== Sys2Proof/Machine/Step.lean ====
section
/-!
DEFINITION. Step. A bundle that has issued executes first; then what follows at once from a step; then what the outside world
has sent; then whichever of the machine's own events comes first (log 2, 3, 5). Without power the machine waits for the power-up
(R327, R350, log 4).
-/
namespace Sys2Proof.Machine

/-- What follows at once from a step that began at `o`. -/
def settled (o : State) (paired : Bool) : Host.Outcome State Fault Refusal → Host.Outcome State Fault Refusal
  | .next t => .next (settle o paired t)
  | .fault r => .fault r
  | .refused r => .refused r

/-- A bundle at the head of the pipes executes: the line is met, then its instruction runs for the focus. -/
def stepBundle (o : State) (b : Bundle) (rest : List Bundle) : Host.Outcome State Fault Refusal :=
  match prepare { o with pipes := rest } b with
  | .ended t paired => settled o paired (.next t)
  | .one t i => settled o false (exec i t)

/-- An event of the machine's own, whichever comes first. -/
def stepOwn (o : State) : Host.Outcome State Fault Refusal :=
  match pickDue (passTime o) with
  | some d => settled o false (runDue d (passTime o))
  | none => settled o false (.next (passTime o))

/-- Whether an input brings the power up. -/
def powersUp : Instr → Bool
  | .coldPowerUp _ => true
  | _ => false

/-- Without power only the power-up acts; whatever else is sent is lost. -/
def stepOff (o : State) : Host.Outcome State Fault Refusal :=
  match o.inputs with
  | i :: l => if powersUp i then settled o false (exec i { o with inputs := l })
      else .next { o with inputs := l, tick := o.tick + 1 }
  | [] => .fault .noPower

def step (s : State) : Host.Outcome State Fault Refusal :=
  if s.on then
    match s.pipes, s.todo, s.inputs with
    | b :: l, _, _ => stepBundle s b l
    | [], d :: l, _ => settled s false (runDue d { s with todo := l })
    | [], [], i :: l => settled s false (exec i { s with inputs := l })
    | [], [], [] => stepOwn s
  else stepOff s

/-- The line in which `withFetchWord` places an instruction: slot 0, a lawful target, no pair. -/
def placedLine (w : Nat) : FetchLine := BitVec.ofNat 512 (w % 2 ^ 96) ||| (1#512 <<< 480)

/-- An instruction placed so that the next step fetches and runs it (log 15): core 0 runs world 0 of partition 0, its thread 0,
at the root level, stands at the first slot of a line that the fetch buffer holds, and its bundle has issued. -/
def State.withFetchWord (s : State) (_nbits w : Nat) : State :=
  let pc : DWord := 0x10000
  let th : Thread := { pc := pc, level := .root, quota := 16, entered := true }
  let k := s.core 0
  { s with
    on := true
    worlds := s.worlds.put 0 ((s.worlds.look 0).getD { part := 0 })
    cores := s.cores.put 0 { k with
      latch := some 0
      fbuf := [{ world := 0, va := 0x10000, data := placedLine w }]
      ctx := { k.ctx with threads := k.ctx.threads.put 0 th } }
    pipes := [{ core := 0, unit := .thr 0, tids := [0], pc := pc }] }

end Sys2Proof.Machine
end

