-- ==== Sys2Proof/Safety.lean ====
section
/-!
DEFINITION. What the statements speak of: the canonical form of memory, runs that do not stop, an instruction that is ready to
run for one thread, and how it ends.
-/
namespace Sys2Proof.Machine

/-- The byte memory of the package in its canonical form (log 11). -/
def State.MemOk (s : State) : Prop := Memory.wf s.mem = true

/-- A run of some steps, none of which stops. -/
inductive Reaches : State → State → Prop
  | refl (s : State) : Reaches s s
  | step {s t u : State} : Reaches s t → Sys2Proof.Machine.step t = .next u → Reaches s u

/-- The bundle that executes is one thread, live and not parked, of a level that may run the instruction; the registers that the
instruction names exist (R25), its guard holds (R29), no register it reads holds an uncorrectable error (R321), and its unit is not about
to roll back (R272). -/
structure Ready (s : State) (b : Bundle) (t : Nat) (th : Thread) (lv : Level) (u : Uses) (h : Hdr) : Prop where
  focus : s.focus = some b
  alone : b.tids = [t]
  live  : s.thr? b.core t = some th
  runs  : th.park = none
  level : lv.num ≤ th.level.num
  regs  : u.avail th = true
  guard : guardOk s b.core t h = true
  clean : srcMarked s b.core t u = false
  quiet : s.todo.contains (.rollback b.core (s.unitOf b.core t)) = false

/-- How the thread reads its operands: it enters its pipe when the results it waits for are there (R167). -/
def envOf (s : State) (b : Bundle) (t : Nat) (u : Uses) (h : Hdr) : Env :=
  { c := b.core, t := t, lane := b.lane, low := true, skew := startAt s b.core t h u 0 }

/-- A table, each value changed. -/
def Map.each (f : Nat → α → α) (m : Map α) : Map α := m.map fun e => (e.1, f e.1 e.2)

/-- A thread but for where it goes on and what the scheduler notes of it. -/
def Thread.calm (th : Thread) : Thread :=
  { th with pc := 0, blk := .run, bpSkip := false, prioDue := false, entered := true, since := 0, late := [], sched := {} }
/-- A core but for where thread `t` goes on and what the scheduler and the lane pipes note. -/
def Core.calm (t : Nat) (k : Core) : Core :=
  { k with
    lanes := []
    ctx := { k.ctx with
      moved := []
      threads := k.ctx.threads.each fun n th => if n = t then th.calm else { th with sched := {} }
      groups := k.ctx.groups.each fun _ g => { g with sched := {} } } }
/-- Two states that agree in this agree in every register, predicate, counter, operation, cache and byte of the package. -/
def State.calm (s : State) (c t : Nat) : State := s.modCore c (Core.calm t)

/-- The instruction completes for the thread: it answers a next state, the thread runs on at the next instruction (R13), and all
else is as in `v`, but that a read of `ccnt` latches `ccnth` (R24). -/
def Ends (i : Instr) (s : State) (b : Bundle) (t : Nat) (u : Uses) (h : Hdr) (v : State) : Prop :=
  ∃ w, exec i s = .next w ∧ (w.thr b.core t).pc = nextPc (s.thr b.core t).pc ∧ (w.thr b.core t).blk = .run ∧
    w.calm b.core t = (latchCcnt u v b.core t (envOf s b t u h).skew).calm b.core t

/-- The instruction transfers the thread to an address; all else is as in `v`. -/
def Jumps (i : Instr) (s : State) (b : Bundle) (t : Nat) (u : Uses) (h : Hdr) (pc : DWord) (v : State) : Prop :=
  ∃ w, exec i s = .next w ∧ (w.thr b.core t).pc = pc ∧ (w.thr b.core t).blk = .run ∧
    w.calm b.core t = (latchCcnt u v b.core t (envOf s b t u h).skew).calm b.core t

/-- The instruction leaves the thread waiting where it stands; all else is as in `v`. -/
def Waits (i : Instr) (s : State) (b : Bundle) (t : Nat) (u : Uses) (h : Hdr) (k : Blk) (v : State) : Prop :=
  ∃ w, exec i s = .next w ∧ (w.thr b.core t).pc = (v.thr b.core t).pc ∧ (w.thr b.core t).blk = k ∧
    w.calm b.core t = ((if k.again then v else latchCcnt u v b.core t (envOf s b t u h).skew)).calm b.core t

/-- The instruction takes the thread away: its slot is free, and all else is as in `v`. -/
def Leaves (i : Instr) (s : State) (b : Bundle) (t : Nat) (v : State) : Prop :=
  ∃ w, exec i s = .next w ∧ w.thr? b.core t = none ∧ w.calm b.core t = v.calm b.core t

/-- What taking a fault leaves (R92, R255 to R258): the thread parks where it stands, in a sub-bundle of its own, and nothing else
of it changes; the record of a thread of the application goes to its world's queue and names the sub-bundle, the address, the code
and the number. -/
structure Raised (s w : State) (c t : Nat) (code : BitVec 6) (num : Word) : Prop where
  thread : w.thr c t = { s.thr c t with park := some (s.ctx c).nextPark, blk := .run, sched := (w.thr c t).sched }
  sub    : ∃ p ∈ (w.ctx c).parked, p.id = (s.ctx c).nextPark ∧ p.pc = (s.thr c t).pc ∧ p.code = code ∧ p.mems.map (·.2) = [t]
  rest   : w = { s with cores := w.cores, parts := w.parts }
  record : (s.thr c t).level = .app → ∃ r, (w.ctx c).recs = (s.ctx c).recs ++ [r] ∧ r.park = some (s.ctx c).nextPark ∧
    r.code = code ∧ r.num = num ∧ r.pc = (s.thr c t).pc ∧ r.tid = t ∧ r.unit = some ((s.thr c t).unit t) ∧ r.retired = false
  ops    : (w.ctx c).ops = (s.ctx c).ops

/-- The instruction raises a fault for the thread. -/
def Raises (i : Instr) (s : State) (b : Bundle) (t : Nat) (code : BitVec 6) (num : Word := 0) : Prop :=
  ∃ w, exec i s = .next w ∧ Raised s w b.core t code num

end Sys2Proof.Machine
end

