-- ==== Sys2Proof/Certificates/Slice0/Obligations.lean ====
section
/-!
DEFINITION. What is claimed of the model, each statement from the numbered rules of spec/.
-/
open Sys2Proof Sys2Proof.Machine

/-! ### Shared by the statements -/

namespace Sys2Proof.Machine

/-- The registers an arithmetic instruction names, all sources and the destination of one width. -/
def ofType (ty : Ty) (l : List Src) (d : Dst) : Uses := { srcs := wide ty.is64 l, dsts := wideD ty.is64 d }
/-- The registers an instruction on single words names. -/
def ofWords (l : List Src) (d : Dst) : Uses := { srcs := one l, dsts := [(d, 1)] }

/-- The end of R94: a value beyond the type's range is clamped under `.sat`, with SAT set, and wraps otherwise. -/
def putInt (s : State) (e : Env) (ty : Ty) (sat : Bool) (d : Dst) (v : Int) : State :=
  if sat = true ∧ tyMax ty < v then setSat (wrVal s e ty.is64 d (wrInt ty (tyMax ty))) e.c e.t
  else if sat = true ∧ v < tyMin ty then setSat (wrVal s e ty.is64 d (wrInt ty (tyMin ty))) e.c e.t
  else wrVal s e ty.is64 d (wrInt ty v)
/-- A word written, and SAT where the flag says so. -/
def putWord (s : State) (e : Env) (d : Dst) (v : Word) (sat : Bool := false) : State :=
  if sat then setSat (wrWord s e d v) e.c e.t else wrWord s e d v

/-- What an instruction that names only registers and predicates leaves as it was: all but its destinations, SAT, `ccnth` where it
reads `ccnt`, and where the thread goes on. -/
structure OnlyRegisters (s w : State) (c t : Nat) (u : Uses) : Prop where
  rest   : w = { s with cores := w.cores }
  cores  : ∀ c', c' ≠ c → w.core c' = s.core c'
  core   : w.core c = { s.core c with lanes := (w.core c).lanes, marks := (w.core c).marks, ctx := (w.core c).ctx }
  marks  : ∀ m ∈ (w.core c).marks, m ∈ (s.core c).marks
  ctx    : w.ctx c = { s.ctx c with
    threads := (w.ctx c).threads, groups := (w.ctx c).groups, moved := (w.ctx c).moved }
  others : ∀ t', t' ≠ t → (w.thr? c t').map (fun (x : Thread) => { x with sched := {} }) = (s.thr? c t').map fun (x : Thread) => { x with sched := {} }
  thread : w.thr c t = { s.thr c t with
    pc := nextPc (s.thr c t).pc, blk := .run, bpSkip := false, entered := true, prioDue := (w.thr c t).prioDue
    late := (w.thr c t).late, sched := (w.thr c t).sched, ccnth := (w.thr c t).ccnth
    regs := (w.thr c t).regs, preds := (w.thr c t).preds, sat := (w.thr c t).sat }
  ccnth  : u.readsCcnt = false → (w.thr c t).ccnth = (s.thr c t).ccnth
  regs   : ∀ n, n ∉ u.dsts.flatMap dstKeys → (w.thr c t).regs.get 0 n = (s.thr c t).regs.get 0 n
  preds  : ∀ k : Pred, k ∉ u.kds → (w.thr c t).preds.getLsbD k.toNat = (s.thr c t).preds.getLsbD k.toNat
  sat    : (s.thr c t).sat = true → (w.thr c t).sat = true
  groups : ∀ g gr, s.group? c g = some gr → ∃ gr', w.group? c g = some gr' ∧
    gr' = { gr with y := gr'.y, sat := gr'.sat, sched := gr'.sched } ∧
    (∀ n, 128 + n ∉ u.dsts.flatMap dstKeys → gr'.y.get 0 n = gr.y.get 0 n) ∧ (gr.sat = true → gr'.sat = true) ∧
    ((s.thr c t).grp.map (·.1) ≠ some g → gr'.y = gr.y ∧ gr'.sat = gr.sat)

end Sys2Proof.Machine

/-! ### The integer class -/

/-- R94 and R95: the exact value of each operation, wrapped, or clamped under `.sat` with SAT set. -/
def Obligations.IntegerArithmetic : Prop :=
  ∀ (s : State) (b : Bundle) (t : Nat) (th : Thread) (h : Hdr) (ty : Ty) (sat : Bool) (d : Dst) (p q r : Src),
    (let u := ofType ty [p] d
     let e := envOf s b t u h
     let x := rdInt ty (rdVal s e h ty p)
     Ready s b t th .app u h →
      Ends (.ineg h ty sat d p) s b t u h (putInt s e ty sat d (-x)) ∧
      Ends (.iabs h ty sat d p) s b t u h (putInt s e ty sat d (if x < 0 then -x else x))) ∧
    (let u := ofType ty [p, q] d
     let e := envOf s b t u h
     let x := rdInt ty (rdVal s e h ty p)
     let y := rdInt ty (rdVal s e h ty q)
     Ready s b t th .app u h →
      Ends (.iadd h ty sat d p q) s b t u h (putInt s e ty sat d (x + y)) ∧
      Ends (.isub h ty sat d p q) s b t u h (putInt s e ty sat d (x - y)) ∧
      Ends (.imul h ty sat d p q) s b t u h (putInt s e ty sat d (x * y)) ∧
      Ends (.imulh h ty d p q) s b t u h (putInt s e ty false d (x * y / (2 : Int) ^ ty.bits)) ∧
      Ends (.imin h ty d p q) s b t u h (putInt s e ty false d (if x ≤ y then x else y)) ∧
      Ends (.imax h ty d p q) s b t u h (putInt s e ty false d (if x ≤ y then y else x))) ∧
    (let u := ofType ty [p, q, r] d
     let e := envOf s b t u h
     let x := rdInt ty (rdVal s e h ty p)
     let y := rdInt ty (rdVal s e h ty q)
     let z := rdInt ty (rdVal s e h ty r)
     Ready s b t th .app u h →
      Ends (.imad h ty sat d p q r) s b t u h (putInt s e ty sat d (x * y + z)) ∧
      Ends (.iclamp h ty d p q r) s b t u h
        (putInt s e ty false d (if y > z then z else if x < y then y else if z < x then z else x)))

/-- R96: quotient and remainder round toward zero and never fault: division by zero, and the least value by −1. -/
def Obligations.IntegerDivision : Prop :=
  ∀ (s : State) (b : Bundle) (t : Nat) (th : Thread) (h : Hdr) (ty : Ty) (sat : Bool) (d : Dst) (p q : Src),
    let u := ofType ty [p, q] d
    let e := envOf s b t u h
    let x := rdInt ty (rdVal s e h ty p)
    let y := rdInt ty (rdVal s e h ty q)
    let out := fun (v : Int) => wrVal s e ty.is64 d (wrInt ty v)
    Ready s b t th .app u h →
      Ends (.idiv h ty sat d p q) s b t u h
        (if y = 0 then out (if ty.signed then -1 else (2 : Int) ^ ty.bits - 1)
         else if ty.signed = true ∧ x = tyMin ty ∧ y = -1 then
           (if sat then setSat (out (tyMax ty)) e.c e.t else out (tyMin ty))
         else out (x.tdiv y)) ∧
      Ends (.irem h ty d p q) s b t u h (out (if y = 0 then x else x - x.tdiv y * y))

/-- R97, R101: and, or, exclusive or, not, and-not of the bits of one type; moves and selections. -/
def Sys2Proof.Machine.LogicOps : Prop :=
  ∀ (s : State) (b : Bundle) (t : Nat) (th : Thread) (h : Hdr) (ty : Ty) (d : Dst) (p q : Src) (kc : Pred),
    (let u := ofType ty [p, q] d
     let e := envOf s b t u h
     let x := rdVal s e h ty p
     let y := rdVal s e h ty q
     Ready s b t th .app u h →
      Ends (.iand h ty d p q) s b t u h (wrVal s e ty.is64 d (x &&& y)) ∧
      Ends (.ior h ty d p q) s b t u h (wrVal s e ty.is64 d (x ||| y)) ∧
      Ends (.ixor h ty d p q) s b t u h (wrVal s e ty.is64 d (x ^^^ y)) ∧
      Ends (.iandn h ty d p q) s b t u h (wrVal s e ty.is64 d (x &&& ~~~y))) ∧
    (let u := ofType ty [p] d
     let e := envOf s b t u h
     let x := rdVal s e h ty p
     Ready s b t th .app u h →
      Ends (.inot h ty d p) s b t u h (wrVal s e ty.is64 d (~~~x)) ∧
      Ends (.mov h ty d p) s b t u h (wrVal s e ty.is64 d x)) ∧
    (let u : Uses := { ofType ty [p, q] d with ks := [kc] }
     let e := envOf s b t u h
     Ready s b t th .app u h →
      Ends (.sel h ty d p q kc) s b t u h
        (wrVal s e ty.is64 d (if rdPred s e kc then rdVal s e h ty p else rdVal s e h ty q)))

/-- R97, shifts and counts: B of a shift is one word read as u32 whatever the type, and counts of the width and beyond shift
everything out; the counts of bits are one word. -/
def Sys2Proof.Machine.ShiftOps : Prop :=
  ∀ (s : State) (b : Bundle) (t : Nat) (th : Thread) (h : Hdr) (ty : Ty) (d : Dst) (p q r : Src),
    let n := ty.bits
    (let u : Uses := { srcs := wide ty.is64 [p] ++ one [q], dsts := wideD ty.is64 d }
     let e := envOf s b t u h
     let x := rdInt ty (rdVal s e h ty p)
     let k := (rdWord s e h q).toNat
     let out := fun (v : Int) => wrVal s e ty.is64 d (wrInt ty v)
     Ready s b t th .app u h →
      (ty.signed = false →
        Ends (.shl h ty d p q) s b t u h (out (if k ≥ n then 0 else x * (2 : Int) ^ k)) ∧
        Ends (.shr h ty d p q) s b t u h (out (if k ≥ n then 0 else x / (2 : Int) ^ k)) ∧
        Ends (.rotl h ty d p q) s b t u h (out (x * (2 : Int) ^ (k % n) + x / (2 : Int) ^ (n - k % n)))) ∧
      Ends (.sra h ty d p q) s b t u h (out (if k ≥ n then (if x < 0 then -1 else 0) else x / (2 : Int) ^ k))) ∧
    (let u : Uses := { srcs := wide ty.is64 [p, q] ++ one [r], dsts := wideD ty.is64 d }
     let e := envOf s b t u h
     let k := (rdWord s e h r).toNat % n
     Ready s b t th .app u h → ty.u32u64 = true →
      Ends (.fshl h ty d p q r) s b t u h (wrVal s e ty.is64 d
        (if k = 0 then rdVal s e h ty p
         else BitVec.ofNat 64 ((rdVal s e h ty p).toNat * 2 ^ k % 2 ^ n + (rdVal s e h ty q).toNat / 2 ^ (n - k))))) ∧
    (let u : Uses := { srcs := wide ty.is64 [p], dsts := [(d, 1)] }
     let e := envOf s b t u h
     let x := rdVal s e h ty p
     Ready s b t th .app u h →
      (∃ k, Ends (.popc h ty d p) s b t u h (wrWord s e d (BitVec.ofNat 32 k)) ∧ k = (List.range n).countP fun i => x.getLsbD i) ∧
      (ty.u32u64 = true → ∃ k, Ends (.clz h ty d p) s b t u h (wrWord s e d (BitVec.ofNat 32 k)) ∧
        (x = 0 → k = n) ∧ (x ≠ 0 → 2 ^ (n - 1 - k) ≤ x.toNat ∧ x.toNat < 2 ^ (n - k))) ∧
      (∃ k, Ends (.ctz h ty d p) s b t u h (wrWord s e d (BitVec.ofNat 32 k)) ∧
        (∀ i, i < k → x.getLsbD i = false) ∧ (k < n → x.getLsbD k = true) ∧ k ≤ n)) ∧
    (let u := ofType ty [p] d
     let e := envOf s b t u h
     Ready s b t th .app u h →
      ∃ v : DWord, Ends (.brev h ty d p) s b t u h (wrVal s e ty.is64 d v) ∧
        ∀ i, i < n → v.getLsbD i = (rdVal s e h ty p).getLsbD (n - 1 - i))

/-- Logic, moves, selections, shifts, rotations and counts of bits. -/
def Obligations.IntegerLogic : Prop := LogicOps ∧ ShiftOps

/-- R98, R99: the field of a descriptor, extracted and inserted; the bytes of a permutation. -/
def Obligations.IntegerFields : Prop :=
  ∀ (s : State) (b : Bundle) (t : Nat) (th : Thread) (h : Hdr) (ty : Ty) (d : Dst) (p q r : Src),
    let pos := fun (v : Word) => v.toNat % 256
    let len := fun (v : Word) => if v.toNat / 256 % 256 = 0 ∨ pos v ≥ 32 then 0 else min (v.toNat / 256 % 256) (32 - pos v)
    (let u := ofWords [p, q] d
     let e := envOf s b t u h
     let x := rdWord s e h p
     let y := rdWord s e h q
     Ready s b t th .app u h →
      ∃ v, Ends (.bfx h ty d p q) s b t u h (wrWord s e d v) ∧ ∀ i, i < 32 →
        v.getLsbD i = if i < len y then x.getLsbD (pos y + i)
          else decide (ty.signed = true ∧ len y > 0) && x.getLsbD (pos y + len y - 1)) ∧
    (let u := ofWords [p, q, r] d
     let e := envOf s b t u h
     let x := rdWord s e h p
     let y := rdWord s e h q
     let z := rdWord s e h r
     Ready s b t th .app u h →
      (∃ v, Ends (.bfi h ty d p q r) s b t u h (wrWord s e d v) ∧ ∀ i, i < 32 →
        v.getLsbD i = if pos z ≤ i ∧ i < pos z + len z then x.getLsbD (i - pos z) else y.getLsbD i) ∧
      (∃ v, Ends (.perm h d p q r) s b t u h (wrWord s e d v) ∧ ∀ i, i < 4 →
        let k := z.extractLsb' (4 * i) 4
        let m := ((y ++ x : DWord) >>> (8 * (k.toNat % 8))).setWidth 8
        v.extractLsb' (8 * i) 8 = if k.getLsbD 3 then (if m.getLsbD 7 then 0xFF#8 else 0) else m))

/-- R100 to R103: comparisons, the table of three predicates, scaled addresses, and carries through predicates. -/
def Obligations.IntegerPredicates : Prop :=
  ∀ (s : State) (b : Bundle) (t : Nat) (th : Thread) (h : Hdr) (ty : Ty) (d : Dst) (p q : Src) (kd ka kb kc : Pred) (n : BitVec 3),
    (let u : Uses := { srcs := wide ty.is64 [p, q] }
     let e := envOf s b t u h
     let x := rdInt ty (rdVal s e h ty p)
     let y := rdInt ty (rdVal s e h ty q)
     Ready s b t th .app u h →
      Ends (.icmp h ty .eq kd p q) s b t u h (wrPred s e kd (decide (x = y))) ∧
      Ends (.icmp h ty .ne kd p q) s b t u h (wrPred s e kd (decide (x ≠ y))) ∧
      Ends (.icmp h ty .lt kd p q) s b t u h (wrPred s e kd (decide (x < y))) ∧
      Ends (.icmp h ty .le kd p q) s b t u h (wrPred s e kd (decide (x ≤ y))) ∧
      Ends (.icmp h ty .gt kd p q) s b t u h (wrPred s e kd (decide (x > y))) ∧
      Ends (.icmp h ty .ge kd p q) s b t u h (wrPred s e kd (decide (x ≥ y)))) ∧
    (let u : Uses := { ks := [ka, kb, kc] }
     let e := envOf s b t u h
     Ready s b t th .app u h →
      Ends (.plog h kd ka kb kc) s b t u h (wrPred s e kd
        (h.imm.getLsbD ((if rdPred s e ka then 4 else 0) + (if rdPred s e kb then 2 else 0) + (if rdPred s e kc then 1 else 0))))) ∧
    (let u : Uses := { srcs := wide true [p] ++ wide ty.is64 [q], dsts := wideD true d }
     let e := envOf s b t u h
     let x := if ty = .u64 then rdPair s e h q else if ty = .s32 then (rdWord s e h q).signExtend 64 else (rdWord s e h q).setWidth 64
     Ready s b t th .app u h →
      Ends (.lea h ty n d p q) s b t u h (wrPair s e d (rdPair s e h p + x * 2 ^ n.toNat))) ∧
    (let u : Uses := { ofType ty [p, q] d with ks := [kc] }
     let e := envOf s b t u h
     let x := rdInt ty (rdVal s e h ty p)
     let y := rdInt ty (rdVal s e h ty q)
     let c : Int := if rdPred s e kc then 1 else 0
     Ready s b t th .app u h →
      Ends (.iaddc h ty kd d p q kc) s b t u h
        (wrPred (wrVal s e ty.is64 d (wrInt ty (x + y + c))) e kd (decide (x + y + c ≥ (2 : Int) ^ ty.bits))) ∧
      Ends (.isubb h ty kd d p q kc) s b t u h
        (wrPred (wrVal s e ty.is64 d (wrInt ty (x - y - c))) e kd (decide (x - y - c < 0))))

/-- R104, R105: sums over the bytes of two words; narrowing that always saturates, and widening of one element. -/
def Obligations.IntegerBytes : Prop :=
  ∀ (s : State) (b : Bundle) (t : Nat) (th : Thread) (h : Hdr) (ty : Ty) (sat : Bool) (d : Dst) (p q r : Src),
    let el := fun (v : Word) (i : Nat) => if ty.signed then (byteAt v i).toInt else ((byteAt v i).toNat : Int)
    (let u := ofWords [p, q, r] d
     let e := envOf s b t u h
     let x := rdWord s e h p
     let y := rdWord s e h q
     let z := rdWord s e h r
     Ready s b t th .app u h →
      Ends (.idp4 h ty sat d p q r) s b t u h
        (if ty.signed then putInt s e .s32 sat d (z.toInt + (el x 0 * el y 0 + el x 1 * el y 1 + el x 2 * el y 2 + el x 3 * el y 3))
         else putInt s e .u32 sat d (z.toNat + (el x 0 * el y 0 + el x 1 * el y 1 + el x 2 * el y 2 + el x 3 * el y 3))) ∧
      Ends (.isad h ty sat d p q r) s b t u h
        (putInt s e .u32 sat d (z.toNat + ((el x 0 - el y 0).natAbs + (el x 1 - el y 1).natAbs + (el x 2 - el y 2).natAbs +
          (el x 3 - el y 3).natAbs : Nat)))) ∧
    (let u := ofWords [p, q] d
     let e := envOf s b t u h
     let x := rdWord s e h p
     let y := rdWord s e h q
     let near := fun (v : Int) => if v < tyMin ty then tyMin ty else if tyMax ty < v then tyMax ty else v
     let off := fun (v : Int) => decide (v < tyMin ty ∨ tyMax ty < v)
     Ready s b t th .app u h →
      (ty.bits = 16 → ∃ v, Ends (.pack h ty d p q) s b t u h (putWord s e d v (off x.toInt || off y.toInt)) ∧
        halfAt v 0 = BitVec.ofInt 16 (near x.toInt) ∧ halfAt v 1 = BitVec.ofInt 16 (near y.toInt) ∧
        Ends (.unpk h ty d p q) s b t u h (wrWord s e d
          (if ty.signed then (halfAt x (y.toNat % 2)).signExtend 32 else (halfAt x (y.toNat % 2)).setWidth 32))) ∧
      (ty.bits = 8 → ∃ v, Ends (.pack h ty d p q) s b t u h (putWord s e d v
          (off (halfAt x 0).toInt || off (halfAt x 1).toInt || off (halfAt y 0).toInt || off (halfAt y 1).toInt)) ∧
        byteAt v 0 = BitVec.ofInt 8 (near (halfAt x 0).toInt) ∧ byteAt v 1 = BitVec.ofInt 8 (near (halfAt x 1).toInt) ∧
        byteAt v 2 = BitVec.ofInt 8 (near (halfAt y 0).toInt) ∧ byteAt v 3 = BitVec.ofInt 8 (near (halfAt y 1).toInt) ∧
        Ends (.unpk h ty d p q) s b t u h (wrWord s e d
          (if ty.signed then (byteAt x (y.toNat % 4)).signExtend 32 else (byteAt x (y.toNat % 4)).setWidth 32))))

/-- The frame of the integer and the float class (R94, R115): no register but the destination, no predicate but the one named,
no memory, no counter and nothing of any other thread changes; SAT is only ever set. -/
def Obligations.ArithmeticFrame : Prop :=
  ∀ (s : State) (b : Bundle) (t : Nat) (th : Thread) (i : Instr) (a : Bool × Alu),
    aluOf i = some a → Ready s b t th .app a.2.uses a.2.h →
      ∃ w, exec i s = .next w ∧ OnlyRegisters s w b.core t a.2.uses ∧ ∀ n, peek w.mem n = peek s.mem n

/-! ### The float class -/

namespace Sys2Proof.Machine
/-- A source read in a float type: its low bits (R51). -/
def pat (s : State) (e : Env) (h : Hdr) (ty : Ty) (p : Src) : Nat := (rdWord s e h p).toNat % 2 ^ ty.bits
/-- The first NaN among the sources, made quiet, else the result (R60, R115). -/
def nanElse (ty : Ty) (l : List Nat) (v : Nat) : Nat := (firstNan (Ty.fmt ty) l).getD v
/-- The exact sum of two finite values, rounded once, with the zero signs of R116. -/
def sumOf (ty : Ty) (rm : Rm) (x y : Dy) : Nat :=
  let e := min x.e y.e
  let v := x.at e + y.at e
  if v = 0 then (Ty.fmt ty).put (if x.s = y.s then x.s else decide (rm = .rd)) 0 else roundF (Ty.fmt ty) rm (decide (v < 0)) v.natAbs 1 e
end Sys2Proof.Machine

/-- R115 to R117: the first NaN among the sources, made quiet; the event NaN of an invalid operation, with the cause and the
instruction's own address; else the exact result rounded once. -/
def Obligations.FloatArithmetic : Prop :=
  ∀ (s : State) (b : Bundle) (t : Nat) (th : Thread) (h : Hdr) (ty : Ty) (rm : Rm) (d : Dst) (p q r : Src),
    let f := Ty.fmt ty
    let out := fun (e : Env) (v : Nat) => wrWord s e d (BitVec.ofNat 32 v)
    (let u := ofWords [p, q] d
     let e := envOf s b t u h
     let x := pat s e h ty p
     let y := pat s e h ty q
     let sg := f.sign x != f.sign y
     Ready s b t th .app u h →
      Ends (.fadd h ty rm d p q) s b t u h (out e (nanElse ty [x, y]
        (if f.isInf x ∧ f.isInf y then (if sg then eventNan ty 1 th.pc else x)
         else if f.isInf x then x else if f.isInf y then y else sumOf ty rm (f.dy x) (f.dy y)))) ∧
      Ends (.fsub h ty rm d p q) s b t u h (out e (nanElse ty [x, y]
        (if f.isInf x ∧ f.isInf y then (if sg then x else eventNan ty 1 th.pc)
         else if f.isInf x then x else if f.isInf y then negV f y else sumOf ty rm (f.dy x) (f.dy (negV f y))))) ∧
      Ends (.fmul h ty rm d p q) s b t u h (out e (nanElse ty [x, y]
        (if (f.isInf x ∧ f.isZero y) ∨ (f.isZero x ∧ f.isInf y) then eventNan ty 2 th.pc
         else if f.isInf x ∨ f.isInf y then f.put sg f.infM
         else roundF f rm sg ((f.dy x).m * (f.dy y).m) 1 ((f.dy x).e + (f.dy y).e)))) ∧
      Ends (.fdiv h ty rm d p q) s b t u h (out e (nanElse ty [x, y]
        (if f.isZero x ∧ f.isZero y then eventNan ty 3 th.pc
         else if f.isInf x ∧ f.isInf y then eventNan ty 4 th.pc
         else if f.isInf x ∨ f.isZero y then f.put sg f.infM
         else if f.isInf y then f.put sg 0
         else roundF f rm sg (f.dy x).m (f.dy y).m ((f.dy x).e - (f.dy y).e))))) ∧
    (let u := ofWords [p, q, r] d
     let e := envOf s b t u h
     let x := pat s e h ty p
     let y := pat s e h ty q
     let z := pat s e h ty r
     let sg := f.sign x != f.sign y
     Ready s b t th .app u h →
      Ends (.fma h ty rm d p q r) s b t u h (out e (nanElse ty [x, y, z]
        (if (f.isInf x ∧ f.isZero y) ∨ (f.isZero x ∧ f.isInf y) then eventNan ty 2 th.pc
         else if f.isInf x ∨ f.isInf y then (if f.isInf z ∧ f.sign z ≠ sg then eventNan ty 1 th.pc else f.put sg f.infM)
         else if f.isInf z then z
         else sumOf ty rm ⟨sg, (f.dy x).m * (f.dy y).m, (f.dy x).e + (f.dy y).e⟩ (f.dy z)))))

/-- R118 to R122: minimum and maximum with −0 below +0, the sign operations on all but NaNs, comparisons that are ordered or not,
the ten classes, and rounding to an integral value: large values stand, others take the integer that the mode gives, with their sign. -/
def Obligations.FloatOrder : Prop :=
  ∀ (s : State) (b : Bundle) (t : Nat) (th : Thread) (h : Hdr) (ty : Ty) (rm : Rm) (d : Dst) (p q : Src) (kd : Pred),
    ty.isFloat = true →
    let f := Ty.fmt ty
    let out := fun (e : Env) (v : Nat) => wrWord s e d (BitVec.ofNat 32 v)
    let val := fun (v : Nat) => if f.sign v then -(f.mag v : Int) else f.mag v
    let below := fun (v w : Nat) => decide (val v < val w ∨ (val v = val w ∧ f.sign v = true ∧ f.sign w = false))
    (let u := ofWords [p] d
     let e := envOf s b t u h
     let x := pat s e h ty p
     Ready s b t th .app u h →
      Ends (.fabs h ty d p) s b t u h (out e (nanElse ty [x] (f.mag x))) ∧
      Ends (.fneg h ty d p) s b t u h (out e (nanElse ty [x] (f.put (!f.sign x) (f.mag x)))) ∧
      (∃ v, Ends (.fclass h ty d p) s b t u h (out e v) ∧
        (f.isNan x = true → v = (if x.testBit (f.fb - 1) then 512 else 256) + 65536 * (if ty = .f32 then x / 65536 % 64 else x % 64)) ∧
        (f.isNan x = false → ∃ k, k < 8 ∧ v = 2 ^ k ∧ (k < 4 ↔ f.sign x = true) ∧
          ((k = 0 ∨ k = 7) ↔ f.isInf x = true) ∧ ((k = 3 ∨ k = 4) ↔ f.isZero x = true) ∧ ((k = 2 ∨ k = 5) ↔ f.isSub x = true))) ∧
      (∃ v, Ends (.frnd h ty rm d p) s b t u h (out e (nanElse ty [x] v)) ∧
        (f.isZero x = true ∨ (f.bias + f.fb) * 2 ^ f.fb ≤ f.mag x → v = x) ∧
        (f.mag x < (f.bias + f.fb) * 2 ^ f.fb → f.sign v = f.sign x ∧
          (f.dy v).m * 2 ^ ((f.dy v).e + 149).toNat = (roundZ rm (f.dy x)).natAbs * 2 ^ 149))) ∧
    (let u := ofWords [p, q] d
     let e := envOf s b t u h
     let x := pat s e h ty p
     let y := pat s e h ty q
     Ready s b t th .app u h →
      Ends (.fmin h ty d p q) s b t u h (out e (nanElse ty [x, y] (if below y x then y else x))) ∧
      Ends (.fmax h ty d p q) s b t u h (out e (nanElse ty [x, y] (if below x y then y else x))) ∧
      Ends (.fcpsg h ty d p q) s b t u h (out e (nanElse ty [x, y] (f.put (f.sign y) (f.mag x))))) ∧
    (let u : Uses := { srcs := one [p, q], kds := [kd] }
     let e := envOf s b t u h
     let x := pat s e h ty p
     let y := pat s e h ty q
     let nan := f.isNan x || f.isNan y
     Ready s b t th .app u h →
      Ends (.fcmp h ty .eq kd p q) s b t u h (wrPred s e kd (!nan && decide (val x = val y))) ∧
      Ends (.fcmp h ty .ne kd p q) s b t u h (wrPred s e kd (nan || decide (val x ≠ val y))) ∧
      Ends (.fcmp h ty .lt kd p q) s b t u h (wrPred s e kd (!nan && decide (val x < val y))) ∧
      Ends (.fcmp h ty .le kd p q) s b t u h (wrPred s e kd (!nan && decide (val x ≤ val y))) ∧
      Ends (.fcmp h ty .gt kd p q) s b t u h (wrPred s e kd (!nan && decide (val x > val y))) ∧
      Ends (.fcmp h ty .ge kd p q) s b t u h (wrPred s e kd (!nan && decide (val x ≥ val y))) ∧
      Ends (.fcmp h ty .un kd p q) s b t u h (wrPred s e kd nan) ∧
      Ends (.fcmp h ty .ord kd p q) s b t u h (wrPred s e kd (!nan)))

/-- R61, R62, R123 to R128: every conversion rounds, then takes the nearest bound and sets SAT; NaNs and infinities; the trit
formats and the aligner. -/
def Obligations.Conversions : Prop :=
  ∀ (s : State) (b : Bundle) (t : Nat) (th : Thread) (h : Hdr) (dt st : Ty) (rm : Rm) (sat : Bool) (d : Dst) (p q : Src),
    let f := Ty.fmt dt
    let g := Ty.fmt st
    let near := fun (lo hi v : Int) => if v < lo then lo else if hi < v then hi else v
    let off := fun (lo hi v : Int) => decide (v < lo ∨ hi < v)
    -- a float rounded to an integer between two bounds, and whether it sets SAT
    let toInt := fun (x : Nat) (m : Rm) (lo hi : Int) =>
      if g.isNan x then ((0 : Int), true)
      else if g.isInf x then (if g.sign x then lo else hi, true)
      else (near lo hi (roundZ m (g.dy x)), off lo hi (roundZ m (g.dy x)))
    let satIf := fun (e : Env) (c : Bool) (v : State) => if c then setSat v e.c e.t else v
    -- a value rounded to the float destination, and whether it sets SAT
    let toFlt := fun (m : Nat) => (min m f.maxM, decide (f.maxM < m))
    (let u : Uses := { srcs := one [p], dsts := [(d, 1)] }
     let e := envOf s b t u h
     let x := pat s e h st p
     Ready s b t th .app u h →
      Ends (.fcvt h dt st rm sat d p) s b t u h
        (if g.isNan x then
          putWord s e d (BitVec.ofNat 32 (f.put (g.sign x) (f.infM + f.quiet + nanCause st x * (if dt = .bf16 ∨ dt = .f16 then 1 else 65536))))
         else if g.isInf x then putWord s e d (BitVec.ofNat 32 (f.put (g.sign x) (if sat then f.maxM else f.infM))) sat
         else
          let m := toFlt (roundM f rm (g.sign x) (g.dy x).m 1 (g.dy x).e)
          putWord s e d (BitVec.ofNat 32 (f.put (g.sign x) m.1)) m.2)) ∧
    (let u : Uses := { srcs := one [p], dsts := wideD dt.is64 d }
     let e := envOf s b t u h
     let v := toInt (pat s e h st p) rm (tyMin dt) (tyMax dt)
     Ready s b t th .app u h →
      Ends (.f2i h dt st rm d p) s b t u h (satIf e v.2 (wrVal s e dt.is64 d (wrInt dt v.1)))) ∧
    (let u : Uses := { srcs := wide st.is64 [p], dsts := [(d, 1)] }
     let e := envOf s b t u h
     let x := rdInt st (rdVal s e h st p)
     let m := toFlt (roundM f rm (decide (x < 0)) x.natAbs 1 0)
     Ready s b t th .app u h →
      Ends (.i2f h dt st rm d p) s b t u h (putWord s e d (BitVec.ofNat 32 (f.put (decide (x < 0)) m.1)) m.2)) ∧
    (let u : Uses := { srcs := one [p], dsts := [(d, 1)] }
     let e := envOf s b t u h
     let x := (rdWord s e h p).toInt
     let c := (byteAt (rdWord s e h p) 0).toNat
     let five := if c ≥ 243 then (0 : Int) else (c : Int) - 121
     Ready s b t th .app u h →
      Ends (.tcvt h .t5 .s32 rm d p none) s b t u h (putWord s e d (BitVec.ofInt 32 (near (-121) 121 x + 121)) (off (-121) 121 x)) ∧
      Ends (.tcvt h .t11 .s32 rm d p none) s b t u h
        (putWord s e d (BitVec.ofInt 32 (near (-32768) 32767 x % 65536)) (off (-32768) 32767 x)) ∧
      Ends (.tcvt h .s32 .t5 rm d p none) s b t u h (putWord s e d (BitVec.ofInt 32 five) (decide (c ≥ 243))) ∧
      Ends (.tcvt h .s32 .t11 rm d p none) s b t u h (putWord s e d ((halfAt (rdWord s e h p) 0).signExtend 32)) ∧
      (let y := (halfAt (rdWord s e h p) 0).toInt
       Ends (.tcvt h .f32 .t5 rm d p none) s b t u h
          (putWord s e d (BitVec.ofNat 32 (i2fV .f32 .rne five).1) (decide (c ≥ 243))) ∧
       Ends (.tcvt h .f32 .t11 rm d p none) s b t u h (putWord s e d (BitVec.ofNat 32 (i2fV .f32 .rne y).1))) ∧
      (st = .f32 →
        let r5 := toInt (pat s e h .f32 p) rm (-121) 121
        let r11 := toInt (pat s e h .f32 p) rm (-32768) 32767
        Ends (.tcvt h .t5 .f32 rm d p none) s b t u h (putWord s e d (BitVec.ofInt 32 (r5.1 + 121)) r5.2) ∧
        Ends (.tcvt h .t11 .f32 rm d p none) s b t u h (putWord s e d (BitVec.ofInt 32 (r11.1 % 65536)) r11.2))) ∧
    (let u : Uses := { srcs := one [p, q], dsts := [(d, 1)] }
     let e := envOf s b t u h
     let x := rdWord s e h p
     let y := rdWord s e h q
     let el := fun (i : Nat) => if i = 4 then (byteAt y 0).toInt else (byteAt x i).toInt
     let trit := fun (i : Nat) => near (-1) 1 (el i) + 1
     let c := (byteAt x 0).toNat
     let digit := fun (i : Nat) => if c ≥ 243 then 0#8 else BitVec.ofInt 8 (((c / 3 ^ i % 3 : Nat) : Int) - 1)
     Ready s b t th .app u h →
      Ends (.tcvt h .t1 .s8 rm d p (some q)) s b t u h
        (putWord s e d (BitVec.ofInt 32 (trit 0 + 3 * trit 1 + 9 * trit 2 + 27 * trit 3 + 81 * trit 4))
          (off (-1) 1 (el 0) || off (-1) 1 (el 1) || off (-1) 1 (el 2) || off (-1) 1 (el 3) || off (-1) 1 (el 4))) ∧
      Ends (.tcvt h .s8 .t1 rm d p (some q)) s b t u h
        (putWord s e d (if y.getLsbD 0 then ofBytes4 (digit 4) 0 0 0 else ofBytes4 (digit 0) (digit 1) (digit 2) (digit 3))
          (decide (c ≥ 243)))) ∧
    (let u : Uses := { srcs := one [p], dsts := [(d, 1)] }
     let e := envOf s b t u h
     let f := Ty.fmt .f32
     let x := (rdWord s e h p).toNat
     -- R72: the least exponent at which the magnitude, rounded, is within the bound
     let least := fun (lim n : Nat) => (roundZ .rne ⟨false, (f.dy x).m, (f.dy x).e + 133 - (n : Int)⟩).natAbs ≤ lim
     Ready s b t th .app u h →
      ∀ op lim, (op = BxOp.expA ∧ lim = 127) ∨ (op = BxOp.expB ∧ lim = 121) →
        ∃ n : Nat, Ends (.bxal h op d p none) s b t u h (putWord s e d (BitVec.ofNat 32 n) (f.isNan x || f.isInf x)) ∧ n < 256 ∧
          (f.isNan x = true ∨ f.isInf x = true ∨ f.isZero x = true → n = 0) ∧
          (f.isNan x = false → f.isInf x = false → f.isZero x = false →
            (∀ m, m < n → ¬ least lim m) ∧ (least lim 255 → least lim n))) ∧
    (let u : Uses := { srcs := one [p, q], dsts := [(d, 1)] }
     let e := envOf s b t u h
     let f := Ty.fmt .f32
     let x := (rdWord s e h p).toNat
     let n := (byteAt (rdWord s e h q) 0).toNat
     Ready s b t th .app u h →
      (∀ (op : BxOp) (lim : Int), (op = .manA ∧ lim = 127) ∨ (op = .manB ∧ lim = 121) →
        let v := roundZ .rne ⟨f.sign x, (f.dy x).m, (f.dy x).e + 133 - n⟩
        Ends (.bxal h op d p (some q)) s b t u h
          (if f.isNan x then putWord s e d 0 true
           else if f.isInf x then putWord s e d ((BitVec.ofInt 8 (if f.sign x then -lim else lim)).setWidth 32) true
           else putWord s e d ((BitVec.ofInt 8 (near (-lim) lim v)).setWidth 32) (off (-lim) lim v))) ∧
      (let m := (byteAt (rdWord s e h p) 0).toInt
       let r := roundM f .rne (decide (m < 0)) m.natAbs 1 ((n : Int) - 133)
       Ends (.bxal h .dec d p (some q)) s b t u h
        (putWord s e d (BitVec.ofNat 32 (f.put (decide (m < 0)) (min r f.maxM))) (decide (f.maxM < r)))))

/-- R129: each function completes with one value, which its type, grade, mode and input fix, and an event NaN its address as well. -/
def Sys2Proof.Machine.FunctionEnds : Prop :=
  ∀ (s : State) (b : Bundle) (t : Nat) (th : Thread) (h : Hdr) (ty : Ty) (acc : Bool) (rm : Rm) (d : Dst) (p : Src),
    let u := ofWords [p] d
    let e := envOf s b t u h
    let out := fun (fn : Fn) (m : Rm) => wrWord s e d (BitVec.ofNat 32 (fnV fn ty acc m th.pc (pat s e h ty p)))
    Ready s b t th .app u h →
      Ends (.fexp2 h ty acc d p) s b t u h (out .exp2 .rne) ∧
      Ends (.flog2 h ty acc d p) s b t u h (out .log2 .rne) ∧
      Ends (.frcp h ty acc rm d p) s b t u h (out .rcp rm) ∧
      Ends (.frsqrt h ty acc d p) s b t u h (out .rsqrt .rne) ∧
      Ends (.fsqrt h ty acc rm d p) s b t u h (out .sqrt rm) ∧
      Ends (.fsin h ty acc d p) s b t u h (out .sin .rne) ∧
      Ends (.fcos h ty acc d p) s b t u h (out .cos .rne) ∧
      Ends (.ftanh h ty acc d p) s b t u h (out .tanh .rne) ∧
      Ends (.fsigm h ty acc d p) s b t u h (out .sigm .rne) ∧
      Ends (.ferf h ty acc d p) s b t u h (out .erf .rne)

/-- R129, R131, R132: the value depends on the address in an event NaN only; the fast grade writes no subnormal; the accurate
reciprocal is correctly rounded; every other value of f32 that R130 does not fix lies within the bound of R131 around the value in fixed
point, or is that value rounded to nearest (log 19). -/
def Sys2Proof.Machine.FunctionBounds : Prop :=
  ∀ (fn : Fn) (ty : Ty) (acc : Bool) (rm : Rm) (pc pc' : DWord) (x : Nat), ty.isFloat = true → x < 2 ^ ty.bits →
    let f := Ty.fmt .f32
    let v := fnV fn ty acc rm pc x
    (v = fnV fn ty acc rm pc' x ∨ ∃ c, v = eventNan ty c pc ∧ fnV fn ty acc rm pc' x = eventNan ty c pc') ∧
    (acc = false → (Ty.fmt ty).isSub v = false) ∧
    (ty = .f32 → f.isNan x = false → f.isInf x = false → f.isZero x = false →
      (acc = true → fn = .rcp → v = roundF f rm (f.sign x) 1 (f.dy x).m (-(f.dy x).e)) ∧
      (fn ≠ .rcp ∨ acc = false → fn ≠ .sqrt ∨ acc = false → fnInvalid fn x = none → fnSpecial fn x = none →
        fnExactCase fn (f.dy x) = none → (acc = true ∨ (fnReduced fn x = true ∧ f.isSub x = false ∧ f.isSub v = false ∧ v ≠ 0 ∧ v ≠ f.put true 0)) →
        (fn = .exp2 → fVal f x < fVal f 0x43000000) →
        let y := fnExact fn (f.dy x)
        fnWithin fn acc y v = true ∨ v = roundF f .rne (y < 0) y.natAbs 1 (-480)))

/-- R129, R130: a NaN first; then, for f32, the special inputs, the invalid sets with their causes, and the reduced domain of the
fast grade; one fixed result for each input (R132). -/
def Sys2Proof.Machine.FunctionValues : Prop :=
  ∀ (s : State) (b : Bundle) (t : Nat) (th : Thread) (h : Hdr) (ty : Ty) (acc : Bool) (rm : Rm) (d : Dst) (p : Src),
    let u := ofWords [p] d
    let e := envOf s b t u h
    let f := Ty.fmt .f32
    let x := pat s e h ty p
    let inf := f.infM
    let neg := fun (v : Nat) => f.put true v
    let one' := 0x3F800000
    -- results at +0, −0, +inf, −inf (an event NaN where the input is invalid)
    let bad := fun (c : Nat) => eventNan .f32 c th.pc
    let rows : List (Instr × Nat × Nat × Nat × Nat) := [
      (.fexp2 h ty acc d p, one', one', inf, 0), (.flog2 h ty acc d p, neg inf, neg inf, inf, bad 6),
      (.frcp h ty acc rm d p, inf, neg inf, 0, neg 0), (.frsqrt h ty acc d p, inf, neg inf, 0, bad 5),
      (.fsqrt h ty acc rm d p, 0, neg 0, inf, bad 5), (.fsin h ty acc d p, 0, neg 0, bad 7, bad 7),
      (.fcos h ty acc d p, one', one', bad 7, bad 7), (.ftanh h ty acc d p, 0, neg 0, one', neg one'),
      (.fsigm h ty acc d p, 0x3F000000, 0x3F000000, one', 0), (.ferf h ty acc d p, 0, neg 0, one', neg one')]
    Ready s b t th .app u h →
      ∀ r ∈ rows, ∃ v, Ends r.1 s b t u h (wrWord s e d (BitVec.ofNat 32 v)) ∧
        (∀ n, firstNan (Ty.fmt ty) [x] = some n → v = n) ∧
        (ty = .f32 → (x = 0 → v = r.2.1) ∧ (x = neg 0 → v = r.2.2.1) ∧ (x = inf → v = r.2.2.2.1) ∧ (x = neg inf → v = r.2.2.2.2))

/-- R130: the invalid sets at finite inputs, the reduced domains of the fast grade, and the exact cases, for f32. -/
def Sys2Proof.Machine.FunctionDomains : Prop :=
  ∀ (acc : Bool) (rm : Rm) (pc : DWord) (x : Nat), x < 2 ^ 32 →
    let f := Ty.fmt .f32
    let fin := f.isNan x = false ∧ f.isInf x = false ∧ f.isZero x = false
    (fin → f.sign x = true → (acc = true ∨ f.isSub x = false) →
      fnV .log2 .f32 acc rm pc x = eventNan .f32 6 pc ∧ fnV .rsqrt .f32 acc rm pc x = eventNan .f32 5 pc ∧
      fnV .sqrt .f32 acc rm pc x = eventNan .f32 5 pc) ∧
    (fin → f.mag x > 0x43800000 →
      fnV .sin .f32 false rm pc x = eventNan .f32 8 pc ∧ fnV .cos .f32 false rm pc x = eventNan .f32 8 pc) ∧
    (fin → f.mag x > 0x7E800000 → fnV .rcp .f32 false rm pc x = eventNan .f32 8 pc) ∧
    (fin → f.sign x = false → 0x43000000 ≤ f.mag x → fnV .exp2 .f32 false rm pc x = eventNan .f32 8 pc) ∧
    fnV .log2 .f32 acc rm pc 0x3F800000 = 0 ∧ fnV .exp2 .f32 acc rm pc 0x40400000 = 0x41000000 ∧
    fnV .sqrt .f32 true .rne pc 0x40800000 = 0x40000000 ∧ fnV .rcp .f32 true .rne pc 0x40800000 = 0x3E800000

/-- R129 to R132: each function of the class completes; its special inputs, its invalid set and its domain fix the result, and elsewhere the
bounds hold. Between the bounds the result is a free value (log 19). -/
def Obligations.Functions : Prop := FunctionEnds ∧ FunctionValues ∧ FunctionDomains ∧ FunctionBounds

/-! ### Control flow -/

/-- R106, R107, R16, R31: a branch goes to a target that passes the check, and raises what the check finds otherwise. -/
def Sys2Proof.Machine.Branches : Prop :=
  ∀ (s : State) (b : Bundle) (t : Nat) (th : Thread) (h : Hdr) (a : Src),
    (let tgt := lineOf th.pc + (h.imm.sshiftRight 3).signExtend 64 * 64 + 12 * BitVec.ofNat 64 (h.imm.toNat % 8)
     Ready s b t th .app {} h →
      (∀ v, checkTarget s b.core tgt = (v, none) → (v.thr? b.core t).isSome = true → Jumps (.br h) s b t {} h tgt v) ∧
      (isInstrAddr tgt = false → Raises (.br h) s b t 0x03)) ∧
    (let u : Uses := { srcs := wide true [a] }
     let tgt := rdPair s (envOf s b t u h) h a
     Ready s b t th .app u h →
      (∀ v, checkTarget s b.core tgt = (v, none) → (v.thr? b.core t).isSome = true → Jumps (.brx h a) s b t u h tgt v) ∧
      (isInstrAddr tgt = false → Raises (.brx h a) s b t 0x03)) ∧
    (∀ (l : FLine) (pc : DWord), fbuf? s b.core pc = some l → l.bad = false → isInstrAddr pc = true →
      checkTarget s b.core pc = (s, if (targetMask l.data).getLsbD (slotOf pc) then none else some { code := 0x01, addr := pc }))

/-- R108, R109: four return addresses stand on the chip, the oldest goes to the spill area, and a fifth call without one raises
0x10; returns pop in the opposite order; `cstk` sets the area while nothing is spilled. -/
def Sys2Proof.Machine.Calls : Prop :=
  ∀ (s : State) (b : Bundle) (t : Nat) (th : Thread) (h : Hdr) (a c : Src),
    let pushed := fun (v : State) => v.modThr b.core t fun x => { x with stack := th.stack ++ [nextPc th.pc] }
    -- the oldest address goes to the spill area, where the check of the store passes
    let spill := fun (e : Env) (v v' : State) => ∃ s2 hs,
      let va := (th.spBase.toNat + 8 * th.spilled.toNat) % 2 ^ 64
      let w := s2.actWorld b.core t
      let l := bytesOf 8 (th.stack.headD 0).toNat
      let s3 := storeL1 (captureRange s2 b.core t .g va 8) b.core w va l hs
      let s4 := enterSig (homeWriteN s3 w (dieOf b.core) va l hs) b.core (s3.sigId b.core t) va
      spillCheck v e va .store = .ok s2 hs ∧ (s4.thr? b.core t).isSome = true ∧
        v' = s4.modThr b.core t fun x => { x with stack := th.stack.drop 1 ++ [nextPc th.pc], spilled := x.spilled + 1 }
    (let tgt := lineOf th.pc + (h.imm.sshiftRight 3).signExtend 64 * 64 + 12 * BitVec.ofNat 64 (h.imm.toNat % 8)
     Ready s b t th .app {} h → ∀ v, checkTarget s b.core tgt = (v, none) → v.thr? b.core t = some th →
      (th.stack.length < 4 → Jumps (.call h) s b t {} h tgt (pushed v)) ∧
      (th.stack.length = 4 → th.spLimit = 0 ∨ th.spilled.toNat * 8 + 8 > th.spLimit.toNat →
        ∃ w, exec (.call h) s = .next w ∧ Raised v w b.core t 0x10 0) ∧
      (th.stack.length = 4 → th.spLimit ≠ 0 → th.spilled.toNat * 8 + 8 ≤ th.spLimit.toNat → ∀ v', spill (envOf s b t {} h) v v' →
        Jumps (.call h) s b t {} h tgt v')) ∧
    (let u : Uses := { srcs := wide true [a] }
     let tgt := rdPair s (envOf s b t u h) h a
     Ready s b t th .app u h → ∀ v, checkTarget s b.core tgt = (v, none) → v.thr? b.core t = some th →
      (th.stack.length < 4 → Jumps (.callx h a) s b t u h tgt (pushed v)) ∧
      (th.stack.length = 4 → th.spLimit = 0 ∨ th.spilled.toNat * 8 + 8 > th.spLimit.toNat →
        ∃ w, exec (.callx h a) s = .next w ∧ Raised v w b.core t 0x10 0) ∧
      (th.stack.length = 4 → th.spLimit ≠ 0 → th.spilled.toNat * 8 + 8 ≤ th.spLimit.toNat → ∀ v', spill (envOf s b t u h) v v' →
        Jumps (.callx h a) s b t u h tgt v')) ∧
    (Ready s b t th .app {} h → ∀ (l : List DWord) (pc : DWord) (v : State),
      th.stack = l ++ [pc] → checkTarget s b.core pc = (v, none) → v.thr? b.core t = some th →
        Jumps (.ret h) s b t {} h pc (v.modThr b.core t fun x => { x with stack := l })) ∧
    (Ready s b t th .app {} h → th.stack = [] → th.spilled = 0 → Raises (.ret h) s b t 0x10) ∧
    -- a return at depth 0 refills from the newest spilled address
    (Ready s b t th .app {} h → th.stack = [] → th.spilled ≠ 0 →
      let va := (th.spBase.toNat + 8 * (th.spilled.toNat - 1)) % 2 ^ 64
      let w := s.actWorld b.core t
      (∀ code, spillCheck s (envOf s b t {} h) va .load = .bad code → Raises (.ret h) s b t 0x10) ∧
      ∀ s2 hs v, spillCheck s (envOf s b t {} h) va .load = .ok s2 hs → poisoned s2 w va 8 hs = false →
        let pc := BitVec.ofNat 64 (natOf (homeBytes s2 w va 8 hs))
        checkTarget (hs.foldl (fun z x => fillL2 z w x 3) s2) b.core pc = (v, none) → (v.thr? b.core t).isSome = true →
          Jumps (.ret h) s b t {} h pc (v.modThr b.core t fun x => { x with spilled := x.spilled - 1 })) ∧
    (let u : Uses := { srcs := [(a, 2), (c, 1)] }
     let e := envOf s b t u h
     let base := rdPair s e h a
     let lim := rdWord s e h c
     Ready s b t th .app u h →
      (base.toNat % 8 = 0 → lim.toNat % 8 = 0 → th.spilled = 0 →
        Ends (.cstk h a c) s b t u h (s.modThr b.core t fun x => { x with spBase := base, spLimit := lim })) ∧
      (base.toNat % 8 ≠ 0 ∨ lim.toNat % 8 ≠ 0 → Raises (.cstk h a c) s b t 0x03) ∧
      (base.toNat % 8 = 0 → lim.toNat % 8 = 0 → th.spilled ≠ 0 → Raises (.cstk h a c) s b t 0x10))

/-- Transfers: the branches, and the calls with the returns from them. -/
def Obligations.ControlTransfers : Prop := Branches ∧ Calls

/-- R86, R87, R90: `spawn` appends a record to the core's queue after a release at package scope, and raises 0x11 where the queue is
full; `tail` frees the slot without waiting for stores; `exit` increments the counter at its address and frees the slot. -/
def Obligations.ThreadEnds : Prop :=
  ∀ (s : State) (b : Bundle) (t : Nat) (th : Thread) (h : Hdr) (a c d : Src) (q8 : BitVec 5) (sc : Scope) (ev : BitVec 3),
    (let u : Uses := { srcs := [(a, 2), (c, 1), (d, 1)] }
     let e := envOf s b t u h
     let n := (rdWord s e h c).toNat % 65536
     let v := irrevocable (releaseAt s b.core t) b.core t
     let rec_ : SpawnRec := { entry := rdPair s e h a, count := n, arg := rdWord s e h d, quota := 8 * q8.toNat,
                              world := s.worldOf b.core, sig := carried v b.core (s.sigId b.core t) }
     Ready s b t th .app u h →
      (n = 0 → Ends (.spawn h q8 a c d) s b t u h s) ∧
      (n ≠ 0 → (s.core b.core).steal.queue.length ≥ 256 → Raises (.spawn h q8 a c d) s b t 0x11) ∧
      (n ≠ 0 → (s.core b.core).steal.queue.length < 256 → releaseReady s b.core t .pkg = true →
        Ends (.spawn h q8 a c d) s b t u h
          (v.modCore b.core fun k => { k with steal := { k.steal with queue := (v.core b.core).steal.queue ++ [rec_] } }))) ∧
    (let z := settleLocal s b.core t
     Ready s b t th .app {} h →
      (z.count b.core t .loads = 0 → z.count b.core t .tileops = 0 →
        z.count b.core t .stores + z.count b.core t .copies = 0 ∨ (trackerUsed (z.ctx b.core)).length < 16 →
        Leaves (.tail h) s b t (retire z b.core t)) ∧
      (z.count b.core t .loads > 0 ∨ z.count b.core t .tileops > 0 → (z.thr? b.core t).isSome = true →
        Waits (.tail h) s b t {} h (.retry (.counters 0 63 63 0)) z)) ∧
    (let u : Uses := { srcs := wide true [a] }
     let e := envOf s b t u h
     let va := addrOf s e h .g a
     let w := s.actWorld b.core t
     Ready s b t th .app u h → th.fails = [] →
      (va % 4 ≠ 0 → Raises (.exit h sc ev a) s b t 0x03) ∧
      (va % 4 = 0 → s.count b.core t .stores > 0 ∨ s.count b.core t .copies > 0 →
        Waits (.exit h sc ev a) s b t u h (.retry (.counters 63 0 0 63)) s) ∧
      (va % 4 = 0 → s.count b.core t .stores = 0 → s.count b.core t .copies = 0 → s.count b.core t .loads = 0 →
        s.count b.core t .tileops = 0 → releaseReady s b.core t sc = true → ∀ s' hs v old,
        accessCheck s e .g va 4 4 .atomic = .ok (s', va, hs) →
        (hs.all fun x => !lineBusy (s.ctx b.core) (s.ctx b.core).nextOp w x.va) = true →
        performRmw (irrevocable s' b.core t) b.core
          { id := (s.ctx b.core).nextOp, tid := t, cls := .stores, pc := th.pc, agent := s.agentId b.core t, sgn := s.sigId b.core t,
            world := w, evict := ev.toNat, homes := hs, body := .rmw .g va 4 (.int .add .u32 1) .zero .rel sc none } = (v, some old) →
        Leaves (.exit h sc ev a) s b t (retire v b.core t)))

/-- R110, R111: `trap`, `sys` and `brk` raise their codes with the number, and park the thread at the instruction; the quiet
instructions change nothing but where the thread goes on; `sleep` waits for its count, and a count of 0 acts as `nop` (R112). -/
def Obligations.TrapsAndQuiet : Prop :=
  ∀ (s : State) (b : Bundle) (t : Nat) (th : Thread) (h : Hdr) (a : Src) (d : Dst),
    (Ready s b t th .app {} h →
      (∃ w, exec (.trap h) s = .next w ∧ Raised s w b.core t 0x18 h.imm) ∧
      (∃ w, exec (.brk h) s = .next w ∧ Raised s w b.core t 0x19 h.imm) ∧
      Ends (.nop h) s b t {} h s ∧ Ends (.yield h) s b t {} h (s.modThr b.core t fun x => { x with yielded := true })) ∧
    (Ready s b t th .app { dsts := [(d, 1)] } h →
      ∃ w, exec (.sys h d) s = .next w ∧ Raised s w b.core t 0x18 (h.imm ||| (d.code.setWidth 32 <<< 16)) ∧
        ∃ p ∈ (w.ctx b.core).parked, p.id = (s.ctx b.core).nextPark ∧ p.service = true ∧ p.dst = some d) ∧
    (let u : Uses := { srcs := one [a] }
     let n := (rdWord s (envOf s b t u h) h a).toNat
     Ready s b t th .app u h →
      (n = 0 → Ends (.sleep h a) s b t u h s) ∧ (n ≠ 0 → Waits (.sleep h a) s b t u h (.sleep n) s))

/-! ### System registers and the handler's instructions -/

/-- R113, R10, R114: a number with no register raises 0x01; a register above the thread's level reads zero and ignores the write; the rest
read and write their registers. The value of a register without a reset value is the model's choice (log 13). -/
def Obligations.SystemRegisters : Prop :=
  ∀ (s : State) (b : Bundle) (t : Nat) (th : Thread) (h : Hdr) (d : Dst) (a : Src),
    let n := h.imm.toNat % 4096
    let c := b.core
    -- the numbers that have a register, by the level at which it is open
    let app : List (Nat × Nat) := [(0x000, 0x004), (0x110, 0x110), (0x160, 0x160), (0x170, 0x171), (0x180, 0x180), (0x1C1, 0x1C1),
      (0x214, 0x214), (0x260, 0x260)]
    let handler : List (Nat × Nat) := [(0x005, 0x005), (0x100, 0x101), (0x140, 0x147), (0x150, 0x15F), (0x190, 0x192), (0x198, 0x1A1),
      (0x1A8, 0x1AB), (0x1C0, 0x1C0), (0x1C2, 0x1C2), (0x230, 0x230)]
    let steward : List (Nat × Nat) := [(0x1B0, 0x1B5), (0x200, 0x202), (0x210, 0x213), (0x220, 0x22E), (0x231, 0x236), (0x240, 0x246),
      (0x250, 0x252), (0x261, 0x262)]
    let among := fun (l : List (Nat × Nat)) (k : Nat) => l.any fun p => decide (p.1 ≤ k ∧ k ≤ p.2)
    (∀ k, regLevel k = if among app k then some .app else if among handler k then some .handler
      else if among steward k then some .steward else none) ∧
    (Ready s b t th .app { dsts := [(d, 1)] } h →
      (regLevel n = none → Raises (.rdsr h d) s b t 0x01) ∧
      (∀ lv, regLevel n = some lv →
        Ends (.rdsr h d) s b t { dsts := [(d, 1)] } h (wrWord s (envOf s b t { dsts := [(d, 1)] } h) d
          (if th.level.num < lv.num then 0 else readReg s c t n)))) ∧
    (let u : Uses := { srcs := one [a] }
     let v := rdWord s (envOf s b t u h) h a
     Ready s b t th .app u h →
      (regLevel n = none → Raises (.wrsr h a) s b t 0x01) ∧
      (∀ lv, regLevel n = some lv → th.level.num < lv.num → Ends (.wrsr h a) s b t u h s) ∧
      (∀ lv, regLevel n = some lv → lv.num ≤ th.level.num → (n = 0x235 → releaseReady s c t .pkg = true) →
        ((writeReg s c t n v).thr? c t).isSome = true → Ends (.wrsr h a) s b t u h (writeReg s c t n v))) ∧
    -- what some of them hold
    (s.thr? c t = some th →
      readReg s c t 0x000 = BitVec.ofNat 32 th.stack.length ∧ readReg s c t 0x001 = th.spilled ∧
      readReg s c t 0x002 = th.spBase.setWidth 32 ∧ readReg s c t 0x003 = th.spBase.extractLsb' 32 32 ∧
      readReg s c t 0x004 = th.spLimit ∧ readReg s c t 0x005 = (if th.step then 1 else 0) ∧
      readReg s c t 0x190 = (s.ctx c).fqb.setWidth 32 ∧ readReg s c t 0x192 = (s.ctx c).fqctl ∧
      readReg s c t 0x1A0 = (s.ctx c).bpctl ∧ readReg s c t 0x1AB = (s.core c).trace.count ∧
      readReg s c t 0x230 = (s.core c).qcls.setWidth 32 ∧ readReg s c t 0x260 = BitVec.ofNat 32 s.fab.devno ∧
      (∀ v, writeReg s c t 0x000 v = s ∧ writeReg s c t 0x004 v = s ∧
        writeReg s c t 0x005 v = s.modThr c t (fun x => { x with step := v.getLsbD 0 }) ∧
        (readReg (writeReg s c t 0x190 v) c t 0x190 = v &&& 0xFFFFF000) ∧
        (readReg (writeReg s c t 0x192 v) c t 0x192 = v &&& 0xFFFF000F) ∧
        (readReg (writeReg s c t 0x1A0 v) c t 0x1A0 = v &&& 0x7FFFF)))

/-- R262 to R264: a resumed sub-bundle goes on where R260 says, or at the PC that is given; a killed thread is gone; the step bits. -/
def Obligations.HandlerControl : Prop :=
  ∀ (s : State) (b : Bundle) (t : Nat) (th : Thread) (h : Hdr) (a m : Src) (pc val : Option Src),
    let c := b.core
    -- the sub-bundle that holds the target, where the target is not the issuer
    let sub := fun (x : Nat) => if x = t then none else (s.ctx c).parked.find? fun p => p.mems.any (·.2 == x)
    (let u : Uses := { srcs := one [a] }
     let x := (rdWord s (envOf s b t u h) h a).toNat
     Ready s b t th .handler u h →
      (sub x = none → Ends (.eret h a) s b t u h s) ∧
      (∀ p, sub x = some p → (∀ q ∈ p.mems, q.1 < 32 ∧ q.2 ≠ t ∧ (s.thr? c q.2).isSome = true) →
        ∃ v, Ends (.eret h a) s b t u h v ∧ (∀ q ∈ p.mems, (v.thr c q.2).park = none ∧ (v.thr c q.2).pc = p.next ∧
          (v.thr c q.2).blk = .run ∧ (v.thr c q.2).regs = (s.thr c q.2).regs) ∧ v.mem = s.mem)) ∧
    (let u : Uses := { srcs := one (a :: m :: val.toList) ++ wide true pc.toList }
     let e := envOf s b t u h
     let x := (rdWord s e h a).toNat
     let mask := rdWord s e h m
     Ready s b t th .handler u h →
      (sub x = none → Ends (.resm h a m pc val) s b t u h s) ∧
      (∀ p, sub x = some p → val = none → (∀ q ∈ p.mems, q.2 ≠ t ∧ (s.thr? c q.2).isSome = true) → p.mems.Pairwise (fun q r => q.2 ≠ r.2) →
        ∃ v, Ends (.resm h a m pc val) s b t u h v ∧
          (∀ q ∈ p.mems, mask.getLsbD q.1 = true → (v.thr c q.2).park = none ∧
            (v.thr c q.2).pc = match pc with | some r => rdPair s e h r | none => p.next) ∧
          (∀ q ∈ p.mems, mask.getLsbD q.1 = false → v.thr? c q.2 = s.thr? c q.2))) ∧
    (let u : Uses := { srcs := one [a, m] }
     let e := envOf s b t u h
     let x := (rdWord s e h a).toNat
     let mask := rdWord s e h m
     Ready s b t th .handler u h →
      (sub x = none → Ends (.kill h a m) s b t u h s) ∧
      (∀ p, sub x = some p → (∀ q ∈ p.mems, q.2 ≠ t) → (∀ q ∈ p.mems, ∀ k, s.count c q.2 k = 0) → (s.ctx c).cvs = [] →
        ∃ v, Ends (.kill h a m) s b t u h v ∧ ∀ q ∈ p.mems, mask.getLsbD q.1 = true → v.thr? c q.2 = none) ∧
      (x ≠ t → Ends (.sstepThr h a m) s b t u h (s.modThr c x fun y => { y with step := mask.getLsbD 0 })) ∧
      (x = t → Ends (.sstepThr h a m) s b t u h s) ∧
      (∀ g sl, (s.thr? c x).bind (·.grp) = some (g, sl) →
        Ends (.sstepGrp h a m) s b t u h (s.modGroup c g fun gr => { gr with gstep := mask.getLsbD 0 })) ∧
      ((s.thr? c x).bind (·.grp) = none → Ends (.sstepGrp h a m) s b t u h s)) ∧
    (∀ u i, ((i = .eret h a ∧ u = { srcs := one [a] }) ∨ (i = .kill h a m ∧ u = { srcs := one [a, m] }) ∨
        (i = .sstepThr h a m ∧ u = { srcs := one [a, m] })) →
      Ready s b t th .app u h → th.level = .app → Raises i s b t 0x02)

/-- R265, R266, R279: holding and releasing a core's units, and the status before; the trace modes and the mark; a snapshot is taken at
issue and stored as `stm` stores. -/
def Obligations.HandlerDebug : Prop :=
  ∀ (s : State) (b : Bundle) (t : Nat) (th : Thread) (h : Hdr) (d : Dst) (a p : Src) (m : MMod) (sec : BitVec 4),
    let c := b.core
    (let u : Uses := { dsts := [(d, 1)] }
     let e := envOf s b t u h
     let status : Word := (if (s.ctx c).held then 1 else 0) + (if drained s c then 2 else 0)
     ((∃ x ∈ s.walks, x.core = c ∧ ∃ t' ∈ x.tids, ∃ th', s.thr? c t' = some th' ∧ th'.level = .app) → drained s c = false) ∧
     (Ready s b t th .handler u h →
      Ends (.haltHold h d) s b t u h ((wrWord s e d status).modCtx c fun x => { x with held := true }) ∧
      Ends (.haltRel h d) s b t u h ((wrWord s e d status).modCtx c fun x => { x with held := false }) ∧
      Ends (.haltQ h d) s b t u h (wrWord s e d status))) ∧
    (let u : Uses := { srcs := one [a] }
     let x := rdWord s (envOf s b t u h) h a
     Ready s b t th .handler u h →
      (x.toNat % 4 ≠ 1 → x.toNat % 4 ≠ 2 → Raises (.traceOn h a) s b t 0x01) ∧
      (x.toNat % 4 = 1 ∨ x.toNat % 4 = 2 → ∃ v, Ends (.traceOn h a) s b t u h v ∧ (v.core c).trace.mode = x.toNat % 4 ∧ (v.core c).trace.since = 0 ∧
        (v.ctx c).ops = (s.ctx c).ops) ∧
      Ends (.traceOff h a) s b t u h (s.modCore c fun k => { k with trace := { k.trace with mode := 0 } }) ∧
      (∃ v, Ends (.traceMark h a) s b t u h v ∧ (v.core c).trace.mode = (s.core c).trace.mode ∧ (v.ctx c).ops = (s.ctx c).ops) ∧
      -- the record of a mark goes to the next slot of the ring, and is dropped where it cannot be written
      (let tr := (s.core c).trace
       let slot := (tr.base.toNat + 16 * (tr.count.toNat % 2 ^ tr.size)) % 2 ^ 64
       let record := [3, 0, 0, 0] ++ bytesOf 4 ((s.core c).ccnt.toNat % 2 ^ 32) ++ bytesOf 8 x.toNat
       (∀ z, ringWrite s c (s.worldOf c) slot record false = .ok z → z.thr? c t = some th → (z.core c).trace.since + 1 < 1024 →
        Ends (.traceMark h a) s b t u h (capTrigger (z.modCore c fun k =>
          { k with trace := { k.trace with count := k.trace.count + 1, since := k.trace.since + 1 } }) c 2)) ∧
       (∀ e, ringWrite s c (s.worldOf c) slot record false = .error e → tr.since < 1024 →
        Ends (.traceMark h a) s b t u h (capTrigger s c 2)))) ∧
    (let u : Uses := { srcs := baseUses .g p ++ one [a] }
     let e := envOf s b t u h
     let va := addrOf s e h .g p
     let x := (rdWord s e h a).toNat
     Ready s b t th .handler u h →
      (va % 64 ≠ 0 → Raises (.dump h m sec p a) s b t 0x03) ∧
      (va % 64 = 0 → dumpData s e sec x = none → Raises (.dump h m sec p a) s b t 0x05) ∧
      (va % 64 = 0 → ∀ l, dumpData s e sec x = some l → m.space = .g → s.count c t .stores < 63 → storeWait s e m = none →
        (∀ r, accessCheck s e .g va l.length 64 .store = .error r → Raises (.dump h m sec p a) s b t r.code) ∧
        ∀ s' va' hs, accessCheck s e .g va l.length 64 .store = .ok (s', va', hs) →
          Ends (.dump h m sec p a) s b t u h (acceptStore s' e th.pc m va' hs l)) ∧
      -- a thread's section, field by field
      (∀ th', s.thr? c x = some th' → dumpData s e 0 x = if th'.park.isSome = true ∨ isHeld s c th' = true then some (dumpThr s c x) else none) ∧
      (∀ th', s.thr? c x = some th' →
        let at_ := fun (off n : Nat) => natOf (((dumpThr s c x).drop off).take n)
        (dumpThr s c x).length = 128 + 4 * th'.quota ∧ at_ 0 8 = th'.pc.toNat ∧ at_ 8 2 = th'.prio % 65536 ∧ at_ 10 1 = th'.quota % 256 ∧
        at_ 11 1 = th'.stack.length % 256 ∧ at_ 12 1 = th'.preds.toNat % 256 ∧ at_ 13 1 = (if th'.park.isSome then 1 else 2) ∧
        at_ 14 1 = (match th'.grp with | some g => g.1 % 256 | none => 255) ∧ at_ 15 1 = (match th'.grp with | some g => g.2 % 256 | none => 255) ∧
        at_ 16 1 = s.count c x .loads % 256 ∧ at_ 17 1 = s.count c x .stores % 256 ∧ at_ 18 1 = s.count c x .copies % 256 ∧
        at_ 19 1 = s.count c x .tileops % 256 ∧ at_ 20 4 = th'.spLimit.toNat ∧ at_ 24 8 = th'.spBase.toNat ∧ at_ 32 4 = th'.spilled.toNat ∧
        at_ 36 1 = th'.step.toNat + 2 * th'.sat.toNat ∧ (∀ j, j < 4 → at_ (64 + 8 * j) 8 = (th'.stack.getD j 0).toNat) ∧
        ∀ j, j < th'.quota → at_ (128 + 4 * j) 4 = (th'.regs.get 0 j).toNat))

/-! ### Registers and memory -/

/-- R24 to R26, R142: a register reads as it was last written, until a load into it is outstanding; `zero` and k0 are constants;
only the lowest active member of a bundle writes y. -/
def Obligations.RegisterFile : Prop :=
  ∀ (s : State) (e : Env) (th : Thread) (h : Hdr) (v : Word) (x : DWord) (n m k : Nat) (p q : Pred) (b : Bool) (r : BitVec 7),
    s.thr? e.c e.t = some th →
      (th.hazard.contains n = false → rdX (wrX s e n v) e n = v) ∧
      (m ≠ n → rdX (wrX s e n v) e m = rdX s e m) ∧ rdY (wrX s e n v) e m = rdY s e m ∧
      (∀ g gr, th.grp = some g → s.group? e.c g.1 = some gr →
        (gr.unread n = false → rdY (wrY s e n v) e n = v) ∧
        (m ≠ n → rdY (wrY s e n v) e m = rdY s e m) ∧ rdX (wrY s e n v) e m = rdX s e m) ∧
      (∀ y, wrWord s { e with low := false } (.y y) v k = s) ∧
      wrWord s e .zero v k = s ∧ rdWord s e h (.sp .zero) k = 0 ∧
      rdPred s e 0 = true ∧ wrPred s e 0 b = s ∧
      (p ≠ 0 → rdPred (wrPred s e p b) e p = b) ∧ (q ≠ p → rdPred (wrPred s e p b) e q = rdPred s e q) ∧
      (r.toNat % 2 = 0 → th.hazard.contains r.toNat = false → th.hazard.contains (r.toNat + 1) = false →
        rdPair (wrPair s e (.x r) x) e h (.x r) = x)

/-- R135, R139, R141, R143: a load waits while 63 are outstanding, raises what its checks find, and otherwise is accepted: its thread's
counter rises, and the registers it will write are unspecified until a `wait` counts it. That a plain load is performed when it completes,
and an acquiring one at its issue, is the model's choice (log 44). -/
def Obligations.LoadsAccepted : Prop :=
  ∀ (s : State) (b : Bundle) (t : Nat) (th : Thread) (h : Hdr) (m : MMod) (ty : Ty) (d : Dst) (a : Src) (n4 : BitVec 4),
    -- a load `i` of `n` bytes aligned to `al`, read as `ty'` into `k` registers; `cl` for one that issues once per bundle
    let load := fun (i : Instr) (cl : Bool) (n al k : Nat) (ty' : Ty) =>
      let u : Uses := { loadUses m a d k with cls := cl }
      let e := envOf s b t u h
      let off := addrOf s e h m.space a
      Ready s b t th .app u h →
        (s.count b.core t .loads ≥ 63 → Waits i s b t u h (.retry (.room .loads)) s) ∧
        (s.count b.core t .loads < 63 →
          (off % al ≠ 0 → Raises i s b t 0x03) ∧
          (∀ r, accessCheck s e m.space off n al .load = .error r → Raises i s b t r.code) ∧
          (∀ s' va hs, accessCheck s e m.space off n al .load = .ok (s', va, hs) →
            (isAcq m.ord = false →
              Ends i s b t u h (markHazard (addOp s' b.core t .loads th.pc (.load m.space va n ty' d m.ord m.scope none) hs
                m.evict.toNat).1 b.core t (dstHazard d k))) ∧
            (isAcq m.ord = true → acqReady s e m va n hs = none →
              ∃ v l, Ends i s b t u h v ∧ s.count b.core t .loads + 1 ≤ v.count b.core t .loads ∧
                ∃ o ∈ (v.ctx b.core).ops, o.tid = t ∧ o.body = .load m.space va n ty' d m.ord m.scope (some l)) ∧
            (∀ w, acqReady s e m va n hs = some w → Waits i s b t u h (.retry w) s)))
    let k := if ty.is64 then 2 else 1
    load (.ld h m ty d a) false (ty.bits / 8) (ty.bits / 8) k ty ∧
    load (.ldu h m ty d a) true (ty.bits / 8) (ty.bits / 8) k ty ∧
    load (.ld4 h m d a) false 16 16 4 .b32 ∧
    load (.ldm h m n4 d a) false (4 * (n4.toNat + 1)) 4 (n4.toNat + 1) .b32 ∧
    -- a plain load from the scratchpad needs no more than its range
    (let u := loadUses m a d k
     let off := addrOf s (envOf s b t u h) h m.space a
     Ready s b t th .app u h → s.count b.core t .loads < 63 → m.space = .l → isAcq m.ord = false → off % (ty.bits / 8) = 0 →
      off + ty.bits / 8 ≤ 65536 * (16 - (s.ctx b.core).l1units) → (s.ctx b.core).tiles = [] →
      Ends (.ld h m ty d a) s b t u h (markHazard (addOp s b.core t .loads th.pc
        (.load .l off (ty.bits / 8) ty d m.ord m.scope none) [] m.evict.toNat).1 b.core t (dstHazard d k)))

/-- R139, R140, R187: what the checks of an access find, in their order: alignment, the bounds of the local arrays, the states
of the tiles that the access meets, the page's permissions, and the token of a store. -/
def Obligations.AccessChecks : Prop :=
  ∀ (s : State) (e : Env) (sp : Space) (off n al : Nat) (k : Acc),
    (off % al ≠ 0 → ∃ r, accessCheck s e sp off n al k = .error r ∧ r.code = 0x03) ∧
    (off % al = 0 →
      (off + n > 65536 * (16 - (s.ctx e.c).l1units) → ∃ r, accessCheck s e .l off n al k = .error r ∧ r.code = 0x05) ∧
      (off + n ≤ 65536 * (16 - (s.ctx e.c).l1units) → ∀ j tl, (j, tl) ∈ (s.ctx e.c).tiles → tl.meets off n = true →
        tl.st = .filling ∨ (tl.st = .draining ∧ (k = .store ∨ k = .atomic)) →
        ∃ r, accessCheck s e .l off n al k = .error r ∧ r.code = 0x09) ∧
      (off + n ≤ 65536 * (16 - (s.ctx e.c).l1units) → (∀ p ∈ (s.ctx e.c).tiles, p.2.meets off n = false) →
        accessCheck s e .l off n al k = .ok (s, off, [])) ∧
      (off + n > 262144 → ∃ r, accessCheck s e .w off n al k = .error r ∧ r.code = 0x05) ∧
      (off + n ≤ 262144 → accessCheck s e .w off n al k = .ok (s, off, [])) ∧
      (off + n > 65536 → ∃ r, accessCheck s e .k off n al k = .error r ∧ r.code = 0x05) ∧
      (∀ x va, rangeCheck s e.c (s.actWorld e.c e.t) off n k = .error (x, va) →
        ∃ r, accessCheck s e .g off n al k = .error r ∧ r.code = x)) ∧
    (∀ (c w va : Nat), s.worldOf c = w → va < 2 ^ 48 → remapHit s w va = none → s.l2? w (lineVa va) = none →
      lineCheck s c w va .fetch = xlate s w w va (fun p => p.exec) ∧
      (∀ x, leafOf s w va = .error x → lineCheck s c w va .fetch = .error x) ∧
      (∀ l, leafOf s w va = .ok l → l.sec = false → onStack (stackFor s w va (l.page + lineVa va % 4096)) (l.page + lineVa va % 4096) = true →
        l.exec = false → lineCheck s c w va .fetch = .error 0x05)) ∧
    (∀ (w va : Nat) (a : Word), s.token? w va = none →
      tokenCheck s w a va .store = some 0x06 ∧ tokenCheck s w a va .atomic = some 0x06 ∧ tokenCheck s w a va .load = none) ∧
    (∀ (w va : Nat) (a : Word) (tk : Token), s.token? w va = some tk → tk.pending = none → a ≠ 0 → tk.mode = .write →
      (tk.owner = a → tokenCheck s w a va .store = none ∧ tokenCheck s w a va .atomic = none ∧ tokenCheck s w a va .load = none) ∧
      (tk.owner ≠ a → tokenCheck s w a va .store = some 0x06)) ∧
    (∀ (w va : Nat) (a : Word) (tk : Token), s.token? w va = some tk → tk.pending = none → tk.holders.contains a = true →
      (tk.mode = .rs → tokenCheck s w a va .store = some 0x07 ∧ tokenCheck s w a va .atomic = some 0x07 ∧
        tokenCheck s w a va .load = none) ∧
      (tk.mode = .at → tokenCheck s w a va .store = some 0x07 ∧ tokenCheck s w a va .atomic = none ∧
        tokenCheck s w a va .load = some 0x07))

/-- R51, R141, R142, R154, R186: a load completes when the order of its core lets it, writes its destination as its type says, and its
counter falls; an error that it reads is held for its thread's next reporting point. That a load is performed at this moment is the
model's choice (log 44). -/
def Obligations.LoadsComplete : Prop :=
  ∀ (s : State) (c id : Nat) (o : Op) (sp : Space) (va n : Nat) (ty : Ty) (d : Dst) (ord : MOrd) (sc : Scope) (val : Option (List Byte)),
    s.op? c id = some o → o.id = id → o.done = false → o.body = .load sp va n ty d ord sc val →
      let e : Env := { c := c, t := o.tid }
      (loadReady s c o = false ∨ inTurn (s.ctx c) o = false → exec (.loadComplete c id) s = .next s) ∧
      (loadReady s c o = true → inTurn (s.ctx c) o = true → ∃ v : State, (∀ c' t', v.thr? c' t' = s.thr? c' t') ∧ (v.ctx c).ops = (s.ctx c).ops ∧
        exec (.loadComplete c id) s = .next
          (if loadBad s c o then failOp (finishOp v c id) c o 0x14 0 (BitVec.ofNat 64 va)
           else finishOp (if o.gone then v else writeLoaded v e ty d (loadNow s c o)) c id)) ∧
      (∀ l, val = some l → loadNow s c o = l) ∧
      (val = none → sp = .l → (∀ q ∈ older (s.ctx c) o.id, ∀ a l r x, q.body ≠ .store .l a l r x) →
        loadNow s c o = peekN (s.ctx c).scratch va n) ∧
      (val = none → sp = .w → (∀ q ∈ older (s.ctx c) o.id, ∀ a l r x, q.body ≠ .store .w a l r x) →
        loadNow s c o = peekN (s.ctx c).wbuf va n) ∧
      (val = none → sp = .l → ∀ q l r x, (older (s.ctx c) o.id).getLast? = some q → q.body = .store .l va l r x →
        q.done = false → q.tid = o.tid → q.retired = none → l.length = n → loadNow s c o = l) ∧
      (∀ b0 b1 b2 b3 : Byte,
        writeLoaded s e .s8 d [b0] = wrWord s e d (b0.signExtend 32) ∧
        writeLoaded s e .u8 d [b0] = wrWord s e d (b0.setWidth 32) ∧
        writeLoaded s e .s16 d [b0, b1] = wrWord s e d ((b1 ++ b0).signExtend 32) ∧
        writeLoaded s e .u16 d [b0, b1] = wrWord s e d ((b1 ++ b0).setWidth 32) ∧
        writeLoaded s e .b32 d [b0, b1, b2, b3] = wrWord s e d (b3 ++ b2 ++ b1 ++ b0))

/-- R135, R139, R141, R144: a store waits while 63 are outstanding and where its order holds it back, raises what its checks find,
and otherwise is accepted with the bytes its source holds. -/
def Sys2Proof.Machine.StoresAccepted : Prop :=
  ∀ (s : State) (b : Bundle) (t : Nat) (th : Thread) (h : Hdr) (m : MMod) (ty : Ty) (a q : Src) (n4 : BitVec 4),
    let words := fun (e : Env) (n : Nat) => (List.range n).flatMap fun j => bytesOf 4 (rdWord s e h q j).toNat
    -- a store `i` of the bytes `data`, aligned to `al`
    let store := fun (i : Instr) (u : Uses) (al : Nat) (data : List Byte) =>
      let e := envOf s b t u h
      let off := addrOf s e h m.space a
      Ready s b t th .app u h →
        (s.count b.core t .stores ≥ 63 → Waits i s b t u h (.retry (.room .stores)) s) ∧
        (s.count b.core t .stores < 63 →
          (off % al ≠ 0 → Raises i s b t 0x03) ∧
          (∀ r, accessCheck s e m.space off data.length al .store = .error r → Raises i s b t r.code) ∧
          (∀ s' va hs, accessCheck s e m.space off data.length al .store = .ok (s', va, hs) →
            (∀ w, storeWait s e m = some w → Waits i s b t u h (.retry w) s) ∧
            (storeWait s e m = none → Ends i s b t u h (acceptStore s' e th.pc m va hs data)) ∧
            s.count b.core t .stores + 1 ≤ (acceptStore s' e th.pc m va hs data).count b.core t .stores ∧
            ∃ l, ((acceptStore s' e th.pc m va hs data).ctx b.core).ops =
              l ++ [newOp s b.core t .stores th.pc (.store m.space va data m.ord m.scope) hs m.evict.toNat]))
    let ust := storeUses m a q (if ty.is64 then 2 else 1)
    let bytes := bytesOf (ty.bits / 8) (rdVal s (envOf s b t ust h) h ty q).toNat
    let u4 := storeUses m a q 4
    let um := storeUses m a q (n4.toNat + 1)
    store (.st h m ty a q) ust (ty.bits / 8) bytes ∧
    store (.st4 h m a q) u4 16 (words (envOf s b t u4 h) 4) ∧
    store (.stm h m n4 a q) um 4 (words (envOf s b t um h) (n4.toNat + 1)) ∧
    store (.stz h m a) { srcs := baseUses m.space a } 128 (List.replicate 128 0) ∧
    -- a plain store to the scratchpad, with no operation outstanding, needs no more than its range
    (let off := addrOf s (envOf s b t ust h) h m.space a
     Ready s b t th .app ust h → (s.ctx b.core).ops = [] → m.space = .l → off % (ty.bits / 8) = 0 →
      off + ty.bits / 8 ≤ 65536 * (16 - (s.ctx b.core).l1units) → (s.ctx b.core).tiles = [] →
      Ends (.st h m ty a q) s b t ust h (addOp s b.core t .stores th.pc (.store .l off bytes m.ord m.scope) [] m.evict.toNat).1)

/-- R5, R141, R186, R294: a store that is held changes its bytes at its home, or in its array, and no other; its counter falls. -/
def Sys2Proof.Machine.StoresHeld : Prop :=
  ∀ (s : State) (c id : Nat) (o : Op) (sp : Space) (va : Nat) (data : List Byte) (ord : MOrd) (sc : Scope),
    s.op? c id = some o → o.done = false → o.body = .store sp va data ord sc →
      (storeReady s c o = false → exec (.storeHeldAtHome c id) s = .next s) ∧
      (storeReady s c o = true → ∃ v, exec (.storeHeldAtHome c id) s = .next (finishOp v c o.id) ∧
        (v.ctx c).ops = (s.ctx c).ops ∧
        (sp = .l → ∀ a, peek (v.ctx c).scratch a =
          if va ≤ a ∧ a < va + data.length then data.getD (a - va) 0 else peek (s.ctx c).scratch a) ∧
        (sp = .l ∨ sp = .k → (v.ctx c).wbuf = (s.ctx c).wbuf ∧ v.mem = s.mem ∧ v.dies = s.dies) ∧
        (sp = .w → v.mem = s.mem ∧ v.dies = s.dies ∧ (v.ctx c).scratch = (s.ctx c).scratch ∧
          ∀ a, peek (v.ctx c).wbuf a = if va ≤ a ∧ a < va + data.length then data.getD (a - va) 0 else peek (s.ctx c).wbuf a) ∧
        (sp = .g → (v.ctx c).scratch = (s.ctx c).scratch ∧ (v.ctx c).wbuf = (s.ctx c).wbuf ∧
          ∀ hm p, o.homes = [hm] → hm.pa = some p → windowLine s o.world hm.va = false → 0 < data.length →
            va % 128 + data.length ≤ 128 →
            homeLine v o.world hm = lineOfBytes (overlay (lineBytes (homeLine s o.world hm)) (va % 128) data) ∧
            (∀ l, s.l2? o.world hm.va = some l →
              (format (lineOfBytes (overlay (lineBytes l.data) (va % 128) data))).2 ≤ (format l.data).2 → v.mem = s.mem ∧
              ∀ w' va', (w' ≠ o.world ∨ va' ≠ hm.va) → v.l2? w' va' = s.l2? w' va')))

/-- Stores: what is checked and accepted, and when an accepted one is held at home. That the core sees an accepted store at once, and
others once it is held, is the model's choice (log 21). -/
def Obligations.Stores : Prop := StoresAccepted ∧ StoresHeld

/-- R145 to R147, R352: an atomic waits while 63 are outstanding and where its order holds it back, raises what its checks find, and
otherwise is accepted; an acquiring one is performed at once. That an acquiring atomic is performed at issue, and the code of a ring by a WRITE holder, are the
model's choices (log 44, log 75). -/
def Obligations.AtomicsAccepted : Prop :=
  ∀ (s : State) (b : Bundle) (t : Nat) (th : Thread) (h : Hdr) (m : MMod) (op : AOp) (fop : FOp) (ty : Ty) (d : Dst) (a q r : Src),
    -- an atomic `i` with destination `d'`, counted in class `k`, that does `x`
    let atomic := fun (i : Instr) (u : Uses) (k : Cls) (d' : Dst) (x : Rmw) =>
      let e := envOf s b t u h
      let off := addrOf s e h m.space a
      Ready s b t th .app u h →
        (s.count b.core t k ≥ 63 → Waits i s b t u h (.retry (.room k)) s) ∧
        (s.count b.core t k < 63 →
          (off % (ty.bits / 8) ≠ 0 → Raises i s b t 0x03) ∧
          (∀ y, accessCheck s e m.space off (ty.bits / 8) (ty.bits / 8) (x.acc off) = .error y → Raises i s b t y.code) ∧
          (∀ s' va hs, accessCheck s e m.space off (ty.bits / 8) (ty.bits / 8) (x.acc off) = .ok (s', va, hs) →
            (∀ w, rmwWait s e m va (ty.bits / 8) hs = some w → Waits i s b t u h (.retry w) s) ∧
            (rmwWait s e m va (ty.bits / 8) hs = none → Ends i s b t u h (acceptRmw s' e th.pc m va hs x d' k)) ∧
            (isAcq m.ord = false →
              s.count b.core t k + 1 ≤ (acceptRmw s' e th.pc m va hs x d' k).count b.core t k ∧
              ∃ l, ((acceptRmw s' e th.pc m va hs x d' k).ctx b.core).ops =
                l ++ [newOp s b.core t k th.pc (.rmw m.space va (ty.bits / 8) x d' m.ord m.scope none) hs m.evict.toNat])))
    let u1 := rmwUses m ty.is64 a [q] d
    let ug := rmwUses m ty.is64 a [q] .zero
    let uc := rmwUses m ty.is64 a [q, r] d
    let uf := rmwUses m false a [q] d
    let val := fun (u : Uses) (p : Src) => rdVal s (envOf s b t u h) h ty p
    -- a doorbell page takes an `or` of a nonzero word to one of its 16 words, by a holder in ATOMIC mode, and nothing else
    (∀ (e : Env) (va n al : Nat) (k : Acc) (hs : List Home), va % al = 0 → rangeCheck s e.c (s.actWorld e.c e.t) va n k = .ok hs →
      hs.any (isDoorbell (s.actWorld e.c e.t)) = true → k ≠ .ring → ∃ y, accessCheck s e .g va n al k = .error y ∧ y.code = 0x05) ∧
    (∀ (w va : Nat) (g : Word) (hm : Home), isDoorbell w hm = true →
      (s.token? w va = none → tokenStep s w g va .ring hm = some 0x06) ∧
      ∀ tk, s.token? w va = some tk → tk.pending = none →
        (tk.mode = .write → tk.owner = g → g ≠ 0 → tokenStep s w g va .ring hm = some 0x07) ∧
        (tk.mode = .at → tk.holders.contains g = true → tokenStep s w g va .ring hm = none)) ∧
    (∀ (va : Nat) (x : DWord), (Rmw.int .or .b32 x).acc va = if x.setWidth 32 ≠ 0#32 ∧ va % 4096 < 64 then .ring else .atomic) ∧
    atomic (.atom h m op ty d a q) u1 .loads d (.int op ty (val u1 q)) ∧
    atomic (.atomg h m op ty a q) ug .stores .zero (.int op ty (val ug q)) ∧
    atomic (.cas h m ty d a q r) uc .loads d (.cas ty (val uc q) (val uc r)) ∧
    atomic (.atomf h m fop ty d a q) uf .loads d (.flt fop ty (rdWord s (envOf s b t uf h) h q))

/-- R145 to R147, R291: the value an atomic leaves and the value it returns, in the scratchpad and at home. -/
def Obligations.AtomicsPerformed : Prop :=
  ∀ (s : State) (c : Nat) (o : Op) (sp : Space) (va n : Nat) (r : Rmw) (d : Dst) (ord : MOrd) (sc : Scope) (pc old x y : DWord) (ty : Ty),
    (let o' := rdInt ty old
     let x' := rdInt ty x
     (Rmw.int .add ty x).new pc old = wrInt ty (o' + x') ∧
     (Rmw.int .min ty x).new pc old = wrInt ty (if o' ≤ x' then o' else x') ∧
     (Rmw.int .max ty x).new pc old = wrInt ty (if o' ≤ x' then x' else o') ∧
     (Rmw.int .and ty x).new pc old = old &&& x ∧ (Rmw.int .or ty x).new pc old = old ||| x ∧
     (Rmw.int .xor ty x).new pc old = old ^^^ x ∧ (Rmw.int .exch ty x).new pc old = x ∧
     (Rmw.int .inc ty x).new pc old = wrInt ty (if x' ≤ o' then 0 else o' + 1) ∧
     (Rmw.int .dec ty x).new pc old = wrInt ty (if o' = 0 ∨ x' < o' then x' else o' - 1) ∧
     (Rmw.cas ty x y).new pc old = if old = x then y else old) ∧
    (ty.isFloat = true →
      let f := Ty.fmt ty
      let p := old.toNat % 2 ^ ty.bits
      let q := (x.setWidth 32 : Word).toNat % 2 ^ ty.bits
      let val := fun (v : Nat) => if f.sign v then -(f.mag v : Int) else f.mag v
      let below := fun (v w : Nat) => decide (val v < val w ∨ (val v = val w ∧ f.sign v = true ∧ f.sign w = false))
      (Rmw.flt .add ty (x.setWidth 32)).new pc old = BitVec.ofNat 64 (nanElse ty [p, q]
        (if f.isInf p ∧ f.isInf q then (if f.sign p != f.sign q then eventNan ty 1 pc else p)
         else if f.isInf p then p else if f.isInf q then q else sumOf ty .rne (f.dy p) (f.dy q))) ∧
      (Rmw.flt .min ty (x.setWidth 32)).new pc old = BitVec.ofNat 64 (nanElse ty [p, q] (if below q p then q else p)) ∧
      (Rmw.flt .max ty (x.setWidth 32)).new pc old = BitVec.ofNat 64 (nanElse ty [p, q] (if below p q then q else p))) ∧
    (o.body = .rmw sp va n r d ord sc none →
      (sp = .l → markedBytes s c false va n = false →
        let was := BitVec.ofNat 64 (natOf (peekN (s.ctx c).scratch va n))
        (performRmw s c o).2 = some was ∧
        ∀ a, peek ((performRmw s c o).1.ctx c).scratch a =
          if va ≤ a ∧ a < va + n then (bytesOf n (r.new o.pc was).toNat).getD (a - va) 0 else peek (s.ctx c).scratch a) ∧
      (sp = .g → ∀ hm p, o.homes = [hm] → hm.pa = some p → isDoorbell o.world hm = false → windowLine s o.world hm.va = false →
        0 < n → va % 128 + n ≤ 128 → poisoned (fillL2 s o.world hm o.evict) o.world va n [hm] = false →
        let was := BitVec.ofNat 64 (natOf (((lineBytes (homeLine s o.world hm)).drop (va % 128)).take n))
        (performRmw s c o).2 = some was ∧
        homeLine (performRmw s c o).1 o.world hm =
          lineOfBytes (overlay (lineBytes (homeLine s o.world hm)) (va % 128) (bytesOf n (r.new o.pc was).toNat))))

/-- R148 to R152: a prefetch raises nothing; a fence performs the thread's loads once what it releases is held, and an acquire drops what
it must; `wait` ends once the counters are within its limits and reports what its thread holds; `inv` drops a range from the core's
caches; `flush` is counted as a store. What a release waits for follows the model's stores (log 21). -/
def Obligations.OrderAndRanges : Prop :=
  ∀ (s : State) (b : Bundle) (t : Nat) (th : Thread) (h : Hdr) (a q : Src) (ev : BitVec 3) (ord : MOrd) (sc : Scope),
    let c := b.core
    (let u : Uses := { srcs := baseUses .g a }
     let e := envOf s b t u h
     Ready s b t th .app u h →
      (∀ x, globalCheck s c t (addrOf s e h .g a) 1 .load = .error x → Ends (.prf h ev a) s b t u h s) ∧
      (∀ s' hs, globalCheck s c t (addrOf s e h .g a) 1 .load = .ok (s', hs) →
        let w := s.actWorld c t
        let held := fun (x : Home) => (l1Hit s c w (lineVa (addrOf s e h .g a)) x).isNone && lineBusy (s.ctx c) (s.ctx c).nextOp w x.va
        (hs.all (fun x => !held x) = true → ∃ v, Ends (.prf h ev a) s b t u h v ∧
          (v.ctx c).ops = (s.ctx c).ops ∧ (v.ctx c).scratch = (s.ctx c).scratch ∧ v.parts = s.parts) ∧
        (∀ x, hs.find? held = some x → Waits (.prf h ev a) s b t u h (.retry (.line w x.va)) s))) ∧
    (Ready s b t th .app {} h →
      (isRel ord = true → releaseReady s c t sc = false → Waits (.fence h ord sc) s b t {} h (.retry (.released sc)) s) ∧
      (isRel ord = false ∨ releaseReady s c t sc = true → loadsSettled s c t = true →
        Ends (.fence h ord sc) s b t {} h
          (if isAcq ord then acquireAll (captureLoads s c t) c (s.actWorld c t) sc else captureLoads s c t)) ∧
      (th.fails = [] → s.count c t .loads ≤ h.imm.toNat % 64 → s.count c t .stores ≤ h.imm.toNat / 256 % 64 →
        s.count c t .copies ≤ h.imm.toNat / 65536 % 64 → s.count c t .tileops ≤ h.imm.toNat / 16777216 % 64 →
        Ends (.wait h) s b t {} h (clearHazard s c t)) ∧
      (th.fails = [] → h.imm.toNat % 64 < s.count c t .loads ∨ h.imm.toNat / 256 % 64 < s.count c t .stores ∨
          h.imm.toNat / 65536 % 64 < s.count c t .copies ∨ h.imm.toNat / 16777216 % 64 < s.count c t .tileops →
        ∃ l st cp tl, Waits (.wait h) s b t {} h (.waits l st cp tl) s) ∧
      (∀ f l, th.fails = f :: l → f.code ≠ 0x14 → ∃ w, exec (.wait h) s = .next w ∧ (w.thr c t).park ≠ none ∧
        (w.thr c t).pc = th.pc ∧ (w.thr c t).fails = l ∧
        (th.level = .app → ∃ r, (w.ctx c).recs = (s.ctx c).recs ++ [r] ∧ r.code = f.code ∧ r.pc = f.pc ∧ r.num = f.elem))) ∧
    ((∀ p ∈ (s.ctx c).ops, p.tid = t → p.retired = none → p.body.hazard = [] ∧ ∀ j, p.body ≠ .along j) →
      (s.ctx c).sort.queue = [] → ((clearHazard s c t).thr c t).hazard = [] ∧
        ∀ g gr, (s.thr c t).grp = some g → s.group? c g.1 = some gr →
          ∃ gr', (clearHazard s c t).group? c g.1 = some gr' ∧ gr'.hazard = gr.hazard.filter fun p => !p.2.contains t) ∧
    (let u : Uses := { srcs := wide true [a] ++ one [q] }
     let e := envOf s b t u h
     let va := addrOf s e h .g a
     let n := (rdWord s e h q).toNat
     Ready s b t th .app u h →
      (va % 128 ≠ 0 ∨ n % 128 ≠ 0 → Raises (.inv h a q) s b t 0x03) ∧
      (va % 128 = 0 → n % 128 = 0 → Ends (.inv h a q) s b t u h (s.modCore c fun k =>
        { k with l1 := k.l1.filter fun l => !rangesMeet l.va 128 va n
                 fbuf := k.fbuf.filter fun l => !rangesMeet l.va 64 va n
                 ccache := k.ccache.filter fun l => !rangesMeet l.va 128 va n })) ∧
      (n ≠ 0 → s.count c t .stores ≥ 63 → Waits (.flush h a q) s b t u h (.retry (.room .stores)) s) ∧
      (n = 0 ∨ s.count c t .stores < 63 →
        (va % 128 ≠ 0 ∨ n % 128 ≠ 0 → Raises (.flush h a q) s b t 0x03) ∧
        (va % 128 = 0 → n = 0 → Ends (.flush h a q) s b t u h s) ∧
        (va % 128 = 0 → n % 128 = 0 → n ≠ 0 →
          (∀ x p, flushCheck s c (s.actWorld c t) va n = .error (x, p) → Raises (.flush h a q) s b t x) ∧
          (flushCheck s c (s.actWorld c t) va n = .ok () →
            Ends (.flush h a q) s b t u h (addOp s c t .stores th.pc (.flush va n)).1))))

/-- R152, R287, R290, R299, R300, R88, R260: the events of the caches: lines lapse, a needed line is filled from memory, signatures rotate,
a flush cleans its lines, and an operation of a retired thread posts a record of its own, where its level's records go. Which of the events that are due comes next is the
model's free choice (log 3). -/
def Obligations.CacheEvents : Prop :=
  ∀ (s : State) (c d w va id : Nat) (a : Word) (code : BitVec 6),
    (∃ v, exec (.l1LineExpiry c w va) s = .next v ∧ v.mem = s.mem ∧ (v.ctx c) = s.ctx c ∧
      ∀ l, l ∈ (v.core c).l1 ↔ l ∈ (s.core c).l1 ∧ ¬ (l.world = w ∧ l.va = va)) ∧
    (∃ v, exec (.farLineExpiry d w va) s = .next v ∧ v.mem = s.mem ∧ (v.die d).l2 = (s.die d).l2 ∧
      ∀ l, l ∈ (v.die d).far ↔ l ∈ (s.die d).far ∧ ¬ (l.world = w ∧ l.va = va)) ∧
    ((s.core c).sigs.rising 0 = true → ∃ v, exec (.signatureRotate c) s = .next v ∧
      (v.core c).sig a = (0, ((s.core c).sig a).1) ∧ v.ctx c = s.ctx c) ∧
    ((∀ k ∈ s.cores, ∀ o ∈ k.2.ctx.ops, o.world = w → ∀ h ∈ o.homes, h.va ≠ va) → exec (.l2MissFill w va) s = .next s) ∧
    (∀ k ∈ s.cores, ∀ o ∈ k.2.ctx.ops, o.world = w → o.done = false → (∃ h ∈ o.homes, h.va = va) →
      -- the line and the priority are those of an operation that needs it
      ∃ k' ∈ s.cores, ∃ o' ∈ k'.2.ctx.ops, ∃ h ∈ o'.homes, o'.world = w ∧ o'.done = false ∧ h.va = va ∧
        exec (.l2MissFill w va) s = .next (fillL2 s w h o'.evict)) ∧
    (∀ (h : Home) (p prio : Nat), s.l2? w h.va = none → h.pa = some p → ∃ l, (fillL2 s w h prio).l2? w h.va = some l ∧
      l.data = memLine s p ∧ l.pa = p ∧ l.perm = h.perm ∧ l.dirty = false ∧ l.side = BitVec.allOnes 512) ∧
    (∀ o n, s.op? c id = some o → o.body = .flush va n → flushReady s c o = false → exec (.flushComplete c id) s = .next s) ∧
    (∀ o n, s.op? c id = some o → o.id = id → o.body = .flush va n → flushReady s c o = true → ∃ v, exec (.flushComplete c id) s = .next (finishOp v c id) ∧
      (v.ctx c).ops = (s.ctx c).ops ∧
      (∀ d', d' < 2 → ∀ l ∈ (v.die d').l2, l.world = o.world → rangesMeet l.va 128 va n = true → l.dirty = false) ∧
      (∀ l, (s.die 0).l2 = [l] → (s.die 1).l2 = [] → l.world = o.world → l.dirty = true → rangesMeet l.va 128 va n = true →
        backOk s l = true → peekN v.mem l.pa 128 = lineBytes l.data ∧
          ∀ x, x < l.pa ∨ l.pa + 128 ≤ x → peek v.mem x = peek s.mem x)) ∧
    (∀ o n, s.op? c id = some o → o.id = id → o.retired = some n → o.done = false →
      ∃ v, exec (.retiredFaultPost c id code) s = .next (finishOp v c id) ∧ (v.ctx c).ops = (s.ctx c).ops ∧
        (o.level = .app → (v.ctx c).recs = (s.ctx c).recs ++ [retiredRec o.tid { code := code, pc := o.pc }] ∧ v.parts = s.parts) ∧
        -- a steward thread's goes to the queue of its partition
        (∀ p q, o.level = .steward → s.partOf c = some p → s.parts.look p = some q → (v.ctx c).recs = (s.ctx c).recs ∧
          v.parts.look p = some { q with recs := q.recs ++ [(retiredRec o.tid { code := code, pc := o.pc }, c, s.worldOf c)] }))

/-- R382 to R384, R388: a remote access raises what its issue finds; otherwise the request leaves and the thread waits for the answer.
Which port of a route carries it is the model's choice (log 36). -/
def Obligations.RemoteIssue : Prop :=
  ∀ (s : State) (b : Bundle) (t : Nat) (th : Thread) (h : Hdr) (m : MMod) (op : AOp) (fop : FOp) (ty : Ty) (d : Dst) (a q r : Src),
    -- a remote access `i` of a kind, with its destination and its data
    let remote := fun (i : Instr) (u : Uses) (k : RemKind) (cls : Cls) (d' : Dst) (x : DWord × DWord) =>
      let e := envOf s b t u h
      let w := s.actWorld b.core t
      let dv := (rdWord s e h r).toNat
      let va := addrOf s e h .g a
      Ready s b t th .app u h →
        (s.count b.core t cls ≥ 63 → Waits i s b t u h (.retry (.room cls)) s) ∧
        (s.count b.core t cls < 63 →
        (dv ≥ 1024 → Raises i s b t 0x05) ∧
        (dv < 1024 → va % (ty.bits / 8) ≠ 0 → Raises i s b t 0x03) ∧
        (va % (ty.bits / 8) = 0 → dv < 1024 → dv ≥ 576 ∨ dv = s.fab.devno ∨ s.fab.devno = 1023 → Raises i s b t 0x05) ∧
        (va % (ty.bits / 8) = 0 → dv < 576 → dv ≠ s.fab.devno → s.fab.devno ≠ 1023 →
          (s.bind? dv w = none → Raises i s b t 0x08) ∧
          (∀ bd wd, s.bind? dv w = some bd → s.worlds.look w = some wd →
            (s.lostTo wd.part dv = true ∨ s.pickPort wd.part dv va = none → Raises i s b t 0x16) ∧
            (∀ port, s.lostTo wd.part dv = false → s.pickPort wd.part dv va = some port →
              (keyOk s bd.slot w 3 = false ∨ s.txCtr port bd.slot ≥ ctrLast → Raises i s b t 0x08) ∧
              (keyOk s bd.slot w 3 = true → s.txCtr port bd.slot < ctrLast →
                (∀ y, mirrorCheck s dv w (s.agentId b.core t) va (remAcc k) = some y → Raises i s b t y) ∧
                (mirrorCheck s dv w (s.agentId b.core t) va (remAcc k) = none →
                  isRel m.ord = false ∨ releaseReady s b.core t m.scope = true →
                  let s1 := if m.ord == .rlx then s else captureLoads s b.core t
                  let s2 := if k == .load then s1 else irrevocable s1 b.core t
                  let req : RemReq := { src := s.fab.devno, dest := dv, id := remId b.core (s.ctx b.core).nextOp, world := bd.peer, kind := k,
                                        va := va, size := ty.bits / 8, ty := ty, ord := m.ord, scope := m.scope, data := x.1, data2 := x.2,
                                        pc := th.pc }
                  Waits i s b t u h (.retry .never) (sendOn (addOp s2 b.core t cls th.pc (.remote req d' true none) []
                    m.evict.toNat).1 port dv bd.slot 0 va (.req req))))))))
    let us := remoteUses a r (wide ty.is64 [q]) .zero false
    let ua := remoteUses a r (wide ty.is64 [q]) d ty.is64
    let uc := remoteUses a r [(q, if ty.is64 then 4 else 2)] d ty.is64
    let uf := remoteUses a r [(q, 1)] d false
    let word := fun (u : Uses) (n : Nat) => rdWord s (envOf s b t u h) h q n
    remote (.rld h m ty d a r) (remoteUses a r [] d ty.is64) .load .loads d (0, 0) ∧
    remote (.rst h m ty a q r) us .store .stores .zero (rdVal s (envOf s b t us h) h ty q, 0) ∧
    remote (.ratom h m op ty d a q r) ua (.atom op) .loads d (rdVal s (envOf s b t ua h) h ty q, 0) ∧
    remote (.rcas h m ty d a q r) uc .cas .loads d
      (if ty.is64 then (word uc 1 ++ word uc 0, word uc 3 ++ word uc 2) else ((word uc 0).setWidth 64, (word uc 1).setWidth 64)) ∧
    remote (.ratomf h m fop ty d a q r) uf (.atomf fop) .loads d ((word uf 0).setWidth 64, 0)

/-- R383, R384: the target checks a request against its own binding, world, pages and tokens, performs it at home, and answers. -/
def Sys2Proof.Machine.RemoteService : Prop :=
  ∀ (s : State) (r : RemReq),
    (∃ q, exec (.remoteRequestArrival r) s = .next
      (sendMsg (serve q r).1 r.world r.src r.va 1 (.ans (serve q r).2)) ∧ q = { s with fab := { s.fab with remote := s.fab.remote.filter (· != r) } }) ∧
    (serve s r).2.id = r.id ∧
    (s.bind? r.src r.world = none → (serve s r).2.code = some 0x08 ∧ (serve s r).1 = s) ∧
    (∀ bd wd x, s.bind? r.src r.world = some bd → s.worlds.look r.world = some wd →
      homeCheck s r.world r.world r.va (remAcc r.kind) = .error x → (serve s r).2.code = some x ∧ (serve s r).1 = s) ∧
    (∀ bd wd hm p, s.bind? r.src r.world = some bd → s.worlds.look r.world = some wd →
      homeCheck s r.world r.world r.va (remAcc r.kind) = .ok hm → hm.pa = some p → isDoorbell r.world hm = false →
      (∀ x, tokenCheck s r.world (deviceWord r.src) (hm.va + r.va % 128) (remAcc r.kind) = some x → (serve s r).2.code = some x) ∧
      (tokenCheck s r.world (deviceWord r.src) (hm.va + r.va % 128) (remAcc r.kind) = none → windowLine s r.world hm.va = false →
        0 < r.size → r.va % 128 + r.size ≤ 128 →
        (r.kind = .store → (serve s r).2.code = none ∧
          homeLine (serve s r).1 r.world hm =
            lineOfBytes (overlay (lineBytes (homeLine s r.world hm)) (r.va % 128) (bytesOf r.size r.data.toNat))) ∧
        (r.kind = .load → poisoned (fillL2 s r.world hm 3) r.world r.va r.size [hm] = false →
          (serve s r).2.code = none ∧ (serve s r).2.val =
            BitVec.ofNat 64 (natOf (((lineBytes (homeLine s r.world hm)).drop (r.va % 128)).take r.size)))))

/-- R383, R388: the answer to a remote access lets the thread go on, or raises the target's code; its value is written when the access
completes. -/
def Sys2Proof.Machine.RemoteAnswer : Prop :=
  ∀ (s : State) (a : RemAns) (o : Op) (r : RemReq) (d : Dst) (sent : Bool) (th : Thread),
    let c := a.id / 2 ^ 48
    a.id < 2 ^ 64 → s.op? c (a.id % 2 ^ 48) = some o → o.body = .remote r d sent none → o.retired = none →
    s.thr? c o.tid = some th → th.park = none →
      (∀ x, a.code = some x → x ≠ 0x14 → s.todo.contains (.rollback c (s.unitOf c o.tid)) = false →
        ∃ v, exec (.remoteAnswerArrival a) s = .next v ∧ (v.thr c o.tid).park ≠ none ∧ (v.thr c o.tid).pc = th.pc ∧ ∀ q ∈ (v.ctx c).ops, q.id ≠ o.id) ∧
      (a.code = none → ∃ v, exec (.remoteAnswerArrival a) s = .next v ∧ (v.thr c o.tid).pc = nextPc th.pc ∧
        (v.thr c o.tid).blk = .run ∧ (v.thr c o.tid).regs = th.regs ∧
        (v.ctx c).ops = (s.ctx c).ops.map fun q => if q.id = o.id then { q with body := .remote r d sent (some a) } else q) ∧
      (∀ o' id x, s.op? c id = some o' → o'.id = id → o'.done = false → o'.body = .remote r d true (some x) → o'.gone = false →
        exec (.loadComplete c id) s = .next (finishOp (remoteWrite s { c := c, t := o'.tid, low := o'.low } r d x.val) c id) ∧
        (r.kind = .load → remoteWrite s { c := c, t := o'.tid, low := o'.low } r d x.val =
          writeLoaded s { c := c, t := o'.tid, low := o'.low } r.ty d (bytesOf r.size x.val.toNat)) ∧
        (r.kind = .store → remoteWrite s { c := c, t := o'.tid, low := o'.low } r d x.val = s))

/-- Remote accesses: what the target does, and what the answer brings. That the target performs it on arrival, before it answers, is the
model's choice (log 35). -/
def Obligations.RemoteAccess : Prop := RemoteService ∧ RemoteAnswer

/-! ### Groups -/

namespace Sys2Proof.Machine

/-- The bundle that executes: its threads are live, not parked, and pass every check of the instruction (R29, R33, R170). -/
structure Team (s : State) (b : Bundle) (lv : Level) (u : Uses) (h : Hdr) : Prop where
  focus    : s.focus = some b
  some_    : b.tids ≠ []
  distinct : b.tids.Nodup
  ready    : ∀ t ∈ b.tids, ∃ th, s.thr? b.core t = some th ∧ th.park = none ∧ lv.num ≤ th.level.num ∧ u.avail th = true ∧
    guardOk s b.core t h = true ∧ srcMarked s b.core t u = false
/-- The threads of the bundle are members of a group, in slices of `w` by their slots (R160, R170). -/
structure InGroup (s : State) (b : Bundle) (g w : Nat) (slot : Nat → Nat) : Prop where
  group  : ∃ gr, s.group? b.core g = some gr ∧ gr.slice = w
  width  : 0 < w ∧ w ≤ 32
  member : ∀ t ∈ b.tids, (s.thr b.core t).grp = some (g, slot t)
  apart  : ∀ t ∈ b.tids, ∀ v ∈ b.tids, slot t = slot v → t = v
/-- How the members of a bundle read their operands. -/
def teamEnv (s : State) (b : Bundle) (u : Uses) (h : Hdr) (t : Nat) : Env :=
  { c := b.core, t := t, lane := b.lane, low := true, skew := startAt s b.core (b.tids.headD 0) h u 0 }
/-- Every member goes on, with its value in its destination; a y destination holds that of the first. -/
def Got (s w : State) (b : Bundle) (wd : Bool) (d : Dst) (val : Nat → DWord) : Prop :=
  (∀ t ∈ b.tids, (w.thr b.core t).pc = nextPc (s.thr b.core t).pc ∧ (w.thr b.core t).blk = .run ∧
    (w.thr b.core t).preds = (s.thr b.core t).preds ∧
    (w.thr b.core t).regs = ((wrVal s { c := b.core, t := t } wd d (val t)).thr b.core t).regs) ∧
  (∀ g, (w.group? b.core g).map (·.y) =
    ((wrVal s { c := b.core, t := b.tids.headD 0 } wd d (val (b.tids.headD 0))).group? b.core g).map (·.y))
/-- The fixed pairwise tree over 2^k values: the halves are combined (R75). -/
def halves (node : α → α → α) (f : Nat → α) : Nat → Nat → α
  | 0, i => f i
  | k + 1, i => node (halves node f k i) (halves node f k (i + 2 ^ k))

end Sys2Proof.Machine

/-- R170, R171, R173: votes, shuffles and matches act within a slice, on its active members; all read before any is written. -/
def Sys2Proof.Machine.Collectives : Prop :=
  ∀ (s : State) (b : Bundle) (h : Hdr) (g w : Nat) (slot : Nat → Nat) (ty : Ty) (d : Dst) (a p : Src) (k ka : Pred) (mode : ShMode) (zeq : Bool),
    let c := b.core
    InGroup s b g w slot →
    -- whether v is in the slice of t, and in its place i
    let mate := fun (t v : Nat) => v ∈ b.tids ∧ slot v / w = slot t / w
    let place := fun (t v i : Nat) => v ∈ b.tids ∧ slot v = slot t / w * w + i
    (let val := fun (v : Nat) => rdPred s { c := c, t := v } ka = true
     Team s b .app {} h → k ≠ 0 →
      (∃ x, exec (.vote h .all (.pred k) ka) s = .next x ∧ ∀ t ∈ b.tids, (x.thr c t).pc = nextPc (s.thr c t).pc ∧
        (x.thr c t).regs = (s.thr c t).regs ∧ (rdPred x { c := c, t := t } k = true ↔ ∀ v, mate t v → val v)) ∧
      (∃ x, exec (.vote h .any (.pred k) ka) s = .next x ∧ ∀ t ∈ b.tids, (x.thr c t).pc = nextPc (s.thr c t).pc ∧
        (x.thr c t).regs = (s.thr c t).regs ∧ (rdPred x { c := c, t := t } k = true ↔ ∃ v, mate t v ∧ val v)) ∧
      (∃ x, exec (.vote h .uni (.pred k) ka) s = .next x ∧ ∀ t ∈ b.tids, (x.thr c t).pc = nextPc (s.thr c t).pc ∧
        (x.thr c t).regs = (s.thr c t).regs ∧
        (rdPred x { c := c, t := t } k = true ↔ (∀ v, mate t v → val v) ∨ ∀ v, mate t v → ¬ val v))) ∧
    (let u : Uses := { dsts := [(d, 1)] }
     Team s b .app u h → ∃ x f, exec (.vote h .ballot (.reg d) ka) s = .next x ∧ Got s x b false d f ∧ ∀ t ∈ b.tids, ∀ i, i < 32 →
      ((f t).getLsbD i = true ↔ i < w ∧ ∃ v, place t v i ∧ rdPred s { c := c, t := v } ka = true)) ∧
    (let u : Uses := { srcs := wide ty.is64 [a] ++ [(p, 1)], dsts := wideD ty.is64 d }
     let read := fun (v : Nat) => rdVal s (teamEnv s b u h v) h ty a
     Team s b .app u h → ∃ x f, exec (.shfl h mode ty d a p) s = .next x ∧ Got s x b ty.is64 d f ∧ ∀ t ∈ b.tids,
      let n := (rdWord s (teamEnv s b u h t) h p).toNat
      let j := slot t % w
      let from_ : Option Nat := match mode with
        | .idx => some n
        | .up => if n ≤ j then some (j - n) else none
        | .down => some (j + n)
        | .xor => some (j ^^^ n)
      (∀ q v, from_ = some q → q < w → place t v q → f t = read v) ∧
      ((∀ q, from_ = some q → w ≤ q ∨ ∀ v, ¬ place t v q) → f t = read t)) ∧
    (let u : Uses := { srcs := wide ty.is64 [a], dsts := [(d, 1)] }
     let key := fun (v : Nat) => matchCode ty zeq (rdVal s (teamEnv s b u h v) h ty a)
     Team s b .app u h → ∃ x f, exec (.gmatch h zeq ty d a) s = .next x ∧ Got s x b false d f ∧ ∀ t ∈ b.tids, ∀ i, i < 32 →
      ((f t).getLsbD i = true ↔ i < w ∧ ∃ v, place t v i ∧ key v = key t))

/-- R75 to R77, R172: a reduction is the fixed pairwise tree over the slots of the slice, inactive slots holding the identity; a scan
goes up slot by slot; a saturating node sets SAT. -/
def Sys2Proof.Machine.Reductions : Prop :=
  ∀ (s : State) (b : Bundle) (h : Hdr) (g n : Nat) (slot : Nat → Nat) (op : ROp) (ty : Ty) (rm : Rm) (sat exc : Bool) (d : Dst) (a : Src),
    let c := b.core
    let w := 2 ^ n
    let u : Uses := { srcs := wide ty.is64 [a], dsts := wideD ty.is64 d }
    (InGroup s b g w slot → Team s b .app u h →
      let node := redNode op ty rm sat (s.thr c (b.tids.headD 0)).pc
      let leaf := fun (t i : Nat) => redIn s (teamEnv s b u h t) h op ty a (b.tids.find? fun v => slot v == slot t / w * w + i)
      (∃ x, exec (.red h op ty rm sat d a) s = .next x ∧
        Got s x b ty.is64 d (fun t => (halves node (leaf t) n 0).1) ∧
        (x.group? c g).map (·.sat) = (s.group? c g).map fun gr => gr.sat || b.tids.any fun t => (halves node (leaf t) n 0).2) ∧
      (∃ x, exec (.scan h op exc ty rm sat d a) s = .next x ∧
        Got s x b ty.is64 d (fun t =>
          (((List.range (if exc then slot t % w else slot t % w + 1)).map (leaf t)).foldl node (redId op ty, false)).1))) ∧
    (∀ (pc : DWord) (x y : DWord), ty.isFloat = false →
      (redNode .add ty rm false pc (x, false) (y, false)).1 = wrInt ty (rdInt ty x + rdInt ty y) ∧
      (redNode .mul ty rm false pc (x, false) (y, false)).1 = wrInt ty (rdInt ty x * rdInt ty y) ∧
      (redNode .min ty rm sat pc (x, false) (y, false)).1 = wrInt ty (if rdInt ty x ≤ rdInt ty y then rdInt ty x else rdInt ty y) ∧
      (redNode .max ty rm sat pc (x, false) (y, false)).1 = wrInt ty (if rdInt ty x ≤ rdInt ty y then rdInt ty y else rdInt ty x) ∧
      (redNode .and ty rm sat pc (x, false) (y, false)).1 = x &&& y ∧ (redNode .or ty rm sat pc (x, false) (y, false)).1 = x ||| y ∧
      (redNode .xor ty rm sat pc (x, false) (y, false)).1 = x ^^^ y) ∧
    (∀ (pc : DWord) (x : Nat), ty.isFloat = true → x < 2 ^ ty.bits →
      (redNode op ty rm sat pc (redId op ty, false) (BitVec.ofNat 64 x, false)).1 = BitVec.ofNat 64 x)

/-- R58, R76, R77, R79, R80, R117, R118, R173: the identities; a node of a float type adds, multiplies or selects as the float
instructions do; a saturating node clamps, and SAT stays with what it gives; keys match bit for bit, the two zeros only under `.zeq`. -/
def Sys2Proof.Machine.CollectiveNodes : Prop :=
  ∀ (op : ROp) (ty : Ty) (rm : Rm) (pc : DWord),
    (ty.isFloat = false → redId .add ty = 0 ∧ redId .or ty = 0 ∧ redId .xor ty = 0 ∧ redId .mul ty = wrInt ty 1 ∧
      redId .min ty = wrInt ty (tyMax ty) ∧ redId .max ty = wrInt ty (tyMin ty) ∧ redId .and ty = wrInt ty (-1)) ∧
    (redId .add .f32 = 0x80000000 ∧ redId .mul .f32 = 0x3F800000 ∧ redId .min .f32 = 0x7F800000 ∧ redId .max .f32 = 0xFF800000 ∧
     redId .add .f16 = 0x8000 ∧ redId .mul .f16 = 0x3C00 ∧ redId .min .f16 = 0x7C00 ∧ redId .max .f16 = 0xFC00 ∧
     redId .add .bf16 = 0x8000 ∧ redId .mul .bf16 = 0x3F80 ∧ redId .min .bf16 = 0x7F80 ∧ redId .max .bf16 = 0xFF80) ∧
    (∀ x y : Nat, ty.isFloat = true → x < 2 ^ ty.bits → y < 2 ^ ty.bits →
      let f := Ty.fmt ty
      let sg := f.sign x != f.sign y
      let val := fun (v : Nat) => if f.sign v then -(f.mag v : Int) else f.mag v
      let below := fun (v w : Nat) => decide (val v < val w ∨ (val v = val w ∧ f.sign v = true ∧ f.sign w = false))
      let v := match op with
        | .add => if f.isInf x ∧ f.isInf y then (if sg then eventNan ty 1 pc else x)
            else if f.isInf x then x else if f.isInf y then y else sumOf ty rm (f.dy x) (f.dy y)
        | .mul => if (f.isInf x ∧ f.isZero y) ∨ (f.isZero x ∧ f.isInf y) then eventNan ty 2 pc
            else if f.isInf x ∨ f.isInf y then f.put sg f.infM
            else roundF f rm sg ((f.dy x).m * (f.dy y).m) 1 ((f.dy x).e + (f.dy y).e)
        | .min => if below y x then y else x
        | .max => if below x y then y else x
        | _ => 0
      op = .add ∨ op = .mul ∨ op = .min ∨ op = .max → BitVec.ofNat 64 x ≠ redId op ty → BitVec.ofNat 64 y ≠ redId op ty →
        (redNode op ty rm false pc (BitVec.ofNat 64 x, false) (BitVec.ofNat 64 y, false)).1 = BitVec.ofNat 64 (nanElse ty [x, y] v)) ∧
    (∀ x y : RVal, ty.isFloat = false → op = .add ∨ op = .mul →
      let v := if op = .add then rdInt ty x.1 + rdInt ty y.1 else rdInt ty x.1 * rdInt ty y.1
      redNode op ty rm true pc x y =
        if tyMax ty < v then (wrInt ty (tyMax ty), true) else if v < tyMin ty then (wrInt ty (tyMin ty), true)
        else (wrInt ty v, x.2 || y.2)) ∧
    (∀ (zeq : Bool) (x y : DWord),
      (ty.isFloat = false → (matchCode ty zeq x = matchCode ty zeq y ↔ x = y)) ∧
      (ty.isFloat = true →
        let p := x.toNat % 2 ^ ty.bits
        let q := y.toNat % 2 ^ ty.bits
        (matchCode ty zeq x = matchCode ty zeq y ↔
          p = q ∨ (zeq = true ∧ (Ty.fmt ty).isZero p = true ∧ (Ty.fmt ty).isZero q = true))))

/-- R158: a thread in no group is slot 0 of a slice of width 1, in which the collectives act. -/
def Sys2Proof.Machine.CollectivesAlone : Prop :=
  ∀ (s : State) (b : Bundle) (t : Nat) (th : Thread) (h : Hdr) (op : ROp) (ty : Ty) (rm : Rm) (sat zeq : Bool) (mode : ShMode) (d : Dst)
      (a p : Src) (k ka : Pred), th.grp = none →
    (let u : Uses := { ks := [ka], kds := [k] }
     let e := envOf s b t u h
     Ready s b t th .app u h →
      Ends (.vote h .all (.pred k) ka) s b t u h (wrPred s e k (rdPred s e ka)) ∧
      Ends (.vote h .any (.pred k) ka) s b t u h (wrPred s e k (rdPred s e ka)) ∧
      Ends (.vote h .uni (.pred k) ka) s b t u h (wrPred s e k true)) ∧
    (let u : Uses := { dsts := [(d, 1)], ks := [ka] }
     let e := envOf s b t u h
     Ready s b t th .app u h → Ends (.vote h .ballot (.reg d) ka) s b t u h (wrWord s e d (if rdPred s e ka then 1 else 0))) ∧
    (let u : Uses := { srcs := wide ty.is64 [a] ++ one [p], dsts := wideD ty.is64 d }
     let e := envOf s b t u h
     Ready s b t th .app u h → Ends (.shfl h mode ty d a p) s b t u h (wrVal s e ty.is64 d (rdVal s e h ty a))) ∧
    (let u : Uses := { srcs := wide ty.is64 [a], dsts := [(d, 1)] }
     let e := envOf s b t u h
     Ready s b t th .app u h → Ends (.gmatch h zeq ty d a) s b t u h (wrWord s e d 1)) ∧
    (let u := ofType ty [a] d
     let e := envOf s b t u h
     let x := rdVal s e h ty a
     let own := if ty.isFloat then BitVec.ofNat 64 (x.toNat % 2 ^ ty.bits) else wrInt ty (rdInt ty x)
     Ready s b t th .app u h →
      Ends (.red h op ty rm sat d a) s b t u h (wrVal s e ty.is64 d own) ∧
      Ends (.scan h op false ty rm sat d a) s b t u h (wrVal s e ty.is64 d own) ∧
      Ends (.scan h op true ty rm sat d a) s b t u h (wrVal s e ty.is64 d (redId op ty)))

/-- The collectives of a group, and of a thread in none. -/
def Obligations.Collective : Prop := Collectives ∧ Reductions ∧ CollectiveNodes ∧ CollectivesAlone

/-- R160 to R162, R413: an arrival with a bad shape raises 0x01; otherwise the thread waits until the cycle of its arrival is over (log 80),
and then raises 0x11 where no group number or no slot is left, or enters, its rights having moved; the last arrival forms the group. The
arrivals of a core go in the order of their cycles and, within one, of their `tid`. Leaving frees the slot, and the last to leave dissolves
the group. The name under which an agent that has ended passes its rights on is the model's own (log 22). -/
def Obligations.GroupFormation : Prop :=
  ∀ (s : State) (b : Bundle) (t : Nat) (th : Thread) (h : Hdr) (a p : Src) (slot : Option Src),
    let c := b.core
    (let u : Uses := { srcs := one (a :: p :: slot.toList) }
     let e := envOf s b t u h
     let key := rdWord s e h a
     let shape := (rdWord s e h p).toNat
     let want := shape % 256
     let slice := shape / 256
     let n := slot.map fun q => (rdWord s e h q).toNat
     let lawful := (s.ctx c).lead ≠ some t ∧ (slice = 2 ∨ slice = 4 ∨ slice = 8 ∨ slice = 16 ∨ slice = 32) ∧ 1 ≤ want ∧ want ≤ 32
     Ready s b t th .app u h →
      (¬ lawful → Raises (.gjoin h a p slot) s b t 0x01) ∧
      (lawful → Waits (.gjoin h a p slot) s b t u h (.moving key want slice n (nowOf s c + e.skew)) s)) ∧
    -- the arrivals of a core, in their order
    ((s.ctx c).threads.keys.Nodup →
      (arrivals s c).Pairwise (fun x y => x.1 < y.1 ∨ (x.1 = y.1 ∧ x.2 < y.2)) ∧
      (∀ x, x ∈ arrivals s c ↔ ∃ m key want slice n, (x.2, m) ∈ (s.ctx c).threads ∧ m.blk = .moving key want slice n x.1) ∧
      joinArrivals s c = (arrivals s c).foldl (fun v x => joinOne v c x.2) s) ∧
    exec (.tokenMoveOnJoin c t) s = .next (joinOne s c t) ∧
    (∀ key want slice n at_, s.thr? c t = some th → th.blk = .moving key want slice n at_ → th.park = none →
      s.todo.contains (.rollback c (s.unitOf c t)) = false →
      let full := (forming? s c key want slice = none ∧ 64 ≤ (gidsUsed s c t).length) ∨ (∃ q, n = some q ∧ want ≤ q) ∨
        (∃ q g gr, n = some q ∧ forming? s c key want slice = some (g, gr) ∧ gr.mem.has q = true)
      (nowOf s c ≤ at_ → joinOne s c t = s) ∧
      (at_ < nowOf s c → full → Raised s (joinOne s c t) c t 0x11 0) ∧
      (at_ < nowOf s c → ¬ full →
        let v := joinOne s c t
        (joinRights s c t ≠ [] → canMove s c t = false → v = s) ∧
        (joinRights s c t = [] ∨ canMove s c t = true → 1 ≤ want →
          -- a new group
          (th.grp = none → forming? s c key want slice = none → ∃ g gr, (s.ctx c).groups.has g = false ∧ g < 64 ∧
            (∀ g', g' < g → (s.ctx c).groups.has g' = true) ∧ (v.thr c t).grp = some (g, n.getD 0) ∧ (v.thr c t).sat = false ∧
            (v.thr c t).regs = th.regs ∧ v.group? c g = some gr ∧ gr.key = key ∧ gr.want = want ∧ gr.slice = slice ∧
            gr.mem = [(n.getD 0, t)] ∧ gr.sat = th.sat ∧ gr.armed = false ∧ gr.y = [] ∧
            (want = 1 → gr.formed = true ∧ (v.thr c t).pc = nextPc th.pc ∧ (v.thr c t).blk = .run) ∧
            (2 ≤ want → gr.formed = false ∧ (v.thr c t).pc = th.pc ∧ (v.thr c t).blk = .join)) ∧
          -- a group that is forming
          (∀ g gr, th.grp = none → forming? s c key want slice = some (g, gr) → s.group? c g = some gr → gr.mem.length < want →
            (∀ m ∈ gr.mem, m.2 ≠ t ∧ (s.thr? c m.2).isSome = true) → gr.mem.Pairwise (fun x y => x.2 ≠ y.2) →
            ∃ q gr', gr.mem.has q = false ∧ (∀ x, n = some x → q = x) ∧ (n = none → ∀ x, x < q → gr.mem.has x = true) ∧
              (v.thr c t).grp = some (g, q) ∧ (v.thr c t).sat = false ∧ (v.thr c t).regs = th.regs ∧
              v.group? c g = some gr' ∧ gr'.mem = gr.mem.put q t ∧ gr'.sat = (gr.sat || th.sat) ∧ gr'.y = gr.y ∧
              (gr.mem.length + 1 = want → gr'.formed = true ∧ (v.thr c t).pc = nextPc th.pc ∧ (v.thr c t).blk = .run ∧
                ∀ m ∈ gr.mem, (v.thr c m.2).pc = nextPc (s.thr c m.2).pc ∧ (v.thr c m.2).blk = .run) ∧
              (gr.mem.length + 1 < want → gr'.formed = gr.formed ∧ (v.thr c t).pc = th.pc ∧ (v.thr c t).blk = .join)) ∧
          -- it leaves the group it was in
          (∀ g sl gr, th.grp = some (g, sl) → s.group? c g = some gr → gr.formed = true → (s.ctx c).cvs = [] → gr.mem.del sl ≠ [] →
            gr.mem.look sl = some t → (s.ctx c).groups.keys.Nodup →
            (v.group? c g).map (·.mem) = some (gr.mem.del sl) ∧ (v.thr c t).grp.map (·.1) ≠ some g ∧ (v.thr c t).regs = th.regs)))) ∧
    (Ready s b t th .app {} h →
      (th.grp = none → Ends (.gleave h) s b t {} h s) ∧
      (∀ g sl gr, th.grp = some (g, sl) → s.group? c g = some gr → (s.ctx c).cvs = [] →
        ∃ v, Ends (.gleave h) s b t {} h v ∧ (v.thr c t).grp = none ∧ (v.thr c t).sat = false ∧ (v.thr c t).regs = th.regs ∧
          (gr.mem.del sl ≠ [] → v.group? c g = some { gr.forget s t with mem := gr.mem.del sl } ∧
            (gr.hazard = [] → (gr.forget s t).y = gr.y)) ∧
          -- the group's number and its y registers go with the last
          (gr.mem.del sl = [] → v.group? c g = none ∧
            ∃ k, v.ending = s.ending ++ [(c, agentWord c (.gone s.dead), s.worldOf c, k)]))) ∧
    (let u : Uses := { srcs := one [a] }
     let n := (rdWord s (envOf s b t u h) h a).toNat
     Ready s b t th .app u h →
      (n ≠ 2 → n ≠ 4 → n ≠ 8 → n ≠ 16 → n ≠ 32 → Raises (.gslice h a) s b t 0x01) ∧
      (n = 2 ∨ n = 4 ∨ n = 8 ∨ n = 16 ∨ n = 32 →
        (th.grp = none → Ends (.gslice h a) s b t u h s) ∧
        (∀ g sl, th.grp = some (g, sl) → Ends (.gslice h a) s b t u h (s.modGroup c g fun gr => { gr with slice := n }))))

/-- R174, R175, R201, R268: an arrival reports what the thread holds, releases and waits; a phase completes when every member has
arrived: all go on, an `rwait` with its predicate true, or, where SAT is set and armed, all park with 0x1B; an `rwait` whose count has
run out goes on with it false. -/
def Obligations.Barriers : Prop :=
  ∀ (s : State) (b : Bundle) (t : Nat) (th : Thread) (h : Hdr) (sc : Scope) (kd : Pred) (a : Src),
    let c := b.core
    (let u : Uses := { srcs := one [a] }
     let n := (rdWord s (envOf s b t u h) h a).toNat
     let held := fun (i : Instr) (u' : Uses) =>
      (∀ f l, th.fails = f :: l → f.code ≠ 0x14 → ∃ w, exec i s = .next w ∧ (w.thr c t).park ≠ none ∧ (w.thr c t).pc = th.pc ∧
        (w.thr c t).fails = l ∧ (th.level = .app → ∃ r, (w.ctx c).recs = (s.ctx c).recs ++ [r] ∧ r.code = f.code ∧ r.pc = f.pc ∧
          r.num = f.elem ∧ r.addr = f.addr)) ∧
      (th.fails = [] → releaseReady s c t sc = false → Waits i s b t u' h (.retry (.released sc)) s)
     (Ready s b t th .app {} h → held (.gbar h sc) {} ∧
      (th.fails = [] → releaseReady s c t sc = true → Waits (.gbar h sc) s b t {} h (.bar sc) (captureLoads s c t))) ∧
     (Ready s b t th .app u h → held (.rwait h sc kd a) u ∧
      (th.fails = [] → releaseReady s c t sc = true → Waits (.rwait h sc kd a) s b t u h (.rwait sc kd n) (captureLoads s c t)))) ∧
    (s.thr? c t = some th → th.blk = .rwait sc kd 0 → kd ≠ 0 → ∃ w, exec (.rwaitExpiry c t) s = .next w ∧
      (w.thr c t).pc = nextPc th.pc ∧ (w.thr c t).blk = .run ∧ rdPred w { c := c, t := t } kd = false ∧ (w.thr c t).regs = th.regs) ∧
    (∀ g gr, s.group? c g = some gr → (∀ m ∈ gr.mem.vals, ∃ x, s.thr? c m = some x ∧ x.park = none ∧ waiting x = true) →
      gr.mem.vals.Nodup → gr.mem ≠ [] → phaseReady s c (.grp g) = true ∧
      (gr.sat = false ∨ gr.armed = false → (s.ctx c).phaseStep = false → ∀ m ∈ gr.mem.vals,
        let w := completePhase s c (.grp g)
        (w.thr c m).pc = nextPc (s.thr c m).pc ∧ (w.thr c m).blk = .run ∧ (w.thr c m).regs = (s.thr c m).regs ∧
        (∀ x k n, (s.thr c m).blk = .rwait x k n → k ≠ 0 → rdPred w { c := c, t := m } k = true)) ∧
      (gr.sat = true → gr.armed = true → s.todo.contains (.rollback c (.grp g)) = false →
        (∀ m ∈ gr.mem.vals, (s.thr c m).grp.map (·.1) = some g) → ∀ m ∈ gr.mem.vals,
        let w := completePhase s c (.grp g)
        (∃ p ∈ (w.ctx c).parked, (w.thr c m).park = some p.id ∧ p.code = 0x1B ∧ p.pc = (s.thr c m).pc ∧ p.mems.any (·.2 == m) = true) ∧
        (w.thr c m).pc = (s.thr c m).pc ∧ w.group? c g = some gr)) ∧
    -- a thread in no group completes a phase alone
    (s.thr? c t = some th → th.grp = none → th.park = none → waiting th = true → phaseReady s c (.thr t) = true ∧
      ((s.ctx c).phaseStep = false →
        let w := completePhase s c (.thr t)
        (w.thr c t).pc = nextPc th.pc ∧ (w.thr c t).blk = .run ∧ (w.thr c t).regs = th.regs ∧
        (∀ x k n, th.blk = .rwait x k n → k ≠ 0 → rdPred w { c := c, t := t } k = true)))

/-- R112, R176, R178, R179: a watched word that has changed, or a write or the count, ends `mwait`, with the cause in its destination; a
decision is pushed after a release and popped, oldest first, with an acquire; the SAT and armed bits are read, cleared and set. Which
stores a pop lets its thread have seen is the model's record of them (log 62). -/
def Obligations.WaitingAndDecisions : Prop :=
  ∀ (s : State) (b : Bundle) (t : Nat) (th : Thread) (h : Hdr) (m : MMod) (d : Dst) (a p q : Src),
    let c := b.core
    (let u : Uses := { srcs := [(a, 2), (p, 1), (q, 1)], dsts := [(d, 1)] }
     let e := envOf s b t u h
     let n := (rdWord s e h q).toNat
     let acq := if m.ord == .acq then some m.scope else none
     Ready s b t th .app u h →
      (addrOf s e h .g a % 4 ≠ 0 → Raises (.mwait h m d a p q) s b t 0x03) ∧
      (∀ s' va hm pa, accessCheck s e .g (addrOf s e h .g a) 4 4 .watch = .ok (s', va, [hm]) → hm.pa = some pa →
        (s.ctx c).ops = [] → poisoned s (s.actWorld c t) va 4 [hm] = false →
        let v := BitVec.ofNat 32 (natOf (homeBytes (fillL2 s' (s.actWorld c t) hm m.evict.toNat) (s.actWorld c t) va 4 [hm]))
        let s1 := enterSig (fillL2 s' (s.actWorld c t) hm m.evict.toNat) c (s.sigId c t) va
        (v ≠ rdWord s e h p → Ends (.mwait h m d a p q) s b t u h (mwaitAcquire (wrWord s1 e d 0) c t (hm.va + va % 128) acq)) ∧
        (v = rdWord s e h p → Waits (.mwait h m d a p q) s b t u h
          (.mwait acq (e.keep d) (hm.va + va % 128) v (if n = 0 then none else some n) false) (armMonitor s1 c t (hm.va + va % 128))))) ∧
    (∀ va seen left woken, s.thr? c t = some th → th.blk = .mwait none d va seen (some left) woken →
      (left ≠ 0 → exec (.mwaitTimeout c t) s = .next s) ∧
      (left = 0 → ∃ w, exec (.mwaitTimeout c t) s = .next w ∧ (w.thr c t).pc = nextPc th.pc ∧ (w.thr c t).blk = .run ∧
        (w.thr c t).regs = ((wrWord s { c := c, t := t } d (if woken then 1 else 3)).thr c t).regs)) ∧
    (∀ n, s.thr? c t = some th → th.blk = .sleep n →
      (n ≠ 0 → exec (.sleepExpiry c t) s = .next s) ∧
      (n = 0 → ∃ w, exec (.sleepExpiry c t) s = .next w ∧ (w.thr c t).pc = nextPc th.pc ∧ (w.thr c t).blk = .run ∧
        (w.thr c t).regs = th.regs)) ∧
    (let u : Uses := { srcs := one [a, p] }
     let e := envOf s b t u h
     let n := (rdWord s e h p).toNat
     Ready s b t th .app u h →
      (128 ≤ n ∨ (64 ≤ n ∧ n ≤ 126) → Raises (.dqPush h a p) s b t 0x01) ∧
      (n < 64 ∨ n = 127 →
        (64 ≤ (s.ctx c).dq.length → Waits (.dqPush h a p) s b t u h (.retry .dqSpace) s) ∧
        ((s.ctx c).dq.length < 64 → releaseReady s c t .core = false → Waits (.dqPush h a p) s b t u h (.retry (.released .core)) s) ∧
        ((s.ctx c).dq.length < 64 → releaseReady s c t .core = true → Ends (.dqPush h a p) s b t u h
          ((captureLoads s c t).modCtx c fun x =>
            { x with dq := x.dq ++ [(rdWord s e h a, n)], dqSeen := x.dqSeen ++ [x.seenBy t] })))) ∧
    (let u : Uses := { dsts := [(d, 1)] }
     let e := envOf s b t u h
     Ready s b t th .app u h →
      ((s.ctx c).dq = [] → Waits (.dqPop h d) s b t u h (.retry .dqEntry) s) ∧
      (∀ v n l, (s.ctx c).dq = (v, n) :: l → th.blk = .run → n = 127 ∨ (∃ sl, th.grp = some (n, sl)) →
        (∀ x ∈ (s.ctx c).threads, x.2.blk ≠ .retry .dqEntry) →
        Ends (.dqPop h d) s b t u h (wrWord (acquireAll ((observe s c t ((s.ctx c).dqSeen.getD 0 [])).modCtx c fun x =>
          { x with dq := l, dqSeen := x.dqSeen.eraseIdx 0 }) c (s.actWorld c t) .core) e d v)) ∧
      (∀ g sl gr k, th.grp = some (g, sl) → s.group? c g = some gr → satBits s c t = (gr.sat, gr.armed) ∧
        clearSat s c t = s.modGroup c g (fun x => { x with sat := false }) ∧
        setArmed k s c t = s.modGroup c g fun x => { x with armed := k }) ∧
      (∀ k, th.grp = none → satBits s c t = (th.sat, false) ∧ clearSat s c t = s.modThr c t (fun x => { x with sat := false }) ∧
        setArmed k s c t = s) ∧
      (let word := BitVec.ofNat 32 ((satBits s c t).1.toNat + 2 * (satBits s c t).2.toNat)
       Ends (.gsatRd h d) s b t u h (wrWord s e d word) ∧
       Ends (.gsatClr h d) s b t u h (clearSat (wrWord s e d word) c t) ∧
       Ends (.gsatArm h d) s b t u h (setArmed true (wrWord s e d word) c t) ∧
       Ends (.gsatDisarm h d) s b t u h (setArmed false (wrWord s e d word) c t)))

/-! ### Tiles, patterns and copies -/

namespace Sys2Proof.Machine

/-- The thread parks where it stands with a code; the instruction may have filled caches on the way (R92, R303). -/
def Parks (i : Instr) (s : State) (b : Bundle) (t : Nat) (code : BitVec 6) : Prop :=
  ∃ w, exec i s = .next w ∧ (w.thr b.core t).park ≠ none ∧ (w.thr b.core t).pc = (s.thr b.core t).pc ∧
    (w.thr b.core t).regs = (s.thr b.core t).regs ∧
    ((s.thr b.core t).level = .app → ∃ r, (w.ctx b.core).recs = (s.ctx b.core).recs ++ [r] ∧ r.code = code)

end Sys2Proof.Machine

/-- R188 to R194: a tile is defined from a legal image into a free entry over bytes that no other tile holds, freed and marked only in
its lawful states, and queried; R184: the split changes only while nothing of the scratchpad is in use. -/
def Obligations.Tiles : Prop :=
  ∀ (s : State) (b : Bundle) (t : Nat) (th : Thread) (h : Hdr) (tl : BitVec 7) (d : Dst) (a : Src),
    let c := b.core
    let n := tl.toNat
    let tile := (s.ctx c).tiles.look n
    (let u : Uses := { srcs := [(a, 2)] }
     let va := addrOf s (envOf s b t u h) h .g a
     Ready s b t th .app u h →
      (va % 16 ≠ 0 → Raises (.tileDef h tl a) s b t 0x03) ∧
      (va % 16 = 0 → ∀ r, readImage s (envOf s b t u h) va 16 = .error r → r.used = false → Raises (.tileDef h tl a) s b t r.code) ∧
      (va % 16 = 0 → ∀ s1 l, readImage s (envOf s b t u h) va 16 = .ok (s1, l) →
        (tile ≠ none → Parks (.tileDef h tl a) s b t 0x09) ∧
        (tile = none → tileOfImage (s.ctx c) l = none → Parks (.tileDef h tl a) s b t 0x0A) ∧
        (tile = none → ∀ ti, tileOfImage (s.ctx c) l = some ti →
          ((∃ q ∈ (s.ctx c).tiles, q.2.meets ti.off (ti.rows * ti.pitch) = true) → Parks (.tileDef h tl a) s b t 0x09) ∧
          ((∀ q ∈ (s.ctx c).tiles, q.2.meets ti.off (ti.rows * ti.pitch) = false) →
            ∃ v, Ends (.tileDef h tl a) s b t u h v ∧ (v.ctx c).tiles = (s.ctx c).tiles.put n ti ∧ v.mem = s1.mem)))) ∧
    (∀ (l : List Byte) (ti : Tile), tileOfImage (s.ctx c) l = some ti →
      ti.off = natOf (l.take 4) ∧ ti.rows = natOf ((l.drop 4).take 1) ∧ ti.cols = natOf ((l.drop 6).take 2) ∧
      ti.esz = 2 ^ natOf ((l.drop 5).take 1) ∧ ti.st = .empty ∧ ti.off % 64 = 0 ∧ 1 ≤ ti.rows ∧ ti.rows ≤ 64 ∧ 1 ≤ ti.cols ∧
      ti.cols * ti.esz ≤ 4096 ∧ ti.off + ti.rows * ti.pitch ≤ 65536 * (16 - (s.ctx c).l1units)) ∧
    (Ready s b t th .app {} h →
      (tile = none → Raises (.tileFree h tl) s b t 0x09 ∧ Raises (.tileRdySet h tl) s b t 0x09 ∧ Raises (.tileRdyClr h tl) s b t 0x09) ∧
      (∀ ti, tile = some ti →
        (ti.st = .filling ∨ ti.st = .draining → Raises (.tileFree h tl) s b t 0x09 ∧ Raises (.tileRdySet h tl) s b t 0x09 ∧
          Raises (.tileRdyClr h tl) s b t 0x09) ∧
        (ti.st = .empty → ti.replay = false →
          (∃ v, Ends (.tileFree h tl) s b t {} h v ∧ (v.ctx c).tiles = (s.ctx c).tiles.del n ∧ (v.ctx c).scratch = (s.ctx c).scratch) ∧
          Raises (.tileRdyClr h tl) s b t 0x09 ∧
          (releaseReady s c t .core = false → Waits (.tileRdySet h tl) s b t {} h (.retry (.released .core)) s) ∧
          (releaseReady s c t .core = true → ∃ v, Ends (.tileRdySet h tl) s b t {} h v ∧
            (v.ctx c).tiles = (s.ctx c).tiles.put n { ti with st := .ready })) ∧
        (ti.st = .ready → Raises (.tileRdySet h tl) s b t 0x09 ∧
          (ti.mread ≠ 0 → Raises (.tileFree h tl) s b t 0x09 ∧ Raises (.tileRdyClr h tl) s b t 0x09) ∧
          (ti.mread = 0 →
            (∃ v, Ends (.tileFree h tl) s b t {} h v ∧ (v.ctx c).tiles = (s.ctx c).tiles.del n) ∧
            (∃ v, Ends (.tileRdyClr h tl) s b t {} h v ∧ (v.ctx c).tiles = (s.ctx c).tiles.put n { ti with st := .empty }))))) ∧
    (let u : Uses := { dsts := [(d, 1)] }
     let e := envOf s b t u h
     Ready s b t th .app u h →
      (tile = none → Ends (.tileQry h tl d) s b t u h (wrWord s e d 0)) ∧
      (∀ ti, tile = some ti →
        let code : Nat := match ti.st with | .empty => 0 | .filling => 1 | .ready => 2 | .draining => 3
        let word := BitVec.ofNat 32 (code + 4 + 8 * ti.replay.toNat + 16 * ti.err.toNat + 65536 * ti.rows)
        Ends (.tileQry h tl d) s b t u h
          (if ti.st = .ready then acquireAll (takePosts (wrWord s e d word) c t (.tile n) .core) c (s.actWorld c t) .core
           else wrWord s e d word))) ∧
    (let u : Uses := { srcs := one [a], dsts := [(d, 1)] }
     let e := envOf s b t u h
     let n := (rdWord s e h a).toNat
     Ready s b t th .app u h →
      (n < 2 ∨ 8 < n → Raises (.spCfg h d a) s b t 0x01) ∧
      (2 ≤ n → n ≤ 8 → (s.ctx c).tiles ≠ [] ∨ (s.ctx c).copies ≠ [] ∨ scratchBusy (s.ctx c) = true →
        Ends (.spCfg h d a) s b t u h (wrWord s e d 1)) ∧
      (2 ≤ n → n ≤ 8 → (s.ctx c).tiles = [] → (s.ctx c).copies = [] → scratchBusy (s.ctx c) = false →
        ∃ v, Ends (.spCfg h d a) s b t u h (wrWord v e d 0) ∧ (v.ctx c).l1units = n ∧ (v.core c).l1 = [] ∧ v.mem = s.mem ∧
          (v.ctx c).threads = (s.ctx c).threads))

namespace Sys2Proof.Machine
/-- The address of element `k` of a record (R196), with what stands for its index in dimension 1: the index itself, or what is read. -/
def strideAddr (p : Pat) (x : DWord) (k i1 : Nat) : Nat :=
  (((p.base : Int) + x.toNat + (k % p.n 0 : Nat) * p.st 0 + (i1 : Nat) * p.st 1 + (k / p.n 0 / p.n 1 % p.n 2 : Nat) * p.st 2 +
    (k / p.n 0 / p.n 1 / p.n 2 : Nat) * p.st 3) % (2 ^ 64 : Nat)).toNat
end Sys2Proof.Machine

/-- R195, R197, R198: the words of a pattern register, one at a time or from memory; the fence empties the record cache once the thread's
writes are held; R195, R196: when a record is legal, and where its elements are, an indirect row's index being read once. -/
def Sys2Proof.Machine.Patterns : Prop :=
  ∀ (s : State) (b : Bundle) (t : Nat) (th : Thread) (h : Hdr) (pat w : BitVec 4) (a : Src) (p : Pat) (x : DWord) (k : Nat) (o : Op),
    let c := b.core
    (let u : Uses := { srcs := one [a] }
     Ready s b t th .app u h → ∃ v, Ends (.patDef h pat w a) s b t u h (s.modCtx c fun y => { y with pats := y.pats.set 0 pat.toNat v }) ∧
      v.extractLsb' (32 * w.toNat) 32 = rdWord s (envOf s b t u h) h a ∧
      ∀ j, j < 16 → j ≠ w.toNat → v.extractLsb' (32 * j) 32 = ((s.ctx c).pats.get 0 pat.toNat).extractLsb' (32 * j) 32) ∧
    (let u : Uses := { srcs := [(a, 2)] }
     let va := addrOf s (envOf s b t u h) h .g a
     Ready s b t th .app u h →
      (va % 64 ≠ 0 → Raises (.patLd h pat a) s b t 0x03) ∧
      (va % 64 = 0 → ∀ r, readImage s (envOf s b t u h) va 64 = .error r → r.used = false → Raises (.patLd h pat a) s b t r.code) ∧
      (va % 64 = 0 → ∀ s1 l, readImage s (envOf s b t u h) va 64 = .ok (s1, l) → Ends (.patLd h pat a) s b t u h
        (s1.modCtx c fun y => { y with pats := y.pats.set 0 pat.toNat (BitVec.ofNat 512 (natOf l)) }))) ∧
    (Ready s b t th .app {} h →
      ((∀ q ∈ (s.ctx c).ops, q.tid = t → q.retired = none → q.done = true) →
        Ends (.patFence h) s b t {} h (s.modCore c fun y => { y with rcache := [] })) ∧
      (writesHeld s c t (s.ctx c).nextOp = false → Waits (.patFence h) s b t {} h (.retry .held) s)) ∧
    (p.isz = 0 → ∀ row, elemAddr s c o p x k row = .ok (s, strideAddr p x k (k / p.n 0 % p.n 1), 0)) ∧
    (p.isz ≠ 0 →
      (∀ v, elemAddr s c o p x k (some (k / p.n 0, v)) = .ok (s, strideAddr p x k v, v)) ∧
      (∀ s1 l row, (∀ y, row = some y → y.1 ≠ k / p.n 0) →
        engineRead s c o ((p.ibase + k / p.n 0 * p.isz) % 2 ^ 64) p.isz = .ok (s1, l) →
        elemAddr s c o p x k row = .ok (s1, strideAddr p x k (natOf l), natOf l))) ∧
    (∀ r : BitVec 512,
      let at_ := fun (i n : Nat) => (r.extractLsb' (8 * i) (8 * n)).toNat
      let esz := 2 ^ at_ 8 1
      patOk r = true ↔ at_ 8 1 < 4 ∧ at_ 9 1 < 3 ∧ at_ 10 2 = 0 ∧ at_ 36 4 = 0 ∧ at_ 48 16 = 0 ∧ at_ 0 8 % esz = 0 ∧
        (∀ i, i < 4 → at_ (12 + 2 * i) 2 ≠ 0 ∧ ((r.extractLsb' (8 * (20 + 4 * i)) 32).toInt) % (esz : Int) = 0) ∧
        (at_ 9 1 = 1 → at_ 40 8 % 2 = 0) ∧ (at_ 9 1 = 2 → at_ 40 8 % 4 = 0)) ∧
    (∀ (r : BitVec 512) (ti : Tile), copyShape r ti = true ↔ patOk r = true ∧ (patOf r).esz = ti.esz ∧
      (patOf r).n 0 * (patOf r).n 1 * (patOf r).n 2 * (patOf r).n 3 ≤ ti.rows * ti.cols)

/-- R84, R199, R202, R231: a copy waits for a counter and a queue entry, raises what its operands are wrong in, and otherwise is accepted:
its destination is FILLING, its source DRAINING, and it is counted. -/
def Sys2Proof.Machine.CopiesAccepted : Prop :=
  ∀ (s : State) (b : Bundle) (t : Nat) (th : Thread) (h : Hdr) (ev : BitVec 3) (tl sl : BitVec 7) (pat : BitVec 4) (a p q : Src)
    (sig : Option Src) (tr : Bool),
    let c := b.core
    let full := fun (i : Instr) (u : Uses) =>
      (s.count c t .copies ≥ 63 → Waits i s b t u h (.retry (.room .copies)) s) ∧
      (s.count c t .copies < 63 → 32 ≤ (s.ctx c).copies.length → Waits i s b t u h (.retry .copyQueue) s)
    let room := s.count c t .copies < 63 ∧ (s.ctx c).copies.length < 32
    let took := fun (v : State) (k : CopyKind) (g : Option Nat) =>
      s.count c t .copies + 1 ≤ v.count c t .copies ∧ ∃ y, (v.ctx c).copies = (s.ctx c).copies ++ [y] ∧ y.tid = t ∧ y.pc = th.pc ∧
        y.kind = k ∧ y.sig = g
    (let u : Uses := { srcs := one (a :: sig.toList) }
     let e := envOf s b t u h
     Ready s b t th .app u h → full (.tileFill h tl a sig) u ∧
      (room → (tileAt s e tl = none → Raises (.tileFill h tl a sig) s b t 0x09) ∧
        (∀ ti, tileAt s e tl = some ti →
          -- an element of 8 bytes is a pair
          let pair := a.isImm = false ∧ a.al 2 = true ∧ srcAvail th (a, 2) = true
          let v8 := if ti.esz = 8 then rdPair s e h a else (rdWord s e h a).setWidth 64
          (ti.esz = 8 → a.isImm = true ∨ a.al 2 = false → Raises (.tileFill h tl a sig) s b t 0x01) ∧
          (ti.esz = 8 → a.isImm = false → a.al 2 = true → srcAvail th (a, 2) = false → Raises (.tileFill h tl a sig) s b t 0x0F) ∧
          (ti.esz ≠ 8 ∨ pair →
            (ti.st ≠ .empty ∨ ti.replay = true → Raises (.tileFill h tl a sig) s b t 0x09) ∧
            (ti.st = .empty → ti.replay = false →
              (∀ r, signalCheck s e h sig = .error r → Raises (.tileFill h tl a sig) s b t r.code) ∧
              (∀ g, signalCheck s e h sig = .ok g → ∃ v, Ends (.tileFill h tl a sig) s b t u h v ∧
                took v (.fill tl.toNat v8) g ∧
                (v.ctx c).tiles = (s.ctx c).tiles.put tl.toNat { ti with st := .filling })))))) ∧
    (let u : Uses := { srcs := (p, 2) :: one sig.toList }
     let e := envOf s b t u h
     let r := (s.ctx c).pats.get 0 pat.toNat
     Ready s b t th .app u h → full (.cpIn h ev tl pat p sig) u ∧ full (.cpOut h ev tl pat p sig) u ∧
      (room → (tileAt s e tl = none → Raises (.cpIn h ev tl pat p sig) s b t 0x09 ∧ Raises (.cpOut h ev tl pat p sig) s b t 0x09) ∧
        (∀ ti, tileAt s e tl = some ti →
          (copyShape r ti = false → Raises (.cpIn h ev tl pat p sig) s b t 0x0A) ∧
          (copyShape r ti = true → ti.st ≠ .empty ∨ ti.replay = true → Raises (.cpIn h ev tl pat p sig) s b t 0x09) ∧
          (copyShape r ti = true → ti.st = .empty → ti.replay = false → ∀ x, signalCheck s e h sig = .error x →
            Raises (.cpIn h ev tl pat p sig) s b t x.code) ∧
          (copyShape r ti = true → ti.st = .ready → ∀ x, signalCheck s e h sig = .error x →
            Raises (.cpOut h ev tl pat p sig) s b t x.code) ∧
          (copyShape r ti = true → ti.st = .empty → ti.replay = false → ∀ g, signalCheck s e h sig = .ok g →
            ∃ v, Ends (.cpIn h ev tl pat p sig) s b t u h v ∧ took v (.cpIn tl.toNat r (rdPair s e h p) ev.toNat) g ∧
              (v.ctx c).tiles = (s.ctx c).tiles.put tl.toNat { ti with st := .filling }) ∧
          (ti.st ≠ .ready → Waits (.cpOut h ev tl pat p sig) s b t u h (.retry (.tile tl.toNat)) s) ∧
          (ti.st = .ready → copyShape r ti = false → Raises (.cpOut h ev tl pat p sig) s b t 0x0A) ∧
          (ti.st = .ready → copyShape r ti = true → ∀ g, signalCheck s e h sig = .ok g →
            ∃ v, Ends (.cpOut h ev tl pat p sig) s b t u h v ∧ took v (.cpOut tl.toNat r (rdPair s e h p) ev.toNat) g ∧
              (v.ctx c).tiles = (s.ctx c).tiles.put tl.toNat { ti with st := .draining })))) ∧
    (let u : Uses := { srcs := one sig.toList }
     let e := envOf s b t u h
     Ready s b t th .app u h → full (.cpTt h tr tl sl sig) u ∧
      (room → (tl = sl ∨ tileAt s e tl = none ∨ tileAt s e sl = none → Raises (.cpTt h tr tl sl sig) s b t 0x09) ∧
        (∀ di si, tl ≠ sl → tileAt s e tl = some di → tileAt s e sl = some si →
          let fits := di.esz = si.esz ∧ (if tr then si.cols else si.rows) ≤ di.rows ∧ (if tr then si.rows else si.cols) ≤ di.cols
          (si.st ≠ .ready → Waits (.cpTt h tr tl sl sig) s b t u h (.retry (.tile sl.toNat)) s) ∧
          (si.st = .ready → ¬ fits → Raises (.cpTt h tr tl sl sig) s b t 0x0A) ∧
          (si.st = .ready → fits → di.st ≠ .empty ∨ di.replay = true → Raises (.cpTt h tr tl sl sig) s b t 0x09) ∧
          (si.st = .ready → fits → di.st = .empty → di.replay = false → ∀ x, signalCheck s e h sig = .error x →
            Raises (.cpTt h tr tl sl sig) s b t x.code) ∧
          (si.st = .ready → fits → di.st = .empty → di.replay = false → ∀ g, signalCheck s e h sig = .ok g →
            ∃ v, Ends (.cpTt h tr tl sl sig) s b t u h v ∧ took v (.tt tl.toNat sl.toNat tr) g ∧
              (v.ctx c).tiles.look tl.toNat = some { di with st := .filling } ∧
              (v.ctx c).tiles.look sl.toNat = some { si with st := .draining })))) ∧
    (let u : Uses := { srcs := [(a, 2), (p, 1), (q, 1)] }
     let e := envOf s b t u h
     let va := addrOf s e h .g a
     let off := (rdWord s e h p).toNat
     let n := (rdWord s e h q).toNat
     Ready s b t th .app u h → (n ≠ 0 → full (.wbLd h ev a p q) u) ∧
      -- with a count of 0 it is no copy, and nothing holds it back
      (n = 0 ∨ room → (va % 64 ≠ 0 ∨ off % 64 ≠ 0 ∨ n % 64 ≠ 0 → Raises (.wbLd h ev a p q) s b t 0x03) ∧
        (va % 64 = 0 → off % 64 = 0 → n % 64 = 0 → (262144 < off + n → Raises (.wbLd h ev a p q) s b t 0x05) ∧
          (off + n ≤ 262144 → n = 0 → Ends (.wbLd h ev a p q) s b t u h s) ∧
          (off + n ≤ 262144 → n ≠ 0 → ∃ v, Ends (.wbLd h ev a p q) s b t u h v ∧ took v (.wb off va n ev.toNat) none)))) ∧
    -- the address of a signal word
    (∀ (e : Env) (x : Src),
      let v := (rdWord s e h x).toNat
      let tiled := ∃ y ∈ (s.ctx e.c).tiles, v < y.2.off + y.2.rows * y.2.pitch ∧ y.2.off < v + 4
      signalCheck s e h none = .ok none ∧
      (v % 4 ≠ 0 → ∃ r, signalCheck s e h (some x) = .error r ∧ r.code = 0x03) ∧
      (v % 4 = 0 → 65536 * (16 - (s.ctx e.c).l1units) < v + 4 → ∃ r, signalCheck s e h (some x) = .error r ∧ r.code = 0x05) ∧
      (v % 4 = 0 → v + 4 ≤ 65536 * (16 - (s.ctx e.c).l1units) →
        (tiled → ∃ r, signalCheck s e h (some x) = .error r ∧ r.code = 0x09) ∧
        (¬ tiled → signalCheck s e h (some x) = .ok (some v))))

/-- Patterns, and the copies that walk by them. -/
def Obligations.Copies : Prop := Patterns ∧ CopiesAccepted

/-- R199, R201, R202, R389: a copy that may begin ends once, complete or failed: its tiles change state, its signal rises by one, its
thread holds the failure; a fill writes every element, `cp.in` what it reads at the record's addresses and zeros behind it, `cp.out` its
elements there, `cp.tt` the source's elements, and `wb.ld` what it reads. That a copy is performed whole is the model's choice (log 23). -/
def Obligations.CopiesEnd : Prop :=
  ∀ (s : State) (c id : Nat) (q : Copy) (o : Op),
    ((s.ctx c).copies.find? (·.id == id)) = some q → s.op? c q.op = some o →
      let run := runCopy s c q { o with evict := q.kind.evict }
      (copyReady s c q = false → exec (.copyComplete c id) s = .next s ∧ exec (.copyFail c id) s = .next s) ∧
      (copyReady s c q = true →
        (run.2.isNone = true → exec (.copyComplete c id) s = .next (endCopy run.1 c q o none) ∧ exec (.copyFail c id) s = .next s) ∧
        (∀ x, run.2 = some x → exec (.copyFail c id) s = .next (endCopy run.1 c q o (some x)) ∧ exec (.copyComplete c id) s = .next s)) ∧
      (∀ y ∈ ((endCopy s c q o none).ctx c).copies, y.id ≠ q.id) ∧
      (∀ n ti rec_ x ev, q.kind = .cpIn n rec_ x ev → q.sig = none → (s.ctx c).tiles.look n = some ti →
        ((endCopy s c q o none).ctx c).tiles = (s.ctx c).tiles.put n { ti with st := .ready, err := 0 } ∧
        (∀ e, o.retired = none → (s.thr? c o.tid).isSome = true →
          ((endCopy s c q o (some e)).ctx c).tiles = (s.ctx c).tiles.put n { ti with st := .empty, err := e.code } ∧
          ((endCopy s c q o (some e)).thr c o.tid).fails = (s.thr c o.tid).fails ++
            [{ code := e.code, pc := o.pc, elem := BitVec.ofNat 32 e.k, addr := BitVec.ofNat 64 e.va }])) ∧
      (∀ y, q.sig = some y → markedBytes s c false y 4 = false →
        natOf (peekN ((endCopy s c q o none).ctx c).scratch y 4) = (natOf (peekN (s.ctx c).scratch y 4) + 1) % 2 ^ 32 ∧
        ∀ x, x < y ∨ y + 4 ≤ x → peek ((endCopy s c q o none).ctx c).scratch x = peek (s.ctx c).scratch x) ∧
      (∀ e, ((endCopy s c q o (some e)).ctx c).scratch = (s.ctx c).scratch) ∧
      -- the source of a copy is READY again at either end
      (∀ n ti rec_ x ev e, q.kind = .cpOut n rec_ x ev → (s.ctx c).tiles.look n = some ti →
        ((endCopy s c q o e).ctx c).tiles = (s.ctx c).tiles.put n { ti with st := .ready }) ∧
      (∀ n n2 tr di si, q.kind = .tt n n2 tr → n ≠ n2 → (s.ctx c).tiles.look n = some di → (s.ctx c).tiles.look n2 = some si →
        ((endCopy s c q o none).ctx c).tiles.look n = some { di with st := .ready, err := 0 } ∧
        ((endCopy s c q o none).ctx c).tiles.look n2 = some { si with st := .ready } ∧
        ∀ e, ((endCopy s c q o (some e)).ctx c).tiles.look n = some { di with st := .empty, err := e.code } ∧
          ((endCopy s c q o (some e)).ctx c).tiles.look n2 = some { si with st := .ready }) ∧
      -- the data of a copy by a record without indices: each element is read, or written, in the state that those before it left
      (let o' := { o with evict := q.kind.evict }
       (∀ n ti rec_ x ev, q.kind = .cpIn n rec_ x ev → (s.ctx c).tiles.look n = some ti → copyShape rec_ ti = true → (patOf rec_).isz = 0 →
        let p := patOf rec_
        let va := fun (k : Nat) => strideAddr p x k (k / p.n 0 % p.n 1)
        let cell := fun (k : Nat) => peekN (run.1.ctx c).scratch (ti.off + k / ti.cols * ti.pitch + k % ti.cols * ti.esz) ti.esz
        (run.2 = none → ∃ f : Nat → State, f 0 = s ∧
          (∀ k, k < p.total → ∃ l, engineRead (f k) c o' (va k) ti.esz = .ok (f (k + 1), l) ∧ cell k = l) ∧
          (∀ k, p.total ≤ k → k < ti.rows * ti.cols → cell k = List.replicate ti.esz 0) ∧
          (∀ r y, r < ti.rows → ti.cols * ti.esz ≤ y → y < ti.pitch → peek (run.1.ctx c).scratch (ti.off + r * ti.pitch + y) = 0) ∧
          ∀ y, y < ti.off ∨ ti.off + ti.rows * ti.pitch ≤ y → peek (run.1.ctx c).scratch y = peek (s.ctx c).scratch y) ∧
        (∀ z, run.2 = some z → ∃ f : Nat → State, f 0 = s ∧ z.k < p.total ∧ z.va = va z.k ∧
          (∀ k, k < z.k → ∃ l, engineRead (f k) c o' (va k) ti.esz = .ok (f (k + 1), l) ∧ cell k = l) ∧
          engineRead (f z.k) c o' (va z.k) ti.esz = .error z.code)) ∧
       (∀ n ti rec_ x ev, q.kind = .cpOut n rec_ x ev → (s.ctx c).tiles.look n = some ti → copyShape rec_ ti = true → (patOf rec_).isz = 0 →
        (s.core c).marks = [] →
        let p := patOf rec_
        let va := fun (k : Nat) => strideAddr p x k (k / p.n 0 % p.n 1)
        let cell := fun (k : Nat) => peekN (s.ctx c).scratch (ti.off + k / ti.cols * ti.pitch + k % ti.cols * ti.esz) ti.esz
        ∃ (f : Nat → State) (m : Nat), f 0 = s ∧ run.1 = f m ∧ (∀ k, k < m → engineWrite (f k) c o' (va k) (cell k) = .ok (f (k + 1))) ∧
          (run.2 = none → m = p.total) ∧
          (∀ z, run.2 = some z → m = z.k ∧ z.k < p.total ∧ z.va = va z.k ∧ engineWrite (f m) c o' (va m) (cell m) = .error z.code)) ∧
       (∀ off va n ev, q.kind = .wb off va n ev → ∃ (f : Nat → State) (m : Nat), f 0 = s ∧
          (∀ k, k < m → ∃ l, engineRead (f k) c o' ((va + 64 * k) % 2 ^ 64) 64 = .ok (f (k + 1), l) ∧
            peekN (run.1.ctx c).wbuf (off + 64 * k) 64 = l) ∧
          (run.2 = none → m = n / 64) ∧
          (∀ z, run.2 = some z → m = z.k ∧ z.k < n / 64 ∧ engineRead (f m) c o' ((va + 64 * m) % 2 ^ 64) 64 = .error z.code))) ∧
      (∀ n ti v, q.kind = .fill n v → (s.ctx c).tiles.look n = some ti → run.2.isNone = true ∧
        (∀ r i, r < ti.rows → i < ti.cols →
          peekN (run.1.ctx c).scratch (ti.off + r * ti.pitch + i * ti.esz) ti.esz = bytesOf ti.esz v.toNat) ∧
        ∀ x, x < ti.off ∨ ti.off + ti.rows * ti.pitch ≤ x → peek (run.1.ctx c).scratch x = peek (s.ctx c).scratch x) ∧
      (∀ n n2 tr di si, q.kind = .tt n n2 tr → (s.ctx c).tiles.look n = some di → (s.ctx c).tiles.look n2 = some si → di.esz = si.esz →
        (s.core c).marks = [] → run.2.isNone = true ∧ ∀ r i, r < di.rows → i < di.cols →
          let r' := if tr then i else r
          let i' := if tr then r else i
          peekN (run.1.ctx c).scratch (di.off + r * di.pitch + i * di.esz) di.esz =
            if r' < si.rows ∧ i' < si.cols then peekN (s.ctx c).scratch (si.off + r' * si.pitch + i' * si.esz) si.esz
            else List.replicate di.esz 0)

/-! ### The matrix array -/

/-- R217 to R223, R225: reservations, declarations, signatures and the fence: what each raises, and what it leaves. -/
def Sys2Proof.Machine.MatrixHolds : Prop :=
  ∀ (s : State) (b : Bundle) (t : Nat) (th : Thread) (h : Hdr) (kd : Pred) (a : Src) (cv : BitVec 4) (lead : Bool) (v : Cv) (pc : DWord),
    let c := b.core
    let ag := s.agentOf c t
    let n := cv.toNat
    (let u : Uses := { srcs := one [a] }
     let e := envOf s b t u h
     let m := (rdWord s e h a).toNat
     let mask : BitVec 16 := (rdWord s e h a).setWidth 16
     Ready s b t th .app u h →
      (65536 ≤ m → Raises (.mmRsv h kd a) s b t 0x01) ∧
      (m < 65536 → (heldMask (s.ctx c) ag).isSome = true ∨ mask = 0 ∨ mask &&& reservedMask (s.ctx c) ≠ 0 →
        Ends (.mmRsv h kd a) s b t u h (wrPred s e kd false)) ∧
      (m < 65536 → heldMask (s.ctx c) ag = none → mask ≠ 0 → mask &&& reservedMask (s.ctx c) = 0 →
        Ends (.mmRsv h kd a) s b t u h
          (wrPred ((retake s c ag mask).modCtx c fun x => { x with rsv := x.rsv ++ [{ agent := ag, mask := mask }] }) e kd true))) ∧
    (Ready s b t th .app {} h →
      (heldMask (s.ctx c) ag = none → Raises (.mmRel h) s b t 0x0B) ∧
      ((heldMask (s.ctx c) ag).isSome = true → (s.ctx c).cvs = [] → (s.ctx c).mq = [] → (∀ r ∈ (s.ctx c).rsv, r.releasing = false) →
        ∃ w, Ends (.mmRel h) s b t {} h w ∧ (w.ctx c).rsv = (s.ctx c).rsv.filter fun r => r.agent != ag) ∧
      (releaseReady s c t .core = true → Ends (.mmFence h) s b t {} h (fenceLoose (captureLoads s c t) c t)) ∧
      (releaseReady s c t .core = false → Waits (.mmFence h) s b t {} h (.retry (.released .core)) s)) ∧
    (let u : Uses := { srcs := one [a] }
     let mask := rdWord s (envOf s b t u h) h a
     Ready s b t th .app u h →
      (cvLoading (s.ctx c) n = true → Waits (.mmDecl h lead cv a) s b t u h (.retry (.cvLoad n)) s) ∧
      (cvLoading (s.ctx c) n = false →
        (heldMask (s.ctx c) ag = none → Raises (.mmDecl h lead cv a) s b t 0x0B) ∧
        (∀ m, heldMask (s.ctx c) ag = some m →
          (m.getLsbD n = false ∨ (s.ctx c).cvs.look n ≠ none → Raises (.mmDecl h lead cv a) s b t 0x0C) ∧
          (m.getLsbD n = true → (s.ctx c).cvs.look n = none →
            (signersOk s c ag lead mask = false → Raises (.mmDecl h lead cv a) s b t 0x0D) ∧
            (signersOk s c ag lead mask = true → Ends (.mmDecl h lead cv a) s b t u h (s.modCtx c fun x =>
              { x with cvs := x.cvs.put n { owner := ag, mask := mask, lead := lead } })))))) ∧
    (Ready s b t th .app {} h → cvLoading (s.ctx c) n = false →
      (63 ≤ s.count c t .tileops → Waits (.mmSign h cv) s b t {} h (.retry (.room .tileops)) s) ∧
      (s.count c t .tileops < 63 →
        ((s.ctx c).cvs.look n = none → Raises (.mmSign h cv) s b t 0x0D) ∧
        ((s.ctx c).cvs.look n = some v →
          (maySign s c t v = false → Raises (.mmSign h cv) s b t 0x0D) ∧
          (maySign s c t v = true →
            let v' := signed s c t v
            (v'.bound ≠ none → allSigned v' = true → 8 ≤ (s.ctx c).mq.length → Waits (.mmSign h cv) s b t {} h (.retry .mmQueue) s) ∧
            (v'.bound = none ∨ allSigned v' = false ∨ (s.ctx c).mq.length < 8 →
              Ends (.mmSign h cv) s b t {} h (issueCv (addOp s c t .tileops th.pc .engine).1 c n th.pc
                { v' with ops := v'.ops ++ [(s.ctx c).nextOp] })))))) ∧
    -- a register with every signature and a bound operation issues it and is idle again
    (∀ bd, v.bound = some bd → (∀ i, i < 32 → v.mask.getLsbD i = true → v.signed.getLsbD i = true) → (v.lead = true → v.leadSigned = true) →
      ((issueCv s c n pc v).ctx c).cvs = (s.ctx c).cvs.del n ∧
      ∃ q, ((issueCv s c n pc v).ctx c).mq = (s.ctx c).mq ++ [q] ∧ q.agent = v.owner ∧ q.kind = .mma bd ∧ q.ops = v.ops ∧ q.start = none) ∧
    (v.bound = none → ((issueCv s c n pc v).ctx c).cvs = (s.ctx c).cvs.put n v ∧ ((issueCv s c n pc v).ctx c).mq = (s.ctx c).mq)

/-- R222, R224, R228 to R230: `mm.mma` in every mode checks its register, accumulators, tile and block, binds, and issues once signed;
an accumulator instruction checks its accumulators and tile and enters the queue; each is counted. -/
def Obligations.MatrixCommands : Prop :=
  ∀ (s : State) (b : Bundle) (t : Nat) (th : Thread) (h : Hdr) (cv acc : BitVec 4) (z sg : Bool) (tl : BitVec 7) (p y : Src)
    (w48 : Bool) (itp : Interp) (ty : Ty) (rm : Rm),
    let c := b.core
    let ag := s.agentOf c t
    let n := cv.toNat
    -- an operation `i` of a mode, with the exponents of its rows at `x`
    let mma := fun (i : Instr) (mode : MmMode) (x : Option Src) =>
      let u : Uses := { srcs := one (p :: x.toList) }
      let e := envOf s b t u h
      let bd : MmBound := { mode := mode, acc := acc.toNat, tile := tl.toNat, off := (rdWord s e h p).toNat,
                            xe := (x.map fun y => (rdWord s e h y).toNat).getD 0, z := z }
      Ready s b t th .app u h → cvLoading (s.ctx c) n = false →
        (63 ≤ s.count c t .tileops → Waits i s b t u h (.retry (.room .tileops)) s) ∧
        (s.count c t .tileops < 63 →
          (∀ r, mmaCheck s c ag [t] n bd sg = .error (.inl r) → Raises i s b t r) ∧
          (∀ r, mmaCheck s c ag [t] n bd sg = .error (.inr r) → Waits i s b t u h (.retry r) s) ∧
          (∀ v, mmaCheck s c ag [t] n bd sg = .ok v →
            -- what has been checked
            ((s.ctx c).cvs.look n = some v ∧ v.bound = none ∧ (v.owner = ag ∨ (ag = .lead ∧ v.lead = true)) ∧
              bd.off % 64 = 0 ∧ bd.off + mode.shape.block ≤ 262144 ∧
              (∃ m, heldMask (s.ctx c) v.owner = some m ∧ ∀ k ∈ accSet mode.shape.pair acc.toNat, m.getLsbD k = true) ∧
              ∃ ti, (s.ctx c).tiles.look tl.toNat = some ti ∧ ti.rows = 64 ∧ ti.cols = 192 ∧ ti.esz = mode.shape.esz ∧ ti.st = .ready) ∧
            (let v' := if sg then signed s c t v else v
             (allSigned v' = true → 8 ≤ (s.ctx c).mq.length → Waits i s b t u h (.retry .mmQueue) s) ∧
             (allSigned v' = false ∨ (s.ctx c).mq.length < 8 →
               Ends i s b t u h (issueCv (addOp (readersAdd (tileAcquire s c t bd.tile) c bd.tile 1) c t .tileops th.pc .engine).1 c n th.pc
                 { v' with bound := some bd, ops := v'.ops ++ [(s.ctx c).nextOp] })))))
    mma (.mmMmaT1i8 h cv z sg acc tl p) .t1i8 none ∧ mma (.mmMmaT5i8 h cv z sg acc tl p) .t5i8 none ∧
    mma (.mmMmaT5i8Bx h cv z sg acc tl p y) .t5i8bx (some y) ∧ mma (.mmMmaT11i16 h cv z sg acc tl p) .t11i16 none ∧
    mma (.mmMmaRing16 h cv z sg acc tl p) .ring16 none ∧ mma (.mmMmaRing32 h cv z sg acc tl p) .ring32 none ∧
    (Ready s b t th .app {} h → s.count c t .tileops < 63 → (s.ctx c).mq.length < 8 →
      let took := fun (w : State) (k : MmKind) => s.count c t .tileops + 1 ≤ w.count c t .tileops ∧
        ∃ q, (w.ctx c).mq = (s.ctx c).mq ++ [q] ∧ q.agent = ag ∧ q.kind = k ∧ q.ops = [(s.ctx c).nextOp]
      let tile := (s.ctx c).tiles.look tl.toNat
      (∀ y, accCheck s c ag (accSet w48 acc.toNat) = some y →
        Raises (.accClr h w48 acc) s b t y ∧ Raises (.accSt h w48 acc tl) s b t y) ∧
      (accCheck s c ag (accSet w48 acc.toNat) = none →
        (∃ w, Ends (.accClr h w48 acc) s b t {} h w ∧ took w (.clr acc.toNat w48)) ∧
        (tile = none → Raises (.accSt h w48 acc tl) s b t 0x09) ∧
        (∀ ti, tile = some ti →
          (ti.rows ≠ 64 ∨ ti.cols ≠ 64 ∨ ti.esz ≠ (if w48 then 8 else 4) → Raises (.accSt h w48 acc tl) s b t 0x0A) ∧
          (ti.rows = 64 → ti.cols = 64 → ti.esz = (if w48 then 8 else 4) →
            (ti.st ≠ .ready → Waits (.accSt h w48 acc tl) s b t {} h (.retry (.tile tl.toNat)) s) ∧
            (ti.st = .ready → ∃ w, Ends (.accSt h w48 acc tl) s b t {} h w ∧ took w (.st acc.toNat tl.toNat w48) ∧
              (w.ctx c).tiles = (s.ctx c).tiles.put tl.toNat { ti with st := .draining })))) ∧
      (∀ y, accCheck s c ag (accSet (Interp.pair itp) acc.toNat) = some y → Raises (.accRd h itp ty rm tl acc) s b t y) ∧
      (accCheck s c ag (accSet (Interp.pair itp) acc.toNat) = none →
        (tile = none → Raises (.accRd h itp ty rm tl acc) s b t 0x09) ∧
        (∀ ti, tile = some ti →
          (ti.st ≠ .empty → Raises (.accRd h itp ty rm tl acc) s b t 0x09) ∧
          (ti.st = .empty → ti.replay = false →
            (ti.rows ≠ 64 ∨ ti.cols ≠ 64 ∨ ti.esz ≠ ty.bits / 8 → Raises (.accRd h itp ty rm tl acc) s b t 0x0A) ∧
            (ti.rows = 64 → ti.cols = 64 → ti.esz = ty.bits / 8 →
              (interpTakes itp ty = false → Raises (.accRd h itp ty rm tl acc) s b t 0x01) ∧
              (interpTakes itp ty = true → ∃ w, Ends (.accRd h itp ty rm tl acc) s b t {} h w ∧
                took w (.rd acc.toNat tl.toNat itp ty rm) ∧
                (w.ctx c).tiles = (s.ctx c).tiles.put tl.toNat { ti with st := .filling })))))) ∧
    (heldMask (s.ctx c) ag = none → accCheck s c ag (accSet w48 acc.toNat) = some 0x0B)

/-- R210, R211, R214, R224, R226, R230: an entry of the array starts in its turn; an operation that completes leaves, in each element of its
accumulator, the exact sum of products, added or not to what was there; accumulators are cleared, set and read. -/
def Obligations.MatrixWork : Prop :=
  ∀ (s : State) (c : Nat) (q : MmEntry) (st : Nat) (ti : Tile),
    (s.ctx c).mq = [q] → (s.core c).marks = [] → q.torn = [] → q.wrote = false →
      (q.start = none → (s.core c).ccnt.toNat < mmStart (s.ctx c) q → exec (.arrayEntryStart c) s = .next s) ∧
      (q.start = none → mmStart (s.ctx c) q ≤ (s.core c).ccnt.toNat → ∃ w, exec (.arrayEntryStart c) s = .next w ∧
        (w.ctx c).mq = [{ q with start := some (mmStart (s.ctx c) q) }] ∧ (w.ctx c).acc = (s.ctx c).acc) ∧
      (∀ bd, q.kind = .mma bd → q.start = some st →
        ((s.core c).ccnt.toNat < st + 8 * bd.mode.shape.passes + 4 → exec (.matrixOpComplete c) s = .next s) ∧
        (st + 8 * bd.mode.shape.passes + 4 ≤ (s.core c).ccnt.toNat → (s.ctx c).tiles.look bd.tile = some ti →
          ∃ w, exec (.matrixOpComplete c) s = .next w ∧ (w.ctx c).mq = [] ∧ (w.ctx c).scratch = (s.ctx c).scratch ∧ w.mem = s.mem ∧
            ∀ j, j < 4096 →
              let sum := (List.range 192).foldl (fun n k => n + aElem (s.ctx c) ti (j / 64) k * (bElem (s.ctx c).wbuf bd (j % 64) k).1)
                (if bd.z then 0 else accVal (s.ctx c) bd.mode.shape.pair bd.acc j)
              (bd.mode.shape.pair = false → accWord (w.ctx c) bd.acc j = BitVec.ofInt 32 sum) ∧
              (bd.mode.shape.pair = true → accWord (w.ctx c) bd.acc j = BitVec.ofInt 32 sum ∧
                accWord (w.ctx c) (bd.acc + 1) j = ((BitVec.ofInt 48 sum).extractLsb' 32 16).signExtend 32))) ∧
      (∀ a pair, q.kind = .clr a pair → q.start = some st →
        ((s.core c).ccnt.toNat < st + 2 → exec (.accInstrComplete c) s = .next s) ∧
        (st + 2 ≤ (s.core c).ccnt.toNat → ∃ w, exec (.accInstrComplete c) s = .next w ∧ (w.ctx c).mq = [] ∧
          ∀ j, j < 4096 → accWord (w.ctx c) a j = 0 ∧ (pair = true → accWord (w.ctx c) (a + 1) j = 0))) ∧
      (∀ a n, q.kind = .st a n false → q.start = some st → st + 16 ≤ (s.core c).ccnt.toNat → (s.ctx c).tiles.look n = some ti → ti.esz = 4 →
        ∃ w, exec (.accInstrComplete c) s = .next w ∧ (w.ctx c).mq = [] ∧ (w.ctx c).tiles = (s.ctx c).tiles.put n { ti with st := .ready } ∧
          ∀ j, j < 4096 → accWord (w.ctx c) a j = BitVec.ofNat 32 (natOf (peekN (s.ctx c).scratch (ti.at_ j) 4))) ∧
      (∀ a n rm, q.kind = .rd a n .s32 .s32 rm → q.start = some st → st + 16 ≤ (s.core c).ccnt.toNat → (s.ctx c).tiles.look n = some ti →
        ti.rows = 64 → ti.cols = 64 → ti.esz = 4 → ∃ w, exec (.accInstrComplete c) s = .next w ∧ (w.ctx c).mq = [] ∧
          (w.ctx c).tiles = (s.ctx c).tiles.put n { ti with st := .ready, err := 0 } ∧
          ∀ j, j < 4096 → peekN (w.ctx c).scratch (ti.at_ j) 4 = bytesOf 4 (accWord (s.ctx c) a j).toNat) ∧
      -- the elements of a block
      (∀ (m : List Host.Cell) (off acc tile k n : Nat) (z : Bool),
        bElem m { mode := .t5i8, acc := acc, tile := tile, off := off, xe := 0, z := z } n k =
          (if (peek m (off + n * 192 + k)).toNat < 243 then (((peek m (off + n * 192 + k)).toNat : Int) - 121, false) else (0, true)) ∧
        (bElem m { mode := .t1i8, acc := acc, tile := tile, off := off, xe := 0, z := z } n k =
          (if (peek m (off + n * 40 + k / 5)).toNat < 243 then ((((peek m (off + n * 40 + k / 5)).toNat / 3 ^ (k % 5) % 3 : Nat) : Int) - 1, false)
           else (0, true))))

/-- R220, R232: a convergence register is stored as its image, and an image takes effect on an idle register of the agent it names. -/
def Sys2Proof.Machine.MatrixImages : Prop :=
  ∀ (s : State) (b : Bundle) (t : Nat) (th : Thread) (h : Hdr) (m : MMod) (cv : BitVec 4) (a : Src) (o : Op) (l : List Byte),
    let c := b.core
    let n := cv.toNat
    let ag := s.agentOf c t
    let u : Uses := { srcs := baseUses m.space a }
    let e := envOf s b t u h
    let off := addrOf s e h m.space a
    (Ready s b t th .app u h →
      (cvLoading (s.ctx c) n = true → Waits (.ldcv h m cv a) s b t u h (.retry (.cvLoad n)) s) ∧
      (cvLoading (s.ctx c) n = false → s.count c t .loads < 63 → isAcq m.ord = false →
        (off % 32 ≠ 0 → Raises (.ldcv h m cv a) s b t 0x03) ∧
        (∀ s' va hs, accessCheck s e m.space off 32 32 .load = .ok (s', va, hs) →
          (heldMask (s.ctx c) ag = none → Raises (.ldcv h m cv a) s b t 0x0B) ∧
          (∀ k, heldMask (s.ctx c) ag = some k →
            (k.getLsbD n = false ∨ (s.ctx c).cvs.look n ≠ none → Raises (.ldcv h m cv a) s b t 0x0C) ∧
            (k.getLsbD n = true → (s.ctx c).cvs.look n = none → ∃ v o', Ends (.ldcv h m cv a) s b t u h v ∧ o' ∈ (v.ctx c).ops ∧
              o'.id = (s.ctx c).nextOp ∧ o'.tid = t ∧ o'.body = .ldcv m.space va n m.ord m.scope none ∧ v.mem = s.mem)))) ∧
      (63 ≤ s.count c t .stores → Waits (.stcv h m cv a) s b t u h (.retry (.room .stores)) s) ∧
      (s.count c t .stores < 63 →
        (off % 32 ≠ 0 → Raises (.stcv h m cv a) s b t 0x03) ∧
        (∀ s' va hs, accessCheck s e m.space off 32 32 .store = .ok (s', va, hs) → storeWait s e m = none →
          Ends (.stcv h m cv a) s b t u h (acceptStore s' e th.pc m va hs (cvImage s c n))))) ∧
    (cvImage s c n).length = 32 ∧
    ((s.ctx c).cvs.look n = none → cvImage s c n = List.replicate 32 0) ∧
    (∀ v, (s.ctx c).cvs.look n = some v → v.bound = none →
      (cvImage s c n).take 12 = bytesOf 1 1 ++ bytesOf 1 (v.lead.toNat + 2 * v.leadSigned.toNat) ++ bytesOf 2 (ownerCode s c v.owner) ++
        bytesOf 4 v.mask.toNat ++ bytesOf 4 v.signed.toNat ∧ (cvImage s c n).drop 12 = List.replicate 20 0) ∧
    -- what an image that has been loaded does
    (let st := natOf (l.take 1)
     let fl := natOf ((l.drop 1).take 1)
     let own := natOf ((l.drop 2).take 2)
     (st = 0 → applyImage s c o n l = s) ∧
     (2 ≤ st → applyImage s c o n l = failOp s c o 0x0A) ∧
     (st = 1 → natOf ((l.drop 8).take 4) = 0 → fl / 2 % 2 = 0 → own = ownerCode s c (s.agentOf c o.tid) → (s.ctx c).cvs.look n = none →
       ∀ k, heldMask (s.ctx c) (s.agentOf c o.tid) = some k → k.getLsbD n = true →
         ((applyImage s c o n l).ctx c).cvs = (s.ctx c).cvs.put n
           { owner := s.agentOf c o.tid, mask := BitVec.ofNat 32 (natOf ((l.drop 4).take 4)), lead := fl % 2 = 1 }))

/-- The holds on the array, and the images of its convergence registers. What an image leaves unchecked is the model's choice (log 40). -/
def Obligations.MatrixState : Prop := MatrixHolds ∧ MatrixImages

/-! ### The sort array -/

/-- R243 to R250: each command needs the hold, which `sort.load` takes; it checks its operands, waits for a counter and a queue entry,
and enters the queue. -/
def Obligations.SortCommands : Prop :=
  ∀ (s : State) (b : Bundle) (t : Nat) (th : Thread) (h : Hdr) (desc stable zeq : Bool) (ty : Ty) (kd : Pred) (tk : BitVec 7)
    (tp : Option (BitVec 7)) (a : Src) (d : Dst),
    let c := b.core
    let ag := s.agentOf c t
    let so := (s.ctx c).sort
    let took := fun (w : State) (k : SortCmd) => s.count c t .tileops + 1 ≤ w.count c t .tileops ∧
      ∃ q, (w.ctx c).sort.queue = so.queue ++ [q] ∧ q.cmd = k ∧ q.tids = [t] ∧ q.ops = [(s.ctx c).nextOp] ∧ q.pc = th.pc ∧ q.start = none
    let room := s.count c t .tileops < 63 ∧ so.queue.length < 4
    let full := fun (i : Instr) (u : Uses) =>
      (63 ≤ s.count c t .tileops → Waits i s b t u h (.retry (.room .tileops)) s) ∧
      (s.count c t .tileops < 63 → 4 ≤ so.queue.length → Waits i s b t u h (.retry .sortQueue) s)
    (Ready s b t th .app {} h → tp = none →
      (tileAt s (envOf s b t {} h) tk = none → Raises (.sortLoad h desc stable zeq ty kd tk tp) s b t 0x09) ∧
      (∀ ti, tileAt s (envOf s b t {} h) tk = some ti →
        (ti.esz ≠ ty.bits / 8 ∨ 4096 < ti.rows * ti.cols → Raises (.sortLoad h desc stable zeq ty kd tk tp) s b t 0x0A) ∧
        (ti.esz = ty.bits / 8 → ti.rows * ti.cols ≤ 4096 →
          (ti.st ≠ .ready → Waits (.sortLoad h desc stable zeq ty kd tk tp) s b t {} h (.retry (.tile tk.toNat)) s) ∧
          (ti.st = .ready →
            (so.holder ≠ none → holdsSort s c ag = false → Ends (.sortLoad h desc stable zeq ty kd tk tp) s b t {} h
              (wrPred s (envOf s b t {} h) kd false)) ∧
            (so.holder = none ∨ holdsSort s c ag = true → full (.sortLoad h desc stable zeq ty kd tk tp) {} ∧
              (room → ∃ w, Ends (.sortLoad h desc stable zeq ty kd tk tp) s b t {} h w ∧
                took w (.load tk.toNat none ty desc stable zeq) ∧ (w.ctx c).sort.holder = some ag ∧
                rdPred w { c := c, t := t } kd = true ∧
                (w.ctx c).tiles = (s.ctx c).tiles.put tk.toNat { ti with mread := ti.mread + 1 })))))) ∧
    (holdsSort s c ag = false →
      (Ready s b t th .app { srcs := one [a] } h → Raises (.sortRun h a) s b t 0x0E ∧ Raises (.sortTopk h a) s b t 0x0E) ∧
      (Ready s b t th .app { srcs := one [a], dsts := [(d, 4)] } h → Raises (.sortMatch h d a) s b t 0x0E) ∧
      (Ready s b t th .app {} h → Raises (.sortStore h tk tp) s b t 0x0E ∧ Raises (.sortMerge h) s b t 0x0E ∧
        Raises (.sortStateRel h) s b t 0x0E)) ∧
    (holdsSort s c ag = true →
      (let u : Uses := { srcs := one [a] }
       let n := (rdWord s (envOf s b t u h) h a).toNat
       Ready s b t th .app u h →
        (so.ahead.rows = true → Raises (.sortRun h a) s b t 0x0E) ∧
        (so.ahead.rows = false → full (.sortRun h a) u ∧
          (room → ∃ w, Ends (.sortRun h a) s b t u h w ∧ took w (.run (min (so.ahead.count + n) 13 - so.ahead.count)))) ∧
        full (.sortTopk h a) u ∧ (room → ∃ w, Ends (.sortTopk h a) s b t u h w ∧ took w (.topk n))) ∧
      (let u : Uses := { srcs := one [a], dsts := [(d, 4)] }
       Ready s b t th .app u h → room → ∃ w, Ends (.sortMatch h d a) s b t u h w ∧
        took w (.smatch (rdWord s (envOf s b t u h) h a) d) ∧ ∀ n ∈ dstHazard d 4, n < 128 → n ∈ (w.thr c t).hazard) ∧
      (Ready s b t th .app {} h →
        let ra := h.imm.toNat % 64
        let rb := h.imm.toNat / 256 % 64
        (so.ahead.rows = false ∨ ra = rb → Raises (.sortMerge h) s b t 0x0E) ∧
        (so.ahead.rows = true → ra ≠ rb → full (.sortMerge h) {} ∧
          (room → ∃ w, Ends (.sortMerge h) s b t {} h w ∧ took w (.merge ra rb))) ∧
        (tp = none → ∀ ti, tileAt s (envOf s b t {} h) tk = some ti →
          (ti.st ≠ .empty → Raises (.sortStore h tk tp) s b t 0x09) ∧
          (ti.st = .empty → ti.replay = false → ti.esz = so.ahead.ty.bits / 8 → ti.rows * ti.cols ≤ 4096 →
            so.ahead.rows = false ∨ ti.cols ≤ 64 → room → ∃ w, Ends (.sortStore h tk tp) s b t {} h w ∧ took w (.store tk.toNat none) ∧
              (w.ctx c).tiles = (s.ctx c).tiles.put tk.toNat { ti with st := .filling })) ∧
        (so.queue = [] → Ends (.sortStateRel h) s b t {} h (s.modCtx c fun x => { x with sort := { x.sort with holder := none } })) ∧
        (so.queue ≠ [] → Ends (.sortStateRel h) s b t {} h (s.modCtx c fun x => { x with sort := { x.sort with releasing := true } })))) ∧
    (let u : Uses := { dsts := [(d, 1)] }
     Ready s b t th .app u h → Ends (.sortStateRd h d) s b t u h (wrWord s (envOf s b t u h) d (sortWord s c t)))

/-- R237, R239 to R249, R254: a command starts in its turn and completes after its cycles; a load fills the snake, a run makes its phases
and loses no cell (in what order they leave them: `SortOrder`), a store writes the cells back, `sort.topk` sorts every row and keeps the
first k of each, `sort.merge` permutes two rows, a match counts the equal keys. Which elements of a torn tile are read late is the model's
choice (log 44). -/
def Obligations.SortWork : Prop :=
  ∀ (s : State) (c : Nat) (q : SortEntry) (st : Nat) (ti : Tile),
    (s.ctx c).sort.queue = [q] → (s.core c).marks = [] →
      let so := (s.ctx c).sort
      let now := (s.core c).ccnt.toNat
      let cell := fun (m : Map Cell) (p : Nat) => m.get {} ((cellAt false p).1 * 64 + (cellAt false p).2)
      (q.start = none → now < sortStart so q → exec (.sortCmdStart c) s = .next s) ∧
      (q.start = none → sortStart so q ≤ now → ∃ w, exec (.sortCmdStart c) s = .next w ∧
        (w.ctx c).sort.queue = [{ q with start := some (sortStart so q) }] ∧ (w.ctx c).sort.cells = so.cells) ∧
      (q.start = some st → now < st + q.cmd.cycles + 1 → exec (.sortCmdComplete c) s = .next s) ∧
      (q.start = some st → st + q.cmd.cycles + 1 ≤ now →
        (∀ k ty desc stable zeq, q.cmd = .load k none ty desc stable zeq → q.seen = [] → (s.ctx c).tiles.look k = some ti →
          ∃ w, exec (.sortCmdComplete c) s = .next w ∧ (w.ctx c).sort.queue = [] ∧
            (w.ctx c).sort.opt = { ty := ty, desc := desc, stable := stable, zeq := zeq, rows := false, count := 0, loaded := ti.rows * ti.cols } ∧
            ∀ p, p < 4096 → cell (w.ctx c).sort.cells p =
              if p < ti.rows * ti.cols then { key := elemWord (s.ctx c) ti p, pay := BitVec.ofNat 32 p, org := p, valid := true }
              else { org := p }) ∧
        (∀ n, q.cmd = .run n → ∃ w, exec (.sortCmdComplete c) s = .next w ∧ (w.ctx c).sort.queue = [] ∧
          (w.ctx c).sort.opt = { so.opt with count := so.opt.count + n } ∧ (w.ctx c).sort.cells = (runPhases so n).cells ∧
          ((List.range 4096).map fun i => (w.ctx c).sort.cells.get {} i).Perm ((List.range 4096).map fun i => so.cells.get {} i)) ∧
        (∀ k, q.cmd = .store k none → (s.ctx c).tiles.look k = some ti → ti.esz = 4 → so.opt.rows = false → ti.rows * ti.cols ≤ 4096 →
          ∃ w, exec (.sortCmdComplete c) s = .next w ∧ (w.ctx c).sort.cells = so.cells ∧
            (w.ctx c).tiles = (s.ctx c).tiles.put k { ti with st := .ready, err := 0 } ∧
            ∀ i, i < ti.rows * ti.cols → peekN (w.ctx c).scratch (ti.at_ i) 4 =
              bytesOf 4 (if (cell so.cells i).valid then (cell so.cells i).key.toNat else 0)) ∧
        (∀ k, q.cmd = .topk k → ∃ w, exec (.sortCmdComplete c) s = .next w ∧ (w.ctx c).sort.queue = [] ∧
          (w.ctx c).sort.opt = { so.opt with rows := true, count := 0 } ∧ ∀ r i, r < 64 → i < 64 →
            let line := sortLine so.opt ((List.range 64).map fun j => so.cells.get {} (r * 64 + j))
            (w.ctx c).sort.cells.get {} (r * 64 + i) = if i < k then line.getD i {} else { line.getD i {} with valid := false }) ∧
        (∀ ra rb, q.cmd = .merge ra rb → ra ≠ rb → ra < 64 → rb < 64 →
          let row := fun (m : Map Cell) (r : Nat) => (List.range 64).map fun i => m.get {} (r * 64 + i)
          ∃ w, exec (.sortCmdComplete c) s = .next w ∧ (w.ctx c).sort.queue = [] ∧ (w.ctx c).sort.opt = so.opt ∧
            (row (w.ctx c).sort.cells ra ++ row (w.ctx c).sort.cells rb).Perm (row so.cells ra ++ row so.cells rb) ∧
            ∀ i, i / 64 ≠ ra → i / 64 ≠ rb → (w.ctx c).sort.cells.get {} i = so.cells.get {} i) ∧
        (∀ probe n t th, q.cmd = .smatch probe (.x n) → q.tids = [t] → s.thr? c t = some th → so.opt.rows = false →
          let hits := (List.range 4096).filter fun p => (cell so.cells p).valid && codeOf so.opt (cell so.cells p) == keyCode so.opt.ty so.opt.zeq probe
          ∃ w, exec (.sortCmdComplete c) s = .next w ∧ (w.ctx c).sort.cells = so.cells ∧
            (hits = [] → (w.thr c t).regs.get 0 n.toNat = 0xFFFFFFFF ∧ (w.thr c t).regs.get 0 (n.toNat + 1) = 0 ∧
              (w.thr c t).regs.get 0 (n.toNat + 2) = 0xFFFFFFFF ∧ (w.thr c t).regs.get 0 (n.toNat + 3) = 0) ∧
            (∀ p l, hits = p :: l → (w.thr c t).regs.get 0 n.toNat = BitVec.ofNat 32 p ∧
              (w.thr c t).regs.get 0 (n.toNat + 1) = BitVec.ofNat 32 hits.length ∧
              (w.thr c t).regs.get 0 (n.toNat + 2) = (cell so.cells p).pay ∧ (w.thr c t).regs.get 0 (n.toNat + 3) = (cell so.cells p).key))) ∧
      (∀ (o : SortOpt) (x y : Cell), cx o [x, y] 0 1 = (if before o y x then [y, x] else [x, y]) ∧
        (x.valid = true → y.valid = false → before o x y = true ∧ before o y x = false) ∧
        (x.valid = true → y.valid = true → codeOf o x < codeOf o y → before o x y = !o.desc ∧ before o y x = o.desc) ∧
        (x.valid = true → y.valid = true → codeOf o x = codeOf o y → before o x y = (o.stable && decide (x.org < y.org))))

/-- R239 to R241, R245, R248: a phase leaves every line of 64 cells in `before` order and loses none of it; 13 phases leave the array in
that order by position, valid cells first; runs of n and m phases are one of n + m; and the merge of two rows in order leaves them in order,
one behind the other. -/
def Obligations.SortOrder : Prop :=
  let ordered := fun (o : SortOpt) (l : List Cell) => l.Pairwise fun x y => before o y x = false
  (∀ (o : SortOpt) (l : List Cell), l.length = 64 → ordered o (sortLine o l) ∧ (sortLine o l).Perm l) ∧
  (∀ a : SortArr, a.opt.count = 0 →
    let l := (List.range 4096).map fun p => cellOf (runPhases a 13).cells (cellAt false p)
    ordered a.opt l ∧ l.Pairwise (fun x y => y.valid = true → x.valid = true) ∧ (runPhases a 13).opt.count = 13) ∧
  (∀ (a : SortArr) (n m : Nat), runPhases (runPhases a n) m = runPhases a (n + m)) ∧
  (∀ (s : State) (c : Nat) (q : SortEntry) (ra rb : Nat), q.cmd = .merge ra rb → ra ≠ rb → ra < 64 → rb < 64 → (s.core c).marks = [] →
    let o := (s.ctx c).sort.opt
    let row := fun (m : Map Cell) (r : Nat) => (List.range 64).map fun i => m.get {} (r * 64 + i)
    ordered o (row (s.ctx c).sort.cells ra) → ordered o (row (s.ctx c).sort.cells rb) →
      let m := ((runSort s c q).1.ctx c).sort.cells
      ordered o (row m ra ++ row m rb))

/-! ### Owner tokens -/

/-- R308 to R315: what each token instruction raises and waits for, the status it writes, and the pass that it begins, outside the window
that a change of the interleave opens (R337); in it a command completes, with what it writes unspecified (R407). -/
def Obligations.TokenCommands : Prop :=
  ∀ (s : State) (b : Bundle) (t : Nat) (th : Thread) (h : Hdr) (mode : TMode) (taint : Bool) (kd : Pred) (a p : Src) (dst : Dst),
    let c := b.core
    let ag := s.agentId c t
    let w := s.actWorld c t
    let no := fun (i : Instr) (u : Uses) => Ends i s b t u h (wrPred (irrevocable s c t) { c := c, t := t } kd false)
    -- the effect of an instruction that passes a right: the pass is in flight, and the thread stands in it until the commit
    let passing := fun (d : Nat) (tk : Token) (k : PassKind) (q : Option Pred) => setEntry (irrevocable s c t) d tk
      (some { tk with pending := some { by_ := ag, sgn := s.sigId c t, core := c, kind := k, upto := (s.ctx c).nextOp, kd := q } })
    -- what every command does where there is no entry, or one with a pass in flight
    let entry := fun (i : Instr) (u : Uses) => Ready s b t th .app u h → let va := addrOf s (envOf s b t u h) h .g a
      (windowLine s w va = true → ∃ v, Ends i s b t u h v) ∧
      (windowLine s w va = false → s.entry? w va = none → Raises i s b t 0x06) ∧
      (∀ d tk, windowLine s w va = false → s.entry? w va = some (d, tk) → tk.pending ≠ none →
        Waits i s b t u h (.retry (.token w tk.base)) s)
    (let u := tokenUses a [p]
     let e := envOf s b t u h
     let va := (rdPair s e h a).toNat
     let n := (rdWord s e h p).toNat
     let meets := fun (x : Nat × Token) => x.2.world == w && rangesMeet x.2.base (2 ^ x.2.n) va (2 ^ n)
     let d := s.homeDie w va
     Ready s b t th .app u h → (windowLine s w va = true → ∃ v, Ends (.ownClaim h mode taint kd a p) s b t u h v) ∧
      (windowLine s w va = false →
      (n < 12 ∨ 30 < n → Raises (.ownClaim h mode taint kd a p) s b t 0x01) ∧
      (12 ≤ n → n ≤ 30 → va % 2 ^ n ≠ 0 → Raises (.ownClaim h mode taint kd a p) s b t 0x03) ∧
      (∀ r, claimCheck s e w va n mode = some r → Raises (.ownClaim h mode taint kd a p) s b t r.code) ∧
      (claimCheck s e w va n mode = none → (∀ x ∈ s.tokens, meets x = false) →
        ((s.die d).tokens.length ≥ 65536 → no (.ownClaim h mode taint kd a p) u) ∧
        ((s.die d).tokens.length < 65536 → d < 2 → ∃ v, Ends (.ownClaim h mode taint kd a p) s b t u h v ∧ rdPred v { c := c, t := t } kd = true ∧
          (v.die d).tokens = (s.die d).tokens ++ [claimMode { base := va, n := n, world := w, owner := ag } ag mode] ∧
          (mode = .write → (claimMode { base := va, n := n, world := w, owner := ag } ag mode).holders = []) ∧
          (mode ≠ .write → (claimMode { base := va, n := n, world := w, owner := ag } ag mode).holders = [ag]))) ∧
      (claimCheck s e w va n mode = none → ∀ d' tk, s.tokens.filter meets = [(d', tk)] → tk.mirror = none →
        (tk.base ≠ va ∨ tk.n ≠ n ∨ tk.lender ≠ 0 ∨ tk.pending ≠ none ∨ (tk.owner ≠ stewardWord ∧ tk.owner ≠ ag) ∨
          (tk.owner = ag ∧ ag ≠ stewardWord ∧ tk.mode = .write) → no (.ownClaim h mode taint kd a p) u) ∧
        (tk.base = va → tk.n = n → tk.lender = 0 → tk.pending = none → tk.owner = stewardWord → tk.count ≤ 1 → tk.taint = false ∨ taint = true →
          ∃ v, Ends (.ownClaim h mode taint kd a p) s b t u h v ∧ rdPred v { c := c, t := t } kd = true ∧
            claimMode tk ag mode ∈ (v.die d').tokens ∧ (claimMode tk ag mode).owner = ag)))) ∧
    entry (.ownLend h kd a p) (tokenUses a [p]) ∧ entry (.ownShare h mode kd a p) (tokenUses a [p]) ∧ entry (.ownRet h a) (tokenUses a []) ∧
    entry (.ownSplit h kd a) (tokenUses a []) ∧ entry (.ownJoin h kd a) (tokenUses a []) ∧ entry (.ownDrop h a) (tokenUses a []) ∧
    (∀ (u : Uses) (va d : Nat) (tk : Token), windowLine s w va = false → s.entry? w va = some (d, tk) → tk.pending = none → tk.mirror = none →
      (let e := envOf s b t u h
       let rcv := rdWord s e h p
       u = tokenUses a [p] → va = addrOf s e h .g a → Ready s b t th .app u h →
        (tk.owner ≠ ag → Raises (.ownLend h kd a p) s b t 0x06) ∧
        (tk.owner = ag → tk.mode ≠ .write ∨ tk.lender ≠ 0 → Raises (.ownLend h kd a p) s b t 0x07) ∧
        (tk.owner = ag → tk.mode = .write → tk.lender = 0 → wordDev rcv = none →
          (rcv = ag ∨ liveAgent s w rcv = false → no (.ownLend h kd a p) u) ∧
          (rcv ≠ ag → liveAgent s w rcv = true → Waits (.ownLend h kd a p) s b t u h (.pass tk.world tk.base) (passing d tk (.lend rcv) (some kd)))) ∧
        (∀ dev, tk.owner = ag → tk.mode = .write → tk.lender = 0 → wordDev rcv = some dev → devTakes s tk dev = false →
          no (.ownLend h kd a p) u) ∧
        (tk.mode = .write → tk.owner ≠ ag ∨ tk.lender ≠ 0 ∨ mode = .write → Raises (.ownShare h mode kd a p) s b t 0x07) ∧
        (tk.mode = .write → tk.owner = ag → tk.lender = 0 → mode ≠ .write →
          (rcv = ag → Waits (.ownShare h mode kd a p) s b t u h (.pass tk.world tk.base) (passing d tk (.toShared mode none) (some kd))) ∧
          (rcv ≠ ag → wordDev rcv = none → liveAgent s w rcv = true →
            Waits (.ownShare h mode kd a p) s b t u h (.pass tk.world tk.base) (passing d tk (.toShared mode (some rcv)) (some kd))) ∧
          (rcv ≠ ag → wordDev rcv = none → liveAgent s w rcv = false → no (.ownShare h mode kd a p) u)) ∧
        (tk.mode ≠ .write → tk.holders.contains ag = true → mode ≠ .write → mode ≠ tk.mode → Raises (.ownShare h mode kd a p) s b t 0x07) ∧
        (tk.mode ≠ .write → tk.holders.contains ag = true → mode = .write ∨ mode = tk.mode → tk.holders.contains rcv = true →
          Ends (.ownShare h mode kd a p) s b t u h (wrPred (irrevocable s c t) { c := c, t := t } kd true)) ∧
        (tk.mode ≠ .write → tk.holders.contains ag = false → Raises (.ownShare h mode kd a p) s b t 0x06) ∧
        (tk.mode ≠ .write → tk.holders.contains ag = true → mode = .write ∨ mode = tk.mode → tk.holders.contains rcv = false →
          (4095 ≤ tk.count → no (.ownShare h mode kd a p) u) ∧
          (tk.count < 4095 → wordDev rcv = none → liveAgent s tk.world rcv = false → no (.ownShare h mode kd a p) u) ∧
          (tk.count < 4095 → wordDev rcv = none → liveAgent s tk.world rcv = true →
            Waits (.ownShare h mode kd a p) s b t u h (.pass tk.world tk.base) (passing d tk (.share rcv) (some kd))))) ∧
      (u = tokenUses a [] → va = addrOf s (envOf s b t u h) h .g a → Ready s b t th .app u h →
        (tk.owner = ag → tk.lender ≠ 0 → Waits (.ownRet h a) s b t u h (.pass tk.world tk.base) (passing d tk .ret none)) ∧
        (tk.owner ≠ ag ∨ tk.lender = 0 → Raises (.ownRet h a) s b t 0x06) ∧
        (mine tk ag = false → Raises (.ownSplit h kd a) s b t 0x07 ∧ Raises (.ownJoin h kd a) s b t 0x07) ∧
        (mine tk ag = true → tk.n = 12 → no (.ownSplit h kd a) u) ∧
        (mine tk ag = true → 12 < tk.n → tableFull s (s.homeDie w (tk.base + 2 ^ (tk.n - 1))) = false →
          ∃ v, Ends (.ownSplit h kd a) s b t u h (wrPred (irrevocable v c t) { c := c, t := t } kd true) ∧
            v = addEntry (setEntry s d tk (some { tk with n := tk.n - 1 })) (s.homeDie w (tk.base + 2 ^ (tk.n - 1)))
              { tk with base := tk.base + 2 ^ (tk.n - 1), n := tk.n - 1 }) ∧
        (mine tk ag = true → (∀ x ∈ s.tokens, x.2.world = w → x.2.n = tk.n → x.2.base ≠ tk.base + 2 ^ tk.n ∧ x.2.base + 2 ^ tk.n ≠ tk.base) →
          tk.base / 2 ^ tk.n % 2 = 0 → no (.ownJoin h kd a) u) ∧
        (tk.mode = .write → tk.owner = ag → tk.lender = 0 → Waits (.ownDrop h a) s b t u h (.pass tk.world tk.base) (passing d tk .drop none)) ∧
        (tk.mode = .write → tk.owner ≠ ag ∨ tk.lender ≠ 0 → Raises (.ownDrop h a) s b t 0x07) ∧
        (tk.mode ≠ .write → tk.owner = ag → tk.count ≠ 1 → Raises (.ownDrop h a) s b t 0x07) ∧
        (tk.mode ≠ .write → tk.owner ≠ ag → tk.holders.contains ag = true → Waits (.ownDrop h a) s b t u h (.pass tk.world tk.base) (passing d tk .unshare none)) ∧
        (tk.mode ≠ .write → tk.owner ≠ ag → tk.holders.contains ag = false → Raises (.ownDrop h a) s b t 0x06))) ∧
    (∀ d dl du tl tu, let u := tokenUses a []
      Ready s b t th .app u h → windowLine s w (addrOf s (envOf s b t u h) h .g a) = false →
      s.entry? w (addrOf s (envOf s b t u h) h .g a) = some (d, tl) → d = dl → tl.pending = none →
      mine tl ag = true → mine tu ag = true → tl.base / 2 ^ tl.n % 2 = 0 → tu.base = tl.base + 2 ^ tl.n → tu.n = tl.n → tl.n < 30 →
      tu.world = w → tu.pending = none → tl.taint = false → tu.taint = false →
      (s.tokens.find? fun x => x.2.mirror.isNone && x.2.world == w && x.2.base == tu.base && x.2.n == tu.n) = some (du, tu) →
      Ends (.ownJoin h kd a) s b t u h (wrPred (irrevocable
        (setEntry (setEntry s du tu none) dl tl (some { tl with n := tl.n + 1, sig := tl.sig ||| tu.sig })) c t) { c := c, t := t } kd true)) ∧
    (let u : Uses := { srcs := [(a, 2)], dsts := [(dst, 1)] }
     let e := envOf s b t u h
     let va := addrOf s e h .g a
     Ready s b t th .app u h →
      (windowLine s w va = false → Ends (.ownQuery h dst a) s b t u h (wrWord s e dst (queryWord s w va ag))) ∧
      (windowLine s w va = true → ∃ x, Ends (.ownQuery h dst a) s b t u h (wrWord s e dst x))) ∧
    (let u : Uses := { dsts := [(dst, 1)] }
     Ready s b t th .app u h → Ends (.ownQuerySelf h dst) s b t u h (wrWord s (envOf s b t u h) dst ag)) ∧
    (∀ va, s.entry? w va = none → queryWord s w va ag = 3) ∧
    (∀ va d tk, s.entry? w va = some (d, tk) → tk.n < 32 → tk.count < 4096 →
      let q := queryWord s w va ag
      (q.extractLsb' 0 2).toNat = (match tk.mode with | .write => 0 | .rs => 1 | .at => 2) ∧
      (tk.pending = none → (q.getLsbD 2 = true ↔ if tk.mode = .write then tk.owner = ag ∧ ag ≠ 0 else tk.holders.contains ag = true)) ∧
      q.getLsbD 3 = (tk.lender == ag) ∧ q.getLsbD 4 = (tk.lender != 0) ∧ q.getLsbD 5 = tk.taint ∧ q.getLsbD 6 = tk.pending.isSome ∧
      (q.extractLsb' 7 5).toNat = tk.n ∧ (q.extractLsb' 12 12).toNat = tk.count ∧ q.extractLsb' 24 8 = 0)

/-- R310, R312, R313, R317, R318, R385: a pass commits once what its agent did before is held; owner, lender and shares become what the
pass says; the rights of an agent that ends go to its lender or the steward, and a right lent to another device comes home. Which entry of
a claim or mirror is met first is the model's choice (log 37). -/
def Obligations.TokenPasses : Prop :=
  ∀ (s : State) (d base w dev c : Nat) (t : Token) (p : Pass) (sig : Sig) (a : Word) (taint : Bool),
    ((∀ e ∈ s.tokens, e.2.world = w → e.2.base = base → ∀ q, e.2.pending = some q → passReady s q = false) →
      exec (.tokenPassCommit w base) s = .next s) ∧
    (s.tokens = [(d, t)] → t.world = w → t.base = base → t.pending = some p → passReady s p = true →
      exec (.tokenPassCommit w base) s = .next (commitPass s d t p)) ∧
    (∀ rcv, p.kind = .lend rcv → t.passed p sig = (some { t with owner := rcv, lender := p.by_, sig := sig, pending := none }, some rcv)) ∧
    (p.kind = .ret → t.passed p sig = (some { t with owner := t.lender, lender := 0, sig := sig, pending := none }, some t.lender)) ∧
    (∀ rcv, p.kind = .share rcv → t.holders.contains rcv = false → t.passed p sig =
      (some { t with holders := t.holders ++ [rcv], count := t.count + 1, sig := sig, pending := none }, some rcv)) ∧
    (∀ rcv m, p.kind = .toShared m (some rcv) → t.passed p sig =
      (some { t with mode := m, holders := [p.by_, rcv], count := 2, sig := sig, pending := none }, some rcv)) ∧
    (∀ m, p.kind = .toShared m none → t.passed p sig =
      (some { t with mode := m, holders := [p.by_], count := 1, sig := sig, pending := none }, none)) ∧
    (p.kind = .drop → t.passed p sig = (none, none)) ∧
    (p.kind = .unshare → t.passed p sig =
      (some { t with holders := t.holders.erase p.by_, count := t.count - 1, sig := sig, pending := none }, none)) ∧
    -- a waiting thread goes on with its status
    (∀ tid th, t.mirror = none → (∀ rcv, (t.passed p (carried s p.core p.sgn)).2 = some rcv → wordDev rcv = none) →
      (s.ctx p.core).threads = [(tid, th)] → th.blk = .pass t.world t.base →
        ((commitPass s d t p).thr p.core tid).pc = nextPc th.pc ∧ ((commitPass s d t p).thr p.core tid).blk = .run ∧
        (∀ k, p.kd = some k → rdPred (commitPass s d t p) { c := p.core, t := tid } k = true) ∧
        (p.kind = .drop → ∀ x ∈ ((commitPass s d t p).die d).tokens, sameEntry t x = false)) ∧
    -- an agent that ends
    (s.ending = [(c, a, w, taint)] →
      (endsReady s c a w = false → exec (.agentEndRights a w taint) s = .next s) ∧
      (agentQuiet s c a = false → endsReady s c a w = false) ∧
      -- a pass to it that is in flight goes first
      (∀ x ∈ s.tokens, (x.2.pending.any fun q => q.kind.receiver == some a) = true → endsReady s c a w = false) ∧
      (endsReady s c a w = true → ∃ v, exec (.agentEndRights a w taint) s = .next v ∧ v.ending = [] ∧
        v.mem = s.mem ∧
        (s.tokens = [(d, t)] → t.world = w → a ≠ 0 → (v.die d).tokens = [(t.ends a (carried s c a) taint).1]))) ∧
    (t.named a = false → t.ends a sig taint = (t, none)) ∧
    (t.mode = .write → t.owner = a → a ≠ 0 →
      (t.lender = 0 → (t.ends a sig taint).1.owner = stewardWord ∧ (t.ends a sig taint).2 = some stewardWord) ∧
      (t.lender ≠ 0 → (t.ends a sig taint).1.owner = t.lender ∧ (t.ends a sig taint).1.lender = 0 ∧ (t.ends a sig taint).2 = some t.lender) ∧
      ((t.ends a sig taint).1.taint = (t.taint || taint))) ∧
    (t.mode = .write → t.owner ≠ a → t.lender = a →
      t.ends a sig taint = ({ t with lender := stewardWord, taint := t.taint || taint }, none)) ∧
    (t.mode ≠ .write → t.holders.contains a = true →
      (t.owner ≠ a → t.ends a sig taint = ({ t with holders := t.holders.erase a, count := t.count - 1, taint := t.taint || taint }, none)) ∧
      (t.owner = a → (t.ends a sig taint).2 = some stewardWord ∧
        (t.holders.contains stewardWord = false → (t.ends a sig taint).1 = { t with
          owner := stewardWord, taint := t.taint || taint, holders := t.holders.map fun x => if x = a then stewardWord else x }) ∧
        (t.holders.contains stewardWord = true → (t.ends a sig taint).1 = { t with
          owner := stewardWord, taint := t.taint || taint, holders := t.holders.erase a, count := t.count - 1 }))) ∧
    -- a core that leaves service, and a world that aborts
    (∀ (on : Word → Bool), (on t.owner || on t.lender || t.holders.any on) = false → t.failCore c on = t) ∧
    (∀ (on : Word → Bool), t.mode = .write →
      (on t.owner = true → (t.failCore c on).taint = true ∧ (t.failCore c on).lender = 0 ∧
        (t.failCore c on).owner = (if t.lender = 0 ∨ on t.lender = true then stewardWord else t.lender)) ∧
      (on t.owner = false → on t.lender = true → (t.failCore c on).taint = true ∧ (t.failCore c on).owner = t.owner ∧
        (t.failCore c on).lender = stewardWord)) ∧
    ((t.reverted sig).owner = stewardWord ∧ (t.reverted sig).taint = true ∧ (t.reverted sig).lender = 0 ∧ (t.reverted sig).pending = none) ∧
    (s.tokens = [(d, t)] → t.mirror = none → t.world = w → t.base = base → t.owner = deviceWord dev → coreOfWord s w t.lender = none →
      exec (.tokenReturnHome dev base w) s = .next (setEntry s d t (some { t with owner := t.lender, lender := 0 })))

/-! ### Shares and the exchange gate -/

/-- R74, R358 to R363, R366, R367: the local operations on shares are exact modulo 2^n; those that finish a product combine the opened words
with the group; a truncation by more than n − 2 completes with a word left open (log 39); `sh.beg` takes the next item of its pool. -/
def Obligations.ShareArithmetic : Prop :=
  ∀ (s : State) (b : Bundle) (t : Nat) (th : Thread) (h : Hdr) (ty : ShTy) (d : Dst) (a p q : Src) (pub : Option Src) (pn : Bool) (n : Nat) (g : Gate),
    let N : Nat := if ty = .s32 ∨ ty = .tr32 then 2 ^ 32 else 2 ^ 16
    let low := fun (w : Word) => ((w.toNat % N : Nat) : Int)
    let put := fun (v : Int) => BitVec.ofNat 32 (v % (N : Int)).toNat
    (let u : Uses := { srcs := one [a, p], dsts := [(d, 1)] }
     let e := envOf s b t u h
     let x := rdWord s e h a
     let y := rdWord s e h p
     Ready s b t th .app u h →
      Ends (.shAdd h ty d a p none) s b t u h (wrWord s e d (put (low x + low y))) ∧
      Ends (.shSub h ty d a p none) s b t u h (wrWord s e d (put (low x - low y))) ∧
      Ends (.shCmul h ty d a p) s b t u h (wrWord s e d (put (low x * low y))) ∧
      Ends (.shXor h d a p none) s b t u h (wrWord s e d ((x ^^^ y) &&& 0xFFFF)) ∧
      (∀ r, sessionOf s e y = .error r → Raises (.shCvtA2b h pn d a p) s b t r ∧ Raises (.shCvtB2a h ty pn d a p) s b t r) ∧
      (sessionOf s e y = .ok (n, g) →
        Ends (.shCvtA2b h pn d a p) s b t u h (wrWord s e d (if g.party = pn then x &&& 0xFFFF else 0)) ∧
        Ends (.shCvtB2a h ty pn d a p) s b t u h
          (wrWord s e d (if g.party = pn then (if x.getLsbD (h.imm.toNat % 16) then 1 else 0) else 0)))) ∧
    (let u : Uses := { srcs := one [a, p, q], dsts := [(d, 1)] }
     let e := envOf s b t u h
     let x := rdWord s e h a
     let y := rdWord s e h p
     Ready s b t th .app u h →
      (∀ r, sessionOf s e (rdWord s e h q) = .error r → Raises (.shAdd h ty d a p (some q)) s b t r ∧
        Raises (.shSub h ty d a p (some q)) s b t r ∧ Raises (.shXor h d a p (some q)) s b t r) ∧
      (sessionOf s e (rdWord s e h q) = .ok (n, g) →
        Ends (.shAdd h ty d a p (some q)) s b t u h (wrWord s e d (if g.party then put (low x) else put (low x + low y))) ∧
        Ends (.shSub h ty d a p (some q)) s b t u h (wrWord s e d (if g.party then put (low x) else put (low x - low y))) ∧
        Ends (.shXor h d a p (some q)) s b t u h (wrWord s e d ((if g.party then x else x ^^^ y) &&& 0xFFFF)))) ∧
    (let wide := ty = .s32 ∨ ty = .tr32
     let u : Uses := { srcs := [(a, if wide then 8 else 4), (p, if ty = .s32 then 2 else 1), (q, 1)], dsts := [(d, 1)] }
     let e := envOf s b t u h
     let w := fun (i : Nat) => rdWord s e h a i
     let o := rdWord s e h p
     Ready s b t th .app u h → sessionOf s e (rdWord s e h q) = .ok (n, g) →
      (ty = .s16 → Ends (.shFin h ty d a p q) s b t u h (wrWord s e d (put (low (w 3) + low o * low (w 2) + low (o >>> 16) * low (w 1) +
        (if g.party then (0 : Int) else low o * low (o >>> 16)))))) ∧
      (ty = .s32 → let o1 := rdWord s e h p 1
        Ends (.shFin h ty d a p q) s b t u h (wrWord s e d (put (low (w 4) + low o * low (w 3) + low o1 * low (w 2) +
          (if g.party then (0 : Int) else low o * low o1))))) ∧
      (ty = .b16 → let dd := o &&& 0xFFFF
        let ee := o >>> 16
        Ends (.shAnd h d a p q) s b t u h (wrWord s e d
          ((w 3 ^^^ (dd &&& w 2) ^^^ (ee &&& w 1) ^^^ (if g.party then 0 else dd &&& ee)) &&& 0xFFFF))) ∧
      (ty = .s16 ∨ ty = .s32 →
        let k := if ty = .s32 then 30 else 14
        let m := low (w (if ty = .s32 then 3 else 2))
        let f := (low (w (if ty = .s32 then 4 else 3))).toNat
        (g.party = true → Ends (.shTrunc h ty d a p q) s b t u h (wrWord s e d (put (-m)))) ∧
        (g.party = false → f ≤ k → Ends (.shTrunc h ty d a p q) s b t u h (wrWord s e d (put
          (low o / (2 : Int) ^ f - (2 : Int) ^ (k - f) - m)))) ∧
        (g.party = false → k < f → ∃ v : Word, v.toNat < N ∧ Ends (.shTrunc h ty d a p q) s b t u h (wrWord s e d v)))) ∧
    (let c' := p
     let u : Uses := { srcs := one (a :: c' :: pub.toList), dsts := [(d, groupLen ty)] }
     let e := envOf s b t u h
     let y := (pub.map (rdWord s e h ·)).getD 0
     Ready s b t th .app u h →
      (∀ r, sessionOf s e (rdWord s e h c') = .error r → Raises (.shBeg h ty d a pub c') s b t r) ∧
      (sessionOf s e (rdWord s e h c') = .ok (n, g) →
        (g.ended = true → Raises (.shBeg h ty d a pub c') s b t 0x12) ∧
        (g.ended = false → g.pools.look ty.ctorIdx = none → Raises (.shBeg h ty d a pub c') s b t 0x11) ∧
        (g.ended = false → ∀ pl, g.pools.look ty.ctorIdx = some pl → pl.cursor = pl.count → Raises (.shBeg h ty d a pub c') s b t 0x11) ∧
        (g.ended = false → ∀ s' it, takeItem s e n g ty = .ok (s', it) →
          let ws := begWords ty g.party (rdWord s e h a) y it
          Ends (.shBeg h ty d a pub c') s b t u h
            (irrevocable ((List.range ws.length).foldl (fun s i => wrWord s e d (ws.getD i 0) i) s') b.core t) ∧
          (s.gateRec n = g → ∃ pl, g.pools.look ty.ctorIdx = some pl ∧ pl.cursor ≠ pl.count ∧ (it.getD 3 0).toNat = pl.cursor ∧
            (s'.gateRec n).pools.look ty.ctorIdx = some { pl with cursor := pl.cursor + 1 })) ∧
        -- the item at the cursor: of the wrong sequence it aborts the session, and consumed it is burned at its home
        (g.ended = false → ∀ pl, g.pools.look ty.ctorIdx = some pl → pl.cursor ≠ pl.count →
          let sz := if ty = .s32 ∨ ty = .tr32 then 16 else 8
          let va := pl.base + pl.cursor * sz
          let hm := pl.home (pl.cursor * sz)
          let it := itemWords ty (homeBytes s g.world va sz [hm])
          poisoned s g.world va sz [hm] = false →
          ((it.getD 3 0).toNat ≠ pl.cursor → s.gateRec n = g → ∃ v, exec (.shBeg h ty d a pub c') s = .next v ∧ (v.thr b.core t).park ≠ none ∧
            (v.gateRec n).st = .aborted ∧ Due.worldAbort g.world 0x12 ∈ v.todo) ∧
          ((it.getD 3 0).toNat = pl.cursor → ∃ s', takeItem s e n g ty = .ok (s', it) ∧
            (windowLine s g.world hm.va = false → homeLine s' g.world hm = lineOfBytes
              (overlay (lineBytes (homeLine s g.world hm)) (pl.cursor * sz % 128) (List.replicate sz 0xFF))))))) ∧
    (∀ l i, i < 4 → let k := if ty = .s32 ∨ ty = .tr32 then 4 else 2
      (itemWords ty l).getD i 0 = BitVec.ofNat 32 (natOf ((l.drop (k * i)).take k))) ∧
    (∀ x y i0 i1 i2 i3 : Word,
      begWords .s16 pn x y [i0, i1, i2, i3] = [((x - i0) &&& 0xFFFF) ||| ((y - i1) <<< 16), i0, i1, i2] ∧
      begWords .s32 pn x y [i0, i1, i2, i3] = [x - i0, y - i1, i0, i1, i2, 0, 0, 0] ∧
      begWords .b16 pn x y [i0, i1, i2, i3] = [((x ^^^ i0) &&& 0xFFFF) ||| ((y ^^^ i1) <<< 16), i0, i1, i2] ∧
      begWords .tr16 pn x y [i0, i1, i2, i3] = [(x + i0 + if pn then 0 else 2 ^ 14) &&& 0xFFFF, i0, i1, i2] ∧
      begWords .tr32 pn x y [i0, i1, i2, i3] = [x + i0 + if pn then 0 else 2 ^ 30, 0, i0, i1, i2, 0, 0, 0])

/-- R356, R357, R359, R364, R365, R369 to R372, R387: sessions are opened and closed by a steward, an exchange waits for its peer and adds
or combines the two contributions, and a disagreement or the timer aborts both sides. The order of the refusals is the model's choice (log
38). -/
def Obligations.GateSessions : Prop :=
  ∀ (s : State) (b : Bundle) (t : Nat) (th : Thread) (h : Hdr) (ty : ShTy) (d : Dst) (a p q : Src) (n : Nat) (g : Gate),
    let c := b.core
    (let u : Uses := { srcs := [(a, 2)], dsts := [(d, 1)] }
     let e := envOf s b t u h
     let w := s.actWorld c t
     Ready s b t th .app u h →
      (isSteward s e = false → Ends (.shSessOpen h d a) s b t u h (wrWord s e d 2)) ∧
      (isSteward s e = true →
        (∀ r, accessCheck s e .g (addrOf s e h .g a) 64 64 .load = .error r → Raises (.shSessOpen h d a) s b t r.code) ∧
        (∀ s' va hm, accessCheck s e .g (addrOf s e h .g a) 64 64 .load = .ok (s', va, [hm]) →
          (lineBusy (s.ctx c) (s.ctx c).nextOp w hm.va = true → Waits (.shSessOpen h d a) s b t u h (.retry (.line w hm.va)) s) ∧
          (lineBusy (s.ctx c) (s.ctx c).nextOp w hm.va = false → poisoned s w va 64 [hm] = false →
            let o := openSession (enterSig (fillL2 s' w hm 3) c (s.sigId c t) va) w (homeBytes s w va 64 [hm])
            Ends (.shSessOpen h d a) s b t u h (wrWord o.1 e d o.2))))) ∧
    (∀ (w : Nat) (l : List Byte),
      (descOk l = false → openSession s w l = (s, 2)) ∧
      (descOk l = true → s.gate = [] → ∃ g', openSession s w l = ({ s with gate := [(0, g')] }, 0) ∧ g'.st = .opening ∧ g'.world = w ∧
        g'.tag = BitVec.ofNat 32 (natOf (l.take 4)) ∧ (g'.party = true ↔ natOf ((l.drop 4).take 1) % 2 = 1) ∧ g'.desc = l ∧
        g'.timeout = 1024 * natOf ((l.drop 12).take 4)) ∧
      -- a second record that the first matches is matched in the same step
      (∀ r, descOk l = true → s.gate = [(0, r)] →
        let g' : Gate := { st := .opening, world := w, tag := BitVec.ofNat 32 (natOf (l.take 4)), party := descParty l, desc := l,
                           timeout := 1024 * natOf ((l.drop 12).take 4) }
        let s1 := { s with gate := [(0, r), (1, g')] }
        matches_ s1 1 0 = true → openSession s w l = ({ s1 with todo := s.todo ++ [.sessionMatch 0 1] }, 256))) ∧
    (∀ r, matches_ s n r = true → let x := s.gateRec n
      let y := s.gateRec r
      x.st = .opening ∧ y.st = .opening ∧ x.tag = y.tag ∧ x.party ≠ y.party ∧ natOf ((x.desc.drop 8).take 1) = y.world ∧
      natOf ((y.desc.drop 8).take 1) = x.world ∧ measBytes s y.world = x.desc.drop 32 ∧ measBytes s x.world = y.desc.drop 32) ∧
    (let u : Uses := { srcs := one [a], dsts := [(d, 1)] }
     let e := envOf s b t u h
     let v := rdWord s e h a
     Ready s b t th .app u h →
      ((∀ x ∈ s.gate, x.2.st = .free ∨ x.2.world ≠ s.actWorld c t ∨ x.2.tag ≠ v) →
        Ends (.shSessQry h d a) s b t u h (wrWord s e d 0xFFFFFFFF)) ∧
      (s.gate = [(n, g)] → g.st ≠ .free → g.world = s.actWorld c t → g.tag = v →
        Ends (.shSessQry h d a) s b t u h (wrWord s e d (gateWord n g))) ∧
      (n < 64 → let q := gateWord n g
        (q.extractLsb' 0 6).toNat = n ∧ q.extractLsb' 6 2 = 0 ∧ q.getLsbD 11 = g.party ∧ q.getLsbD 12 = g.pending.isSome ∧
        q.extractLsb' 13 19 = 0 ∧ (q.extractLsb' 8 3).toNat =
          (match g.st with | .free => 0 | .opening => 1 | .open_ => 2 | .aborted => 3 | .ended => 4)) ∧
      (isSteward s e = false ∨ (s.gateRec (v.toNat % 64)).st = .free → Ends (.shClose h d a) s b t u h (wrWord s e d 2)) ∧
      (isSteward s e = true → (s.gateRec (v.toNat % 64)).st ≠ .free →
        ((s.gateRec (v.toNat % 64)).world ≠ s.actWorld c t → Raises (.shClose h d a) s b t 0x05) ∧
        ((s.gateRec (v.toNat % 64)).world = s.actWorld c t → (s.gateRec (v.toNat % 64)).ended = true →
          ∃ x, Ends (.shClose h d a) s b t u h (wrWord x e d 0) ∧ (x.gateRec (v.toNat % 64)).st = .free) ∧
        (let k := v.toNat % 64
         let g := s.gateRec k
         g.world = s.actWorld c t →
          (g.st = .opening → ∃ x, Ends (.shClose h d a) s b t u h (wrWord x e d 0) ∧ (x.gateRec k).st = .free ∧ x.todo = s.todo) ∧
          (∀ r, g.st = .open_ → g.peer = some (s.fab.devno, r) → r ≠ k → (s.gateRec r).st = .open_ →
            (g.pending = none → g.theirs = none → (s.gateRec r).pending = none →
              ∃ x, Ends (.shClose h d a) s b t u h (wrWord x e d 0) ∧ (x.gateRec k).st = .free ∧ (x.gateRec r).st = .ended ∧ x.todo = s.todo) ∧
            (g.pending ≠ none ∨ (s.gateRec r).pending ≠ none → (s.gateRec r).peer = some (s.fab.devno, k) →
              ∃ w, exec (.shClose h d a) s = .next w ∧ (w.gateRec k).st = .free ∧ (w.gateRec r).st = .aborted ∧
                Due.worldAbort g.world 0x12 ∈ w.todo ∧ Due.worldAbort (s.gateRec r).world 0x12 ∈ w.todo))))) ∧
    (let u : Uses := { srcs := [(a, 2), (p, 1), (q, 1)], dsts := [(d, 1)] }
     let e := envOf s b t u h
     let r := (rdWord s e h p).toNat % 64
     Ready s b t th .app u h →
      (isSteward s e = false ∨ (s.gateRec r).st = .free → Ends (.shPool h ty d a p q) s b t u h (wrWord s e d 2)) ∧
      (isSteward s e = true → (s.gateRec r).st ≠ .free →
        ((s.gateRec r).world ≠ s.actWorld c t → Raises (.shPool h ty d a p q) s b t 0x05) ∧
        ((s.gateRec r).world = s.actWorld c t →
          let o := attachPool s c (s.actWorld c t) r ty (addrOf s e h .g a) (rdWord s e h q).toNat
          Ends (.shPool h ty d a p q) s b t u h (wrWord o.1 e d o.2)))) ∧
    -- the attach of a pool
    (∀ w r base xn m, let x := s.gateRec r
      let sz := if ty = .s32 ∨ ty = .tr32 then 16 else 8
      let meets := s.tokens.filter fun y => entryMeets y.2 w base m
      let entry : Token := { base := base, n := m, world := w, owner := 0 }
      let o := attachPool s c w r ty base xn
      12 ≤ m → xn * sz ≤ 2 ^ m → (m = 12 ∨ 2 ^ (m - 1) < xn * sz) →
      ((x.st ≠ .opening ∧ x.st ≠ .open_) ∨ x.pools.has ty.ctorIdx = true ∨ xn = 0 ∨ 65535 < xn ∨ base % 4096 ≠ 0 ∨ base % 2 ^ m ≠ 0 ∨
        (∃ y ∈ meets, y.2.mode ≠ .write ∨ y.2.owner ≠ stewardWord ∨ y.2.lender ≠ 0) ∨
        (∃ i, i < 2 ^ m / 4096 ∧ ∃ k, lineCheck s c w (base + 4096 * i) .store = .error k) → o = (s, 2)) ∧
      (x.st = .opening ∨ x.st = .open_ → x.pools.has ty.ctorIdx = false → 0 < xn → xn ≤ 65535 → base % 2 ^ m = 0 →
        (∀ i, i < 2 ^ m / 4096 → ∃ hm, lineCheck s c w (base + 4096 * i) .store = .ok hm ∧ hm.pa ≠ none) →
        (meets = [] ∨ ∃ d tk, meets = [(d, tk)] ∧ entryOf tk w base m = true ∧ tk.mode = .write ∧ tk.owner = stewardWord ∧ tk.lender = 0 ∧
          tk.pending = none) →
        (tableFull s (s.homeDie w base) = true → o = (s, 5)) ∧
        (tableFull s (s.homeDie w base) = false → s.homeDie w base < 2 → o.2 = 0 ∧ entry ∈ o.1.tokens.map (·.2) ∧
          ∃ pl, (o.1.gateRec r).pools.look ty.ctorIdx = some pl ∧ pl.base = base ∧ pl.n = m ∧ pl.count = xn ∧ pl.cursor = 0))) ∧
    (let k := if ty = .s32 then 2 else 1
     let u : Uses := { srcs := [(a, k), (p, 1), (q, 1)], dsts := [(d, k)] }
     let e := envOf s b t u h
     let exchange := fun (i : Instr) (rev : Bool) =>
      let v : Contrib := { reveal := rev, ty := ty, id := (rdWord s e h q).setWidth 16, m := 1,
                           words := (List.range k).map fun j => rdWord s e h a j }
      (∀ r, sessionOf s e (rdWord s e h p) = .error r → Raises i s b t r) ∧
      (sessionOf s e (rdWord s e h p) = .ok (n, g) →
        (g.ended = true → Raises i s b t 0x12) ∧
        (g.ended = false → g.pending ≠ none ∨ g.held ≠ none → Waits i s b t u h (.retry (.gate n)) s) ∧
        (g.ended = false → g.pending = none → g.held = none →
          let s1 := (irrevocable s c t).modGate n fun g => { g with waiter := some c, waitTo := [t], dst := d }
          (g.st = .open_ → v.id.toNat = g.nextId → Waits i s b t u h (.xch n) (sendContrib s1 n v)) ∧
          (g.st = .open_ → v.id.toNat ≠ g.nextId → ∃ w, exec i s = .next w ∧ (w.thr c t).park ≠ none ∧ (w.gateRec n).st = .aborted) ∧
          (g.st = .opening → Waits i s b t u h (.xch n) (s1.modGate n fun g => { g with held := some v, since := some s.ioclk }))))
     Ready s b t th .app u h → exchange (.shXch h ty d a p q) false ∧ exchange (.shReveal h ty d a p q) true) ∧
    -- the gate
    (∀ (r : Nat) (x y : Contrib) (peer : Nat), s.gateRec n = g → g.mine = some x → g.theirs = some y → g.peer = some (peer, r) →
      (x.reveal = y.reveal → x.ty = y.ty → x.m = y.m → x.id = y.id → peer = s.fab.devno →
        tryCommit s n = deliver (deliver s n x y.words) r y x.words) ∧
      (x.reveal ≠ y.reveal ∨ x.ty ≠ y.ty ∨ x.m ≠ y.m ∨ x.id ≠ y.id → tryCommit s n = abortSession s n 0x12)) ∧
    (∀ (k : Contrib) (peer : List Word) (r : BitVec 7) (th' : Thread), s.gateRec n = g → k.ty = .b16 → g.waiter = some c → g.waitTo = [t] →
      g.dst = .x r → s.thr? c t = some th' → th'.blk = .xch n →
      ((deliver s n k peer).thr c t).pc = nextPc th'.pc ∧ ((deliver s n k peer).thr c t).blk = .run ∧
      ((deliver s n k peer).thr c t).regs.get 0 r.toNat = (k.words.getD 0 0 ^^^ peer.getD 0 0) ∧
      ((deliver s n k peer).gateRec n).pending = none) ∧
    (∀ (k : Contrib) (r : Nat), s.contribs = [(n, k)] → s.gateRec n = g → g.peer = some (s.fab.devno, r) → r ≠ n → (s.gateRec r).mine = none →
      (gateExpired s g = false → gateExpired s (s.gateRec r) = false →
        ∃ w, exec (.gateContributionArrival n k) s = .next w ∧ w.contribs = [] ∧ (g.theirs = none → (w.gateRec n).mine = some k ∧
          (w.gateRec r).theirs = some k)) ∧
      (gateExpired s g = true → gateExpired s (s.gateRec r) = false →
        exec (.gateContributionArrival n k) s = .next (abortSession s n 0x13))) ∧
    (∀ (k : Contrib) (dev r : Nat), s.contribs = [] → s.gateRec n = g → g.st = .open_ → g.party = false → g.peer = some (dev, r) →
      dev ≠ s.fab.devno → g.theirs = none → g.mine = none → gateExpired s g = false →
      exec (.gateContributionArrival n k) s = .next (s.modGate n fun g => { g with theirs := some k })) ∧
    (∀ (k : Contrib) (ws : List Word) (dev r : Nat), s.gateRec n = g → g.pending = some k → g.st = .open_ → g.party = true →
      g.peer = some (dev, r) → dev ≠ s.fab.devno → exec (.arbiterWordsArrival n ws) s = .next (deliver s n k ws)) ∧
    (s.gateRec n = g → g.since = none → exec (.gateTimeout n) s = .next s) ∧
    (∀ t0, s.gateRec n = g → g.since = some t0 → s.ioclk ≤ t0 + g.timeout → exec (.gateTimeout n) s = .next s) ∧
    (∀ t0, s.gate = [(n, g)] → g.st = .open_ ∨ g.st = .opening → g.since = some t0 → t0 + g.timeout < s.ioclk → g.waiter = none →
      (∀ x ∈ s.cores, ∀ y ∈ x.2.ctx.threads, y.2.blk ≠ .retry (.gate n)) → ∃ w, exec (.gateTimeout n) s = .next w ∧ (w.gateRec n).st = .aborted ∧ w.todo = s.todo ++ [.worldAbort g.world 0x13]) ∧
    (∀ r, matches_ s n r = true → (s.gateRec n).held = none → (s.gateRec r).held = none → ∃ w, exec (.sessionMatch n r) s = .next w ∧
      (w.gateRec n).st = .open_ ∧ (w.gateRec r).st = .open_ ∧ (w.gateRec n).peer = some (s.fab.devno, r) ∧
      (w.gateRec r).peer = some (s.fab.devno, n))

/-! ### The privileged class -/

/-- R10, R33: below its level a privileged instruction raises 0x02, whatever its operands. -/
def Sys2Proof.Machine.Privilege : Prop :=
  ∀ (s : State) (b : Bundle) (t : Nat) (th : Thread) (h : Hdr) (d : Dst) (a p q : Src) (i : Instr),
    Ready s b t th .app {} h →
      (th.level.num < 2 →
        i = .partQsc h d a ∨ i = .partRes h d a ∨ i = .partWil h d a p ∨ i = .partWnb h d a p ∨ i = .xltSdRange h d a p q ∨
          i = .xltSdWorld h d a ∨ i = .xltSdPart h d ∨ i = .worldLat h d a p ∨ i = .worldClr h d a ∨ i = .fabCfgRoute h d a p ∨
          i = .fabCfgBind h d a p ∨ i = .fabCfgUnbind h d a p ∨ i = .fabCfgPort h d a p ∨ i = .fabCfgQry h d a p →
        Raises i s b t 0x02) ∧
      (th.level.num < 3 → Raises (.keySet h d a p) s b t 0x02)

/-- R304, R333 to R338, R340, R341: quiescing holds the cores of the quarters and waits for them; the interleave and the quarters change as
written, with a shoot-down due; a core is latched with its handler, and cleared; a shoot-down waits for the accesses to its pages and
leaves nothing of them cached. That `world.lat` answers REFUSED for a world below 4 is the model's reading (log 43). -/
def Sys2Proof.Machine.Partitions : Prop :=
  ∀ (s : State) (b : Bundle) (t : Nat) (th : Thread) (h : Hdr) (d : Dst) (a k l : Src) (p : Nat) (x : Part),
    let c := b.core
    s.partOf c = some p → s.parts.look p = some x →
    (let u : Uses := { srcs := one [a], dsts := [(d, 1)] }
     let e := envOf s b t u h
     let v := (rdWord s e h a).toNat
     let q : BitVec 4 := (rdWord s e h a).setWidth 4
     Ready s b t th .steward u h →
      (th.blk = .run →
        (16 ≤ v ∨ q = 0 ∨ q &&& ~~~(x.pqm ||| offeredTo s p) ≠ 0 → Ends (.partQsc h d a) s b t u h (wrWord s e d 2)) ∧
        (v < 16 → q ≠ 0 → q &&& ~~~(x.pqm ||| offeredTo s p) = 0 →
          ((∃ y ∈ coresOf q, coreBusy s y = true) → Ends (.partQsc h d a) s b t u h (wrWord s e d 1)) ∧
          ((∀ y ∈ coresOf q, coreBusy s y = false) →
            ((∀ y ∈ coresOf q, drained (quiesce s p q) y = true) → Ends (.partQsc h d a) s b t u h (wrWord (quiesce s p q) e d 0)) ∧
            ((∃ y ∈ coresOf q, drained (quiesce s p q) y = false) →
              Waits (.partQsc h d a) s b t u h (.retry (.quiet (coresOf q))) (quiesce s p q))))) ∧
      (∀ cs, th.blk = .retry (.quiet cs) → (∀ y ∈ cs, drained s y = true) → Ends (.partQsc h d a) s b t u h (wrWord s e d 0)) ∧
      (16 ≤ v ∨ q &&& ~~~(heldBy x) ≠ 0 → Ends (.partRes h d a) s b t u h (wrWord s e d 2)) ∧
      (v < 16 → q &&& ~~~(heldBy x) = 0 → x.pqst.getLsbD 4 = true → Ends (.partRes h d a) s b t u h (wrWord s e d 4)) ∧
      (v < 16 → q &&& ~~~(heldBy x) = 0 → x.pqst.getLsbD 4 = false → ∃ w, Ends (.partRes h d a) s b t u h (wrWord w e d 0) ∧
        (∀ y ∈ coresOf q, (w.ctx y).held = false ∧ (w.core y).quiesced = false) ∧
        w.parts.look p = some { x with pqst := x.pqst &&& ~~~(q.setWidth 32) })) ∧
    (∀ (q : BitVec 4), (∀ y ∈ coresOf q, ((quiesce s p q).ctx y).held = true ∧ ((quiesce s p q).core y).quiesced = true) ∧
      (quiesce s p q).parts.look p = some { x with pqst := x.pqst ||| q.setWidth 32 }) ∧
    (let u : Uses := { srcs := one [a, k], dsts := [(d, 1)] }
     let e := envOf s b t u h
     let v := rdWord s e h a
     let g := (rdWord s e h k).toNat
     Ready s b t th .steward u h →
      let ok := v.toNat < 2 ^ 24 ∧ 12 ≤ g ∧ g ≤ 30 ∧ ∀ i, i < 8 → (stackQuarters s p).getLsbD (v.toNat / 8 ^ i % 8 / 2) = true
      (¬ ok → Ends (.partWil h d a k) s b t u h (wrWord s e d 2)) ∧
      (ok → Ends (.partWil h d a k) s b t u h (wrWord (s.modPart p fun y => { y with
        prior := y.prior ++ [(y.pmil, y.pmig, y.pqm, worldsOf s p)], pqst := y.pqst ||| 0x10, pmil := v.setWidth 24, pmig := g }) e d 0)) ∧
      -- a core latched
      (let core := (rdWord s e h a).toNat
       let w := g
       (192 ≤ core ∨ s.partOf core ≠ some p ∨ (s.core core).latch ≠ none ∨ (s.core core).inService = false ∨ w < 4 ∨ s.worlds.look w = none →
         Ends (.worldLat h d a k) s b t u h (wrWord s e d 2)) ∧
       (∀ y, core < 192 → core ≠ c → s.partOf core = some p → (s.core core).latch = none → (s.core core).inService = true → 4 ≤ w →
         s.worlds.look w = some y →
         (y.part ≠ p ∨ y.aborted = true → Ends (.worldLat h d a k) s b t u h (wrWord s e d 2)) ∧
         (y.part = p → y.aborted = false → ∃ z, Ends (.worldLat h d a k) s b t u h (wrWord z e d 0) ∧ (z.core core).latch = some w ∧
           ∀ n l, tidsFree s core = n :: l → (z.ctx core).handler = some n ∧ ∃ th', z.thr? core n = some th' ∧ th'.level = .handler ∧
             th'.pc = y.entry ∧ th'.quota = y.quota)))) ∧
    (let u : Uses := { srcs := [(a, 1), (k, 2)], dsts := [(d, 1)] }
     let e := envOf s b t u h
     let v := (rdWord s e h a).toNat
     let n : BitVec 4 := (rdWord s e h a).setWidth 4
     let ports := rdPair s e h k
     Ready s b t th .steward u h →
      (16 ≤ v ∨ n = 0 ∨ 2 ^ 48 ≤ ports.toNat ∨ ports.setWidth 48 &&& ~~~(portMask n) ≠ 0 ∨
          n &&& ~~~(x.pqm ||| offeredTo s p ||| freeQuarters s) ≠ 0 → Ends (.partWnb h d a k) s b t u h (wrWord s e d 2)) ∧
      (v < 16 → n ≠ 0 → ports.toNat < 2 ^ 48 → ports.setWidth 48 &&& ~~~(portMask n) = 0 →
        n &&& ~~~(x.pqm ||| offeredTo s p ||| freeQuarters s) = 0 →
        let z := rebound s p n (ports.setWidth 48)
        let free := freeQuarters s
        let bad := (x.pqm ||| n) &&& ~~~free &&& ~~~(heldBy x) ≠ 0 ∨ stacksIn x.pmil n = false ∨
          ∃ y ∈ coresOf (x.pqm &&& ~~~n), s.stewardCore p = some y ∨ ∃ w, (s.core y).latch = some w ∧ 4 ≤ w
        let scrubs := ∃ y ∈ quarters (n &&& free), stackScrubbing s (2 * y) = true ∨ stackScrubbing s (2 * y + 1) = true
        let large := ∃ j, j < 2 ∧ 65536 < (z.die j).tokens.length
        (bad → Ends (.partWnb h d a k) s b t u h (wrWord s e d 2)) ∧
        (¬ bad → scrubs → Ends (.partWnb h d a k) s b t u h (wrWord s e d 3)) ∧
        (¬ bad → ¬ scrubs → large → Ends (.partWnb h d a k) s b t u h (wrWord s e d 5)) ∧
        (¬ bad → ¬ scrubs → ¬ large → Ends (.partWnb h d a k) s b t u h (wrWord z e d 0))) ∧
      (v < 16 → n ≠ 0 → ports.toNat < 2 ^ 48 → ports.setWidth 48 &&& ~~~(portMask n) = 0 → n = x.pqm → n &&& ~~~(heldBy x) = 0 →
        stacksIn x.pmil n = true → (∀ y ∈ s.parts, y.1 ≠ p → y.2.pqm &&& n = 0) →
        (∀ j, j < 2 → ((rebound s p n (ports.setWidth 48)).die j).tokens.length ≤ 65536) →
        ∃ w, Ends (.partWnb h d a k) s b t u h (wrWord w e d 0) ∧
          w.parts.look p = some { x with
            pnbp := ports.setWidth 48, prior := x.prior ++ [(x.pmil, x.pmig, x.pqm, worldsOf s p)], pqst := x.pqst ||| 0x10 })) ∧
    -- what new boundaries do: a merge ends the partition whose offer is taken, a split frees quarters
    (∀ (n : BitVec 4) (ports : BitVec 48), let z := rebound s p n ports
      (z.part p).pqm = n ∧ (z.part p).pnbp = ports ∧ (z.part p).pmil = x.pmil ∧ (z.part p).pqst = x.pqst ||| 0x10 ∧
      (∀ j, j < 2 → ∀ tk ∈ (z.die j).tokens, z.homeDie tk.world tk.base = j) ∧
      (∀ q y, s.parts.look q = some y → q ≠ p → y.pqm &&& n ≠ 0 → (∀ o ∈ s.parts, o.2.pqm &&& n ≠ 0 → o.1 = p ∨ o.1 = q) →
        z.parts.look q = none ∧ z.worlds.look q = none ∧
        (∀ w v, s.worlds.look w = some v → v.part = q → w ≠ q → z.worlds.look w = some { v with part := p }) ∧
        (∀ r, (s.gateRec r).st = .opening ∨ (s.gateRec r).st = .open_ → (s.worlds.look (s.gateRec r).world).map (·.part) = some q →
          (z.gateRec r).st = .aborted) ∧
        (x.pqm &&& ~~~n = 0 → (∀ o ∈ s.parts, o.2.pqm &&& n ≠ 0 → o.2.pqm &&& ~~~n = 0) → ∀ gr m, s.bark.look gr = some m →
          (m.world = some q → z.bark.look gr = some { scrub := true }) ∧
          (m.world ≠ some q → m.part = some q → z.bark.look gr = some { m with part := some p }))) ∧
      (∀ q ∈ quarters (x.pqm &&& ~~~n), stackScrubbing z (2 * q) = true ∧ stackScrubbing z (2 * q + 1) = true ∧
        (∀ y ∈ coresOf (x.pqm &&& ~~~n), (z.core y).latch = none) ∧
        ((∀ o ∈ s.parts, o.1 ≠ p → o.2.pqm.getLsbD q = false) → z.partOfQuarter q = none))) ∧
    (let u : Uses := { srcs := one [a], dsts := [(d, 1)] }
     let e := envOf s b t u h
     let core := (rdWord s e h a).toNat
     Ready s b t th .steward u h →
      (192 ≤ core ∨ s.partOf core ≠ some p ∨ s.stewardCore p = some core → Ends (.worldClr h d a) s b t u h (wrWord s e d 2)) ∧
      (core < 192 → s.partOf core = some p → s.stewardCore p ≠ some core → core ≠ c →
        ((∃ y ∈ (s.ctx core).threads, y.2.level = .app) → Ends (.worldClr h d a) s b t u h (wrWord s e d 1)) ∧
        ((∀ y ∈ (s.ctx core).threads, y.2.level ≠ .app) →
          ((s.ctx core).copies ≠ [] → ∃ j, Waits (.worldClr h d a) s b t u h (.retry j) s) ∧
          (trackerUsed (s.ctx core) = [] → (s.ctx core).copies = [] → (s.ctx core).mq = [] → (s.ctx core).sort.queue = [] →
            ∃ w, Ends (.worldClr h d a) s b t u h (wrWord w e d 0) ∧ (w.core core).latch = none ∧ (w.ctx core).threads = [] ∧
              (w.core core).l1 = [] ∧ (w.core core).fbuf = [])))) ∧
    -- shoot-downs
    (let shot := fun (i : Instr) (u : Uses) (inP : Nat → Nat → Bool) (inW : Nat → Bool) (part : Bool) =>
      (accesses s inP inW ≠ [] → Waits i s b t u h (.retry (.accesses (accesses s inP inW))) (shoot s p inP)) ∧
      (accesses s inP inW = [] → ∃ w, Ends i s b t u h (wrWord w (envOf s b t u h) d 0) ∧
        (∀ j, j < 2 → (∀ y ∈ (w.die j).l2, inP y.world (y.va / 4096) = false) ∧ ∀ y ∈ (w.die j).far, inP y.world (y.va / 4096) = false) ∧
        (∀ y ∈ w.tlb, ∀ z ∈ y.2, inP z.1 z.2.1 = false) ∧
        (∀ y ∈ coresOf x.pqm, ∀ z ∈ (w.core y).l1, inP z.world (z.va / 4096) = false) ∧
        (part = true → w.parts.look p = some { x with pqst := x.pqst &&& ~~~(0x10#32), prior := [] }))
     th.blk = .run →
      (let u : Uses := { srcs := (a, 2) :: one [k, l], dsts := [(d, 1)] }
       let e := envOf s b t u h
       let va := (rdPair s e h a).toNat
       let n := (rdWord s e h k).toNat
       let w := (rdWord s e h l).toNat
       Ready s b t th .steward u h → va % 4096 = 0 → (worldsOf s p).contains w = true →
        shot (.xltSdRange h d a k l) u (fun v pg => v == w && decide (va / 4096 ≤ pg ∧ pg < va / 4096 + n ∧ pg < 2 ^ 36))
          (fun v => v == w && n != 0) false) ∧
      (let u : Uses := { srcs := one [a], dsts := [(d, 1)] }
       let w := (rdWord s (envOf s b t u h) h a).toNat
       Ready s b t th .steward u h → (worldsOf s p).contains w = true → shot (.xltSdWorld h d a) u (fun v _ => v == w) (· == w) false) ∧
      (let u : Uses := { dsts := [(d, 1)] }
       Ready s b t th .steward u h → shot (.xltSdPart h d) u (fun v _ => (worldsOf s p).contains v) (worldsOf s p).contains true)) ∧
    (let u : Uses := { srcs := (a, 2) :: one [k, l], dsts := [(d, 1)] }
     let e := envOf s b t u h
     Ready s b t th .steward u h →
      ((rdPair s e h a).toNat % 4096 ≠ 0 → Raises (.xltSdRange h d a k l) s b t 0x03) ∧
      ((rdPair s e h a).toNat % 4096 = 0 → (worldsOf s p).contains (rdWord s e h l).toNat = false → Raises (.xltSdRange h d a k l) s b t 0x05))

/-- The privileged class below its level, and what it does to a partition. That `world.lat` answers REFUSED for a world below 4 is the
model's reading (log 43). -/
def Obligations.Partitioning : Prop := Privilege ∧ Partitions

/-- R345, R346, R379, R380: the routes, bindings and ports of a partition, and the key slots, are set as written, or status 2 is answered. -/
def Obligations.FabricConfiguration : Prop :=
  ∀ (s : State) (b : Bundle) (t : Nat) (th : Thread) (h : Hdr) (d : Dst) (a k : Src) (p : Nat) (x : Part),
    let c := b.core
    s.partOf c = some p → s.parts.look p = some x →
    (let u : Uses := { srcs := [(a, 1), (k, 2)], dsts := [(d, 1)] }
     let e := envOf s b t u h
     let dv := (rdWord s e h a).toNat
     let m := (rdPair s e h k).toNat
     Ready s b t th .steward u h →
      (fabDev s dv = false ∨ 2 ^ 48 ≤ m ∨ (∃ i, i < 48 ∧ m.testBit i = true ∧ x.pnbp.getLsbD i = false) →
        Ends (.fabCfgRoute h d a k) s b t u h (wrWord s e d 2)) ∧
      (fabDev s dv = true → m < 2 ^ 48 → (∀ i, i < 48 → m.testBit i = true → x.pnbp.getLsbD i = true) →
        ∃ w, Ends (.fabCfgRoute h d a k) s b t u h (wrWord w e d 0) ∧ w.route p dv = m ∧
          ∀ d' p', p' * 1024 + d' ≠ p * 1024 + dv → w.route p' d' = s.route p' d')) ∧
    (let u : Uses := { srcs := [(a, 1), (k, 1)], dsts := [(d, 1)] }
     let e := envOf s b t u h
     let dv := (rdWord s e h a).toNat
     let v := (rdWord s e h k).toNat
     let w := v % 256
     let peer := v / 256 % 256
     let slot := v / 65536 % 512
     Ready s b t th .steward u h →
      (fabDev s dv = false ∨ 2 ^ 25 ≤ v ∨ tenantOf s p w = false ∨ peer < 4 ∨ keyOk s slot w 3 = false →
        Ends (.fabCfgBind h d a k) s b t u h (wrWord s e d 2)) ∧
      (fabDev s dv = true → v < 2 ^ 25 → tenantOf s p w = true → 4 ≤ peer → keyOk s slot w 3 = true →
        ∃ z, Ends (.fabCfgBind h d a k) s b t u h (wrWord z e d 0) ∧
          z.bind? dv w = some { dev := dv, world := w, peer := peer, slot := slot } ∧
          ∀ d' w', (d' ≠ dv ∨ w' ≠ w) → z.bind? d' w' = s.bind? d' w') ∧
      (fabDev s dv = false ∨ 256 ≤ v ∨ tenantOf s p w = false →
        Ends (.fabCfgUnbind h d a k) s b t u h (wrWord s e d 2) ∧ Ends (.fabCfgQry h d a k) s b t u h (wrWord s e d 2)) ∧
      (fabDev s dv = true → v < 256 → tenantOf s p w = true →
        (∃ z, Ends (.fabCfgUnbind h d a k) s b t u h (wrWord z e d 0) ∧ z.bind? dv w = none ∧
          ∀ d' w', (d' ≠ dv ∨ w' ≠ w) → z.bind? d' w' = s.bind? d' w') ∧
        Ends (.fabCfgQry h d a k) s b t u h (wrWord s e d (BitVec.ofNat 32 ((if s.route p dv ≠ 0 then 1 else 0) +
          (if (s.upPorts p dv).length > 0 ∧ s.lostTo p dv = false then 2 else 0) + (if s.lostTo p dv then 4 else 0) +
          8 * (s.upPorts p dv).length + (if s.bind? dv w = none then 0 else 512))))) ∧
      (48 ≤ dv ∨ x.pnbp.getLsbD dv = false ∨ 2 ≤ v → Ends (.fabCfgPort h d a k) s b t u h (wrWord s e d 2)) ∧
      (dv < 48 → x.pnbp.getLsbD dv = true → v < 2 → (s.port dv).replay = [] →
        ∃ z, Ends (.fabCfgPort h d a k) s b t u h (wrWord z e d 0) ∧ (z.port dv).enabled = (v == 1) ∧ (z.port dv).up = false ∧
          (z.port dv).dead = false)) ∧
    (let u : Uses := { srcs := [(a, 2), (k, 1)], dsts := [(d, 1)] }
     let e := envOf s b t u h
     let va := (rdPair s e h a).toNat
     let slot := (rdWord s e h k).toNat
     let l := peekN s.hwmem va 64
     let field := fun (o n : Nat) => natOf ((l.drop o).take n)
     Ready s b t th .root u h →
      (va % 64 ≠ 0 → Raises (.keySet h d a k) s b t 0x03) ∧
      (va % 64 = 0 → slot = 0 ∨ 511 < slot ∨ 16 ≤ field 44 1 ∨ 2 ≤ field 46 1 ∨ field 47 17 ≠ 0 →
        Ends (.keySet h d a k) s b t u h (wrWord s e d 2)) ∧
      (va % 64 = 0 → slot ≠ 0 → slot ≤ 511 → field 44 1 < 16 → field 47 17 = 0 →
        (field 46 1 = 0 → ∃ z, Ends (.keySet h d a k) s b t u h (wrWord z e d 0) ∧ z.keys.look slot = none ∧
          ∀ j, j ≠ slot → z.keys.look j = s.keys.look j) ∧
        (field 46 1 = 1 → ∃ z, Ends (.keySet h d a k) s b t u h (wrWord z e d 0) ∧
          z.keys.look slot = some { key := l.take 32, iv := (l.drop 32).take 12, ports := BitVec.ofNat 8 (field 44 1), world := field 45 1 } ∧
          ∀ j, j ≠ slot → z.keys.look j = s.keys.look j)))

/-! ### The scheduler, launches and stealing -/

/-- R14, R164 to R166, R181, R287, R335: a cycle of a core counts, ages its lines and timers and issues at most two bundles beside the lead's;
a thread alone and ready issues on the lowest free pipe; a span of 64 cycles ages the entries; a fetched line stands in the buffer. That the
lead issues beside the two units, that the cores of a die keep in step, and which event comes first, are the model's choices (log 3, 52). -/
def Obligations.Scheduling : Prop :=
  ∀ (s : State) (c : Nat),
    (∃ w l k, exec (.schedulerCycle c) s = .next w ∧ (w.core c).ccnt = (s.core c).ccnt + 1 ∧ w.mem = s.mem ∧ w.pipes.Perm (s.pipes ++ l) ∧
      (issues s c = true → ∀ l1 y l2, w.pipes = l1 ++ y :: l2 → (nextInstr w y.core y.pc).any isQsc = true →
        ∀ x ∈ l2, (nextInstr w x.core x.pc).any isQsc = true) ∧
      w.walks = s.walks ++ k ∧ (∀ x ∈ k, (nextInstr w c x.pc).any countsAccess = true) ∧
      (∀ x ∈ l ++ k, x.core = c) ∧ ((l ++ k).filter fun x => !x.lead).length ≤ 2 ∧ (issues s c = false → l ++ k = []) ∧
      (arrivals s c = [] → (∀ t th a d v q k, s.thr? c t = some th → th.blk ≠ .mwait a d v q (some 0) k) →
        (w.core c).l1 = (s.core c).l1.map (fun x => { x with left := x.left - 1 })) ∧
      (∀ t th n, arrivals s c = [] → s.thr? c t = some th → th.blk = .sleep n → (w.thr c t).blk = .sleep (n - 1)) ∧
      (((s.ctx c).shen = false ∨ issues s c = false) → (w.ctx c).shist = (s.ctx c).shist ∧ (w.ctx c).sreas = (s.ctx c).sreas) ∧
      ((s.ctx c).shen = true → issues s c = true → (s.ctx c).threads = [] → (s.ctx c).groups = [] →
        (w.ctx c).shist.get 0 0 = (s.ctx c).shist.get 0 0 + 1 ∧ (w.ctx c).sreas.get 0 15 = (s.ctx c).sreas.get 0 15 + 1)) ∧
    (∀ (t : Nat) (th : Thread), issues s c = true → (s.ctx c).threads = [(t, th)] → (s.ctx c).groups = [] → (s.ctx c).lead = none →
      th.grp = none → th.blk = .run → (fbuf? s c th.pc).isSome → notReady s c t = none → th.sched.busy ≤ (s.core c).ccnt.toNat →
      (s.core c).ccnt.toNat + 1 < 2 ^ 64 → (∀ x ∈ s.pipes, x.core = c → x.unit ≠ .thr t) → s.walks = [] → (s.core c).lanes = [] → th.park = none →
      ∃ w, exec (.schedulerCycle c) s = .next w ∧
        (let x : Bundle := { core := c, unit := .thr t, tids := [t], pc := th.pc, lane := 0 }
         (w.pipes.Perm (s.pipes ++ [x]) ∧ w.walks = []) ∨ (w.pipes.Perm s.pipes ∧ w.walks = [x] ∧ ((nextInstr s c th.pc).any countsAccess = true))) ∧
        (w.thr c t).age = 0 ∧ (w.thr c t).yielded = false ∧ (w.thr c t).sched.served = (s.core c).ccnt.toNat + 1) ∧
    (Due.schedulerCycle c ∈ coreDues s c → ∀ e ∈ s.cores, dieOf e.1 = dieOf c → (s.core c).ccnt.toNat ≤ e.2.ccnt.toNat) ∧
    (∀ u, (spanDue s c u = false → exec (.issueSpanAge c u) s = .next s) ∧
      (spanDue s c u = true → ∃ w, exec (.issueSpanAge c u) s = .next w ∧ (schedOf w c u).span = 0 ∧
        (schedOf w c u).opps = (schedOf s c u).opps + 1 ∧
        (∀ t th, u = .thr t → s.thr? c t = some th → th.park = none → (w.thr c t).age = min (th.age + 1) 127 ∧
          ∀ sc kd n, th.blk = .rwait sc kd n → (w.thr c t).blk = .rwait sc kd (n - 1)) ∧
        (∀ g gr, u = .grp g → w.group? c g = some gr → ∀ e ∈ frontier s c u, gr.ages.get 0 e.pc.toNat = min (e.age + 1) 127))) ∧
    (∀ pc : DWord,
      (∀ r, fetchHome s c (lineOf pc).toNat = .error r → exec (.fetchLineFill c pc) s = .next s) ∧
      (∀ l h, fetchHome s c (lineOf pc).toNat = .ok (l, h) → ∃ w, exec (.fetchLineFill c pc) s = .next w ∧
        fbuf? w c pc = if l.bad then none else some l))

/-- R47, R49, R81, R82, R85, R180, R281 to R285: a launch is submitted, read and refused by its first defect, and placed block by block on
the core with the most room; a placed block's threads begin as written; an evicted unit comes back; a block is stolen from the newest
record of a core of the grove. The order in which a launch is tested is the model's choice (log 38). -/
def Obligations.Placement : Prop :=
  ∀ (s : State) (c : Nat),
    -- submission
    (∀ fn (hi : Word), let p := s.path fn
      (s.fnWorld fn = none ∨ p.busy = true → exec (.lnchhiHost fn hi) s = .next s) ∧
      (∀ w, s.fnWorld fn = some w → p.busy = false → exec (.lnchhiHost fn hi) s =
        .next (s.setPath fn { p with addr := hi.toNat * 2 ^ 32 + p.lo.toNat, busy := true, world := w }))) ∧
    (∀ n (hi : Word), let p := s.path (64 + n)
      (s.parts.look n = none ∨ p.busy = true → exec (.lnchhiSteward n hi) s = .next s) ∧
      (∀ q, s.parts.look n = some q → p.busy = false → exec (.lnchhiSteward n hi) s =
        .next (s.setPath (64 + n) { p with addr := hi.toNat * 2 ^ 32 + p.lo.toNat, busy := true, world := q.actw }))) ∧
    (∀ n, let p := s.path n
      let refused := fun (k : Nat) => exec (.launchRecordRead n) s = .next (s.setPath n { p with busy := false, last := k })
      (p.busy = false → exec (.launchRecordRead n) s = .next s) ∧
      (p.busy = true → p.rest = [] →
        (p.addr % 32 ≠ 0 → refused 1) ∧
        (p.addr % 32 = 0 →
          (∀ r, homeCheck s p.world p.world p.addr .load = .error r → refused 1) ∧
          (∀ h, homeCheck s p.world p.world p.addr .load = .ok h → poisoned s p.world p.addr 32 [h] = false →
            let l := homeBytes s p.world p.addr 32 [h]
            let field := fun (o k : Nat) => natOf ((l.drop o).take k)
            let w := if field 14 1 % 2 = 1 then field 13 1 else p.world
            let sound := field 8 4 ≠ 0 ∧ field 8 4 ≤ 393216 ∧ 16 ≤ field 12 1 ∧ field 12 1 ≤ 128 ∧ field 12 1 % 8 = 0 ∧ field 14 1 < 2 ∧
              field 15 17 = 0
            let room := ∃ e ∈ s.cores, e.2.inService = true ∧ e.2.latch = some w ∧ s.partOf e.1 = (s.worlds.look p.world).map (·.part)
            (n < 68 → w ≠ p.world → refused 2) ∧
            (68 ≤ n ∨ w = p.world →
              (¬ sound → refused 3) ∧ (sound → ¬ room → refused 4) ∧
              (sound → room → exec (.launchRecordRead n) s = .next { (s.setPath n { p with
                  busy := false, last := 0, accepted := (p.accepted + 1) % 65536 }) with
                launches := s.launches ++ [{ entry := BitVec.ofNat 64 (field 0 8), count := field 8 4, quota := field 12 1, world := w,
                                             steward := decide (w < 4) }] })))))) ∧
    -- blocks of a launch
    (∀ w, (launchOf s w = none → exec (.launchBlockPlace w) s = .next s) ∧
      (∀ l, launchOf s w = some l →
        l.block.first = l.next ∧ l.block.count = min 32 (l.count - l.next) ∧
        (∀ d, pickCore s (launchCores s w) l.block = some d →
          d ∈ launchCores s w ∧ hasRoom s d l.block.count l.block.quota = true ∧
          (∀ d' ∈ launchCores s w, hasRoom s d' l.block.count l.block.quota = true →
            slotsFree s d' ≤ slotsFree s d ∧ (slotsFree s d' = slotsFree s d → d ≤ d')) ∧
          ∃ z, exec (.launchBlockPlace w) s = .next z ∧ (z.core d).waiting = (s.core d).waiting ++ [l.block] ∧
            (l.next + l.block.count < l.count → launchOf z w = some { l with next := l.next + l.block.count }) ∧
            (l.count ≤ l.next + l.block.count → z.launches.length + 1 = s.launches.length)) ∧
        (pickCore s (launchCores s w) l.block = none → evictFor s (launchCores s w) l.block.count = none →
          exec (.launchBlockPlace w) s = .next s))) ∧
    ((s.core c).waiting = [] → exec (.threadPlace c) s = .next s) ∧
    (∀ b rest, (s.core c).waiting = b :: rest →
      (placing s c = false ∨ restoring s c = true → exec (.threadPlace c) s = .next s) ∧
      (placing s c = true → restoring s c = false → 4 * b.count * b.quota ≤ 524288 - regBytes (s.ctx c) → ∃ z, exec (.threadPlace c) s = .next z ∧ (z.core c).waiting = rest ∧
        ∀ i t, i < b.count → (tidsFree s c)[i]? = some t → ∃ th, z.thr? c t = some th ∧ th.pc = b.entry ∧ th.level = b.level ∧
          th.quota = b.quota ∧ th.regs.get 0 0 = b.arg ∧ th.regs.get 0 1 = BitVec.ofNat 32 (b.first + i) ∧
          (∀ n, 2 ≤ n → th.regs.get 0 n = 0) ∧ th.preds = 1 ∧ th.grp = none ∧ th.stack = [] ∧ th.blk = .run ∧ th.park = none)) ∧
    -- evicted units
    (∀ u, ((s.ctx c).evicted.find? (·.1 == u) = none ∨ restoreDue s c u = false → exec (.unitRestore c u) s = .next s) ∧
      (∀ e, (s.ctx c).evicted.find? (·.1 == u) = some e → restoreDue s c u = true →
        regBytes (s.ctx c) + restoreNeed s c u ≤ 524288 → ∃ z, exec (.unitRestore c u) s = .next z ∧
          (z.core c).frames = (s.core c).frames ++ e.2 ∧ (∀ q ∈ (z.ctx c).evicted, q.1 ≠ u) ∧
          ((∀ f ∈ e.2, s.spoiled.contains (frameOf f) = false) →
            ∀ t ∈ s.members c u, ∀ th, s.thr? c t = some th → z.thr? c t = some { th with framed := false }))) ∧
    -- the steal queue
    (let k := s.core c
     (spawnReady s c = none → exec (.spawnBlockPlace c) s = .next s) ∧
     (∀ b r rest, spawnReady s c = some b → k.steal.queue = r :: rest → hasRoom s c b.count b.quota = true →
       ∃ z, exec (.spawnBlockPlace c) s = .next z ∧ (z.core c).waiting = k.waiting ++ [b] ∧ b = r.head ∧
         (z.core c).steal.queue = if r.count ≤ r.next + b.count then rest else { r with next := r.next + b.count } :: rest) ∧
     (wantsSteal s c = false → exec (.stealRequest c) s = .next s) ∧
     (wantsSteal s c = true → ∃ z, exec (.stealRequest c) s = .next z ∧
       (z.core c).steal = { k.steal with asked := some (victimCore c k.steal.lfsr, slotsFree s c, bytesFree s c), lfsr := lfsr16 k.steal.lfsr } ∧
       victimCore c k.steal.lfsr / 12 = c / 12 ∧ victimCore c k.steal.lfsr ≠ c) ∧
     (k.steal.unacked ≠ none → exec (.stealAnswer c) s = .next s) ∧
     (∀ thief slots bytes v, k.steal.unacked = none → askers s c = [thief] → (s.core thief).steal.asked = some (v, slots, bytes) →
       let none_ := ∃ z, exec (.stealAnswer c) s = .next z ∧ (z.core thief).steal = { (s.core thief).steal with
           asked := none, answer := none, wait := some ((s.core thief).ccnt.toNat + 2 ^ (s.core thief).steal.backoff) }
       (k.steal.queue = [] → none_) ∧
       (∀ r, k.steal.queue.getLast? = some r →
         ((s.core thief).latch ≠ k.latch ∨ ownerTakes s c = true ∨ slots < r.tail.count ∨ bytes < 4 * r.tail.count * r.tail.quota → none_) ∧
         ((s.core thief).latch = k.latch → k.inService = true → ownerTakes s c = false → r.tail.count ≤ slots → 4 * r.tail.count * r.tail.quota ≤ bytes →
           ∃ z, exec (.stealAnswer c) s = .next z ∧ (z.core thief).steal.answer = some r.tail ∧
             (z.core c).steal.unacked = some (r.tail, thief, k.steal.queue.length - 1)))) ∧
     (k.steal.answer = none → exec (.stealAck c) s = .next s) ∧
     (∀ v slots bytes b i r x y, k.steal.asked = some (v, slots, bytes) → k.steal.answer = some b → v ≠ c →
       (s.core v).steal.unacked = some (x, y, i) → (s.core v).steal.queue = [r] → i = 0 →
       ∃ z, exec (.stealAck c) s = .next z ∧ (z.core c).steal.asked = none ∧ (z.core c).steal.answer = none ∧
         (z.core c).steal.queue = k.steal.queue ++ [{ entry := b.entry, count := b.first + b.count, arg := b.arg, quota := b.quota,
                                                      world := b.world, next := b.first, sig := b.sig }] ∧
         (z.core c).steal.stlcnt.setWidth 16 = k.steal.stlcnt.setWidth 16 + 1 ∧ (z.core v).steal.unacked = none ∧
         (z.core v).steal.stlcnt.extractLsb' 16 16 = (s.core v).steal.stlcnt.extractLsb' 16 16 + 1 ∧
         (z.core v).steal.queue = if r.next < b.first then [{ r with count := b.first }] else []) ∧
     (∀ n, k.steal.wait = some n → n ≤ k.ccnt.toNat → ∃ z, exec (.stealBackoffExpiry c) s = .next z ∧
       (z.core c).steal = { k.steal with wait := none }) ∧
     (k.steal.wait = none → exec (.stealBackoffExpiry c) s = .next s) ∧
     (∀ n, k.steal.wait = some n → k.ccnt.toNat < n → exec (.stealBackoffExpiry c) s = .next s))

/-! ### Records, rollback, aborts, saves -/

/-- R257, R258, R272 to R277, R286, R332, R342: a record is posted in the ring as laid out, or held, or parks the handler; a rollback
restores the unit at its barrier and records it; an aborted world keeps nothing on its cores; a save and a restore move a core's world; a
core that leaves service aborts the world whose work it holds, or its steward moves on. The model's own are how many frames a save takes and
what comes back from frames that software has written to (log 27), that a core which leaves service is unlatched at once (log 79), and the PC
of a rollback's record, the consuming instruction's or, where none is known, the first member's (log 46). -/
def Obligations.Recovery : Prop :=
  ∀ (s : State) (c : Nat),
    (postOwn s c = none → postSteward s c = none → exec (.faultRecordPost c) s = .next s) ∧
    (∀ (r : FRec) (rest : List FRec), (s.ctx c).recs = r :: rest →
      let post := ringPost s c (s.worldOf c) (s.ctx c).fqb (s.ctx c).fqctl (recBytes c (s.worldOf c) r)
      ((s.ctx c).fqctl.toNat % 16 = 0 → post = .full) ∧
      (∀ n, (s.ctx c).fqctl.toNat % 16 ≠ 0 → ringWord s (s.worldOf c) (s.ctx c).fqb.toNat = .ok n →
        (post = .full ↔ (n.toNat + 65536 - (s.ctx c).fqctl.toNat / 65536) % 65536 = 2 ^ ((s.ctx c).fqctl.toNat % 16))) ∧
      (post = .full → postOwn s c = none) ∧
      (∀ s', post = .ok s' → ∃ z, exec (.faultRecordPost c) s = .next z ∧ (z.ctx c).recs = rest ∧ z.mem = s'.mem) ∧
      (∀ x t th, post = .bad x → handlerParked s c = false → (s.ctx c).handler = some t → s.thr? c t = some th →
        s.todo.contains (.rollback c (s.unitOf c t)) = false → ∃ z, exec (.faultRecordPost c) s = .next z ∧
        Raised s z c t x 0)) ∧
    (∀ (w : Nat) (r : FRec), c < 256 → w < 256 → r.tid < 2048 →
      let l := recBytes c w r
      let field := fun (o n : Nat) => natOf ((l.drop o).take n)
      l.length = 32 ∧ field 0 8 = r.pc.toNat ∧ field 8 4 = r.mask.toNat ∧
        field 12 1 = r.code.toNat + 64 * r.service.toNat + 128 * r.retired.toNat ∧ field 13 1 = r.detail.toNat ∧ field 14 2 = r.tid ∧
        field 16 4 = r.num.toNat ∧ field 20 1 = r.gid.toNat ∧ field 21 1 = c ∧ field 22 1 = w ∧ field 23 1 = r.flags.toNat ∧
        field 24 8 = if (3 ≤ r.code ∧ r.code ≤ 8) ∨ r.code = 0x14 then r.addr.toNat else 0) ∧
    (∀ p q r d w rest, postOwn s c = none → s.partOf c = some p → s.parts.look p = some q → q.recs = (r, d, w) :: rest →
      let post := ringPost s d p q.sfqb q.sfqctl (recBytes d w r)
      (post = .full → exec (.faultRecordPost c) s = .next s) ∧
      (∀ x, post = .bad x → exec (.faultRecordPost c) s = .next (s.modPart p fun q => { q with recs := rest })) ∧
      (∀ s', post = .ok s' → ∃ z q', exec (.faultRecordPost c) s = .next z ∧ z.parts.look p = some q' ∧ q'.recs = rest)) ∧
    -- rollback
    (∀ u, ((s.ctx c).shadow u = none → exec (.rollback c u) s = .next s) ∧
      (∀ sh, (s.ctx c).shadow u = some sh → sh.rolled = true → exec (.rollback c u) s = .next s) ∧
      (∀ sh, (s.ctx c).shadow u = some sh → sh.rolled = false → ∃ z, exec (.rollback c u) s = .next z ∧
        (∀ t ∈ s.members c u, (s.thr? c t).isSome → (z.thr c t).pc = sh.pc ∧ (z.thr c t).blk = .run ∧ (z.thr c t).fails = [] ∧
          z.count c t .loads = 0 ∧ z.count c t .stores = 0 ∧ z.count c t .tileops = 0) ∧
        (∀ t v, u = .thr t → (s.thr? c t).isSome → sh.threads = [v] → v.tid = t →
          (∀ f ∈ sh.frames, s.spoiled.contains (frameOf f) = false) → (z.thr c t).regs = v.regs ∧ (z.thr c t).preds = v.preds ∧
          (z.thr c t).stack = v.stack ∧ (z.thr c t).spilled = v.spilled ∧ (z.thr c t).sat = ((s.thr c t).sat || v.sat)) ∧
        ((s.thr c ((s.members c u).headD 0)).level = .app →
          (∀ r, sh.cause = some r → r ∈ (z.ctx c).recs) ∧
          (sh.cause = none → ∃ r ∈ (z.ctx c).recs, r.code = 0x14 ∧ r.flags = 1 ∧ r.unit = some u ∧
            r.pc = (s.thr c ((s.members c u).headD 0)).pc)) ∧
        (∃ v, (z.ctx c).shadow u = some v ∧ v.rolled = true ∧ v.cause = none))) ∧
    -- the decision on a consumed error
    (∀ u (r : FRec), (∀ t ∈ s.members c u, (s.thr c t).park = none) → s.todo = [] →
      (∀ sh, (s.ctx c).shadow u = some sh → sh.rolled = false → sh.irrevocable = false → sh.unshadowed = false → sh.retaken = false →
        sh.sort = none → ∃ z, errorDecision s c u r = (z, false) ∧ z.todo = [.rollback c u] ∧
          (z.ctx c).shadow u = some { sh with cause := some r } ∧ (z.ctx c).threads = (s.ctx c).threads) ∧
      (∀ sh, (s.ctx c).shadow u = some sh → sh.rolled = true → errorDecision s c u r = (s, true)) ∧
      (((s.ctx c).shadow u = none ∨ ∃ sh, (s.ctx c).shadow u = some sh ∧ sh.rolled = false ∧
          (sh.irrevocable = true ∨ sh.unshadowed = true ∨ sh.retaken = true)) →
        ∃ z, errorDecision s c u r = (z, false) ∧ z.todo = [.worldAbort (s.worldOf c) 0x15])) ∧
    (∀ u (r : FRec), (∃ t ∈ s.members c u, (s.thr c t).park ≠ none) → errorDecision s c u r = (s, true)) ∧
    -- aborts
    (∀ w (code : BitVec 6), (s.worlds.look w = none → exec (.worldAbort w code) s = .next s) ∧
      (∀ x, s.worlds.look w = some x → (x.aborted = true → exec (.worldAbort w code) s = .next s) ∧
        (x.aborted = false → ∃ z, exec (.worldAbort w code) s = .next z ∧ z.worlds.look w = some { x with aborted := true } ∧
          z.outbox.getLast? = some (.abort w code) ∧ (∀ y, (s.core y).latch = some w → (z.ctx y).threads = [] ∧ (z.ctx y).mq = [] ∧
            (z.ctx y).copies = [] ∧ (z.core y).steal.queue = []) ∧
          (∀ d, d < 2 → ∀ t ∈ (z.die d).tokens, t.world = w → t.owner = stewardWord ∧ t.taint = true ∧ t.pending = none) ∧
          (∀ l ∈ z.launches, l.world ≠ w) ∧ (∀ e ∈ z.keys, e.2.world ≠ w)))) ∧
    -- saves
    (saveReady s c = false → exec (.cxswSave c) s = .next s) ∧ ((s.core c).quiesced = true → exec (.cxswSave c) s = .next s) ∧
    (saveReady s c = true →
      ((s.core c).frames.length < saveFrames s c → ∃ z, exec (.cxswSave c) s = .next z ∧ (z.core c).cxsw.starved = true ∧ (z.core c).cxsw.save = true ∧
        (z.ctx c).threads = (s.ctx c).threads) ∧
      (saveFrames s c ≤ (s.core c).frames.length → ∃ z n x, exec (.cxswSave c) s = .next z ∧ z.saves.look n = some x ∧
        (z.core c).cxsw.root = BitVec.ofNat 64 n ∧ x.ctx.threads.keys = (s.ctx c).threads.keys ∧ (z.ctx c).threads = [] ∧
        (z.core c).cxsw.done = true ∧ (z.core c).cxsw.save = false ∧ (z.core c).cxsw.gen = (s.core c).cxsw.gen + 1)) ∧
    (let k := s.core c
     (k.cxsw.restore = false → exec (.cxswRestore c) s = .next s) ∧
     (k.cxsw.restore = true →
       (s.saves.look k.cxsw.root.toNat = none →
         exec (.cxswRestore c) s = .next (s.setCore c { k with cxsw := { k.cxsw with restore := false } })) ∧
       (∀ x, s.saves.look k.cxsw.root.toNat = some x → (∀ e ∈ x.ctx.threads, ∀ a d v w l q n, e.2.blk ≠ .mwait a d v w l q ∧ e.2.blk ≠ .sleep n) →
         x.lost = false → (∀ f ∈ x.frames, s.spoiled.contains (frameOf f) = false) →
         ∃ z, exec (.cxswRestore c) s = .next z ∧ (∀ t, z.thr? c t = x.ctx.threads.look t) ∧ (z.core c).cxsw.done = true ∧
           (z.core c).cxsw.restore = false ∧ z.saves.look k.cxsw.root.toNat = none))) ∧
    -- a core leaves service
    ((s.core c).inService = false → exec (.coreOutOfService c) s = .next s) ∧
    ((s.core c).inService = true → ∃ z, exec (.coreOutOfService c) s = .next z ∧ (z.core c).inService = false ∧
      (∀ w, (s.core c).latch = some w → 4 ≤ w → (z.core c).latch = none ∧ (z.ctx c).threads = [] ∧
        (residentWork s c = true → ∀ x, s.worlds.look w = some x → ∃ x', z.worlds.look w = some x' ∧ x'.aborted = true)) ∧
      (∀ p x d, (s.core c).latch = some p → p < 4 → s.parts.look p = some x →
        (coresOf x.pqm).find? (fun y => y != c && (s.core y).inService) = some d → (z.core d).latch = some p))

/-! ### What a register's write sets off, and the capture units -/

/-- R177, R182, R274, R325, R331, R347, R354, R355, R406: a frame is pushed; the lead is claimed and given up; the stall counters are
cleared; an offer covers the whole partition or nothing, and stands once its taker holds a quarter of it (R406); a capture unit is armed,
cleared, and moves and captures as tabled; a doorbell to Heartwood waits for the one before. The model's own are the low bits of a pushed
frame where they are not zero (log 27), the name of an agent that ends (log 22), that trigger codes above 5 and core numbers above 47 name
nothing (log 49), and that a field of AUDCTL out of range leaves the other as written (log 53). -/
def Obligations.RegisterEvents : Prop :=
  ∀ (s : State) (c t p u : Nat) (v : Word),
    (let lo := (s.core c).cxsw.frplo.toNat
     ∃ n, n < 4096 ∧ (lo % 4096 = 0 → n = 0) ∧ exec (.frphi c v) s = .next (s.modCore c fun k => { k with
       frames := k.frames ++ [v.toNat * 2 ^ 32 + lo / 4096 * 4096 + n] })) ∧
    exec (.shctlClear c) s = .next (s.modCtx c fun x => { x with shist := [], sreas := [] }) ∧
    -- the lead
    (s.thr? c t = none → exec (.leadClaim c t) s = .next s) ∧
    (∀ th, s.thr? c t = some th →
      (th.grp ≠ none ∨ (s.ctx c).lead ≠ none → exec (.leadClaim c t) s = .next s) ∧
      (th.grp = none → (s.ctx c).lead = none → ∃ z, exec (.leadClaim c t) s = .next z ∧ (z.ctx c).lead = some t ∧
        readReg z c t 0x110 = BitVec.ofNat 32 (3 + 4 * t) ∧ (z.thr c t).regs = th.regs ∧ (z.thr c t).pc = th.pc ∧
        ((z.ctx c).shadow (.thr t)).isSome = ((s.ctx c).shadow (.thr t)).isSome ∧
        z.ending = s.ending ++ [(c, agentWord c (.gone s.dead), s.actWorld c t, false)])) ∧
    ((s.ctx c).lead ≠ some t → exec (.leadGiveUp c t) s = .next s) ∧
    ((s.ctx c).lead = some t → ∃ z, exec (.leadGiveUp c t) s = .next z ∧ (z.ctx c).lead = none ∧ readReg z c t 0x110 = 0 ∧
      z.ending = s.ending ++ [(c, agentWord c (.gone s.dead), s.actWorld c t, false)]) ∧
    -- offers
    (s.parts.look p = none → exec (.pcede p v) s = .next s) ∧
    (∀ q, s.parts.look p = some q →
      let taker := (v.toNat / 16) % 4
      let taken := q.pcede.getLsbD 6 = true ∧ ∃ k, s.parts.look (q.pcede.toNat / 16 % 4) = some k ∧ k.pqst.setWidth 4 &&& q.pcede.setWidth 4 ≠ (0 : BitVec 4)
      (taken → exec (.pcede p v) s = .next s) ∧
      (v.getLsbD 6 = true → v.setWidth 4 ≠ q.pqm ∨ s.parts.look taker = none ∨ taker = p → exec (.pcede p v) s = .next s) ∧
      (¬taken → v.getLsbD 6 = false ∨ (v.setWidth 4 = q.pqm ∧ s.parts.look taker ≠ none ∧ taker ≠ p) →
        exec (.pcede p v) s = .next (s.modPart p fun q => { q with pcede := v &&& 0x7F }))) ∧
    -- capture units
    (∀ lat, capUnit s p u = none → exec (.capctlArm p u) s = .next s ∧ exec (.capctlClear p u) s = .next s ∧
      exec (.captureUnitCycle p u lat) s = .next s) ∧
    (∀ q j lat, capUnit s p u = some (q, j) →
      let k := capOf s q j
      let trig := fun (n : Nat) => n = 1 ∨ (2 ≤ n ∧ n ≤ 5 ∧ k.pend.getLsbD n = true)
      let start := trig (k.src.toNat / 2 ^ 16 % 16)
      let stop := trig (k.src.toNat / 2 ^ 20 % 16)
      (∃ z, exec (.capctlArm p u) s = .next z ∧
        capOf z q j = if k.st = 0 then { k with st := 1, pend := 8 } else { k with pend := k.pend ||| 8 }) ∧
      (∃ z, exec (.capctlClear p u) s = .next z ∧
        capOf z q j = { k with st := 0, mn := 0xFFFFFFFF, mx := 0, bins := [], pend := 0 }) ∧
      (∃ z, exec (.captureUnitCycle p u lat) s = .next z ∧ (capOf z q j).pend = 0 ∧ (capOf z q j).src = k.src ∧
        (capOf z q j).edges = k.edges ∧
        (k.st = 0 → capOf z q j = { k with pend := 0 }) ∧
        (k.st = 1 → ¬ start → capOf z q j = { k with pend := 0 }) ∧
        (k.st = 1 → start → ¬ stop → (capOf z q j).st = 2) ∧ (k.st = 1 → start → stop → (capOf z q j).st = 1) ∧
        (k.st = 2 → ¬ stop → (capOf z q j).st = 2) ∧ (k.st = 2 → stop → (capOf z q j).st = 1) ∧
        (∀ x, (k.st = 1 ∧ start) ∨ k.st = 2 → capValues s q k lat = [x] →
          (capOf z q j).mn.toNat = min k.mn.toNat x.toNat ∧ (capOf z q j).mx.toNat = max k.mx.toNat x.toNat ∧
          ∀ i, i < 16 →
            let lo := if i = 0 then 0 else (k.edges.get 0 (i - 1)).toNat
            let hi := if i = 15 then 2 ^ 32 else (k.edges.get 0 i).toNat
            (capOf z q j).bins.get 0 i =
              if lo ≤ x.toNat ∧ x.toNat < hi ∧ k.bins.get 0 i ≠ BitVec.allOnes 32 then k.bins.get 0 i + 1 else k.bins.get 0 i)) ∧
      (1 ≤ k.src.toNat % 256 → k.src.toNat % 256 ≤ 3 → capValues s q k lat = lat) ∧
      (k.src.toNat % 256 = 4 → k.src.toNat / 256 % 64 < 48 → capValues s q k lat = lat) ∧
      (4 ≤ k.src.toNat % 256 → 48 ≤ k.src.toNat / 256 % 64 → capValues s q k lat = []) ∧
      (k.src.toNat % 256 = 0 → capValues s q k lat = []) ∧
      (k.src.toNat % 256 = 5 → k.src.toNat / 256 % 64 < 48 → capValues s q k lat = [BitVec.ofNat 32 (s.ctx (48 * q + k.src.toNat / 256 % 64)).copies.length]) ∧
      (k.src.toNat % 256 = 6 → k.src.toNat / 256 % 64 < 48 → capValues s q k lat = [BitVec.ofNat 32 (s.ctx (48 * q + k.src.toNat / 256 % 64)).mq.length])) ∧
    (∀ k, (capTrigger s c k).cores = s.cores ∧ ∀ j x, (s.die (quarterOf c / 2)).caps.look j = some x → x.st = 0 →
      ((capTrigger s c k).die (quarterOf c / 2)).caps.look j = some x) ∧
    -- AUDCTL, each field by itself
    (s.partOf c = some p → let old := readReg s c t 0x212
      let new := readReg (writeReg s c t 0x212 v) c t 0x212
      new.getLsbD 0 = v.getLsbD 0 ∧ new.extractLsb' 1 5 = (if v.toNat / 2 % 32 ≤ 16 then v.extractLsb' 1 5 else old.extractLsb' 1 5)) ∧
    -- the doorbell to Heartwood
    ((∃ m ∈ s.heart.mbox, m.part = p) → exec (.hwdb p v) s = .next s) ∧
    ((∀ m ∈ s.heart.mbox, m.part ≠ p) → exec (.hwdb p v) s =
      .next { s with heart := { s.heart with mbox := s.heart.mbox ++ [{ part := p, word := v }] } })

/-! ### The fabric, the host and the doorbells from outside -/

/-- R343, R352, R374, R376 to R378, R385, R386: a flit is checked, counted and acted on, or discarded, and the sixteenth failure in a row
takes the port down; mirrors are reserved and made; a device is lost; a host's access is served or fails; rings are posted. The count of a
host's failed accesses, the choice of ports, who is told of a loss and how a peer tells of a session's end are the model's (log 28, 36, 47,
73); so are the key slot that a host's access needs and the atomic operations that a host may make (log 42, PRESUMED). -/
def Obligations.Arrivals : Prop :=
  ∀ (s : State) (port fn w home base n d : Nat) (f : Flit),
    let p := s.port port
    (p.live = false → exec (.flitReceive port f) s = .next s) ∧
    (f.good = false ∨ f.dest ≠ s.fab.devno ∨ f.seq ≠ p.rxSeq ∨ 3 < f.vc ∨ (f.vc < 3 ∧ (f.key = 0 ∨ s.keys.look f.key = none ∨
        f.ctr ≤ s.fab.ctrs.get 0 (ctrKey port f.key true))) → flitOk s port f = false) ∧
    (p.live = true → flitOk s port f = false →
      (p.bad < 15 → exec (.flitReceive port f) s = .next (s.setPort port { p with fails := min 255 (p.fails + 1), bad := p.bad + 1 })) ∧
      (15 ≤ p.bad → ∃ z, exec (.flitReceive port f) s = .next z ∧ (z.port port).up = false ∧ (z.port port).dead = true)) ∧
    (p.live = true → flitOk s port f = true →
      let t := flitTaken s port f
      let key := flitWorld s f
      t.port port = { p with rxSeq := (p.rxSeq + 1) % 4096, bad := 0 } ∧
      (f.vc < 3 → t.fab.ctrs.get 0 (ctrKey port f.key true) = f.ctr) ∧
      (∀ r, f.msg = .req r →
        (r.src ≠ f.src → exec (.flitReceive port f) s = .next t) ∧
        (r.src = f.src → key = some r.world →
          exec (.flitReceive port f) s = .next { t with fab := { t.fab with remote := t.fab.remote ++ [r] } }) ∧
        (r.src = f.src → key ≠ some r.world → exec (.flitReceive port f) s =
          .next (sendMsg t (key.getD 0) f.src r.va 1 (.ans { id := r.id, code := some 0x08, val := 0 })))) ∧
      (∀ a, f.msg = .ans a → exec (.flitReceive port f) s = exec (.remoteAnswerArrival a) t) ∧
      (∀ m, f.msg = .token home base n m w →
        (key = some w → home = f.src → exec (.flitReceive port f) s = exec (.mirrorReceipt home base n w (Sys2Proof.Machine.TMode.ofNat m)) t) ∧
        (key ≠ some w ∨ home ≠ f.src → exec (.flitReceive port f) s = .next t)) ∧
      (f.msg = .tokenHome base n w → key = some w → exec (.flitReceive port f) s = exec (.tokenReturnHome f.src base w) t) ∧
      (f.msg = .reserve home base n w → key = some w → home = f.src →
        exec (.flitReceive port f) s = exec (.mirrorEntryReserve home base n w) t) ∧
      (∀ r k ws g, s.gate.look r = some g →
        (f.msg = .gate r k → exec (.flitReceive port f) s = .next (if some g.world = key then gateFlit t r k else t)) ∧
        (f.msg = .arbiter r ws → exec (.flitReceive port f) s = .next (if some g.world = key then arbiterFlit t r ws else t))) ∧
      (f.msg = .loss d → f.vc = 3 → exec (.flitReceive port f) s = exec (.lossReport d) t) ∧
      (∀ r g peer, f.msg = .session r false → f.vc = 3 → s.gateRec r = g → g.st = .open_ → g.peer = some (f.src, peer) →
        exec (.flitReceive port f) s = .next (t.modGate r fun g => { g with st := .ended }))) ∧
    -- mirrors
    (∀ mode, let k := s.homeDie w base
      ∃ z, exec (.mirrorReceipt home base n w mode) s = .next z ∧ z.mem = s.mem ∧
        (z.die k).tokens = (s.die k).tokens.filter (fun q => !(q.mirror == some home && q.base == base && q.world == w)) ++
          [{ base := base, n := n, world := w, mode := mode, owner := stewardWord, mirror := some home,
             holders := if mode == .write then [] else [stewardWord], count := if mode == .write then 0 else 1 }]) ∧
    (let k := s.homeDie w base
     let id := reserveId (((s.bind? home w).map (·.peer)).getD 0) base
     (65536 ≤ (s.die k).tokens.length → exec (.mirrorEntryReserve home base n w) s =
       .next (sendMsg s w home base 1 (.ans { id := id, code := some 0x11, val := 0 }))) ∧
     ((s.die k).tokens.length < 65536 → exec (.mirrorEntryReserve home base n w) s =
       .next (sendMsg (s.modDie k fun x => { x with tokens := x.tokens ++
         [{ base := base, n := n, world := w, owner := 0, mirror := some home }] }) w home base 1 (.ans { id := id, code := none, val := 0 })))) ∧
    -- links, numbers and losses
    (port < 48 → p.enabled = true → p.dead = false → (∀ n, n ≠ port → (s.port n).live = false → (s.port n).replay = []) →
      ∃ z, exec (.linkTrained port) s = .next z ∧
        z.port port = { p with up := true, bad := 0, replays := if p.up then p.replays else min 65535 (p.replays + p.replay.length) } ∧
        z.outbox = s.outbox ++ if p.up then [] else p.replay.map fun x => .flit port x.2) ∧
    (48 ≤ port ∨ p.enabled = false ∨ p.dead = true → exec (.linkTrained port) s = .next s) ∧
    (d < 576 → ∃ z, exec (.domainEnumeration d) s = .next z ∧ z.fab.devno = d ∧ readReg z 0 0 0x260 = BitVec.ofNat 32 d) ∧
    (576 ≤ d → exec (.domainEnumeration d) s = .next s) ∧
    (∀ part, (lossDue s part d = false → exec (.deviceLossTimeout part d) s = .next s) ∧
      (lossDue s part d = true → s.parts.look part ≠ none → s.lostTo part d = false →
        ∃ z, exec (.deviceLossTimeout part d) s = .next z ∧ z.lostTo part d = true ∧ .loss part d ∈ z.outbox ∧
          (∀ i, i < 2 → ∀ t ∈ (z.die i).tokens, t.mirror = some d → t.world ∉ worldsOf s part) ∧
          (∀ c, ∀ o ∈ (z.ctx c).ops, o.world ∈ worldsOf s part → ∀ r dst sent, o.body = .remote r dst sent none → o.done = false → r.dest ≠ d) ∧
          (∀ c, s.stewardCore part = some c → s.partOf c = some part → ∃ x, z.parts.look part = some x ∧
            ∃ e ∈ x.recs, e.1.code = 0x16 ∧ e.1.num = BitVec.ofNat 32 d)) ∧
      (s.parts.look part ≠ none → s.route part d ≠ 0 → ∃ z, exec (.lossReport d) s = .next z ∧ z.lostTo part d = true)) ∧
    ((∀ e ∈ s.parts, s.route e.1 d = 0) → exec (.lossReport d) s = .next s) ∧
    -- the host
    (let failed : State := { s with outbox := s.outbox ++ [.hostFail fn], heart := { s.heart with hostFails := s.heart.hostFails + 1 } }
     (∀ a, s.fnWorld fn = none → exec (.hostInboundAccess fn a) s = .next failed) ∧
     (s.fnWorld fn = some w →
      let fails := fun (a : HostAcc) => exec (.hostInboundAccess fn a) s = .next failed
      (∀ off, exec (.hostInboundAccess fn (.bar0Read off)) s = .next { s with
        outbox := s.outbox ++ [.hostReply fn (bytesOf 4 (if off = 8 then (lnchst (s.path fn)).toNat else 0))] }) ∧
      (∀ v, exec (.hostInboundAccess fn (.bar0Write 0 v)) s = .next (s.setPath fn { s.path fn with lo := v }) ∧
        exec (.hostInboundAccess fn (.bar0Write 4 v)) s = exec (.lnchhiHost fn v) s) ∧
      (∀ va l, hostKey s w = false → fails (.read va n) ∧ fails (.write va l)) ∧
      (∀ va r, homeRange s w va n .load = .error r → fails (.read va n)) ∧
      (∀ va l r, homeRange s w va l.length .store = .error r → fails (.write va l)) ∧
      (∀ va hs, hostKey s w = true → homeRange s w va n .load = .ok hs →
        ((∃ h ∈ hs, isDoorbell w h = true) ∨ poisoned s w va n hs = true → fails (.read va n)) ∧
        ((∀ h ∈ hs, isDoorbell w h = false) → poisoned s w va n hs = false →
          let s' := hs.foldl (fun s h => fillL2 s w h 3) s
          exec (.hostInboundAccess fn (.read va n)) s = .next { s' with
            outbox := s'.outbox ++ [.hostReply fn (homeBytes s' w va n hs)] })) ∧
      (∀ va l h q, hostKey s w = true → homeRange s w va l.length .store = .ok [h] → isDoorbell w h = false → h.pa = some q →
        windowLine s w h.va = false → l ≠ [] → va % 128 + l.length ≤ 128 →
        ∃ z, exec (.hostInboundAccess fn (.write va l)) s = .next z ∧
          homeLine z w h = lineOfBytes (overlay (lineBytes (homeLine s w h)) (va % 128) l)) ∧
      (∀ va k v op, (k ≠ 4 ∧ k ≠ 8) ∨ va % k ≠ 0 ∨ (op ≠ .add ∧ op ≠ .exch) → fails (.atomic va k op v)) ∧
      (∀ va k cmp new, (k ≠ 4 ∧ k ≠ 8) ∨ va % k ≠ 0 → fails (.cas va k cmp new)) ∧
      (∀ va v hs, va % 4 = 0 → hostKey s w = true → homeRange s w va 4 .atomic = .ok hs → (∀ h ∈ hs, isDoorbell w h = false) →
        poisoned s w va 4 hs = false → ∃ z, exec (.hostInboundAccess fn (.atomic va 4 .exch v)) s = .next z ∧
          z.outbox.getLast? = some (.hostReply fn (homeBytes (hs.foldl (fun s h => fillL2 s w h 3) s) w va 4 hs))) ∧
      (∀ v, v < 16 → exec (.hostInboundAccess fn (.msixMask v true)) s =
        .next { s with msix := s.msix.set 0 fn (s.msix.get 0 fn &&& ~~~(1#32 <<< v)) }))) ∧
    -- posts
    (bellDue s w = false → exec (.coalesceDelayExpiry w) s = .next s) ∧
    (∀ x b, bellDue s w = true → s.worlds.look w = some x → x.fn = some fn → s.bells.look w = some b →
      let up := fun (v : Nat) => (s.msix.get 0 fn).getLsbD v
      ∃ z, exec (.coalesceDelayExpiry w) s = .next z ∧ z.bells.look w = some { b with pending := 0, rung := 0, since := 0 } ∧
        z.outbox = s.outbox ++ ((List.range 16).filter fun v => b.pending.testBit v && up v).map (.msix fn) ∧
        ∀ v, v < 32 → (z.pba.get 0 fn).getLsbD v = ((s.pba.get 0 fn).getLsbD v || (decide (v < 16) && b.pending.testBit v && !up v)))

/-! ### Heartwood -/

/-- R343, R347 to R351: a mailbox command is answered with the tabled statuses and has its effect; unlock tokens open the debug port by a
window's order; sessions, keys and evidence; the debug port reaches no core while LOCKED and none of a protected world in OPEN-NP. Where
operands stand, the statuses of odd commands and the sealed words are the model's (log 18, 29, 43). -/
def Obligations.Heartwood : Prop :=
  ∀ (s : State) (b : Box) (m : Mail) (n : Nat),
    let w := b.arg 0
    let p := b.part
    -- windows
    (s.heart.mbox = [] → s.heart.owner = false → s.heart.mfg = false → exec .heartwoodWindow s = .next s) ∧
    (s.heart.mbox = [] → s.unlocked = 0 → ∃ z, exec .heartwoodWindow s = .next z ∧ z.heart.owner = false ∧ z.heart.mfg = false ∧
      z.unlocked = if s.heart.mfg = true ∧ hasProtected s = false then 2 else if s.heart.owner then 1 else 0) ∧
    (s.heart.mbox = [m] → s.heart.owner = false → s.heart.mfg = false → mailBox s m = some b →
      let s' := { s with heart := { s.heart with mbox := [] } }
      (b.cmd ≠ 1 → b.cmd ≠ 2 → exec .heartwoodWindow s =
        .next (mailReply (mailOther s' b).1 b (mailOther s' b).2.1 (mailOther s' b).2.2)) ∧
      (b.cmd = 1 → (worldNew s' b).2 = 0 → ∃ z, exec .heartwoodWindow s = .next z ∧
        z.worlds.look w = (worldNew s' b).1.worlds.look w)) ∧
    -- a command and an unlock token in one window: an end goes first, then a creation, then the token, then every other command
    (s.heart.mbox = [m] → s.heart.mfg = true → s.unlocked = 0 → mailBox s m = some b →
      let s' := { s with heart := { s.heart with mbox := [] } }
      (b.cmd = 2 → (worldEnd s' b).2 = 0 → (∀ e ∈ s.worlds, e.1 ≠ w → e.2.protectd = false) →
        ∃ z, exec .heartwoodWindow s = .next z ∧ z.worlds.look w = none ∧ z.unlocked = 2) ∧
      (b.cmd = 1 → b.arg 1 % 2 = 1 → (worldNew s' b).2 = 0 → hasProtected s = false →
        ∃ z x, exec .heartwoodWindow s = .next z ∧ z.worlds.look w = some x ∧ x.protectd = true ∧ x.dbg = false ∧ z.unlocked = 1) ∧
      (b.cmd ≠ 1 → b.cmd ≠ 2 → let u := unlock s' (hasProtected s)
        u.unlocked = (if hasProtected s = false then 2 else if s.heart.owner then 1 else 0) ∧
        exec .heartwoodWindow s = .next (mailReply (mailOther u b).1 b (mailOther u b).2.1 (mailOther u b).2.2))) ∧
    -- the commands
    (let bad := w < 4 ∨ 255 < w ∨ s.worlds.has w = true ∨ 63 < b.arg 5 ∨ (b.arg 5 ≠ 0 ∧ s.fnWorld (b.arg 5) ≠ none) ∨ b.arg 4 < 16 ∨
       128 < b.arg 4 ∨ b.arg 4 % 8 ≠ 0
     (bad → worldNew s b = (s, 2)) ∧ (¬ bad → b.arg 1 % 2 = 1 → s.unlocked ≠ 0 → worldNew s b = (s, 4)) ∧
     (¬ bad → b.arg 1 % 2 = 0 ∨ s.unlocked = 0 → (worldNew s b).2 = 0 ∧ ∃ x, (worldNew s b).1.worlds.look w = some x ∧ x.part = p ∧
       x.protectd = (b.arg 1 % 2 == 1) ∧ x.entry = BitVec.ofNat 64 (b.arg 3) ∧ x.quota = b.arg 4 ∧ x.aborted = false ∧
       x.fn = (if b.arg 5 = 0 then none else some (b.arg 5)) ∧ x.meas.length = 8 ∧ x.dbg = (b.arg 1 % 2 != 1 && s.unlocked != 0))) ∧
    (s.worlds.look w = none → worldEnd s b = (s, 5) ∧ grant s b = (s, 5)) ∧
    (∀ x, s.worlds.look w = some x →
      (x.part ≠ p → worldEnd s b = (s, 5) ∧ grant s b = (s, 5)) ∧
      (x.part = p →
        (w < 4 ∨ (∃ e ∈ s.cores, e.2.latch = some w) → worldEnd s b = (s, 1)) ∧
        ((∀ e ∈ s.cores, e.2.latch ≠ some w) → 4 ≤ w → (worldEnd s b).2 = 0 ∧
          let z := (worldEnd s b).1
          z.worlds.look w = none ∧ (∀ e ∈ z.keys, e.2.world ≠ w) ∧ (∀ d, d < 2 → ∀ t ∈ (z.die d).tokens, t.world ≠ w) ∧
          (∀ gr q, s.bark.look gr = some q → q.world = some w → z.bark.look gr = some { scrub := true })) ∧
        (x.aborted = true → grant s b = (s, 6)) ∧
        (x.aborted = false →
          (granules s p (b.arg 1) (b.arg 2) = none → grant s b = (s, 2)) ∧
          (∀ l, granules s p (b.arg 1) (b.arg 2) = some l →
            ((∃ gr ∈ l, ∃ q, s.bark.look gr = some q ∧ q.scrub = false) → grant s b = (s, 2)) ∧
            ((∀ gr ∈ l, ∀ q, s.bark.look gr = some q → q.scrub = true) →
              ((∃ gr ∈ l, pendingGranule s gr = true) → grant s b = (s, 3)) ∧
              ((∀ gr ∈ l, pendingGranule s gr = false) → (grant s b).2 = 0 ∧
                ∀ gr ∈ l, (grant s b).1.bark.look gr = some { part := some p, world := some w })))))) ∧
    (∀ l, granules s p w (b.arg 1) = some l → (∀ gr ∈ l, ∃ q, s.bark.look gr = some q ∧ q.part = some p ∧ q.scrub = false) →
      (revoke s b).2 = 0 ∧ ∀ gr ∈ l, pendingGranule (revoke s b).1 gr = true) ∧
    (granules s p w (b.arg 1) = none → revoke s b = (s, 2)) ∧
    (∀ l gr, granules s p w (b.arg 1) = some l → gr ∈ l → (∀ q, s.bark.look gr = some q → q.part ≠ some p ∨ q.scrub = true) →
      revoke s b = (s, 2)) ∧
    (b.cmd = 0 ∨ 8 < b.cmd → mailOther s b = (s, 2, none)) ∧
    (b.cmd = 7 → mailOther s b = (s, 0, some (scrubCount s p))) ∧
    (b.cmd = 8 → s.worlds.look w = none → mailOther s b = (s, 0, some 0)) ∧
    -- sessions
    (exec (.getVersion n) s = .next { s with outbox := s.outbox ++ [.spdm n [0x04, 0x13]] } ∧
     exec (.getCapabilities n) s = .next { s with outbox := s.outbox ++ [.spdm n [0x61]] } ∧
     exec (.negotiateAlgorithms n) s = .next { s with outbox := s.outbox ++ [.spdm n [0x63]] } ∧
     (∃ x, exec (.getDigests n) s = .next { s with outbox := s.outbox ++ [.spdm n [0x01, x]] }) ∧
     (∃ x, exec (.getCertificate n) s = .next { s with outbox := s.outbox ++ [.spdm n [0x02, x]] }) ∧
     (∀ k, ∃ x, exec (.challenge n k) s = .next { s with outbox := s.outbox ++ [.spdm n [0x03, k, x]] }) ∧
     (∃ l, exec (.getMeasurements n) s = .next { s with outbox := s.outbox ++ [.spdm n (0x60 :: l)] } ∧
       ∀ e ∈ s.worlds, 4 ≤ e.1 → (e.1 :: (e.2.meas.map (·.toNat)) ++ [e.2.protectd.toNat, e.2.dbg.toNat]) <:+: l)) ∧
    (∃ z x, exec (.keyExchange n) s = .next z ∧ z.spdm n = some { id := n, keyed := true } ∧
      z.outbox = s.outbox ++ [.spdm n [0x64, x]] ∧ ∀ e ∈ z.keys, e.2.sess ≠ some n) ∧
    (s.spdm n = none → exec (.finish n) s = .next s ∧ exec (.endSession n) s = .next s ∧ exec (.heartbeatLapse n) s = .next s ∧
      exec (.heartbeat n) s = .next s ∧ exec (.keyUpdate n) s = .next s) ∧
    (∀ v, s.spdm n = some v →
      (v.keyed = false → exec (.finish n) s = .next s) ∧
      (v.keyed = true → ∃ z, exec (.finish n) s = .next z ∧ z.spdm n = some { v with open_ := true } ∧
        z.outbox = s.outbox ++ [.spdm n [0x65]]) ∧
      (v.open_ = true → exec (.heartbeat n) s = .next { s with outbox := s.outbox ++ [.spdm n [0x68]] } ∧
        exec (.keyUpdate n) s = .next { s with outbox := s.outbox ++ [.spdm n [0x69]] }) ∧
      (v.open_ = false → exec (.heartbeat n) s = .next s ∧ exec (.keyUpdate n) s = .next s) ∧
      (∃ z, exec (.endSession n) s = .next z ∧ z.spdm n = none ∧ z.outbox = s.outbox ++ [.spdm n [0x6C]] ∧ ∀ e ∈ z.keys, e.2.sess ≠ some n) ∧
      (∃ z, exec (.heartbeatLapse n) s = .next z ∧ z.spdm n = none ∧ z.outbox = s.outbox ∧ ∀ e ∈ z.keys, e.2.sess ≠ some n)) ∧
    (∀ (k : ModelKey) (x : World), s.worlds.look k.world = some x →
      (k.world < 4 ∨ x.aborted = true ∨ (∀ v, s.spdm n = some v → v.open_ = false) → exec (.modelKeyDelivery n k) s = .next s) ∧
      (∀ v i, 4 ≤ k.world → x.aborted = false → s.spdm n = some v → v.open_ = true → 1 ≤ i → i < 512 → s.keys.look i = none →
        ∃ z j q, exec (.modelKeyDelivery n k) s = .next z ∧ 1 ≤ j ∧ j < 512 ∧ s.keys.look j = none ∧ z.keys.look j = some q ∧ q.key = k.key ∧
          q.ports = k.ports ∧ q.world = k.world ∧ q.label = some k.label ∧ q.sess = some n)) ∧
    -- the debug port
    (exec (.debugPortRequest (.unlockOwner true)) s = .next { s with heart := { s.heart with owner := true } } ∧
     exec (.debugPortRequest (.unlockMfg true)) s = .next { s with heart := { s.heart with mfg := true } } ∧
     exec (.debugPortRequest (.unlockOwner false)) s = .next s ∧ exec (.debugPortRequest (.unlockMfg false)) s = .next s ∧
     (∃ l, l.length = 8 ∧ exec (.debugPortRequest .identity) s = .next { s with outbox := s.outbox ++ [.debug l] }) ∧
     (∃ x, exec (.debugPortRequest .status) s = .next { s with outbox := s.outbox ++ [.debug [x]] })) ∧
    (∀ (c t k : Nat) (v : Bool) (r : Word),
      (s.unlocked = 0 ∨ (s.unlocked = 1 ∧ ∀ l x, (s.core c).latch = some l → s.worlds.look l = some x → x.protectd = true) →
        exec (.debugPortRequest (.halt c k)) s = .next s ∧ exec (.debugPortRequest (.dumpThr c t)) s = .next s ∧
        exec (.debugPortRequest (.step c t v)) s = .next s ∧ exec (.debugPortRequest (.trace c k)) s = .next s ∧
        exec (.debugPortRequest (.dumpSec c k t)) s = .next s ∧
        exec (.debugPortRequest (.readReg c k)) s = .next s ∧ exec (.debugPortRequest (.writeReg c k r)) s = .next s) ∧
      (c < 192 → s.unlocked = 2 →
        (∃ z, exec (.debugPortRequest (.halt c 0)) s = .next z ∧ (z.ctx c).held = true) ∧
        (∃ z, exec (.debugPortRequest (.halt c 1)) s = .next z ∧ (z.ctx c).held = false) ∧
        exec (.debugPortRequest (.step c t v)) s = .next (s.modThr c t fun th => { th with step := v }) ∧
        (∀ th, s.thr? c t = some th → th.park.isSome = true → exec (.debugPortRequest (.dumpThr c t)) s =
          .next { s with outbox := s.outbox ++ [.debug ((dumpThr s c t).map (·.setWidth 32))] }) ∧
        (∀ l, dumpData s { c := c, t := ((s.ctx c).handler).getD 0 } k t = some l → exec (.debugPortRequest (.dumpSec c k t)) s =
          .next { s with outbox := s.outbox ++ [.debug (l.map (·.setWidth 32))] }) ∧
        (k ≤ 2 → ∃ z, exec (.debugPortRequest (.trace c k)) s = .next z ∧ (z.core c).trace.mode = k) ∧
        (2 < k → exec (.debugPortRequest (.trace c k)) s = .next s) ∧
        (portReg k = true → exec (.debugPortRequest (.readReg c k)) s = .next { s with outbox := s.outbox ++ [.debug [readReg s c 0 k]] } ∧
          exec (.debugPortRequest (.writeReg c k r)) s = .next (writeReg s c 0 k r)) ∧
        (portReg k = false → exec (.debugPortRequest (.readReg c k)) s = .next s ∧ exec (.debugPortRequest (.writeReg c k r)) s = .next s)))

/-! ### Errors, the auditor, voltage and clock, resets -/

/-- R321 to R329, R349, R350: an error is counted in its class; a corrected one changes nothing a program sees; an uncorrectable one
stands until it is consumed, or aborts the worlds it may have struck; a replay frees its sample or quarantines the core; steps of clock
and voltage show in PWRST; a scrub leaves zeros; the resets, and the partitions formed after them. The set that a tag error strikes and
the partitions at cold power-up are the model's reading, and thresholds are constants without a value (log 15, 50, 71). -/
def Obligations.Reliability : Prop :=
  ∀ (s : State) (d n : Nat) (e : ErrAt),
    (∀ k, ∃ z, exec (.softError e k) s = .next z ∧
      (k = true → z.mem = s.mem ∧ z.poison = s.poison ∧ (∀ c t, z.thr? c t = s.thr? c t) ∧
        let x := placeOf s e
        (∀ p ∈ x.parts, let old := (s.die x.die).errs.get 0 (p * 16 + x.cls)
          ((z.die x.die).errs.get 0 (p * 16 + x.cls)).extractLsb' 16 16 = old.extractLsb' 16 16 ∧
          ((z.die x.die).errs.get 0 (p * 16 + x.cls)).toNat % 65536 = min 65535 (old.toNat % 65536 + 1)) ∧
        (∀ m, x.dom = some m → (z.die x.die).power.errors.get 0 (m * 16 + x.cls) = (s.die x.die).power.errors.get 0 (m * 16 + x.cls) + 1)) ∧
      (k = false →
        (∀ c t r, e = .reg c t r → e ∈ (z.core c).marks ∧ z.thr? c t = s.thr? c t) ∧
        (∀ c o, e = .scratch c o ∨ e = .wbuf c o → e ∈ (z.core c).marks) ∧
        (∀ c a w, e = .acc c a w → e ∈ (z.core c).marks) ∧ (∀ c i, e = .cell c i → e ∈ (z.core c).marks) ∧
        (∀ c w va, e = .l1 c w va → ∀ l ∈ (z.core c).l1, l.world = w → l.va = va → l.bad = true) ∧
        (∀ pa, e = .hbm pa → pa / 8 ∈ z.poison ∧ z.mem = s.mem) ∧
        (∀ w va l, e = .l2 w va → s.l2? w (lineVa va) = some l → l.dirty = false → l.pa / 8 + va % 128 / 8 ∈ z.poison ∧
          ∃ l', z.l2? w (lineVa va) = some l' ∧ l'.poison.getLsbD (va % 128 / 8) = true ∧ l'.data = l.data) ∧
        (∀ j w va, e = .far j w va → ∀ f ∈ (z.die j).far, f.world = w → f.va = lineVa va → f.poison.getLsbD (va % 128 / 8) = true) ∧
        (∀ j, e = .token j → ∀ t ∈ (s.die j).tokens, ∀ x, s.worlds.look t.world = some x →
          ∃ x', z.worlds.look t.world = some x' ∧ x'.aborted = true))) ∧
    -- the auditor
    ((s.die d).auds.look n = none → (∀ q, exec (.auditReplay d n q) s = .next s) ∧ exec (.auditReplayTimeout d n) s = .next s) ∧
    (∀ v p, (s.die d).auds.look n = some v → s.partOf v.core = some p →
      (auditCores s v = [] → ∀ q, exec (.auditReplay d n q) s = .next s) ∧
      (∀ c rest, auditCores s v = c :: rest → c ≠ v.core ∧ (s.core c).latch = some v.world ∧ (s.ctx c).mq = [] ∧ quarterOf c = quarterOf v.core ∧
        ((s.core c).marks = [] →
          (∃ z, exec (.auditReplay d n true) s = .next z ∧ (z.die d).auds.look n = none ∧
            ((z.die d).audst.get 0 p).setWidth 16 = ((s.die d).audst.get 0 p).setWidth 16 + 1 ∧
            ((z.die d).audst.get 0 p).extractLsb' 16 16 = ((s.die d).audst.get 0 p).extractLsb' 16 16) ∧
          ((s.core v.core).inService = true → ∃ z, exec (.auditReplay d n false) s = .next z ∧ (z.core v.core).inService = false ∧
            (v.core, c) ∈ z.heart.reports))) ∧
      ((s.die d).age < v.left ∨ auditCores s v ≠ [] → exec (.auditReplayTimeout d n) s = .next s) ∧
      (v.left ≤ (s.die d).age → auditCores s v = [] → ∃ z, exec (.auditReplayTimeout d n) s = .next z ∧ (z.die d).auds.look n = none ∧
        (((z.die d).audst.get 0 p).extractLsb' 16 8).toNat = min 255 ((((s.die d).audst.get 0 p).extractLsb' 16 8).toNat + 1))) ∧
    -- clock and voltage
    (let q := (s.die d).power
     (∀ hot, ∃ z, exec (.clockStepDown d hot) s = .next z ∧ (z.die d).power =
       { q with above := (s.die d).age, clk := min 3 (q.clk + 1), thermal := q.thermal || hot, current := q.current || !hot }) ∧
     ((s.die d).age < q.above + 2 ^ 20 → exec (.clockStepUp d) s = .next s) ∧
     (q.above + 2 ^ 20 ≤ (s.die d).age → ∃ z, exec (.clockStepUp d) s = .next z ∧
       (z.die d).power = { q with clk := q.clk - 1, thermal := false, current := false }) ∧
     (∀ m, (∃ z, exec (.undervoltStep d m) s = .next z ∧
         (q.locked.get false m = true ∨ cleanDomain q m = false → (z.die d).power = q) ∧
         (q.locked.get false m = false → cleanDomain q m = true → (z.die d).power.volt.get 0 m = q.volt.get 0 m + 1)) ∧
       (∀ past, windowDue s d m = false ∨ past ≠ crossed q m → exec (.reliabilityWindow d m past) s = .next s) ∧
       (windowDue s d m = true → ∃ z, exec (.reliabilityWindow d m (crossed q m)) s = .next z ∧ windowDue z d m = false ∧
         (∀ k, k < 16 → (z.die d).power.errors.get 0 (m * 16 + k) = 0) ∧
         (crossed q m = true → (z.die d).power.locked.get false m = true ∧ (z.die d).power.volt.get 0 m = 0) ∧
         (crossed q m = false → (z.die d).power.locked = q.locked ∧ (z.die d).power.volt = q.volt))) ∧
     (∀ c t, dieOf c = d → q.clk < 4 →
       let r := readReg s c t 0x214
       r.toNat % 4 = q.clk ∧ r.getLsbD 2 = q.thermal ∧ r.getLsbD 3 = q.current ∧
         ∀ m, m < 3 → r.getLsbD (4 + m) = q.locked.get false m)) ∧
    -- scrubbing
    (∃ z, exec (.scrubGranule n) s = .next z ∧
      (∀ a, a / 65536 ≠ n → peek z.mem a = peek s.mem a) ∧
      (pendingGranule s n = false → z.mem = s.mem ∧ z.poison = s.poison) ∧
      (pendingGranule s n = true → (s.bark.look n).isSome ∨ s.scrub.look (n / 2 ^ 20) = some n →
        (∀ a, a / 65536 = n → peek z.mem a = 0) ∧ (∀ a ∈ z.poison, a / 8192 ≠ n)) ∧
      (s.bark.look n = none → s.scrub.look (n / 2 ^ 20) = some n → pendingGranule z n = false)) ∧
    -- resets
    (let off : State := { State.reset with tick := s.tick, inputs := s.inputs, outbox := s.outbox, on := false }
     exec .coldPowerLoss s = .next off ∧ exec .thermalCut s = .next off) ∧
    (∀ cfg, ∃ z, exec (.coldPowerUp cfg) s = .next z ∧ z.on = true ∧ z.keys = [] ∧ z.unlocked = 0 ∧
      z.gate = [] ∧ z.cfg = cfg ∧ (∀ c, c < 192 → z.cores.has c = true) ∧
      ((∀ x ∈ cfg, x.image = []) → z.mem = [] ∧ ∀ gr, gr < 2 ^ 23 → pendingGranule z gr = true)) ∧
    (∃ z, exec .warmReset s = .next z ∧ z.on = true ∧ z.keys = [] ∧ z.unlocked = 0 ∧ z.heart.spdm = [] ∧ z.hwmem = s.hwmem ∧
      z.scrub = s.scrub ∧ (∀ w x, z.worlds.look w = some x → w < 4) ∧ (∀ j m, (z.die j).power.locked.get false m = false) ∧
      ((∀ x ∈ s.cfg, x.image = []) → z.mem = s.mem ∧ ∀ gr, (s.bark.look gr).isSome → pendingGranule z gr = true)) ∧
    (∀ x c, x.num < 4 → x.quarters ≠ 0 → x.image = [] → (coresOf x.quarters).head? = some c →
      ∃ z, exec (.coldPowerUp [x]) s = .next z ∧
        z.parts.look x.num = some { cfg := x, pqm := x.quarters, pmil := x.slots, pmig := x.granule, pnbp := x.ports, actw := x.num } ∧ (∃ w, z.worlds.look x.num = some w ∧ w.part = x.num ∧ w.root = x.root) ∧
        (z.core c).latch = some x.num ∧ z.stewardCore x.num = some c ∧
        ∀ a rest, x.entries = a :: rest → (z.path (68 + x.num)).busy = true ∧ (z.path (68 + x.num)).addr = a)

/-! ### Words, steps and memory -/

/-- R21 to R32: an instruction's word decodes to it, and a word decodes to no instruction but the one whose word it is. -/
def Obligations.EncodeDecode : Prop :=
  (∀ i : Instr, i.toFields.isSome → i.wellFormed = true → decode (encode i) = .ok i) ∧
  (∀ (w : InstrWord) (i : Instr), decode w = .ok i → encode i = w ∧ i.wellFormed = true)

/-- Words that the spec writes out decode to the instructions they stand for. -/
def Obligations.DecodeWords : Prop :=
  decodeTableWord 96 0x0000000100001200FF080800 = some (.iadd { guard := 2, imm := 1 } .s32 false (.x 8) (.x 8) .imm) ∧
  decodeTableWord 96 0x00000000000080000B0A0932 = some (.fmul {} .f32 .rne (.x 9) (.x 10) (.x 11)) ∧
  decodeTableWord 96 0xFFFFFFEA0000090000000050 = some (.br { guard := 1, inv := true, imm := 0xFFFFFFEA }) ∧
  decodeTableWord 96 0x000000400069F00000040770 =
    some (.ld { imm := 64 } { ord := .acq, scope := .core, evict := 3, space := .g } .b32 (.x 7) (.x 4)) ∧
  decodeTableWord 96 0x0000003000000300000200A0 = some (.tileDef { guard := 3, imm := 48 } 0 (.x 2)) ∧
  decodeTableWord 96 0x0000000100000300_00FF05B0 = some (.mmRsv { guard := 3, imm := 1 } 5 .imm) ∧
  decodeTableWord 96 0x0000000D00000300_00FF00C1 = some (.sortRun { guard := 3, imm := 13 } .imm) ∧
  decodeTableWord 96 0x00000000000000000A0806C9 = some (.ownLend {} 6 (.x 8) (.x 10)) ∧
  decodeTableWord 96 0x000000030000000000FF04E0 = some (.partQsc { imm := 3 } (.x 4) .imm)

/-- R7 and the reset columns: right after reset no thread is live, no core is latched, nothing is locked or keyed, and the registers read
as tabled; memory has its canonical form. What memory and the registers without a reset value read is the model's choice (log 11, 13). -/
def Obligations.AtReset : Prop :=
  State.reset.MemOk ∧ State.reset.on = true ∧ State.reset.keys = [] ∧ State.reset.unlocked = 0 ∧
  (∀ c t, State.reset.thr? c t = none ∧ (State.reset.core c).latch = none ∧ (State.reset.core c).inService = true ∧
    (State.reset.core c).l1 = [] ∧ (State.reset.ctx c).ops = []) ∧
  (∀ d, (State.reset.die d).tokens = [] ∧ (State.reset.die d).l2 = []) ∧
  readReg State.reset 0 0 0x260 = 1023 ∧ readReg State.reset 0 0 0x214 = 0 ∧ readReg State.reset 0 0 0x160 = 0xC4 ∧
  readReg State.reset 0 0 0x1AA = 32 ∧ readReg State.reset 0 0 0x1C0 = 129 ∧
  (∀ n ∈ [0x110, 0x140, 0x147, 0x150, 0x190, 0x191, 0x192, 0x198, 0x1A0, 0x1A1, 0x1A8, 0x1AB, 0x1B0, 0x1B1, 0x1B5, 0x1C1, 0x1C2],
    readReg State.reset 0 0 n = 0)

/-- Every row of the table has a next state, and a step stops only without power and with nothing sent (log 4). -/
def Obligations.StopsOnlyWithoutPower : Prop :=
  (∀ (i : Instr) (s : State), ∃ t, exec i s = .next t) ∧
  (∀ s : State, s.on = true ∨ s.inputs ≠ [] → ∃ t, step s = .next t) ∧
  (∀ s : State, s.on = false → s.inputs = [] → step s = .fault .noPower)

/-- R13, R16, R20, R37, R38: a bundle whose line holds a lawful word runs that instruction, and what follows at once from a step follows;
a word that decodes to nothing parks the threads with 0x01; a lawful pair runs as a pair. The word that is placed is the next instruction
that runs. Where `withFetchWord` places it is the model's choice (log 15). -/
def Obligations.StepRunsDecoded : Prop :=
  (∀ (s : State) (b : Bundle) (rest : List Bundle) (l : FLine), s.on = true → s.pipes = b :: rest → b.tids ≠ [] →
    (∀ t ∈ b.tids, ∃ th, s.thr? b.core t = some th ∧ th.park = none ∧ th.pc = b.pc ∧ th.entered = true ∧ breaks s b.core t = false) →
    fbuf? s b.core b.pc = some l → l.bad = false → malformed l.data = false →
    let t := { s with pipes := rest, focus := some b }
    let word := slotWord l.data (slotOf b.pc)
    (∀ i, decode word = .ok i → opensPair l.data (slotOf b.pc) = false → step s = settled s false (exec i t)) ∧
    (∀ e, decode word = .error e →
      step s = .next (settle s false (takeFaults t b.core (b.tids.map fun n => (n, { code := 0x01 }))))) ∧
    (∀ i j f g, decode word = .ok i → opensPair l.data (slotOf b.pc) = true → decode (slotWord l.data (slotOf b.pc + 1)) = .ok j →
      aluOf i = some f → aluOf j = some g → lawful f g = true → step s = .next (settle s true (runPair b f.2 g.2 t)))) ∧
  (∀ (o w : State) (p : Bool), settled o p (.next w) = .next (settle o p w)) ∧
  (∀ (s : State) (n w : Nat) (i : Instr), (s.core 0).ctx.bpctl = 0 → decodeTableWord n w = some i →
    let t := s.withFetchWord n w
    step t = settled t false (exec i { t with pipes := [], focus := some { core := 0, unit := .thr 0, tids := [0], pc := 0x10000 } }))

/-- Every step keeps the byte memory in its canonical form (log 11). -/
def Obligations.StepKeepsMemory : Prop :=
  ∀ s w : State, s.MemOk → step s = .next w → w.MemOk
end

