-- ==== Sys2Proof/Laws/Map.lean ====
section
/-! SUPPORT. Sparse tables: reading after writing, and the canonical form that every write keeps. -/
namespace Sys2Proof.Machine

theorem Map.look_put (m : Map α) (k i : Nat) (v : α) : (m.put k v).look i = if i = k then some v else m.look i := by
  induction m with
  | nil => simp [put, look]
  | cons e m ih =>
    obtain ⟨j, w⟩ := e
    simp only [put]
    by_cases hkj : k = j
    · subst hkj
      by_cases hi : i = k <;> simp [look, hi]
    · rw [if_neg hkj]
      split
      · simp [look]
      · simp only [look, ih]
        by_cases hi : i = k
        · subst hi; simp [hkj]
        · simp [hi]

theorem Map.look_put_self (m : Map α) (k : Nat) (v : α) : (m.put k v).look k = some v := by simp [look_put]

theorem Map.look_put_ne (m : Map α) {k i : Nat} (v : α) (h : i ≠ k) : (m.put k v).look i = m.look i := by simp [look_put, h]

theorem Map.look_of_lt (m : Map α) {k j : Nat} (h : Map.rising j m = true) (hk : k < j) : m.look k = none := by
  induction m generalizing j with
  | nil => rfl
  | cons e m ih =>
    obtain ⟨i, w⟩ := e
    simp only [Map.rising, Bool.and_eq_true, decide_eq_true_eq] at h
    simp only [Map.look]
    rw [if_neg (by omega), ih h.2 (by omega)]

theorem Map.has_put_self (m : Map α) (k : Nat) (v : α) : (m.put k v).has k = true := by simp [has, look_put_self]

theorem Map.put_put (m : Map α) (k : Nat) (v w : α) : (m.put k v).put k w = m.put k w := by
  induction m with
  | nil => simp [put]
  | cons e m ih =>
    obtain ⟨j, u⟩ := e
    simp only [put]
    split
    · simp [put]
    · split
      · simp [put]
      · simp only [put, has_put_self]
        rw [if_neg ‹_›, ih]
        simp

theorem Map.put_look (m : Map α) {k : Nat} {v : α} (h : m.look k = some v) : m.put k v = m := by
  induction m with
  | nil => simp [look] at h
  | cons e m ih =>
    obtain ⟨j, u⟩ := e
    simp only [look] at h
    simp only [put]
    split at h
    · subst_vars; simp_all
    · rw [if_neg ‹_›, if_neg (by simp [has, h]), ih h]

theorem Map.look_del (m : Map α) (k i : Nat) : (m.del k).look i = if i = k then none else m.look i := by
  induction m with
  | nil => simp [del, look]
  | cons e m ih =>
    obtain ⟨j, w⟩ := e
    simp only [del] at ih ⊢
    by_cases hj : j = k
    · subst hj
      rw [List.filter_cons_of_neg (by simp), ih]
      by_cases hi : i = j <;> simp [look, hi]
    · rw [List.filter_cons_of_pos (by simpa using hj)]
      simp only [look, ih]
      by_cases hi : i = j
      · subst hi; simp [hj]
      · simp [hi]

theorem Map.rising_mono {lo lo' : Nat} {m : Map α} (h : m.rising lo' = true) (hl : lo ≤ lo') : m.rising lo = true := by
  cases m with
  | nil => rfl
  | cons e m =>
    simp only [rising, Bool.and_eq_true, decide_eq_true_eq] at h ⊢
    exact ⟨by omega, h.2⟩

theorem Map.rising_put {m : Map α} {lo : Nat} (h : m.rising lo = true) {k : Nat} (hk : lo ≤ k) (v : α) :
    (m.put k v).rising lo = true := by
  induction m generalizing lo with
  | nil => simp [put, rising, hk]
  | cons e m ih =>
    obtain ⟨j, w⟩ := e
    simp only [rising, Bool.and_eq_true, decide_eq_true_eq] at h
    simp only [put]
    split
    · subst_vars; simp [rising, h]
    · split
      · rename_i h'
        simp only [Bool.and_eq_true, decide_eq_true_eq] at h'
        simp only [rising, Bool.and_eq_true, decide_eq_true_eq]
        exact ⟨hk, by omega, h.2⟩
      · rename_i h'
        have : ¬ k < j := fun hl => h' (by simp [hl, has, look_of_lt m h.2 (Nat.lt_succ_of_lt hl)])
        simp only [rising, Bool.and_eq_true, decide_eq_true_eq]
        exact ⟨h.1, ih h.2 (by omega)⟩

theorem Map.rising_del {m : Map α} {lo : Nat} (h : m.rising lo = true) (k : Nat) : (m.del k).rising lo = true := by
  induction m generalizing lo with
  | nil => rfl
  | cons e m ih =>
    obtain ⟨j, w⟩ := e
    simp only [rising, Bool.and_eq_true, decide_eq_true_eq] at h
    simp only [del] at ih ⊢
    by_cases hj : j = k
    · rw [List.filter_cons_of_neg (by simpa using hj)]
      exact rising_mono (ih h.2) (by omega)
    · rw [List.filter_cons_of_pos (by simpa using hj)]
      simp only [rising, Bool.and_eq_true, decide_eq_true_eq]
      exact ⟨h.1, ih h.2⟩

theorem Map.all_put {m : Map α} {p : Nat × α → Bool} (h : m.all p = true) {k : Nat} {v : α} (hv : p (k, v) = true) :
    (m.put k v).all p = true := by
  induction m with
  | nil => simp [put, hv]
  | cons e m ih =>
    obtain ⟨j, w⟩ := e
    simp only [List.all_cons, Bool.and_eq_true] at h
    simp only [put]
    split
    · simp [hv, h.2]
    · split
      · simp [hv, h]
      · simp [h.1, ih h.2]

theorem Map.all_del {m : Map α} {p : Nat × α → Bool} (h : m.all p = true) (k : Nat) : (m.del k).all p = true := by
  rw [List.all_eq_true] at h ⊢
  exact fun e he => h e (List.mem_filter.1 he).1

/-- Every write keeps the canonical form of a table with a default. -/
theorem Map.canon_set [DecidableEq α] {d : α} {m : Map α} (h : m.canon d = true) (k : Nat) (v : α) :
    (m.set d k v).canon d = true := by
  simp only [canon, Bool.and_eq_true] at h ⊢
  unfold set
  split
  · exact ⟨rising_del h.1 k, all_del h.2 k⟩
  · exact ⟨rising_put h.1 (by omega) v, all_put h.2 (by simpa using ‹_›)⟩

/-- What was written reads back, and every other entry stands. -/
theorem Map.get_set [DecidableEq α] (d : α) (m : Map α) (k i : Nat) (v : α) :
    (m.set d k v).get d i = if i = k then v else m.get d i := by
  unfold get set
  split
  · rw [look_del]
    split
    · simp [*]
    · rfl
  · rw [look_put]
    split <;> rfl

end Sys2Proof.Machine
end

