-- ==== Sys2Proof/Laws/State.lean ====
section
/-! SUPPORT. What each update of a place in the state leaves: one lemma per field per update. -/
namespace Sys2Proof.Machine

/-! ### Fields of the state that an update of a core leaves -/

@[simp] theorem State.setCore_on (s : State) (c : Nat) (k : Core) : (s.setCore c k).on = s.on := rfl
@[simp] theorem State.modCore_on (s : State) (c : Nat) (f : Core → Core) : (s.modCore c f).on = s.on := rfl
@[simp] theorem State.modCtx_on (s : State) (c : Nat) (f : Ctx → Ctx) : (s.modCtx c f).on = s.on := rfl
@[simp] theorem State.setThr_on (s : State) (c t : Nat) (th : Thread) : (s.setThr c t th).on = s.on := rfl
@[simp] theorem State.modThr_on (s : State) (c t : Nat) (f : Thread → Thread) : (s.modThr c t f).on = s.on := by
  unfold State.modThr; split <;> rfl
@[simp] theorem State.modGroup_on (s : State) (c g : Nat) (f : Group → Group) : (s.modGroup c g f).on = s.on := by
  unfold State.modGroup; split <;> rfl
@[simp] theorem State.setCore_dies (s : State) (c : Nat) (k : Core) : (s.setCore c k).dies = s.dies := rfl
@[simp] theorem State.modCore_dies (s : State) (c : Nat) (f : Core → Core) : (s.modCore c f).dies = s.dies := rfl
@[simp] theorem State.modCtx_dies (s : State) (c : Nat) (f : Ctx → Ctx) : (s.modCtx c f).dies = s.dies := rfl
@[simp] theorem State.setThr_dies (s : State) (c t : Nat) (th : Thread) : (s.setThr c t th).dies = s.dies := rfl
@[simp] theorem State.modThr_dies (s : State) (c t : Nat) (f : Thread → Thread) : (s.modThr c t f).dies = s.dies := by
  unfold State.modThr; split <;> rfl
@[simp] theorem State.modGroup_dies (s : State) (c g : Nat) (f : Group → Group) : (s.modGroup c g f).dies = s.dies := by
  unfold State.modGroup; split <;> rfl
@[simp] theorem State.setCore_mem (s : State) (c : Nat) (k : Core) : (s.setCore c k).mem = s.mem := rfl
@[simp] theorem State.modCore_mem (s : State) (c : Nat) (f : Core → Core) : (s.modCore c f).mem = s.mem := rfl
@[simp] theorem State.modCtx_mem (s : State) (c : Nat) (f : Ctx → Ctx) : (s.modCtx c f).mem = s.mem := rfl
@[simp] theorem State.setThr_mem (s : State) (c t : Nat) (th : Thread) : (s.setThr c t th).mem = s.mem := rfl
@[simp] theorem State.modThr_mem (s : State) (c t : Nat) (f : Thread → Thread) : (s.modThr c t f).mem = s.mem := by
  unfold State.modThr; split <;> rfl
@[simp] theorem State.modGroup_mem (s : State) (c g : Nat) (f : Group → Group) : (s.modGroup c g f).mem = s.mem := by
  unfold State.modGroup; split <;> rfl
@[simp] theorem State.setCore_poison (s : State) (c : Nat) (k : Core) : (s.setCore c k).poison = s.poison := rfl
@[simp] theorem State.modCore_poison (s : State) (c : Nat) (f : Core → Core) : (s.modCore c f).poison = s.poison := rfl
@[simp] theorem State.modCtx_poison (s : State) (c : Nat) (f : Ctx → Ctx) : (s.modCtx c f).poison = s.poison := rfl
@[simp] theorem State.setThr_poison (s : State) (c t : Nat) (th : Thread) : (s.setThr c t th).poison = s.poison := rfl
@[simp] theorem State.modThr_poison (s : State) (c t : Nat) (f : Thread → Thread) : (s.modThr c t f).poison = s.poison := by
  unfold State.modThr; split <;> rfl
@[simp] theorem State.modGroup_poison (s : State) (c g : Nat) (f : Group → Group) : (s.modGroup c g f).poison = s.poison := by
  unfold State.modGroup; split <;> rfl
@[simp] theorem State.setCore_hwmem (s : State) (c : Nat) (k : Core) : (s.setCore c k).hwmem = s.hwmem := rfl
@[simp] theorem State.modCore_hwmem (s : State) (c : Nat) (f : Core → Core) : (s.modCore c f).hwmem = s.hwmem := rfl
@[simp] theorem State.modCtx_hwmem (s : State) (c : Nat) (f : Ctx → Ctx) : (s.modCtx c f).hwmem = s.hwmem := rfl
@[simp] theorem State.setThr_hwmem (s : State) (c t : Nat) (th : Thread) : (s.setThr c t th).hwmem = s.hwmem := rfl
@[simp] theorem State.modThr_hwmem (s : State) (c t : Nat) (f : Thread → Thread) : (s.modThr c t f).hwmem = s.hwmem := by
  unfold State.modThr; split <;> rfl
@[simp] theorem State.modGroup_hwmem (s : State) (c g : Nat) (f : Group → Group) : (s.modGroup c g f).hwmem = s.hwmem := by
  unfold State.modGroup; split <;> rfl
@[simp] theorem State.setCore_tlb (s : State) (c : Nat) (k : Core) : (s.setCore c k).tlb = s.tlb := rfl
@[simp] theorem State.modCore_tlb (s : State) (c : Nat) (f : Core → Core) : (s.modCore c f).tlb = s.tlb := rfl
@[simp] theorem State.modCtx_tlb (s : State) (c : Nat) (f : Ctx → Ctx) : (s.modCtx c f).tlb = s.tlb := rfl
@[simp] theorem State.setThr_tlb (s : State) (c t : Nat) (th : Thread) : (s.setThr c t th).tlb = s.tlb := rfl
@[simp] theorem State.modThr_tlb (s : State) (c t : Nat) (f : Thread → Thread) : (s.modThr c t f).tlb = s.tlb := by
  unfold State.modThr; split <;> rfl
@[simp] theorem State.modGroup_tlb (s : State) (c g : Nat) (f : Group → Group) : (s.modGroup c g f).tlb = s.tlb := by
  unfold State.modGroup; split <;> rfl
@[simp] theorem State.setCore_parts (s : State) (c : Nat) (k : Core) : (s.setCore c k).parts = s.parts := rfl
@[simp] theorem State.modCore_parts (s : State) (c : Nat) (f : Core → Core) : (s.modCore c f).parts = s.parts := rfl
@[simp] theorem State.modCtx_parts (s : State) (c : Nat) (f : Ctx → Ctx) : (s.modCtx c f).parts = s.parts := rfl
@[simp] theorem State.setThr_parts (s : State) (c t : Nat) (th : Thread) : (s.setThr c t th).parts = s.parts := rfl
@[simp] theorem State.modThr_parts (s : State) (c t : Nat) (f : Thread → Thread) : (s.modThr c t f).parts = s.parts := by
  unfold State.modThr; split <;> rfl
@[simp] theorem State.modGroup_parts (s : State) (c g : Nat) (f : Group → Group) : (s.modGroup c g f).parts = s.parts := by
  unfold State.modGroup; split <;> rfl
@[simp] theorem State.setCore_worlds (s : State) (c : Nat) (k : Core) : (s.setCore c k).worlds = s.worlds := rfl
@[simp] theorem State.modCore_worlds (s : State) (c : Nat) (f : Core → Core) : (s.modCore c f).worlds = s.worlds := rfl
@[simp] theorem State.modCtx_worlds (s : State) (c : Nat) (f : Ctx → Ctx) : (s.modCtx c f).worlds = s.worlds := rfl
@[simp] theorem State.setThr_worlds (s : State) (c t : Nat) (th : Thread) : (s.setThr c t th).worlds = s.worlds := rfl
@[simp] theorem State.modThr_worlds (s : State) (c t : Nat) (f : Thread → Thread) : (s.modThr c t f).worlds = s.worlds := by
  unfold State.modThr; split <;> rfl
@[simp] theorem State.modGroup_worlds (s : State) (c g : Nat) (f : Group → Group) : (s.modGroup c g f).worlds = s.worlds := by
  unfold State.modGroup; split <;> rfl
@[simp] theorem State.setCore_bark (s : State) (c : Nat) (k : Core) : (s.setCore c k).bark = s.bark := rfl
@[simp] theorem State.modCore_bark (s : State) (c : Nat) (f : Core → Core) : (s.modCore c f).bark = s.bark := rfl
@[simp] theorem State.modCtx_bark (s : State) (c : Nat) (f : Ctx → Ctx) : (s.modCtx c f).bark = s.bark := rfl
@[simp] theorem State.setThr_bark (s : State) (c t : Nat) (th : Thread) : (s.setThr c t th).bark = s.bark := rfl
@[simp] theorem State.modThr_bark (s : State) (c t : Nat) (f : Thread → Thread) : (s.modThr c t f).bark = s.bark := by
  unfold State.modThr; split <;> rfl
@[simp] theorem State.modGroup_bark (s : State) (c g : Nat) (f : Group → Group) : (s.modGroup c g f).bark = s.bark := by
  unfold State.modGroup; split <;> rfl
@[simp] theorem State.setCore_cxl (s : State) (c : Nat) (k : Core) : (s.setCore c k).cxl = s.cxl := rfl
@[simp] theorem State.modCore_cxl (s : State) (c : Nat) (f : Core → Core) : (s.modCore c f).cxl = s.cxl := rfl
@[simp] theorem State.modCtx_cxl (s : State) (c : Nat) (f : Ctx → Ctx) : (s.modCtx c f).cxl = s.cxl := rfl
@[simp] theorem State.setThr_cxl (s : State) (c t : Nat) (th : Thread) : (s.setThr c t th).cxl = s.cxl := rfl
@[simp] theorem State.modThr_cxl (s : State) (c t : Nat) (f : Thread → Thread) : (s.modThr c t f).cxl = s.cxl := by
  unfold State.modThr; split <;> rfl
@[simp] theorem State.modGroup_cxl (s : State) (c g : Nat) (f : Group → Group) : (s.modGroup c g f).cxl = s.cxl := by
  unfold State.modGroup; split <;> rfl
@[simp] theorem State.setCore_keys (s : State) (c : Nat) (k : Core) : (s.setCore c k).keys = s.keys := rfl
@[simp] theorem State.modCore_keys (s : State) (c : Nat) (f : Core → Core) : (s.modCore c f).keys = s.keys := rfl
@[simp] theorem State.modCtx_keys (s : State) (c : Nat) (f : Ctx → Ctx) : (s.modCtx c f).keys = s.keys := rfl
@[simp] theorem State.setThr_keys (s : State) (c t : Nat) (th : Thread) : (s.setThr c t th).keys = s.keys := rfl
@[simp] theorem State.modThr_keys (s : State) (c t : Nat) (f : Thread → Thread) : (s.modThr c t f).keys = s.keys := by
  unfold State.modThr; split <;> rfl
@[simp] theorem State.modGroup_keys (s : State) (c g : Nat) (f : Group → Group) : (s.modGroup c g f).keys = s.keys := by
  unfold State.modGroup; split <;> rfl
@[simp] theorem State.setCore_paths (s : State) (c : Nat) (k : Core) : (s.setCore c k).paths = s.paths := rfl
@[simp] theorem State.modCore_paths (s : State) (c : Nat) (f : Core → Core) : (s.modCore c f).paths = s.paths := rfl
@[simp] theorem State.modCtx_paths (s : State) (c : Nat) (f : Ctx → Ctx) : (s.modCtx c f).paths = s.paths := rfl
@[simp] theorem State.setThr_paths (s : State) (c t : Nat) (th : Thread) : (s.setThr c t th).paths = s.paths := rfl
@[simp] theorem State.modThr_paths (s : State) (c t : Nat) (f : Thread → Thread) : (s.modThr c t f).paths = s.paths := by
  unfold State.modThr; split <;> rfl
@[simp] theorem State.modGroup_paths (s : State) (c g : Nat) (f : Group → Group) : (s.modGroup c g f).paths = s.paths := by
  unfold State.modGroup; split <;> rfl
@[simp] theorem State.setCore_launches (s : State) (c : Nat) (k : Core) : (s.setCore c k).launches = s.launches := rfl
@[simp] theorem State.modCore_launches (s : State) (c : Nat) (f : Core → Core) : (s.modCore c f).launches = s.launches := rfl
@[simp] theorem State.modCtx_launches (s : State) (c : Nat) (f : Ctx → Ctx) : (s.modCtx c f).launches = s.launches := rfl
@[simp] theorem State.setThr_launches (s : State) (c t : Nat) (th : Thread) : (s.setThr c t th).launches = s.launches := rfl
@[simp] theorem State.modThr_launches (s : State) (c t : Nat) (f : Thread → Thread) : (s.modThr c t f).launches = s.launches := by
  unfold State.modThr; split <;> rfl
@[simp] theorem State.modGroup_launches (s : State) (c g : Nat) (f : Group → Group) : (s.modGroup c g f).launches = s.launches := by
  unfold State.modGroup; split <;> rfl
@[simp] theorem State.setCore_gate (s : State) (c : Nat) (k : Core) : (s.setCore c k).gate = s.gate := rfl
@[simp] theorem State.modCore_gate (s : State) (c : Nat) (f : Core → Core) : (s.modCore c f).gate = s.gate := rfl
@[simp] theorem State.modCtx_gate (s : State) (c : Nat) (f : Ctx → Ctx) : (s.modCtx c f).gate = s.gate := rfl
@[simp] theorem State.setThr_gate (s : State) (c t : Nat) (th : Thread) : (s.setThr c t th).gate = s.gate := rfl
@[simp] theorem State.modThr_gate (s : State) (c t : Nat) (f : Thread → Thread) : (s.modThr c t f).gate = s.gate := by
  unfold State.modThr; split <;> rfl
@[simp] theorem State.modGroup_gate (s : State) (c g : Nat) (f : Group → Group) : (s.modGroup c g f).gate = s.gate := by
  unfold State.modGroup; split <;> rfl
@[simp] theorem State.setCore_contribs (s : State) (c : Nat) (k : Core) : (s.setCore c k).contribs = s.contribs := rfl
@[simp] theorem State.modCore_contribs (s : State) (c : Nat) (f : Core → Core) : (s.modCore c f).contribs = s.contribs := rfl
@[simp] theorem State.modCtx_contribs (s : State) (c : Nat) (f : Ctx → Ctx) : (s.modCtx c f).contribs = s.contribs := rfl
@[simp] theorem State.setThr_contribs (s : State) (c t : Nat) (th : Thread) : (s.setThr c t th).contribs = s.contribs := rfl
@[simp] theorem State.modThr_contribs (s : State) (c t : Nat) (f : Thread → Thread) : (s.modThr c t f).contribs = s.contribs := by
  unfold State.modThr; split <;> rfl
@[simp] theorem State.modGroup_contribs (s : State) (c g : Nat) (f : Group → Group) : (s.modGroup c g f).contribs = s.contribs := by
  unfold State.modGroup; split <;> rfl
@[simp] theorem State.setCore_bells (s : State) (c : Nat) (k : Core) : (s.setCore c k).bells = s.bells := rfl
@[simp] theorem State.modCore_bells (s : State) (c : Nat) (f : Core → Core) : (s.modCore c f).bells = s.bells := rfl
@[simp] theorem State.modCtx_bells (s : State) (c : Nat) (f : Ctx → Ctx) : (s.modCtx c f).bells = s.bells := rfl
@[simp] theorem State.setThr_bells (s : State) (c t : Nat) (th : Thread) : (s.setThr c t th).bells = s.bells := rfl
@[simp] theorem State.modThr_bells (s : State) (c t : Nat) (f : Thread → Thread) : (s.modThr c t f).bells = s.bells := by
  unfold State.modThr; split <;> rfl
@[simp] theorem State.modGroup_bells (s : State) (c g : Nat) (f : Group → Group) : (s.modGroup c g f).bells = s.bells := by
  unfold State.modGroup; split <;> rfl
@[simp] theorem State.setCore_msix (s : State) (c : Nat) (k : Core) : (s.setCore c k).msix = s.msix := rfl
@[simp] theorem State.modCore_msix (s : State) (c : Nat) (f : Core → Core) : (s.modCore c f).msix = s.msix := rfl
@[simp] theorem State.modCtx_msix (s : State) (c : Nat) (f : Ctx → Ctx) : (s.modCtx c f).msix = s.msix := rfl
@[simp] theorem State.setThr_msix (s : State) (c t : Nat) (th : Thread) : (s.setThr c t th).msix = s.msix := rfl
@[simp] theorem State.modThr_msix (s : State) (c t : Nat) (f : Thread → Thread) : (s.modThr c t f).msix = s.msix := by
  unfold State.modThr; split <;> rfl
@[simp] theorem State.modGroup_msix (s : State) (c g : Nat) (f : Group → Group) : (s.modGroup c g f).msix = s.msix := by
  unfold State.modGroup; split <;> rfl
@[simp] theorem State.setCore_pba (s : State) (c : Nat) (k : Core) : (s.setCore c k).pba = s.pba := rfl
@[simp] theorem State.modCore_pba (s : State) (c : Nat) (f : Core → Core) : (s.modCore c f).pba = s.pba := rfl
@[simp] theorem State.modCtx_pba (s : State) (c : Nat) (f : Ctx → Ctx) : (s.modCtx c f).pba = s.pba := rfl
@[simp] theorem State.setThr_pba (s : State) (c t : Nat) (th : Thread) : (s.setThr c t th).pba = s.pba := rfl
@[simp] theorem State.modThr_pba (s : State) (c t : Nat) (f : Thread → Thread) : (s.modThr c t f).pba = s.pba := by
  unfold State.modThr; split <;> rfl
@[simp] theorem State.modGroup_pba (s : State) (c g : Nat) (f : Group → Group) : (s.modGroup c g f).pba = s.pba := by
  unfold State.modGroup; split <;> rfl
@[simp] theorem State.setCore_saves (s : State) (c : Nat) (k : Core) : (s.setCore c k).saves = s.saves := rfl
@[simp] theorem State.modCore_saves (s : State) (c : Nat) (f : Core → Core) : (s.modCore c f).saves = s.saves := rfl
@[simp] theorem State.modCtx_saves (s : State) (c : Nat) (f : Ctx → Ctx) : (s.modCtx c f).saves = s.saves := rfl
@[simp] theorem State.setThr_saves (s : State) (c t : Nat) (th : Thread) : (s.setThr c t th).saves = s.saves := rfl
@[simp] theorem State.modThr_saves (s : State) (c t : Nat) (f : Thread → Thread) : (s.modThr c t f).saves = s.saves := by
  unfold State.modThr; split <;> rfl
@[simp] theorem State.modGroup_saves (s : State) (c g : Nat) (f : Group → Group) : (s.modGroup c g f).saves = s.saves := by
  unfold State.modGroup; split <;> rfl
@[simp] theorem State.setCore_veil (s : State) (c : Nat) (k : Core) : (s.setCore c k).veil = s.veil := rfl
@[simp] theorem State.modCore_veil (s : State) (c : Nat) (f : Core → Core) : (s.modCore c f).veil = s.veil := rfl
@[simp] theorem State.modCtx_veil (s : State) (c : Nat) (f : Ctx → Ctx) : (s.modCtx c f).veil = s.veil := rfl
@[simp] theorem State.setThr_veil (s : State) (c t : Nat) (th : Thread) : (s.setThr c t th).veil = s.veil := rfl
@[simp] theorem State.modThr_veil (s : State) (c t : Nat) (f : Thread → Thread) : (s.modThr c t f).veil = s.veil := by
  unfold State.modThr; split <;> rfl
@[simp] theorem State.modGroup_veil (s : State) (c g : Nat) (f : Group → Group) : (s.modGroup c g f).veil = s.veil := by
  unfold State.modGroup; split <;> rfl
@[simp] theorem State.setCore_spoiled (s : State) (c : Nat) (k : Core) : (s.setCore c k).spoiled = s.spoiled := rfl
@[simp] theorem State.modCore_spoiled (s : State) (c : Nat) (f : Core → Core) : (s.modCore c f).spoiled = s.spoiled := rfl
@[simp] theorem State.modCtx_spoiled (s : State) (c : Nat) (f : Ctx → Ctx) : (s.modCtx c f).spoiled = s.spoiled := rfl
@[simp] theorem State.setThr_spoiled (s : State) (c t : Nat) (th : Thread) : (s.setThr c t th).spoiled = s.spoiled := rfl
@[simp] theorem State.modThr_spoiled (s : State) (c t : Nat) (f : Thread → Thread) : (s.modThr c t f).spoiled = s.spoiled := by
  unfold State.modThr; split <;> rfl
@[simp] theorem State.modGroup_spoiled (s : State) (c g : Nat) (f : Group → Group) : (s.modGroup c g f).spoiled = s.spoiled := by
  unfold State.modGroup; split <;> rfl
@[simp] theorem State.setCore_dead (s : State) (c : Nat) (k : Core) : (s.setCore c k).dead = s.dead := rfl
@[simp] theorem State.modCore_dead (s : State) (c : Nat) (f : Core → Core) : (s.modCore c f).dead = s.dead := rfl
@[simp] theorem State.modCtx_dead (s : State) (c : Nat) (f : Ctx → Ctx) : (s.modCtx c f).dead = s.dead := rfl
@[simp] theorem State.setThr_dead (s : State) (c t : Nat) (th : Thread) : (s.setThr c t th).dead = s.dead := rfl
@[simp] theorem State.modThr_dead (s : State) (c t : Nat) (f : Thread → Thread) : (s.modThr c t f).dead = s.dead := by
  unfold State.modThr; split <;> rfl
@[simp] theorem State.modGroup_dead (s : State) (c g : Nat) (f : Group → Group) : (s.modGroup c g f).dead = s.dead := by
  unfold State.modGroup; split <;> rfl
@[simp] theorem State.setCore_fab (s : State) (c : Nat) (k : Core) : (s.setCore c k).fab = s.fab := rfl
@[simp] theorem State.modCore_fab (s : State) (c : Nat) (f : Core → Core) : (s.modCore c f).fab = s.fab := rfl
@[simp] theorem State.modCtx_fab (s : State) (c : Nat) (f : Ctx → Ctx) : (s.modCtx c f).fab = s.fab := rfl
@[simp] theorem State.setThr_fab (s : State) (c t : Nat) (th : Thread) : (s.setThr c t th).fab = s.fab := rfl
@[simp] theorem State.modThr_fab (s : State) (c t : Nat) (f : Thread → Thread) : (s.modThr c t f).fab = s.fab := by
  unfold State.modThr; split <;> rfl
@[simp] theorem State.modGroup_fab (s : State) (c g : Nat) (f : Group → Group) : (s.modGroup c g f).fab = s.fab := by
  unfold State.modGroup; split <;> rfl
@[simp] theorem State.setCore_heart (s : State) (c : Nat) (k : Core) : (s.setCore c k).heart = s.heart := rfl
@[simp] theorem State.modCore_heart (s : State) (c : Nat) (f : Core → Core) : (s.modCore c f).heart = s.heart := rfl
@[simp] theorem State.modCtx_heart (s : State) (c : Nat) (f : Ctx → Ctx) : (s.modCtx c f).heart = s.heart := rfl
@[simp] theorem State.setThr_heart (s : State) (c t : Nat) (th : Thread) : (s.setThr c t th).heart = s.heart := rfl
@[simp] theorem State.modThr_heart (s : State) (c t : Nat) (f : Thread → Thread) : (s.modThr c t f).heart = s.heart := by
  unfold State.modThr; split <;> rfl
@[simp] theorem State.modGroup_heart (s : State) (c g : Nat) (f : Group → Group) : (s.modGroup c g f).heart = s.heart := by
  unfold State.modGroup; split <;> rfl
@[simp] theorem State.setCore_unlocked (s : State) (c : Nat) (k : Core) : (s.setCore c k).unlocked = s.unlocked := rfl
@[simp] theorem State.modCore_unlocked (s : State) (c : Nat) (f : Core → Core) : (s.modCore c f).unlocked = s.unlocked := rfl
@[simp] theorem State.modCtx_unlocked (s : State) (c : Nat) (f : Ctx → Ctx) : (s.modCtx c f).unlocked = s.unlocked := rfl
@[simp] theorem State.setThr_unlocked (s : State) (c t : Nat) (th : Thread) : (s.setThr c t th).unlocked = s.unlocked := rfl
@[simp] theorem State.modThr_unlocked (s : State) (c t : Nat) (f : Thread → Thread) : (s.modThr c t f).unlocked = s.unlocked := by
  unfold State.modThr; split <;> rfl
@[simp] theorem State.modGroup_unlocked (s : State) (c g : Nat) (f : Group → Group) : (s.modGroup c g f).unlocked = s.unlocked := by
  unfold State.modGroup; split <;> rfl
@[simp] theorem State.setCore_cfg (s : State) (c : Nat) (k : Core) : (s.setCore c k).cfg = s.cfg := rfl
@[simp] theorem State.modCore_cfg (s : State) (c : Nat) (f : Core → Core) : (s.modCore c f).cfg = s.cfg := rfl
@[simp] theorem State.modCtx_cfg (s : State) (c : Nat) (f : Ctx → Ctx) : (s.modCtx c f).cfg = s.cfg := rfl
@[simp] theorem State.setThr_cfg (s : State) (c t : Nat) (th : Thread) : (s.setThr c t th).cfg = s.cfg := rfl
@[simp] theorem State.modThr_cfg (s : State) (c t : Nat) (f : Thread → Thread) : (s.modThr c t f).cfg = s.cfg := by
  unfold State.modThr; split <;> rfl
@[simp] theorem State.modGroup_cfg (s : State) (c g : Nat) (f : Group → Group) : (s.modGroup c g f).cfg = s.cfg := by
  unfold State.modGroup; split <;> rfl
@[simp] theorem State.setCore_ioclk (s : State) (c : Nat) (k : Core) : (s.setCore c k).ioclk = s.ioclk := rfl
@[simp] theorem State.modCore_ioclk (s : State) (c : Nat) (f : Core → Core) : (s.modCore c f).ioclk = s.ioclk := rfl
@[simp] theorem State.modCtx_ioclk (s : State) (c : Nat) (f : Ctx → Ctx) : (s.modCtx c f).ioclk = s.ioclk := rfl
@[simp] theorem State.setThr_ioclk (s : State) (c t : Nat) (th : Thread) : (s.setThr c t th).ioclk = s.ioclk := rfl
@[simp] theorem State.modThr_ioclk (s : State) (c t : Nat) (f : Thread → Thread) : (s.modThr c t f).ioclk = s.ioclk := by
  unfold State.modThr; split <;> rfl
@[simp] theorem State.modGroup_ioclk (s : State) (c g : Nat) (f : Group → Group) : (s.modGroup c g f).ioclk = s.ioclk := by
  unfold State.modGroup; split <;> rfl
@[simp] theorem State.setCore_scrub (s : State) (c : Nat) (k : Core) : (s.setCore c k).scrub = s.scrub := rfl
@[simp] theorem State.modCore_scrub (s : State) (c : Nat) (f : Core → Core) : (s.modCore c f).scrub = s.scrub := rfl
@[simp] theorem State.modCtx_scrub (s : State) (c : Nat) (f : Ctx → Ctx) : (s.modCtx c f).scrub = s.scrub := rfl
@[simp] theorem State.setThr_scrub (s : State) (c t : Nat) (th : Thread) : (s.setThr c t th).scrub = s.scrub := rfl
@[simp] theorem State.modThr_scrub (s : State) (c t : Nat) (f : Thread → Thread) : (s.modThr c t f).scrub = s.scrub := by
  unfold State.modThr; split <;> rfl
@[simp] theorem State.modGroup_scrub (s : State) (c g : Nat) (f : Group → Group) : (s.modGroup c g f).scrub = s.scrub := by
  unfold State.modGroup; split <;> rfl
@[simp] theorem State.setCore_tick (s : State) (c : Nat) (k : Core) : (s.setCore c k).tick = s.tick := rfl
@[simp] theorem State.modCore_tick (s : State) (c : Nat) (f : Core → Core) : (s.modCore c f).tick = s.tick := rfl
@[simp] theorem State.modCtx_tick (s : State) (c : Nat) (f : Ctx → Ctx) : (s.modCtx c f).tick = s.tick := rfl
@[simp] theorem State.setThr_tick (s : State) (c t : Nat) (th : Thread) : (s.setThr c t th).tick = s.tick := rfl
@[simp] theorem State.modThr_tick (s : State) (c t : Nat) (f : Thread → Thread) : (s.modThr c t f).tick = s.tick := by
  unfold State.modThr; split <;> rfl
@[simp] theorem State.modGroup_tick (s : State) (c g : Nat) (f : Group → Group) : (s.modGroup c g f).tick = s.tick := by
  unfold State.modGroup; split <;> rfl
@[simp] theorem State.setCore_focus (s : State) (c : Nat) (k : Core) : (s.setCore c k).focus = s.focus := rfl
@[simp] theorem State.modCore_focus (s : State) (c : Nat) (f : Core → Core) : (s.modCore c f).focus = s.focus := rfl
@[simp] theorem State.modCtx_focus (s : State) (c : Nat) (f : Ctx → Ctx) : (s.modCtx c f).focus = s.focus := rfl
@[simp] theorem State.setThr_focus (s : State) (c t : Nat) (th : Thread) : (s.setThr c t th).focus = s.focus := rfl
@[simp] theorem State.modThr_focus (s : State) (c t : Nat) (f : Thread → Thread) : (s.modThr c t f).focus = s.focus := by
  unfold State.modThr; split <;> rfl
@[simp] theorem State.modGroup_focus (s : State) (c g : Nat) (f : Group → Group) : (s.modGroup c g f).focus = s.focus := by
  unfold State.modGroup; split <;> rfl
@[simp] theorem State.setCore_pipes (s : State) (c : Nat) (k : Core) : (s.setCore c k).pipes = s.pipes := rfl
@[simp] theorem State.modCore_pipes (s : State) (c : Nat) (f : Core → Core) : (s.modCore c f).pipes = s.pipes := rfl
@[simp] theorem State.modCtx_pipes (s : State) (c : Nat) (f : Ctx → Ctx) : (s.modCtx c f).pipes = s.pipes := rfl
@[simp] theorem State.setThr_pipes (s : State) (c t : Nat) (th : Thread) : (s.setThr c t th).pipes = s.pipes := rfl
@[simp] theorem State.modThr_pipes (s : State) (c t : Nat) (f : Thread → Thread) : (s.modThr c t f).pipes = s.pipes := by
  unfold State.modThr; split <;> rfl
@[simp] theorem State.modGroup_pipes (s : State) (c g : Nat) (f : Group → Group) : (s.modGroup c g f).pipes = s.pipes := by
  unfold State.modGroup; split <;> rfl
@[simp] theorem State.setCore_walks (s : State) (c : Nat) (k : Core) : (s.setCore c k).walks = s.walks := rfl
@[simp] theorem State.modCore_walks (s : State) (c : Nat) (f : Core → Core) : (s.modCore c f).walks = s.walks := rfl
@[simp] theorem State.modCtx_walks (s : State) (c : Nat) (f : Ctx → Ctx) : (s.modCtx c f).walks = s.walks := rfl
@[simp] theorem State.setThr_walks (s : State) (c t : Nat) (th : Thread) : (s.setThr c t th).walks = s.walks := rfl
@[simp] theorem State.modThr_walks (s : State) (c t : Nat) (f : Thread → Thread) : (s.modThr c t f).walks = s.walks := by
  unfold State.modThr; split <;> rfl
@[simp] theorem State.modGroup_walks (s : State) (c g : Nat) (f : Group → Group) : (s.modGroup c g f).walks = s.walks := by
  unfold State.modGroup; split <;> rfl
@[simp] theorem State.setCore_inputs (s : State) (c : Nat) (k : Core) : (s.setCore c k).inputs = s.inputs := rfl
@[simp] theorem State.modCore_inputs (s : State) (c : Nat) (f : Core → Core) : (s.modCore c f).inputs = s.inputs := rfl
@[simp] theorem State.modCtx_inputs (s : State) (c : Nat) (f : Ctx → Ctx) : (s.modCtx c f).inputs = s.inputs := rfl
@[simp] theorem State.setThr_inputs (s : State) (c t : Nat) (th : Thread) : (s.setThr c t th).inputs = s.inputs := rfl
@[simp] theorem State.modThr_inputs (s : State) (c t : Nat) (f : Thread → Thread) : (s.modThr c t f).inputs = s.inputs := by
  unfold State.modThr; split <;> rfl
@[simp] theorem State.modGroup_inputs (s : State) (c g : Nat) (f : Group → Group) : (s.modGroup c g f).inputs = s.inputs := by
  unfold State.modGroup; split <;> rfl
@[simp] theorem State.setCore_todo (s : State) (c : Nat) (k : Core) : (s.setCore c k).todo = s.todo := rfl
@[simp] theorem State.modCore_todo (s : State) (c : Nat) (f : Core → Core) : (s.modCore c f).todo = s.todo := rfl
@[simp] theorem State.modCtx_todo (s : State) (c : Nat) (f : Ctx → Ctx) : (s.modCtx c f).todo = s.todo := rfl
@[simp] theorem State.setThr_todo (s : State) (c t : Nat) (th : Thread) : (s.setThr c t th).todo = s.todo := rfl
@[simp] theorem State.modThr_todo (s : State) (c t : Nat) (f : Thread → Thread) : (s.modThr c t f).todo = s.todo := by
  unfold State.modThr; split <;> rfl
@[simp] theorem State.modGroup_todo (s : State) (c g : Nat) (f : Group → Group) : (s.modGroup c g f).todo = s.todo := by
  unfold State.modGroup; split <;> rfl
@[simp] theorem State.setCore_ending (s : State) (c : Nat) (k : Core) : (s.setCore c k).ending = s.ending := rfl
@[simp] theorem State.modCore_ending (s : State) (c : Nat) (f : Core → Core) : (s.modCore c f).ending = s.ending := rfl
@[simp] theorem State.modCtx_ending (s : State) (c : Nat) (f : Ctx → Ctx) : (s.modCtx c f).ending = s.ending := rfl
@[simp] theorem State.setThr_ending (s : State) (c t : Nat) (th : Thread) : (s.setThr c t th).ending = s.ending := rfl
@[simp] theorem State.modThr_ending (s : State) (c t : Nat) (f : Thread → Thread) : (s.modThr c t f).ending = s.ending := by
  unfold State.modThr; split <;> rfl
@[simp] theorem State.modGroup_ending (s : State) (c g : Nat) (f : Group → Group) : (s.modGroup c g f).ending = s.ending := by
  unfold State.modGroup; split <;> rfl
@[simp] theorem State.setCore_outbox (s : State) (c : Nat) (k : Core) : (s.setCore c k).outbox = s.outbox := rfl
@[simp] theorem State.modCore_outbox (s : State) (c : Nat) (f : Core → Core) : (s.modCore c f).outbox = s.outbox := rfl
@[simp] theorem State.modCtx_outbox (s : State) (c : Nat) (f : Ctx → Ctx) : (s.modCtx c f).outbox = s.outbox := rfl
@[simp] theorem State.setThr_outbox (s : State) (c t : Nat) (th : Thread) : (s.setThr c t th).outbox = s.outbox := rfl
@[simp] theorem State.modThr_outbox (s : State) (c t : Nat) (f : Thread → Thread) : (s.modThr c t f).outbox = s.outbox := by
  unfold State.modThr; split <;> rfl
@[simp] theorem State.modGroup_outbox (s : State) (c g : Nat) (f : Group → Group) : (s.modGroup c g f).outbox = s.outbox := by
  unfold State.modGroup; split <;> rfl

/-! ### Fields of the state that an update of a die, a partition or a world leaves -/

@[simp] theorem State.modDie_on (s : State) (d : Nat) (f : Die → Die) : (s.modDie d f).on = s.on := rfl
@[simp] theorem State.modPart_on (s : State) (p : Nat) (f : Part → Part) : (s.modPart p f).on = s.on := by
  unfold State.modPart; split <;> rfl
@[simp] theorem State.modWorld_on (s : State) (w : Nat) (f : World → World) : (s.modWorld w f).on = s.on := by
  unfold State.modWorld; split <;> rfl
@[simp] theorem State.modDie_cores (s : State) (d : Nat) (f : Die → Die) : (s.modDie d f).cores = s.cores := rfl
@[simp] theorem State.modPart_cores (s : State) (p : Nat) (f : Part → Part) : (s.modPart p f).cores = s.cores := by
  unfold State.modPart; split <;> rfl
@[simp] theorem State.modWorld_cores (s : State) (w : Nat) (f : World → World) : (s.modWorld w f).cores = s.cores := by
  unfold State.modWorld; split <;> rfl
@[simp] theorem State.modPart_dies (s : State) (p : Nat) (f : Part → Part) : (s.modPart p f).dies = s.dies := by
  unfold State.modPart; split <;> rfl
@[simp] theorem State.modWorld_dies (s : State) (w : Nat) (f : World → World) : (s.modWorld w f).dies = s.dies := by
  unfold State.modWorld; split <;> rfl
@[simp] theorem State.modDie_mem (s : State) (d : Nat) (f : Die → Die) : (s.modDie d f).mem = s.mem := rfl
@[simp] theorem State.modPart_mem (s : State) (p : Nat) (f : Part → Part) : (s.modPart p f).mem = s.mem := by
  unfold State.modPart; split <;> rfl
@[simp] theorem State.modWorld_mem (s : State) (w : Nat) (f : World → World) : (s.modWorld w f).mem = s.mem := by
  unfold State.modWorld; split <;> rfl
@[simp] theorem State.modDie_poison (s : State) (d : Nat) (f : Die → Die) : (s.modDie d f).poison = s.poison := rfl
@[simp] theorem State.modPart_poison (s : State) (p : Nat) (f : Part → Part) : (s.modPart p f).poison = s.poison := by
  unfold State.modPart; split <;> rfl
@[simp] theorem State.modWorld_poison (s : State) (w : Nat) (f : World → World) : (s.modWorld w f).poison = s.poison := by
  unfold State.modWorld; split <;> rfl
@[simp] theorem State.modDie_hwmem (s : State) (d : Nat) (f : Die → Die) : (s.modDie d f).hwmem = s.hwmem := rfl
@[simp] theorem State.modPart_hwmem (s : State) (p : Nat) (f : Part → Part) : (s.modPart p f).hwmem = s.hwmem := by
  unfold State.modPart; split <;> rfl
@[simp] theorem State.modWorld_hwmem (s : State) (w : Nat) (f : World → World) : (s.modWorld w f).hwmem = s.hwmem := by
  unfold State.modWorld; split <;> rfl
@[simp] theorem State.modDie_tlb (s : State) (d : Nat) (f : Die → Die) : (s.modDie d f).tlb = s.tlb := rfl
@[simp] theorem State.modPart_tlb (s : State) (p : Nat) (f : Part → Part) : (s.modPart p f).tlb = s.tlb := by
  unfold State.modPart; split <;> rfl
@[simp] theorem State.modWorld_tlb (s : State) (w : Nat) (f : World → World) : (s.modWorld w f).tlb = s.tlb := by
  unfold State.modWorld; split <;> rfl
@[simp] theorem State.modDie_parts (s : State) (d : Nat) (f : Die → Die) : (s.modDie d f).parts = s.parts := rfl
@[simp] theorem State.modWorld_parts (s : State) (w : Nat) (f : World → World) : (s.modWorld w f).parts = s.parts := by
  unfold State.modWorld; split <;> rfl
@[simp] theorem State.modDie_worlds (s : State) (d : Nat) (f : Die → Die) : (s.modDie d f).worlds = s.worlds := rfl
@[simp] theorem State.modPart_worlds (s : State) (p : Nat) (f : Part → Part) : (s.modPart p f).worlds = s.worlds := by
  unfold State.modPart; split <;> rfl
@[simp] theorem State.modDie_bark (s : State) (d : Nat) (f : Die → Die) : (s.modDie d f).bark = s.bark := rfl
@[simp] theorem State.modPart_bark (s : State) (p : Nat) (f : Part → Part) : (s.modPart p f).bark = s.bark := by
  unfold State.modPart; split <;> rfl
@[simp] theorem State.modWorld_bark (s : State) (w : Nat) (f : World → World) : (s.modWorld w f).bark = s.bark := by
  unfold State.modWorld; split <;> rfl
@[simp] theorem State.modDie_cxl (s : State) (d : Nat) (f : Die → Die) : (s.modDie d f).cxl = s.cxl := rfl
@[simp] theorem State.modPart_cxl (s : State) (p : Nat) (f : Part → Part) : (s.modPart p f).cxl = s.cxl := by
  unfold State.modPart; split <;> rfl
@[simp] theorem State.modWorld_cxl (s : State) (w : Nat) (f : World → World) : (s.modWorld w f).cxl = s.cxl := by
  unfold State.modWorld; split <;> rfl
@[simp] theorem State.modDie_keys (s : State) (d : Nat) (f : Die → Die) : (s.modDie d f).keys = s.keys := rfl
@[simp] theorem State.modPart_keys (s : State) (p : Nat) (f : Part → Part) : (s.modPart p f).keys = s.keys := by
  unfold State.modPart; split <;> rfl
@[simp] theorem State.modWorld_keys (s : State) (w : Nat) (f : World → World) : (s.modWorld w f).keys = s.keys := by
  unfold State.modWorld; split <;> rfl
@[simp] theorem State.modDie_paths (s : State) (d : Nat) (f : Die → Die) : (s.modDie d f).paths = s.paths := rfl
@[simp] theorem State.modPart_paths (s : State) (p : Nat) (f : Part → Part) : (s.modPart p f).paths = s.paths := by
  unfold State.modPart; split <;> rfl
@[simp] theorem State.modWorld_paths (s : State) (w : Nat) (f : World → World) : (s.modWorld w f).paths = s.paths := by
  unfold State.modWorld; split <;> rfl
@[simp] theorem State.modDie_launches (s : State) (d : Nat) (f : Die → Die) : (s.modDie d f).launches = s.launches := rfl
@[simp] theorem State.modPart_launches (s : State) (p : Nat) (f : Part → Part) : (s.modPart p f).launches = s.launches := by
  unfold State.modPart; split <;> rfl
@[simp] theorem State.modWorld_launches (s : State) (w : Nat) (f : World → World) : (s.modWorld w f).launches = s.launches := by
  unfold State.modWorld; split <;> rfl
@[simp] theorem State.modDie_gate (s : State) (d : Nat) (f : Die → Die) : (s.modDie d f).gate = s.gate := rfl
@[simp] theorem State.modPart_gate (s : State) (p : Nat) (f : Part → Part) : (s.modPart p f).gate = s.gate := by
  unfold State.modPart; split <;> rfl
@[simp] theorem State.modWorld_gate (s : State) (w : Nat) (f : World → World) : (s.modWorld w f).gate = s.gate := by
  unfold State.modWorld; split <;> rfl
@[simp] theorem State.modDie_contribs (s : State) (d : Nat) (f : Die → Die) : (s.modDie d f).contribs = s.contribs := rfl
@[simp] theorem State.modPart_contribs (s : State) (p : Nat) (f : Part → Part) : (s.modPart p f).contribs = s.contribs := by
  unfold State.modPart; split <;> rfl
@[simp] theorem State.modWorld_contribs (s : State) (w : Nat) (f : World → World) : (s.modWorld w f).contribs = s.contribs := by
  unfold State.modWorld; split <;> rfl
@[simp] theorem State.modDie_bells (s : State) (d : Nat) (f : Die → Die) : (s.modDie d f).bells = s.bells := rfl
@[simp] theorem State.modPart_bells (s : State) (p : Nat) (f : Part → Part) : (s.modPart p f).bells = s.bells := by
  unfold State.modPart; split <;> rfl
@[simp] theorem State.modWorld_bells (s : State) (w : Nat) (f : World → World) : (s.modWorld w f).bells = s.bells := by
  unfold State.modWorld; split <;> rfl
@[simp] theorem State.modDie_msix (s : State) (d : Nat) (f : Die → Die) : (s.modDie d f).msix = s.msix := rfl
@[simp] theorem State.modPart_msix (s : State) (p : Nat) (f : Part → Part) : (s.modPart p f).msix = s.msix := by
  unfold State.modPart; split <;> rfl
@[simp] theorem State.modWorld_msix (s : State) (w : Nat) (f : World → World) : (s.modWorld w f).msix = s.msix := by
  unfold State.modWorld; split <;> rfl
@[simp] theorem State.modDie_pba (s : State) (d : Nat) (f : Die → Die) : (s.modDie d f).pba = s.pba := rfl
@[simp] theorem State.modPart_pba (s : State) (p : Nat) (f : Part → Part) : (s.modPart p f).pba = s.pba := by
  unfold State.modPart; split <;> rfl
@[simp] theorem State.modWorld_pba (s : State) (w : Nat) (f : World → World) : (s.modWorld w f).pba = s.pba := by
  unfold State.modWorld; split <;> rfl
@[simp] theorem State.modDie_saves (s : State) (d : Nat) (f : Die → Die) : (s.modDie d f).saves = s.saves := rfl
@[simp] theorem State.modPart_saves (s : State) (p : Nat) (f : Part → Part) : (s.modPart p f).saves = s.saves := by
  unfold State.modPart; split <;> rfl
@[simp] theorem State.modWorld_saves (s : State) (w : Nat) (f : World → World) : (s.modWorld w f).saves = s.saves := by
  unfold State.modWorld; split <;> rfl
@[simp] theorem State.modDie_veil (s : State) (d : Nat) (f : Die → Die) : (s.modDie d f).veil = s.veil := rfl
@[simp] theorem State.modPart_veil (s : State) (p : Nat) (f : Part → Part) : (s.modPart p f).veil = s.veil := by
  unfold State.modPart; split <;> rfl
@[simp] theorem State.modWorld_veil (s : State) (w : Nat) (f : World → World) : (s.modWorld w f).veil = s.veil := by
  unfold State.modWorld; split <;> rfl
@[simp] theorem State.modDie_spoiled (s : State) (d : Nat) (f : Die → Die) : (s.modDie d f).spoiled = s.spoiled := rfl
@[simp] theorem State.modPart_spoiled (s : State) (p : Nat) (f : Part → Part) : (s.modPart p f).spoiled = s.spoiled := by
  unfold State.modPart; split <;> rfl
@[simp] theorem State.modWorld_spoiled (s : State) (w : Nat) (f : World → World) : (s.modWorld w f).spoiled = s.spoiled := by
  unfold State.modWorld; split <;> rfl
@[simp] theorem State.modDie_dead (s : State) (d : Nat) (f : Die → Die) : (s.modDie d f).dead = s.dead := rfl
@[simp] theorem State.modPart_dead (s : State) (p : Nat) (f : Part → Part) : (s.modPart p f).dead = s.dead := by
  unfold State.modPart; split <;> rfl
@[simp] theorem State.modWorld_dead (s : State) (w : Nat) (f : World → World) : (s.modWorld w f).dead = s.dead := by
  unfold State.modWorld; split <;> rfl
@[simp] theorem State.modDie_fab (s : State) (d : Nat) (f : Die → Die) : (s.modDie d f).fab = s.fab := rfl
@[simp] theorem State.modPart_fab (s : State) (p : Nat) (f : Part → Part) : (s.modPart p f).fab = s.fab := by
  unfold State.modPart; split <;> rfl
@[simp] theorem State.modWorld_fab (s : State) (w : Nat) (f : World → World) : (s.modWorld w f).fab = s.fab := by
  unfold State.modWorld; split <;> rfl
@[simp] theorem State.modDie_heart (s : State) (d : Nat) (f : Die → Die) : (s.modDie d f).heart = s.heart := rfl
@[simp] theorem State.modPart_heart (s : State) (p : Nat) (f : Part → Part) : (s.modPart p f).heart = s.heart := by
  unfold State.modPart; split <;> rfl
@[simp] theorem State.modWorld_heart (s : State) (w : Nat) (f : World → World) : (s.modWorld w f).heart = s.heart := by
  unfold State.modWorld; split <;> rfl
@[simp] theorem State.modDie_unlocked (s : State) (d : Nat) (f : Die → Die) : (s.modDie d f).unlocked = s.unlocked := rfl
@[simp] theorem State.modPart_unlocked (s : State) (p : Nat) (f : Part → Part) : (s.modPart p f).unlocked = s.unlocked := by
  unfold State.modPart; split <;> rfl
@[simp] theorem State.modWorld_unlocked (s : State) (w : Nat) (f : World → World) : (s.modWorld w f).unlocked = s.unlocked := by
  unfold State.modWorld; split <;> rfl
@[simp] theorem State.modDie_cfg (s : State) (d : Nat) (f : Die → Die) : (s.modDie d f).cfg = s.cfg := rfl
@[simp] theorem State.modPart_cfg (s : State) (p : Nat) (f : Part → Part) : (s.modPart p f).cfg = s.cfg := by
  unfold State.modPart; split <;> rfl
@[simp] theorem State.modWorld_cfg (s : State) (w : Nat) (f : World → World) : (s.modWorld w f).cfg = s.cfg := by
  unfold State.modWorld; split <;> rfl
@[simp] theorem State.modDie_ioclk (s : State) (d : Nat) (f : Die → Die) : (s.modDie d f).ioclk = s.ioclk := rfl
@[simp] theorem State.modPart_ioclk (s : State) (p : Nat) (f : Part → Part) : (s.modPart p f).ioclk = s.ioclk := by
  unfold State.modPart; split <;> rfl
@[simp] theorem State.modWorld_ioclk (s : State) (w : Nat) (f : World → World) : (s.modWorld w f).ioclk = s.ioclk := by
  unfold State.modWorld; split <;> rfl
@[simp] theorem State.modDie_scrub (s : State) (d : Nat) (f : Die → Die) : (s.modDie d f).scrub = s.scrub := rfl
@[simp] theorem State.modPart_scrub (s : State) (p : Nat) (f : Part → Part) : (s.modPart p f).scrub = s.scrub := by
  unfold State.modPart; split <;> rfl
@[simp] theorem State.modWorld_scrub (s : State) (w : Nat) (f : World → World) : (s.modWorld w f).scrub = s.scrub := by
  unfold State.modWorld; split <;> rfl
@[simp] theorem State.modDie_tick (s : State) (d : Nat) (f : Die → Die) : (s.modDie d f).tick = s.tick := rfl
@[simp] theorem State.modPart_tick (s : State) (p : Nat) (f : Part → Part) : (s.modPart p f).tick = s.tick := by
  unfold State.modPart; split <;> rfl
@[simp] theorem State.modWorld_tick (s : State) (w : Nat) (f : World → World) : (s.modWorld w f).tick = s.tick := by
  unfold State.modWorld; split <;> rfl
@[simp] theorem State.modDie_focus (s : State) (d : Nat) (f : Die → Die) : (s.modDie d f).focus = s.focus := rfl
@[simp] theorem State.modPart_focus (s : State) (p : Nat) (f : Part → Part) : (s.modPart p f).focus = s.focus := by
  unfold State.modPart; split <;> rfl
@[simp] theorem State.modWorld_focus (s : State) (w : Nat) (f : World → World) : (s.modWorld w f).focus = s.focus := by
  unfold State.modWorld; split <;> rfl
@[simp] theorem State.modDie_pipes (s : State) (d : Nat) (f : Die → Die) : (s.modDie d f).pipes = s.pipes := rfl
@[simp] theorem State.modPart_pipes (s : State) (p : Nat) (f : Part → Part) : (s.modPart p f).pipes = s.pipes := by
  unfold State.modPart; split <;> rfl
@[simp] theorem State.modWorld_pipes (s : State) (w : Nat) (f : World → World) : (s.modWorld w f).pipes = s.pipes := by
  unfold State.modWorld; split <;> rfl
@[simp] theorem State.modDie_walks (s : State) (d : Nat) (f : Die → Die) : (s.modDie d f).walks = s.walks := rfl
@[simp] theorem State.modPart_walks (s : State) (p : Nat) (f : Part → Part) : (s.modPart p f).walks = s.walks := by
  unfold State.modPart; split <;> rfl
@[simp] theorem State.modWorld_walks (s : State) (w : Nat) (f : World → World) : (s.modWorld w f).walks = s.walks := by
  unfold State.modWorld; split <;> rfl
@[simp] theorem State.modDie_inputs (s : State) (d : Nat) (f : Die → Die) : (s.modDie d f).inputs = s.inputs := rfl
@[simp] theorem State.modPart_inputs (s : State) (p : Nat) (f : Part → Part) : (s.modPart p f).inputs = s.inputs := by
  unfold State.modPart; split <;> rfl
@[simp] theorem State.modWorld_inputs (s : State) (w : Nat) (f : World → World) : (s.modWorld w f).inputs = s.inputs := by
  unfold State.modWorld; split <;> rfl
@[simp] theorem State.modDie_todo (s : State) (d : Nat) (f : Die → Die) : (s.modDie d f).todo = s.todo := rfl
@[simp] theorem State.modPart_todo (s : State) (p : Nat) (f : Part → Part) : (s.modPart p f).todo = s.todo := by
  unfold State.modPart; split <;> rfl
@[simp] theorem State.modWorld_todo (s : State) (w : Nat) (f : World → World) : (s.modWorld w f).todo = s.todo := by
  unfold State.modWorld; split <;> rfl
@[simp] theorem State.modDie_ending (s : State) (d : Nat) (f : Die → Die) : (s.modDie d f).ending = s.ending := rfl
@[simp] theorem State.modPart_ending (s : State) (p : Nat) (f : Part → Part) : (s.modPart p f).ending = s.ending := by
  unfold State.modPart; split <;> rfl
@[simp] theorem State.modWorld_ending (s : State) (w : Nat) (f : World → World) : (s.modWorld w f).ending = s.ending := by
  unfold State.modWorld; split <;> rfl
@[simp] theorem State.modDie_outbox (s : State) (d : Nat) (f : Die → Die) : (s.modDie d f).outbox = s.outbox := rfl
@[simp] theorem State.modPart_outbox (s : State) (p : Nat) (f : Part → Part) : (s.modPart p f).outbox = s.outbox := by
  unfold State.modPart; split <;> rfl
@[simp] theorem State.modWorld_outbox (s : State) (w : Nat) (f : World → World) : (s.modWorld w f).outbox = s.outbox := by
  unfold State.modWorld; split <;> rfl

/-! ### Cores -/

@[simp] theorem State.core_setCore (s : State) (c c' : Nat) (k : Core) :
    (s.setCore c k).core c' = if c' = c then k else s.core c' := by
  unfold State.core State.setCore
  simp only [Map.look_put]
  split <;> rfl
@[simp] theorem State.core_modCore (s : State) (c c' : Nat) (f : Core → Core) :
    (s.modCore c f).core c' = if c' = c then f (s.core c) else s.core c' := by
  simp [State.modCore]
theorem State.core_modCore_self (s : State) (c : Nat) (f : Core → Core) : (s.modCore c f).core c = f (s.core c) := by simp
theorem State.core_modCore_ne (s : State) {c c' : Nat} (f : Core → Core) (h : c' ≠ c) : (s.modCore c f).core c' = s.core c' := by
  simp [h]
theorem State.modCore_modCore (s : State) (c : Nat) (f g : Core → Core) :
    (s.modCore c f).modCore c g = s.modCore c fun k => g (f k) := by
  simp only [State.modCore, core_setCore, if_true]
  simp [State.setCore, Map.put_put]
theorem State.modCtx_eq (s : State) (c : Nat) (f : Ctx → Ctx) :
    s.modCtx c f = s.modCore c fun k => { k with ctx := f k.ctx } := rfl
theorem State.modCtx_modCtx (s : State) (c : Nat) (f g : Ctx → Ctx) :
    (s.modCtx c f).modCtx c g = s.modCtx c fun x => g (f x) := by
  simp [State.modCtx, State.modCore_modCore]
@[simp] theorem State.ctx_modCtx (s : State) (c c' : Nat) (f : Ctx → Ctx) :
    (s.modCtx c f).ctx c' = if c' = c then f (s.ctx c) else s.ctx c' := by
  simp only [State.ctx, State.modCtx, core_modCore]
  split <;> rfl

@[simp] theorem State.core_modCtx_latch (s : State) (c c' : Nat) (f : Ctx → Ctx) : ((s.modCtx c f).core c').latch = (s.core c').latch := by
  simp only [State.modCtx, State.core_modCore]; split <;> simp_all
@[simp] theorem State.core_modCtx_inService (s : State) (c c' : Nat) (f : Ctx → Ctx) : ((s.modCtx c f).core c').inService = (s.core c').inService := by
  simp only [State.modCtx, State.core_modCore]; split <;> simp_all
@[simp] theorem State.core_modCtx_ccnt (s : State) (c c' : Nat) (f : Ctx → Ctx) : ((s.modCtx c f).core c').ccnt = (s.core c').ccnt := by
  simp only [State.modCtx, State.core_modCore]; split <;> simp_all
@[simp] theorem State.core_modCtx_lanes (s : State) (c c' : Nat) (f : Ctx → Ctx) : ((s.modCtx c f).core c').lanes = (s.core c').lanes := by
  simp only [State.modCtx, State.core_modCore]; split <;> simp_all
@[simp] theorem State.core_modCtx_fbuf (s : State) (c c' : Nat) (f : Ctx → Ctx) : ((s.modCtx c f).core c').fbuf = (s.core c').fbuf := by
  simp only [State.modCtx, State.core_modCore]; split <;> simp_all
@[simp] theorem State.core_modCtx_l1 (s : State) (c c' : Nat) (f : Ctx → Ctx) : ((s.modCtx c f).core c').l1 = (s.core c').l1 := by
  simp only [State.modCtx, State.core_modCore]; split <;> simp_all
@[simp] theorem State.core_modCtx_ccache (s : State) (c c' : Nat) (f : Ctx → Ctx) : ((s.modCtx c f).core c').ccache = (s.core c').ccache := by
  simp only [State.modCtx, State.core_modCore]; split <;> simp_all
@[simp] theorem State.core_modCtx_rcache (s : State) (c c' : Nat) (f : Ctx → Ctx) : ((s.modCtx c f).core c').rcache = (s.core c').rcache := by
  simp only [State.modCtx, State.core_modCore]; split <;> simp_all
@[simp] theorem State.core_modCtx_steal (s : State) (c c' : Nat) (f : Ctx → Ctx) : ((s.modCtx c f).core c').steal = (s.core c').steal := by
  simp only [State.modCtx, State.core_modCore]; split <;> simp_all
@[simp] theorem State.core_modCtx_waiting (s : State) (c c' : Nat) (f : Ctx → Ctx) : ((s.modCtx c f).core c').waiting = (s.core c').waiting := by
  simp only [State.modCtx, State.core_modCore]; split <;> simp_all
@[simp] theorem State.core_modCtx_frames (s : State) (c c' : Nat) (f : Ctx → Ctx) : ((s.modCtx c f).core c').frames = (s.core c').frames := by
  simp only [State.modCtx, State.core_modCore]; split <;> simp_all
@[simp] theorem State.core_modCtx_cxsw (s : State) (c c' : Nat) (f : Ctx → Ctx) : ((s.modCtx c f).core c').cxsw = (s.core c').cxsw := by
  simp only [State.modCtx, State.core_modCore]; split <;> simp_all
@[simp] theorem State.core_modCtx_qcls (s : State) (c c' : Nat) (f : Ctx → Ctx) : ((s.modCtx c f).core c').qcls = (s.core c').qcls := by
  simp only [State.modCtx, State.core_modCore]; split <;> simp_all
@[simp] theorem State.core_modCtx_trace (s : State) (c c' : Nat) (f : Ctx → Ctx) : ((s.modCtx c f).core c').trace = (s.core c').trace := by
  simp only [State.modCtx, State.core_modCore]; split <;> simp_all
@[simp] theorem State.core_modCtx_quiesced (s : State) (c c' : Nat) (f : Ctx → Ctx) : ((s.modCtx c f).core c').quiesced = (s.core c').quiesced := by
  simp only [State.modCtx, State.core_modCore]; split <;> simp_all
@[simp] theorem State.core_modCtx_marks (s : State) (c c' : Nat) (f : Ctx → Ctx) : ((s.modCtx c f).core c').marks = (s.core c').marks := by
  simp only [State.modCtx, State.core_modCore]; split <;> simp_all
@[simp] theorem State.core_modCtx_sigs (s : State) (c c' : Nat) (f : Ctx → Ctx) : ((s.modCtx c f).core c').sigs = (s.core c').sigs := by
  simp only [State.modCtx, State.core_modCore]; split <;> simp_all

/-! ### Threads -/

@[simp] theorem State.thr?_setThr (s : State) (c t c' t' : Nat) (th : Thread) :
    (s.setThr c t th).thr? c' t' = if c' = c ∧ t' = t then some th else s.thr? c' t' := by
  unfold State.thr? State.setThr
  simp only [ctx_modCtx]
  by_cases hc : c' = c
  · subst hc; simp [Map.look_put]
  · simp [hc]
theorem State.modThr_some {s : State} {c t : Nat} {th : Thread} (h : s.thr? c t = some th) (f : Thread → Thread) :
    s.modThr c t f = s.setThr c t (f th) := by
  simp [State.modThr, h]
theorem State.modThr_none {s : State} {c t : Nat} (h : s.thr? c t = none) (f : Thread → Thread) : s.modThr c t f = s := by
  simp [State.modThr, h]
@[simp] theorem State.thr?_modThr (s : State) (c t c' t' : Nat) (f : Thread → Thread) :
    (s.modThr c t f).thr? c' t' = if c' = c ∧ t' = t then (s.thr? c t).map f else s.thr? c' t' := by
  cases h : s.thr? c t with
  | none =>
    rw [modThr_none h]
    split
    · rename_i hc; rw [hc.1, hc.2, h]; rfl
    · rfl
  | some th => rw [modThr_some h]; simp
theorem State.thr_of {s : State} {c t : Nat} {th : Thread} (h : s.thr? c t = some th) : s.thr c t = th := by
  simp [State.thr, h]

/-! ### Reset -/


end Sys2Proof.Machine
end

