-- ==== Sys2Proof/Laws/Operands.lean ====
section
/-! SUPPORT. What a write of a register, a predicate or SAT leaves: no thread comes or goes, and all but the cores stands. -/
namespace Sys2Proof.Machine

/-- The part of the state beside the cores. -/
def State.outside (s : State) : State := { s with cores := [] }

/-- `b` has the threads of `a` and differs from it in nothing but the cores. -/
structure SameThreads (a b : State) : Prop where
  out  : b.outside = a.outside
  live : ∀ c t, (b.thr? c t).isSome = (a.thr? c t).isSome

theorem SameThreads.refl (a : State) : SameThreads a a := ⟨rfl, fun _ _ => rfl⟩
theorem SameThreads.trans {a b c : State} (h : SameThreads a b) (k : SameThreads b c) : SameThreads a c :=
  ⟨k.out.trans h.out, fun x y => (k.live x y).trans (h.live x y)⟩

theorem SameThreads.modThr (s : State) (c t : Nat) (f : Thread → Thread) : SameThreads s (s.modThr c t f) := by
  refine ⟨?_, fun c' t' => ?_⟩
  · unfold State.modThr; split <;> rfl
  · rw [State.thr?_modThr]
    split
    · rename_i h; rw [h.1, h.2]; simp
    · rfl

theorem SameThreads.modCtx {s : State} {c : Nat} {f : Ctx → Ctx} (h : (f (s.ctx c)).threads = (s.ctx c).threads) :
    SameThreads s (s.modCtx c f) := by
  refine ⟨rfl, fun c' t' => ?_⟩
  simp only [State.thr?, State.ctx_modCtx]
  split
  · rename_i hc; rw [hc, h]
  · rfl

theorem SameThreads.modCore {s : State} {c : Nat} {f : Core → Core} (h : (f (s.core c)).ctx = (s.core c).ctx) :
    SameThreads s (s.modCore c f) := by
  refine ⟨rfl, fun c' t' => ?_⟩
  simp only [State.thr?, State.ctx, State.core_modCore]
  split
  · rename_i hc; rw [hc, h]
  · rfl

theorem SameThreads.modGroup (s : State) (c g : Nat) (f : Group → Group) : SameThreads s (s.modGroup c g f) := by
  unfold State.modGroup
  split
  · exact SameThreads.modCtx rfl
  · exact SameThreads.refl s

theorem SameThreads.clearMarks (s : State) (c : Nat) (p : ErrAt → Bool) : SameThreads s (clearMarks s c p) := by
  unfold Machine.clearMarks
  split
  · exact SameThreads.refl s
  · exact SameThreads.modCore rfl

theorem SameThreads.wrX (s : State) (e : Env) (n : Nat) (v : Word) : SameThreads s (wrX s e n v) :=
  (SameThreads.modThr ..).trans (SameThreads.clearMarks ..)

theorem SameThreads.wrY (s : State) (e : Env) (n : Nat) (v : Word) : SameThreads s (wrY s e n v) := by
  unfold Machine.wrY
  split
  · exact (SameThreads.modGroup ..).trans (SameThreads.clearMarks ..)
  · exact SameThreads.refl s

theorem SameThreads.wrWord (s : State) (e : Env) (d : Dst) (v : Word) (k : Nat) : SameThreads s (wrWord s e d v k) := by
  unfold Machine.wrWord
  split
  · exact SameThreads.wrX ..
  · split
    · exact SameThreads.wrY ..
    · exact SameThreads.refl s
  · exact SameThreads.refl s

theorem SameThreads.wrVal (s : State) (e : Env) (w : Bool) (d : Dst) (v : DWord) : SameThreads s (wrVal s e w d v) := by
  unfold Machine.wrVal
  split
  · exact (SameThreads.wrWord ..).trans (SameThreads.wrWord ..)
  · exact SameThreads.wrWord ..

theorem SameThreads.wrPred (s : State) (e : Env) (k : Pred) (v : Bool) : SameThreads s (wrPred s e k v) := by
  unfold Machine.wrPred
  split
  · exact SameThreads.refl s
  · exact SameThreads.modThr ..

theorem SameThreads.setSat (s : State) (c t : Nat) : SameThreads s (setSat s c t) := by
  unfold Machine.setSat
  split
  · exact SameThreads.modGroup ..
  · exact SameThreads.modThr ..

theorem SameThreads.setSatIf (p : Bool) (s : State) (c t : Nat) : SameThreads s (setSatIf p s c t) := by
  unfold Machine.setSatIf
  split
  · exact SameThreads.setSat ..
  · exact SameThreads.refl s

end Sys2Proof.Machine
end

