-- ==== Sys2Proof/Laws/Bundle.lean ====
section
/-! SUPPORT. What running an instruction for one thread can do, said once: it completes, transfers, waits or faults, and beside its
own effect it changes only what `State.calm` leaves out. -/
namespace Sys2Proof.Machine

theorem Map.look_each (f : Nat → α → α) (m : Map α) (k : Nat) : (m.each f).look k = (m.look k).map (f k) := by
  induction m with
  | nil => rfl
  | cons e m ih =>
    obtain ⟨j, w⟩ := e
    simp only [Map.each, List.map_cons, Map.look] at ih ⊢
    split
    · simp [*]
    · simp [ih]

theorem Map.each_put (f : Nat → α → α) (m : Map α) (k : Nat) (v : α) : (m.put k v).each f = (m.each f).put k (f k v) := by
  induction m with
  | nil => rfl
  | cons e m ih =>
    obtain ⟨j, w⟩ := e
    have hh : Map.has (List.map (fun e => (e.1, f e.1 e.2)) m) k = Map.has m k := by
      have := Map.look_each f m k
      simp only [Map.each] at this
      simp [Map.has, this]
    simp only [Map.put, Map.each, List.map_cons, hh] at ih ⊢
    split
    · simp [*]
    · split <;> simp [ih]

/-- A change that `f` does not see. -/
theorem Map.each_put_same {f : Nat → α → α} {m : Map α} {k : Nat} {v w : α} (h : m.look k = some v) (hf : f k w = f k v) :
    (m.put k w).each f = m.each f := by
  rw [each_put, hf]
  exact put_look _ (by rw [look_each, h]; rfl)

theorem State.modCore_congr {s : State} {c : Nat} {f g : Core → Core} (h : f (s.core c) = g (s.core c)) :
    s.modCore c f = s.modCore c g := by
  simp [State.modCore, h]

/-- A change of a core that `calm` does not see. -/
theorem calm_modCore {s : State} {c t : Nat} {f : Core → Core} (h : (f (s.core c)).calm t = (s.core c).calm t) :
    (s.modCore c f).calm c t = s.calm c t := by
  rw [State.calm, State.modCore_modCore]
  exact State.modCore_congr h

theorem calm_setThr {s : State} {c t : Nat} {th th' : Thread} (h : s.thr? c t = some th) (hc : th'.calm = th.calm) :
    (s.setThr c t th').calm c t = s.calm c t := by
  refine calm_modCore ?_
  have : (s.core c).ctx.threads.look t = some th := h
  simp only [Core.calm]
  rw [Map.each_put_same this (by simp [hc])]

theorem calm_modThr {s : State} {c t : Nat} {f : Thread → Thread} (hc : ∀ th, s.thr? c t = some th → (f th).calm = th.calm) :
    (s.modThr c t f).calm c t = s.calm c t := by
  cases h : s.thr? c t with
  | none => rw [State.modThr_none h]
  | some th => rw [State.modThr_some h]; exact calm_setThr h (hc th h)

theorem calm_modThr_sched {s : State} {c t t' : Nat} {f : Sched → Sched} :
    (s.modThr c t' fun th => { th with sched := f th.sched }).calm c t = s.calm c t := by
  cases h : s.thr? c t' with
  | none => rw [State.modThr_none h]
  | some th =>
    rw [State.modThr_some h]
    refine calm_modCore ?_
    have : (s.core c).ctx.threads.look t' = some th := h
    simp only [Core.calm]
    rw [Map.each_put_same this]
    by_cases ht : t' = t <;> simp [ht, Thread.calm]

theorem calm_modGroup_sched {s : State} {c t g : Nat} {f : Sched → Sched} :
    (s.modGroup c g fun gr => { gr with sched := f gr.sched }).calm c t = s.calm c t := by
  unfold State.modGroup
  split
  · rename_i gr h
    refine calm_modCore ?_
    have : (s.core c).ctx.groups.look g = some gr := h
    simp only [Core.calm]
    rw [Map.each_put_same this]
    rfl
  · rfl

theorem calm_moved {s : State} {c t : Nat} {f : List (Nat × Bool) → List (Nat × Bool)} :
    (s.modCtx c fun x => { x with moved := f x.moved }).calm c t = s.calm c t :=
  calm_modCore rfl

@[simp] theorem calm_advance (s : State) (c t : Nat) (pc : DWord) (j : Bool) : (advance s c t pc j).calm c t = s.calm c t := by
  unfold advance
  rw [calm_moved (f := (· ++ [(t, j)]))]
  exact calm_modThr fun _ _ => rfl

@[simp] theorem calm_advanceNext (s : State) (c t : Nat) : (advanceNext s c t).calm c t = s.calm c t := calm_advance ..

@[simp] theorem calm_noteResults (s : State) (c t : Nat) (u : Uses) (n : Nat) : (noteResults s c t u n).calm c t = s.calm c t :=
  calm_modThr fun _ _ => rfl

@[simp] theorem calm_setBlk (s : State) (c t : Nat) (b : Blk) : (setBlk s c t b).calm c t = s.calm c t :=
  calm_modThr fun _ _ => rfl

theorem calm_modSched (s : State) (c t : Nat) (u : UnitId) (f : Sched → Sched) : (modSched s c u f).calm c t = s.calm c t := by
  cases u
  · exact calm_modGroup_sched
  · exact calm_modThr_sched

@[simp] theorem calm_occupy (s : State) (b : Bundle) (n t : Nat) : (occupy s b n).calm b.core t = s.calm b.core t := by
  unfold occupy
  simp only
  split
  · exact calm_modSched ..
  · rw [calm_modCore rfl]; exact calm_modSched ..

@[simp] theorem takeFaults_nil (s : State) (c : Nat) : takeFaults s c [] = s := rfl

theorem takeFaults_one (s : State) (c t : Nat) (r : Raise) (h : r.used = false)
    (hq : s.todo.contains (.rollback c (s.unitOf c t)) = false) : takeFaults s c [(t, r)] = parkSub s c [(t, r)] := by
  simp only [List.contains_eq_mem, decide_eq_false_iff_not] at hq
  simp [takeFaults, List.eraseDups_cons, h, hq]

/-! ### Fields of a thread that the bookkeeping leaves -/

theorem thr_modSched (s : State) (c c' t' : Nat) (u : UnitId) (f : Sched → Sched) :
    ∃ q : Thread → Sched, (modSched s c u f).thr? c' t' = (s.thr? c' t').map fun th => { th with sched := q th } := by
  cases u with
  | grp g =>
    refine ⟨fun th => th.sched, ?_⟩
    simp only [modSched, State.modGroup]
    split
    · simp only [State.thr?, State.ctx_modCtx]
      by_cases hc : c' = c
      · subst hc; simp
      · simp [hc]
    · simp
  | thr t =>
    refine ⟨fun th => if c' = c ∧ t' = t then f th.sched else th.sched, ?_⟩
    simp only [modSched, State.thr?_modThr]
    split
    · rename_i h; obtain ⟨rfl, rfl⟩ := h; simp
    · simp

theorem thr_occupy (s : State) (b : Bundle) (n c' t' : Nat) :
    ∃ q : Thread → Sched, (occupy s b n).thr? c' t' = (s.thr? c' t').map fun th => { th with sched := q th } := by
  unfold occupy
  simp only
  split
  · exact thr_modSched ..
  · obtain ⟨q, h⟩ := thr_modSched s b.core c' t' b.unit fun q => { q with busy := nowOf s b.core + max 1 n }
    refine ⟨q, ?_⟩
    rw [← h]
    simp only [State.thr?, State.ctx, State.core_modCore]
    split <;> simp_all

theorem occupy_unitOf (s : State) (b : Bundle) (n c' t' : Nat) : (occupy s b n).unitOf c' t' = s.unitOf c' t' := by
  obtain ⟨q, h⟩ := thr_occupy s b n c' t'
  unfold State.unitOf State.thr
  rw [h]
  cases s.thr? c' t' <;> rfl

theorem occupy_todo (s : State) (b : Bundle) (n : Nat) : (occupy s b n).todo = s.todo := by
  have : ∀ (u : UnitId) (f : Sched → Sched), (modSched s b.core u f).todo = s.todo := fun u f => by cases u <;> simp [modSched]
  unfold occupy
  simp only
  split <;> simp [this]

theorem occupy_pc (s : State) (b : Bundle) (n c' t' : Nat) : ((occupy s b n).thr c' t').pc = (s.thr c' t').pc := by
  obtain ⟨q, h⟩ := thr_occupy s b n c' t'
  simp only [State.thr, h]
  cases s.thr? c' t' <;> rfl
theorem occupy_blk (s : State) (b : Bundle) (n c' t' : Nat) : ((occupy s b n).thr c' t').blk = (s.thr c' t').blk := by
  obtain ⟨q, h⟩ := thr_occupy s b n c' t'
  simp only [State.thr, h]
  cases s.thr? c' t' <;> rfl

theorem advance_thr {s : State} {c t : Nat} {th : Thread} (h : s.thr? c t = some th) (pc : DWord) (j : Bool) :
    ((advance s c t pc j).thr c t).pc = pc ∧ ((advance s c t pc j).thr c t).blk = .run := by
  unfold advance
  simp only [State.thr, State.thr?, State.ctx_modCtx, if_true]
  have : ∀ f, ((s.modThr c t f).ctx c).threads.look t = some (f th) := by
    intro f
    have := State.thr?_modThr s c t c t f
    simp only [and_self, if_true, h] at this
    exact this
  rw [this]; simp

/-! ### One thread -/

theorem Ready.thr {s : State} {b : Bundle} {t : Nat} {th : Thread} {lv : Level} {u : Uses} {h : Hdr}
    (r : Ready s b t th lv u h) : s.thr b.core t = th := State.thr_of r.live

theorem Ready.pre {s : State} {b : Bundle} {t : Nat} {th : Thread} {lv : Level} {u : Uses} {h : Hdr}
    (r : Ready s b t th lv u h) : preCheck s b.core t lv u = none := by
  simp [preCheck, r.thr, r.regs, Nat.not_lt.2 r.level]

/-- An instruction run for each thread, where the bundle is one thread. -/
theorem perThread_one {s : State} {b : Bundle} {t : Nat} {th : Thread} {lv : Level} {u : Uses} {h : Hdr}
    (r : Ready s b t th lv u h) (act : Env → DWord → State → Res) :
    perThread lv u h act s =
      let q := endFor u b.core t th.pc (envOf s b t u h).skew (Run.pass { s := s } u h (envOf s b t u h).skew)
        (act (envOf s b t u h) th.pc s)
      takeFaults (occupy q.s b q.free) b.core q.raised := by
  simp [perThread, r.focus, r.alone, memberStep, r.live, r.runs, r.pre, r.guard, r.clean, envOf]

theorem ends_perThread {i : Instr} {s : State} {b : Bundle} {t : Nat} {th : Thread} {lv : Level} {u : Uses} {h : Hdr}
    {act : Env → DWord → State → Res} {v : State} (r : Ready s b t th lv u h)
    (he : exec i s = .next (perThread lv u h act s)) (ha : act (envOf s b t u h) th.pc s = .done v)
    (hl : (v.thr? b.core t).isSome) : Ends i s b t u h v := by
  obtain ⟨th', hl⟩ := Option.isSome_iff_exists.1 hl
  refine ⟨_, he, ?_⟩
  rw [perThread_one r, ha]
  simp only [endFor, takeFaults_nil, Run.pass, occupy_pc, occupy_blk, calm_occupy, calm_advance, calm_noteResults, r.thr]
  have : ∃ x, (noteResults (latchCcnt u v b.core t (envOf s b t u h).skew) b.core t u (envOf s b t u h).skew).thr? b.core t = some x := by
    unfold noteResults latchCcnt
    split <;> simp [hl]
  obtain ⟨x, hx⟩ := this
  exact ⟨(advance_thr hx _ _).1, (advance_thr hx _ _).2, trivial⟩

theorem jumps_perThread {i : Instr} {s : State} {b : Bundle} {t : Nat} {th : Thread} {lv : Level} {u : Uses} {h : Hdr}
    {act : Env → DWord → State → Res} {v : State} {pc : DWord} (r : Ready s b t th lv u h)
    (he : exec i s = .next (perThread lv u h act s)) (ha : act (envOf s b t u h) th.pc s = .jump v pc)
    (hl : (v.thr? b.core t).isSome) : Jumps i s b t u h pc v := by
  obtain ⟨th', hl⟩ := Option.isSome_iff_exists.1 hl
  refine ⟨_, he, ?_⟩
  rw [perThread_one r, ha]
  simp only [endFor, takeFaults_nil, Run.pass, occupy_pc, occupy_blk, calm_occupy, calm_advance]
  have : ∃ x, (latchCcnt u v b.core t (envOf s b t u h).skew).thr? b.core t = some x := by
    unfold latchCcnt
    split <;> simp [hl]
  obtain ⟨x, hx⟩ := this
  exact ⟨(advance_thr hx _ _).1, (advance_thr hx _ _).2, trivial⟩

theorem setBlk_thr {s : State} {c t : Nat} {th : Thread} (h : s.thr? c t = some th) (k : Blk) :
    ((setBlk s c t k).thr c t).pc = th.pc ∧ ((setBlk s c t k).thr c t).blk = k := by
  simp [setBlk, State.thr, h]

theorem waits_perThread {i : Instr} {s : State} {b : Bundle} {t : Nat} {th : Thread} {lv : Level} {u : Uses} {h : Hdr}
    {act : Env → DWord → State → Res} {v : State} {k : Blk} (r : Ready s b t th lv u h)
    (he : exec i s = .next (perThread lv u h act s)) (ha : act (envOf s b t u h) th.pc s = .wait v k)
    (hl : (v.thr? b.core t).isSome) : Waits i s b t u h k v := by
  obtain ⟨th', hl⟩ := Option.isSome_iff_exists.1 hl
  refine ⟨_, he, ?_⟩
  rw [perThread_one r, ha]
  simp only [endFor, takeFaults_nil, Run.pass, occupy_pc, occupy_blk, calm_occupy, calm_setBlk]
  have : ∃ x, (if k.again = true then v else latchCcnt u v b.core t (envOf s b t u h).skew).thr? b.core t = some x ∧ x.pc = th'.pc := by
    split
    · exact ⟨_, hl, rfl⟩
    · unfold latchCcnt
      split <;> simp [hl]
  obtain ⟨x, hx, hp⟩ := this
  refine ⟨?_, (setBlk_thr hx _).2, trivial⟩
  rw [(setBlk_thr hx _).1, hp, State.thr_of hl]

theorem leaves_perThread {i : Instr} {s : State} {b : Bundle} {t : Nat} {th : Thread} {lv : Level} {u : Uses} {h : Hdr}
    {act : Env → DWord → State → Res} {v : State} (r : Ready s b t th lv u h)
    (he : exec i s = .next (perThread lv u h act s)) (ha : act (envOf s b t u h) th.pc s = .gone v)
    (hl : v.thr? b.core t = none) : Leaves i s b t v := by
  refine ⟨_, he, ?_⟩
  rw [perThread_one r, ha]
  simp only [endFor, takeFaults_nil, Run.pass, calm_occupy]
  refine ⟨?_, trivial⟩
  obtain ⟨q, hq⟩ := thr_occupy v b (max 0 ((envOf s b t u h).skew + u.ival)) b.core t
  rw [hq, hl]; rfl

theorem raises_perThread {i : Instr} {s : State} {b : Bundle} {t : Nat} {th : Thread} {lv : Level} {u : Uses} {h : Hdr}
    {act : Env → DWord → State → Res} {v : State} {x : Raise} (r : Ready s b t th lv u h) (hx : x.used = false)
    (he : exec i s = .next (perThread lv u h act s)) (ha : act (envOf s b t u h) th.pc s = .fail v x)
    (hq : v.todo.contains (.rollback b.core (v.unitOf b.core t)) = false) :
    ∃ n, exec i s = .next (parkSub (occupy v b n) b.core [(t, x)]) := by
  rw [he, perThread_one r, ha]
  simp only [endFor, Run.pass, List.nil_append]
  rw [takeFaults_one _ _ _ _ hx (by rw [occupy_todo, occupy_unitOf]; exact hq)]
  exact ⟨_, rfl⟩

/-! ### An instruction that acts once for its bundle, where the bundle is one thread -/

theorem perBundle_one {s : State} {b : Bundle} {t : Nat} {th : Thread} {lv : Level} {u : Uses} {h : Hdr}
    (r : Ready s b t th lv u h) (act : Env → DWord → List Nat → State → Res) :
    perBundle lv u h act s =
      let k := (envOf s b t u h).skew
      let n := max 0 (k + u.ival)
      match act (envOf s b t u h) th.pc [t] s with
      | .done v => occupy (advanceNext (noteResults (latchCcnt u v b.core t k) b.core t u k) b.core t) b n
      | .jump v pc => occupy (advance (latchCcnt u v b.core t k) b.core t pc true) b n
      | .wait v q => occupy (setBlk (if q.again then v else latchCcnt u v b.core t k) b.core t q) b n
      | .gone v => occupy v b n
      | .fail v x => takeFaults (occupy v b n) b.core [(t, x)] := by
  have hl : [t].filter (fun t => (s.thr? b.core t).isSome && (s.thr b.core t).park.isNone) = [t] := by
    simp [r.live, r.thr, r.runs]
  have hb : bundleFaults s b.core lv u h [t] = [] := by
    simp [bundleFaults, r.pre, r.guard, r.clean]
  unfold perBundle
  simp only [r.focus, r.alone, hl, hb]
  simp [r.guard, r.thr, envOf, takeFaults_nil]
  all_goals (split <;> simp [*])

theorem ends_perBundle {i : Instr} {s : State} {b : Bundle} {t : Nat} {th : Thread} {lv : Level} {u : Uses} {h : Hdr}
    {act : Env → DWord → List Nat → State → Res} {v : State} (r : Ready s b t th lv u h)
    (he : exec i s = .next (perBundle lv u h act s)) (ha : act (envOf s b t u h) th.pc [t] s = .done v)
    (hl : (v.thr? b.core t).isSome) (hp : (v.thr b.core t).pc = th.pc) : Ends i s b t u h v := by
  obtain ⟨th', hl⟩ := Option.isSome_iff_exists.1 hl
  refine ⟨_, he, ?_⟩
  rw [perBundle_one r, ha]
  simp only [occupy_pc, occupy_blk, calm_occupy, calm_advanceNext, calm_noteResults, r.thr]
  have : ∃ x, (noteResults (latchCcnt u v b.core t (envOf s b t u h).skew) b.core t u (envOf s b t u h).skew).thr? b.core t = some x ∧
      x.pc = th.pc := by
    have : th'.pc = th.pc := by rw [← hp, State.thr_of hl]
    unfold noteResults latchCcnt
    split <;> simp [hl, this]
  obtain ⟨x, hx, hxp⟩ := this
  unfold advanceNext
  refine ⟨?_, (advance_thr hx _ _).2, trivial⟩
  rw [(advance_thr hx _ _).1, State.thr_of hx, hxp]

theorem waits_perBundle {i : Instr} {s : State} {b : Bundle} {t : Nat} {th : Thread} {lv : Level} {u : Uses} {h : Hdr}
    {act : Env → DWord → List Nat → State → Res} {v : State} {k : Blk} (r : Ready s b t th lv u h)
    (he : exec i s = .next (perBundle lv u h act s)) (ha : act (envOf s b t u h) th.pc [t] s = .wait v k)
    (hl : (v.thr? b.core t).isSome) : Waits i s b t u h k v := by
  obtain ⟨th', hl⟩ := Option.isSome_iff_exists.1 hl
  refine ⟨_, he, ?_⟩
  rw [perBundle_one r, ha]
  simp only [occupy_pc, occupy_blk, calm_occupy, calm_setBlk]
  have : ∃ x, (if k.again = true then v else latchCcnt u v b.core t (envOf s b t u h).skew).thr? b.core t = some x ∧ x.pc = th'.pc := by
    split
    · exact ⟨_, hl, rfl⟩
    · unfold latchCcnt
      split <;> simp [hl]
  obtain ⟨x, hx, hp⟩ := this
  refine ⟨?_, (setBlk_thr hx _).2, trivial⟩
  rw [(setBlk_thr hx _).1, hp, State.thr_of hl]

theorem raises_perBundle {i : Instr} {s : State} {b : Bundle} {t : Nat} {th : Thread} {lv : Level} {u : Uses} {h : Hdr}
    {act : Env → DWord → List Nat → State → Res} {v : State} {x : Raise} (r : Ready s b t th lv u h) (hx : x.used = false)
    (he : exec i s = .next (perBundle lv u h act s)) (ha : act (envOf s b t u h) th.pc [t] s = .fail v x)
    (hq : v.todo.contains (.rollback b.core (v.unitOf b.core t)) = false) :
    ∃ n, exec i s = .next (parkSub (occupy v b n) b.core [(t, x)]) := by
  rw [he, perBundle_one r, ha]
  dsimp only
  rw [takeFaults_one _ _ _ _ hx (by rw [occupy_todo, occupy_unitOf]; exact hq)]
  exact ⟨_, rfl⟩

/-! ### The integer and float classes -/

theorem SameThreads.apply (w : Write) (s : State) (e : Env) : SameThreads s (w.apply s e) := by
  refine ((SameThreads.wrVal s e w.wide w.d w.v).trans ?_).trans (SameThreads.setSatIf ..)
  split
  · exact SameThreads.wrPred ..
  · exact SameThreads.refl _

/-- An instruction of the integer or float class, for one thread: it writes what its operation says. -/
theorem alu_ends {i : Instr} {s : State} {b : Bundle} {t : Nat} {th : Thread} {a : Alu}
    (he : exec i s = .next (runAlu a s)) (r : Ready s b t th .app { a.uses with cls := true } a.h) :
    Ends i s b t { a.uses with cls := true } a.h
      ((a.eval s (envOf s b t { a.uses with cls := true } a.h) th.pc).apply s (envOf s b t { a.uses with cls := true } a.h)) := by
  refine ends_perThread r he rfl ?_
  rw [(SameThreads.apply ..).live, r.live]; rfl

/-- The same, with the registers named in any way that agrees with the operation's. -/
theorem ends_alu {i : Instr} {s : State} {b : Bundle} {t : Nat} {th : Thread} {a : Alu} {u : Uses} {h : Hdr} {v : State}
    (he : exec i s = .next (runAlu a s)) (r : Ready s b t th .app u h)
    (hu : u = { a.uses with cls := u.cls, lat := u.lat, ival := u.ival, kds := u.kds }) (hh : h = a.h)
    (hv : (a.eval s (envOf s b t u h) th.pc).apply s (envOf s b t u h) = v) : Ends i s b t u h v := by
  subst hh
  have h1 : Ready s b t th .app { a.uses with cls := true } a.h := by
    rw [hu] at r
    exact ⟨r.focus, r.alone, r.live, r.runs, r.level, r.regs, r.guard, r.clean, r.quiet⟩
  have h2 := alu_ends he h1
  rw [hu] at hv ⊢
  subst hv
  exact h2

end Sys2Proof.Machine
end

