-- ==== Sys2Proof/Laws/Memory.lean ====
section
/-! SUPPORT. The byte memory: what was written reads back, every other byte stands, and each operation that writes memory keeps its
canonical form. -/
namespace Sys2Proof.Machine

theorem peek_poke (m : List Host.Cell) (a b : Nat) (v : Byte) : peek (poke m a v) b = if b = a then v else peek m b :=
  Map.get_set 0 m a b v

/-- The bytes of a list, written from an address. -/
theorem pokeL_cons (m : List Host.Cell) (a : Nat) (v : Byte) (l : List Byte) : pokeL m a (v :: l) = pokeL (poke m a v) (a + 1) l := rfl

theorem pokeL_nil (m : List Host.Cell) (a : Nat) : pokeL m a [] = m := rfl

/-- Bytes written by a list read back, and the others stand. -/
theorem peek_pokeL (l : List Byte) : ∀ (m : List Host.Cell) (a b : Nat),
    peek (pokeL m a l) b = if a ≤ b ∧ b < a + l.length then l.getD (b - a) 0 else peek m b := by
  induction l with
  | nil => intro m a b; rw [pokeL_nil, if_neg (by simp)]
  | cons v l ih =>
    intro m a b
    rw [pokeL_cons, ih, peek_poke]
    by_cases h : b = a
    · subst h; rw [if_neg (by omega), if_pos rfl]; simp
    · by_cases h1 : a + 1 ≤ b
      · have : b - a = b - (a + 1) + 1 := by omega
        simp [h, h1, this, show a ≤ b by omega, Nat.add_assoc, Nat.add_comm 1]
      · simp [h, h1, show ¬ a ≤ b by omega]

theorem wf_nil : Memory.wf [] = true := rfl

theorem wf_poke {m : List Host.Cell} (h : Memory.wf m = true) (a : Nat) (v : Byte) : Memory.wf (poke m a v) = true :=
  Map.canon_set h a v

theorem wf_pokeL (l : List Byte) : ∀ {m : List Host.Cell}, Memory.wf m = true → ∀ a, Memory.wf (pokeL m a l) = true := by
  induction l with
  | nil => exact fun h _ => h
  | cons v l ih => exact fun h a => ih (wf_poke h a v) (a + 1)

theorem Map.rising_filter {m : Map α} (p : Nat × α → Bool) : ∀ {lo : Nat}, m.rising lo = true → Map.rising lo (m.filter p) = true := by
  induction m with
  | nil => exact fun _ => rfl
  | cons e m ih =>
    obtain ⟨j, w⟩ := e
    intro lo h
    simp only [rising, Bool.and_eq_true, decide_eq_true_eq] at h
    by_cases hp : p (j, w)
    · rw [List.filter_cons_of_pos hp]
      simp only [rising, Bool.and_eq_true, decide_eq_true_eq]
      exact ⟨h.1, ih h.2⟩
    · rw [List.filter_cons_of_neg hp]
      exact rising_mono (ih h.2) (by omega)

theorem wf_filter {m : List Host.Cell} (h : Memory.wf m = true) (p : Host.Cell → Bool) : Memory.wf (m.filter p) = true := by
  simp only [Memory.wf, Map.canon, Bool.and_eq_true] at h ⊢
  refine ⟨Map.rising_filter p h.1, ?_⟩
  rw [List.all_eq_true] at h ⊢
  exact fun e he => h.2 e (List.mem_filter.1 he).1

/-! ### Operations that write memory, and those that do not -/

theorem memOk_reset : State.reset.MemOk := rfl

/-- A state with the memory of one that is in form. -/
theorem memOk_of {s t : State} (h : s.MemOk) (he : t.mem = s.mem) : t.MemOk := by
  unfold State.MemOk at *
  rwa [he]

theorem memOk_foldl {α : Type} (f : State → α → State) (hf : ∀ s a, s.MemOk → (f s a).MemOk) (l : List α) :
    ∀ {s : State}, s.MemOk → (l.foldl f s).MemOk := by
  induction l with
  | nil => exact fun h => h
  | cons a l ih => exact fun h => ih (hf _ a h)

theorem memOk_writeBack {s : State} (h : s.MemOk) (l : L2Line) : (writeBack s l).MemOk := by
  unfold writeBack
  split
  · exact wf_pokeL _ h _
  · exact h

theorem memOk_zeroGranule {s : State} (h : s.MemOk) (gr : Nat) : (zeroGranule s gr).MemOk := wf_filter h _

theorem memOk_scrubGranule {s : State} (h : s.MemOk) (gr : Nat) : (scrubGranule s gr).MemOk := by
  unfold scrubGranule
  dsimp only
  split <;> split <;> first | exact h | exact memOk_zeroGranule h gr

@[simp] theorem modDie_mem (s : State) (d : Nat) (f : Die → Die) : (s.modDie d f).mem = s.mem := rfl

theorem memOk_evictOne {s : State} (h : s.MemOk) (w : Nat) (set : Nat × Nat × Nat) : (evictOne s w set).MemOk := by
  unfold evictOne
  dsimp only
  split
  · exact h
  · split
    · exact memOk_of h rfl
    · exact memOk_of (memOk_foldl _ (fun _ l h => memOk_writeBack h l) _ h) rfl

theorem memOk_makeRoom (n : Nat) : ∀ {s : State}, s.MemOk → ∀ w set size, (makeRoom n s w set size).MemOk := by
  induction n with
  | zero => exact fun h _ _ _ => h
  | succ n ih =>
    intro s h w set size
    unfold makeRoom
    split
    · exact ih (memOk_evictOne h w set) w set size
    · exact h

theorem memOk_fillL2 {s : State} (h : s.MemOk) (w : Nat) (x : Home) (prio : Nat) : (fillL2 s w x prio).MemOk := by
  unfold fillL2
  split
  · exact h
  · exact memOk_of (memOk_makeRoom 64 h _ _ _) rfl
  · exact h

theorem memOk_roomToGrow {s : State} (h : s.MemOk) (w : Nat) (x : Home) (off : Nat) (d : List Byte) : (roomToGrow s w x off d).MemOk := by
  unfold roomToGrow
  split
  · exact h
  · dsimp only
    split
    · exact h
    · have ht := memOk_of (t := s.modDie (s.homeDie w x.va) fun y => { y with l2 := y.l2.filter fun q => !(q.world == w && q.va == x.va) }) h rfl
      exact memOk_of (memOk_makeRoom 64 ht _ _ _) (modDie_mem ..)

theorem memOk_homeWrite {s : State} (h : s.MemOk) (w die : Nat) (x : Home) (off : Nat) (d : List Byte) (sig : Option (Sig × Bool))
    (prio : Nat) : (homeWrite s w die x off d sig prio).MemOk := by
  unfold homeWrite
  dsimp only [wakeLine]
  split <;> exact memOk_of (memOk_roomToGrow (memOk_fillL2 h w x prio) w x off _) rfl

theorem memOk_homeWriteN {s : State} (h : s.MemOk) (w die va : Nat) (d : List Byte) (hs : List Home) (sig : Option (Sig × Bool)) (prio : Nat) :
    (homeWriteN s w die va d hs sig prio).MemOk :=
  memOk_foldl _ (fun _ _ h => memOk_homeWrite h ..) _ h

theorem memOk_shoot {s : State} (h : s.MemOk) (p : Nat) (inP : Nat → Nat → Bool) : (shoot s p inP).MemOk := by
  unfold shoot
  refine memOk_of (t := _) (memOk_foldl _ ?_ (coresOf _) (memOk_foldl _ ?_ [0, 1] h)) rfl
  · intro s c h
    dsimp only
    split <;> exact h
  · intro s d h
    exact memOk_of (memOk_foldl _ (fun _ _ h => memOk_writeBack h _) _ h) rfl

theorem memOk_loadImage {s : State} (h : s.MemOk) (x : PartCfg) : (loadImage s x).MemOk := by
  unfold loadImage
  refine memOk_foldl _ (fun s e h => ?_) _ h
  dsimp only
  refine memOk_foldl _ (fun t i ht => ?_) _ (wf_pokeL e.2 h e.1)
  exact memOk_of ht rfl

end Sys2Proof.Machine
end

