-- ==== Sys2Proof/Laws/Step.lean ====
section
/-! SUPPORT. What a bundle meets before its instruction, said once for a bundle whose line lets it issue. -/
namespace Sys2Proof.Machine

/-- Threads that stand where their bundle issues. -/
structure Standing (s : State) (b : Bundle) (l : FLine) : Prop where
  some_ : b.tids ≠ []
  each  : ∀ t ∈ b.tids, ∃ th, s.thr? b.core t = some th ∧ th.park = none ∧ th.pc = b.pc ∧ th.entered = true ∧ breaks s b.core t = false
  line  : fbuf? s b.core b.pc = some l
  good  : l.bad = false
  form  : malformed l.data = false

theorem dropThreads_nil (s : State) (b : Bundle) : dropThreads { s with focus := some b } b [] = ({ s with focus := some b }, b) := by
  cases b
  simp [dropThreads, takeFaults]

theorem markEntered_all {s : State} {b : Bundle} (h : ∀ t ∈ b.tids, (s.thr b.core t).entered = true) : markEntered s b = s := by
  have : b.tids.filter (fun t => !(s.thr b.core t).entered) = [] := List.filter_eq_nil_iff.2 fun t m => by simp [h t m]
  simp [markEntered, this]

theorem prepare_standing {s : State} {b : Bundle} {l : FLine} (r : Standing s b l) :
    prepare s b = issueAt { s with focus := some b } b l.data := by
  have h1 : b.tids.filter (fun t => (s.thr? b.core t).any fun th => th.park.isNone && th.pc == b.pc) = b.tids := by
    refine List.filter_eq_self.2 fun t h => ?_
    obtain ⟨th, h1, h2, h3, -, -⟩ := r.each t h
    simp [h1, h2, h3]
  have h0 : ∀ t ∈ b.tids, (State.thr { s with focus := some b } b.core t).entered = true := fun t h => by
    obtain ⟨th, h1, -, -, h4, -⟩ := r.each t h
    show ((s.thr? b.core t).getD _).entered = true
    rw [h1]; exact h4
  have h2 : entryFaults { s with focus := some b } b = [] := List.filterMap_eq_nil_iff.2 fun t h => by simp [h0 t h]
  have h3 : b.tids.filter (breaks { s with focus := some b } b.core) = [] := by
    refine List.filter_eq_nil_iff.2 fun t h => ?_
    obtain ⟨th, -, -, -, -, h5⟩ := r.each t h
    rw [show breaks { s with focus := some b } b.core t = breaks s b.core t from rfl, h5]
    simp
  have h4 : fetchLine { s with focus := some b } b.core b.pc = ({ s with focus := some b }, .ok l.data) := by
    unfold fetchLine
    rw [show fbuf? { s with focus := some b } b.core b.pc = some l from r.line]
    simp [r.good]
  unfold prepare
  simp only [h1]
  rw [show ({ b with tids := b.tids } : Bundle) = b from rfl, h2, markEntered_all h0, dropThreads_nil]
  simp only [List.isEmpty_iff, r.some_, if_false]
  rw [h4]
  simp only [r.form, h3, List.map_nil, dropThreads_nil, r.some_]
  simp

/-- A bundle at the head of the pipes executes next. -/
theorem step_bundle {s : State} {b : Bundle} {rest : List Bundle} (h : s.on = true) (hp : s.pipes = b :: rest) :
    step s = stepBundle s b rest := by
  unfold step
  rw [if_pos h, hp]

end Sys2Proof.Machine
end

