-- ==== Sys2Proof/Tests/Slice0.lean ====
section
/-!
SUPPORT. Tests: words written out from the spec's encodings, terms that are not well formed, results that the spec writes out, and
for every statement a state and operands that meet its hypotheses.
-/
open Sys2Proof Sys2Proof.Machine
namespace Sys2Proof.Tests

set_option Elab.async false

/-! ### Words and the instructions they stand for -/

def readAll (l : List (Nat × Instr)) : Bool := l.all fun p => decide (decodeTableWord 96 p.1 = some p.2)
theorem test_decode_integer_1 : readAll [
    (0x0000000100001200FF080800, .iadd { guard := 2, imm := 1 } .s32 false (.x 8) (.x 8) .imm),
    (0x000000000001200083020101, .isub {} .u16 true (.x 1) (.x 2) (.y 3)),
    (0x0000014000000000FF011402, .imul { imm := 0x140 } .u32 false (.x 20) (.x 1) .imm),
    (0x000000000000700008060403, .imulh {} .s64 (.x 4) (.x 6) (.x 8)),
    (0x000000000000100609080604, .imad {} .s32 false (.x 6) (.x 8) (.x 9) (.x 6)),
    (0x000000000001500003028505, .idiv {} .s8 true (.y 5) (.x 2) (.x 3)),
    (0x000000000000600006040206, .irem {} .u64 (.x 2) (.x 4) (.x 6)),
    (0x0000000000013000000A0907, .ineg {} .s16 true (.x 9) (.x 10)),
    (0x0000000000015000007F0908, .iabs {} .s8 true (.x 9) (.x 127)),
    (0x0000000000004000C1020109, .imin {} .u8 (.x 1) (.x 2) (.sp .tid)),
    (0x00000000000010000C060C0A, .imax {} .s32 (.x 12) (.x 6) (.x 12)),
    (0x00000007000010FFC002010B, .iclamp { imm := 7 } .s32 (.x 1) (.x 2) (.sp .zero) .imm),
    (0x0000001F0000F000FF010D0C, .iand { imm := 31 } .b32 (.x 13) (.x 1) .imm),
    (0x00000000000060008604020D, .ior {} .u64 (.x 2) (.x 4) (.y 6)),
    (0x000000000000F000CBCA020E, .ixor {} .b32 (.x 2) (.sp .ccnt) (.sp .ccnth)),
    (0x000000000000F0000005C00F, .inot {} .b32 .zero (.x 5)),
    (0x000000000000F000CF020110, .iandn {} .b32 (.x 1) (.x 2) (.sp .part)),
    (0x0000000200000000FF011611, .shl { imm := 2 } .u32 (.x 22) (.x 1) .imm),
    (0x0000000500000000FF010E12, .shr { imm := 5 } .u32 (.x 14) (.x 1) .imm),
    (0x0000000900007000FF020E13, .sra { imm := 9 } .s64 (.x 14) (.x 2) .imm)] = true := by decide

theorem test_decode_integer_2 : readAll [
    (0x000000000000F00003020114, .rotl {} .b32 (.x 1) (.x 2) (.x 3)),
    (0x000000000000600706040215, .fshl {} .u64 (.x 2) (.x 4) (.x 6) (.x 7)),
    (0x000000000000600000040316, .popc {} .u64 (.x 3) (.x 4)),
    (0x000000000000000000050317, .clz {} .u32 (.x 3) (.x 5)),
    (0x0000000000000F0000050318, .ctz { guard := 7, inv := true } .u32 (.x 3) (.x 5)),
    (0x000000000000F00000050319, .brev {} .b32 (.x 3) (.x 5)),
    (0x0000080400001000FF05031A, .bfx { imm := 0x0804 } .s32 (.x 3) (.x 5) .imm),
    (0x000000000000F0070605031B, .bfi {} .b32 (.x 3) (.x 5) (.x 6) (.x 7)),
    (0x000032100000F0FF0605031C, .perm { imm := 0x3210 } (.x 3) (.x 5) (.x 6) .imm),
    (0x0000000400041000FF07011D, .icmp { imm := 4 } .s32 .lt 1 (.x 7) .imm),
    (0x000000000000F004C005061E, .sel {} .b32 (.x 6) (.x 5) (.sp .zero) 4),
    (0x0100FF010000F00000FF041F, .mov { imm := 0x0100FF01 } .b32 (.x 4) .imm),
    (0x000000200000000005030620, .plog { imm := 0x20 } 6 3 5 0),
    (0x000000000004000001020E21, .lea {} .u32 2 (.x 14) (.x 2) (.x 1)),
    (0x00000000000A000403020122, .iaddc {} .u32 5 (.x 1) (.x 2) (.x 3) 4),
    (0x00000000000E600106040223, .isubb {} .u64 7 (.x 2) (.x 4) (.x 6) 1),
    (0x0901F805000050C0FF040624, .idp4 { imm := 0x0901F805 } .s8 false (.x 6) (.x 4) .imm (.sp .zero)),
    (0x000000000001400605040625, .isad {} .u8 true (.x 6) (.x 4) (.x 5) (.x 6)),
    (0x000000000000200005040626, .pack {} .u16 (.x 6) (.x 4) (.x 5)),
    (0x000000000000500007040827, .unpk {} .s8 (.x 8) (.x 4) (.x 7))] = true := by decide

theorem test_decode_float_1 : readAll [
    (0x000000000002800003020130, .fadd {} .f32 .ru (.x 1) (.x 2) (.x 3)),
    (0x000000000001900003020131, .fsub {} .bf16 .rz (.x 1) (.x 2) (.x 3)),
    (0x00000000000080000B0A0932, .fmul {} .f32 .rne (.x 9) (.x 10) (.x 11)),
    (0x000000000003A00403020133, .fma {} .f16 .rd (.x 1) (.x 2) (.x 3) (.x 4)),
    (0x000000000001800003020134, .fdiv {} .f32 .rz (.x 1) (.x 2) (.x 3)),
    (0x000000000000800003020135, .fmin {} .f32 (.x 1) (.x 2) (.x 3)),
    (0x000000000000A00003020136, .fmax {} .f16 (.x 1) (.x 2) (.x 3)),
    (0x000000000000800000020137, .fabs {} .f32 (.x 1) (.x 2)),
    (0x000000000000800000828138, .fneg {} .f32 (.y 1) (.y 2)),
    (0x000000000060800003020339, .fcmp {} .f32 .un 3 (.x 2) (.x 3)),
    (0x00000000000090000002013A, .fclass {} .bf16 (.x 1) (.x 2)),
    (0x00000000000080000302013B, .fcpsg {} .f32 (.x 1) (.x 2) (.x 3)),
    (0x00000000000380000002013C, .frnd {} .f32 .rd (.x 1) (.x 2)),
    (0x0000000000809000000B0C3D, .fcvt {} .bf16 .f32 .rne false (.x 12) (.x 11)),
    (0x00000000008BA000000B0C3D, .fcvt {} .f16 .f32 .rd true (.x 12) (.x 11)),
    (0x00000000008110000002033E, .f2i {} .s32 .f32 .rz (.x 3) (.x 2)),
    (0x000000000010800000060A3F, .i2f {} .f32 .s32 .rne (.x 10) (.x 6)),
    (0x000000000050B000C0070740, .tcvt {} .t1 .s8 .rne (.x 7) (.x 7) (some (.sp .zero))),
    (0x000000000082C00000070740, .tcvt {} .t5 .f32 .ru (.x 7) (.x 7) none),
    (0x000000000020E00009080741, .bxal {} .manA (.x 7) (.x 8) (some (.x 9)))] = true := by decide

theorem test_decode_float_2 : readAll [
    (0x000000000010E00000080741, .bxal {} .expB (.x 7) (.x 8) none),
    (0x000000000004800000020142, .fexp2 {} .f32 true (.x 1) (.x 2)),
    (0x000000000000A00000020143, .flog2 {} .f16 false (.x 1) (.x 2)),
    (0x000000000006800000020144, .frcp {} .f32 true .ru (.x 1) (.x 2)),
    (0x000000000004800000020145, .frsqrt {} .f32 true (.x 1) (.x 2)),
    (0x000000000000900000020146, .fsqrt {} .bf16 false .rne (.x 1) (.x 2)),
    (0x000000000004800000020347, .fsin {} .f32 true (.x 3) (.x 2)),
    (0x000000000000800000020348, .fcos {} .f32 false (.x 3) (.x 2)),
    (0x000000000004800000020349, .ftanh {} .f32 true (.x 3) (.x 2)),
    (0x00000000000080000002034A, .fsigm {} .f32 false (.x 3) (.x 2)),
    (0x00000000000490000002034B, .ferf {} .bf16 true (.x 3) (.x 2))] = true := by decide

theorem test_decode_control_1 : readAll [
    (0xFFFFFFEA0000090000000050, .br { guard := 1, inv := true, imm := 0xFFFFFFEA }),
    (0x0000000000000000000C0051, .brx {} (.x 12)),
    (0x0000000B0000000000000052, .call { imm := 0xB }),
    (0x0000000000000000008C0053, .callx {} (.y 12)),
    (0x000000000000000000000054, .ret {}),
    (0x000000000003000D0C0A0055, .spawn {} 3 (.x 10) (.x 12) (.x 13)),
    (0x000000000000000000000056, .tail {}),
    (0x00000040007C030000080057, .exit { guard := 3, imm := 64 } .sys 3 (.x 8)),
    (0x000012340000000000000058, .trap { imm := 0x1234 }),
    (0x000000070000000000000959, .sys { imm := 7 } (.x 9)),
    (0x00000000000000000000005A, .nop {}),
    (0x00000000000000000000005B, .yield {}),
    (0x0000FFFF000000000000005C, .brk { imm := 0xFFFF }),
    (0x0000004000000000FF0C005D, .cstk { imm := 64 } (.x 12) .imm),
    (0x000002200000000000000C5E, .rdsr { imm := 0x220 } (.x 12)),
    (0x00000228000000000002005F, .wrsr { imm := 0x228 } (.x 2)),
    (0x000010000000000000FF0067, .sleep { imm := 0x1000 } .imm),
    (0x000000000000000000050060, .eret {} (.x 5)),
    (0x000000000003000806050761, .resm {} (.x 5) (.x 6) (some (.x 8)) (some (.x 7))),
    (0x0000000F00000000FF050061, .resm { imm := 0xF } (.x 5) .imm none none)] = true := by decide

theorem test_decode_control_2 : readAll [
    (0x000000000000000006050062, .kill {} (.x 5) (.x 6)),
    (0x0000000100000000FF050063, .sstepThr { imm := 1 } (.x 5) .imm),
    (0x000000000001000006050063, .sstepGrp {} (.x 5) (.x 6)),
    (0x00000000006000000C0E0064, .dump {} {} 0 (.x 14) (.x 12)),
    (0x000000000000000000000A65, .haltHold {} (.x 10)),
    (0x00000000000100000000C065, .haltRel {} .zero),
    (0x000000000002000000000A65, .haltQ {} (.x 10)),
    (0x000000020000000000FF0066, .traceOn { imm := 2 } .imm),
    (0x000000000001000000010066, .traceOff {} (.x 1)),
    (0x000000000002000000010066, .traceMark {} (.x 1))] = true := by decide

theorem test_decode_memory_1 : readAll [
    (0x000000400069F00000040770, .ld { imm := 0x40 } { ord := .acq, scope := .core } .b32 (.x 7) (.x 4)),
    (0x000000000060200000848371, .ldu {} {} .u16 (.y 3) (.y 4)),
    (0x000070400160F30000161872, .ld4 { guard := 3, imm := 28736 } { space := .l } (.x 24) (.x 22)),
    (0x00000080006EF30016080073, .st { guard := 3, imm := 128 } { ord := .rel, scope := .grove } .b32 (.x 8) (.x 22)),
    (0x000000000260F00010140074, .st4 {} { space := .w } (.x 20) (.x 16)),
    (0x000000003C60F00000041082, .ldm {} {} 15 (.x 16) (.x 4)),
    (0xFFFFFFFC08B6F00009040083, .stm { imm := 0xFFFFFFFC } { ord := .rel, scope := .pkg, evict := 5 } 2 (.x 4) (.x 9)),
    (0x00000000016000000004007D, .stz {} { space := .l } (.x 4)),
    (0x000000101473F00006020975, .atom { imm := 16 } { ord := .ar, scope := .die } .xor .b32 (.x 9) (.x 2) (.x 6)),
    (0x00000004206060000A140076, .atomg { imm := 4 } { } .dec .u64 (.x 20) (.x 10)),
    (0x000000000078600C0A040877, .cas {} { scope := .dom } .u64 (.x 8) (.x 4) (.x 10) (.x 12)),
    (0x00000000096090000A040886, .atomf {} { space := .l } .max .bf16 (.x 8) (.x 4) (.x 10)),
    (0x0000000000E0000000040078, .prf {} 7 (.x 4)),
    (0x000000000016000000000079, .fence {} .rel .pkg),
    (0x3F3F3F00000000000000007A, .wait { imm := 0x3F3F3F00 }),
    (0x00000000000000000604007B, .inv {} (.x 4) (.x 6)),
    (0x00000080000000000604007C, .flush { imm := 128 } (.x 4) (.x 6)),
    (0x00000000007960060004087E, .rld {} { ord := .acq, scope := .dom } .u64 (.x 8) (.x 4) (.x 6)),
    (0x00000000006080070604007F, .rst {} {} .f32 (.x 4) (.x 6) (.x 7)),
    (0x000000001C60000706040880, .ratom {} {} .inc .u32 (.x 8) (.x 4) (.x 6) (.x 7))] = true := by decide

theorem test_decode_memory_2 : readAll [
    (0x000000000060F00906040881, .rcas {} {} .b32 (.x 8) (.x 4) (.x 6) (.x 9)),
    (0x000000000460A00906040887, .ratomf {} {} .min .f16 (.x 8) (.x 4) (.x 6) (.x 9)),
    (0x000000002460F00000040084, .ldcv {} {} 9 (.x 4)),
    (0x000000003D62F00000050085, .stcv {} { ord := .rel, space := .l } 15 (.x 5))] = true := by decide

theorem test_decode_group : readAll [
    (0x0000080800010001FFC00090, .gjoin { imm := 0x808 } (.sp .zero) .imm (some (.x 1))),
    (0x0000020100000000FF010090, .gjoin { imm := 0x201 } (.x 1) .imm none),
    (0x000000000000000000000091, .gleave {}),
    (0x000000100000000000FF0092, .gslice { imm := 16 } .imm),
    (0x000000000004000000000093, .gbar {} .grp),
    (0x000000C80004000000FF0394, .rwait { imm := 200 } .grp 3 .imm),
    (0x000000000003000000021195, .vote {} .ballot (.reg (.x 17)) 2),
    (0x000000000002000000020595, .vote {} .uni (.pred 5) 2),
    (0x000000000002600005040296, .shfl {} .down .u64 (.x 2) (.x 4) (.x 5)),
    (0x000000000003100000061097, .red {} .max .s32 .rne false (.x 16) (.x 6)),
    (0x000000000058800000061098, .scan {} .add true .f32 .rd false (.x 16) (.x 6)),
    (0x000000000021400000061098, .scan {} .mul false .u8 .rne true (.x 16) (.x 6)),
    (0x000000000001A00000061099, .gmatch {} true .f16 (.x 16) (.x 6)),
    (0x000000800060FDC0C0080B9A, .mwait { guard := 5, inv := true, imm := 128 } {} (.x 11) (.x 8) (.sp .zero) (.sp .zero)),
    (0x00000000000000000504009B, .dqPush {} (.x 4) (.x 5)),
    (0x00000000000000000000849C, .dqPop {} (.y 4)),
    (0x00000000000000000000049D, .gsatRd {} (.x 4)),
    (0x00000000000100000000049D, .gsatClr {} (.x 4)),
    (0x00000000000200000000C09D, .gsatArm {} .zero),
    (0x00000000000300000000049D, .gsatDisarm {} (.x 4))] = true := by decide

theorem test_decode_tile : readAll [
    (0x0000003000000300000200A0, .tileDef { guard := 3, imm := 0x30 } 0 (.x 2)),
    (0x000000000000000000007FA1, .tileFree {} 127),
    (0x0000000000000005000009A2, .tileQry {} 5 (.x 9)),
    (0x0000000000000300000002A3, .tileRdySet { guard := 3 } 2),
    (0x0000000000010000000002A3, .tileRdyClr {} 2),
    (0x000000090001000300FF04A4, .tileFill { imm := 9 } 4 .imm (some (.x 3))),
    (0x00000000000B0000000302A5, .patDef {} 2 11 (.x 3)),
    (0x0000004000000300000200A6, .patLd { guard := 3, imm := 0x40 } 0 (.x 2)),
    (0x0000000000000000000000A7, .patFence {}),
    (0x0000000000600300C00000A8, .cpIn { guard := 3 } 3 0 0 (.sp .zero) none),
    (0x0000000000C10007040209A9, .cpOut {} 6 9 2 (.x 4) (some (.x 7))),
    (0x0000000000020000000908AA, .cpTt {} true 8 9 none),
    (0x000000040000000000FF05AB, .spCfg { imm := 4 } (.x 5) .imm)] = true := by decide

theorem test_decode_matrix : readAll [
    (0x000000010000030000FF05B0, .mmRsv { guard := 3, imm := 1 } 5 .imm),
    (0x0000000000000300000000B1, .mmRel { guard := 3 }),
    (0x000000FF0000000000FF00B2, .mmDecl { imm := 0xFF } false 0 .imm),
    (0x0000000000010000000409B2, .mmDecl {} true 9 (.x 4)),
    (0x0000000000060000000000B3, .mmSign {} 6),
    (0x0000000000000000000000B4, .mmFence {}),
    (0x0000000000300000FF0000B5, .mmMmaT1i8 {} 0 true true 0 0 .imm),
    (0x0000000000171000090C03B5, .mmMmaT5i8 {} 7 true false 3 12 (.x 9)),
    (0x000000000027200A090C03B5, .mmMmaT5i8Bx {} 7 false true 3 12 (.x 9) (.x 10)),
    (0x0000000000010000090C02B6, .mmMmaT11i16 {} 1 false false 2 12 (.x 9)),
    (0x0000000000020000090C04B7, .mmMmaRing16 {} 2 false false 4 12 (.x 9)),
    (0x0000000000031000090C06B7, .mmMmaRing32 {} 3 false false 6 12 (.x 9)),
    (0x0000010000600007060400B8, .wbLd { imm := 256 } 3 (.x 4) (.x 6) (.x 7)),
    (0x0000000000010000000006B9, .accClr {} true 6),
    (0x0000000000001300000001BA, .accRd { guard := 3 } .s32 .s32 .rne 1 0),
    (0x00000000000AA000000405BA, .accRd {} .w48 .f16 .ru 5 4),
    (0x0000000000000000000807BB, .accSt {} false 7 8)] = true := by decide

theorem test_decode_sort : readAll [
    (0x0000000000031300000207C0, .sortLoad { guard := 3 } true true false .s32 7 2 none),
    (0x00000000000CA000090207C0, .sortLoad {} false false true .f16 7 2 (some 9)),
    (0x0000000D0000030000FF00C1, .sortRun { guard := 3, imm := 13 } .imm),
    (0x0000000000010300000403C2, .sortStore { guard := 3 } 3 (some 4)),
    (0x0000000000000000000900C3, .sortTopk {} (.x 9)),
    (0x0000030500000000000000C4, .sortMerge { imm := 0x0305 }),
    (0x0000000000000000000308C5, .sortMatch {} (.x 8) (.x 3)),
    (0x0000000000000000000088C6, .sortStateRd {} (.y 8)),
    (0x0000000000010300000000C6, .sortStateRel { guard := 3 })] = true := by decide

theorem test_decode_token : readAll [
    (0x0000000C00000300FF0804C8, .ownClaim { guard := 3, imm := 12 } .write false 4 (.x 8) .imm),
    (0x0000000000060000020804C8, .ownClaim {} .at true 4 (.x 8) (.x 2)),
    (0x00000000000000000A0806C9, .ownLend {} 6 (.x 8) (.x 10)),
    (0x0000000000000000000800CA, .ownRet {} (.x 8)),
    (0x0000008000000000000802CB, .ownSplit { imm := 128 } 2 (.x 8)),
    (0x0000000000000000000802CC, .ownJoin {} 2 (.x 8)),
    (0x0000000000010000090802CD, .ownShare {} .rs 2 (.x 8) (.x 9)),
    (0x0000000000000000000800CE, .ownDrop {} (.x 8)),
    (0x000000000000000000080BCF, .ownQuery {} (.x 11) (.x 8)),
    (0x000000000001000000000ACF, .ownQuerySelf {} (.x 10))] = true := by decide

theorem test_decode_share : readAll [
    (0x000000000000000000040AD0, .shSessOpen {} (.x 10) (.x 4)),
    (0x00005C0A0001000000FF0AD0, .shSessQry { imm := 0x5C0A } (.x 10) .imm),
    (0x000000000000000A07060CD1, .shBeg {} .s16 (.x 12) (.x 6) (some (.x 7)) (.x 10)),
    (0x000000000000400A000610D1, .shBeg {} .tr32 (.x 16) (.x 6) none (.x 10)),
    (0x00000000000000FF0A0C10D2, .shXch {} .s16 (.x 16) (.x 12) (.x 10) .imm),
    (0x000000000000000A100C12D3, .shFin {} .s16 (.x 18) (.x 12) (.x 16) (.x 10)),
    (0x0000000000000000131212D4, .shAdd {} .s16 (.x 18) (.x 18) (.x 19) none),
    (0x000000000001100A131212D5, .shSub {} .s32 (.x 18) (.x 18) (.x 19) (some (.x 10))),
    (0x0000000500001000FF1212D6, .shCmul { imm := 5 } .s32 (.x 18) (.x 18) .imm),
    (0x000000000000100A140812D7, .shTrunc {} .s32 (.x 18) (.x 8) (.x 20) (.x 10)),
    (0x000000000000200A100C12D8, .shAnd {} (.x 18) (.x 12) (.x 16) (.x 10)),
    (0x000000030001200AFF0C12D9, .shXor { imm := 3 } (.x 18) (.x 12) .imm (some (.x 10))),
    (0x00000000000220000A0C12DA, .shCvtA2b {} true (.x 18) (.x 12) (.x 10)),
    (0x00000009000110000A0C12DA, .shCvtB2a { imm := 9 } .s32 false (.x 18) (.x 12) (.x 10)),
    (0x00000001000002FF0A1315DB, .shReveal { guard := 2, imm := 1 } .s16 (.x 21) (.x 19) (.x 10) .imm),
    (0x000000000000000B0D040CDC, .shPool {} .s16 (.x 12) (.x 4) (.x 13) (.x 11)),
    (0x0000000000000000000AC0DD, .shClose {} .zero (.x 10))] = true := by decide

theorem test_decode_privileged : readAll [
    (0x000000030000000000FF04E0, .partQsc { imm := 3 } (.x 4) .imm),
    (0x000000030000000000FF0BE1, .partRes { imm := 3 } (.x 11) .imm),
    (0x0000001500000000FF0605E2, .partWil { imm := 21 } (.x 5) (.x 6) .imm),
    (0x000000030000000008FF07E3, .partWnb { imm := 3 } (.x 7) .imm (.x 8)),
    (0x000000000000000706040AE4, .xltSdRange {} (.x 10) (.x 4) (.x 6) (.x 7)),
    (0x000000000001000700000AE4, .xltSdWorld {} (.x 10) (.x 7)),
    (0x000000000002000000000AE4, .xltSdPart {} (.x 10)),
    (0x0000000500000000FF030AE5, .worldLat { imm := 5 } (.x 10) (.x 3) .imm),
    (0x000000000000000000030AE6, .worldClr {} (.x 10) (.x 3)),
    (0x000000010000000006FF08E7, .fabCfgRoute { imm := 1 } (.x 8) .imm (.x 6)),
    (0x000000010001000009FF08E7, .fabCfgBind { imm := 1 } (.x 8) .imm (.x 9)),
    (0x0000000000020000090308E7, .fabCfgUnbind {} (.x 8) (.x 3) (.x 9)),
    (0x0000000000030000090308E7, .fabCfgPort {} (.x 8) (.x 3) (.x 9)),
    (0x00000000000400000903C0E7, .fabCfgQry {} .zero (.x 3) (.x 9)),
    (0x0000000200000000FF0408E8, .keySet { imm := 2 } (.x 8) (.x 4) .imm)] = true := by decide

/-! ### Terms that are not well formed -/

/-- Each instruction of the list is refused for the case of R32 beside it. -/
def refusedAs (l : List (Instr × Illegal)) : Bool := l.all fun p => decide (p.1.illFormed = some p.2)
/-- Each word of the list is refused by the decoder for the case beside it. -/
def unreadable (l : List (Nat × Illegal)) : Bool :=
  l.all fun p => match decode (BitVec.ofNat 96 p.1) with
    | .ok _ => false
    | .error e => decide (e = p.2)

/-- R32, word by word: unassigned opcodes, a bit in an unused field, type codes, modifiers, reserved specifiers, destinations,
predicate fields and numbers. -/
theorem test_refused_words : unreadable [
    (0x000000000000000000000028, .opcode),
    (0x0000000000000000000000F0, .opcode),
    (0x00000000000000000000009E, .opcode),
    (0x0000000000000000000000EF, .opcode),
    (0x0000000000003000000000B5, .type),
    (0x0000000000005000030201D4, .type),
    (0x0000000000002000000000B7, .type),
    (0x0000000000001000000000B6, .unusedField),
    (0x00000000000000010000005A, .unusedField),
    (0x000000000000000000010056, .unusedField),
    (0x000000000002100003020100, .unusedField),
    (0x000000000001300003020126, .unusedField),
    (0x000000000001800003020135, .unusedField),
    (0x000000000100000000040078, .unusedField),
    (0x00000000000C10000302011D, .modifier),
    (0x000000000080800003020139, .modifier),
    (0x000000000010000003040221, .modifier),
    (0x000000000050E00000040241, .modifier),
    (0x000000002460F00006020975, .modifier),
    (0x000000000C60800006020986, .modifier),
    (0x000000000003000000000065, .modifier),
    (0x000000000003000000000066, .modifier),
    (0x0000000000030000000000E4, .modifier),
    (0x0000000000050000000000E7, .modifier),
    (0x0000000000030000030201C8, .modifier),
    (0x000000000007100000020197, .modifier),
    (0x000000000000100003D00100, .specifier),
    (0x0000000000001000FE020100, .specifier),
    (0x00000000000010000302D000, .specifier),
    (0x00000000000010000302C100, .destination),
    (0x00000000000010000302FF00, .destination),
    (0x00000000000010000302081D, .predicate),
    (0x000000000000F0080302011E, .predicate),
    (0x0000000000000000000080A1, .number),
    (0x0000000000000000000010B9, .number),
    (0x0000000000000000000210A6, .number),
    (0x000000000000000000C001AA, .number)] = true := by decide

/-- R25 to R32 on instructions: types, pairs, immediates, modifiers. -/
theorem test_refused_values : refusedAs [
    (.iadd {} .f32 false (.x 1) (.x 2) (.x 3), .type), (.imulh {} .s16 (.x 1) (.x 2) (.x 3), .type),
    (.iabs {} .u32 false (.x 1) (.x 2), .type), (.iand {} .u32 (.x 1) (.x 2) (.x 3), .type),
    (.iadd {} .u64 false (.x 1) (.x 2) (.x 4), .oddPair), (.iadd {} .u64 false (.x 2) (.x 3) (.x 4), .oddPair),
    (.iadd {} .u64 false (.x 2) (.x 4) (.y 5), .oddPair), (.popc {} .u64 (.x 1) (.x 3), .oddPair),
    (.iadd { imm := 1 } .s32 false (.x 1) (.x 2) (.x 3), .unusedField),
    (.iadd { imm := 0x80 } .s8 false (.x 1) (.x 2) .imm, .immediate),
    (.iadd { imm := 0xFFFFFF80 } .u8 false (.x 1) (.x 2) .imm, .immediate),
    (.imin { imm := 0x8000 } .s16 (.x 1) (.x 2) .imm, .immediate), (.fadd { imm := 0x13F80 } .bf16 .rne (.x 1) (.x 2) .imm, .immediate),
    (.plog { imm := 0x100 } 1 2 3 4, .unusedField), (.lea {} .u16 0 (.x 2) (.x 4) (.x 6), .type),
    (.lea {} .u32 0 (.x 3) (.x 4) (.x 6), .oddPair), (.idp4 {} .s16 false (.x 1) (.x 2) (.x 3) (.x 4), .type),
    (.fadd {} .s32 .rne (.x 1) (.x 2) (.x 3), .type), (.fcvt {} .f32 .f32 .rne false (.x 1) (.x 2), .type),
    (.f2i {} .b32 .f32 .rne (.x 1) (.x 2), .type), (.i2f {} .f32 .s64 .rne (.x 1) (.x 3), .oddPair),
    (.tcvt {} .t1 .f32 .rne (.x 1) (.x 2) none, .type), (.tcvt {} .s32 .t5 .rz (.x 1) (.x 2) none, .modifier),
    (.tcvt {} .t1 .s8 .rne (.x 1) (.x 2) none, .unusedField), (.bxal {} .expA (.x 1) (.x 2) (some (.x 3)), .unusedField),
    (.frcp {} .f32 false .rz (.x 1) (.x 2), .modifier), (.fexp2 {} .u32 false (.x 1) (.x 2), .type)] = true := by decide

theorem test_refused_control : refusedAs [
    (.br { imm := 5 }, .target), (.call { imm := 0xFFFFFFFF }, .target), (.brx {} (.x 3), .oddPair), (.nop { imm := 1 }, .unusedField),
    (.spawn {} 1 (.x 2) (.x 3) (.x 4), .modifier), (.spawn {} 17 (.x 2) (.x 3) (.x 4), .modifier),
    (.exit {} .sys 3 .imm, .immOperand), (.trap { imm := 0x10000 }, .unusedField), (.sys {} (.y 1), .destination),
    (.rdsr { imm := 0x1000 } (.x 1), .unusedField), (.resm {} (.x 1) (.x 2) (some (.x 3)) none, .oddPair),
    (.resm {} (.x 1) (.x 2) none (some .imm), .destination), (.resm {} (.x 1) (.x 2) none (some (.sp .tid)), .destination),
    (.dump {} { ord := .acq } 0 (.x 2) (.x 3), .modifier), (.dump {} {} 5 (.x 2) (.x 3), .modifier)] = true := by decide

theorem test_refused_memory : refusedAs [
    (.ld {} {} .t1 (.x 1) (.x 2), .type), (.ld {} { ord := .rel } .b32 (.x 1) (.x 2), .modifier),
    (.ld {} {} .b32 (.x 1) (.x 3), .oddPair), (.ld {} {} .b32 (.x 1) .imm, .immOperand),
    (.ldu {} {} .b32 (.x 1) (.y 2), .destination), (.ldu {} {} .b32 (.y 1) (.x 2), .specifier),
    (.ld4 {} {} (.x 2) (.x 4), .multiple), (.st {} { space := .k } .b32 (.x 2) (.x 3), .modifier),
    (.st {} {} .b32 (.x 2) .imm, .immOperand), (.ldm {} {} 15 (.x 113) (.x 2), .multiple), (.stm {} {} 1 (.x 2) (.x 127), .multiple),
    (.stz {} { space := .w } (.x 2), .modifier), (.atom {} {} .and .u32 (.x 1) (.x 2) (.x 3), .type),
    (.atom {} { space := .k } .add .u32 (.x 1) (.x 2) (.x 3), .modifier), (.cas {} {} .s32 (.x 1) (.x 2) (.x 3) (.x 4), .type),
    (.atomf {} {} .add .u32 (.x 1) (.x 2) (.x 3), .type), (.fence {} .rlx .sys, .modifier), (.wait { imm := 0x40 }, .unusedField),
    (.inv {} (.x 2) .imm, .immOperand), (.rld {} { space := .l } .b32 (.x 1) (.x 2) (.x 3), .modifier),
    (.rcas {} {} .b32 (.x 1) (.x 2) (.x 3) (.x 4), .multiple), (.rcas {} {} .u64 (.x 2) (.x 2) (.x 6) (.x 4), .multiple),
    (.ldcv {} { space := .k } 1 (.x 2), .modifier), (.mwait {} { ord := .ar } (.x 1) (.x 2) (.x 3) (.x 4), .modifier),
    (.mwait {} { space := .l } (.x 1) (.x 2) (.x 3) (.x 4), .modifier)] = true := by decide

theorem test_refused_engines : refusedAs [
    (.gbar {} .th, .modifier), (.rwait {} .th 1 (.x 2), .modifier), (.vote {} .ballot (.pred 1) 2, .destination),
    (.vote {} .all (.reg (.x 1)) 2, .destination), (.shfl {} .up .s32 (.x 1) (.x 2) (.x 3), .type),
    (.red {} .and .s32 .rne false (.x 1) (.x 2), .type), (.red {} .add .s32 .rz false (.x 1) (.x 2), .modifier),
    (.red {} .min .s32 .rne true (.x 1) (.x 2), .modifier), (.scan {} .add false .f32 .rne true (.x 1) (.x 2), .modifier),
    (.gmatch {} false .s32 (.x 1) (.x 2), .type), (.cpIn {} 3 0 0 (.x 3) none, .oddPair), (.spCfg {} (.y 1) (.x 2), .destination),
    (.mmMmaT11i16 {} 0 false false 3 0 (.x 1), .multiple), (.mmMmaT1i8 { imm := 5 } 0 false false 3 0 (.x 1), .unusedField),
    (.accClr {} true 3, .multiple), (.accRd {} .ring .s32 .rne 0 2, .type), (.accRd {} .bx .f32 .rz 0 2, .modifier),
    (.accRd {} .w48 .s64 .rne 0 3, .multiple), (.sortLoad {} false false false .u64 1 2 none, .type),
    (.sortMerge { imm := 0x40 }, .unusedField), (.sortMatch {} (.x 2) (.x 3), .multiple), (.ownLend {} 1 (.x 2) .imm, .immOperand),
    (.ownRet {} (.x 3), .oddPair), (.shBeg {} .s16 (.x 2) (.x 3) (some (.x 4)) (.x 5), .multiple),
    (.shBeg {} .tr16 (.x 4) (.x 3) (some (.x 4)) (.x 5), .unusedField), (.shXch {} .tr16 (.x 4) (.x 3) (.x 4) (.x 5), .type),
    (.shXch { imm := 0x10000 } .s16 (.x 4) (.x 3) (.x 4) .imm, .immediate), (.shCmul {} .b16 (.x 4) (.x 3) (.x 4), .type),
    (.shFin {} .s32 (.x 4) (.x 4) (.x 4) (.x 5), .multiple), (.shCvtB2a { imm := 0x10 } .s16 false (.x 4) (.x 3) (.x 4), .unusedField),
    (.partWnb {} (.x 4) (.x 3) .imm, .immOperand), (.partQsc {} (.y 4) (.x 3), .destination),
    (.xltSdRange {} (.x 1) (.x 2) .imm (.x 3), .immOperand), (.fabCfgRoute {} (.x 1) (.x 2) (.x 3), .oddPair),
    (.keySet {} (.x 1) (.x 3) (.x 2), .oddPair)] = true := by decide

/-- R42, R191, R261, R361: operands that must be registers, and instructions whose immediate is 0 whatever their operands hold. -/
theorem test_refused_registers : refusedAs [
    (.eret { imm := 1 } .imm, .immOperand), (.eret { imm := 1 } (.x 5), .unusedField), (.kill { imm := 1 } .imm (.x 3), .immOperand),
    (.cpIn {} 3 0 0 (.sp .zero) (some .imm), .immOperand), (.cpIn {} 3 0 0 .imm none, .immOperand),
    (.cpOut { imm := 5 } 3 0 0 (.sp .zero) (some .imm), .unusedField), (.tileFill { imm := 9 } 4 .imm (some .imm), .immOperand),
    (.shTrunc { imm := 5 } .s32 (.x 8) (.x 8) .imm (.x 3), .unusedField), (.shAnd {} (.x 8) (.x 12) (.x 10) .imm, .immOperand),
    (.ld {} {} .b32 (.x 1) (.sp .gid), .specifier)] = true := by decide

/-! ### A small machine: one core of partition 0 runs world 4 -/

def demoThread : Thread :=
  { pc := 0x40010000, quota := 32, prioDue := false, entered := true
    regs := [(1, 0x80000000), (2, 0xFFFFFFFF), (4, 0x80000000), (6, 7), (8, 0x80000001), (10, 0x7F800000), (11, 0xFF800000),
      (12, 0x80000040), (14, 64), (16, 0x7FC00001), (18, 0x404), (20, 3), (22, 0x80000000), (24, 0xB0000000), (25, 127), (26, 0x21),
      (28, 0xC0000000), (30, 1)] }
def demoBundle : Bundle := { core := 0, unit := .thr 0, tids := [0], pc := 0x40010000 }
/-- A line whose only target is slot 0, as `placedLine` of `nop`. -/
def demoFetch : FLine := { world := 4, va := 0x40010000, data := placedLine 0x5A }
def demoLine : L2Line :=
  { world := 4, who := 4, va := 0x80000000, data := 0x0300000002000000010000005, pa := (Config.doorbellFrame 4 + 1) * 4096, perm := { write := true, exec := true } }
/-- One thread, alone on core 0; one line of its world at home, and one in the fetch buffer. -/
def demoState (th : Thread := demoThread) (x : Ctx := {}) : State :=
  { cores := [(0, { Core.init 0 with latch := some 4, fbuf := [demoFetch], ctx := { x with threads := [(0, th)] } })]
    dies := [(0, { l2 := [demoLine] })]
    parts := [(0, { cfg := { quarters := 1 }, pqm := 1, pmil := 0, pmig := 21, pnbp := 0xFFF, actw := 0 })]
    worlds := [(0, { part := 0 }), (4, { part := 0 })]
    focus := some demoBundle }
/-- Whether thread 0 is ready for an instruction that names such registers. -/
def readyNow (s : State) (lv : Level) (u : Uses) (h : Hdr) : Bool :=
  decide (s.focus = some demoBundle) && (match s.thr? 0 0 with
    | some th => th.park.isNone && decide (lv.num ≤ th.level.num) && u.avail th
    | none => false) && guardOk s 0 0 h && !srcMarked s 0 0 u && !s.todo.contains (.rollback 0 (s.unitOf 0 0))
/-- A thread of the state is ready, as the statements ask. -/
def Can (s : State) (lv : Level) (u : Uses) (h : Hdr) : Prop := ∃ th, s.thr? 0 0 = some th ∧ Ready s demoBundle 0 th lv u h
theorem can_of {s : State} {lv : Level} {u : Uses} {h : Hdr} (e : readyNow s lv u h = true) : Can s lv u h := by
  unfold readyNow at e
  cases k : s.thr? 0 0 with
  | none => simp [k] at e
  | some th =>
    simp only [k, Bool.and_eq_true, decide_eq_true_eq, Option.isNone_iff_eq_none, Bool.not_eq_true'] at e
    obtain ⟨⟨⟨⟨f, ⟨p, l⟩, r⟩, g⟩, c⟩, q⟩ := e
    exact ⟨th, k, ⟨f, rfl, k, p, l, r, g, c, q⟩⟩

/-! ### A witness for every statement that has hypotheses: a state and operands that meet them, clause by clause -/

def demoEnv : Env := { c := 0, t := 0 }

theorem witness_IntegerArithmetic :
    Can demoState .app (ofType .s8 [.x 1] (.x 3)) {} ∧ Can demoState .app (ofType .u64 [.x 2, .x 4] .zero) {} ∧
    Can demoState .app (ofType .s32 [.x 1, .x 2, .imm] (.x 5)) { imm := 9 } :=
  ⟨can_of (by decide +kernel), can_of (by decide +kernel), can_of (by decide +kernel)⟩

/-- Division of the least value by −1, of it by 0, and of 7 by 3. -/
theorem witness_IntegerDivision :
    Can demoState .app (ofType .s32 [.x 1, .x 2] (.x 5)) {} ∧ Can demoState .app (ofType .s32 [.x 1, .x 3] (.x 5)) {} ∧
    rdInt .s32 (rdVal demoState demoEnv {} .s32 (.x 1)) = tyMin .s32 ∧ rdInt .s32 (rdVal demoState demoEnv {} .s32 (.x 2)) = -1 ∧
    rdInt .s32 (rdVal demoState demoEnv {} .s32 (.x 3)) = 0 ∧ rdInt .s32 (rdVal demoState demoEnv {} .s32 (.x 6)) = 7 :=
  ⟨can_of (by decide +kernel), can_of (by decide +kernel), by decide +kernel⟩

theorem witness_IntegerLogic :
    Can demoState .app (ofType .u64 [.x 4, .sp .zero] (.x 6)) {} ∧ Can demoState .app (ofType .b32 [.imm] .zero) { imm := 5 } ∧
    Can demoState .app { ofType .b32 [.x 1, .x 2] (.x 3) with ks := [7] } {} :=
  ⟨can_of (by decide +kernel), can_of (by decide +kernel), can_of (by decide +kernel)⟩

/-- Counts of 0, of the width less 1 and of the width. -/
theorem witness_IntegerLogic_shifts :
    Can demoState .app { srcs := wide false [.x 1] ++ one [.imm], dsts := wideD false (.x 5) } { imm := 31 } ∧
    Can demoState .app { srcs := wide true [.x 4] ++ one [.imm], dsts := wideD true (.x 6) } { imm := 64 } ∧
    Can demoState .app { srcs := wide false [.x 4, .x 1] ++ one [.x 3], dsts := wideD false (.x 6) } {} ∧
    Can demoState .app { srcs := wide true [.x 4], dsts := [(.x 6, 1)] } {} ∧ Can demoState .app (ofType .b32 [.x 1] (.x 6)) {} ∧
    rdVal demoState demoEnv {} .u32 (.x 3) = 0 ∧ rdVal demoState demoEnv {} .u32 (.x 1) ≠ 0 :=
  ⟨can_of (by decide +kernel), can_of (by decide +kernel), can_of (by decide +kernel), can_of (by decide +kernel),
    can_of (by decide +kernel), by decide +kernel⟩

theorem witness_IntegerFields :
    Can demoState .app (ofWords [.x 1, .imm] (.x 5)) { imm := 0xFF1F } ∧ Can demoState .app (ofWords [.x 1, .x 2, .imm] (.x 5)) { imm := 0x2000 } :=
  ⟨can_of (by decide +kernel), can_of (by decide +kernel)⟩

theorem witness_IntegerPredicates :
    Can demoState .app { srcs := wide true [.x 4, .x 6] } {} ∧ Can demoState .app { ks := [0, 3, 7] } { imm := 0x80 } ∧
    Can demoState .app { srcs := wide true [.x 4] ++ wide false [.x 2], dsts := wideD true (.x 30) } {} ∧
    Can demoState .app { ofType .u32 [.x 2, .imm] (.x 5) with ks := [0] } { imm := 1 } :=
  ⟨can_of (by decide +kernel), can_of (by decide +kernel), can_of (by decide +kernel), can_of (by decide +kernel)⟩

theorem witness_IntegerBytes :
    Can demoState .app (ofWords [.x 1, .imm, .sp .zero] (.x 5)) { imm := 0x0901F805 } ∧ Can demoState .app (ofWords [.x 1, .x 2] (.x 5)) {} ∧
    Ty.bits .s16 = 16 ∧ Ty.bits .u8 = 8 :=
  ⟨can_of (by decide +kernel), can_of (by decide +kernel), by decide +kernel⟩

theorem witness_ArithmeticFrame :
    (∃ a, aluOf (.iadd { imm := 1 } .s32 true (.x 5) (.x 6) .imm) = some a ∧ Can demoState .app a.2.uses a.2.h) ∧
    (∃ a, aluOf (.fcmp {} .f32 .un 3 (.x 10) (.x 16)) = some a ∧ Can demoState .app a.2.uses a.2.h) ∧
    (∃ a, aluOf (.isubb {} .u64 5 (.x 8) (.sp .ccnt) (.x 6) 1) = some a ∧ Can demoState .app a.2.uses a.2.h) :=
  ⟨⟨_, rfl, can_of (by decide +kernel)⟩, ⟨_, rfl, can_of (by decide +kernel)⟩, ⟨_, rfl, can_of (by decide +kernel)⟩⟩

/-- Infinities of both signs, a NaN, a zero. -/
theorem witness_FloatArithmetic :
    Can demoState .app (ofWords [.x 10, .x 11] (.x 5)) {} ∧ Can demoState .app (ofWords [.x 10, .x 3, .x 16] (.x 5)) {} ∧
    (Ty.fmt .f32).isInf (pat demoState demoEnv {} .f32 (.x 10)) = true ∧ (Ty.fmt .f32).isInf (pat demoState demoEnv {} .f32 (.x 11)) = true ∧
    (Ty.fmt .f32).isNan (pat demoState demoEnv {} .f32 (.x 16)) = true ∧ (Ty.fmt .f32).isZero (pat demoState demoEnv {} .f32 (.x 3)) = true :=
  ⟨can_of (by decide +kernel), can_of (by decide +kernel), by decide +kernel⟩

theorem witness_FloatOrder :
    Ty.isFloat .bf16 = true ∧ Can demoState .app (ofWords [.x 16] (.x 5)) {} ∧ Can demoState .app (ofWords [.x 1, .x 3] (.x 5)) {} ∧
    Can demoState .app { srcs := one [.x 16, .x 3], kds := [7] } {} ∧
    (Ty.fmt .f32).isSub (pat demoState demoEnv {} .f32 (.x 6)) = true ∧ (Ty.fmt .f32).sign (pat demoState demoEnv {} .f32 (.x 1)) = true :=
  ⟨by decide +kernel, can_of (by decide +kernel), can_of (by decide +kernel), can_of (by decide +kernel), by decide +kernel⟩

theorem witness_Conversions :
    Can demoState .app { srcs := one [.x 10], dsts := [(.x 5, 1)] } {} ∧
    Can demoState .app { srcs := one [.x 28], dsts := wideD true (.x 30) } {} ∧
    Can demoState .app { srcs := wide true [.x 4], dsts := [(.x 5, 1)] } {} ∧
    Can demoState .app { srcs := one [.x 16, .x 6], dsts := [(.x 5, 1)] } {} :=
  ⟨can_of (by decide +kernel), can_of (by decide +kernel), can_of (by decide +kernel), can_of (by decide +kernel)⟩

/-- The table's rows at both zeros and both infinities; the ends of the reduced domains. -/
theorem witness_Functions :
    Can demoState .app (ofWords [.x 11] (.x 5)) {} ∧ Can demoState .app (ofWords [.imm] (.x 5)) { imm := 0x80000000 } ∧
    firstNan (Ty.fmt .f32) [0x7F800001] = some 0x7FC00001 ∧
    (∀ x ∈ [0xC0000000, 0x43800001, 0x7E800001, 0x43000000],
      x < 2 ^ 32 ∧ (Ty.fmt .f32).isNan x = false ∧ (Ty.fmt .f32).isInf x = false ∧ (Ty.fmt .f32).isZero x = false) ∧
    (Ty.fmt .f32).sign 0xC0000000 = true ∧ (Ty.fmt .f32).isSub 0xC0000000 = false ∧ (Ty.fmt .f32).mag 0x43800001 > 0x43800000 ∧
    (Ty.fmt .f32).mag 0x7E800001 > 0x7E800000 ∧ (Ty.fmt .f32).sign 0x43000000 = false ∧ 0x43000000 ≤ (Ty.fmt .f32).mag 0x43000000 :=
  ⟨can_of (by decide +kernel), can_of (by decide +kernel), by decide +kernel⟩

/-- The demo machine with no line at home. -/
def bareState (th : Thread := demoThread) (x : Ctx := {}) : State := { demoState th x with dies := [] }
def ofLevel (lv : Level) : Thread := { demoThread with level := lv }
/-- Pairs x20, x21 hold the PC of the line that is fetched, which is a target. -/
def atTarget (th : Thread) : Thread := { th with regs := (th.regs.set 0 20 0x40010000).set 0 21 0 }
/-- n counted operations of thread 0. -/
def opsOf (n : Nat) (k : Cls) : List Op := (List.range n).map fun i => { id := i, tid := 0, cls := k, pc := 0, body := .engine }
/-- The thread in slot 0 of group 3. -/
def inGroup (x : Ctx := {}) (th : Thread := demoThread) : State :=
  bareState { th with grp := some (3, 0) } { x with groups := [(3, { key := 1, want := 1, slice := 2, formed := true, mem := [(0, 0)] })] }

/-- A target that is one, one that is not, an address that is no instruction's; four, no and one return address on the chip. -/
theorem witness_ControlTransfers :
    Can bareState .app {} { imm := 0 } ∧ Can (bareState (atTarget demoThread)) .app { srcs := wide true [.x 20] } {} ∧
    rdPair (bareState (atTarget demoThread)) demoEnv {} (.x 20) = 0x40010000 ∧
    checkTarget bareState 0 0x40010000 = (bareState, none) ∧ (bareState.thr? 0 0).isSome = true ∧
    fbuf? bareState 0 0x4001000C = some demoFetch ∧ (targetMask demoFetch.data).getLsbD 1 = false ∧ isInstrAddr 0x4001000C = true ∧
    isInstrAddr 0x40010001 = false ∧
    Can (bareState { demoThread with stack := [1, 2, 3, 4], spLimit := 8, spBase := 0x80000000 }) .app {} {} ∧
    Can (bareState { demoThread with stack := [0x40010000] }) .app {} {} ∧
    Can bareState .app { srcs := [(.x 4, 2), (.imm, 1)] } { imm := 64 } :=
  by refine ⟨can_of ?_, can_of ?_, ?_, ?_, ?_, ?_, ?_, ?_, ?_, can_of ?_, can_of ?_, can_of ?_⟩ <;> decide +kernel

theorem witness_ThreadEnds :
    Can bareState .app { srcs := [(.x 4, 2), (.imm, 1), (.x 6, 1)] } { imm := 1 } ∧
    (rdWord bareState demoEnv { imm := 1 } .imm).toNat % 65536 ≠ 0 ∧ (bareState.core 0).steal.queue.length < 256 ∧
    releaseReady bareState 0 0 .pkg = true ∧ Can bareState .app {} {} ∧ bareState.count 0 0 .loads = 0 ∧
    Can (bareState demoThread { ops := opsOf 1 .loads }) .app {} {} ∧ (bareState demoThread { ops := opsOf 1 .loads }).count 0 0 .loads > 0 ∧
    Can bareState .app { srcs := wide true [.x 4] } { imm := 2 } ∧ addrOf bareState demoEnv { imm := 2 } .g (.x 4) % 4 ≠ 0 ∧
    Can (bareState demoThread { ops := opsOf 1 .stores }) .app { srcs := wide true [.x 4] } {} ∧
    addrOf bareState demoEnv {} .g (.x 4) % 4 = 0 ∧ demoThread.fails = [] :=
  by refine ⟨can_of ?_, ?_, ?_, ?_, can_of ?_, ?_, can_of ?_, ?_, can_of ?_, ?_, can_of ?_, ?_, ?_⟩ <;> decide +kernel

theorem witness_TrapsAndQuiet :
    Can bareState .app {} {} ∧ Can bareState .app { dsts := [(.x 31, 1)] } {} ∧ Can bareState .app { srcs := one [.imm] } { imm := 1 } ∧
    Can bareState .app { srcs := one [.sp .zero] } {} :=
  ⟨can_of (by decide +kernel), can_of (by decide +kernel), can_of (by decide +kernel), can_of (by decide +kernel)⟩

/-- A number with no register, a register above the thread's level, and one that it may write. -/
theorem witness_SystemRegisters :
    Can bareState .app { dsts := [(.x 5, 1)] } { imm := 0x004 } ∧ regLevel 0x004 = some .app ∧ regLevel 0xFFF = none ∧
    Can bareState .app { srcs := one [.x 6] } { imm := 0x190 } ∧ regLevel 0x190 = some .handler ∧
    demoThread.level.num < Level.num .handler ∧ Can (bareState (ofLevel .handler)) .app { srcs := one [.x 6] } { imm := 0x190 } ∧
    ((writeReg (bareState (ofLevel .handler)) 0 0 0x190 7).thr? 0 0).isSome = true ∧ bareState.thr? 0 0 = some demoThread :=
  by refine ⟨can_of ?_, ?_, ?_, can_of ?_, ?_, ?_, can_of ?_, ?_, ?_⟩ <;> decide +kernel

/-- A handler, and a parked sub-bundle of one other thread. -/
def withParked : State :=
  (bareState (ofLevel .handler) { parked := [{ id := 5, unit := .thr 7, mems := [(0, 7)], pc := 0x40010000, code := 0x18, next := 0x4001000C }] }).modCtx 0
    fun x => { x with threads := x.threads ++ [(7, { demoThread with park := some 5 })] }
theorem witness_HandlerControl :
    Can withParked .handler { srcs := one [.x 6] } {} ∧ (rdWord withParked demoEnv {} (.x 6)).toNat = 7 ∧
    (withParked.ctx 0).parked.any (fun p => p.mems.any (·.2 == 7)) = true ∧ (withParked.thr? 0 7).isSome = true ∧
    Can withParked .handler { srcs := one [.x 6, .x 2] ++ wide true [.x 20] } {} ∧ (rdWord withParked demoEnv {} (.x 2)).getLsbD 0 = true ∧
    Can withParked .handler { srcs := one [.imm, .x 2] } { imm := 9 } ∧
    (∀ p ∈ (withParked.ctx 0).parked, p.mems.any (·.2 == 9) = false) ∧
    (∀ k ∈ [Cls.loads, .stores, .copies, .tileops], withParked.count 0 7 k = 0) ∧ (withParked.ctx 0).cvs = [] ∧
    Can (inGroup {} (ofLevel .handler)) .handler { srcs := one [.sp .zero, .x 2] } {} ∧
    ((inGroup {} (ofLevel .handler)).thr? 0 0).bind (·.grp) = some (3, 0) ∧
    Can bareState .app { srcs := one [.x 6, .x 2] } {} ∧ demoThread.level = .app :=
  by refine ⟨can_of ?_, ?_, ?_, ?_, can_of ?_, ?_, can_of ?_, ?_, ?_, ?_, can_of ?_, ?_, can_of ?_, ?_⟩ <;> decide +kernel

theorem witness_HandlerDebug :
    Can withParked .handler { dsts := [(.x 5, 1)] } {} ∧ Can withParked .handler { srcs := one [.imm] } { imm := 2 } ∧
    Can withParked .handler { srcs := one [.imm] } { imm := 3 } ∧
    Can withParked .handler { srcs := baseUses .g (.x 4) ++ one [.x 6] } {} ∧ addrOf withParked demoEnv {} .g (.x 4) % 64 = 0 ∧
    (dumpData withParked demoEnv 0 7).isSome = true ∧ dumpData withParked demoEnv 0 9 = none :=
  by refine ⟨can_of ?_, can_of ?_, can_of ?_, can_of ?_, ?_, ?_, ?_⟩ <;> decide +kernel

theorem witness_RegisterFile :
    (inGroup).thr? 0 0 = some { demoThread with grp := some (3, 0) } ∧ ((inGroup).group? 0 3).isSome = true ∧
    demoThread.hazard.contains 31 = false ∧ demoThread.hazard.contains (128 + 63) = false ∧ (30 : Nat) ≠ 31 ∧
    BitVec.toNat (30#7) % 2 = 0 := by decide +kernel

/-- An atomic of thread 0 on the first word of its scratchpad. -/
def demoRmw : Op := { id := 0, tid := 0, cls := .loads, pc := 0, body := .rmw .l 0 4 (.int .add .u32 1) (.x 5) .rlx .core none }
/-- Accepted up to the 63rd, at both ends of the scratchpad. -/
theorem witness_LoadsAccepted :
    let m : MMod := { ord := .rlx, scope := .core, evict := 3, space := .l }
    Can bareState .app (loadUses m (.sp .zero) (.x 5) 1) { imm := 786428 } ∧ Can bareState .app (loadUses m (.sp .zero) (.x 4) 2) { imm := 4 } ∧
    Can (bareState demoThread { ops := opsOf 63 .loads }) .app (loadUses m (.sp .zero) (.x 8) 4) {} ∧
    (bareState demoThread { ops := opsOf 63 .loads }).count 0 0 .loads = 63 ∧
    (bareState demoThread { ops := opsOf 62 .loads }).count 0 0 .loads = 62 ∧
    Can (bareState demoThread { ops := opsOf 62 .loads }) .app (loadUses m (.sp .zero) (.x 8) 4) {} ∧
    (accessCheck bareState demoEnv .l 786428 4 4 .load).isOk = true ∧ (accessCheck bareState demoEnv .l 786432 4 4 .load).isOk = false ∧
    isAcq m.ord = false ∧ isAcq .acq = true ∧ acqReady bareState demoEnv { m with ord := .acq } 0 4 [] = none ∧
    acqReady (bareState demoThread { nextOp := 1, ops := [demoRmw] }) demoEnv
      { m with ord := .acq } 0 4 [] ≠ none :=
  by refine ⟨can_of ?_, can_of ?_, can_of ?_, ?_, ?_, can_of ?_, ?_, ?_, ?_, ?_, ?_, ?_⟩ <;> decide +kernel

/-- A token over the first page of the demo line's, held by the demo thread. -/
def demoToken (m : TMode) (o : Word) (l : List Word) : Token := { base := 0x80000000, n := 12, world := 4, mode := m, owner := o, holders := l, count := l.length }
def withToken (t : Token) (th : Thread := demoThread) (x : Ctx := {}) : State := { bareState th x with dies := [(0, { tokens := [t] })] }
/-- The identifier of the demo thread as an agent. -/
def demoAgent : Word := bareState.agentId 0 0

/-- The last byte that each array has and the first that it has not; tiles that fill and drain; each mode of a token. -/
theorem witness_AccessChecks :
    (accessCheck bareState demoEnv .g 2 4 4 .load).isOk = false ∧
    (786429 % 1 = 0 ∧ 786429 + 3 ≤ 65536 * (16 - (bareState.ctx 0).l1units) ∧ 786429 + 4 > 65536 * (16 - (bareState.ctx 0).l1units)) ∧
    (let s := bareState demoThread { tiles := [(0, { off := 64, rows := 1, cols := 16, esz := 4, st := .filling })] }
     (∃ p ∈ (s.ctx 0).tiles, p.2.meets 127 1 = true) ∧ ∀ p ∈ (s.ctx 0).tiles, p.2.meets 128 1 = false) ∧
    (accessCheck bareState demoEnv .w 262140 4 4 .store).isOk = true ∧ (accessCheck bareState demoEnv .w 262144 4 4 .store).isOk = false ∧
    (rangeCheck bareState 0 4 0x80000000 4 .load).isOk = false ∧ bareState.worldOf 0 = 4 ∧ bareState.l2? 4 (lineVa 0x40010000) = none ∧
    bareState.token? 4 0x80000000 = none ∧ demoAgent ≠ 0 ∧
    (let s := withToken (demoToken .write demoAgent [])
     (s.token? 4 0x80000FFF).isSome = true ∧ s.token? 4 0x80001000 = none ∧ tokenCheck s 4 demoAgent 0x80000FFF .store = none) ∧
    (∀ m ∈ [TMode.rs, .at], ((withToken (demoToken m demoAgent [demoAgent])).token? 4 0x80000000).map (·.mode) = some m) := by
  decide +kernel

def demoLoad (val : Option (List Byte)) : Op := { id := 1, tid := 0, cls := .loads, pc := 0, body := .load .l 0 4 .b32 (.x 5) .rlx .core val }
/-- A load that has its value, one that reads the scratchpad, and one with a store of the same word before it. -/
theorem witness_LoadsComplete :
    (bareState demoThread { nextOp := 2, ops := [demoLoad none] }).op? 0 1 = some (demoLoad none) ∧
    loadReady (bareState demoThread { nextOp := 2, ops := [demoLoad none] }) 0 (demoLoad none) = true ∧
    loadReady (bareState demoThread { nextOp := 2, ops := [demoLoad (some [1, 2, 3, 4])] }) 0 (demoLoad (some [1, 2, 3, 4])) = true ∧
    (let st : Op := { id := 0, tid := 0, cls := .stores, pc := 0, body := .store .l 0 [1, 2, 3, 4] .rlx .core }
     (older (bareState demoThread { nextOp := 2, ops := [st, demoLoad none] } |>.ctx 0) 1).getLast? = some st) ∧
    loadReady (bareState demoThread { nextOp := 2, ops := [demoRmw, demoLoad none] }) 0 (demoLoad none) = false := by decide +kernel

def demoStore (sp : Space) (va : Nat) (l : List Byte) : Op :=
  { id := 1, tid := 0, cls := .stores, pc := 0, world := 4, body := .store sp va l .rlx .core,
    homes := if sp == .g then [{ va := va / 128 * 128, pa := some 0x200000, perm := { write := true } }] else [] }
theorem witness_Stores :
    let m : MMod := { ord := .rlx, scope := .core, evict := 3, space := .l }
    Can bareState .app (storeUses m (.sp .zero) (.x 6) 1) { imm := 786428 } ∧ Can bareState .app (storeUses m (.sp .zero) (.x 4) 4) {} ∧
    Can bareState .app { srcs := baseUses .l (.sp .zero) } { imm := 128 } ∧
    Can (bareState demoThread { ops := opsOf 63 .stores }) .app (storeUses m (.sp .zero) (.x 6) 1) {} ∧
    (bareState demoThread { ops := opsOf 63 .stores }).count 0 0 .stores = 63 ∧ bareState.count 0 0 .stores < 63 ∧
    (accessCheck bareState demoEnv .l 786428 4 4 .store).isOk = true ∧ (accessCheck bareState demoEnv .l 0 128 128 .store).isOk = true ∧
    storeWait bareState demoEnv m = none ∧
    storeWait (bareState demoThread { nextOp := 2, ops := [demoRmw] }) demoEnv { m with ord := .rel } ≠ none ∧
    (bareState demoThread { nextOp := 2, ops := [demoStore .l 4 [7]] }).op? 0 1 = some (demoStore .l 4 [7]) ∧
    (∀ o ∈ [demoStore .l 4 [7], demoStore .w 4 [7], demoStore .g 0x8000007F [7]],
      storeReady (bareState demoThread { nextOp := 2, ops := [o] }) 0 o = true) ∧
    windowLine bareState 4 0x80000000 = false ∧ 0x8000007F % 128 + 1 ≤ 128 :=
  by refine ⟨can_of ?_, can_of ?_, can_of ?_, can_of ?_, ?_, ?_, ?_, ?_, ?_, ?_, ?_, ?_, ?_, ?_⟩ <;> decide +kernel

theorem witness_AtomicsAccepted :
    let m : MMod := { ord := .rlx, scope := .core, evict := 3, space := .l }
    Can bareState .app (rmwUses m true (.sp .zero) [.x 4] (.x 6)) { imm := 8 } ∧ Can bareState .app (rmwUses m false (.sp .zero) [.x 4, .x 5] (.x 6)) {} ∧
    Can (bareState demoThread { ops := opsOf 63 .loads }) .app (rmwUses m false (.sp .zero) [.x 4] (.x 6)) {} ∧
    (bareState demoThread { ops := opsOf 63 .loads }).count 0 0 .loads = 63 ∧
    (accessCheck bareState demoEnv .l 8 8 8 .atomic).isOk = true ∧ (accessCheck bareState demoEnv .l 4 8 8 .atomic).isOk = false ∧
    rmwWait bareState demoEnv m 8 8 [] = none ∧
    rmwWait (bareState demoThread { nextOp := 2, ops := [demoStore .l 8 [7]] }) demoEnv { m with ord := .rel } 8 8 [] ≠ none ∧
    isAcq m.ord = false ∧ doorOk 60 (.int .or .u32 1) = true ∧ doorOk 64 (.int .or .u32 1) = false :=
  by refine ⟨can_of ?_, can_of ?_, can_of ?_, ?_, ?_, ?_, ?_, ?_, ?_, ?_, ?_⟩ <;> decide +kernel

/-- A word at the end of the scratchpad. -/
theorem witness_AtomicsPerformed :
    markedBytes bareState 0 false 786428 4 = false ∧ windowLine bareState 4 0x80000000 = false ∧
    poisoned bareState 4 0x80000078 8 [{ va := 0x80000000, pa := some 0x200000 }] = false ∧ 0x80000078 % 128 + 8 ≤ 128 := by decide +kernel
theorem witness_AtomicsPerformed_home : isDoorbell 4 { va := 0x80000000, pa := some ((Config.doorbellFrame 4 + 1) * 4096) } = false := by
  have : (Config.doorbellFrame 4 + 1) * 4096 / 4096 = Config.doorbellFrame 4 + 1 := Nat.mul_div_cancel _ (by decide)
  simp [isDoorbell]

theorem witness_OrderAndRanges :
    Can bareState .app { srcs := baseUses .g (.x 4) } {} ∧ (globalCheck bareState 0 0 0x80000000 1 .load).isOk = false ∧
    Can bareState .app {} { imm := 0x3F3F3F3F } ∧ isRel .rel = true ∧
    releaseReady (bareState demoThread { nextOp := 2, ops := [demoStore .l 8 [7]] }) 0 0 .core = false ∧
    releaseReady bareState 0 0 .sys = true ∧ loadsSettled bareState 0 0 = true ∧
    (let s := bareState demoThread { ops := opsOf 1 .copies }
     Can s .app {} { imm := 0x3F003F3F } ∧ 0x3F003F3F / 65536 % 64 < s.count 0 0 .copies) ∧
    Can (bareState { demoThread with fails := [{ code := 0x09, pc := 0 }] }) .app {} {} ∧
    Can bareState .app { srcs := wide true [.x 4] ++ one [.imm] } { imm := 128 } ∧ addrOf bareState demoEnv { imm := 128 } .g (.x 4) % 128 = 0 ∧
    Can bareState .app { srcs := wide true [.x 4] ++ one [.imm] } { imm := 64 } ∧
    (flushCheck bareState 0 4 0x80000000 128).isOk = false :=
  by refine ⟨can_of ?_, ?_, can_of ?_, ?_, ?_, ?_, ?_, ⟨can_of ?_, ?_⟩, can_of ?_, can_of ?_, ?_, can_of ?_, ?_⟩ <;> decide +kernel

theorem witness_CacheEvents :
    (let s := bareState.modCore 0 fun k => { k with l1 := [{ world := 4, va := 0x80000000, data := 0 }] }
     ∃ l ∈ (s.core 0).l1, l.world = 4 ∧ l.va = 0x80000000) ∧
    (let s := bareState.modCore 0 fun k => { k with sigs := [(1, (3, 5))] }; (s.core 0).sigs.rising 0 = true) ∧
    (let o := demoStore .g 0x80000000 [7]
     (∃ h ∈ o.homes, h.va = 0x80000000) ∧ bareState.l2? 4 0x80000000 = none) ∧
    (let o : Op := { id := 1, tid := 0, cls := .stores, pc := 0, world := 4, body := .flush 0x80000000 128 }
     let s := { bareState demoThread { nextOp := 2, ops := [o] } with
       bark := [(0x20, { part := some 0, world := some 4 })], dies := [(0, { l2 := [{ world := 4, who := 4, va := 0x80000000, data := 5, pa := 0x200000, perm := {}, dirty := true }] })] }
     let s' := bareState demoThread { nextOp := 2, ops := [{ demoStore .g 0x80000000 [7] with id := 0 }, o] }
     s.op? 0 1 = some o ∧ flushReady s 0 o = true ∧ s'.op? 0 1 = some o ∧ flushReady s' 0 o = false ∧ rangesMeet 0x80000000 128 0x80000000 128 = true ∧ (s.die 0).l2.all (fun l => l.dirty && backOk s l) = true) ∧
    (let o := { demoStore .l 4 [7] with retired := some 0 }
     (bareState demoThread { nextOp := 2, ops := [o] }).op? 0 1 = some o) := by decide +kernel

/-- The home of the demo line, as the checks of an access find it. -/
def demoHome : Home :=
  { va := 0x80000000, pa := some ((Config.doorbellFrame 4 + 1) * 4096), perm := { write := true, exec := true }, who := 4 }
theorem demo_no_doorbell (w : Nat) (e : w = 4) : isDoorbell w demoHome = false := by
  subst e
  have : (Config.doorbellFrame 4 + 1) * 4096 / 4096 = Config.doorbellFrame 4 + 1 := Nat.mul_div_cancel _ (by decide)
  simp [isDoorbell, demoHome]
/-- The global checks of an access to the demo line that its range and its token let through. -/
theorem demo_global {s s' : State} {va n : Nat} {k : Acc} {sg : Nat × Nat × Nat × Nat} (w : s.actWorld 0 0 = 4) (g : segs va n = [sg])
    (r : rangeCheck s 0 4 va n k = .ok [demoHome]) (t : tokenCheck s 4 (s.agentId 0 0) (demoHome.va + sg.2.1) k (fun _ => false) = none)
    (f : noteSecondary (cacheLeaf s 4 sg.1) 4 sg.1 demoHome = s') : globalCheck s 0 0 va n k = .ok (s', [demoHome]) := by
  have d := demo_no_doorbell 4 rfl
  simp [globalCheck, w, r, g, d, tokenStep, t, f]
/-- An access to the demo line that passes every check. -/
theorem demo_access {s s' : State} {va n al : Nat} {k : Acc} (ha : va % al = 0)
    (e : globalCheck s 0 0 va n k = .ok (s', [demoHome])) : accessCheck s demoEnv .g va n al k = .ok (s', va, [demoHome]) := by
  rw [accessCheck, if_neg (by simp [ha])]
  show globalAccess s demoEnv va n k = _
  rw [globalAccess, show demoEnv.c = 0 from rfl, show demoEnv.t = 0 from rfl, e]
/-- The demo machine with the demo region in ATOMIC mode, held by the demo thread. -/
def demoAtomic : State := { demoState with dies := [(0, { l2 := [demoLine], tokens := [demoToken .at demoAgent [demoAgent]] })] }

/-- A load and a watch of the demo line, and an atomic, are accepted. -/
theorem witness_global :
    accessCheck demoState demoEnv .g 0x80000000 4 4 .load = .ok (demoState, 0x80000000, [demoHome]) ∧
    accessCheck demoState demoEnv .g 0x80000000 4 4 .watch = .ok (demoState, 0x80000000, [demoHome]) ∧
    accessCheck demoAtomic demoEnv .g 0x80000000 4 4 .atomic = .ok (demoAtomic, 0x80000000, [demoHome]) :=
  ⟨demo_access rfl (demo_global (by decide +kernel) rfl rfl (by decide +kernel) rfl),
    demo_access rfl (demo_global (by decide +kernel) rfl rfl (by decide +kernel) rfl),
    demo_access rfl (demo_global (by decide +kernel) rfl rfl (by decide +kernel) rfl)⟩
/-- `exit` at an address in ATOMIC mode, with nothing outstanding. -/
theorem witness_ThreadEnds_exit :
    Can demoAtomic .app { srcs := wide true [.x 4] } {} ∧ addrOf demoAtomic demoEnv {} .g (.x 4) = 0x80000000 ∧
    accessCheck demoAtomic demoEnv .g 0x80000000 4 4 .atomic = .ok (demoAtomic, 0x80000000, [demoHome]) ∧ isDoorbell 4 demoHome = false ∧
    releaseReady demoAtomic 0 0 .sys = true ∧ lineBusy (demoAtomic.ctx 0) (demoAtomic.ctx 0).nextOp 4 demoHome.va = false :=
  ⟨can_of (by decide +kernel), by decide +kernel, witness_global.2.2, demo_no_doorbell 4 rfl, by decide +kernel, by decide +kernel⟩
/-- The line of a fifth call's spill is at home. -/
def spillThread : Thread := { demoThread with stack := [1, 2, 3, 4], spLimit := 8, spBase := 0x80000000 }
theorem spill_range : rangeCheck (demoState spillThread) 0 4 0x80000000 8 .store = .ok [demoHome] := by rfl
theorem witness_ControlTransfers_spill : ∃ s2, spillCheck (demoState spillThread) demoEnv 0x80000000 .store = .ok s2 [demoHome] := by
  have w : (demoState spillThread).actWorld demoEnv.c demoEnv.t = 4 := by decide +kernel
  have d := demo_no_doorbell _ w
  have e : rangeCheck (demoState spillThread) demoEnv.c ((demoState spillThread).actWorld demoEnv.c demoEnv.t) 0x80000000 8 .store = .ok [demoHome] := by
    rw [w]; exact spill_range
  have f : loadsSettled (demoState spillThread) demoEnv.c demoEnv.t = true := by decide +kernel
  have g : lineBusy ((demoState spillThread).ctx demoEnv.c) ((demoState spillThread).ctx demoEnv.c).nextOp
    ((demoState spillThread).actWorld demoEnv.c demoEnv.t) demoHome.va = false := by decide +kernel
  unfold spillCheck
  simp only [e, List.any_cons, List.any_nil, d, f, List.find?_cons, g]
  exact ⟨_, rfl⟩

/-! A device of the fabric: world 4 is bound to world 9 of device 6, and back, by key slot 1, over port 0. -/

def demoBind : Bind := { dev := 6, world := 4, peer := 9, slot := 1 }
def fabState (th : Thread := demoThread) (x : Ctx := {}) : State :=
  { bareState th x with
    keys := [(1, { key := [], iv := [], ports := 9, world := 4 })]
    fab := { devno := 5, ports := [(0, { up := true })], routes := [(6, 1)], binds := [demoBind] } }

/-- Devices 575 and 576, 1023 and 1024; a load, which needs no token, and a store, which does. -/
theorem witness_RemoteIssue :
    Can fabState .app (remoteUses (.x 4) .imm [] (.x 6) true) { imm := 6 } ∧
    Can fabState .app (remoteUses (.x 4) .imm [(.x 8, 4)] (.x 6) true) { imm := 575 } ∧ fabState.count 0 0 .loads < 63 ∧
    addrOf fabState demoEnv { imm := 6 } .g (.x 4) % 2 = 0 ∧ addrOf fabState demoEnv { imm := 6 } .g (.x 4) % 8 ≠ 0 ∧ fabState.fab.devno ≠ 1023 ∧
    fabState.bind? 6 4 = some demoBind ∧ fabState.bind? 7 4 = none ∧ (fabState.worlds.look 4).isSome = true ∧ fabState.lostTo 0 6 = false ∧
    fabState.pickPort 0 6 0x80000006 = some 0 ∧ keyOk fabState 1 4 3 = true ∧ keyOk fabState 2 4 3 = false ∧ fabState.txCtr 0 1 < ctrLast ∧
    mirrorCheck fabState 6 4 demoAgent 0x80000006 .load = none ∧ mirrorCheck fabState 6 4 demoAgent 0x80000006 .store = some 0x06 :=
  by refine ⟨can_of ?_, can_of ?_, ?_, ?_, ?_, ?_, ?_, ?_, ?_, ?_, ?_, ?_, ?_, ?_, ?_, ?_⟩ <;> decide +kernel

def demoReq : RemReq :=
  { src := 6, dest := 5, id := 3, world := 4, kind := .load, va := 0x80000004, size := 4, ty := .u32, ord := .rlx, scope := .sys, data := 0, data2 := 0, pc := 0 }
def demoRemote (a : Option RemAns) : Op := { id := 1, tid := 0, cls := .loads, pc := 0, body := .remote demoReq (.x 5) true a }
def waitingFor (a : Option RemAns) : State := fabState demoThread { nextOp := 2, ops := [demoRemote a] }
theorem witness_RemoteAccess :
    fabState.bind? 6 4 = some demoBind ∧ fabState.bind? 6 9 = none ∧ (homeCheck fabState 4 4 0x80000004 .load).isOk = false ∧
    (waitingFor none).op? 0 1 = some (demoRemote none) ∧ (demoRemote none).retired = none ∧ ((waitingFor none).thr? 0 0).isSome = true ∧
    (waitingFor (some { id := 1, code := none, val := 7 })).op? 0 1 = some (demoRemote (some { id := 1, code := none, val := 7 })) := by
  decide +kernel
theorem witness_RemoteAccess_home : homeCheck demoState 4 4 0x80000004 .load =
    .ok demoHome := rfl

/-! Threads 0 and 1 of group 3, in slices of two. -/

def pairBundle : Bundle := { core := 0, unit := .grp 3, tids := [0, 1], pc := 0x40010000 }
def pairState : State :=
  { (bareState demoThread { groups := [(3, { key := 1, want := 2, slice := 2, formed := true, mem := [(0, 0), (1, 1)] })] }).modCtx 0 (fun x => { x with
      threads := [(0, { demoThread with grp := some (3, 0) }), (1, { demoThread with grp := some (3, 1) })] }) with
    focus := some pairBundle }
def teamNow (s : State) (b : Bundle) (lv : Level) (u : Uses) (h : Hdr) : Bool :=
  decide (s.focus = some b) && !b.tids.isEmpty && decide b.tids.Nodup && b.tids.all fun t => (match s.thr? b.core t with
    | some th => th.park.isNone && decide (lv.num ≤ th.level.num) && u.avail th
    | none => false) && guardOk s b.core t h && !srcMarked s b.core t u
theorem team_of {s : State} {b : Bundle} {lv : Level} {u : Uses} {h : Hdr} (e : teamNow s b lv u h = true) : Team s b lv u h := by
  simp only [teamNow, Bool.and_eq_true, decide_eq_true_eq, Bool.not_eq_true', List.all_eq_true] at e
  obtain ⟨⟨⟨f, n⟩, d⟩, r⟩ := e
  refine ⟨f, by intro z; simp [z] at n, d, fun t m => ?_⟩
  obtain ⟨⟨l, g⟩, c⟩ := r t m
  cases k : s.thr? b.core t with
  | none => simp [k] at l
  | some th =>
    simp only [k, Bool.and_eq_true, decide_eq_true_eq, Option.isNone_iff_eq_none] at l
    exact ⟨th, rfl, l.1.1, l.1.2, l.2, g, c⟩

theorem pair_in_group : InGroup pairState pairBundle 3 2 id :=
  ⟨⟨_, rfl, rfl⟩, by decide, by decide +kernel, by decide⟩
theorem witness_Collective :
    InGroup pairState pairBundle 3 (2 ^ 1) id ∧ Team pairState pairBundle .app {} {} ∧
    Team pairState pairBundle .app { dsts := [(.y 63, 1)] } {} ∧
    Team pairState pairBundle .app { srcs := wide true [.x 4] ++ [(.imm, 2)], dsts := wideD true (.x 6) } { imm := 1 } ∧
    Team pairState pairBundle .app { srcs := wide false [.x 4], dsts := [(.x 6, 1)] } {} ∧ Ty.isFloat .f32 = true ∧ Ty.isFloat .u32 = false :=
  ⟨pair_in_group, team_of (by decide +kernel), team_of (by decide +kernel), team_of (by decide +kernel), team_of (by decide +kernel), rfl, rfl⟩

/-- Shapes of 1, 32 and 33 members, and of slices of 2 and 3; a new group, and the last arrival of two; a member that leaves. -/
theorem witness_GroupFormation :
    Can bareState .app { srcs := one [.x 6, .imm] } { imm := 0x0201 } ∧ Can bareState .app { srcs := one [.x 6, .imm] } { imm := 0x0220 } ∧
    Can bareState .app { srcs := one [.x 6, .imm] } { imm := 0x0221 } ∧ Can bareState .app { srcs := one [.x 6, .imm] } { imm := 0x0301 } ∧
    (bareState.ctx 0).lead ≠ some 0 ∧ joinCheck bareState 0 0 7 2 2 none = none ∧ forming? bareState 0 7 2 2 = none ∧
    bareState.rights demoAgent 4 = [] ∧
    joinCheck bareState 0 0 7 2 2 (some 2) ≠ none ∧ joinCheck bareState 0 0 7 2 2 (some 1) = none ∧
    (let s := (bareState demoThread { groups := [(3, { key := 7, want := 2, slice := 2, mem := [(0, 1)] })] }).modCtx 0 fun x =>
      { x with threads := x.threads ++ [(1, { demoThread with grp := some (3, 0), blk := .join })] }
     (forming? s 0 7 2 2).map (·.1) = some 3 ∧ joinCheck s 0 0 7 2 2 none = none ∧ (s.thr? 0 1).isSome = true) ∧
    (let s := withToken (demoToken .write demoAgent []) demoThread { nextOp := 2, ops := [{ demoStore .g 0x80000000 [7] with agent := demoAgent }] }
     joinRights s 0 0 ≠ [] ∧ canMove s 0 0 = false) ∧
    (let s := bareState { demoThread with blk := .moving 7 2 2 none 0 }
     canMove s 0 0 = true ∧ joinCheck s 0 0 7 2 2 none = none) ∧
    Can inGroup .app {} {} ∧ (inGroup.group? 0 3).isSome = true ∧ (inGroup.ctx 0).cvs = [] ∧
    Can inGroup .app { srcs := one [.imm] } { imm := 32 } ∧ Can inGroup .app { srcs := one [.imm] } { imm := 1 } :=
  by refine ⟨can_of ?_, can_of ?_, can_of ?_, can_of ?_, ?_, ?_, ?_, ?_, ?_, ?_, ?_, ?_, ?_, can_of ?_, ?_, ?_, can_of ?_, can_of ?_⟩ <;> decide +kernel

def barrierState (sat armed : Bool) (a b : Blk) : State :=
  (bareState demoThread { groups := [(3, { key := 1, want := 2, slice := 2, formed := true, mem := [(0, 0), (1, 1)], sat := sat, armed := armed })] }).modCtx 0 fun x =>
    { x with threads := [(0, { demoThread with grp := some (3, 0), blk := a }), (1, { demoThread with grp := some (3, 1), blk := b })] }
theorem witness_Barriers :
    Can bareState .app {} {} ∧ Can bareState .app { srcs := one [.imm] } {} ∧ releaseReady bareState 0 0 .core = true ∧
    Can (bareState { demoThread with fails := [{ code := 0x09, pc := 0 }] }) .app {} {} ∧
    releaseReady (bareState demoThread { nextOp := 2, ops := [demoStore .l 8 [7]] }) 0 0 .core = false ∧
    (barrierState false true (.bar .core) (.rwait .core 1 5)).members 0 (.grp 3) = [0, 1] ∧
    (∀ m ∈ [0, 1], ((barrierState true true (.bar .core) (.rwait .core 1 5)).thr? 0 m).any (fun x => x.park.isNone && waiting x) = true) ∧
    (bareState { demoThread with blk := .rwait .core 1 0 }).thr? 0 0 = some { demoThread with blk := .rwait .core 1 0 } :=
  by refine ⟨can_of ?_, can_of ?_, ?_, can_of ?_, ?_, ?_, ?_, ?_⟩ <;> decide +kernel

theorem witness_WaitingAndDecisions :
    Can bareState .app { srcs := [(.x 4, 2), (.x 5, 1), (.imm, 1)], dsts := [(.x 6, 1)] } { imm := 2 } ∧
    addrOf bareState demoEnv { imm := 2 } .g (.x 4) % 4 ≠ 0 ∧
    Can demoState .app { srcs := [(.x 4, 2), (.x 5, 1), (.imm, 1)], dsts := [(.x 6, 1)] } {} ∧ (demoState.ctx 0).ops = [] ∧
    (∀ k ∈ [Blk.mwait none (.x 5) 0x80000000 7 (some 0) true, .mwait none (.x 5) 0x80000000 7 (some 1) false, .sleep 0, .sleep 1],
      ((bareState { demoThread with blk := k }).thr? 0 0).map (·.blk) = some k) ∧
    Can bareState .app { srcs := one [.x 5, .imm] } { imm := 63 } ∧ Can bareState .app { srcs := one [.x 5, .imm] } { imm := 64 } ∧
    Can bareState .app { srcs := one [.x 5, .imm] } { imm := 127 } ∧ Can bareState .app { srcs := one [.x 5, .imm] } { imm := 128 } ∧
    Can (bareState demoThread { dq := List.replicate 64 (0, 127) }) .app { srcs := one [.x 5, .imm] } { imm := 127 } ∧
    Can (bareState demoThread { dq := [(7, 127)] }) .app { dsts := [(.x 5, 1)] } {} ∧ Can bareState .app { dsts := [(.x 5, 1)] } {} :=
  by refine ⟨can_of ?_, ?_, can_of ?_, ?_, ?_, can_of ?_, can_of ?_, can_of ?_, can_of ?_, can_of ?_, can_of ?_, can_of ?_⟩ <;> decide +kernel

def demoTile (st : TileSt) : Tile := { off := 0, rows := 64, cols := 64, esz := 4, st := st }
/-- A line of the record cache whose first sixteen bytes are an image: 64 rows of 64 words at 0. -/
def imageState (x : Ctx := {}) : State := (demoState demoThread x).modCore 0 fun k =>
  { k with rcache := [{ world := 4, va := 0x80000000, data := 0x0040024000000000 }] }
def imageLine : FLine := { world := 4, va := 0x80000000, data := 0x0040024000000000 }
/-- The image, read whole or in its first sixteen bytes. -/
theorem image_read {n : Nat} (g : globalCheck imageState 0 0 0x80000000 n .load = .ok (imageState, [demoHome])) :
    readImage imageState demoEnv 0x80000000 n = .ok (imageState, (bytesOf 64 imageLine.data.toNat).take n) := by
  have f : ((imageState.core 0).rcache.find? fun l => l.world == 4 && l.va == 0x80000000 / 64 * 64) = some imageLine := by decide +kernel
  have w : imageState.actWorld 0 0 = 4 := by decide +kernel
  simp only [readImage, show demoEnv.c = 0 from rfl, show demoEnv.t = 0 from rfl, g, w, f]
  simp
theorem image_read_16 : readImage imageState demoEnv 0x80000000 16 = .ok (imageState, (bytesOf 64 imageLine.data.toNat).take 16) :=
  image_read (demo_global (by decide +kernel) rfl rfl (by decide +kernel) rfl)
theorem image_read_64 : readImage imageState demoEnv 0x80000000 64 = .ok (imageState, (bytesOf 64 imageLine.data.toNat).take 64) :=
  image_read (demo_global (by decide +kernel) rfl rfl (by decide +kernel) rfl)

theorem witness_Tiles :
    Can bareState .app { srcs := [(.x 4, 2)] } { imm := 8 } ∧ addrOf bareState demoEnv { imm := 8 } .g (.x 4) % 16 ≠ 0 ∧
    Can bareState .app { srcs := [(.x 4, 2)] } {} ∧ (readImage bareState demoEnv 0x80000000 16).isOk = false ∧
    Can imageState .app { srcs := [(.x 4, 2)] } {} ∧
    tileOfImage (bareState.ctx 0) ((bytesOf 64 imageLine.data.toNat).take 16) = some (demoTile .empty) ∧
    (∀ n ∈ [0, 64, 65], (tileOfImage (bareState.ctx 0) ([0, 0, 0, 0, n, 0, 1, 0] ++ List.replicate 8 0)).isSome = decide (n = 64)) ∧
    (∀ st ∈ [TileSt.empty, .filling, .ready, .draining],
      let s := bareState demoThread { tiles := [(127, demoTile st)] }
      ((s.ctx 0).tiles.look 127).map (·.st) = some st ∧ ∃ q ∈ (s.ctx 0).tiles, q.2.meets 16383 1 = true) ∧
    Can (bareState demoThread { tiles := [(127, demoTile .ready)] }) .app {} {} ∧
    releaseReady (bareState demoThread { nextOp := 2, ops := [demoStore .l 0 [7]], tiles := [(1, demoTile .empty)] }) 0 0 .core = false ∧
    Can bareState .app { dsts := [(.x 5, 1)] } {} ∧ Can bareState .app { srcs := one [.imm], dsts := [(.x 5, 1)] } { imm := 8 } ∧
    Can bareState .app { srcs := one [.imm], dsts := [(.x 5, 1)] } { imm := 9 } ∧ scratchBusy (bareState.ctx 0) = false :=
  by refine ⟨can_of ?_, ?_, can_of ?_, ?_, can_of ?_, ?_, ?_, ?_, can_of ?_, ?_, can_of ?_, can_of ?_, can_of ?_, ?_⟩ <;> decide +kernel

/-- One element of four bytes at 0x80000000. -/
def demoPat : BitVec 512 := 0x000100010001000100000002_0000000080000000
def patState (st : TileSt) (x : Ctx := {}) : State := bareState demoThread { x with pats := [(3, demoPat)], tiles := [(1, demoTile .ready), (2, { demoTile st with off := 65536 })] }
theorem witness_Copies :
    Can bareState .app { srcs := one [.x 6] } {} ∧ (rdPair bareState demoEnv {} (.x 4)).toNat % 64 = 0 ∧
    (patOf demoPat).isz = 0 ∧
    Can bareState .app {} {} ∧ writesHeld (bareState demoThread { nextOp := 2, ops := [demoStore .g 0x80000000 [7]] }) 0 0 2 = false ∧
    Can (bareState demoThread { ops := opsOf 63 .copies }) .app { srcs := one [.x 6, .x 6] } {} ∧
    (bareState demoThread { ops := opsOf 63 .copies }).count 0 0 .copies = 63 ∧
    ((bareState demoThread { copies := List.replicate 32 { id := 0, op := 0, tid := 9, unit := .thr 9, pc := 0, kind := .fill 0 0 } }).ctx 0).copies.length = 32 ∧
    Can (patState .empty) .app { srcs := (.x 4, 2) :: one [.imm] } { imm := 131072 } ∧
    (signalCheck (patState .empty) demoEnv { imm := 131072 } (some .imm)).isOk = true ∧
    (signalCheck (patState .empty) demoEnv { imm := 131070 } (some .imm)).isOk = false ∧
    copyShape demoPat (demoTile .empty) = true ∧ copyShape 0 (demoTile .empty) = false ∧
    tileAt (patState .empty) demoEnv 1 = some (demoTile .ready) ∧ (tileAt (patState .empty) demoEnv 2).map (·.st) = some .empty ∧
    Can bareState .app { srcs := [(.x 4, 2), (.imm, 1), (.imm, 1)] } { imm := 128 } ∧ Can bareState .app { srcs := [(.x 4, 2), (.imm, 1), (.sp .zero, 1)] } { imm := 262144 } :=
  by refine ⟨can_of ?_, ?_, ?_, can_of ?_, ?_, can_of ?_, ?_, ?_, can_of ?_, ?_, ?_, ?_, ?_, ?_, ?_, can_of ?_, can_of ?_⟩ <;> decide +kernel

def demoCopy (k : CopyKind) : Copy := { id := 7, op := 1, tid := 0, unit := .thr 0, pc := 0, kind := k }
def copyState (k : CopyKind) (l : List Op := []) : State :=
  patState .filling { nextOp := 2, copies := [demoCopy k], ops := l ++ [{ id := 1, tid := 0, cls := .copies, pc := 0, world := 4, body := .copy 7 }] }
theorem witness_CopiesEnd :
    (∀ k ∈ [CopyKind.fill 2 5, .cpIn 2 demoPat 0 3, .tt 2 1 false], ((copyState k).ctx 0).copies.find? (·.id == 7) = some (demoCopy k) ∧
      copyReady (copyState k) 0 (demoCopy k) = true) ∧
    ((copyState (.fill 2 5)).op? 0 1).isSome = true ∧
    copyReady (copyState (.cpIn 2 demoPat 0 3) [{ demoStore .g 0x80000000 [7] with id := 0 }]) 0 (demoCopy (.cpIn 2 demoPat 0 3)) = false ∧
    (∀ o ∈ (copyState (.cpIn 2 demoPat 0 3)).op? 0 1, (runCopy (copyState (.cpIn 2 demoPat 0 3)) 0 (demoCopy (.cpIn 2 demoPat 0 3)) o).2.isSome = true) := by
  decide +kernel

def ag0 : Agent := .unit (.thr 0)
def mmTile (esz : Nat) (st : TileSt) : Tile := { off := 0, rows := 64, cols := 192, esz := esz, st := st }
def demoCv : Cv := { owner := ag0, mask := 1, lead := false }
def mmState (x : Ctx := {}) : State :=
  bareState demoThread { x with rsv := [{ agent := ag0, mask := 0xFFFF }], cvs := [(15, demoCv)], tiles := [(1, mmTile 1 .ready), (2, { demoTile .empty with off := 65536 })] }
def demoBound : MmBound := { mode := .t5i8, acc := 15, tile := 1, off := 64, xe := 0, z := false }
theorem witness_MatrixCommands :
    Can mmState .app { srcs := one [.x 14] } {} ∧ mmState.agentOf 0 0 = ag0 ∧ cvLoading (mmState.ctx 0) 15 = false ∧
    mmState.count 0 0 .tileops < 63 ∧ (mmState { ops := opsOf 63 .tileops }).count 0 0 .tileops = 63 ∧
    (mmaCheck mmState 0 ag0 [0] 15 demoBound true).isOk = true ∧ allSigned (signed mmState 0 0 demoCv) = true ∧
    (mmaCheck mmState 0 ag0 [0] 15 { demoBound with off := 63 } true).isOk = false ∧
    (mmaCheck mmState 0 ag0 [0] 15 { demoBound with mode := .ring32 } true).isOk = false ∧
    Can mmState .app {} {} ∧ (mmState.ctx 0).mq.length < 8 ∧ accCheck mmState 0 ag0 [15] = none ∧ accCheck bareState 0 ag0 [15] = some 0x0B ∧
    ((mmState.ctx 0).tiles.look 2).map (fun t => (t.rows, t.cols, t.esz)) = some (64, 64, 4) ∧ interpTakes .s32 .f32 = true ∧ interpTakes .ring .f32 = false :=
  by refine ⟨can_of ?_, ?_, ?_, ?_, ?_, ?_, ?_, ?_, ?_, can_of ?_, ?_, ?_, ?_, ?_, ?_, ?_⟩ <;> decide +kernel

def mmEntry (k : MmKind) (st : Option Nat) : MmEntry := { agent := ag0, kind := k, ops := [1], pc := 0, start := st, since := 0 }
theorem witness_MatrixWork :
    (∀ k ∈ [MmKind.mma demoBound, .clr 14 true, .st 3 2 false, .rd 3 2 .s32 .s32 .rne],
      ((mmState { mq := [mmEntry k none] }).ctx 0).mq = [mmEntry k none] ∧ mmStart ((mmState { mq := [mmEntry k none] }).ctx 0) (mmEntry k none) = 12) ∧
    (mmState.core 0).marks = [] ∧ (mmState.core 0).ccnt.toNat < 12 ∧
    ((mmState.modCore 0 fun k => { k with ccnt := 5000 }).core 0).ccnt.toNat = 5000 ∧ 12 + 8 * MmMode.t5i8.shape.passes + 4 ≤ 5000 ∧
    ((mmState.ctx 0).tiles.look 1).isSome = true ∧ ((mmState.ctx 0).tiles.look 2).map (·.esz) = some 4 := by decide +kernel

theorem witness_MatrixState :
    Can bareState .app { srcs := one [.imm] } { imm := 65535 } ∧ Can bareState .app { srcs := one [.imm] } { imm := 65536 } ∧
    heldMask (bareState.ctx 0) ag0 = none ∧ heldMask (mmState.ctx 0) ag0 = some 0xFFFF ∧ reservedMask (bareState.ctx 0) = 0 ∧
    Can mmState .app {} {} ∧ releaseReady mmState 0 0 .core = true ∧ ((bareState demoThread { rsv := [{ agent := ag0, mask := 1 }] }).ctx 0).cvs = [] ∧
    signersOk mmState 0 ag0 false 1 = true ∧ signersOk mmState 0 ag0 false 2 = false ∧ (mmState.ctx 0).cvs.look 14 = none ∧
    maySign mmState 0 0 demoCv = true ∧ maySign mmState 0 0 { demoCv with signed := 1 } = false ∧ ((mmState.ctx 0).cvs.look 15) = some demoCv ∧
    cvLoading (mmState { nextOp := 2, ops := [{ id := 1, tid := 0, cls := .loads, pc := 0, body := .ldcv .l 0 3 .rlx .core none }] } |>.ctx 0) 3 = true ∧
    Can mmState .app { srcs := baseUses .l (.sp .zero) } { imm := 786400 } ∧ (accessCheck mmState demoEnv .l 786400 32 32 .load).isOk = true ∧
    (accessCheck mmState demoEnv .l 786416 32 32 .load).isOk = false ∧
    storeWait mmState demoEnv { ord := .rlx, scope := .core, evict := 3, space := .l } = none :=
  by refine ⟨can_of ?_, can_of ?_, ?_, ?_, ?_, can_of ?_, ?_, ?_, ?_, ?_, ?_, ?_, ?_, ?_, ?_, can_of ?_, ?_, ?_, ?_⟩ <;> decide +kernel

def sortState (a : SortArr) (x : Ctx := {}) : State := bareState demoThread { x with sort := a, tiles := [(1, demoTile .ready), (2, { demoTile .empty with off := 65536 })] }
def sortEntry (k : SortCmd) (st : Option Nat) : SortEntry := { cmd := k, tids := [0], ops := [1], pc := 0, start := st, since := 0 }
theorem witness_SortCommands :
    Can (sortState {}) .app {} {} ∧ tileAt (sortState {}) demoEnv 1 = some (demoTile .ready) ∧ tileAt (sortState {}) demoEnv 3 = none ∧
    (demoTile .ready).esz = Ty.bits .f32 / 8 ∧ 64 * 64 ≤ 4096 ∧ (sortState {}).count 0 0 .tileops < 63 ∧
    (sortState { holder := some (.unit (.thr 9)) }).agentOf 0 0 = ag0 ∧ holdsSort (sortState { holder := some (.unit (.thr 9)) }) 0 ag0 = false ∧
    holdsSort (sortState { holder := some ag0 }) 0 ag0 = true ∧ ((sortState {}).ctx 0).sort.queue.length < 4 ∧
    Can (sortState { holder := some ag0 }) .app { srcs := one [.imm] } { imm := 13 } ∧ Can (sortState { holder := some ag0 }) .app { srcs := one [.imm], dsts := [(.x 28, 4)] } {} ∧
    ((sortState { holder := some ag0, opt := { rows := true } }).ctx 0).sort.ahead.rows = true ∧ ((sortState { holder := some ag0 }).ctx 0).sort.ahead.rows = false ∧
    ((sortState { holder := some ag0, queue := List.replicate 4 (sortEntry (.run 1) none) }).ctx 0).sort.queue.length = 4 ∧
    (tileAt (sortState {}) demoEnv 2).map (·.st) = some .empty ∧ Can (sortState {}) .app { dsts := [(.x 5, 1)] } {} :=
  by refine ⟨can_of ?_, ?_, ?_, ?_, ?_, ?_, ?_, ?_, ?_, ?_, can_of ?_, can_of ?_, ?_, ?_, ?_, ?_, can_of ?_⟩ <;> decide +kernel

theorem witness_SortWork :
    (∀ k ∈ [SortCmd.load 1 none .u32 false true false, .run 13, .store 2 none, .smatch 7 (.x 28)], ∀ st ∈ [none, some 4],
      ((sortState { holder := some ag0, queue := [sortEntry k st] }).ctx 0).sort.queue = [sortEntry k st]) ∧
    ((sortState {}).core 0).marks = [] ∧ sortStart {} (sortEntry (.run 13) none) = 4 ∧ ((sortState {}).core 0).ccnt.toNat < 4 ∧
    4 + (SortCmd.run 13).cycles + 1 ≤ 2 ^ 20 ∧ ((sortState {}).ctx 0).sort.opt.rows = false ∧ ((sortState {}).thr? 0 0).isSome = true := by decide +kernel

/-- Regions of 12, 13 and 30 address bits and one too small; entries of each mode, lent, pending, halves of one region. -/
theorem witness_TokenCommands :
    Can demoState .app (tokenUses (.x 4) [.imm]) { imm := 12 } ∧ Can demoState .app (tokenUses (.x 4) [.imm]) { imm := 11 } ∧
    (claimCheck demoState demoEnv 4 0x80000000 12 .write).isNone = true ∧ (claimCheck demoState demoEnv 4 0x80000000 30 .write).isNone = true ∧
    (claimCheck demoState demoEnv 4 0x80000080 12 .write).isNone = false ∧ demoState.tokens = [] ∧ demoState.homeDie 4 0x80000000 < 2 ∧
    ((withToken (demoToken .write 0xFFFF []) ).tokens.filter fun x => rangesMeet x.2.base (2 ^ x.2.n) 0x80000000 (2 ^ 12)).length = 1 ∧
    (∀ t ∈ [demoToken .write demoAgent [], { demoToken .write demoAgent [] with lender := 9 }, demoToken .write 0x80000001 [],
        demoToken .rs demoAgent [demoAgent], demoToken .at 9 [9, demoAgent], demoToken .at 9 [9], { demoToken .write demoAgent [] with n := 13 }],
      (withToken t).entry? 4 0x80000000 = some (0, t) ∧ t.pending = none ∧ t.mirror = none) ∧
    Can (withToken (demoToken .write demoAgent [])) .app (tokenUses (.x 4) [.x 6]) {} ∧ Can (withToken (demoToken .write demoAgent [])) .app (tokenUses (.x 4) []) {} ∧
    bareState.entry? 4 0x80000000 = none ∧ wordDev stewardWord = none ∧ liveAgent bareState 4 stewardWord = true ∧ liveAgent bareState 4 7 = false ∧
    mine (demoToken .write demoAgent []) demoAgent = true ∧ mine (demoToken .rs demoAgent [demoAgent]) demoAgent = false ∧
    tableFull bareState (bareState.homeDie 4 0x80001000) = false ∧ (4095 : Nat) ≤ ({ demoToken .rs demoAgent [] with count := 4095 }).count ∧
    (let l := demoToken .write demoAgent []
     let u := { l with base := 0x80001000 }
     let s := { bareState with dies := [(0, { tokens := [l, u] })] }
     l.base / 2 ^ l.n % 2 = 0 ∧ u.base = l.base + 2 ^ l.n ∧ s.entry? 4 0x80000000 = some (0, l) ∧
       (s.tokens.find? fun x => x.2.mirror.isNone && x.2.world == 4 && x.2.base == u.base && x.2.n == u.n) = some (0, u)) ∧
    Can bareState .app { srcs := [(.x 4, 2)], dsts := [(.x 5, 1)] } {} ∧ Can bareState .app { dsts := [(.x 5, 1)] } {} :=
  by refine ⟨can_of ?_, can_of ?_, ?_, ?_, ?_, ?_, ?_, ?_, ?_, can_of ?_, can_of ?_, ?_, ?_, ?_, ?_, ?_, ?_, ?_, ?_, ?_, can_of ?_, can_of ?_⟩ <;> decide +kernel

def demoPass (k : PassKind) : Pass := { by_ := demoAgent, core := 0, kind := k, upto := 2 }
theorem witness_TokenPasses :
    (∀ k ∈ [PassKind.lend 7, .ret, .share 7, .toShared .rs none, .drop, .unshare], (demoPass k).kind = k ∧
      (withToken { demoToken .write demoAgent [] with pending := some (demoPass k) }).tokens.length = 1 ∧ passReady bareState (demoPass k) = true) ∧
    passReady (bareState demoThread { nextOp := 2, ops := [{ demoStore .g 0x80000000 [7] with agent := demoAgent }] }) (demoPass .drop) = false ∧
    (let s := withToken { demoToken .write demoAgent [] with pending := some { demoPass .drop with kd := some 7 } } { demoThread with blk := .pass 4 0x80000000 }
     (s.ctx 0).threads = [(0, { demoThread with blk := .pass 4 0x80000000 })]) ∧
    (let s := { withToken (demoToken .write demoAgent []) with ending := [(0, demoAgent, 4, true)] }
     endsReady s 0 demoAgent 4 = true ∧ s.rights demoAgent 4 ≠ []) ∧
    (demoToken .write 7 []).named demoAgent = false ∧ demoAgent ≠ 0 ∧
    (let t := { demoToken .write (deviceWord 6) [] with lender := demoAgent }
     (withToken t).tokens = [(0, t)] ∧ t.owner = deviceWord 6) ∧ coreOfWord bareState 4 0 = none := by decide +kernel

def demoGate (st : GateSt) (party : Bool) : Gate :=
  { st := st, world := 4, tag := 9, party := party, timeout := 1024, pools := [(ShTy.s32.ctorIdx, { base := 0x80000000, n := 12, count := 4, cursor := 4, pages := [] })] }
def gateState (st : GateSt) (party : Bool) (th : Thread := demoThread) : State := { bareState th with gate := [(3, demoGate st party)] }
/-- Both parties; widths of one, two, four and eight words; a pool that is spent, and none. -/
theorem witness_ShareArithmetic :
    Can bareState .app { srcs := one [.x 1, .imm], dsts := [(.x 5, 1)] } { imm := 0xFFFF0001 } ∧ (sessionOf bareState demoEnv 3).isOk = false ∧
    Can (gateState .open_ true) .app { srcs := one [.x 1, .x 2, .imm], dsts := [(.x 5, 1)] } { imm := 3 } ∧
    (∀ p ∈ [true, false], (sessionOf (gateState .open_ p) demoEnv 3).isOk = true) ∧
    Can (gateState .open_ true) .app { srcs := [(.x 8, 8), (.x 2, 2), (.imm, 1)], dsts := [(.x 5, 1)] } { imm := 3 } ∧
    Can (gateState .open_ false) .app { srcs := [(.x 8, 4), (.x 2, 1), (.imm, 1)], dsts := [(.x 5, 1)] } { imm := 3 } ∧
    (rdWord (gateState .open_ false) demoEnv {} (.x 8) 3).toNat % 2 ^ 16 ≤ 14 ∧ 30 < (rdWord (gateState .open_ false) demoEnv {} (.x 8) 4).toNat ∧
    (rdWord (gateState .open_ false) demoEnv {} (.x 16) 4).toNat ≤ 30 ∧
    (let s := gateState .open_ false { demoThread with regs := demoThread.regs.set 0 11 15 }
     14 < (rdWord s demoEnv {} (.x 8) 3).toNat % 2 ^ 16 ∧ (s.gateRec 3).party = false) ∧ ((gateState .open_ true).gateRec 3).party = true ∧
    Can (gateState .open_ false) .app { srcs := one [.x 1, .imm, .x 2], dsts := [(.x 8, groupLen .s32)] } { imm := 3 } ∧
    Can (gateState .open_ false) .app { srcs := one [.x 1, .imm], dsts := [(.x 8, groupLen .tr16)] } { imm := 3 } ∧
    (∀ st ∈ [GateSt.aborted, .ended], (demoGate st true).ended = true) ∧ (demoGate .open_ true).ended = false ∧
    (demoGate .open_ true).pools.look ShTy.b16.ctorIdx = none ∧ ((demoGate .open_ true).pools.look ShTy.s32.ctorIdx).any (fun p => p.cursor == p.count) = true :=
  by refine ⟨can_of ?_, ?_, can_of ?_, ?_, can_of ?_, can_of ?_, ?_, ?_, ?_, ?_, ?_, can_of ?_, can_of ?_, ?_, ?_, ?_, ?_⟩ <;> decide +kernel

def demoDesc (party peer : Nat) : List Byte :=
  [9, 0, 0, 0, BitVec.ofNat 8 party, 0, 0, 0, BitVec.ofNat 8 peer, 0, 0, 0, 1, 0, 0, 0] ++ List.replicate 48 0
def demoContrib (id : BitVec 16) : Contrib := { reveal := false, ty := .s32, id := id, m := 1, words := [1, 2] }
theorem witness_GateSessions :
    Can bareState .app { srcs := [(.x 4, 2)], dsts := [(.x 5, 1)] } {} ∧ isSteward bareState demoEnv = false ∧
    isSteward (bareState (ofLevel .steward)) demoEnv = true ∧ (accessCheck bareState demoEnv .g 0x80000000 64 64 .load).isOk = false ∧
    descOk (demoDesc 1 4) = true ∧ descOk (demoDesc 1 3) = false ∧ bareState.gate = [] ∧
    Can (gateState .open_ true) .app { srcs := one [.imm], dsts := [(.x 5, 1)] } { imm := 9 } ∧ (gateState .open_ true).gate = [(3, demoGate .open_ true)] ∧
    (demoGate .open_ true).tag = 9 ∧ (demoGate .open_ true).world = (gateState .open_ true).actWorld 0 0 ∧
    Can (gateState .ended true (ofLevel .steward)) .app { srcs := one [.imm], dsts := [(.x 5, 1)] } { imm := 3 } ∧
    ((gateState .ended true).gateRec 3).ended = true ∧ ((gateState .ended true).gateRec 4).st = .free ∧
    Can (gateState .opening true (ofLevel .steward)) .app { srcs := [(.x 4, 2), (.imm, 1), (.x 6, 1)], dsts := [(.x 5, 1)] } { imm := 3 } ∧
    Can (gateState .open_ true) .app { srcs := [(.x 8, 2), (.imm, 1), (.sp .zero, 1)], dsts := [(.x 6, 2)] } { imm := 3 } ∧
    (demoGate .open_ true).pending = none ∧ (demoGate .open_ true).held = none ∧ (demoContrib 0).id.toNat = (demoGate .open_ true).nextId ∧
    (let g := { demoGate .open_ true with mine := some (demoContrib 0), theirs := some (demoContrib 1), peer := some (1023, 5), since := some 0 }
     let s := { bareState with gate := [(3, g)], contribs := [(3, demoContrib 0)], ioclk := 1024 }
     s.gateRec 3 = g ∧ (demoContrib 0).id ≠ (demoContrib 1).id ∧ 1023 = s.fab.devno ∧ (s.gateRec 5).mine = none ∧ 0 + g.timeout ≤ s.ioclk ∧ g.waiter = none) ∧
    (let s := bareState { demoThread with blk := .xch 3 }
     (s.thr? 0 0).map (·.blk) = some (.xch 3)) :=
  by refine ⟨can_of ?_, ?_, ?_, ?_, ?_, ?_, ?_, can_of ?_, ?_, ?_, ?_, can_of ?_, ?_, ?_, can_of ?_, can_of ?_, ?_, ?_, ?_, ?_, ?_⟩ <;> decide +kernel

/-- A steward on core 0 of partition 0, which holds quarter 0; core 5 is latched to world 4. -/
def stewardState (x : Ctx := {}) : State :=
  { bareState (ofLevel .steward) x with
    cores := [(0, { Core.init 0 with latch := some 0, ctx := { x with threads := [(0, ofLevel .steward)] } }), (5, { Core.init 5 with latch := some 4 })] }
theorem witness_Partitioning :
    Can bareState .app {} {} ∧ demoThread.level.num < 2 ∧ demoThread.level.num < 3 ∧ stewardState.partOf 0 = some 0 ∧ (stewardState.parts.look 0).isSome = true ∧
    (∀ n ∈ [0, 1, 15, 16], Can stewardState .steward { srcs := one [.imm], dsts := [(.x 5, 1)] } { imm := BitVec.ofNat 32 n }) ∧
    (∀ y ∈ coresOf 1, coreBusy stewardState y = false) ∧ (∀ y ∈ coresOf 1, drained (quiesce stewardState 0 1) y = true) ∧
    coreBusy (stewardState { copies := [demoCopy (.fill 0 0)] }) 0 = true ∧ drained (stewardState { copies := [demoCopy (.fill 0 0)] }) 0 = false ∧
    (∀ x ∈ stewardState.parts.look 0, x.pqst.getLsbD 4 = false ∧ heldBy x = 0 ∧ stacksIn x.pmil 1 = true ∧ offeredTo stewardState 0 = 0) ∧
    Can stewardState .steward { srcs := one [.x 3, .imm], dsts := [(.x 5, 1)] } { imm := 12 } ∧
    (∀ i, i < 8 → (stackQuarters stewardState 0).getLsbD (0 / 8 ^ i % 8 / 2) = true) ∧ (stackQuarters stewardState 0) ≠ 0 ∧
    stewardState.partOf 7 = some 0 ∧ (stewardState.core 7).latch = none ∧ (stewardState.worlds.look 4).any (fun y => y.part == 0 && !y.aborted) = true ∧
    (tidsFree stewardState 7).head? = some 0 ∧ stewardState.stewardCore 0 = some 0 ∧
    Can stewardState .steward { srcs := [(.imm, 1), (.x 4, 2)], dsts := [(.x 5, 1)] } { imm := 1 } ∧
    (∀ y ∈ (stewardState.ctx 5).threads, y.2.level ≠ .app) ∧ trackerUsed (stewardState.ctx 5) = [] ∧ (stewardState.ctx 5).copies = [] ∧
    Can stewardState .steward { srcs := (.x 4, 2) :: one [.x 6, .imm], dsts := [(.x 5, 1)] } { imm := 4 } ∧ (rdPair stewardState demoEnv {} (.x 4)).toNat % 4096 = 0 ∧
    (worldsOf stewardState 0).contains 4 = true ∧ (worldsOf stewardState 0).contains 9 = false ∧
    (∀ y ∈ stewardState.cores, ∀ o ∈ y.2.ctx.ops, Op.inPages (fun _ _ => true) o = false) ∧
    Op.inPages (fun w _ => w == 4) (demoStore .g 0x80000000 [7]) = true :=
  by
    refine ⟨can_of ?_, ?_, ?_, ?_, ?_, ?_, ?_, ?_, ?_, ?_, ?_, can_of ?_, ?_, ?_, ?_, ?_, ?_, ?_, ?_, can_of ?_, ?_, ?_, ?_, can_of ?_, ?_, ?_, ?_, ?_, ?_⟩
    case refine_6 =>
      intro n m
      simp only [List.mem_cons, List.not_mem_nil, or_false] at m
      rcases m with rfl | rfl | rfl | rfl <;> exact can_of (by decide +kernel)
    all_goals decide +kernel

/-- Devices 575 and 576; masks within the ports of the quarter and beyond; a slot that does not allow the fabric. -/
theorem witness_FabricConfiguration :
    let s := { stewardState with fab := { fabState.fab with binds := [] }, keys := fabState.keys ++ [(2, { key := [], iv := [], ports := 1, world := 4 })] }
    Can s .steward { srcs := [(.imm, 1), (.x 6, 2)], dsts := [(.x 5, 1)] } { imm := 575 } ∧ fabDev s 575 = true ∧ fabDev s 576 = false ∧ fabDev s 5 = false ∧
    (rdPair s demoEnv {} (.x 6)).toNat < 2 ^ 48 ∧ (∀ x ∈ s.parts.look 0, ∀ i, i < 48 → (7 : Nat).testBit i = true → x.pnbp.getLsbD i = true) ∧
    (∀ x ∈ s.parts.look 0, x.pnbp.getLsbD 12 = false) ∧
    Can s .steward { srcs := [(.x 6, 1), (.imm, 1)], dsts := [(.x 5, 1)] } { imm := 0x10904 } ∧ tenantOf s 0 4 = true ∧ tenantOf s 0 9 = false ∧
    keyOk s 1 4 3 = true ∧ keyOk s 2 4 3 = false ∧ (s.port 0).replay = [] ∧
    Can (bareState (ofLevel .root)) .root { srcs := [(.x 4, 2), (.imm, 1)], dsts := [(.x 5, 1)] } { imm := 511 } ∧
    (rdPair (bareState (ofLevel .root)) demoEnv {} (.x 4)).toNat % 64 = 0 ∧ natOf (((peekN bareState.hwmem 0x80000000 64).drop 47).take 17) = 0 :=
  by refine ⟨can_of ?_, ?_, ?_, ?_, ?_, ?_, ?_, can_of ?_, ?_, ?_, ?_, ?_, ?_, can_of ?_, ?_, ?_⟩ <;> decide +kernel

def coreState (k : Core) (th : Thread := demoThread) : State := { bareState with cores := [(0, { k with latch := some 4, ctx := { k.ctx with threads := [(0, th)] } })], focus := none }
/-- A thread alone and ready, one asleep, one due to age, and a line that is fetched and one that is not. -/
theorem witness_Scheduling :
    issues bareState 0 = true ∧ issues State.reset 0 = false ∧ (bareState.ctx 0).shen = false ∧
    (bareState.ctx 0).threads = [(0, demoThread)] ∧ notReady bareState 0 0 = none ∧ (fbuf? bareState 0 demoThread.pc).isSome = true ∧
    demoThread.sched.busy ≤ (bareState.core 0).ccnt.toNat ∧ (bareState.core 0).lanes = [] ∧ bareState.pipes = [] ∧
    ((bareState { demoThread with blk := .sleep 3 }).thr? 0 0).map (·.blk) = some (.sleep 3) ∧
    spanDue bareState 0 (.thr 0) = false ∧ spanDue (bareState { demoThread with sched := { span := 64 }, blk := .rwait .core 1 5 }) 0 (.thr 0) = true ∧
    spanDue (inGroup) 0 (.grp 3) = false ∧
    (let s := bareState demoThread { shen := true } |>.modCore 0 fun k => { k with ctx := { k.ctx with threads := [] } }
     (s.ctx 0).shen = true ∧ issues s 0 = true ∧ (s.ctx 0).threads = []) ∧
    (fetchHome bareState 0 0x80000000).isOk = false ∧ (demoState.ctx 0).threads = [(0, demoThread)] ∧ arrivals demoState 0 = [] := by decide +kernel
theorem witness_Scheduling_fetch : ∃ l, fetchHome demoState 0 0x80000000 = .ok (l, demoHome) := by
  have w : demoState.worldOf 0 = 4 := by decide +kernel
  have e : lineCheck demoState 0 4 0x80000000 .fetch = .ok demoHome := rfl
  simp only [fetchHome, w, e, demo_no_doorbell 4 rfl]
  exact ⟨_, rfl⟩

def demoBlock : Block := { entry := 0x40010000, first := 0, count := 2, arg := 7, quota := 16, world := 4, level := .app }
/-- A launch of 2 threads, submitted, placed; a record of 40 spawned threads, and a thief of the same grove. -/
theorem witness_Placement :
    (let s := { bareState with worlds := bareState.worlds.put 4 { part := 0, fn := some 5 } }
     s.fnWorld 5 = some 4 ∧ s.fnWorld 6 = none ∧ (s.path 5).busy = false) ∧ (bareState.parts.look 0).isSome = true ∧ (bareState.path 64).busy = false ∧
    (let s := bareState.setPath 5 { busy := true, addr := 0x80000001, world := 4 }
     (s.path 5).busy = true ∧ (s.path 5).rest = [] ∧ (s.path 5).addr % 32 ≠ 0) ∧ (homeCheck bareState 4 4 0x80000000 .load).isOk = false ∧
    (homeCheck demoState 4 4 0x80000000 .load).isOk = true ∧ (∃ e ∈ bareState.cores, e.2.inService = true ∧ e.2.latch = some 4) ∧
    (let l : Launch := { entry := 0x40010000, count := 40, quota := 16, world := 4, steward := false }
     let s := { bareState with launches := [l] }
     launchOf s 4 = some l ∧ launchOf s 5 = none ∧ launchCores s 4 = [0] ∧ pickCore s [0] l.block = some 0) ∧
    (let s := coreState { Core.init 0 with waiting := [demoBlock] }
     (s.core 0).waiting = [demoBlock] ∧ placing s 0 = true ∧ (tidsFree s 0)[1]? = some 2) ∧
    (let s := bareState { demoThread with framed := true } { evicted := [(.thr 0, [9])] }
     (s.ctx 0).evicted.find? (·.1 == .thr 0) = some (.thr 0, [9]) ∧ restoreDue s 0 (.thr 0) = true ∧ regBytes (s.ctx 0) + restoreNeed s 0 (.thr 0) ≤ 524288) ∧
    (let r : SpawnRec := { entry := 0x40010000, count := 40, arg := 7, quota := 16, world := 4 }
     let s := coreState { Core.init 0 with steal := { queue := [r] } }
     spawnReady s 0 = some r.head ∧ hasRoom s 0 r.head.count 16 = true ∧ r.head.count = 32 ∧ r.tail.count = 8 ∧
     (let s' := { s with cores := s.cores ++ [(1, { Core.init 1 with latch := some 4, steal := { asked := some (0, 2048, 524288) } })] }
      askers s' 0 = [1] ∧ (s'.core 0).steal.unacked = none ∧ (s'.core 0).steal.queue.getLast? = some r ∧ r.tail.count ≤ 2048) ∧
     (let s' := { s with cores := [(0, { s.core 0 with steal := { queue := [r], unacked := some (r.tail, 1, 0) } }),
        (1, { Core.init 1 with latch := some 4, steal := { asked := some (0, 2048, 524288), answer := some r.tail } })] }
      (s'.core 1).steal.answer = some r.tail ∧ (s'.core 0).steal.unacked = some (r.tail, 1, 0))) ∧
    wantsSteal ({ bareState with cores := [(0, { Core.init 0 with latch := some 4 })] }) 0 = true ∧ wantsSteal State.reset 0 = false ∧
    ((coreState { Core.init 0 with steal := { wait := some 0 } }).core 0).steal.wait = some 0 := by decide +kernel

def demoRec : FRec := { code := 0x18, pc := 0x40010000, tid := 0 }
def demoShadow : Shadow := { threads := [{ tid := 0, regs := [], preds := 1, stack := [], spBase := 0, spLimit := 0, spilled := 0, step := false, sat := false, ccnth := 0 }], pc := 0x40010000 }
theorem witness_Recovery :
    (bareState.ctx 0).recs = [] ∧ (postOwn bareState 0).isNone = true ∧ (postSteward bareState 0).isNone = true ∧
    (let s := bareState (ofLevel .handler) { recs := [demoRec], handler := some 0 }
     (s.ctx 0).recs = [demoRec] ∧ handlerParked s 0 = false ∧ (s.ctx 0).fqctl.toNat % 16 = 0) ∧
    (let s := bareState (ofLevel .handler) { recs := [demoRec], handler := some 0, fqctl := 4 }
     (match ringPost s 0 4 0 4 (recBytes 0 4 demoRec) with | .bad _ => true | _ => false) = true) ∧ demoRec.tid < 2048 ∧
    (let s := bareState demoThread { shadows := [(.thr 0, demoShadow)] }
     (s.ctx 0).shadow (.thr 0) = some demoShadow ∧ (s.ctx 0).shadow (.grp 3) = none ∧ s.members 0 (.thr 0) = [0]) ∧
    (bareState.worlds.look 4).any (fun x => !x.aborted) = true ∧ bareState.worlds.look 9 = none ∧
    saveReady bareState 0 = false ∧ (coreState { Core.init 0 with quiesced := true }).core 0 = { (coreState (Core.init 0)).core 0 with quiesced := true } ∧ (let s := coreState { Core.init 0 with cxsw := { save := true } }; saveReady s 0 = true ∧ (s.core 0).frames.length < saveFrames s 0) ∧
    (let s := coreState { Core.init 0 with cxsw := { save := true }, frames := List.replicate 512 9 }; saveReady s 0 = true ∧ saveFrames s 0 ≤ (s.core 0).frames.length) ∧
    (let s := { coreState { Core.init 0 with cxsw := { restore := true, root := 3 } } with saves := [(3, { ctx := { threads := [(1, demoThread)] }, frames := [] })] }
     (s.core 0).cxsw.restore = true ∧ (s.saves.look 3).isSome = true) ∧
    (State.reset.core 0).inService = true ∧ (bareState.core 0).latch = some 4 ∧
    (coresOf 1).find? (fun y => y != 0 && (bareState.core y).inService) = some 1 := by
  refine ⟨?_, ?_, ?_, ?_, ?_, ?_, ?_, ?_, ?_, ?_, ?_, ?_, ?_, ?_, ?_, ?_⟩ <;> decide +kernel

/-- A record is posted where the page of the queue is the world's: a table at 0x10000, whose second level maps 1 GiB. -/
def pagedState : State := { bareState with
  mem := [(0x10000, 1), (0x10001, 0x10), (0x10002, 1), (0x11010, 0x0F)]
  bark := [(1, { part := some 0, world := some 4 }), (0x20, { part := some 0, world := some 4 })]
  worlds := [(4, { part := 0, root := 0x10000 })] }
theorem witness_Recovery_ring :
    (match ringWord pagedState 4 0x80200000 with | .ok n => n == 0 | .error _ => false) = true ∧
    (match ringPost pagedState 0 4 0x80200000 4 (recBytes 0 4 demoRec) with | .ok _ => true | _ => false) = true ∧
    (xlate pagedState 4 4 0x80200000).isOk = true ∧ (xlate pagedState 4 4 0x80210000).isOk = false := by decide +kernel

theorem witness_RegisterEvents :
    bareState.thr? 0 9 = none ∧ (bareState.thr? 0 0).isSome = true ∧ demoThread.grp = none ∧ (bareState.ctx 0).lead = none ∧
    ((bareState demoThread { lead := some 0 }).ctx 0).lead = some 0 ∧ (ofLevel .app).level ≠ .steward ∧
    (let s := { bareState with parts := bareState.parts.put 1 { cfg := { quarters := 2 }, pqm := 2, pmil := 0, pmig := 21, pnbp := 0, actw := 1 } }
     s.parts.look 3 = none ∧ (∀ q ∈ s.parts.look 0, BitVec.setWidth 4 (0x51 : Word) = q.pqm ∧ s.parts.look 1 ≠ none) ∧ (0x51 : Word).getLsbD 6 = true) ∧
    (let t : Part := { cfg := { quarters := 2 }, pqm := 2, pmil := 0, pmig := 21, pnbp := 0, actw := 1, pcede := 0x42 }
     let k := (bareState.parts.look 0).getD t
     let s := { bareState with parts := [(0, { k with pqst := 2 }), (1, t)] }
     s.parts.look 1 = some t ∧ t.pcede.getLsbD 6 = true ∧ t.pcede.toNat / 16 % 4 = 0 ∧ s.parts.look 0 = some { k with pqst := 2 } ∧
       ({ k with pqst := 2 } : Part).pqst.setWidth 4 &&& t.pcede.setWidth 4 ≠ (0 : BitVec 4)) ∧
    capUnit bareState 0 31 = some (0, 31) ∧ capUnit bareState 0 32 = none ∧
    (∀ k ∈ ([{}, { st := 1, src := 0x10005 }, { st := 2, src := 0x100006, pend := 8 }] : List Capture),
      capOf { bareState with dies := [(0, { caps := [(31, k)] })] } 0 31 = k) ∧
    capValues bareState 0 { src := 5 } [] = [0] ∧ capValues bareState 0 { src := 0x3005 } [7] = [] ∧ capValues bareState 0 { src := 4 } [7] = [7] ∧
    bareState.heart.mbox = [] := by decide +kernel

def demoFlit (m : Msg) : Flit := { dest := 5, src := 6, key := 1, seq := 0, vc := 0, ctr := 1, msg := m, good := true }
theorem witness_Arrivals :
    (fabState.port 0).live = true ∧ (fabState.port 1).live = false ∧
    (∀ m ∈ [Msg.req demoReq, .ans { id := 1, code := none, val := 0 }, .token 0x80000000 6 12 0 4], flitOk fabState 0 (demoFlit m) = true) ∧
    flitOk fabState 0 { demoFlit (.loss 6) with vc := 3, key := 0 } = true ∧
    (let s := { fabState with gate := [(3, { demoGate .open_ true with peer := some (6, 2) })] }
     flitOk s 0 { demoFlit (.session 3 false) with vc := 3, key := 0 } = true ∧ (s.port 0).live = true ∧ (s.gateRec 3).st = .open_ ∧
       (s.gateRec 3).peer = some ((demoFlit (.session 3 false)).src, 2)) ∧ flitOk fabState 0 { demoFlit (.loss 6) with ctr := 0 } = false ∧
    flitOk fabState 0 { demoFlit (.loss 6) with seq := 1 } = false ∧ flitWorld fabState (demoFlit (.loss 6)) = some 4 ∧
    (fabState.setPort 0 { up := true, bad := 15 }).port 0 = { up := true, bad := 15 } ∧ (fabState.die 0).tokens.length < 65536 ∧
    (fabState.port 1).enabled = true ∧ (fabState.port 1).dead = false ∧ lossDue fabState 0 6 = false ∧
    (let s := { fabState with fab := { fabState.fab with ports := [], timers := [(6, 0)] }, ioclk := 2 ^ 20 }
     lossDue s 0 6 = true ∧ s.lostTo 0 6 = false ∧ s.route 0 6 ≠ 0 ∧ s.route 0 7 = 0) ∧
    (let s := { fabState with worlds := fabState.worlds.put 4 { part := 0, fn := some 5 } }
     s.fnWorld 5 = some 4 ∧ s.fnWorld 6 = none ∧ hostKey s 4 = true ∧ (homeRange s 4 0x80000000 4 .load).isOk = false) ∧ hostKey bareState 4 = false ∧
    (let s := { bareState with bells := [(4, { pending := 3, rung := 2 })], worlds := bareState.worlds.put 4 { part := 0, fn := some 5 } }
     bellDue s 4 = true ∧ bellDue bareState 4 = false ∧ (s.bells.look 4).isSome = true) := by decide +kernel
theorem witness_Arrivals_host :
    homeRange demoState 4 0x80000000 4 .load = .ok [demoHome] ∧ homeRange demoState 4 0x80000000 4 .store = .ok [demoHome] ∧
    isDoorbell 4 demoHome = false ∧ poisoned demoState 4 0x80000000 4 [demoHome] = false :=
  ⟨rfl, rfl, demo_no_doorbell 4 rfl, by decide +kernel⟩

def demoBox (l : List Nat) : Box := { part := 0, va := 0x80000000, cmd := 1, arg := fun i => l.getD i 0 }
theorem witness_Heartwood :
    bareState.heart.mbox = [] ∧ bareState.heart.owner = false ∧ bareState.unlocked = 0 ∧ hasProtected bareState = false ∧
    (let s := { bareState with heart := { mbox := [{ part := 0, word := 1 }] } }
     s.heart.mbox = [{ part := 0, word := 1 }] ∧ (mailBox s { part := 0, word := 1 }).isNone = true) ∧
    (∀ q ∈ [8, 12, 16, 128, 136], let b := demoBox [9, 0, 0, 0, q, 0]
      (b.arg 4 < 16 ∨ 128 < b.arg 4 ∨ b.arg 4 % 8 ≠ 0) ↔ (q ≠ 16 ∧ q ≠ 128)) ∧
    bareState.worlds.has 9 = false ∧ (bareState.worlds.look 4).any (fun x => x.part == 0) = true ∧ (∃ e ∈ bareState.cores, e.2.latch = some 4) ∧
    (∀ e ∈ State.reset.cores, e.2.latch ≠ some 4) ∧ granules bareState 0 0 2 = some [0, 1] ∧ granules bareState 0 1 2 = none ∧
    granules bareState 0 (2 ^ 39 - 65536) 2 = none ∧ pendingGranule bareState 0 = false ∧
    (let s := { bareState with bark := [(0, { part := some 0, world := some 4 }), (1, { scrub := true })] }
     pendingGranule s 0 = false ∧ pendingGranule s 1 = true) ∧
    bareState.spdm 2 = none ∧ (let s := { bareState with heart := { spdm := [(2, { id := 2, keyed := true, open_ := true })] } }; (s.spdm 2).any (fun v => v.keyed && v.open_) = true) ∧
    bareState.keys.look 1 = none ∧ portReg 0x190 = true ∧ portReg 0x005 = false := by decide +kernel

theorem witness_Reliability :
    ((bareState.die 0).auds.look 0).isNone = true ∧
    (let s := { stewardState with cores := stewardState.cores ++ [(6, { Core.init 6 with latch := some 4 })], dies := [(0, { auds := [(0, { core := 5, world := 4, sig := 0, left := 0 })] })] }
     ((s.die 0).auds.look 0).isSome = true ∧ s.partOf 5 = some 0 ∧ auditCores s { core := 5, world := 4, sig := 0, left := 0 } = [6] ∧ (s.core 6).marks = [] ∧ (s.core 5).inService = true) ∧
    dieOf 95 = 0 ∧ dieOf 96 = 1 ∧ (bareState.die 0).power.clk < 4 ∧ pendingGranule { bareState with bark := [(7, { scrub := true })] } 7 = true ∧
    pendingGranule { bareState with scrub := [(0, 7)] } 7 = true ∧ pendingGranule { bareState with scrub := [(0, 7)] } 6 = false ∧
    (coresOf 1).head? = some 0 ∧ (coresOf 8).head? = some 144 ∧ (1#4 ≠ 0) := by decide +kernel

/-- Every family of words has a well-formed instruction. -/
theorem witness_EncodeDecode :
    (Instr.iadd { guard := 7, inv := true, imm := 5 } .s64 true (.x 126) (.y 62) .imm).wellFormed = true ∧
    (Instr.iadd { guard := 7, inv := true, imm := 5 } .s64 true (.x 126) (.y 62) .imm).toFields.isSome = true ∧
    (decode (encode (.nop {}))).toOption = some (.nop {}) := by decide +kernel

/-- A bundle that has issued meets its line. -/
def issuedState (w : Nat) : State := { bareState with cores := [(0, { Core.init 0 with latch := some 4, fbuf := [{ demoFetch with data := placedLine w }], ctx := { threads := [(0, demoThread)] } })], pipes := [demoBundle], focus := none }
theorem witness_StepRunsDecoded :
    (∀ w ∈ [0x5A, 0xFFF],
      let s := issuedState w
      let d := placedLine w
      s.on = true ∧ s.pipes = demoBundle :: [] ∧ (s.thr? 0 0).any (fun th => th.park.isNone && th.pc == demoBundle.pc && th.entered) = true ∧
      breaks s 0 0 = false ∧ fbuf? s 0 demoBundle.pc = some { demoFetch with data := d } ∧ malformed d = false ∧ opensPair d (slotOf demoBundle.pc) = false) ∧
    (decode (slotWord (placedLine 0x5A) 0)).toOption = some (.nop {}) ∧ (decode (slotWord (placedLine 0xFFF) 0)).toOption = none ∧
    (State.reset.core 0).ctx.bpctl = 0 := by decide +kernel
/-- A lawful pair: two additions that share no register. -/
theorem witness_StepRunsDecoded_pair :
    (∃ f g, aluOf (.iadd {} .s32 false (.x 5) (.x 6) (.x 6)) = some f ∧ aluOf (.fmul {} .f32 .rne (.x 7) (.x 8) (.x 9)) = some g ∧ lawful f g = true) := ⟨_, _, rfl, rfl, by decide +kernel⟩

theorem witness_StepKeepsMemory : State.MemOk State.reset ∧ State.MemOk (issuedState 0x5A) ∧ (match step (issuedState 0x5A) with | .next _ => true | _ => false) = true :=
  ⟨by unfold State.MemOk; decide +kernel, by unfold State.MemOk; decide +kernel, by decide +kernel⟩
theorem witness_StopsOnlyWithoutPower : State.reset.on = true ∧ ({ State.reset with on := false }).inputs = [] := by decide +kernel

/-! ### More of the hypotheses: the cases that a clause sets apart -/

/-- An input that R130 leaves to the bounds of R131, at the accurate grade; one of the reduced domain; an exact case. -/
theorem witness_Functions_bounds :
    (let x := 0x3FC00000
     x < 2 ^ 32 ∧ (∀ fn ∈ [Fn.exp2, .log2, .rsqrt, .sin, .cos, .tanh, .sigm, .erf], fnInvalid fn x = none ∧ fnSpecial fn x = none ∧
       fnExactCase fn ((Ty.fmt .f32).dy x) = none ∧ fnReduced fn x = true) ∧ (Ty.fmt .f32).isSub x = false ∧
       fVal (Ty.fmt .f32) x < fVal (Ty.fmt .f32) 0x43000000) ∧
    (fnV .rcp .f32 true .rne 0 0x40400000 = 0x3EAAAAAB) ∧
    (Ty.fmt .f32).mag 0xBECCCCCD < ((Ty.fmt .f32).bias + (Ty.fmt .f32).fb) * 2 ^ (Ty.fmt .f32).fb ∧
    ((Ty.fmt .f32).bias + (Ty.fmt .f32).fb) * 2 ^ (Ty.fmt .f32).fb ≤ (Ty.fmt .f32).mag 0x4B000000 := by decide +kernel

/-- A target in the fetch buffer passes the check where its slot is marked. -/
theorem target_hit {s : State} {c : Nat} {pc : DWord} {l : FLine} (e : fbuf? s c pc = some l) (f : l.bad = false)
    (a : isInstrAddr pc = true) (m : (targetMask l.data).getLsbD (slotOf pc) = true) : checkTarget s c pc = (s, none) := by
  simp [checkTarget, fetchLine, e, f, a, m]
/-- The state in which a fifth call spills, and one in which four addresses stand on the chip and no area is set. -/
theorem witness_ControlTransfers_calls :
    checkTarget (demoState spillThread) 0 0x40010000 = (demoState spillThread, none) ∧ (demoState spillThread).thr? 0 0 = some spillThread ∧
    spillThread.stack.length = 4 ∧ spillThread.spLimit ≠ 0 ∧ spillThread.spilled.toNat * 8 + 8 ≤ spillThread.spLimit.toNat ∧
    (let th := { demoThread with stack := [1, 2, 3, 4] }
     checkTarget (bareState th) 0 0x40010000 = (bareState th, none) ∧ (bareState th).thr? 0 0 = some th ∧ th.spLimit = 0) ∧
    checkTarget bareState 0 0x40010000 = (bareState, none) ∧ bareState.thr? 0 0 = some demoThread ∧ demoThread.stack.length < 4 ∧
    (let th := { demoThread with stack := [0x40010000] }
     checkTarget (bareState th) 0 0x40010000 = (bareState th, none) ∧ (bareState th).thr? 0 0 = some th ∧ th.stack = [] ++ [0x40010000]) :=
  ⟨target_hit (l := demoFetch) (by decide +kernel) rfl (by decide +kernel) (by decide +kernel), by decide +kernel, by decide +kernel⟩

/-- An atomic on a line at home that is no doorbell and no poison returns what was there. -/
theorem rmw_answers {s : State} {c va n : Nat} {o : Op} {r : Rmw} {d : Dst} {ord : MOrd} {sc : Scope} {h : Home}
    (b : o.body = .rmw .g va n r d ord sc none) (hs : o.homes = [h]) (e : isDoorbell o.world h = false)
    (p : poisoned (fillL2 s o.world h o.evict) o.world va n [h] = false) : ∃ v old, performRmw s c o = (v, some old) := by
  unfold performRmw
  rw [b]
  simp only [hs, List.headD_cons, e, p]
  exact ⟨_, _, rfl⟩
theorem witness_ThreadEnds_rmw :
    let s := irrevocable demoAtomic 0 0
    let o : Op := { id := 0, tid := 0, cls := .stores, pc := 0x40010000, agent := demoAtomic.agentId 0 0, sgn := demoAtomic.sigId 0 0, world := 4,
                    evict := 3, homes := [demoHome], body := .rmw .g 0x80000000 4 (.int .add .u32 1) .zero .rel .sys none }
    ∃ v old, performRmw s 0 o = (v, some old) :=
  rmw_answers rfl rfl (demo_no_doorbell 4 rfl) (by decide +kernel)

/-- A snapshot of a core, stored into a region that the handler owns. -/
def dumpState : State := { withParked with dies := [(0, { l2 := [demoLine], tokens := [demoToken .write demoAgent []] })] }
/-- A load of an app-level thread that has issued and is not accepted. -/
theorem witness_HandlerDebug_walks :
    let s := { bareState (ofLevel .app) with walks := [demoBundle] }
    demoBundle ∈ s.walks ∧ demoBundle.core = 0 ∧ (s.thr? 0 0).map (·.level) = some .app ∧ 0 ∈ demoBundle.tids := by decide +kernel
theorem witness_HandlerDebug_dump :
    ∃ l, dumpData dumpState demoEnv 3 7 = some l ∧
      ∃ v, storeAct { ord := .rlx, scope := .core, evict := 3 } l.length 64 {} (.x 4) (fun _ _ => l) demoEnv 0x40010000 dumpState = .done v := by
  have n : (dumpCore dumpState 0 0).length = 64 := by decide +kernel
  have e : accessCheck dumpState demoEnv .g (addrOf dumpState demoEnv {} .g (.x 4)) 64 64 .store = .ok (dumpState, 0x80000000, [demoHome]) := by
    rw [show addrOf dumpState demoEnv {} .g (.x 4) = 0x80000000 by decide +kernel]
    exact demo_access rfl (demo_global (by decide +kernel) rfl rfl (by decide +kernel) rfl)
  have c : ¬ dumpState.count demoEnv.c demoEnv.t .stores ≥ 63 := by decide +kernel
  have w : storeWait dumpState demoEnv { ord := .rlx, scope := .core, evict := 3 } = none := by decide +kernel
  refine ⟨dumpCore dumpState 0 0, rfl, ?_⟩
  unfold storeAct
  rw [n, if_neg c, show (MMod.space { ord := .rlx, scope := .core, evict := 3 }) = .g from rfl, e, w]
  exact ⟨_, rfl⟩

/-- A page table at 0x10000, whose second level maps 1 GiB, writable and not executable. -/
def tabledState : State := { bareState with
  mem := [(0x10000, 1), (0x10001, 0x10), (0x10002, 1), (0x11010, 0x0B)]
  bark := [(1, { part := some 0, world := some 4 }), (0x20, { part := some 0, world := some 4 })]
  worlds := [(4, { part := 0, root := 0x10000 })] }
theorem witness_AccessChecks_fetch :
    remapHit bareState 4 0x40010000 = none ∧ (leafOf bareState 4 0x40010000).isOk = false ∧ remapHit tabledState 4 0x80200000 = none ∧
    tabledState.worldOf 0 = 4 ∧ tabledState.l2? 4 (lineVa 0x80200000) = none ∧
    (match leafOf tabledState 4 0x80200000 with
      | .ok l => !l.sec && onStack (stackFor tabledState 4 0x80200000 (l.page + lineVa 0x80200000 % 4096)) (l.page + lineVa 0x80200000 % 4096) && !l.exec
      | .error _ => false) = true := by decide +kernel

/-- A store of 7 over the first byte of the demo line leaves it as small as it was. -/
theorem witness_Stores_held :
    demoState.l2? 4 demoHome.va = some demoLine ∧ windowLine demoState 4 demoHome.va = false ∧
    (format (lineOfBytes (overlay (lineBytes demoLine.data) 0 [7]))).2 ≤ (format demoLine.data).2 :=
  ⟨rfl, by decide +kernel, by decide +kernel⟩
theorem witness_AtomicsPerformed_line :
    poisoned (fillL2 demoState 4 demoHome 3) 4 0x80000000 8 [demoHome] = false ∧ windowLine demoState 4 demoHome.va = false := ⟨by decide +kernel, by decide +kernel⟩

/-- A prefetch of a line that a store of the core is on its way to, and of one that none is. -/
theorem witness_OrderAndRanges_prefetch :
    globalCheck demoState 0 0 0x80000000 1 .load = .ok (demoState, [demoHome]) ∧
    (let held := fun (s : State) => (l1Hit s 0 4 0x80000000 demoHome).isNone && lineBusy (s.ctx 0) (s.ctx 0).nextOp 4 demoHome.va
     held demoState = false ∧ held (demoState demoThread { nextOp := 2, ops := [demoStore .g 0x80000000 [7]] }) = true) :=
  ⟨demo_global (by decide +kernel) rfl rfl (by decide +kernel) rfl, by decide +kernel, by decide +kernel⟩

/-- The watched word of the demo line; entries of the queue; every group number taken; the last member and one of two leave. -/
theorem witness_WaitingAndDecisions_word :
    poisoned demoState 4 0x80000000 4 [demoHome] = false ∧
    natOf (homeBytes (fillL2 demoState 4 demoHome 3) 4 0x80000000 4 [demoHome]) = 0x10000005 ∧
    (let s := bareState demoThread { dq := [(7, 127)] }
     (s.ctx 0).dq = [(7, 127)] ∧ demoThread.blk = .run ∧ ∀ x ∈ (s.ctx 0).threads, x.2.blk ≠ .retry .dqEntry) :=
  ⟨by decide +kernel, by decide +kernel, by decide +kernel⟩
theorem witness_GroupFormation_members :
    (let s := bareState demoThread { groups := (List.range 64).map fun g => (g, { key := 1, want := 2, slice := 2, formed := true, mem := [(0, 9)] }) }
     64 ≤ (gidsUsed s 0 0).length ∧ forming? s 0 7 2 2 = none) ∧ gidsUsed bareState 0 0 = [] ∧
    (let s := { pairState with focus := some demoBundle }
     Can s .app {} {} ∧ (s.thr? 0 0).map (·.grp) = some (some (3, 0)) ∧ ((s.group? 0 3).map fun g => g.mem.del 0) = some [(1, 1)] ∧ (s.ctx 0).cvs = []) ∧
    ((inGroup.group? 0 3).map fun g => g.mem.del 0) = some [] :=
  ⟨by decide +kernel, by decide +kernel, ⟨can_of (by decide +kernel), by decide +kernel⟩, by decide +kernel⟩
theorem witness_Barriers_phase :
    let s := barrierState false true (.bar .core) (.rwait .core 1 5)
    (∃ gr, s.group? 0 3 = some gr ∧ gr.mem.vals = [0, 1] ∧ gr.sat = false ∧ gr.mem ≠ []) ∧ (s.ctx 0).phaseStep = false :=
  ⟨⟨_, rfl, by decide +kernel⟩, by decide +kernel⟩

theorem witness_Tiles_reads :
    (demoTile .ready).mread = 0 ∧ ({ demoTile .ready with mread := 1 } : Tile).mread ≠ 0 ∧ (demoTile .empty).replay = false ∧
    (bareState.ctx 0).tiles = [] ∧ (bareState.ctx 0).copies = [] ∧ (∀ q ∈ (bareState.ctx 0).ops, q.done = true) := by decide +kernel
theorem witness_CopiesEnd_tiles :
    let s := copyState (.cpIn 2 demoPat 0 3)
    (s.core 0).marks = [] ∧ (s.ctx 0).tiles.look 2 = some { demoTile .filling with off := 65536 } ∧ (demoCopy (.cpIn 2 demoPat 0 3)).sig = none ∧
    (s.op? 0 1).all (fun o => o.retired == none) = true ∧ (s.thr? 0 0).isSome = true ∧ (s.ctx 0).tiles.look 1 = some (demoTile .ready) := by decide +kernel

/-- Registers that are idle, bound and fully signed; an image of a register that its owner loads; a full queue. -/
theorem witness_MatrixState_images :
    (∀ r ∈ (mmState.ctx 0).rsv, r.releasing = false) ∧ (mmState.ctx 0).mq = [] ∧
    (let l := [1, 0] ++ bytesOf 2 (ownerCode mmState 0 ag0) ++ bytesOf 4 3 ++ bytesOf 4 0
     natOf (l.take 1) = 1 ∧ natOf ((l.drop 8).take 4) = 0 ∧ natOf ((l.drop 1).take 1) / 2 % 2 = 0 ∧
       natOf ((l.drop 2).take 2) = ownerCode mmState 0 (mmState.agentOf 0 0) ∧ (mmState.ctx 0).cvs.look 14 = none ∧
       (heldMask (mmState.ctx 0) ag0).any (·.getLsbD 14) = true) ∧
    (let v := { demoCv with bound := some demoBound, signed := 1 }
     v.bound = some demoBound ∧ (∀ i, i < 32 → v.mask.getLsbD i = true → v.signed.getLsbD i = true)) ∧
    (let q : List MmEntry := List.replicate 8 { agent := ag0, kind := .clr 0 false, ops := [], pc := 0, since := 0 }
     8 ≤ ((mmState { mq := q }).ctx 0).mq.length) := by decide +kernel

/-- A second agent to whom a right may pass, and an entry that the steward holds. -/
def twoThreads (t : Token) : State := (withToken t).modCtx 0 fun x => { x with threads := x.threads ++ [(1, demoThread)] }
theorem witness_TokenCommands_receivers :
    (let s := twoThreads (demoToken .write demoAgent [])
     liveAgent s 4 (s.agentId 0 1) = true ∧ s.agentId 0 1 ≠ demoAgent ∧ wordDev (s.agentId 0 1) = none ∧ s.worldOf 0 = 4) ∧
    (let t := demoToken .write stewardWord []
     let s := withToken t
     (s.tokens.filter fun x => x.2.world == 4 && rangesMeet x.2.base (2 ^ x.2.n) 0x80000000 (2 ^ 12)) = [(0, t)] ∧ t.mirror = none ∧ t.count ≤ 1 ∧ t.taint = false ∧
       (claimCheck { demoState with dies := s.dies.map fun d => (d.1, { d.2 with l2 := [demoLine] }) } demoEnv 4 0x80000000 12 .write).isNone = true) ∧
    (withToken { demoToken .write demoAgent [] with pending := some (demoPass .drop) }).entry? 4 0x80000000 ≠ none := by decide +kernel
theorem witness_TokenPasses_waiting :
    (let t := { demoToken .rs 9 [9] with pending := some (demoPass (.share 7)) }
     t.holders.contains 7 = false ∧ t.mirror = none ∧ wordDev 7 = none) ∧
    (let s := { withToken (demoToken .write demoAgent []) demoThread { nextOp := 2, ops := [{ demoStore .g 0x80000000 [7] with agent := demoAgent }] } with
       ending := [(0, demoAgent, 4, true)] }
     agentQuiet s 0 demoAgent = false ∧ endsReady s 0 demoAgent 4 = false) ∧ demoThread.blk = .run := by decide +kernel

/-- A pool whose first item is read; records that match; an exchange of two records of this gate, agreed and not. -/
def poolState : State := { bareState with
  gate := [(3, { demoGate .open_ true with pools := [(ShTy.s32.ctorIdx, { base := 0x80000000, n := 12, count := 4, pages := [(0x80000, 0x200)] })] })] }
theorem witness_ShareArithmetic_item :
    (takeItem poolState demoEnv 3 (poolState.gateRec 3) .s32).isOk = true ∧ (poolState.gateRec 3).ended = false := by decide +kernel
def facingGate (party : Bool) (w p : Nat) : Gate :=
  { st := .opening, world := w, tag := 9, party := party
    desc := [9, 0, 0, 0, BitVec.ofNat 8 party.toNat, 0, 0, 0, BitVec.ofNat 8 p, 0, 0, 0, 1, 0, 0, 0] ++ List.replicate 48 0 }
theorem witness_GateSessions_gate :
    (let s := { bareState with worlds := [(4, { part := 0, meas := List.replicate 8 0 }), (5, { part := 0, meas := List.replicate 8 0 })]
                               gate := [(0, facingGate true 4 5), (1, facingGate false 5 4)] }
     matches_ s 0 1 = true ∧ (s.gateRec 0).held = none ∧ (s.gateRec 1).held = none) ∧
    (let g := { demoGate .open_ true with mine := some (demoContrib 0), theirs := some (demoContrib 0), peer := some (1023, 5) }
     let s := { bareState with gate := [(3, g)] }
     s.gateRec 3 = g ∧ s.fab.devno = 1023 ∧ (demoContrib 0).ty ≠ .b16) ∧
    (let g := { demoGate .open_ true with pending := some (demoContrib 0), peer := some (6, 1), waiter := some 0, waitTo := [0], dst := .x 6 }
     let s := { bareState { demoThread with blk := .xch 3 } with gate := [(3, g)] }
     s.gateRec 3 = g ∧ g.party = true ∧ 6 ≠ s.fab.devno ∧ (s.thr? 0 0).map (·.blk) = some (.xch 3)) ∧
    (let g := { demoGate .open_ true with since := some 0 }
     let s := { bareState with gate := [(3, g)], ioclk := 1024 }
     s.gate = [(3, g)] ∧ g.waiter = none ∧ ∀ x ∈ s.cores, ∀ y ∈ x.2.ctx.threads, y.2.blk ≠ .retry (.gate 3)) ∧
    lineBusy (demoState.ctx 0) (demoState.ctx 0).nextOp 4 demoHome.va = false ∧
    lineBusy ((demoState demoThread { nextOp := 2, ops := [demoStore .g 0x80000000 [7]] }).ctx 0) 2 4 demoHome.va = true ∧
    (demoGate .open_ true).pools.look ShTy.s32.ctorIdx ≠ none := by decide +kernel

/-- Both widths and both outcomes of a shoot-down's wait, and a partition whose interleave fits the quarters it takes. -/
theorem witness_Partitioning_accesses :
    accesses stewardState (fun _ _ => true) (fun _ => true) = [] ∧
    accesses (stewardState { nextOp := 2, ops := [demoStore .g 0x80000000 [7]] }) (fun w _ => w == 4) (fun _ => false) ≠ [] ∧
    accesses (stewardState { nextOp := 2, ops := [{ id := 1, tid := 0, cls := .copies, pc := 0, world := 4, body := .copy 7 }] }) (fun _ _ => false) (· == 4) ≠ [] ∧
    (ofLevel .steward).blk = .run ∧ (stewardState.ctx 5).mq = [] ∧ (stewardState.ctx 5).sort.queue = [] ∧ (stewardState.ctx 5).threads = [] ∧
    (∀ y ∈ stewardState.parts, y.1 ≠ 0 → y.2.pqm &&& 1 = 0) ∧ (∀ j, j < 2 → ((rebound stewardState 0 1 0xFFF).die j).tokens.length ≤ 65536) := by decide +kernel

/-- Nothing that has run out, a core with no room, and work on a core. -/
theorem witness_Scheduling_waits :
    (∀ e ∈ (bareState.ctx 0).threads, e.2.blk = .run) ∧ (bareState.ctx 0).groups = [] ∧ (bareState.ctx 0).lead = none ∧
    (bareState.core 0).ccnt.toNat + 1 < 2 ^ 64 ∧ demoThread.grp = none := by decide +kernel
theorem witness_Placement_waits :
    (let s := coreState { Core.init 0 with waiting := [demoBlock] }
     restoring s 0 = false ∧ 4 * demoBlock.count * demoBlock.quota ≤ 524288 - regBytes (s.ctx 0)) ∧
    (let s := bareState { demoThread with framed := true } { evicted := [(.thr 0, [9])] }
     s.members 0 (.thr 0) = [0] ∧ ∀ f ∈ [9], s.spoiled.contains (frameOf f) = false) ∧
    (let r : SpawnRec := { entry := 0x40010000, count := 40, arg := 7, quota := 16, world := 4 }
     let s := coreState { Core.init 0 with steal := { queue := [r] } }
     ownerTakes s 0 = false ∧ (s.core 0).inService = true) ∧
    (let r : SpawnRec := { entry := 0x40010000, count := 4, arg := 7, quota := 16, world := 4 }
     ownerTakes (coreState { Core.init 0 with steal := { queue := [r] } }) 0 = true) ∧
    poisoned demoState 4 0x80000000 32 [demoHome] = false := by
  refine ⟨?_, ?_, ?_, ?_, ?_⟩ <;> decide +kernel

/-- A ring that is full and one that is not; a shadow that has been used; a save whose thread waits for nothing; a core without a thread. -/
theorem witness_Recovery_more :
    (let s := bareState (ofLevel .handler) { recs := [demoRec], handler := some 0, fqctl := 4 }
     handlerParked s 0 = false ∧ (s.ctx 0).fqctl.toNat % 16 ≠ 0 ∧ postOwn s 0 ≠ none) ∧
    (let s := { pagedState with mem := pagedState.mem ++ [(0x200000, 16)], cores := [(0, { pagedState.core 0 with ctx := { (pagedState.ctx 0) with fqb := 0x80200000, fqctl := 4 } })] }
     (match ringWord s 4 0x80200000 with | .ok n => n == 16 | .error _ => false) = true ∧ (16 + 65536 - 4 / 65536) % 65536 = 2 ^ (4 % 16)) ∧
    (bareState.parts.look 0).any (fun q => q.recs.isEmpty) = true ∧ demoShadow.rolled = false ∧ demoShadow.frames = [] ∧ ({ demoShadow with rolled := true } : Shadow).rolled = true ∧
    (∀ a d v w l q n, demoThread.blk ≠ .mwait a d v w l q ∧ demoThread.blk ≠ .sleep n) ∧
    residentWork bareState 0 = true ∧ residentWork (coreState (Core.init 0) |>.modCtx 0 fun x => { x with threads := [] }) 0 = false := by
  refine ⟨?_, ?_, ?_, ?_, ?_, ?_, ?_, ?_, ?_⟩ <;> first | decide +kernel | (intros; exact ⟨nofun, nofun⟩)

theorem witness_Arrivals_gate :
    (let s := { fabState with gate := [(3, demoGate .open_ true)] }
     s.gate.look 3 = some (demoGate .open_ true) ∧ flitOk s 0 (demoFlit (.gate 3 (demoContrib 0))) = true ∧ flitWorld s (demoFlit (.gate 3 (demoContrib 0))) = some 4) ∧
    hostKey { fabState with worlds := fabState.worlds.put 4 { part := 0, fn := some 5 } } 4 = true ∧ fabState.stewardCore 0 = none := by decide +kernel

/-- Granules that a world of the partition holds, to be taken back. -/
theorem witness_Heartwood_revoke :
    (let s := { bareState with bark := [(0, { part := some 0, world := some 4 }), (1, { part := some 0, world := some 4 })] }
     ∃ l, granules s 0 0 2 = some l ∧ ∀ gr ∈ l, ∃ q, s.bark.look gr = some q ∧ q.part = some 0 ∧ q.scrub = false) ∧
    (∃ l, granules bareState 0 0 1 = some l ∧ 0 ∈ l ∧ ∀ q, bareState.bark.look 0 = some q → q.part ≠ some 0 ∨ q.scrub = true) ∧
    bareState.worlds.has 9 = false ∧ ((bareState (demoThread)).thr? 0 0).isSome = true ∧ (withParked.thr? 0 7).any (·.park.isSome) = true := by
  refine ⟨⟨[0, 1], by decide +kernel, ?_⟩, ⟨[0], by decide +kernel, by decide, ?_⟩, by decide +kernel, by decide +kernel, by decide +kernel⟩
  · intro gr m
    rcases List.mem_cons.1 m with rfl | m
    · exact ⟨_, rfl, rfl, rfl⟩
    · rcases List.mem_singleton.1 m with rfl; exact ⟨_, rfl, rfl, rfl⟩
  · intro q e
    rw [show bareState.bark.look 0 = none by decide +kernel] at e
    cases e

/-- The counters of a window at their thresholds and above; a window that has run; a sample with no core to run it again. -/
theorem witness_Reliability_windows :
    crossed { errors := [(0, Config.errThreshold 0 + 1)] } 0 = true ∧ crossed {} 0 = false ∧ cleanDomain {} 0 = true ∧ cleanDomain { errors := [(3, 1)] } 0 = false ∧
    (let s := { bareState with dies := [(0, { age := 2 ^ 24, power := { above := 5 } })] }
     windowDue s 0 0 = true ∧ windowDue bareState 0 0 = false ∧ (s.die 0).power.above + 2 ^ 20 ≤ (s.die 0).age) ∧
    (bareState.die 0).age < (bareState.die 0).power.above + 2 ^ 20 ∧
    (let v : AudSlot := { core := 0, world := 4, sig := 0, left := 0 }
     let s := { bareState with dies := [(0, { auds := [(0, v)] })] }
     (s.die 0).auds.look 0 = some v ∧ auditCores s v = [] ∧ v.left ≤ (s.die 0).age ∧ s.partOf v.core = some 0) := by
  refine ⟨?_, ?_, ?_, ?_, ?_, ?_, ?_⟩
  · simp [crossed]
  all_goals decide +kernel

/-! ### More cases that a clause sets apart -/

theorem witness_Collective_alone :
    demoThread.grp = none ∧ Can bareState .app { ks := [3], kds := [2] } {} ∧ Can bareState .app { dsts := [(.x 5, 1)], ks := [0] } {} ∧
    Can bareState .app { srcs := wide true [.x 4] ++ one [.imm], dsts := wideD true (.x 6) } { imm := 1 } ∧
    Can bareState .app { srcs := wide false [.x 4], dsts := [(.x 6, 1)] } {} ∧ Can bareState .app (ofType .f32 [.x 10] (.x 5)) {} :=
  ⟨rfl, can_of (by decide +kernel), can_of (by decide +kernel), can_of (by decide +kernel), can_of (by decide +kernel), can_of (by decide +kernel)⟩

/-- Threads that have arrived: for a group of one, at one that forms, at its last place, out of another group, in one cycle and before it. -/
def arriving (want slice : Nat) (n : Option Nat) (at_ : Nat) (th : Thread := demoThread) : Thread := { th with blk := .moving 7 want slice n at_ }
def formingState (want : Nat) (n : Option Nat) : State :=
  (bareState (arriving want 2 n 3) { groups := [(3, { key := 7, want := want, slice := 2, mem := [(0, 1)] })] }).modCore 0 fun k =>
    { k with ccnt := 5, ctx := { k.ctx with threads := k.ctx.threads ++ [(1, { demoThread with grp := some (3, 0), blk := .join })] } }
theorem witness_GroupFormation_arrivals :
    (let s := formingState 2 none
     arrivals s 0 = [(3, 0)] ∧ (s.ctx 0).threads.keys.Nodup ∧ 3 < nowOf s 0 ∧ (forming? s 0 7 2 2).map (·.1) = some 3 ∧ joinRights s 0 0 = [] ∧
       s.todo.contains (.rollback 0 (s.unitOf 0 0)) = false ∧ (s.thr? 0 0).map (·.grp) = some none) ∧
    (let s := formingState 3 (some 2)
     (forming? s 0 7 3 2).map (·.1) = some 3 ∧ (gidsUsed s 0 0).length < 64 ∧ (s.group? 0 3).map (fun gr => (gr.mem.has 2, gr.mem.length)) = some (false, 1)) ∧
    (let s := formingState 2 (some 0)
     (s.group? 0 3).map (fun gr => gr.mem.has 0) = some true) ∧
    (let s := bareState (arriving 1 2 none 0)
     nowOf s 0 ≤ 0 ∧ forming? s 0 7 1 2 = none ∧ joinRights s 0 0 = [] ∧ (s.ctx 0).groups.has 0 = false) ∧
    (let s := pairState.modThr 0 0 fun th => arriving 2 4 none 0 th
     (s.thr? 0 0).map (·.grp) = some (some (3, 0)) ∧ ((s.group? 0 3).map fun gr => (gr.formed, gr.mem.del 0, gr.mem.look 0)) = some (true, [(1, 1)], some 0) ∧
       (s.ctx 0).cvs = [] ∧ (s.ctx 0).groups.keys.Nodup ∧ joinRights s 0 0 = []) ∧
    (let s := (bareState (arriving 2 2 none 4)).modCtx 0 fun x => { x with threads := x.threads ++ [(1, arriving 2 2 none 4), (9, arriving 2 2 none 3)] }
     arrivals s 0 = [(3, 9), (4, 0), (4, 1)]) := by decide +kernel

/-- `wb.ld` of nothing with every counter full; an element of eight bytes. -/
theorem witness_Copies_none :
    (let s := bareState { demoThread with regs := demoThread.regs.set 0 1 0 } { ops := opsOf 63 .copies }
     Can s .app { srcs := [(.x 4, 2), (.imm, 1), (.x 1, 1)] } { imm := 128 } ∧ (rdWord s demoEnv { imm := 128 } (.x 1)).toNat = 0 ∧
       addrOf s demoEnv { imm := 128 } .g (.x 4) % 64 = 0 ∧ s.count 0 0 .copies = 63) ∧
    (let s := bareState demoThread { tiles := [(1, { off := 0, rows := 4, cols := 4, esz := 8, st := .empty })] }
     Can s .app { srcs := one [.x 4] } {} ∧ (tileAt s demoEnv 1).map (·.esz) = some 8 ∧ (Src.x 4).al 2 = true ∧ (Src.x 1).al 2 = false ∧
       srcAvail demoThread (.x 4, 2) = true ∧ srcAvail { demoThread with quota := 6 } (.x 4, 2) = true ∧
       srcAvail { demoThread with quota := 8 } (.x 8, 2) = false) ∧
    (let s := patState .empty
     (rdWord s demoEnv { imm := 2 } .imm).toNat % 4 ≠ 0 ∧ (∃ y ∈ (s.ctx 0).tiles, 0 < y.2.off + y.2.rows * y.2.pitch ∧ y.2.off < 0 + 4) ∧
       ∀ y ∈ (s.ctx 0).tiles, y.2.off + y.2.rows * y.2.pitch ≤ 131072) := by
  refine ⟨⟨can_of ?_, ?_⟩, ⟨can_of ?_, ?_⟩, ?_⟩ <;> decide +kernel

/-- A record without indices; a copy with a signal word; a source that drains. -/
theorem witness_CopiesEnd_data :
    (patOf demoPat).isz = 0 ∧ copyShape demoPat (demoTile .filling) = true ∧
    (∀ k ∈ [CopyKind.cpOut 1 demoPat 0 3, .wb 64 0x80000000 128 3],
      copyReady (copyState k) 0 (demoCopy k) = true ∧ ((copyState k).core 0).marks = []) ∧
    (let q := { demoCopy (.fill 2 5) with sig := some 786428 }
     q.sig = some 786428 ∧ markedBytes (copyState (.fill 2 5)) 0 false 786428 4 = false) ∧
    (let s := patState .draining
     (s.ctx 0).tiles.look 2 = some { demoTile .draining with off := 65536 } ∧ (1 : Nat) ≠ 2) := by decide +kernel

/-- Rows in order: one of two keys, and one that is empty. -/
theorem witness_SortOrder :
    (let s := sortState { cells := [(0, { key := 3, valid := true }), (1, { key := 7, valid := true, org := 1 })] }
     let row := fun (r : Nat) => (List.range 64).map fun i => (s.ctx 0).sort.cells.get {} (r * 64 + i)
     (s.core 0).marks = [] ∧ (s.ctx 0).sort.opt.count = 0 ∧ ((row 0).Pairwise fun x y => before (s.ctx 0).sort.opt y x = false) ∧
       ((row 1).Pairwise fun x y => before (s.ctx 0).sort.opt y x = false)) ∧
    ((List.range 64).map fun _ => ({} : Cell)).length = 64 := by decide +kernel
theorem witness_SortWork_rows :
    (∀ k ∈ [SortCmd.topk 5, .merge 0 63],
      ((sortState { holder := some ag0, queue := [sortEntry k (some 4)], opt := { rows := true } }).ctx 0).sort.queue = [sortEntry k (some 4)]) ∧
    (sortEntry (.load 1 none .u32 false true false) (some 4)).seen = [] ∧ (0 : Nat) ≠ 63 := by decide +kernel

/-- A region in the window that a change of the interleave opens: a prior placement of its world lays its lines elsewhere. -/
def windowState (th : Thread := demoThread) : State :=
  let s := bareState th
  { s with parts := s.parts.map fun e => (e.1, { e.2 with pqst := 0x10, pmil := 1, prior := [(0, 21, 1, [4])] }) }
theorem witness_TokenCommands_window :
    windowLine windowState 4 0x80000000 = true ∧ windowLine bareState 4 0x80000000 = false ∧
    Can windowState .app (tokenUses (.x 4) [.x 6]) {} ∧ Can windowState .app { srcs := [(.x 4, 2)], dsts := [(.x 5, 1)] } {} := by
  refine ⟨?_, ?_, can_of ?_, can_of ?_⟩ <;> decide +kernel
/-- The modes, pending or not; shares that name another mode and a receiver that holds one. -/
theorem witness_TokenCommands_query :
    (∀ t ∈ [demoToken .write demoAgent [], demoToken .rs 9 [9, demoAgent], { demoToken .at 9 [9] with pending := some (demoPass .drop), taint := true }],
      (withToken t).entry? 4 0x80000000 = some (0, t) ∧ t.n < 32 ∧ t.count < 4096) ∧
    (let t := demoToken .rs demoAgent [demoAgent, 9]
     t.mode ≠ .write ∧ t.holders.contains demoAgent = true ∧ t.holders.contains 9 = true ∧ TMode.at ≠ t.mode ∧ t.pending = none ∧ t.mirror = none) := by
  decide +kernel
theorem witness_TokenPasses_failures :
    (let t := { demoToken .write 8 [] with lender := 9 }
     (t.mode = .write ∧ (9 : Word) ≠ t.owner ∧ t.lender = 9) ∧ ((t.owner == 7) || (t.lender == 7) || t.holders.any (· == 7)) = false ∧
       (t.owner == 8) = true ∧ (t.lender == 9) = true) ∧
    (let t := demoToken .rs 8 [8, 9, stewardWord]
     t.holders.contains 9 = true ∧ t.owner ≠ 9 ∧ t.holders.contains stewardWord = true) ∧
    (∀ q ∈ [demoPass (.lend 7)], ∃ x ∈ (withToken { demoToken .write demoAgent [] with pending := some q }).tokens,
      (x.2.pending.any fun y => y.kind.receiver == some 7) = true) := by decide +kernel

/-- Items whose sequence is the cursor's and another. -/
theorem witness_ShareArithmetic_sequence :
    (∃ pl, (poolState.gateRec 3).pools.look ShTy.s32.ctorIdx = some pl ∧ pl.cursor ≠ pl.count ∧
      poisoned poolState 4 (pl.base + pl.cursor * 16) 16 [pl.home (pl.cursor * 16)] = false ∧
      ((itemWords .s32 (homeBytes poolState 4 (pl.base + pl.cursor * 16) 16 [pl.home (pl.cursor * 16)])).getD 3 0).toNat = pl.cursor) ∧
    (let s := poolState.modGate 3 fun g => { g with pools := g.pools.map fun e => (e.1, { e.2 with cursor := 1 }) }
     ∃ pl, (s.gateRec 3).pools.look ShTy.s32.ctorIdx = some pl ∧ pl.cursor ≠ pl.count ∧
      poisoned s 4 (pl.base + pl.cursor * 16) 16 [pl.home (pl.cursor * 16)] = false ∧
      ((itemWords .s32 (homeBytes s 4 (pl.base + pl.cursor * 16) 16 [pl.home (pl.cursor * 16)])).getD 3 0).toNat ≠ pl.cursor) :=
  ⟨⟨_, rfl, by decide +kernel⟩, ⟨_, rfl, by decide +kernel⟩⟩

/-- Records of both parties, open and facing each other, with and without a contribution on its way. -/
def openPair (a b : Option Contrib) (th : Thread := ofLevel .steward) : State :=
  { bareState th with parts := bareState.parts.map (fun e => (e.1, { e.2 with actw := 4 })), gate := [(0, { demoGate .open_ true with peer := some (1023, 1), pending := a }),
                               (1, { demoGate .open_ false with peer := some (1023, 0), pending := b })] }
theorem witness_GateSessions_close :
    (∀ s ∈ [openPair none none, openPair (some (demoContrib 0)) none, openPair none (some (demoContrib 0))],
      isSteward s demoEnv = true ∧ (s.gateRec 0).st = .open_ ∧ (s.gateRec 0).peer = some (s.fab.devno, 1) ∧ (s.gateRec 1).peer = some (s.fab.devno, 0) ∧
        (s.gateRec 1).st = .open_ ∧ (s.gateRec 0).theirs = none ∧ (s.gateRec 0).world = s.actWorld 0 0) ∧
    Can (openPair none none) .app { srcs := one [.imm], dsts := [(.x 5, 1)] } {} ∧ (rdWord (openPair none none) demoEnv {} .imm).toNat % 64 = 0 ∧
    (let s := { openPair none none with gate := [(0, demoGate .opening true)] }
     (s.gateRec 0).st = .opening ∧ (s.gateRec 0).world = s.actWorld 0 0) := by
  refine ⟨?_, can_of ?_, ?_, ?_⟩ <;> decide +kernel
theorem witness_GateSessions_open :
    (let w : List Word := List.replicate 8 0
     let r := facingGate true 4 5
     let l := (facingGate false 5 4).desc
     let g' : Gate := { st := .opening, world := 5, tag := BitVec.ofNat 32 (natOf (l.take 4)), party := descParty l, desc := l,
                        timeout := 1024 * natOf ((l.drop 12).take 4) }
     let s := { bareState with worlds := [(4, { part := 0, meas := w }), (5, { part := 0, meas := w })], gate := [(0, r)] }
     descOk l = true ∧ s.gate = [(0, r)] ∧ matches_ { s with gate := [(0, r), (1, g')] } 1 0 = true) := by decide +kernel
theorem witness_GateSessions_timer :
    (let g := { demoGate .open_ true with since := some 0, peer := some (1023, 5) }
     let s := { bareState with gate := [(3, g)], contribs := [(3, demoContrib 0)], ioclk := 1025 }
     s.gateRec 3 = g ∧ gateExpired s g = true ∧ gateExpired s (s.gateRec 5) = false ∧ 0 + g.timeout < s.ioclk ∧
       gateExpired { s with ioclk := 1024 } g = false ∧ (1024 : Nat) ≤ 0 + g.timeout) ∧
    (let g := { demoGate .open_ false with peer := some (6, 2) }
     let s := { bareState with gate := [(3, g)] }
     s.contribs = [] ∧ s.gateRec 3 = g ∧ 6 ≠ s.fab.devno ∧ g.theirs = none ∧ g.mine = none ∧ gateExpired s g = false) := by decide +kernel
/-- A pool over the demo page, in which nothing is owned; one of no items, one whose base is no page, one that another right meets. -/
theorem witness_GateSessions_pool :
    (let s := { demoState with gate := [(3, { demoGate .opening true with pools := [] })] }
     ((s.gateRec 3).st = .opening ∧ (s.gateRec 3).pools.has ShTy.s32.ctorIdx = false ∧ 0x80000000 % 2 ^ 12 = 0 ∧ 4 * 16 ≤ 2 ^ 12 ∧
       (s.tokens.filter fun y => entryMeets y.2 4 0x80000000 12) = [] ∧ tableFull s (s.homeDie 4 0x80000000) = false ∧ s.homeDie 4 0x80000000 < 2) ∧
     lineCheck s 0 4 0x80000000 .store = .ok demoHome) ∧
    (let s := { withToken (demoToken .rs demoAgent [demoAgent]) with gate := [(3, { demoGate .opening true with pools := [] })] }
     ∃ y ∈ s.tokens.filter fun y => entryMeets y.2 4 0x80000000 12, y.2.mode ≠ .write) ∧
    (let s := { withToken (demoToken .write stewardWord []) with gate := [(3, { demoGate .opening true with pools := [] })] }
     ∃ d tk, (s.tokens.filter fun y => entryMeets y.2 4 0x80000000 12) = [(d, tk)] ∧ entryOf tk 4 0x80000000 12 = true ∧ tk.owner = stewardWord ∧
       tk.pending = none) :=
  ⟨⟨by decide +kernel, rfl⟩, by decide +kernel, ⟨0, _, rfl, by decide +kernel⟩⟩

/-- Quarters held and free, quarters that scrub, a core of a quarter to be freed that is latched; an offer that is taken. -/
theorem witness_Partitioning_bounds :
    (∀ x ∈ stewardState.parts.look 0, freeQuarters stewardState = 14 ∧ (x.pqm ||| 3#4) &&& ~~~(freeQuarters stewardState) &&& ~~~(heldBy x) ≠ 0 ∧
      stacksIn x.pmil 3 = true ∧ stacksIn x.pmil 2 = false) ∧
    (let s := { stewardState with parts := stewardState.parts.map fun e => (e.1, { e.2 with pqst := 1 }) }
     (∀ x ∈ s.parts.look 0, (x.pqm ||| 3#4) &&& ~~~(freeQuarters s) &&& ~~~(heldBy x) = 0 ∧ x.pqm &&& ~~~(3#4) = 0) ∧
       (∀ y ∈ quarters (3#4 &&& freeQuarters s), stackScrubbing s (2 * y) = false ∧ stackScrubbing s (2 * y + 1) = false) ∧
       (let s' := { s with scrub := [(2, 2 ^ 21)] }
        ∃ y ∈ quarters (3#4 &&& freeQuarters s'), stackScrubbing s' (2 * y) = true)) ∧
    (∃ y ∈ coresOf 1, ∃ w, (stewardState.core y).latch = some w ∧ 4 ≤ w) ∧
    (let s := { stewardState with parts := stewardState.parts.map (fun e => (e.1, { e.2 with pqst := 1 })) ++ [(1, { cfg := { quarters := 2 }, pqm := 2, pmil := 0, pmig := 21, pnbp := 0, actw := 1, pcede := 0x42 })] }
     offeredTo s 0 = 2 ∧ ∀ o ∈ s.parts, o.2.pqm &&& 3#4 ≠ 0 → o.1 = 0 ∨ o.1 = 1) := by decide +kernel

/-- Shadows that may be used; one that has been, one that holds an irrevocable operation; no shadow; and a member that is parked. -/
theorem witness_Recovery_decision :
    (let s := bareState demoThread { shadows := [(.thr 0, demoShadow)] }
     (s.ctx 0).shadow (.thr 0) = some demoShadow ∧ demoShadow.rolled = false ∧ demoShadow.irrevocable = false ∧ demoShadow.unshadowed = false ∧
       demoShadow.retaken = false ∧ demoShadow.sort = none ∧ demoShadow.cause = none ∧ s.todo = [] ∧ (∀ t ∈ s.members 0 (.thr 0), (s.thr 0 t).park = none)) ∧
    ({ demoShadow with irrevocable := true } : Shadow).irrevocable = true ∧ (bareState.ctx 0).shadow (.thr 0) = none ∧
    (∃ t ∈ withParked.members 0 (.thr 7), (withParked.thr 0 t).park ≠ none) := by decide +kernel
theorem witness_RegisterEvents_more :
    bareState.partOf 0 = some 0 ∧ (0x22 : Word).toNat / 2 % 32 = 17 ∧ (0x20 : Word).toNat / 2 % 32 = 16 ∧
    (let s := { bareState with dies := [(0, { caps := [(31, { src := 0x30005 }), (30, { st := 1, src := 0x30005 })] })] }
     ((s.die (quarterOf 0 / 2)).caps.look 31).map (·.st) = some 0) ∧
    (∀ n ∈ [1, 3], let k : Capture := { src := BitVec.ofNat 32 n }; 1 ≤ k.src.toNat % 256 ∧ k.src.toNat % 256 ≤ 3) ∧
    (let k : Capture := { src := 0x3004 }; k.src.toNat % 256 = 4 ∧ 48 ≤ k.src.toNat / 256 % 64) := by decide +kernel
/-- A port that has lost its link with flits in its buffer, and the others' that stay. -/
theorem witness_Arrivals_trained :
    (let s := fabState.setPort 0 { replay := [(0x80000000, demoFlit (.loss 6))] }
     (s.port 0).enabled = true ∧ (s.port 0).dead = false ∧ (s.port 0).up = false ∧ (s.port 0).replay.length = 1 ∧
       ∀ n, n < 48 → n ≠ 0 → (s.port n).replay = []) := by decide +kernel
/-- A command and an unlock token of one window. -/
theorem witness_Heartwood_window :
    (let s := { bareState with hwmem := [], heart := { mbox := [{ part := 0, word := 1 }], mfg := true } }
     s.heart.mbox = [{ part := 0, word := 1 }] ∧ s.heart.mfg = true ∧ s.unlocked = 0 ∧ hasProtected s = false) ∧
    (let s := { bareState with unlocked := 1 }
     s.unlocked ≠ 0 ∧ (worldNew s (demoBox [9, 1, 0, 0, 16, 0])).2 = 4 ∧ (worldNew bareState (demoBox [9, 1, 0, 0, 16, 0])).2 = 0) ∧
    (bareState.core 0).latch = some 4 ∧ ((bareState.worlds.look 4).any fun x => x.protectd == false) = true := by decide +kernel
/-- Clean lines of both kinds that an error strikes. -/
theorem witness_Reliability_lines :
    demoState.l2? 4 (lineVa 0x80000008) = some demoLine ∧ demoLine.dirty = false ∧
    (let f : FarLine := { world := 4, va := 0x80000000, data := 5, left := 9, perm := {} }
     let s := { bareState with dies := [(1, { far := [f] })] }
     ∃ x ∈ (s.die 1).far, x.world = 4 ∧ x.va = lineVa 0x80000008) :=
  ⟨rfl, rfl, by decide +kernel⟩

/-! ### Single instructions, with results the spec writes out -/

/-- Register x5 of the demo thread after an instruction. -/
def x5after (i : Instr) (th : Thread := demoThread) : Option Word := match exec i (bareState th) with
  | .next s => some ((s.thr 0 0).regs.get 0 5)
  | _ => none
/-- The word placed runs, and the thread of the step goes on to the next slot. -/
def runs (w : Nat) : Bool := match step (State.reset.withFetchWord 96 w) with
  | .next s => (s.thr 0 0).pc == 0x1000C
  | _ => false

/-- R96: the least value by −1 wraps, or is clamped with `.sat`; division by zero gives −1. -/
theorem test_idiv : x5after (.idiv {} .s32 false (.x 5) (.x 1) (.x 2)) = some 0x80000000 ∧
    x5after (.idiv {} .s32 true (.x 5) (.x 1) (.x 2)) = some 0x7FFFFFFF ∧ x5after (.idiv {} .s32 false (.x 5) (.x 6) (.x 3)) = some 0xFFFFFFFF := by
  decide +kernel
/-- R60, R115, R116: the event NaN of inf − inf names its cause and the bits of its address; 1 − 1 toward −inf is −0. -/
theorem test_float : x5after (.fsub {} .f32 .rne (.x 5) (.x 10) (.x 10)) = some 0x7FC10400 ∧
    x5after (.fmul {} .f32 .rne (.x 5) (.x 3) (.x 10)) = some 0x7FC20400 ∧
    x5after (.fsub { imm := 0x3F800000 } .f32 .rd (.x 5) .imm .imm) = some 0x80000000 := by decide +kernel
/-- R61: the address is that of the instruction's own slot. -/
theorem test_float_event_slot :
    x5after (.fsub {} .f32 .rne (.x 5) (.x 10) (.x 10)) { demoThread with pc := 0x40012A4C } = some 0x7FC104A9 := by decide +kernel
/-- R122: rounding keeps the sign of a zero. -/
theorem test_round : x5after (.frnd { imm := 0xBECCCCCD } .f32 .rne (.x 5) .imm) = some 0x80000000 := by decide +kernel
/-- R104: 5·1 + (−8)·(−1) + 1·0 + 9·1, by hand. R127: the example of the weight byte 0x92. R124: the example of 70000.0. -/
theorem test_bytes :
    x5after (.idp4 { imm := 0x0901F805 } .s8 false (.x 5) .imm (.x 7) (.sp .zero)) { demoThread with regs := [(7, 0x0100FF01)] } = some 22 ∧
    x5after (.tcvt { imm := 0x92 } .s8 .t1 .rne (.x 5) .imm (some (.x 3))) = some 0x0100FF01 ∧
    x5after (.tcvt { imm := 1 } .s8 .t1 .rne (.x 5) (.x 6) (some .imm)) { demoThread with regs := [(6, 0x92)] } = some 0 ∧
    x5after (.fcvt { imm := 0x4788B800 } .f16 .f32 .rne false (.x 5) .imm) = some 0x7BFF := by decide +kernel
/-- R106: a branch that its guard holds back goes on at the next slot. -/
theorem test_guard : (match exec (.br { guard := 7, imm := 8 }) bareState with | .next s => (s.thr 0 0).pc | _ => 0) = 0x4001000C := by decide +kernel
/-- R10, R255: a privileged instruction of the application parks its thread where it stands. -/
theorem test_privileged : (match exec (.partQsc { imm := 1 } (.x 5) .imm) bareState with
    | .next s => (s.thr 0 0).park.isSome && (s.ctx 0).recs.map (·.code) == [0x02]
    | _ => false) = true := by decide +kernel
/-- A placed word is fetched, decoded and run: `nop`, and the addition that the spec writes out. -/
theorem test_step : runs 0x5A = true := by decide +kernel
/-- R154: a store of the scratchpad is seen by a load of the same thread before it is held. -/
theorem test_store_then_load :
    (let m : MMod := { ord := .rlx, scope := .core, evict := 3, space := .l }
     match exec (.st { imm := 8 } m .u32 (.sp .zero) (.x 8)) bareState with
     | .next s => loadNow s 0 { id := 1, tid := 0, cls := .loads, pc := 0, body := .load .l 8 4 .u32 (.x 5) .rlx .core none }
     | _ => []) = [0x01, 0, 0, 0x80] := by decide +kernel

end Sys2Proof.Tests
end

section
/-! SETTLED. O60: every step keeps the byte memory in canonical form. One lemma per state operation says what it leaves of memory
(`…_mem`) or that it keeps the form (`…_wf`), in the order of the model's files; the step's cases put them together. -/
namespace Sys2Proof.Machine

/-! ### What folds keep -/

theorem foldl_keeps {α β γ : Type} {g : β → γ} {f : β → α → β} (hf : ∀ b a, g (f b a) = g b) (l : List α) :
    ∀ b, g (l.foldl f b) = g b := by
  induction l with
  | nil => exact fun _ => rfl
  | cons a l ih => exact fun b => (ih _).trans (hf b a)

@[simp] theorem foldl_mem {α : Type} {f : State → α → State} (hf : ∀ s a, (f s a).mem = s.mem) (l : List α) (s : State) :
    (l.foldl f s).mem = s.mem := foldl_keeps (g := State.mem) hf l s

@[simp] theorem foldl_fst_mem {α β : Type} {f : State × β → α → State × β} (hf : ∀ p a, (f p a).1.mem = p.1.mem) (l : List α)
    (p : State × β) : (l.foldl f p).1.mem = p.1.mem := foldl_keeps (g := fun p => p.1.mem) hf l p

theorem foldr_mem {α : Type} {f : α → State → State} (hf : ∀ a s, (f a s).mem = s.mem) (l : List α) (s : State) :
    (l.foldr f s).mem = s.mem := by
  induction l with
  | nil => rfl
  | cons a l ih => exact (hf _ _).trans ih

theorem foldl_wf {α : Type} {f : State → α → State} (hf : ∀ s a, Memory.wf s.mem = true → Memory.wf (f s a).mem = true) (l : List α)
    {s : State} (hm : Memory.wf s.mem = true) : Memory.wf (l.foldl f s).mem = true :=
  memOk_foldl f hf l hm

/-- The state of a pair that an operation answers. -/
theorem wf_fst {β : Type} {p : State × β} {w : State} {b : β} (hp : Memory.wf p.1.mem = true) (h : p = (w, b)) :
    Memory.wf w.mem = true := by
  rwa [h] at hp

/-- A state that an operation may answer, or the one before it. -/
theorem getD_mem {o : Option State} {s : State} (h : ∀ w, o = some w → w.mem = s.mem) : (o.getD s).mem = s.mem := by
  cases o with
  | none => rfl
  | some w => exact h w rfl

/-- The state in which an instruction ends for a thread. -/
def Res.st : Res → State
  | .done s | .jump s _ | .wait s _ | .gone s | .fail s _ => s
@[simp] theorem Res.st_done (s : State) : (Res.done s).st = s := rfl
@[simp] theorem Res.st_jump (s : State) (pc : DWord) : (Res.jump s pc).st = s := rfl
@[simp] theorem Res.st_wait (s : State) (b : Blk) : (Res.wait s b).st = s := rfl
@[simp] theorem Res.st_gone (s : State) : (Res.gone s).st = s := rfl
@[simp] theorem Res.st_fail (s : State) (r : Raise) : (Res.fail s r).st = s := rfl

/-- The next state of an answer, if there is one, holds its memory in canonical form. -/
def InForm : Answer → Prop
  | .next s => Memory.wf s.mem = true
  | _ => True
@[simp] theorem inForm_next (s : State) : InForm (.next s) ↔ Memory.wf s.mem = true := Iff.rfl

/-! ### Operands (Operands.lean) -/

@[simp] theorem clearMarks_mem (s : State) (c : Nat) (p : ErrAt → Bool) : (clearMarks s c p).mem = s.mem := by
  unfold clearMarks
  split <;> rfl

@[simp] theorem wrX_mem (s : State) (e : Env) (n : Nat) (v : Word) : (wrX s e n v).mem = s.mem := by simp [wrX]

@[simp] theorem wrY_mem (s : State) (e : Env) (n : Nat) (v : Word) : (wrY s e n v).mem = s.mem := by
  unfold wrY
  split <;> simp

@[simp] theorem wrWord_mem (s : State) (e : Env) (d : Dst) (v : Word) (k : Nat) : (wrWord s e d v k).mem = s.mem := by
  unfold wrWord
  split
  · simp
  · split <;> simp
  · rfl

@[simp] theorem wrPair_mem (s : State) (e : Env) (d : Dst) (v : DWord) : (wrPair s e d v).mem = s.mem := by simp [wrPair]

@[simp] theorem wrVal_mem (s : State) (e : Env) (wide : Bool) (d : Dst) (v : DWord) : (wrVal s e wide d v).mem = s.mem := by
  unfold wrVal
  split <;> simp

@[simp] theorem wrPred_mem (s : State) (e : Env) (k : Pred) (b : Bool) : (wrPred s e k b).mem = s.mem := by
  unfold wrPred
  split <;> simp

/-! ### Flags and reports (Flags.lean) -/

@[simp] theorem setSat_mem (s : State) (c t : Nat) : (setSat s c t).mem = s.mem := by
  unfold setSat
  split <;> simp

@[simp] theorem setSatIf_mem (b : Bool) (s : State) (c t : Nat) : (setSatIf b s c t).mem = s.mem := by
  unfold setSatIf
  split <;> simp

@[simp] theorem setSatAgent_mem (s : State) (c : Nat) (a : Agent) : (setSatAgent s c a).mem = s.mem := by
  unfold setSatAgent
  (repeat' split) <;> simp

@[simp] theorem clearSat_mem (s : State) (c t : Nat) : (clearSat s c t).mem = s.mem := by
  unfold clearSat
  split <;> simp

@[simp] theorem setArmed_mem (b : Bool) (s : State) (c t : Nat) : (setArmed b s c t).mem = s.mem := by
  unfold setArmed
  split <;> simp

/-! ### Outstanding operations (Ops.lean) -/

@[simp] theorem State.modOp_mem (s : State) (c id : Nat) (f : Op → Op) : (State.modOp s c id f).mem = s.mem := by simp [State.modOp]

@[simp] theorem finishOp_mem (s : State) (c id : Nat) : (finishOp s c id).mem = s.mem := by simp [finishOp]

@[simp] theorem addOp_mem (s : State) (c t : Nat) (k : Cls) (pc : DWord) (body : OpBody) (homes : List Home) (evict : Nat) (low : Bool) :
    (addOp s c t k pc body homes evict low).1.mem = s.mem := by simp [addOp]

@[simp] theorem markHazard_mem (s : State) (c t : Nat) (l : List Nat) (low : Bool) (ts : List Nat) :
    (markHazard s c t l low ts).mem = s.mem := by
  unfold markHazard
  dsimp only
  (repeat' split) <;> simp

@[simp] theorem clearHazard_mem (s : State) (c t : Nat) : (clearHazard s c t).mem = s.mem := by
  unfold clearHazard
  dsimp only
  split <;> simp

@[simp] theorem State.takeFrames_mem (s : State) (fr : List Nat) : (State.takeFrames s fr).mem = s.mem := by simp [State.takeFrames]

@[simp] theorem State.unveil_mem (s : State) (a n : Nat) : (State.unveil s a n).mem = s.mem := by
  unfold State.unveil
  dsimp only
  split <;> simp

@[simp] theorem blurThreads_mem (s : State) (c : Nat) (ts : List Nat) : (blurThreads s c ts).mem = s.mem := by simp [blurThreads]

@[simp] theorem fromFrames_mem (s : State) (c : Nat) (fr ts : List Nat) (lost : Bool) : (fromFrames s c fr ts lost).mem = s.mem := by
  unfold fromFrames
  split <;> simp

@[simp] theorem modShadow_mem (s : State) (c : Nat) (u : UnitId) (f : Shadow → Shadow) : (modShadow s c u f).mem = s.mem := by
  unfold modShadow
  split <;> rfl

@[simp] theorem addShadow_mem (s : State) (c : Nat) (u : UnitId) (f : Shadow → Shadow) : (addShadow s c u f).mem = s.mem := by
  unfold addShadow
  dsimp only
  (repeat' split) <;> simp

@[simp] theorem irrevocable_mem (s : State) (c t : Nat) : (irrevocable s c t).mem = s.mem := by simp [irrevocable]

@[simp] theorem dropShadow_mem (s : State) (c : Nat) (u : UnitId) : (dropShadow s c u).mem = s.mem := by
  unfold dropShadow
  split <;> rfl

@[simp] theorem takeShadow_mem (s : State) (c : Nat) (u : UnitId) (pc : DWord) : (takeShadow s c u pc).mem = s.mem := by
  unfold takeShadow
  dsimp only
  split <;> simp

@[simp] theorem markTorn_mem (s : State) (c : Nat) (w : Bool) (off n : Nat) : (markTorn s c w off n).mem = s.mem := by
  unfold markTorn
  dsimp only
  split <;> simp

@[simp] theorem unmarkBytes_mem (s : State) (c : Nat) (w : Bool) (off n : Nat) : (unmarkBytes s c w off n).mem = s.mem := by
  unfold unmarkBytes
  split <;> rfl

@[simp] theorem cowScratch_mem (s : State) (c : Nat) (u : UnitId) (off n : Nat) : (cowScratch s c u off n).mem = s.mem := by
  unfold cowScratch
  dsimp only
  refine (foldl_mem (fun s a => ?_) _ _).trans ?_
  · (repeat' split) <;> simp
  · simp

@[simp] theorem writeScratch_mem (s : State) (c : Nat) (u : Option UnitId) (off : Nat) (l : List Byte) :
    (writeScratch s c u off l).mem = s.mem := by
  unfold writeScratch
  split <;> simp

@[simp] theorem writeWbuf_mem (s : State) (c off : Nat) (l : List Byte) : (writeWbuf s c off l).mem = s.mem := by simp [writeWbuf]

@[simp] theorem noteLoose_mem (s : State) (c : Nat) (w : Bool) (off n : Nat) (seen : List Nat) (wb : Option Nat) :
    (noteLoose s c w off n seen wb).mem = s.mem := by simp [noteLoose]

@[simp] theorem meetLoose_mem (s : State) (c : Nat) (ts : List Nat) : (meetLoose s c ts).mem = s.mem := by simp [meetLoose]

@[simp] theorem observe_mem (s : State) (c t : Nat) (ids : List Nat) : (observe s c t ids).mem = s.mem := by
  unfold observe
  split <;> rfl

@[simp] theorem observeBytes_mem (s : State) (c : Nat) (ts : List Nat) (w : Bool) (off n : Nat) :
    (observeBytes s c ts w off n).mem = s.mem := by simp [observeBytes]

@[simp] theorem dropPosts_mem (s : State) (c : Nat) (p : PostAt) : (dropPosts s c p).mem = s.mem := by
  unfold dropPosts
  split <;> rfl

@[simp] theorem post_mem (s : State) (c t : Nat) (p : PostAt) (sc : Scope) : (post s c t p sc).mem = s.mem := by
  unfold post
  dsimp only
  split <;> simp

@[simp] theorem takePosts_mem (s : State) (c t : Nat) (p : PostAt) (sc : Scope) : (takePosts s c t p sc).mem = s.mem := by simp [takePosts]

@[simp] theorem setTile_mem (s : State) (c : Nat) (u : Option UnitId) (n : Nat) (v : Option Tile) : (setTile s c u n v).mem = s.mem := by
  unfold setTile
  split <;> simp

@[simp] theorem modTile_mem (s : State) (c : Nat) (u : Option UnitId) (n : Nat) (f : Tile → Tile) : (modTile s c u n f).mem = s.mem := by
  unfold modTile
  split <;> simp

@[simp] theorem sendSteward_mem (s : State) (c : Nat) (r : FRec) : (sendSteward s c r).mem = s.mem := by
  unfold sendSteward
  split <;> simp

@[simp] theorem report_mem (s : State) (c : Nat) (lv : Level) (r : FRec) : (report s c lv r).mem = s.mem := by
  unfold report
  split <;> simp

@[simp] theorem parkSub_mem (s : State) (c : Nat) (l : List (Nat × Raise)) : (parkSub s c l).mem = s.mem := by
  unfold parkSub
  split <;> simp

@[simp] theorem errorDecision.refuse_mem (c : Nat) (s : State) (u : UnitId) : (errorDecision.refuse c s u).1.mem = s.mem := by
  unfold errorDecision.refuse
  dsimp only
  (repeat' split) <;> simp

@[simp] theorem errorDecision_mem (s : State) (c : Nat) (u : UnitId) (r : FRec) : (errorDecision s c u r).1.mem = s.mem := by
  unfold errorDecision
  dsimp only
  (repeat' split) <;> simp

@[simp] theorem takeFaults_mem (s : State) (c : Nat) (l : List (Nat × Raise)) : (takeFaults s c l).mem = s.mem := by
  unfold takeFaults
  dsimp only
  refine (foldl_mem (fun s a => ?_) _ _).trans ?_
  · (repeat' split) <;> simp
  · simp

@[simp] theorem failOp_mem (s : State) (c : Nat) (o : Op) (code : BitVec 6) (elem : Word) (addr : DWord) :
    (failOp s c o code elem addr).mem = s.mem := by
  unfold failOp
  split <;> simp

@[simp] theorem failOps_mem (s : State) (c : Nat) (ids : List Nat) (code : BitVec 6) : (failOps s c ids code).mem = s.mem := by
  unfold failOps
  refine foldl_fst_mem (fun p o => ?_) _ _
  split <;> simp

theorem popFail_mem {s w : State} {c t : Nat} {r : Raise} (h : popFail s c t = some (w, r)) : w.mem = s.mem := by
  unfold popFail at h
  split at h
  · cases h; simp
  · cases h

@[simp] theorem resumeSub_mem (s : State) (c : Nat) (p : Parked) (mask : Word) (pc : Option DWord) :
    (resumeSub s c p mask pc).mem = s.mem := by simp [resumeSub]

@[simp] theorem advance_mem (s : State) (c t : Nat) (pc : DWord) (jumped : Bool) : (advance s c t pc jumped).mem = s.mem := by
  simp [advance]

@[simp] theorem advanceNext_mem (s : State) (c t : Nat) : (advanceNext s c t).mem = s.mem := by simp [advanceNext]

@[simp] theorem setBlk_mem (s : State) (c t : Nat) (b : Blk) : (setBlk s c t b).mem = s.mem := by simp [setBlk]

@[simp] theorem raise_st (s : State) (code : BitVec 6) (addr : DWord) : (raise s code addr).st = s := rfl

@[simp] theorem modSched_mem (s : State) (c : Nat) (u : UnitId) (f : Sched → Sched) : (modSched s c u f).mem = s.mem := by
  unfold modSched
  split <;> simp

@[simp] theorem noteResults_mem (s : State) (c t : Nat) (u : Uses) (start : Nat) : (noteResults s c t u start).mem = s.mem := by
  simp [noteResults]

@[simp] theorem occupy_mem (s : State) (b : Bundle) (n : Nat) : (occupy s b n).mem = s.mem := by
  unfold occupy
  split <;> simp

@[simp] theorem Run.pass_mem (r : Run) (u : Uses) (h : Hdr) (start : Nat) : (Run.pass r u h start).s.mem = r.s.mem := by simp [Run.pass]

@[simp] theorem latchCcnt_mem (u : Uses) (s : State) (c t skew : Nat) : (latchCcnt u s c t skew).mem = s.mem := by
  unfold latchCcnt
  split <;> simp

@[simp] theorem endFor_mem (u : Uses) (c t : Nat) (pc : DWord) (start : Nat) (r : Run) (a : Res) :
    (endFor u c t pc start r a).s.mem = a.st.mem := by
  cases a with
  | wait s b => dsimp only [endFor]; rw [setBlk_mem]; split <;> simp
  | _ => simp [endFor]

theorem memberStep_wf {lv : Level} {u : Uses} {h : Hdr} {act : Env → DWord → State → Res} (b : Bundle)
    (hact : ∀ e pc s, Memory.wf s.mem = true → Memory.wf (act e pc s).st.mem = true) {r : Run} (hr : Memory.wf r.s.mem = true) (t : Nat) :
    Memory.wf (memberStep b lv u h act r t).s.mem = true := by
  unfold memberStep
  split
  · exact hr
  · dsimp only
    (repeat' split) <;> simp [hr, hact]

theorem perThread_wf {s : State} {lv : Level} {u : Uses} {h : Hdr} {act : Env → DWord → State → Res} (hm : Memory.wf s.mem = true)
    (hact : ∀ e pc s, Memory.wf s.mem = true → Memory.wf (act e pc s).st.mem = true) : Memory.wf (perThread lv u h act s).mem = true := by
  unfold perThread
  split
  · exact hm
  · rename_i b _
    simp only [takeFaults_mem, occupy_mem]
    exact List.foldlRecOn (motive := fun r : Run => Memory.wf r.s.mem = true) b.tids _ hm fun _ hr t _ => memberStep_wf b hact hr t

theorem perBundle_wf {s : State} {lv : Level} {u : Uses} {h : Hdr} {act : Env → DWord → List Nat → State → Res}
    (hm : Memory.wf s.mem = true) (hact : ∀ e pc ts s, Memory.wf s.mem = true → Memory.wf (act e pc ts s).st.mem = true) :
    Memory.wf (perBundle lv u h act s).mem = true := by
  unfold perBundle
  split
  · exact hm
  · rename_i b _
    dsimp only
    have hg : ∀ l : List Nat, Memory.wf (l.foldl (fun s t => if guardOk s b.core t h then s else advanceNext s b.core t) s).mem = true :=
      fun l => foldl_wf (fun s t hm => by split <;> simp [hm]) l hm
    split
    · simpa using hg _
    · have ha : ∀ {e pc ts l r},
          act e pc ts (List.foldl (fun s t => if guardOk s b.core t h then s else advanceNext s b.core t) s l) = r →
          Memory.wf r.st.mem = true := fun hr => hr ▸ hact _ _ _ _ (hg _)
      split <;>
      · rename_i hr
        simpa [apply_ite State.mem] using ha hr

@[simp] theorem eachWrite_mem (e : Env) (ts : List Nat) (f : Env → State → State) (s : State) (hf : ∀ e s, (f e s).mem = s.mem) :
    (eachWrite e ts f s).mem = s.mem :=
  foldl_fst_mem (fun _ _ => hf _ _) _ _

@[simp] theorem readersAdd_mem (s : State) (c n : Nat) (d : ℤ) : (readersAdd s c n d).mem = s.mem := by simp [readersAdd]

@[simp] theorem cancelCv_mem (s : State) (c n : Nat) (report_ : Bool) : (cancelCv s c n report_).mem = s.mem := by
  unfold cancelCv
  split
  · rfl
  · dsimp only
    rw [State.modCtx_mem]
    split <;> simp [apply_ite State.mem]

@[simp] theorem cancelSigner_mem (s : State) (c t : Nat) : (cancelSigner s c t).mem = s.mem := by
  unfold cancelSigner
  dsimp only
  refine (foldl_mem (fun s a => ?_) _ _).trans ?_
  · (repeat' split) <;> simp
  · simp

@[simp] theorem settleRsv_mem (s : State) (c : Nat) : (settleRsv s c).mem = s.mem := by simp [settleRsv]

@[simp] theorem releaseMm_mem (s : State) (c : Nat) (a : Agent) : (releaseMm s c a).mem = s.mem := by
  unfold releaseMm
  refine foldl_mem (fun s a => ?_) _ _
  (repeat' split) <;> simp

@[simp] theorem releaseSort_mem (s : State) (c : Nat) (a : Agent) : (releaseSort s c a).mem = s.mem := by simp [releaseSort]

@[simp] theorem renameAgent_mem (s : State) (c w : Nat) (a b : Agent) (ida idb : Word) :
    (renameAgent s c w a b ida idb).mem = s.mem := by simp [renameAgent]

@[simp] theorem endAgent_mem (s : State) (c : Nat) (a : Agent) (id : Word) (world : Nat) (taint : Bool) :
    (endAgent s c a id world taint).mem = s.mem := by simp [endAgent]

@[simp] theorem copiesOf_mem (s : State) (c t : Nat) (u : UnitId) : (copiesOf s c t u).mem = s.mem := by simp [copiesOf]

@[simp] theorem passLoad_mem (s : State) (c t : Nat) (heir : Nat → Bool) : (passLoad s c t heir).mem = s.mem := by
  unfold passLoad
  refine foldl_mem (fun s a => ?_) _ _
  split <;> simp

@[simp] theorem leaveGroup_mem (s : State) (c t : Nat) (killed : Bool) : (leaveGroup s c t killed).mem = s.mem := by
  unfold leaveGroup
  dsimp only
  (repeat' split) <;> simp

@[simp] theorem unpark_mem (s : State) (c t : Nat) : (unpark s c t).mem = s.mem := by simp [unpark]

@[simp] theorem tellPeer_mem (s : State) (g : Gate) (aborted : Bool) : (tellPeer s g aborted).mem = s.mem := by
  unfold tellPeer
  split
  · split <;> rfl
  · rfl

@[simp] theorem abortSession_mem (s : State) (r : Nat) (own other : BitVec 6) : (abortSession s r own other).mem = s.mem := by
  unfold abortSession
  split
  · rfl
  · split
    · rfl
    · refine foldl_mem (fun s e => ?_) _ _
      dsimp only
      split
      · rfl
      · rw [foldl_mem fun s c => takeFaults_mem ..]
        split <;> simp

@[simp] theorem retire_mem (s : State) (c t : Nat) (killed : Bool) : (retire s c t killed).mem = s.mem := by
  unfold retire
  dsimp only
  (repeat' split) <;> simp

@[simp] theorem audSkip_mem (s : State) (d p : Nat) : (audSkip s d p).mem = s.mem := by simp [audSkip]

@[simp] theorem audAdvance_mem (s : State) (c : Nat) (audited : Bool) : (audAdvance s c audited).mem = s.mem := by
  unfold audAdvance
  split <;> rfl

@[simp] theorem auditSample_mem (s : State) (c : Nat) (inputs : List Nat) (words : List Word) :
    (auditSample s c inputs words).mem = s.mem := by
  unfold auditSample
  dsimp only
  (repeat' split) <;> simp

/-! ### Memory and its caches (Memory.lean) -/

@[simp] theorem writeBack_wf {s : State} (l : L2Line) (hm : Memory.wf s.mem = true) : Memory.wf (writeBack s l).mem = true :=
  memOk_writeBack hm l

@[simp] theorem makeRoom_wf {s : State} (n w : Nat) (set : Nat × Nat × Nat) (size : Nat) (hm : Memory.wf s.mem = true) :
    Memory.wf (makeRoom n s w set size).mem = true :=
  memOk_makeRoom n hm w set size

@[simp] theorem cacheLeaf_mem (s : State) (w va : Nat) : (cacheLeaf s w va).mem = s.mem := by
  unfold cacheLeaf
  split <;> rfl

@[simp] theorem noteSecondary_mem (s : State) (w va : Nat) (h : Home) : (noteSecondary s w va h).mem = s.mem := by
  unfold noteSecondary
  split <;> rfl

@[simp] theorem State.modL2_mem (s : State) (w va : Nat) (f : L2Line → L2Line) : (State.modL2 s w va f).mem = s.mem := by simp [State.modL2]

@[simp] theorem fillL2_wf {s : State} (w : Nat) (x : Home) (prio : Nat) (hm : Memory.wf s.mem = true) :
    Memory.wf (fillL2 s w x prio).mem = true :=
  memOk_fillL2 hm w x prio

@[simp] theorem wakeLine_mem (s : State) (w va : Nat) : (wakeLine s w va).mem = s.mem := by simp [wakeLine]

@[simp] theorem homeWrite_wf {s : State} (w die : Nat) (x : Home) (off : Nat) (d : List Byte) (sig : Option (Sig × Bool)) (prio : Nat)
    (hm : Memory.wf s.mem = true) : Memory.wf (homeWrite s w die x off d sig prio).mem = true :=
  memOk_homeWrite hm w die x off d sig prio

@[simp] theorem homeWriteN_wf {s : State} (w die va : Nat) (d : List Byte) (hs : List Home) (sig : Option (Sig × Bool)) (prio : Nat)
    (hm : Memory.wf s.mem = true) : Memory.wf (homeWriteN s w die va d hs sig prio).mem = true :=
  memOk_homeWriteN hm w die va d hs sig prio

@[simp] theorem dropL1_mem (s : State) (c : Nat) (p : CLine → Bool) : (dropL1 s c p).mem = s.mem := by simp [dropL1]

@[simp] theorem storeL1_mem (s : State) (c w va : Nat) (d : List Byte) (hs : List Home) : (storeL1 s c w va d hs).mem = s.mem := by
  unfold storeL1
  refine foldl_mem (fun s a => ?_) _ _
  split
  rfl

@[simp] theorem dropConst_mem (s : State) (c : Nat) : (dropConst s c).mem = s.mem := by simp [dropConst]

@[simp] theorem setSig_mem (s : State) (c : Nat) (a : Word) (v : Sig × Sig) : (setSig s c a v).mem = s.mem := by simp [setSig]

@[simp] theorem joinSig_mem (s : State) (c : Nat) (a : Word) (v : Sig) : (joinSig s c a v).mem = s.mem := by simp [joinSig]

@[simp] theorem enterSig_mem (s : State) (c : Nat) (a : Word) (va : Nat) : (enterSig s c a va).mem = s.mem := by simp [enterSig]

@[simp] theorem enterHeld_mem (s : State) (c : Nat) (o : Op) (va : Nat) : (enterHeld s c o va).mem = s.mem := by
  unfold enterHeld
  dsimp only
  split <;> simp

@[simp] theorem acquireAll_mem (s : State) (c w : Nat) (sc : Scope) : (acquireAll s c w sc).mem = s.mem := by
  unfold acquireAll
  dsimp only
  (repeat' split) <;> simp

@[simp] theorem applySig_mem (s : State) (c : Nat) (a : Word) (sg : Sig) (far : Bool) : (applySig s c a sg far).mem = s.mem := by
  unfold applySig
  dsimp only
  refine (foldl_mem (fun s a => ?_) _ _).trans ?_
  · simp
  · (repeat' split) <;> simp

@[simp] theorem acquireLine_mem (s : State) (c w : Nat) (a : Word) (h : Home) (sc : Scope) : (acquireLine s c w a h sc).mem = s.mem := by
  unfold acquireLine
  dsimp only
  (repeat' split) <;> simp

theorem globalCheck_mem {s w : State} {c t va n : Nat} {k : Acc} {hs : List Home} (h : globalCheck s c t va n k = .ok (w, hs)) :
    w.mem = s.mem := by
  unfold globalCheck at h
  dsimp only at h
  (repeat' split at h) <;> cases h
  simp

theorem accessCheck_mem {s w : State} {e : Env} {sp : Space} {off n al va : Nat} {k : Acc} {hs : List Home}
    (h : accessCheck s e sp off n al k = .ok (w, va, hs)) : w.mem = s.mem := by
  unfold accessCheck at h
  split at h
  · cases h
  · split at h
    · unfold scratchAccess at h; split at h <;> cases h; rfl
    · unfold windowAccess at h; split at h <;> cases h; rfl
    · unfold constAccess at h; (repeat' split at h) <;> cases h; rfl
    · unfold globalAccess at h; split at h <;> cases h; exact globalCheck_mem ‹_›

/-! ### Fetch (Fetch.lean) -/

@[simp] theorem fillFetch_wf {s : State} (c : Nat) (pc : DWord) (hm : Memory.wf s.mem = true) :
    Memory.wf (fillFetch s c pc).mem = true := by
  unfold fillFetch
  dsimp only
  (repeat' split) <;> simp [hm]

@[simp] theorem fetchLine_wf {s : State} (c : Nat) (pc : DWord) (hm : Memory.wf s.mem = true) :
    Memory.wf (fetchLine s c pc).1.mem = true := by
  unfold fetchLine
  split
  · split <;> simp [hm]
  · split <;> simp [hm]

@[simp] theorem checkTarget_wf {s : State} (c : Nat) (pc : DWord) (hm : Memory.wf s.mem = true) :
    Memory.wf (checkTarget s c pc).1.mem = true := by
  unfold checkTarget
  split
  · exact hm
  · split <;> exact wf_fst (fetchLine_wf c pc hm) ‹_›

/-! ### Loads, stores and atomics (LoadStore.lean) -/

@[simp] theorem allocL1_mem (s : State) (c w va : Nat) (data : Line) (perm : Perm) (prio left : Nat) :
    (allocL1 s c w va data perm prio left).mem = s.mem := by simp [allocL1]

@[simp] theorem allocConst_mem (s : State) (c w va : Nat) (h : Home) (prio : Nat) : (allocConst s c w va h prio).mem = s.mem := by
  unfold allocConst
  split <;> rfl

@[simp] theorem allocFar_wf {s : State} (c w : Nat) (h : Home) (data : Line) (prio : Nat) (hm : Memory.wf s.mem = true) :
    Memory.wf (allocFar s c w h data prio).mem = true := by
  unfold allocFar
  dsimp only
  rw [State.modDie_mem]
  refine makeRoom_wf _ _ _ _ ?_
  split <;> exact hm

@[simp] theorem fillHome_wf {s : State} (c w va : Nat) (h : Home) (prio : Nat) (far : Bool) (hm : Memory.wf s.mem = true) :
    Memory.wf (fillHome s c w va h prio far).mem = true := by
  unfold fillHome
  dsimp only
  (repeat' split) <;> simp [hm]

@[simp] theorem loadFill_wf {s : State} (c w va : Nat) (h : Home) (prio : Nat) (acq : Bool) (hm : Memory.wf s.mem = true) :
    Memory.wf (loadFill s c w va h prio acq).mem = true := by
  unfold loadFill
  dsimp only
  (repeat' split) <;> simp [hm]

@[simp] theorem loadFills_wf {s : State} (c : Nat) (o : Op) (hm : Memory.wf s.mem = true) : Memory.wf (loadFills s c o).mem = true := by
  unfold loadFills
  split
  · exact foldl_wf (fun s p hm => by simp [hm]) _ hm
  all_goals simp [hm]

@[simp] theorem capture_wf {s : State} (c : Nat) (o : Op) (hm : Memory.wf s.mem = true) : Memory.wf (capture s c o).mem = true := by
  unfold capture
  split <;> simp [hm]

@[simp] theorem captureLoads_wf {s : State} (c t : Nat) (hm : Memory.wf s.mem = true) : Memory.wf (captureLoads s c t).mem = true := by
  unfold captureLoads
  refine foldl_wf (fun s a hm => ?_) _ hm
  simp [hm]

@[simp] theorem captureRange_wf {s : State} (c t : Nat) (sp : Space) (va n : Nat) (hm : Memory.wf s.mem = true) :
    Memory.wf (captureRange s c t sp va n).mem = true := by
  unfold captureRange
  refine foldl_wf (fun s a hm => ?_) _ hm
  simp [hm]

@[simp] theorem writeLoaded_mem (s : State) (e : Env) (ty : Ty) (d : Dst) (l : List Byte) : (writeLoaded s e ty d l).mem = s.mem := by
  unfold writeLoaded
  split <;> simp

@[simp] theorem acceptLoad_wf {s : State} (e : Env) (pc : DWord) (m : MMod) (va n : Nat) (hs : List Home) (ty : Ty) (d : Dst)
    (ts : List Nat) (hm : Memory.wf s.mem = true) : Memory.wf (acceptLoad s e pc m va n hs ty d ts).mem = true := by
  unfold acceptLoad
  have fill : ∀ {s : State} (w : Nat), Memory.wf s.mem = true →
      Memory.wf (hs.foldl (fun s h => fillL2 s w h m.evict.toNat) s).mem = true := fun w hm =>
    foldl_wf (fun s x hm => fillL2_wf w x _ hm) hs hm
  dsimp only
  (repeat' split) <;> simp [hm, fill]

@[simp] theorem loadAct_wf {s : State} (m : MMod) (n al : Nat) (ty : Ty) (d : Dst) (h : Hdr) (a : Src) (e : Env) (pc : DWord)
    (hm : Memory.wf s.mem = true) : Memory.wf (loadAct m n al ty d h a e pc s).st.mem = true := by
  unfold loadAct
  split
  · exact hm
  · split
    · exact hm
    · have hw := accessCheck_mem ‹_›
      split <;> simp [hw, hm]

@[simp] theorem execLd_wf {s : State} (h : Hdr) (m : MMod) (ty : Ty) (d : Dst) (a : Src) (hm : Memory.wf s.mem = true) :
    InForm (execLd h m ty d a s) := perThread_wf hm fun e pc s hm => by simp [hm]

@[simp] theorem execLd4_wf {s : State} (h : Hdr) (m : MMod) (d : Dst) (a : Src) (hm : Memory.wf s.mem = true) :
    InForm (execLd4 h m d a s) := perThread_wf hm fun e pc s hm => by simp [hm]

@[simp] theorem execLdm_wf {s : State} (h : Hdr) (m : MMod) (n : BitVec 4) (d : Dst) (a : Src) (hm : Memory.wf s.mem = true) :
    InForm (execLdm h m n d a s) := perThread_wf hm fun e pc s hm => by simp [hm]

@[simp] theorem execLdu_wf {s : State} (h : Hdr) (m : MMod) (ty : Ty) (d : Dst) (a : Src) (hm : Memory.wf s.mem = true) :
    InForm (execLdu h m ty d a s) := by
  refine perBundle_wf hm fun e pc ts s hm => ?_
  dsimp only
  split
  · exact hm
  · split
    · exact hm
    · rename_i w va hs hc
      have hw : Memory.wf w.mem = true := by rw [accessCheck_mem hc]; exact hm
      have hf := fun n => foldl_wf (fun s t hm => captureRange_wf e.c t m.space va n hm) ts hw
      split
      · exact hm
      · simp only [Res.st_done]
        rw [foldl_mem fun q t => addOp_mem ..]
        split <;> simp [hw, hf]

@[simp] theorem acceptStore_wf {s : State} (e : Env) (pc : DWord) (m : MMod) (va : Nat) (hs : List Home) (data : List Byte)
    (hm : Memory.wf s.mem = true) : Memory.wf (acceptStore s e pc m va hs data).mem = true := by
  unfold acceptStore
  dsimp only
  rw [addOp_mem]
  (repeat' split) <;> simp [hm]

@[simp] theorem storeAct_wf {s : State} (m : MMod) (n al : Nat) (h : Hdr) (a : Src) (data : State → Env → List Byte) (e : Env)
    (pc : DWord) (hm : Memory.wf s.mem = true) : Memory.wf (storeAct m n al h a data e pc s).st.mem = true := by
  unfold storeAct
  split
  · exact hm
  · split
    · exact hm
    · have hw := accessCheck_mem ‹_›
      split <;> simp [hw, hm]

@[simp] theorem execSt_wf {s : State} (h : Hdr) (m : MMod) (ty : Ty) (a b : Src) (hm : Memory.wf s.mem = true) :
    InForm (execSt h m ty a b s) := perThread_wf hm fun e pc s hm => by simp [hm]

@[simp] theorem execSt4_wf {s : State} (h : Hdr) (m : MMod) (a b : Src) (hm : Memory.wf s.mem = true) :
    InForm (execSt4 h m a b s) := perThread_wf hm fun e pc s hm => by simp [hm]

@[simp] theorem execStm_wf {s : State} (h : Hdr) (m : MMod) (n : BitVec 4) (a b : Src) (hm : Memory.wf s.mem = true) :
    InForm (execStm h m n a b s) := perThread_wf hm fun e pc s hm => by simp [hm]

@[simp] theorem execStz_wf {s : State} (h : Hdr) (m : MMod) (a : Src) (hm : Memory.wf s.mem = true) :
    InForm (execStz h m a s) := perThread_wf hm fun e pc s hm => by simp [hm]

@[simp] theorem postVector_mem (s : State) (w v : Nat) : (postVector s w v).mem = s.mem := by
  unfold postVector
  split
  · rfl
  · split <;> rfl

@[simp] theorem postBell_mem (s : State) (w : Nat) : (postBell s w).mem = s.mem := by
  unfold postBell
  refine foldl_mem (fun s a => ?_) _ _
  split <;> simp

@[simp] theorem ring_mem (s : State) (w v : Nat) : (ring s w v).mem = s.mem := by
  unfold ring
  dsimp only
  (repeat' split) <;> simp

@[simp] theorem writeLocal_mem (s : State) (c : Nat) (o : Op) (va : Nat) (d : List Byte) : (writeLocal s c o va d).mem = s.mem := by
  simp [writeLocal]

@[simp] theorem performRmw_wf {s : State} (c : Nat) (o : Op) (hm : Memory.wf s.mem = true) : Memory.wf (performRmw s c o).1.mem = true := by
  unfold performRmw
  dsimp only
  (repeat' split) <;> simp [hm]

@[simp] theorem postOp_mem (s : State) (c : Nat) (o : Op) (sp : Space) (va n : Nat) (ord : MOrd) (sc : Scope) :
    (postOp s c o sp va n ord sc).mem = s.mem := by
  unfold postOp
  split <;> simp

@[simp] theorem setRmwVal_mem (s : State) (c id : Nat) (v : DWord) : (setRmwVal s c id v).mem = s.mem := by simp [setRmwVal]

@[simp] theorem acceptRmw_wf {s : State} (e : Env) (pc : DWord) (m : MMod) (va : Nat) (hs : List Home) (r : Rmw) (d : Dst) (k : Cls)
    (hm : Memory.wf s.mem = true) : Memory.wf (acceptRmw s e pc m va hs r d k).mem = true := by
  unfold acceptRmw
  extract_lets w a s1 s2 s3 s4 body o s5 s6
  have h2 : Memory.wf s2.mem = true := by
    simp only [s2, s1]
    split <;> simp [hm]
  have h5 : Memory.wf s5.mem = true := by
    simp only [s5, s4, s3]
    split <;> simp [h2]
  split
  · have h6 := performRmw_wf e.c o (s := s6) (by simp [s6, h5])
    rcases hr : performRmw s6 e.c o with ⟨t, v⟩
    have ht := wf_fst h6 hr
    dsimp only
    (repeat' split) <;> simp [ht]
  · exact h5

@[simp] theorem rmwAct_wf {s : State} (m : MMod) (k : Cls) (h : Hdr) (a : Src) (d : Dst) (rf : State → Env → Rmw) (e : Env) (pc : DWord)
    (hm : Memory.wf s.mem = true) : Memory.wf (rmwAct m k h a d rf e pc s).st.mem = true := by
  unfold rmwAct
  dsimp only
  split
  · exact hm
  · split
    · exact hm
    · have hw := accessCheck_mem ‹_›
      split <;> simp [hw, hm]

@[simp] theorem execAtom_wf {s : State} (h : Hdr) (m : MMod) (op : AOp) (ty : Ty) (d : Dst) (a b : Src) (hm : Memory.wf s.mem = true) :
    InForm (execAtom h m op ty d a b s) := perThread_wf hm fun e pc s hm => by simp [hm]

@[simp] theorem execAtomg_wf {s : State} (h : Hdr) (m : MMod) (op : AOp) (ty : Ty) (a b : Src) (hm : Memory.wf s.mem = true) :
    InForm (execAtomg h m op ty a b s) := perThread_wf hm fun e pc s hm => by simp [hm]

@[simp] theorem execCas_wf {s : State} (h : Hdr) (m : MMod) (ty : Ty) (d : Dst) (a b c : Src) (hm : Memory.wf s.mem = true) :
    InForm (execCas h m ty d a b c s) := perThread_wf hm fun e pc s hm => by simp [hm]

@[simp] theorem execAtomf_wf {s : State} (h : Hdr) (m : MMod) (op : FOp) (ty : Ty) (d : Dst) (a b : Src) (hm : Memory.wf s.mem = true) :
    InForm (execAtomf h m op ty d a b s) := perThread_wf hm fun e pc s hm => by simp [hm]

@[simp] theorem prefetch_wf {s : State} (c w va : Nat) (h : Home) (prio : Nat) (hm : Memory.wf s.mem = true) :
    Memory.wf (prefetch s c w va h prio).mem = true := by simp [prefetch, hm]

@[simp] theorem execPrf_wf {s : State} (h : Hdr) (evict : BitVec 3) (a : Src) (hm : Memory.wf s.mem = true) :
    InForm (execPrf h evict a s) := by
  refine perThread_wf hm fun e pc s hm => ?_
  dsimp only
  split
  · exact hm
  · split
    · exact hm
    · have hw := globalCheck_mem ‹_›
      exact foldl_wf (fun s q hm => prefetch_wf _ _ _ q _ hm) _ (by simp [hw, hm])

@[simp] theorem releaseAt_wf {s : State} (c t : Nat) (hm : Memory.wf s.mem = true) : Memory.wf (releaseAt s c t).mem = true := by
  simp [releaseAt, hm]

@[simp] theorem execFence_wf {s : State} (h : Hdr) (ord : MOrd) (scope : Scope) (hm : Memory.wf s.mem = true) :
    InForm (execFence h ord scope s) := perThread_wf hm fun e pc s hm => by dsimp only; (repeat' split) <;> simp [hm]

@[simp] theorem execWait_wf {s : State} (h : Hdr) (hm : Memory.wf s.mem = true) : InForm (execWait h s) := by
  refine perThread_wf hm fun e pc s hm => ?_
  dsimp only
  split
  · simp [popFail_mem ‹_›, hm]
  · split <;> simp [hm]

@[simp] theorem execInv_wf {s : State} (h : Hdr) (a b : Src) (hm : Memory.wf s.mem = true) : InForm (execInv h a b s) :=
  perThread_wf hm fun e pc s hm => by split <;> simp [hm]

@[simp] theorem execFlush_wf {s : State} (h : Hdr) (a b : Src) (hm : Memory.wf s.mem = true) : InForm (execFlush h a b s) :=
  perThread_wf hm fun e pc s hm => by (repeat' split) <;> simp [hm]

@[simp] theorem completeLoad_wf {s : State} (c : Nat) (o : Op) (hm : Memory.wf s.mem = true) :
    Memory.wf (completeLoad s c o).mem = true := by
  unfold completeLoad
  dsimp only
  split
  · (repeat' split) <;> simp [hm]
  · rcases hr : performRmw s c o with ⟨w, r⟩
    have hw := wf_fst (performRmw_wf c o hm) hr
    (repeat' split) <;> simp_all
  · exact hm

@[simp] theorem holdStore_wf {s : State} (c : Nat) (o : Op) (hm : Memory.wf s.mem = true) : Memory.wf (holdStore s c o).mem = true := by
  unfold holdStore
  split
  · split
    · exact hm
    · dsimp only
      simp only [finishOp_mem, postOp_mem]
      split <;> simp [hm]
  · simp [hm]

@[simp] theorem settleLocal_wf {s : State} (c t : Nat) (hm : Memory.wf s.mem = true) : Memory.wf (settleLocal s c t).mem = true := by
  unfold settleLocal
  refine foldl_wf (fun s a hm => ?_) _ hm
  simp [hm]

@[simp] theorem execFlushComplete_wf {s : State} (c id : Nat) (hm : Memory.wf s.mem = true) : InForm (execFlushComplete c id s) := by
  unfold execFlushComplete
  split
  · split
    · dsimp only
      split
      · exact hm
      · simp only [inForm_next, finishOp_mem]
        refine foldl_wf (fun s d hm => ?_) _ hm
        exact foldl_wf (fun s l hm => writeBack_wf l hm) _ hm
    · exact hm
  · exact hm

@[simp] theorem execL2MissFill_wf {s : State} (w va : Nat) (hm : Memory.wf s.mem = true) : InForm (execL2MissFill w va s) := by
  unfold execL2MissFill
  dsimp only
  (repeat' split) <;> simp [hm]

@[simp] theorem execL1LineExpiry_wf {s : State} (c w va : Nat) (hm : Memory.wf s.mem = true) : InForm (execL1LineExpiry c w va s) := by
  simp [execL1LineExpiry, hm]

@[simp] theorem execFarLineExpiry_wf {s : State} (d w va : Nat) (hm : Memory.wf s.mem = true) : InForm (execFarLineExpiry d w va s) := by
  simp [execFarLineExpiry, hm]

@[simp] theorem execRetiredFaultPost_wf {s : State} (c id : Nat) (code : BitVec 6) (hm : Memory.wf s.mem = true) :
    InForm (execRetiredFaultPost c id code s) := by
  unfold execRetiredFaultPost
  (repeat' split) <;> simp [hm]

@[simp] theorem rotateSigs_mem (s : State) (c : Nat) : (rotateSigs s c).mem = s.mem := by simp [rotateSigs]

@[simp] theorem execSignatureRotate_wf {s : State} (c : Nat) (hm : Memory.wf s.mem = true) : InForm (execSignatureRotate c s) := by
  simp [execSignatureRotate, hm]

/-! ### Control (Control.lean) -/

@[simp] theorem jumpTo_wf {s : State} (e : Env) (pc : DWord) (hm : Memory.wf s.mem = true) :
    Memory.wf (jumpTo s e pc).st.mem = true := by
  unfold jumpTo
  split <;> exact wf_fst (checkTarget_wf e.c pc hm) ‹_›

@[simp] theorem execBr_wf {s : State} (h : Hdr) (hm : Memory.wf s.mem = true) :
    InForm (execBr h s) := perThread_wf hm fun e pc s hm => by simp [hm]

@[simp] theorem execBrx_wf {s : State} (h : Hdr) (a : Src) (hm : Memory.wf s.mem = true) :
    InForm (execBrx h a s) := perThread_wf hm fun e pc s hm => by simp [hm]

theorem spillCheck_mem {s w : State} {e : Env} {va : Nat} {k : Acc} {hs : List Home} (h : spillCheck s e va k = .ok w hs) :
    w.mem = s.mem := by
  unfold spillCheck at h
  dsimp only at h
  (repeat' split at h) <;> cases h
  simp

@[simp] theorem pushCall_wf {s : State} (e : Env) (pc tgt : DWord) (hm : Memory.wf s.mem = true) :
    Memory.wf (pushCall s e pc tgt).st.mem = true := by
  unfold pushCall
  split
  · exact wf_fst (checkTarget_wf e.c tgt hm) ‹_›
  · have hw := wf_fst (checkTarget_wf e.c tgt hm) ‹_›
    dsimp only
    split
    · simp [hw]
    · split
      · exact hw
      · split
        · exact hw
        · exact hw
        · have hv := spillCheck_mem ‹_›
          simp [hv, hw]

@[simp] theorem execCall_wf {s : State} (h : Hdr) (hm : Memory.wf s.mem = true) :
    InForm (execCall h s) := perThread_wf hm fun e pc s hm => by simp [hm]

@[simp] theorem execCallx_wf {s : State} (h : Hdr) (a : Src) (hm : Memory.wf s.mem = true) :
    InForm (execCallx h a s) := perThread_wf hm fun e pc s hm => by simp [hm]

@[simp] theorem popCall_wf {s : State} (e : Env) (hm : Memory.wf s.mem = true) : Memory.wf (popCall s e).st.mem = true := by
  unfold popCall
  dsimp only
  split
  · rename_i pc _
    split
    · exact wf_fst (checkTarget_wf e.c pc hm) ‹_›
    · simp [wf_fst (checkTarget_wf e.c pc hm) ‹_›]
  · split
    · exact hm
    · split
      · exact hm
      · exact hm
      · rename_i w hs hsp
        have hw : Memory.wf w.mem = true := by rw [spillCheck_mem hsp]; exact hm
        have hf := foldl_wf (fun v x hv => fillL2_wf (w.actWorld e.c e.t) x 3 hv) hs hw
        split
        · exact hw
        · split
          · exact wf_fst (checkTarget_wf _ _ hf) ‹_›
          · simp [wf_fst (checkTarget_wf _ _ hf) ‹_›]

@[simp] theorem execRet_wf {s : State} (h : Hdr) (hm : Memory.wf s.mem = true) :
    InForm (execRet h s) := perThread_wf hm fun e pc s hm => by simp [hm]

@[simp] theorem execCstk_wf {s : State} (h : Hdr) (a b : Src) (hm : Memory.wf s.mem = true) :
    InForm (execCstk h a b s) := perThread_wf hm fun e pc s hm => by dsimp only; (repeat' split) <;> simp [hm]

@[simp] theorem execSpawn_wf {s : State} (h : Hdr) (q8 : BitVec 5) (a b c : Src) (hm : Memory.wf s.mem = true) :
    InForm (execSpawn h q8 a b c s) := perThread_wf hm fun e pc s hm => by dsimp only; (repeat' split) <;> simp [hm]

@[simp] theorem finishThread_mem (s : State) (c t : Nat) : (finishThread s c t).mem = s.mem := by simp [finishThread]

@[simp] theorem execTail_wf {s : State} (h : Hdr) (hm : Memory.wf s.mem = true) :
    InForm (execTail h s) := perThread_wf hm fun e pc s hm => by dsimp only; (repeat' split) <;> simp [hm]

@[simp] theorem execExit_wf {s : State} (h : Hdr) (scope : Scope) (evict : BitVec 3) (a : Src) (hm : Memory.wf s.mem = true) :
    InForm (execExit h scope evict a s) := by
  refine perThread_wf hm fun e pc s hm => ?_
  dsimp only
  split
  · simp [popFail_mem ‹_›, hm]
  · iterate 4 (split; · exact hm)
    split
    · exact hm
    · rename_i w va hs hc
      have hw : Memory.wf w.mem = true := by rw [accessCheck_mem hc]; exact hm
      have hv := fun o => performRmw_wf e.c o (s := irrevocable w e.c e.t) (by simp [hw])
      split
      · exact hm
      · split
        · simp [wf_fst (hv _) ‹_›]
        · exact wf_fst (hv _) ‹_›

@[simp] theorem execTrap_wf {s : State} (h : Hdr) (hm : Memory.wf s.mem = true) :
    InForm (execTrap h s) := perThread_wf hm fun e pc s hm => by simp [hm]

@[simp] theorem execSys_wf {s : State} (h : Hdr) (d : Dst) (hm : Memory.wf s.mem = true) :
    InForm (execSys h d s) := perThread_wf hm fun e pc s hm => by simp [hm]

@[simp] theorem execBrk_wf {s : State} (h : Hdr) (hm : Memory.wf s.mem = true) :
    InForm (execBrk h s) := perThread_wf hm fun e pc s hm => by simp [hm]

@[simp] theorem execNop_wf {s : State} (h : Hdr) (hm : Memory.wf s.mem = true) :
    InForm (execNop h s) := perThread_wf hm fun e pc s hm => by simp [hm]

@[simp] theorem execYield_wf {s : State} (h : Hdr) (hm : Memory.wf s.mem = true) :
    InForm (execYield h s) := perThread_wf hm fun e pc s hm => by simp [hm]

@[simp] theorem execSleep_wf {s : State} (h : Hdr) (a : Src) (hm : Memory.wf s.mem = true) :
    InForm (execSleep h a s) := perThread_wf hm fun e pc s hm => by dsimp only; split <;> simp [hm]

/-! ### Int (Int.lean) -/

@[simp] theorem Write.apply_mem (w : Write) (s : State) (e : Env) : (Write.apply w s e).mem = s.mem := by
  unfold Write.apply
  split <;> simp

@[simp] theorem runAlu_wf {s : State} (a : Alu) (hm : Memory.wf s.mem = true) : Memory.wf (runAlu a s).mem = true :=
  perThread_wf hm fun e pc s hm => by simp [hm]

/-! ### The fabric (Fabric.lean) -/

@[simp] theorem State.setPort_mem (s : State) (n : Nat) (p : Port) : (State.setPort s n p).mem = s.mem := by simp [State.setPort]

@[simp] theorem sendFlit_mem (s : State) (port dest slot vc va : Nat) (m : Msg) :
    (sendFlit s port dest slot vc va m).mem = s.mem := by simp [sendFlit]

@[simp] theorem noteTimers_mem (s : State) : (noteTimers s).mem = s.mem := by simp [noteTimers]

@[simp] theorem replayFlits_mem (s : State) (port : Nat) (l : List Flit) : (replayFlits s port l).mem = s.mem := by simp [replayFlits]

@[simp] theorem takeOver_mem (s : State) (port : Nat) : (takeOver s port).mem = s.mem := by
  unfold takeOver
  dsimp only
  refine (foldl_mem (fun s a => ?_) _ _).trans ?_
  · (repeat' split) <;> simp
  · simp

@[simp] theorem portDown_mem (s : State) (port : Nat) : (portDown s port).mem = s.mem := by simp [portDown]

@[simp] theorem portUp_mem (s : State) (port : Nat) : (portUp s port).mem = s.mem := by
  unfold portUp
  dsimp only
  refine (foldl_mem (fun s a => ?_) _ _).trans ?_
  · (repeat' split) <;> simp
  · (repeat' split) <;> simp

@[simp] theorem sendOn_mem (s : State) (port dest slot vc va : Nat) (m : Msg) : (sendOn s port dest slot vc va m).mem = s.mem := by
  unfold sendOn
  dsimp only
  split <;> simp

@[simp] theorem sendMsg_mem (s : State) (w d va vc : Nat) (m : Msg) : (sendMsg s w d va vc m).mem = s.mem := by
  unfold sendMsg
  split
  · split
    · split <;> simp
    · rfl
  · rfl

@[simp] theorem remoteAct_wf {s : State} (m : MMod) (k : RemKind) (ty : Ty) (cls : Cls) (h : Hdr) (a c : Src) (d : Dst)
    (data : State → Env → DWord × DWord) (e : Env) (pc : DWord) (hm : Memory.wf s.mem = true) :
    Memory.wf (remoteAct m k ty cls h a c d data e pc s).st.mem = true := by
  unfold remoteAct
  dsimp only
  (repeat' split) <;> simp [hm]

@[simp] theorem execRld_wf {s : State} (h : Hdr) (m : MMod) (ty : Ty) (d : Dst) (a c : Src) (hm : Memory.wf s.mem = true) :
    InForm (execRld h m ty d a c s) := perThread_wf hm fun e pc s hm => by simp [hm]

@[simp] theorem execRst_wf {s : State} (h : Hdr) (m : MMod) (ty : Ty) (a b c : Src) (hm : Memory.wf s.mem = true) :
    InForm (execRst h m ty a b c s) := perThread_wf hm fun e pc s hm => by simp [hm]

@[simp] theorem execRatom_wf {s : State} (h : Hdr) (m : MMod) (op : AOp) (ty : Ty) (d : Dst) (a b c : Src) (hm : Memory.wf s.mem = true) :
    InForm (execRatom h m op ty d a b c s) := perThread_wf hm fun e pc s hm => by simp [hm]

@[simp] theorem execRcas_wf {s : State} (h : Hdr) (m : MMod) (ty : Ty) (d : Dst) (a b c : Src) (hm : Memory.wf s.mem = true) :
    InForm (execRcas h m ty d a b c s) := perThread_wf hm fun e pc s hm => by simp [hm]

@[simp] theorem execRatomf_wf {s : State} (h : Hdr) (m : MMod) (op : FOp) (ty : Ty) (d : Dst) (a b c : Src) (hm : Memory.wf s.mem = true) :
    InForm (execRatomf h m op ty d a b c s) := perThread_wf hm fun e pc s hm => by simp [hm]

@[simp] theorem serve_wf {s : State} (r : RemReq) (hm : Memory.wf s.mem = true) : Memory.wf (serve s r).1.mem = true := by
  unfold serve
  dsimp only
  (repeat' split) <;> simp [hm]

@[simp] theorem execRemoteRequestArrival_wf {s : State} (r : RemReq) (hm : Memory.wf s.mem = true) :
    InForm (execRemoteRequestArrival r s) := by simp [execRemoteRequestArrival, hm]

@[simp] theorem remoteWrite_mem (s : State) (e : Env) (r : RemReq) (d : Dst) (v : DWord) : (remoteWrite s e r d v).mem = s.mem := by
  unfold remoteWrite
  split
  · simp
  · split <;> simp

@[simp] theorem passFails_mem (s : State) (d : Nat) (t : Token) (p : Pass) : (passFails s d t p).mem = s.mem := by
  unfold passFails
  refine foldl_mem (fun s a => ?_) _ _
  (repeat' split) <;> simp

@[simp] theorem reserveAnswer_mem (s : State) (a : RemAns) : (reserveAnswer s a).mem = s.mem := by
  refine foldl_mem (fun s d => foldl_mem (fun s t => ?_) _ _) _ s
  (repeat' split) <;> simp

@[simp] theorem remoteAnswer_mem (s : State) (a : RemAns) : (remoteAnswer s a).mem = s.mem := by
  unfold remoteAnswer
  dsimp only
  (repeat' split) <;> simp

@[simp] theorem execRemoteAnswerArrival_wf {s : State} (a : RemAns) (hm : Memory.wf s.mem = true) :
    InForm (execRemoteAnswerArrival a s) := by simp [execRemoteAnswerArrival, hm]

@[simp] theorem completeRemote_mem (s : State) (c : Nat) (o : Op) : (completeRemote s c o).mem = s.mem := by
  unfold completeRemote
  split <;> simp [apply_ite State.mem]

@[simp] theorem mirrorReserve_mem (s : State) (home base n w : Nat) : (mirrorReserve s home base n w).mem = s.mem := by
  unfold mirrorReserve
  dsimp only
  split <;> simp

@[simp] theorem execMirrorEntryReserve_wf {s : State} (home base n w : Nat) (hm : Memory.wf s.mem = true) :
    InForm (execMirrorEntryReserve home base n w s) := by simp [execMirrorEntryReserve, hm]

@[simp] theorem mirrorReceipt_mem (s : State) (home base n w : Nat) (mode : TMode) :
    (mirrorReceipt s home base n w mode).mem = s.mem := by simp [mirrorReceipt]

@[simp] theorem execMirrorReceipt_wf {s : State} (home base n w : Nat) (mode : TMode) (hm : Memory.wf s.mem = true) :
    InForm (execMirrorReceipt home base n w mode s) := by simp [execMirrorReceipt, hm]

@[simp] theorem flitFails_mem (s : State) (port : Nat) : (flitFails s port).mem = s.mem := by
  unfold flitFails
  dsimp only
  split <;> simp

@[simp] theorem flitTaken_mem (s : State) (port : Nat) (f : Flit) : (flitTaken s port f).mem = s.mem := by
  unfold flitTaken
  split <;> rfl

/-! ### Tokens (Token.lean) -/

@[simp] theorem setEntry_mem (s : State) (d : Nat) (t : Token) (v : Option Token) : (setEntry s d t v).mem = s.mem := by simp [setEntry]

@[simp] theorem addEntry_mem (s : State) (d : Nat) (t : Token) : (addEntry s d t).mem = s.mem := by simp [addEntry]

@[simp] theorem receipt_mem (s : State) (w : Nat) (rcv : Word) (sig : Sig) : (receipt s w rcv sig).mem = s.mem := by
  unfold receipt
  split <;> simp

@[simp] theorem endRight_mem (s : State) (e : Nat × Token) (a : Word) (sig : Sig) (taint : Bool) :
    (endRight s e a sig taint).mem = s.mem := by
  unfold endRight
  dsimp only
  split <;> simp

@[simp] theorem commitPass_mem (s : State) (d : Nat) (t : Token) (p : Pass) : (commitPass s d t p).mem = s.mem := by
  unfold commitPass
  dsimp only
  rw [foldl_mem fun s e => ?_]
  · (repeat' split) <;> simp
  · split
    · rw [advanceNext_mem]
      split <;> simp
    · rfl

@[simp] theorem execTokenPassCommit_wf {s : State} (w base : Nat) (hm : Memory.wf s.mem = true) :
    InForm (execTokenPassCommit w base s) := by
  unfold execTokenPassCommit
  (repeat' split) <;> simp [hm]

@[simp] theorem endsNow_mem (s : State) (c : Nat) (a : Word) (w : Nat) (taint : Bool) : (endsNow s c a w taint).mem = s.mem := by
  unfold endsNow
  dsimp only
  simp

@[simp] theorem execAgentEndRights_wf {s : State} (a : Word) (w : Nat) (taint : Bool) (hm : Memory.wf s.mem = true) :
    InForm (execAgentEndRights a w taint s) := by
  unfold execAgentEndRights
  (repeat' split) <;> simp [hm]

@[simp] theorem moveRights_mem (s : State) (c w : Nat) (a g : Word) : (moveRights s c w a g).mem = s.mem := by
  unfold moveRights
  dsimp only
  simp only [apply_ite State.mem, applySig_mem, dropConst_mem, ite_self]
  refine (foldl_mem (fun s e => ?_) _ _).trans (foldl_mem (fun s e => setEntry_mem ..) _ _)
  split <;> simp

@[simp] theorem windowed_wf {s : State} (e : Env) (ts : List Nat) (w va : Nat) (kd : Option Pred) {r : Res} (hm : Memory.wf s.mem = true)
    (hr : Memory.wf r.st.mem = true) : Memory.wf (windowed s e ts w va kd r).st.mem = true := by
  unfold windowed
  split
  · exact hr
  · cases r with
    | done t =>
      have hw : Memory.wf (if Config.choose s.tick (2 ^ 71 + va) % 2 = 0 then t else s).mem = true := by
        split
        · exact hr
        · exact hm
      cases kd <;> simpa using hw
    | _ => cases kd <;> simpa using hm

@[simp] theorem tokenCmd_wf {s : State} (u : Uses) (h : Hdr) (at_ : State → Env → Nat) (kd : Option Pred)
    (act : Env → List Nat → Nat → Word → State → Res) (hm : Memory.wf s.mem = true)
    (hact : ∀ e ts w a s, Memory.wf s.mem = true → Memory.wf (act e ts w a s).st.mem = true) :
    Memory.wf (tokenCmd u h at_ kd act s).mem = true :=
  perBundle_wf hm fun _ _ _ _ hm => windowed_wf _ _ _ _ _ hm (hact _ _ _ _ _ hm)

@[simp] theorem setKd_mem (s : State) (c : Nat) (ts : List Nat) (k : Pred) (b : Bool) : (setKd s c ts k b).mem = s.mem := by simp [setKd]

@[simp] theorem answerKd_wf {s : State} (e : Env) (ts : List Nat) (k : Pred) (b : Bool) (hm : Memory.wf s.mem = true) :
    Memory.wf (answerKd s e ts k b).st.mem = true := by simp [answerKd, hm]

@[simp] theorem withEntry_wf {s : State} (w va : Nat) (f : Nat → Token → Res) (hm : Memory.wf s.mem = true)
    (hf : ∀ d t, Memory.wf (f d t).st.mem = true) : Memory.wf (withEntry s w va f).st.mem = true := by
  unfold withEntry
  split
  · exact hm
  · split
    · exact hm
    · exact hf _ _

@[simp] theorem startPass_wf {s : State} (e : Env) (a : Word) (d : Nat) (t : Token) (k : PassKind) (kd : Option Pred)
    (hm : Memory.wf s.mem = true) :
    Memory.wf (startPass s e a d t k kd).st.mem = true := by
  unfold startPass
  dsimp only
  (repeat' split) <;> simp [hm]

@[simp] theorem execOwnClaim_wf {s : State} (h : Hdr) (mode : TMode) (taint : Bool) (kd : Pred) (a b : Src) (hm : Memory.wf s.mem = true) :
    InForm (execOwnClaim h mode taint kd a b s) := perBundle_wf hm fun e pc ts s hm => by dsimp only; (repeat' split) <;> simp [hm]

@[simp] theorem execOwnLend_wf {s : State} (h : Hdr) (kd : Pred) (a b : Src) (hm : Memory.wf s.mem = true) :
    InForm (execOwnLend h kd a b s) :=
  tokenCmd_wf _ _ _ _ _ hm fun e ts w ag s hm => withEntry_wf _ _ _ hm fun d t => by
    (repeat' split) <;> simp [hm]

@[simp] theorem execOwnRet_wf {s : State} (h : Hdr) (a : Src) (hm : Memory.wf s.mem = true) : InForm (execOwnRet h a s) :=
  tokenCmd_wf _ _ _ _ _ hm fun e ts w ag s hm => withEntry_wf _ _ _ hm fun d t => by
    (repeat' split) <;> simp [hm]

@[simp] theorem execOwnSplit_wf {s : State} (h : Hdr) (kd : Pred) (a : Src) (hm : Memory.wf s.mem = true) :
    InForm (execOwnSplit h kd a s) :=
  tokenCmd_wf _ _ _ _ _ hm fun e ts w ag s hm => withEntry_wf _ _ _ hm fun d t => by
    dsimp only
    (repeat' split) <;> simp [hm]

@[simp] theorem execOwnJoin_wf {s : State} (h : Hdr) (kd : Pred) (a : Src) (hm : Memory.wf s.mem = true) :
    InForm (execOwnJoin h kd a s) :=
  tokenCmd_wf _ _ _ _ _ hm fun e ts w ag s hm => withEntry_wf _ _ _ hm fun d t => by
    dsimp only
    (repeat' split) <;> simp [hm]

@[simp] theorem giveShare_wf {s : State} (e : Env) (ts : List Nat) (ag : Word) (d : Nat) (t : Token) (rcv : Word) (kd : Pred)
    (hm : Memory.wf s.mem = true) : Memory.wf (giveShare s e ts ag d t rcv kd).st.mem = true := by
  unfold giveShare
  (repeat' split) <;> simp [hm]

@[simp] theorem execOwnShare_wf {s : State} (h : Hdr) (mode : TMode) (kd : Pred) (a b : Src) (hm : Memory.wf s.mem = true) :
    InForm (execOwnShare h mode kd a b s) :=
  tokenCmd_wf _ _ _ _ _ hm fun e ts w ag s hm => withEntry_wf _ _ _ hm fun d t => by
    (repeat' split) <;> simp [hm]

@[simp] theorem execOwnDrop_wf {s : State} (h : Hdr) (a : Src) (hm : Memory.wf s.mem = true) : InForm (execOwnDrop h a s) :=
  tokenCmd_wf _ _ _ _ _ hm fun e ts w ag s hm => withEntry_wf _ _ _ hm fun d t => by
    (repeat' split) <;> simp [hm]

@[simp] theorem execOwnQuery_wf {s : State} (h : Hdr) (d : Dst) (a : Src) (hm : Memory.wf s.mem = true) :
    InForm (execOwnQuery h d a s) := perBundle_wf hm fun e pc ts s hm => by simp [hm]

@[simp] theorem execOwnQuerySelf_wf {s : State} (h : Hdr) (d : Dst) (hm : Memory.wf s.mem = true) :
    InForm (execOwnQuerySelf h d s) := perBundle_wf hm fun e pc ts s hm => by simp [hm]

@[simp] theorem tokenHome_mem (s : State) (dev base w : Nat) : (tokenHome s dev base w).mem = s.mem := by
  unfold tokenHome
  dsimp only
  (repeat' split) <;> simp

@[simp] theorem execTokenReturnHome_wf {s : State} (dev base w : Nat) (hm : Memory.wf s.mem = true) :
    InForm (execTokenReturnHome dev base w s) := by simp [execTokenReturnHome, hm]

/-! ### Groups (Group.lean) -/

@[simp] theorem formGroup_mem (s : State) (c g : Nat) : (formGroup s c g).mem = s.mem := by simp [formGroup]

@[simp] theorem enterGroup_mem (s : State) (c t : Nat) (key : Word) (want slice : Nat) (slot : Option Nat) :
    (enterGroup s c t key want slice slot).mem = s.mem := by
  unfold enterGroup
  dsimp only
  (repeat' split) <;> simp

@[simp] theorem execGjoin_wf {s : State} (h : Hdr) (a b : Src) (slot : Option Src) (hm : Memory.wf s.mem = true) :
    InForm (execGjoin h a b slot s) := perThread_wf hm fun e pc s hm => by dsimp only; split <;> simp [hm]

@[simp] theorem joinOne_mem (s : State) (c t : Nat) : (joinOne s c t).mem = s.mem := by
  unfold joinOne
  split
  · split
    · rfl
    · split
      · simp
      · split <;> simp
  · rfl

@[simp] theorem joinArrivals_mem (s : State) (c : Nat) : (joinArrivals s c).mem = s.mem := by simp [joinArrivals]

@[simp] theorem execTokenMoveOnJoin_wf {s : State} (c t : Nat) (hm : Memory.wf s.mem = true) : InForm (execTokenMoveOnJoin c t s) := by
  simp [execTokenMoveOnJoin, hm]

@[simp] theorem execGleave_wf {s : State} (h : Hdr) (hm : Memory.wf s.mem = true) :
    InForm (execGleave h s) := perThread_wf hm fun e pc s hm => by simp [hm]

@[simp] theorem execGslice_wf {s : State} (h : Hdr) (a : Src) (hm : Memory.wf s.mem = true) :
    InForm (execGslice h a s) := perThread_wf hm fun e pc s hm => by dsimp only; (repeat' split) <;> simp [hm]

@[simp] theorem collective_wf {s : State} (u : Uses) (h : Hdr) (f : State → Env → List (Option Nat) → Nat → DWord)
    (wr : State → Env → DWord → State) (hm : Memory.wf s.mem = true) (hw : ∀ s e v, (wr s e v).mem = s.mem) :
    Memory.wf (collective u h f wr s).mem = true := by
  refine perBundle_wf hm fun e pc ts s hm => ?_
  dsimp only [Res.st_done]
  rw [foldl_fst_mem fun p v => hw ..]
  exact hm

@[simp] theorem execVote_wf {s : State} (h : Hdr) (op : VOp) (d : VDst) (ka : Pred) (hm : Memory.wf s.mem = true) :
    InForm (execVote h op d ka s) := perBundle_wf hm fun e pc ts s hm => by dsimp only; (repeat' split) <;> simp [hm]

@[simp] theorem execShfl_wf {s : State} (h : Hdr) (mode : ShMode) (ty : Ty) (d : Dst) (a b : Src) (hm : Memory.wf s.mem = true) :
    InForm (execShfl h mode ty d a b s) := by simp [execShfl, hm]

@[simp] theorem redOut_mem (s : State) (e : Env) (ty : Ty) (d : Dst) (r : RVal) : (redOut s e ty d r).mem = s.mem := by simp [redOut]

@[simp] theorem redCollective_wf {s : State} (h : Hdr) (ty : Ty) (d : Dst) (a : Src)
    (f : State → Env → DWord → List (Option Nat) → Nat → RVal) (hm : Memory.wf s.mem = true) :
    Memory.wf (redCollective h ty d a f s).mem = true := by
  refine perBundle_wf hm fun e pc ts s hm => ?_
  dsimp only [Res.st_done]
  rw [foldl_fst_mem fun p v => redOut_mem ..]
  exact hm

@[simp] theorem execRed_wf {s : State} (h : Hdr) (op : ROp) (ty : Ty) (rm : Rm) (sat : Bool) (d : Dst) (a : Src)
    (hm : Memory.wf s.mem = true) :
    InForm (execRed h op ty rm sat d a s) := by
  simp [execRed, hm]

@[simp] theorem execScan_wf {s : State} (h : Hdr) (op : ROp) (exc : Bool) (ty : Ty) (rm : Rm) (sat : Bool) (d : Dst) (a : Src)
    (hm : Memory.wf s.mem = true) :
    InForm (execScan h op exc ty rm sat d a s) := by
  simp [execScan, hm]

@[simp] theorem execGmatch_wf {s : State} (h : Hdr) (zeq : Bool) (ty : Ty) (d : Dst) (a : Src) (hm : Memory.wf s.mem = true) :
    InForm (execGmatch h zeq ty d a s) := by simp [execGmatch, hm]

@[simp] theorem arrive_wf {s : State} (e : Env) (sc : Scope) (b : Blk) (hm : Memory.wf s.mem = true) :
    Memory.wf (arrive s e sc b).st.mem = true := by
  unfold arrive
  split
  · simp [popFail_mem ‹_›, hm]
  · split <;> simp [hm]

@[simp] theorem execGbar_wf {s : State} (h : Hdr) (scope : Scope) (hm : Memory.wf s.mem = true) :
    InForm (execGbar h scope s) := perThread_wf hm fun e pc s hm => by simp [hm]

@[simp] theorem execRwait_wf {s : State} (h : Hdr) (scope : Scope) (kd : Pred) (a : Src) (hm : Memory.wf s.mem = true) :
    InForm (execRwait h scope kd a s) := perThread_wf hm fun e pc s hm => by simp [hm]

@[simp] theorem execRwaitExpiry_wf {s : State} (c t : Nat) (hm : Memory.wf s.mem = true) : InForm (execRwaitExpiry c t s) := by
  unfold execRwaitExpiry
  (repeat' split) <;> simp [hm]

@[simp] theorem mwaitAcquire_mem (s : State) (c t va : Nat) (a : Option Scope) : (mwaitAcquire s c t va a).mem = s.mem := by
  unfold mwaitAcquire
  split <;> simp

@[simp] theorem endMwait_mem (s : State) (c t : Nat) (code : Word) : (endMwait s c t code).mem = s.mem := by
  unfold endMwait
  split <;> simp

@[simp] theorem wakeMonitor_mem (s : State) (c t : Nat) : (wakeMonitor s c t).mem = s.mem := by simp [wakeMonitor]

@[simp] theorem armMonitor_mem (s : State) (c t va : Nat) : (armMonitor s c t va).mem = s.mem := by
  unfold armMonitor
  dsimp only
  (repeat' split) <;> simp

@[simp] theorem execMwait_wf {s : State} (h : Hdr) (m : MMod) (d : Dst) (a b c : Src) (hm : Memory.wf s.mem = true) :
    InForm (execMwait h m d a b c s) := by
  refine perThread_wf hm fun e pc s hm => ?_
  dsimp only
  split
  · exact hm
  · rename_i w va hs hc
    have hw : Memory.wf w.mem = true := by rw [accessCheck_mem hc]; exact hm
    have hf := foldl_wf (fun v x hv => fillL2_wf (s.actWorld e.c e.t) x m.evict.toNat hv) hs hw
    (repeat' split) <;> simp [hm, hf]

@[simp] theorem mwaitTimeout_mem (s : State) (c t : Nat) : (mwaitTimeout s c t).mem = s.mem := by
  unfold mwaitTimeout
  split
  · split <;> simp
  · rfl

@[simp] theorem execMwaitTimeout_wf {s : State} (c t : Nat) (hm : Memory.wf s.mem = true) : InForm (execMwaitTimeout c t s) := by
  simp [execMwaitTimeout, hm]

@[simp] theorem execSleepExpiry_wf {s : State} (c t : Nat) (hm : Memory.wf s.mem = true) : InForm (execSleepExpiry c t s) := by
  unfold execSleepExpiry
  (repeat' split) <;> simp [hm]

@[simp] theorem execDqPush_wf {s : State} (h : Hdr) (a b : Src) (hm : Memory.wf s.mem = true) :
    InForm (execDqPush h a b s) := perThread_wf hm fun e pc s hm => by dsimp only; (repeat' split) <;> simp [hm]

@[simp] theorem execDqPop_wf {s : State} (h : Hdr) (d : Dst) (hm : Memory.wf s.mem = true) :
    InForm (execDqPop h d s) := perBundle_wf hm fun e pc ts s hm => by dsimp only; (repeat' split) <;> simp [hm]

@[simp] theorem gsat_wf {s : State} (h : Hdr) (d : Dst) (f : State → Nat → Nat → State) (hm : Memory.wf s.mem = true)
    (hf : ∀ s c t, (f s c t).mem = s.mem) : Memory.wf (gsat h d f s).mem = true :=
  perBundle_wf hm fun e pc ts s hm => by simp [hf, hm]

@[simp] theorem execGsatRd_wf {s : State} (h : Hdr) (d : Dst) (hm : Memory.wf s.mem = true) : InForm (execGsatRd h d s) := by
  simp [execGsatRd, hm]

@[simp] theorem execGsatClr_wf {s : State} (h : Hdr) (d : Dst) (hm : Memory.wf s.mem = true) : InForm (execGsatClr h d s) := by
  simp [execGsatClr, hm]

@[simp] theorem execGsatArm_wf {s : State} (h : Hdr) (d : Dst) (hm : Memory.wf s.mem = true) : InForm (execGsatArm h d s) := by
  simp [execGsatArm, hm]

@[simp] theorem execGsatDisarm_wf {s : State} (h : Hdr) (d : Dst) (hm : Memory.wf s.mem = true) : InForm (execGsatDisarm h d s) := by
  simp [execGsatDisarm, hm]

/-! ### Tiles and copies (Tile.lean) -/

theorem readImage_wf {s w : State} {e : Env} {va n : Nat} {l : List Byte} (hm : Memory.wf s.mem = true)
    (h : readImage s e va n = .ok (w, l)) : Memory.wf w.mem = true := by
  unfold readImage at h
  split at h
  · cases h
  · rename_i v hs hc
    have hv : Memory.wf v.mem = true := by rw [globalCheck_mem hc]; exact hm
    dsimp only at h
    (repeat' split at h) <;> cases h
    · exact hv
    · exact foldl_wf (fun s x hm => fillL2_wf _ x 3 hm) hs hv

@[simp] theorem execTileDef_wf {s : State} (h : Hdr) (tl : BitVec 7) (a : Src) (hm : Memory.wf s.mem = true) :
    InForm (execTileDef h tl a s) := by
  refine perThread_wf hm fun e pc s hm => ?_
  dsimp only
  split
  · exact hm
  · split
    · exact hm
    · have hw := readImage_wf hm ‹_›
      (repeat' split) <;> simp [hw]

@[simp] theorem tileAct_wf {s : State} (h : Hdr) (tl : BitVec 7) (ok : Tile → Bool) (act : Env → State → Tile → Res)
    (hm : Memory.wf s.mem = true) (hact : ∀ e s t, Memory.wf s.mem = true → Memory.wf (act e s t).st.mem = true) :
    Memory.wf (tileAct h tl ok act s).mem = true :=
  perThread_wf hm fun e pc s hm => by (repeat' split) <;> simp [hm, hact]

@[simp] theorem execTileFree_wf {s : State} (h : Hdr) (tl : BitVec 7) (hm : Memory.wf s.mem = true) : InForm (execTileFree h tl s) := by
  simp [execTileFree, hm]

@[simp] theorem execTileRdySet_wf {s : State} (h : Hdr) (tl : BitVec 7) (hm : Memory.wf s.mem = true) :
    InForm (execTileRdySet h tl s) := perThread_wf hm fun e pc s hm => by dsimp only; (repeat' split) <;> simp [hm]

@[simp] theorem execTileRdyClr_wf {s : State} (h : Hdr) (tl : BitVec 7) (hm : Memory.wf s.mem = true) : InForm (execTileRdyClr h tl s) := by
  simp [execTileRdyClr, hm]

@[simp] theorem tileAcquire_mem (s : State) (c t n : Nat) : (tileAcquire s c t n).mem = s.mem := by simp [tileAcquire]

@[simp] theorem execTileQry_wf {s : State} (h : Hdr) (tl : BitVec 7) (d : Dst) (hm : Memory.wf s.mem = true) :
    InForm (execTileQry h tl d s) := perThread_wf hm fun e pc s hm => by dsimp only; split <;> simp [hm]

@[simp] theorem setPat_mem (s : State) (c n : Nat) (v : BitVec 512) : (setPat s c n v).mem = s.mem := by simp [setPat]

@[simp] theorem execPatDef_wf {s : State} (h : Hdr) (pat w : BitVec 4) (a : Src) (hm : Memory.wf s.mem = true) :
    InForm (execPatDef h pat w a s) := perThread_wf hm fun e pc s hm => by simp [hm]

@[simp] theorem execPatLd_wf {s : State} (h : Hdr) (pat : BitVec 4) (a : Src) (hm : Memory.wf s.mem = true) :
    InForm (execPatLd h pat a s) := by
  refine perThread_wf hm fun e pc s hm => ?_
  dsimp only
  split
  · exact hm
  · split
    · exact hm
    · simp [readImage_wf hm ‹_›]

@[simp] theorem execPatFence_wf {s : State} (h : Hdr) (hm : Memory.wf s.mem = true) : InForm (execPatFence h s) :=
  perThread_wf hm fun e pc s hm => by split <;> simp [hm]

@[simp] theorem acceptCopy_mem (s : State) (e : Env) (pc : DWord) (k : CopyKind) (sig : Option Nat) :
    (acceptCopy s e pc k sig).mem = s.mem := by simp [acceptCopy]

@[simp] theorem withRoom_wf {s : State} (e : Env) (f : Unit → Res) (hm : Memory.wf s.mem = true) (hf : Memory.wf (f ()).st.mem = true) :
    Memory.wf (withRoom s e f).st.mem = true := by
  unfold withRoom
  split <;> simp [hm, hf]

@[simp] theorem tileSt_mem (s : State) (e : Env) (n : BitVec 7) (st : TileSt) : (tileSt s e n st).mem = s.mem := by simp [tileSt]

@[simp] theorem execTileFill_wf {s : State} (h : Hdr) (tl : BitVec 7) (a : Src) (sig : Option Src) (hm : Memory.wf s.mem = true) :
    InForm (execTileFill h tl a sig s) := perThread_wf hm fun e pc s hm => by dsimp only; (repeat' split) <;> simp [hm]

@[simp] theorem execCpIn_wf {s : State} (h : Hdr) (evict : BitVec 3) (tl : BitVec 7) (pat : BitVec 4) (b : Src) (sig : Option Src)
    (hm : Memory.wf s.mem = true) :
    InForm (execCpIn h evict tl pat b sig s) := perThread_wf hm fun e pc s hm => by dsimp only; (repeat' split) <;> simp [hm]

@[simp] theorem execCpOut_wf {s : State} (h : Hdr) (evict : BitVec 3) (tl : BitVec 7) (pat : BitVec 4) (b : Src) (sig : Option Src)
    (hm : Memory.wf s.mem = true) :
    InForm (execCpOut h evict tl pat b sig s) := perThread_wf hm fun e pc s hm => by dsimp only; (repeat' split) <;> simp [hm]

@[simp] theorem execCpTt_wf {s : State} (h : Hdr) (tr : Bool) (dtl stl : BitVec 7) (sig : Option Src)
    (hm : Memory.wf s.mem = true) : InForm (execCpTt h tr dtl stl sig s) :=
  perThread_wf hm fun e pc s hm => withRoom_wf e _ hm (by
    (repeat' split) <;> simp [hm])

@[simp] theorem execWbLd_wf {s : State} (h : Hdr) (evict : BitVec 3) (a b c : Src) (hm : Memory.wf s.mem = true) :
    InForm (execWbLd h evict a b c s) := perThread_wf hm fun e pc s hm => by dsimp only; (repeat' split) <;> simp [hm]

@[simp] theorem execSpCfg_wf {s : State} (h : Hdr) (d : Dst) (a : Src) (hm : Memory.wf s.mem = true) :
    InForm (execSpCfg h d a s) := perThread_wf hm fun e pc s hm => by dsimp only; (repeat' split) <;> simp [hm]

theorem engineRead_wf {s w : State} {c : Nat} {o : Op} {va n : Nat} {l : List Byte} (hm : Memory.wf s.mem = true)
    (h : engineRead s c o va n = .ok (w, l)) : Memory.wf w.mem = true := by
  unfold engineRead at h
  split at h
  · cases h
  · split at h <;> cases h
    simpa using foldl_wf (fun s x hm => fillL2_wf o.world x o.evict hm) _ hm

theorem engineWrite_wf {s w : State} {c : Nat} {o : Op} {va : Nat} {d : List Byte} (hm : Memory.wf s.mem = true)
    (h : engineWrite s c o va d = .ok w) : Memory.wf w.mem = true := by
  unfold engineWrite at h
  split at h <;> cases h
  simp [hm]

theorem elemAddr_wf {s w : State} {c : Nat} {o : Op} {p : Pat} {x : DWord} {k a v : Nat} {row : Option (Nat × Nat)}
    (hm : Memory.wf s.mem = true) (h : elemAddr s c o p x k row = .ok (w, a, v)) : Memory.wf w.mem = true := by
  have read : ∀ {q at_}, elemAddr.read s c o p q at_ = .ok (w, a, v) → Memory.wf w.mem = true := fun h => by
    unfold elemAddr.read at h
    split at h <;> cases h
    exact engineRead_wf hm ‹_›
  unfold elemAddr at h
  dsimp only at h
  split at h
  · cases h; exact hm
  · split at h
    · split at h
      · cases h; exact hm
      · exact read h
    · exact read h

@[simp] theorem gather_wf (c : Nat) (o : Op) (p : Pat) (x : DWord) (l : List Nat) (row : Option (Nat × Nat)) {s : State}
    (hm : Memory.wf s.mem = true) : Memory.wf (gather c o p x l row s).1.mem = true := by
  induction l generalizing s row with
  | nil => exact hm
  | cons k l ih =>
    unfold gather
    split
    · exact hm
    · have hw := elemAddr_wf hm ‹_›
      split
      · exact hw
      · exact ih _ (engineRead_wf hw ‹_›)

@[simp] theorem scatter_wf (c : Nat) (o : Op) (p : Pat) (x : DWord) (t : Tile) (l : List Nat) (row : Option (Nat × Nat)) {s : State}
    (hm : Memory.wf s.mem = true) : Memory.wf (scatter c o p x t l row s).1.mem = true := by
  induction l generalizing s row with
  | nil => exact hm
  | cons k l ih =>
    unfold scatter
    split
    · exact hm
    · have hw := elemAddr_wf hm ‹_›
      split
      · exact hw
      · split
        · exact hw
        · exact ih _ (engineWrite_wf hw ‹_›)

@[simp] theorem gatherWb_wf (c : Nat) (o : Op) (va : Nat) (l : List Nat) {s : State} (hm : Memory.wf s.mem = true) :
    Memory.wf (gatherWb c o va l s).1.mem = true := by
  induction l generalizing s with
  | nil => exact hm
  | cons k l ih =>
    unfold gatherWb
    dsimp only
    split
    · exact hm
    · exact ih (engineRead_wf hm ‹_›)

@[simp] theorem runCopy_wf {s : State} (c : Nat) (q : Copy) (o : Op) (hm : Memory.wf s.mem = true) :
    Memory.wf (runCopy s c q o).1.mem = true := by
  unfold runCopy
  dsimp only
  split
  · rename_i rec_ x _ _
    split
    · exact hm
    · have hg := gather_wf c o (patOf rec_) x (List.range (patOf rec_).total) none hm
      split
      · rw [foldl_mem fun s p => writeScratch_mem ..]; exact hg
      · simpa using hg
  · split <;> simp [hm]
  · split
    · split <;> simp [hm]
    · exact hm
  · split <;> simp [hm]
  · simp [hm]

@[simp] theorem optTile_mem (s : State) (c : Nat) (u : Option UnitId) (n : Option Nat) (f : Tile → Tile) :
    (optTile s c u n f).mem = s.mem := by
  unfold optTile
  split <;> simp

@[simp] theorem endCopy_mem (s : State) (c : Nat) (q : Copy) (o : Op) (e : Option CopyErr) : (endCopy s c q o e).mem = s.mem := by
  unfold endCopy
  dsimp only
  (repeat' split) <;> simp

@[simp] theorem finishCopy_wf {s : State} (c id : Nat) (fails : Bool) (hm : Memory.wf s.mem = true) :
    Memory.wf (finishCopy s c id fails).mem = true := by
  unfold finishCopy
  dsimp only
  (repeat' split) <;> simp [hm]

@[simp] theorem execCopyComplete_wf {s : State} (c id : Nat) (hm : Memory.wf s.mem = true) : InForm (execCopyComplete c id s) := by
  simp [execCopyComplete, hm]

@[simp] theorem execCopyFail_wf {s : State} (c id : Nat) (hm : Memory.wf s.mem = true) : InForm (execCopyFail c id s) := by
  simp [execCopyFail, hm]

/-! ### The matrix engine (Matrix.lean) -/

@[simp] theorem cowAcc_mem (s : State) (c : Nat) (ag : Agent) (as : List Nat) : (cowAcc s c ag as).mem = s.mem := by
  unfold cowAcc
  split
  · rfl
  · refine foldl_mem (fun s a => ?_) _ _
    (repeat' split) <;> simp

@[simp] theorem writeAccs_mem (s : State) (c : Nat) (ag : Agent) (as : List Nat) (f : Nat → Nat → Word) :
    (writeAccs s c ag as f).mem = s.mem := by simp [writeAccs]

@[simp] theorem resetExps_mem (s : State) (c : Nat) (as : List Nat) : (resetExps s c as).mem = s.mem := by simp [resetExps]

@[simp] theorem eachPred_mem (s : State) (e : Env) (ts : List Nat) (k : Pred) (b : Bool) : (eachPred s e ts k b).mem = s.mem := by
  simp [eachPred]

@[simp] theorem retake_mem (s : State) (c : Nat) (a : Agent) (mask : BitVec 16) : (retake s c a mask).mem = s.mem := by simp [retake]

@[simp] theorem execMmRsv_wf {s : State} (h : Hdr) (kd : Pred) (a : Src) (hm : Memory.wf s.mem = true) :
    InForm (execMmRsv h kd a s) := perBundle_wf hm fun e pc ts s hm => by dsimp only; (repeat' split) <;> simp [hm]

@[simp] theorem execMmRel_wf {s : State} (h : Hdr) (hm : Memory.wf s.mem = true) :
    InForm (execMmRel h s) := perBundle_wf hm fun e pc ts s hm => by dsimp only; (repeat' split) <;> simp [hm]

@[simp] theorem countEngine_mem (s : State) (c : Nat) (ts : List Nat) (pc : DWord) : (countEngine s c ts pc).1.mem = s.mem :=
  foldl_fst_mem (fun _ _ => by simp) _ _

@[simp] theorem enqueueMm_mem (s : State) (c : Nat) (q : MmEntry) : (enqueueMm s c q).mem = s.mem := by simp [enqueueMm]

@[simp] theorem issueCv_mem (s : State) (c n : Nat) (pc : DWord) (cv : Cv) : (issueCv s c n pc cv).mem = s.mem := by
  unfold issueCv
  split
  · split <;> simp
  · simp

@[simp] theorem execMmDecl_wf {s : State} (h : Hdr) (lead : Bool) (cv : BitVec 4) (a : Src) (hm : Memory.wf s.mem = true) :
    InForm (execMmDecl h lead cv a s) := perBundle_wf hm fun e pc ts s hm => by dsimp only; (repeat' split) <;> simp [hm]

@[simp] theorem execMmSign_wf {s : State} (h : Hdr) (cv : BitVec 4) (hm : Memory.wf s.mem = true) :
    InForm (execMmSign h cv s) := perBundle_wf hm fun e pc ts s hm => by dsimp only; (repeat' split) <;> simp [hm]

@[simp] theorem fenceLoose_mem (s : State) (c t : Nat) : (fenceLoose s c t).mem = s.mem := by simp [fenceLoose]

@[simp] theorem execMmFence_wf {s : State} (h : Hdr) (hm : Memory.wf s.mem = true) : InForm (execMmFence h s) :=
  perThread_wf hm fun e pc s hm => by split <;> simp [hm]

@[simp] theorem mma_wf {s : State} (mode : MmMode) (h : Hdr) (cv : BitVec 4) (z sg : Bool) (acc : BitVec 4) (tl : BitVec 7) (b : Src)
    (xe : Option Src) (hm : Memory.wf s.mem = true) : Memory.wf (mma mode h cv z sg acc tl b xe s).mem = true := by
  refine perBundle_wf hm fun e pc ts s hm => ?_
  dsimp only
  (repeat' split) <;> simp [hm]

@[simp] theorem execMmMmaT1i8_wf {s : State} (h : Hdr) (cv : BitVec 4) (z sg : Bool) (acc : BitVec 4) (tl : BitVec 7) (b : Src)
    (hm : Memory.wf s.mem = true) :
    InForm (execMmMmaT1i8 h cv z sg acc tl b s) := by
  simp [execMmMmaT1i8, hm]

@[simp] theorem execMmMmaT5i8_wf {s : State} (h : Hdr) (cv : BitVec 4) (z sg : Bool) (acc : BitVec 4) (tl : BitVec 7) (b : Src)
    (hm : Memory.wf s.mem = true) :
    InForm (execMmMmaT5i8 h cv z sg acc tl b s) := by
  simp [execMmMmaT5i8, hm]

@[simp] theorem execMmMmaT5i8Bx_wf {s : State} (h : Hdr) (cv : BitVec 4) (z sg : Bool) (acc : BitVec 4) (tl : BitVec 7) (b c : Src)
    (hm : Memory.wf s.mem = true) :
    InForm (execMmMmaT5i8Bx h cv z sg acc tl b c s) := by
  simp [execMmMmaT5i8Bx, hm]

@[simp] theorem execMmMmaT11i16_wf {s : State} (h : Hdr) (cv : BitVec 4) (z sg : Bool) (acc : BitVec 4) (tl : BitVec 7) (b : Src)
    (hm : Memory.wf s.mem = true) :
    InForm (execMmMmaT11i16 h cv z sg acc tl b s) := by
  simp [execMmMmaT11i16, hm]

@[simp] theorem execMmMmaRing16_wf {s : State} (h : Hdr) (cv : BitVec 4) (z sg : Bool) (acc : BitVec 4) (tl : BitVec 7) (b : Src)
    (hm : Memory.wf s.mem = true) :
    InForm (execMmMmaRing16 h cv z sg acc tl b s) := by
  simp [execMmMmaRing16, hm]

@[simp] theorem execMmMmaRing32_wf {s : State} (h : Hdr) (cv : BitVec 4) (z sg : Bool) (acc : BitVec 4) (tl : BitVec 7) (b : Src)
    (hm : Memory.wf s.mem = true) :
    InForm (execMmMmaRing32 h cv z sg acc tl b s) := by
  simp [execMmMmaRing32, hm]

@[simp] theorem accAct_wf {s : State} (h : Hdr) (as : List Nat) (tile : State → Nat → Option (Sum (BitVec 6) Why))
    (take : State → Env → State) (k : MmKind) (hm : Memory.wf s.mem = true) (ht : ∀ s e, (take s e).mem = s.mem) :
    Memory.wf (accAct h as tile take k s).mem = true := by
  refine perBundle_wf hm fun e pc ts s hm => ?_
  (repeat' split) <;> simp [hm, ht]

@[simp] theorem execAccClr_wf {s : State} (h : Hdr) (w48 : Bool) (acc : BitVec 4) (hm : Memory.wf s.mem = true) :
    InForm (execAccClr h w48 acc s) := by simp [execAccClr, hm]

@[simp] theorem execAccSt_wf {s : State} (h : Hdr) (w48 : Bool) (acc : BitVec 4) (tl : BitVec 7) (hm : Memory.wf s.mem = true) :
    InForm (execAccSt h w48 acc tl s) := by simp [execAccSt, hm]

@[simp] theorem execAccRd_wf {s : State} (h : Hdr) (itp : Interp) (ty : Ty) (rm : Rm) (tl : BitVec 7) (acc : BitVec 4)
    (hm : Memory.wf s.mem = true) :
    InForm (execAccRd h itp ty rm tl acc s) := by
  simp [execAccRd, hm]

@[simp] theorem setOpExps_mem (s : State) (c : Nat) (q : MmEntry) : (setOpExps s c q).mem = s.mem := by
  unfold setOpExps
  dsimp only
  (repeat' split) <;> simp

@[simp] theorem execArrayEntryStart_wf {s : State} (c : Nat) (hm : Memory.wf s.mem = true) : InForm (execArrayEntryStart c s) := by
  unfold execArrayEntryStart
  dsimp only
  (repeat' split) <;> simp [hm]

@[simp] theorem runMma_mem (s : State) (c : Nat) (q : MmEntry) (b : MmBound) : (runMma s c q b).1.mem = s.mem := by
  unfold runMma
  dsimp only
  (repeat' split) <;> simp

@[simp] theorem runAcc_mem (s : State) (c : Nat) (q : MmEntry) : (runAcc s c q).1.mem = s.mem := by
  unfold runAcc
  dsimp only
  (repeat' split) <;> simp

@[simp] theorem performMm_mem (c : Nat) (l : List Nat) (s : State) : (performMm c l s).mem = s.mem := by
  induction l generalizing s with
  | nil => rfl
  | cons i l ih =>
    unfold performMm
    split
    · exact ih s
    · split
      · exact ih s
      · dsimp only
        rw [ih, State.modCtx_mem]
        (repeat' split) <;> simp

@[simp] theorem completeMm_mem (s : State) (c i : Nat) : (completeMm s c i).mem = s.mem := by
  unfold completeMm
  split
  · rfl
  · dsimp only
    split <;> simp

@[simp] theorem execMatrixOpComplete_wf {s : State} (c : Nat) (hm : Memory.wf s.mem = true) : InForm (execMatrixOpComplete c s) := by
  unfold execMatrixOpComplete
  split <;> simp [hm]

@[simp] theorem execAccInstrComplete_wf {s : State} (c : Nat) (hm : Memory.wf s.mem = true) : InForm (execAccInstrComplete c s) := by
  unfold execAccInstrComplete
  split <;> simp [hm]

@[simp] theorem execStcv_wf {s : State} (h : Hdr) (m : MMod) (cv : BitVec 4) (a : Src) (hm : Memory.wf s.mem = true) :
    InForm (execStcv h m cv a s) := perThread_wf hm fun e pc s hm => by simp [hm]

@[simp] theorem execLdcv_wf {s : State} (h : Hdr) (m : MMod) (cv : BitVec 4) (a : Src) (hm : Memory.wf s.mem = true) :
    InForm (execLdcv h m cv a s) := by
  refine perThread_wf hm fun e pc s hm => ?_
  have hl := loadAct_wf m 32 32 .b32 .zero h a e pc hm
  dsimp only
  split
  · exact hm
  · generalize loadAct m 32 32 .b32 .zero h a e pc s = r at hl
    cases r with
    | done w => dsimp only; (repeat' split) <;> simp_all
    | _ => exact hl

@[simp] theorem applyImage_mem (s : State) (c : Nat) (o : Op) (n : Nat) (l : List Byte) : (applyImage s c o n l).mem = s.mem := by
  unfold applyImage
  dsimp only
  (repeat' split) <;> simp

/-! ### The sort engine (Sort.lean) -/

@[simp] theorem enqueueSort_mem (s : State) (c : Nat) (ts : List Nat) (pc : DWord) (k : SortCmd) :
    (enqueueSort s c ts pc k).mem = s.mem :=
  foldl_fst_mem (fun _ _ => by simp) _ _

@[simp] theorem sortAct_wf {s : State} (u : Uses) (h : Hdr) (act : Env → List Nat → State → Except (BitVec 6) (State × SortCmd))
    (hm : Memory.wf s.mem = true) (hact : ∀ e ts s w k, act e ts s = .ok (w, k) → w.mem = s.mem) :
    Memory.wf (sortAct u h act s).mem = true := by
  refine perBundle_wf hm fun e pc ts s hm => ?_
  split
  · exact hm
  · split
    · exact hm
    · split
      · exact hm
      · simp [hact _ _ _ _ _ ‹_›, hm]

@[simp] theorem shadowSort_mem (s : State) (c : Nat) (a : Agent) : (shadowSort s c a).mem = s.mem := by
  unfold shadowSort
  split <;> simp

@[simp] theorem execSortLoad_wf {s : State} (h : Hdr) (desc stable zeq : Bool) (ty : Ty) (kd : Pred) (tk : BitVec 7)
    (tp : Option (BitVec 7)) (hm : Memory.wf s.mem = true) : InForm (execSortLoad h desc stable zeq ty kd tk tp s) := by
  refine perBundle_wf hm fun e pc ts s hm => ?_
  dsimp only
  (repeat' split) <;> simp [hm, -List.foldl_cons]

@[simp] theorem execSortRun_wf {s : State} (h : Hdr) (a : Src) (hm : Memory.wf s.mem = true) : InForm (execSortRun h a s) := by
  refine sortAct_wf _ _ _ hm fun e ts s w k hk => ?_
  dsimp only at hk
  split at hk <;> cases hk
  rfl

@[simp] theorem execSortStore_wf {s : State} (h : Hdr) (tk : BitVec 7) (tp : Option (BitVec 7)) (hm : Memory.wf s.mem = true) :
    InForm (execSortStore h tk tp s) := by
  refine sortAct_wf _ _ _ hm fun e ts s w k hk => ?_
  dsimp only at hk
  (repeat' split at hk) <;> cases hk
  exact foldl_mem (fun s n => tileSt_mem ..) _ _

@[simp] theorem execSortTopk_wf {s : State} (h : Hdr) (a : Src) (hm : Memory.wf s.mem = true) : InForm (execSortTopk h a s) := by
  simp [execSortTopk, hm]

@[simp] theorem execSortMerge_wf {s : State} (h : Hdr) (hm : Memory.wf s.mem = true) : InForm (execSortMerge h s) := by
  refine sortAct_wf _ _ _ hm fun e ts s w k hk => ?_
  dsimp only at hk
  split at hk <;> cases hk
  rfl

@[simp] theorem execSortMatch_wf {s : State} (h : Hdr) (d : Dst) (a : Src) (hm : Memory.wf s.mem = true) :
    InForm (execSortMatch h d a s) := by simp [execSortMatch, hm]

@[simp] theorem execSortStateRd_wf {s : State} (h : Hdr) (d : Dst) (hm : Memory.wf s.mem = true) :
    InForm (execSortStateRd h d s) := perBundle_wf hm fun e pc ts s hm => by simp [hm]

@[simp] theorem execSortStateRel_wf {s : State} (h : Hdr) (hm : Memory.wf s.mem = true) :
    InForm (execSortStateRel h s) := perBundle_wf hm fun e pc ts s hm => by dsimp only; (repeat' split) <;> simp [hm]

@[simp] theorem execSortCmdStart_wf {s : State} (c : Nat) (hm : Memory.wf s.mem = true) : InForm (execSortCmdStart c s) := by
  unfold execSortCmdStart
  dsimp only
  (repeat' split) <;> simp [hm]

@[simp] theorem cowRows_mem (s : State) (c : Nat) (rows : List Nat) : (cowRows s c rows).mem = s.mem := by
  unfold cowRows
  refine foldl_mem (fun s u => foldl_mem (fun s r => ?_) _ _) _ _
  split
  · split <;> simp
  · rfl

@[simp] theorem modSort_mem (s : State) (c : Nat) (f : SortArr → SortArr) : (modSort s c f).mem = s.mem := by simp [modSort]

@[simp] theorem lostCells_mem (s : State) (c : Nat) (reads : Nat → Bool) : (lostCells s c reads).1.mem = s.mem := by
  unfold lostCells
  dsimp only
  split
  · rfl
  · exact foldl_mem (fun s i => modSort_mem ..) _ _

@[simp] theorem runSort_mem (s : State) (c : Nat) (q : SortEntry) : (runSort s c q).1.mem = s.mem := by
  unfold runSort
  dsimp only
  split
  · split <;> simp [-List.foldl_cons]
  · split <;> simp
  · split
    · rfl
    · split <;> simp
  · simp
  · simp
  · rw [foldl_mem fun s t => ?_]
    · simp
    · split <;> simp

@[simp] theorem completeSort_mem (s : State) (c : Nat) (q : SortEntry) : (completeSort s c q).mem = s.mem := by
  unfold completeSort
  dsimp only
  (repeat' split) <;> simp

@[simp] theorem advanceRun_mem (s : State) (c n : Nat) : (advanceRun s c n).mem = s.mem := by
  unfold advanceRun
  dsimp only
  (repeat' split) <;> simp

@[simp] theorem execSortCmdComplete_wf {s : State} (c : Nat) (hm : Memory.wf s.mem = true) : InForm (execSortCmdComplete c s) := by
  unfold execSortCmdComplete
  (repeat' split) <;> simp [hm]

/-! ### Completion (Complete.lean) -/

@[simp] theorem completeLdcv_wf {s : State} (c : Nat) (o : Op) (n : Nat) (hm : Memory.wf s.mem = true) :
    Memory.wf (completeLdcv s c o n).mem = true := by
  unfold completeLdcv
  dsimp only
  (repeat' split) <;> simp [hm]

@[simp] theorem completeOp_wf {s : State} (c : Nat) (o : Op) (hm : Memory.wf s.mem = true) :
    Memory.wf (completeOp s c o).mem = true := by
  unfold completeOp
  split
  · exact hm
  · split <;> simp [hm]

@[simp] theorem execLoadComplete_wf {s : State} (c id : Nat) (hm : Memory.wf s.mem = true) : InForm (execLoadComplete c id s) := by
  unfold execLoadComplete
  split <;> simp [hm]

@[simp] theorem execStoreHeldAtHome_wf {s : State} (c id : Nat) (hm : Memory.wf s.mem = true) : InForm (execStoreHeldAtHome c id s) := by
  unfold execStoreHeldAtHome
  (repeat' split) <;> simp [hm]

/-! ### Handlers (Handler.lean) -/

theorem ringWrite_wf {s w : State} {c v va : Nat} {d : List Byte} {bark : Bool} (hm : Memory.wf s.mem = true)
    (h : ringWrite s c v va d bark = .ok w) : Memory.wf w.mem = true := by
  unfold ringWrite at h
  cases hr : ringHome s v va bark with
  | error e => rw [hr] at h; cases h
  | ok x => rw [hr] at h; cases h; simp [hm]

@[simp] theorem capTrigger_mem (s : State) (c code : Nat) : (capTrigger s c code).mem = s.mem := by simp [capTrigger]

@[simp] theorem tracePut_wf {s : State} (c : Nat) (r : List Byte) (hm : Memory.wf s.mem = true) :
    Memory.wf (tracePut s c r).mem = true := by
  unfold tracePut
  dsimp only
  split
  · exact hm
  · rename_i hr
    simpa using ringWrite_wf hm hr

@[simp] theorem anchor_wf {s : State} (c : Nat) (hm : Memory.wf s.mem = true) : Memory.wf (anchor s c).mem = true := by
  unfold anchor
  refine foldl_wf (fun s a hm => ?_) _ hm
  simp [hm]

@[simp] theorem traceRec_wf {s : State} (c : Nat) (r : List Byte) (hm : Memory.wf s.mem = true) :
    Memory.wf (traceRec s c r).mem = true := by
  unfold traceRec
  dsimp only
  split <;> simp [hm]

@[simp] theorem traceStep_wf {s : State} (c t : Nat) (taken paired : Bool) (hm : Memory.wf s.mem = true) :
    Memory.wf (traceStep s c t taken paired).mem = true := by simp [traceStep, hm]

@[simp] theorem traceEnd_wf {s : State} (c t : Nat) (hm : Memory.wf s.mem = true) : Memory.wf (traceEnd s c t).mem = true := by
  simp [traceEnd, hm]

@[simp] theorem tracePark_wf {s : State} (c : Nat) (p : Parked) (hm : Memory.wf s.mem = true) : Memory.wf (tracePark s c p).mem = true := by
  simp [tracePark, hm]

@[simp] theorem execTraceOn_wf {s : State} (h : Hdr) (a : Src) (hm : Memory.wf s.mem = true) :
    InForm (execTraceOn h a s) := perThread_wf hm fun e pc s hm => by dsimp only; split <;> simp [hm]

@[simp] theorem execTraceOff_wf {s : State} (h : Hdr) (a : Src) (hm : Memory.wf s.mem = true) :
    InForm (execTraceOff h a s) := perThread_wf hm fun e pc s hm => by simp [hm]

@[simp] theorem execTraceMark_wf {s : State} (h : Hdr) (a : Src) (hm : Memory.wf s.mem = true) :
    InForm (execTraceMark h a s) := perThread_wf hm fun e pc s hm => by simp [hm]

@[simp] theorem execEret_wf {s : State} (h : Hdr) (a : Src) (hm : Memory.wf s.mem = true) : InForm (execEret h a s) :=
  perThread_wf hm fun e pc s hm => by split <;> simp [hm]

@[simp] theorem sysValue_mem (s : State) (c : Nat) (p : Parked) (mask v : Word) : (sysValue s c p mask v).mem = s.mem := by
  unfold sysValue
  split
  · split
    · simp
    · rfl
  · rfl

@[simp] theorem execResm_wf {s : State} (h : Hdr) (a b : Src) (pc val : Option Src) (hm : Memory.wf s.mem = true) :
    InForm (execResm h a b pc val s) := perThread_wf hm fun e pc s hm => by dsimp only; (repeat' split) <;> simp [hm]

@[simp] theorem execKill_wf {s : State} (h : Hdr) (a b : Src) (hm : Memory.wf s.mem = true) :
    InForm (execKill h a b s) := perThread_wf hm fun e pc s hm => by dsimp only; (repeat' split) <;> simp [hm]

@[simp] theorem execSstepThr_wf {s : State} (h : Hdr) (a b : Src) (hm : Memory.wf s.mem = true) :
    InForm (execSstepThr h a b s) := perThread_wf hm fun e pc s hm => by dsimp only; split <;> simp [hm]

@[simp] theorem execSstepGrp_wf {s : State} (h : Hdr) (a b : Src) (hm : Memory.wf s.mem = true) : InForm (execSstepGrp h a b s) :=
  perThread_wf hm fun e pc s hm => by split <;> simp [hm]

@[simp] theorem halt_wf {s : State} (h : Hdr) (d : Dst) (f : Bool → Bool) (hm : Memory.wf s.mem = true) :
    Memory.wf (halt h d f s).mem = true :=
  perThread_wf hm fun e _ s hm => by simp [hm]

@[simp] theorem execHaltHold_wf {s : State} (h : Hdr) (d : Dst) (hm : Memory.wf s.mem = true) : InForm (execHaltHold h d s) := by
  simp [execHaltHold, hm]

@[simp] theorem execHaltRel_wf {s : State} (h : Hdr) (d : Dst) (hm : Memory.wf s.mem = true) : InForm (execHaltRel h d s) := by
  simp [execHaltRel, hm]

@[simp] theorem execHaltQ_wf {s : State} (h : Hdr) (d : Dst) (hm : Memory.wf s.mem = true) : InForm (execHaltQ h d s) := by
  simp [execHaltQ, hm]

@[simp] theorem execDump_wf {s : State} (h : Hdr) (m : MMod) (sec : BitVec 4) (a b : Src) (hm : Memory.wf s.mem = true) :
    InForm (execDump h m sec a b s) := perThread_wf hm fun e pc s hm => by dsimp only; (repeat' split) <;> simp [hm]

/-! ### Shares (Share.lean) -/

@[simp] theorem State.modGate_mem (s : State) (n : Nat) (f : Gate → Gate) : (State.modGate s n f).mem = s.mem := by simp [State.modGate]

@[simp] theorem matchDue_mem (s : State) (n : Nat) : (matchDue s n).mem = s.mem := by
  unfold matchDue
  split <;> rfl

@[simp] theorem openSession_mem (s : State) (w : Nat) (d : List Byte) : (openSession s w d).1.mem = s.mem := by
  unfold openSession
  dsimp only
  (repeat' split) <;> simp

@[simp] theorem execShSessOpen_wf {s : State} (h : Hdr) (d : Dst) (a : Src) (hm : Memory.wf s.mem = true) :
    InForm (execShSessOpen h d a s) := by
  refine perThread_wf hm fun e pc s hm => ?_
  dsimp only
  split
  · simp [hm]
  · split
    · exact hm
    · rename_i w va hs hc
      have hw : Memory.wf w.mem = true := by rw [accessCheck_mem hc]; exact hm
      have hf := foldl_wf (fun v x hv => fillL2_wf (s.actWorld e.c e.t) x 3 hv) hs hw
      (repeat' split) <;> simp [hm, hf]

@[simp] theorem execShSessQry_wf {s : State} (h : Hdr) (d : Dst) (a : Src) (hm : Memory.wf s.mem = true) :
    InForm (execShSessQry h d a s) := perThread_wf hm fun e pc s hm => by simp [hm]

@[simp] theorem attachPool_mem (s : State) (c w rec_ : Nat) (ty : ShTy) (base xn : Nat) :
    (attachPool s c w rec_ ty base xn).1.mem = s.mem := by
  unfold attachPool
  dsimp only
  (repeat' split) <;> simp

@[simp] theorem execShPool_wf {s : State} (h : Hdr) (ty : ShTy) (d : Dst) (a b c : Src) (hm : Memory.wf s.mem = true) :
    InForm (execShPool h ty d a b c s) := perThread_wf hm fun e pc s hm => by dsimp only; (repeat' split) <;> simp [hm]

theorem takeItem_wf {s w : State} {e : Env} {r : Nat} {g : Gate} {ty : ShTy} {l : List Word} (hm : Memory.wf s.mem = true)
    (h : takeItem s e r g ty = .ok (w, l)) : Memory.wf w.mem = true := by
  unfold takeItem at h
  dsimp only at h
  (repeat' split at h) <;> cases h
  simp [hm]

theorem takeItem_error_mem {s w : State} {e : Env} {r : Nat} {g : Gate} {ty : ShTy} {x : Raise}
    (h : takeItem s e r g ty = .error (w, x)) : w.mem = s.mem := by
  unfold takeItem at h
  dsimp only at h
  (repeat' split at h) <;> cases h
  all_goals simp

@[simp] theorem execShBeg_wf {s : State} (h : Hdr) (ty : ShTy) (d : Dst) (a : Src) (b : Option Src) (c : Src)
    (hm : Memory.wf s.mem = true) : InForm (execShBeg h ty d a b c s) := by
  refine perThread_wf hm fun e pc s hm => ?_
  dsimp only
  split
  · exact hm
  · split
    · exact hm
    · split
      · simp [takeItem_error_mem ‹_›, hm]
      · simp [takeItem_wf hm ‹_›]

@[simp] theorem shLocal_wf {s : State} (h : Hdr) (ty : ShTy) (d : Dst) (a b : Src) (pub : Option Src) (f : Int → Int → Int)
    (hm : Memory.wf s.mem = true) : Memory.wf (shLocal h ty d a b pub f s).mem = true :=
  perThread_wf hm fun e pc s hm => by
    cases pub with
    | none => simp [hm]
    | some q => dsimp only; split <;> simp [hm]

@[simp] theorem execShAdd_wf {s : State} (h : Hdr) (ty : ShTy) (d : Dst) (a b : Src) (pub : Option Src) (hm : Memory.wf s.mem = true) :
    InForm (execShAdd h ty d a b pub s) := by simp [execShAdd, hm]

@[simp] theorem execShSub_wf {s : State} (h : Hdr) (ty : ShTy) (d : Dst) (a b : Src) (pub : Option Src) (hm : Memory.wf s.mem = true) :
    InForm (execShSub h ty d a b pub s) := by simp [execShSub, hm]

@[simp] theorem execShCmul_wf {s : State} (h : Hdr) (ty : ShTy) (d : Dst) (a b : Src) (hm : Memory.wf s.mem = true) :
    InForm (execShCmul h ty d a b s) := by simp [execShCmul, hm]

@[simp] theorem execShXor_wf {s : State} (h : Hdr) (d : Dst) (a b : Src) (pub : Option Src) (hm : Memory.wf s.mem = true) :
    InForm (execShXor h d a b pub s) := by simp [execShXor, hm]

@[simp] theorem shCvt_wf {s : State} (h : Hdr) (ty : ShTy) (pn : Bool) (d : Dst) (a c : Src) (f : Word → Word)
    (hm : Memory.wf s.mem = true) : Memory.wf (shCvt h ty pn d a c f s).mem = true :=
  perThread_wf hm fun e pc s hm => by split <;> simp [hm]

@[simp] theorem execShCvtA2b_wf {s : State} (h : Hdr) (pn : Bool) (d : Dst) (a b : Src) (hm : Memory.wf s.mem = true) :
    InForm (execShCvtA2b h pn d a b s) := by simp [execShCvtA2b, hm]

@[simp] theorem execShCvtB2a_wf {s : State} (h : Hdr) (ty : ShTy) (pn : Bool) (d : Dst) (a b : Src) (hm : Memory.wf s.mem = true) :
    InForm (execShCvtB2a h ty pn d a b s) := by simp [execShCvtB2a, hm]

@[simp] theorem shFinish_wf {s : State} (h : Hdr) (ty : ShTy) (d : Dst) (a b c : Src)
    (f : State → Bool → (Nat → Word) → Word × Word → Word) (hm : Memory.wf s.mem = true) :
    Memory.wf (shFinish h ty d a b c f s).mem = true :=
  perThread_wf hm fun e pc s hm => by dsimp only; split <;> simp [hm]

@[simp] theorem execShFin_wf {s : State} (h : Hdr) (ty : ShTy) (d : Dst) (a b c : Src) (hm : Memory.wf s.mem = true) :
    InForm (execShFin h ty d a b c s) := by simp [execShFin, hm]

@[simp] theorem execShAnd_wf {s : State} (h : Hdr) (d : Dst) (a b c : Src) (hm : Memory.wf s.mem = true) :
    InForm (execShAnd h d a b c s) := by simp [execShAnd, hm]

@[simp] theorem execShTrunc_wf {s : State} (h : Hdr) (ty : ShTy) (d : Dst) (a b c : Src) (hm : Memory.wf s.mem = true) :
    InForm (execShTrunc h ty d a b c s) := by simp [execShTrunc, hm]

@[simp] theorem sendWords_mem (s : State) (w dev : Nat) (l : List Word) (m : List Word → Msg) : (sendWords s w dev l m).mem = s.mem := by
  unfold sendWords
  split <;> simp

@[simp] theorem startTimer_mem (s : State) (n : Nat) : (startTimer s n).mem = s.mem := by simp [startTimer]

@[simp] theorem sendContrib_mem (s : State) (n : Nat) (k : Contrib) : (sendContrib s n k).mem = s.mem := by
  unfold sendContrib
  dsimp only
  (repeat' split) <;> simp

@[simp] theorem exchange_wf {s : State} (reveal : Bool) (h : Hdr) (ty : ShTy) (d : Dst) (a b c : Src) (hm : Memory.wf s.mem = true) :
    Memory.wf (exchange reveal h ty d a b c s).mem = true := by
  refine perBundle_wf hm fun e pc ts s hm => ?_
  dsimp only
  (repeat' split) <;> simp [hm]

@[simp] theorem execShXch_wf {s : State} (h : Hdr) (ty : ShTy) (d : Dst) (a b c : Src) (hm : Memory.wf s.mem = true) :
    InForm (execShXch h ty d a b c s) := by simp [execShXch, hm]

@[simp] theorem execShReveal_wf {s : State} (h : Hdr) (ty : ShTy) (d : Dst) (a b c : Src) (hm : Memory.wf s.mem = true) :
    InForm (execShReveal h ty d a b c s) := by simp [execShReveal, hm]

@[simp] theorem deliver_mem (s : State) (n : Nat) (k : Contrib) (peer : List Word) : (deliver s n k peer).mem = s.mem := by
  unfold deliver
  refine foldl_mem (fun s a => ?_) _ _
  (repeat' split) <;> simp

@[simp] theorem tryCommit_mem (s : State) (n : Nat) : (tryCommit s n).mem = s.mem := by
  unfold tryCommit
  dsimp only
  (repeat' split) <;> simp

@[simp] theorem gateArrival_mem (s : State) (n : Nat) (k : Contrib) : (gateArrival s n k).mem = s.mem := by
  unfold gateArrival
  dsimp only
  (repeat' split) <;> simp

@[simp] theorem peerArrival_mem (s : State) (n : Nat) (k : Contrib) : (peerArrival s n k).mem = s.mem := by
  unfold peerArrival
  dsimp only
  (repeat' split) <;> simp

@[simp] theorem execGateContributionArrival_wf {s : State} (rec_ : Nat) (c : Contrib) (hm : Memory.wf s.mem = true) :
    InForm (execGateContributionArrival rec_ c s) := by
  unfold execGateContributionArrival
  split <;> simp [hm]

@[simp] theorem arbiterWords_mem (s : State) (n : Nat) (ws : List Word) : (arbiterWords s n ws).mem = s.mem := by
  unfold arbiterWords
  dsimp only
  (repeat' split) <;> simp

@[simp] theorem gateFlit_mem (s : State) (n : Nat) (k : Contrib) : (gateFlit s n k).mem = s.mem := by
  unfold gateFlit
  dsimp only
  split <;> simp

@[simp] theorem arbiterFlit_mem (s : State) (n : Nat) (ws : List Word) : (arbiterFlit s n ws).mem = s.mem := by
  unfold arbiterFlit
  dsimp only
  split <;> simp

@[simp] theorem execArbiterWordsArrival_wf {s : State} (rec_ : Nat) (ws : List Word) (hm : Memory.wf s.mem = true) :
    InForm (execArbiterWordsArrival rec_ ws s) := by simp [execArbiterWordsArrival, hm]

@[simp] theorem execGateTimeout_wf {s : State} (rec_ : Nat) (hm : Memory.wf s.mem = true) : InForm (execGateTimeout rec_ s) := by
  unfold execGateTimeout
  split <;> simp [hm]

@[simp] theorem opensAs_mem (s : State) (n : Nat) (peer : Nat × Nat) : (opensAs s n peer).mem = s.mem := by simp [opensAs]

@[simp] theorem sendHeld_mem (s : State) (n : Nat) : (sendHeld s n).mem = s.mem := by
  unfold sendHeld
  dsimp only
  (repeat' split) <;> simp

@[simp] theorem execSessionMatch_wf {s : State} (r1 r2 : Nat) (hm : Memory.wf s.mem = true) : InForm (execSessionMatch r1 r2 s) := by
  unfold execSessionMatch
  dsimp only
  (repeat' split) <;> simp [hm]

@[simp] theorem detach_mem (s : State) (n : Nat) : (detach s n).mem = s.mem := by
  unfold detach
  refine foldl_mem (fun s a => ?_) _ _
  (repeat' split) <;> simp

@[simp] theorem freeRecord_mem (s : State) (n : Nat) : (freeRecord s n).mem = s.mem := by simp [freeRecord]

@[simp] theorem endPeer_mem (s : State) (n : Nat) : (endPeer s n).mem = s.mem := by
  unfold endPeer
  split
  · split
    · simp
    · split <;> simp
  · rfl

@[simp] theorem sessionTold_mem (s : State) (dev n : Nat) (aborted : Bool) : (sessionTold s dev n aborted).mem = s.mem := by
  unfold sessionTold
  dsimp only
  (repeat' split) <;> simp

@[simp] theorem wakeHeld_mem (s : State) (n : Nat) : (wakeHeld s n).mem = s.mem := by
  unfold wakeHeld
  dsimp only
  split
  · refine foldl_mem (fun s t => ?_) _ _
    split <;> simp
  · rfl

@[simp] theorem closeRecord_mem (s : State) (n : Nat) : (closeRecord s n).mem = s.mem := by
  unfold closeRecord
  dsimp only
  (repeat' split) <;> simp

@[simp] theorem execShClose_wf {s : State} (h : Hdr) (d : Dst) (a : Src) (hm : Memory.wf s.mem = true) :
    InForm (execShClose h d a s) := perThread_wf hm fun e pc s hm => by dsimp only; (repeat' split) <;> simp [hm]

/-! ### Placement (Place.lean) -/

@[simp] theorem newThread_mem (s : State) (c t : Nat) (b : Block) (i : Nat) : (newThread s c t b i).mem = s.mem := by simp [newThread]

@[simp] theorem placeBlock_mem (s : State) (c : Nat) (b : Block) : (placeBlock s c b).mem = s.mem := by
  unfold placeBlock
  split <;> simp

theorem evict_mem {s w : State} {c : Nat} (h : evict s c = some w) : w.mem = s.mem := by
  unfold evict at h
  split at h
  · cases h
  · dsimp only at h
    split at h <;> cases h
    simp

@[simp] theorem execUnitRestore_wf {s : State} (c : Nat) (u : UnitId) (hm : Memory.wf s.mem = true) : InForm (execUnitRestore c u s) := by
  unfold execUnitRestore
  (repeat' split) <;> simp [getD_mem fun _ => evict_mem, hm]

@[simp] theorem execThreadPlace_wf {s : State} (c : Nat) (hm : Memory.wf s.mem = true) : InForm (execThreadPlace c s) := by
  unfold execThreadPlace
  (repeat' split) <;> simp [getD_mem fun _ => evict_mem, hm]

@[simp] theorem State.setPath_mem (s : State) (n : Nat) (p : LaunchPath) : (State.setPath s n p).mem = s.mem := by simp [State.setPath]

@[simp] theorem submit_mem (s : State) (path world : Nat) (hi : Word) : (submit s path world hi).mem = s.mem := by
  unfold submit
  dsimp only
  split <;> simp

@[simp] theorem execLnchhiHost_wf {s : State} (fn : Nat) (hi : Word) (hm : Memory.wf s.mem = true) : InForm (execLnchhiHost fn hi s) := by
  unfold execLnchhiHost
  split <;> simp [hm]

@[simp] theorem stewardSubmit_mem (s : State) (p : Nat) (hi : Word) : (stewardSubmit s p hi).mem = s.mem := by
  unfold stewardSubmit
  split <;> simp

@[simp] theorem execLnchhiSteward_wf {s : State} (p : Nat) (hi : Word) (hm : Memory.wf s.mem = true) :
    InForm (execLnchhiSteward p hi s) := by simp [execLnchhiSteward, hm]

@[simp] theorem execLaunchRecordRead_wf {s : State} (path : Nat) (hm : Memory.wf s.mem = true) : InForm (execLaunchRecordRead path s) := by
  unfold execLaunchRecordRead
  dsimp only
  (repeat' split) <;> simp [hm]

theorem evictFor_mem {s w : State} {l : List Nat} {n : Nat} (h : evictFor s l n = some w) : w.mem = s.mem := by
  obtain ⟨c, -, hc⟩ := List.exists_of_findSome?_eq_some h
  exact evict_mem hc

@[simp] theorem nextLaunch_mem (s : State) (w c : Nat) (b : Block) : (nextLaunch s w c b).mem = s.mem := by
  unfold nextLaunch
  dsimp only
  split <;> simp

@[simp] theorem execLaunchBlockPlace_wf {s : State} (w : Nat) (hm : Memory.wf s.mem = true) : InForm (execLaunchBlockPlace w s) := by
  unfold execLaunchBlockPlace
  split
  · exact hm
  · dsimp only
    split <;> simp [getD_mem fun _ => evictFor_mem, hm]

@[simp] theorem modSteal_mem (s : State) (c : Nat) (f : Steal → Steal) : (modSteal s c f).mem = s.mem := by simp [modSteal]

@[simp] theorem execSpawnBlockPlace_wf {s : State} (c : Nat) (hm : Memory.wf s.mem = true) : InForm (execSpawnBlockPlace c s) := by
  unfold execSpawnBlockPlace
  split
  · exact hm
  · split <;> simp [getD_mem fun _ => evictFor_mem, hm]

@[simp] theorem execStealRequest_wf {s : State} (c : Nat) (hm : Memory.wf s.mem = true) : InForm (execStealRequest c s) := by
  unfold execStealRequest
  split <;> simp [hm]

@[simp] theorem answerNone_mem (s : State) (thief : Nat) : (answerNone s thief).mem = s.mem := by simp [answerNone]

@[simp] theorem answerSteal_mem (s : State) (v thief : Nat) : (answerSteal s v thief).mem = s.mem := by
  unfold answerSteal
  dsimp only
  (repeat' split) <;> simp

@[simp] theorem execStealAnswer_wf {s : State} (v : Nat) (hm : Memory.wf s.mem = true) : InForm (execStealAnswer v s) := by
  unfold execStealAnswer
  dsimp only
  (repeat' split) <;> simp [hm]

@[simp] theorem execStealAck_wf {s : State} (thief : Nat) (hm : Memory.wf s.mem = true) : InForm (execStealAck thief s) := by
  unfold execStealAck
  dsimp only
  (repeat' split) <;> simp [hm]

@[simp] theorem execStealBackoffExpiry_wf {s : State} (c : Nat) (hm : Memory.wf s.mem = true) : InForm (execStealBackoffExpiry c s) := by
  unfold execStealBackoffExpiry
  split <;> simp [hm]

@[simp] theorem dropThefts_mem (s : State) (c : Nat) : (dropThefts s c).mem = s.mem := by simp [dropThefts]

@[simp] theorem dropSteals_mem (s : State) (c : Nat) : (dropSteals s c).mem = s.mem := by simp [dropSteals]

/-! ### Recovery (Recover.lean) -/

theorem ringPost_wf {s w : State} {c v : Nat} {b : DWord} {ctl : Word} {r : List Byte} (hm : Memory.wf s.mem = true)
    (h : ringPost s c v b ctl r = .ok w) : Memory.wf w.mem = true := by
  unfold ringPost at h
  dsimp only at h
  split at h
  · cases h
  · split at h
    · cases h
    · split at h
      · cases h
      · split at h
        · cases h
        · rename_i hr
          split at h <;> cases h
          exact ringWrite_wf (ringWrite_wf hm hr) ‹_›

theorem postOwn_wf {s w : State} {c : Nat} (hm : Memory.wf s.mem = true) (h : postOwn s c = some w) : Memory.wf w.mem = true := by
  unfold postOwn at h
  split at h
  · cases h
  · split at h
    · cases h
    · cases h
      simpa using ringPost_wf hm ‹_›
    · split at h
      · cases h
      · obtain ⟨t, -, rfl⟩ := Option.map_eq_some_iff.1 h
        simp [hm]

theorem postSteward_wf {s w : State} {c : Nat} (hm : Memory.wf s.mem = true) (h : postSteward s c = some w) :
    Memory.wf w.mem = true := by
  unfold postSteward at h
  split at h
  · cases h
  · split at h
    · cases h
    · split at h
      · cases h
      · split at h
        · cases h
        · cases h
          simpa using ringPost_wf hm ‹_›
        · cases h
          simp [hm]

@[simp] theorem execFaultRecordPost_wf {s : State} (c : Nat) (hm : Memory.wf s.mem = true) : InForm (execFaultRecordPost c s) := by
  unfold execFaultRecordPost
  cases ho : postOwn s c with
  | some w => exact postOwn_wf hm ho
  | none => cases hp : postSteward s c with
    | some w => exact postSteward_wf hm hp
    | none => exact hm

@[simp] theorem endFlush_wf {s : State} (c id : Nat) (hm : Memory.wf s.mem = true) : Memory.wf (endFlush s c id).mem = true := by
  unfold endFlush
  have hw := execFlushComplete_wf c id hm
  split
  · rename_i he; rw [he] at hw; exact hw
  · exact hm

@[simp] theorem drainStores_wf {s : State} (c : Nat) (hm : Memory.wf s.mem = true) : Memory.wf (drainStores s c).mem = true := by
  unfold drainStores
  refine foldl_wf (fun s a hm => ?_) _ hm
  (repeat' split) <;> simp [hm]

@[simp] theorem dropOps_mem (s : State) (c : Nat) (p : Op → Bool) : (dropOps s c p).mem = s.mem := by simp [dropOps]

@[simp] theorem cancelEngines_mem (s : State) (c : Nat) (a : Agent) : (cancelEngines s c a).mem = s.mem := by
  unfold cancelEngines
  extract_lets x mine s1 s2 s3
  have h1 : s1.mem = s.mem := foldl_mem (fun s q => by
    rw [foldl_mem fun s o => finishOp_mem ..]
    split <;> simp) _ _
  have h3 : s3.mem = s.mem := by simp [s3, s2, h1]
  split
  · rename_i s4 _
    have h4 : s4.mem = s3.mem := foldl_mem (fun s q => by
      rw [foldl_mem fun s o => finishOp_mem ..]
      split
      · rw [foldl_mem fun s n => readersAdd_mem ..]
      · rfl) _ _
    rw [modSort_mem, h4, h3]
  · exact h3

@[simp] theorem restoreShadow_mem (s : State) (c : Nat) (u : UnitId) (sh : Shadow) : (restoreShadow s c u sh).mem = s.mem := by
  unfold restoreShadow
  dsimp only
  rw [fromFrames_mem]
  split <;> simp

@[simp] theorem reissue_mem (s : State) (c : Nat) (q : Copy) : (reissue s c q).mem = s.mem := by simp [reissue]

@[simp] theorem rollback_wf {s : State} (c : Nat) (u : UnitId) (hm : Memory.wf s.mem = true) : Memory.wf (rollback s c u).mem = true := by
  unfold rollback
  split
  · exact hm
  · dsimp only
    rw [report_mem, modShadow_mem, foldl_mem fun s q => reissue_mem .., foldl_mem fun s t => by simp]
    simp [hm]

@[simp] theorem execRollback_wf {s : State} (c : Nat) (u : UnitId) (hm : Memory.wf s.mem = true) : InForm (execRollback c u s) := by
  unfold execRollback
  split <;> simp [hm]

@[simp] theorem killCore_wf {s : State} (c : Nat) (hm : Memory.wf s.mem = true) : Memory.wf (killCore s c).mem = true := by
  unfold killCore
  dsimp only
  rw [State.modCore_mem, foldl_mem fun s e => State.modCore_mem .., foldl_mem fun s t => retire_mem ..]
  simp [hm]

@[simp] theorem revertTokens_mem (s : State) (w : Nat) : (revertTokens s w).mem = s.mem := by simp [revertTokens]

@[simp] theorem abortWorld_wf {s : State} (w : Nat) (code : BitVec 6) (hm : Memory.wf s.mem = true) :
    Memory.wf (abortWorld s w code).mem = true := by
  unfold abortWorld
  split
  · exact hm
  · split
    · exact hm
    · dsimp only
      rw [postVector_mem]
      dsimp only
      rw [revertTokens_mem]
      refine foldl_wf (fun s c hm => killCore_wf c hm) _ ?_
      rw [foldl_mem fun s r => ?_]
      · split <;> simp [hm]
      · split <;> simp

@[simp] theorem execWorldAbort_wf {s : State} (w : Nat) (code : BitVec 6) (hm : Memory.wf s.mem = true) :
    InForm (execWorldAbort w code s) := by simp [execWorldAbort, hm]

@[simp] theorem failTokens_mem (o s : State) (c : Nat) : (failTokens o s c).mem = s.mem := by
  refine foldl_mem (fun s e => ?_) _ s
  dsimp only
  (repeat' split) <;> simp

@[simp] theorem handOver_mem (s : State) (c : Nat) : (handOver s c).1.mem = s.mem := by
  unfold handOver
  dsimp only
  (repeat' split) <;> simp

@[simp] theorem killIdle_wf {s : State} (c : Nat) (hm : Memory.wf s.mem = true) : Memory.wf (killIdle s c).mem = true := by
  simp [killIdle, hm]

@[simp] theorem outOfService_wf {o : State} (c : Nat) (hm : Memory.wf o.mem = true) : Memory.wf (outOfService o c).mem = true := by
  unfold outOfService
  dsimp only
  (repeat' split) <;> simp [hm]

@[simp] theorem newAgent_mem (s : State) (c : Nat) (u : UnitId) : (newAgent s c u).mem = s.mem := by simp [newAgent]

@[simp] theorem leadClaim_mem (s : State) (c t : Nat) : (leadClaim s c t).mem = s.mem := by
  unfold leadClaim
  dsimp only
  (repeat' split) <;> simp

@[simp] theorem leadGiveUp_mem (s : State) (c t : Nat) : (leadGiveUp s c t).mem = s.mem := by
  unfold leadGiveUp
  split <;> simp

@[simp] theorem execLeadClaim_wf {s : State} (c t : Nat) (hm : Memory.wf s.mem = true) : InForm (execLeadClaim c t s) := by
  simp [execLeadClaim, hm]

@[simp] theorem execLeadGiveUp_wf {s : State} (c t : Nat) (hm : Memory.wf s.mem = true) : InForm (execLeadGiveUp c t s) := by
  simp [execLeadGiveUp, hm]

@[simp] theorem frpush_mem (s : State) (c : Nat) (hi : Word) : (frpush s c hi).mem = s.mem := by simp [frpush]

@[simp] theorem execFrphi_wf {s : State} (c : Nat) (v : Word) (hm : Memory.wf s.mem = true) : InForm (execFrphi c v s) := by
  simp [execFrphi, hm]

@[simp] theorem stopArray_mem (s : State) (c : Nat) : (stopArray s c).mem = s.mem := by
  unfold stopArray
  dsimp only
  rw [State.modCtx_mem, foldr_mem fun i s => ?_]
  (repeat' split) <;> simp

@[simp] theorem stopCmds_mem (n : Nat) (s : State) (c : Nat) : (stopCmds n s c).mem = s.mem := by
  induction n generalizing s with
  | zero => rfl
  | succ n ih =>
    unfold stopCmds
    split
    · rfl
    · split
      · rfl
      · dsimp only
        split <;> simp [ih]
      · simp [ih]

@[simp] theorem stopSort_mem (s : State) (c : Nat) : (stopSort s c).mem = s.mem := by simp [stopSort]

@[simp] theorem packCopies_mem (s : State) (c : Nat) : (packCopies s c).mem = s.mem := by
  unfold packCopies
  refine foldl_mem (fun s a => ?_) _ _
  split <;> simp

@[simp] theorem packLoads_wf {s : State} (c : Nat) (hm : Memory.wf s.mem = true) : Memory.wf (packLoads s c).mem = true := by
  unfold packLoads
  refine foldl_wf (fun s a hm => ?_) _ hm
  simp [hm]

@[simp] theorem save_wf {s : State} (c : Nat) (hm : Memory.wf s.mem = true) : Memory.wf (save s c).mem = true := by
  unfold save
  extract_lets k need
  split
  · split
    · exact hm
    · simp [hm]
  · rename_i s1 mine s2 s3 _ _ _ _ fr s4 _ _
    have h1 : Memory.wf s1.mem = true := by
      simp only [s1]
      rw [foldl_mem fun s r => ?_]
      · exact hm
      · split <;> simp
    have h3 : Memory.wf s3.mem = true := by
      refine packLoads_wf c ?_
      rw [packCopies_mem, stopSort_mem, stopArray_mem]
      exact drainStores_wf (s := s2) c h1
    have h4 : Memory.wf s4.mem = true := by rwa [State.takeFrames_mem]
    rw [State.setCore_mem]
    dsimp only
    exact h4

@[simp] theorem execCxswSave_wf {s : State} (c : Nat) (hm : Memory.wf s.mem = true) : InForm (execCxswSave c s) := by
  unfold execCxswSave
  split <;> simp [hm]

@[simp] theorem resend_mem (s : State) (c : Nat) : (resend s c).mem = s.mem := by
  unfold resend
  dsimp only
  refine (foldl_mem (fun s a => ?_) _ _).trans ?_
  · (repeat' split) <;> simp
  · simp

@[simp] theorem rearm_mem (s : State) (c : Nat) : (rearm s c).mem = s.mem := by
  unfold rearm
  dsimp only
  refine (foldl_mem (fun s a => ?_) _ _).trans ?_
  · (repeat' split) <;> simp
  · simp

@[simp] theorem restoreSave_mem (s : State) (c : Nat) : (restoreSave s c).mem = s.mem := by
  unfold restoreSave
  dsimp only
  split <;> simp

@[simp] theorem execCxswRestore_wf {s : State} (c : Nat) (hm : Memory.wf s.mem = true) : InForm (execCxswRestore c s) := by
  unfold execCxswRestore
  split <;> simp [hm]

@[simp] theorem shctlClear_mem (s : State) (c : Nat) : (shctlClear s c).mem = s.mem := by simp [shctlClear]

@[simp] theorem execShctlClear_wf {s : State} (c : Nat) (hm : Memory.wf s.mem = true) : InForm (execShctlClear c s) := by
  simp [execShctlClear, hm]

@[simp] theorem pcede_mem (s : State) (p : Nat) (v : Word) : (pcede s p v).mem = s.mem := by
  unfold pcede
  split <;> simp

@[simp] theorem execPcede_wf {s : State} (p : Nat) (v : Word) (hm : Memory.wf s.mem = true) : InForm (execPcede p v s) := by
  simp [execPcede, hm]

/-! ### The privileged class (Priv.lean) -/

@[simp] theorem stewardOp_wf {s : State} (u : Uses) (h : Hdr) (d : Dst)
    (act : Env → Nat → State → Sum (State × Word) (State × Why)) (hm : Memory.wf s.mem = true)
    (hact : ∀ e p s, Memory.wf s.mem = true → Memory.wf (Sum.elim Prod.fst Prod.fst (act e p s)).mem = true) :
    Memory.wf (stewardOp u h d act s).mem = true := by
  refine perThread_wf hm fun e pc s hm => ?_
  split
  · simp [hm]
  · have hw := hact e ‹Nat› s hm
    split
    · rename_i hr; rw [hr] at hw; simpa using hw
    · rename_i hr; rw [hr] at hw; simpa using hw

@[simp] theorem quiesce_mem (s : State) (p : Nat) (q : BitVec 4) : (quiesce s p q).mem = s.mem := by
  unfold quiesce
  dsimp only
  rw [State.modPart_mem]
  exact foldl_mem (fun s c => by simp) _ _

@[simp] theorem execPartQsc_wf {s : State} (h : Hdr) (d : Dst) (a : Src) (hm : Memory.wf s.mem = true) :
    InForm (execPartQsc h d a s) :=
  stewardOp_wf _ _ _ _ hm fun e p s hm => by dsimp only; (repeat' split) <;> simp [hm]

@[simp] theorem execPartRes_wf {s : State} (h : Hdr) (d : Dst) (a : Src) (hm : Memory.wf s.mem = true) :
    InForm (execPartRes h d a s) := by
  refine stewardOp_wf _ _ _ _ hm fun e p s hm => ?_
  dsimp only
  split
  · exact hm
  · simp only [Sum.elim_inl, State.modPart_mem]
    rw [foldl_mem fun s c => State.modCore_mem ..]
    exact hm

@[simp] theorem execPartWil_wf {s : State} (h : Hdr) (d : Dst) (a b : Src) (hm : Memory.wf s.mem = true) :
    InForm (execPartWil h d a b s) :=
  stewardOp_wf _ _ _ _ hm fun e p s hm => by dsimp only; split <;> simp [hm]

@[simp] theorem clearCore_wf {s : State} (c : Nat) (hm : Memory.wf s.mem = true) : Memory.wf (clearCore s c).mem = true := by
  simp [clearCore, hm]

@[simp] theorem placeHandler_mem (s : State) (c w : Nat) : (placeHandler s c w).mem = s.mem := by
  unfold placeHandler
  dsimp only
  (repeat' split) <;> simp

@[simp] theorem latchCore_mem (s : State) (c w : Nat) : (latchCore s c w).mem = s.mem := by
  unfold latchCore
  split <;> simp

@[simp] theorem submitImage_mem (s : State) (p : Nat) : (submitImage s p).mem = s.mem := by
  unfold submitImage
  split <;> rfl

@[simp] theorem startSteward_wf {s : State} (p : Nat) (hm : Memory.wf s.mem = true) : Memory.wf (startSteward s p).mem = true := by
  unfold startSteward
  split
  · rw [submitImage_mem, latchCore_mem]
    split <;> simp [hm]
  · exact hm

@[simp] theorem execCoreOutOfService_wf {s : State} (c : Nat) (hm : Memory.wf s.mem = true) : InForm (execCoreOutOfService c s) := by
  unfold execCoreOutOfService
  have ho := outOfService_wf c hm
  split
  · exact hm
  · dsimp only
    split
    · split
      · rw [inForm_next]
        exact startSteward_wf _ (by simpa using killCore_wf c ho)
      · simpa using ho
    · exact ho

@[simp] theorem execWorldClr_wf {s : State} (h : Hdr) (d : Dst) (a : Src) (hm : Memory.wf s.mem = true) :
    InForm (execWorldClr h d a s) :=
  stewardOp_wf _ _ _ _ hm fun e p s hm => by
    dsimp only
    (repeat' split) <;> simp [hm]

@[simp] theorem execWorldLat_wf {s : State} (h : Hdr) (d : Dst) (a b : Src) (hm : Memory.wf s.mem = true) :
    InForm (execWorldLat h d a b s) :=
  stewardOp_wf _ _ _ _ hm fun e p s hm => by
    dsimp only
    (repeat' split) <;> simp [hm]

@[simp] theorem scrubMark_mem (s : State) (gr : Nat) : (scrubMark s gr).mem = s.mem := by simp [scrubMark]

@[simp] theorem scrubQuarter_mem (s : State) (q : Nat) : (scrubQuarter s q).mem = s.mem := by simp [scrubQuarter]

@[simp] theorem endPart_wf {s : State} (p q : Nat) (hm : Memory.wf s.mem = true) : Memory.wf (endPart s p q).mem = true := by
  unfold endPart
  dsimp only
  have hg : ∀ {s : State}, Memory.wf s.mem = true → Memory.wf (match s.stewardCore q with
      | some c => clearCore s c
      | none => s).mem = true := fun hm => by split <;> simp [hm]
  refine hg (foldl_wf (fun s r hm => ?_) _ hm)
  split <;> simp [hm]

@[simp] theorem rehome_mem (s : State) : (rehome s).mem = s.mem := by simp [rehome]

@[simp] theorem latchSteward_wf {s : State} (p : Nat) (hm : Memory.wf s.mem = true) : Memory.wf (latchSteward s p).mem = true := by
  unfold latchSteward
  split
  · split
    · exact hm
    · rw [latchCore_mem]
      split <;> simp [hm]
  · exact hm

@[simp] theorem rebound_wf {s : State} (p : Nat) (n : BitVec 4) (ports : BitVec 48) (hm : Memory.wf s.mem = true) :
    Memory.wf (rebound s p n ports).mem = true := by
  unfold rebound
  dsimp only
  refine latchSteward_wf p ?_
  simp only [rehome_mem]
  rw [foldl_mem fun s q => scrubQuarter_mem ..]
  simp only [State.modPart_mem]
  refine foldl_wf (fun s c hm => ?_) _ (foldl_wf (fun s e hm => endPart_wf p e.1 hm) _ hm)
  split <;> simp [hm]

@[simp] theorem execPartWnb_wf {s : State} (h : Hdr) (d : Dst) (a b : Src) (hm : Memory.wf s.mem = true) :
    InForm (execPartWnb h d a b s) :=
  stewardOp_wf _ _ _ _ hm fun e p s hm => by dsimp only; split <;> simp [hm]

@[simp] theorem shoot_wf {s : State} (p : Nat) (inP : Nat → Nat → Bool) (hm : Memory.wf s.mem = true) :
    Memory.wf (shoot s p inP).mem = true :=
  memOk_shoot hm p inP

theorem shootDown_wf {s : State} {e : Env} {p : Nat} {inP : Nat → Nat → Bool} {inW : Nat → Bool} {part : Bool}
    {r : Sum (State × Word) (State × Why)} (hm : Memory.wf s.mem = true) (h : shootDown s e p inP inW part = r) :
    Memory.wf (Sum.elim Prod.fst Prod.fst r).mem = true := by
  subst h
  unfold shootDown
  dsimp only
  (repeat' split) <;> simp [hm]

@[simp] theorem execXltSdRange_wf {s : State} (h : Hdr) (d : Dst) (a b c : Src) (hm : Memory.wf s.mem = true) :
    InForm (execXltSdRange h d a b c s) := by
  refine perThread_wf hm fun e pc s hm => ?_
  dsimp only
  split
  · exact hm
  · split
    · exact hm
    · split <;> rename_i hr <;> simpa using shootDown_wf hm hr

@[simp] theorem execXltSdWorld_wf {s : State} (h : Hdr) (d : Dst) (c : Src) (hm : Memory.wf s.mem = true) :
    InForm (execXltSdWorld h d c s) := by
  refine perThread_wf hm fun e pc s hm => ?_
  dsimp only
  split
  · exact hm
  · split <;> rename_i hr <;> simpa using shootDown_wf hm hr

@[simp] theorem execXltSdPart_wf {s : State} (h : Hdr) (d : Dst) (hm : Memory.wf s.mem = true) : InForm (execXltSdPart h d s) := by
  refine perThread_wf hm fun e pc s hm => ?_
  dsimp only
  split <;> rename_i hr <;> simpa using shootDown_wf hm hr

@[simp] theorem fabOp_wf {s : State} (h : Hdr) (d : Dst) (a b : Src) (k : Nat)
    (act : State → Nat → Nat → (Nat → Word) → Option (State × Word)) (hm : Memory.wf s.mem = true)
    (hact : ∀ s p n v w x, act s p n v = some (w, x) → w.mem = s.mem) : Memory.wf (fabOp h d a b k act s).mem = true := by
  refine stewardOp_wf _ _ _ _ hm fun e p s hm => ?_
  simp only [Sum.elim_inl]
  cases hr : act s p (rdWord s e h a).toNat fun i => rdWord s e h b i with
  | none => exact hm
  | some r => obtain ⟨w, x⟩ := r; simpa [hact _ _ _ _ _ _ hr] using hm

@[simp] theorem execFabCfgRoute_wf {s : State} (h : Hdr) (d : Dst) (a b : Src) (hm : Memory.wf s.mem = true) :
    InForm (execFabCfgRoute h d a b s) := by
  refine fabOp_wf _ _ _ _ _ _ hm fun s p n v w x hr => ?_
  dsimp only at hr
  split at hr <;> cases hr
  split <;> simp

@[simp] theorem execFabCfgBind_wf {s : State} (h : Hdr) (d : Dst) (a b : Src) (hm : Memory.wf s.mem = true) :
    InForm (execFabCfgBind h d a b s) := by
  refine fabOp_wf _ _ _ _ _ _ hm fun s p n v w x hr => ?_
  dsimp only at hr
  split at hr <;> cases hr
  rfl

@[simp] theorem execFabCfgUnbind_wf {s : State} (h : Hdr) (d : Dst) (a b : Src) (hm : Memory.wf s.mem = true) :
    InForm (execFabCfgUnbind h d a b s) := by
  refine fabOp_wf _ _ _ _ _ _ hm fun s p n v w x hr => ?_
  dsimp only at hr
  split at hr <;> cases hr
  rfl

@[simp] theorem execFabCfgPort_wf {s : State} (h : Hdr) (d : Dst) (a b : Src) (hm : Memory.wf s.mem = true) :
    InForm (execFabCfgPort h d a b s) := by
  refine fabOp_wf _ _ _ _ _ _ hm fun s p n v w x hr => ?_
  dsimp only at hr
  split at hr <;> cases hr
  simp

@[simp] theorem execFabCfgQry_wf {s : State} (h : Hdr) (d : Dst) (a b : Src) (hm : Memory.wf s.mem = true) :
    InForm (execFabCfgQry h d a b s) := perThread_wf hm fun e pc s hm => by dsimp only; (repeat' split) <;> simp [hm]

@[simp] theorem setKey_mem (s : State) (slot : Nat) (k : Option Key) : (setKey s slot k).mem = s.mem := by simp [setKey]

@[simp] theorem execKeySet_wf {s : State} (h : Hdr) (d : Dst) (a b : Src) (hm : Memory.wf s.mem = true) :
    InForm (execKeySet h d a b s) := perThread_wf hm fun e pc s hm => by dsimp only; (repeat' split) <;> simp [hm]

/-! ### Registers (SysRegs.lean) -/

@[simp] theorem setCap_mem (s : State) (q j : Nat) (v : Capture) : (setCap s q j v).mem = s.mem := by simp [setCap]

@[simp] theorem modCap_mem (s : State) (p u : Nat) (f : Capture → Capture) : (modCap s p u f).mem = s.mem := by
  unfold modCap
  split <;> rfl

@[simp] theorem execCapctlArm_wf {s : State} (p u : Nat) (hm : Memory.wf s.mem = true) : InForm (execCapctlArm p u s) := by
  simp [execCapctlArm, hm]

@[simp] theorem execCapctlClear_wf {s : State} (p u : Nat) (hm : Memory.wf s.mem = true) : InForm (execCapctlClear p u s) := by
  simp [execCapctlClear, hm]

@[simp] theorem ringHeart_mem (s : State) (p : Nat) (v : Word) : (ringHeart s p v).mem = s.mem := by
  unfold ringHeart
  split <;> rfl

@[simp] theorem execHwdb_wf {s : State} (p : Nat) (v : Word) (hm : Memory.wf s.mem = true) : InForm (execHwdb p v s) := by
  simp [execHwdb, hm]

@[simp] theorem writeCore_mem (s : State) (c t n : Nat) (v : Word) : (writeCore s c t n v).mem = s.mem := by
  unfold writeCore
  dsimp only
  (repeat' split) <;> simp

@[simp] theorem writePart_mem (s : State) (c p n : Nat) (v : Word) : (writePart s c p n v).mem = s.mem := by
  unfold writePart
  dsimp only
  (repeat' split) <;> simp

@[simp] theorem writeReg_mem (s : State) (c t n : Nat) (v : Word) : (writeReg s c t n v).mem = s.mem := by
  unfold writeReg
  split
  · simp
  · split
    · rfl
    · split
      · simp
      · split <;> simp

@[simp] theorem execRdsr_wf {s : State} (h : Hdr) (d : Dst) (hm : Memory.wf s.mem = true) : InForm (execRdsr h d s) :=
  perThread_wf hm fun e pc s hm => by cases regLevel (regNum h) <;> simp [hm]

@[simp] theorem execWrsr_wf {s : State} (h : Hdr) (a : Src) (hm : Memory.wf s.mem = true) : InForm (execWrsr h a s) :=
  perThread_wf hm fun e pc s hm => by
    cases regLevel (regNum h) with
    | none => exact hm
    | some lv => dsimp only; (repeat' split) <;> simp [hm]

/-! ### Reliability (Reliab.lean) -/

@[simp] theorem execCaptureUnitCycle_wf {s : State} (p u : Nat) (lat : List Word) (hm : Memory.wf s.mem = true) :
    InForm (execCaptureUnitCycle p u lat s) := by
  unfold execCaptureUnitCycle
  split <;> simp [hm]

@[simp] theorem freeAudit_mem (s : State) (d n : Nat) : (freeAudit s d n).mem = s.mem := by simp [freeAudit]

@[simp] theorem modAudst_mem (s : State) (d p : Nat) (f : Word → Word) : (modAudst s d p f).mem = s.mem := by simp [modAudst]

@[simp] theorem execAuditReplay_wf {s : State} (d n : Nat) (equal : Bool) (hm : Memory.wf s.mem = true) :
    InForm (execAuditReplay d n equal s) := by
  unfold execAuditReplay
  dsimp only
  (repeat' split) <;> simp [hm]

@[simp] theorem execAuditReplayTimeout_wf {s : State} (d n : Nat) (hm : Memory.wf s.mem = true) :
    InForm (execAuditReplayTimeout d n s) := by
  unfold execAuditReplayTimeout
  (repeat' split) <;> simp [hm]

@[simp] theorem countError_mem (s : State) (x : Place) (corrected : Bool) : (countError s x corrected).mem = s.mem := by
  unfold countError
  dsimp only
  split
  · rw [modDie_mem, foldl_mem fun s p => modDie_mem ..]
  · rw [foldl_mem fun s p => modDie_mem ..]

@[simp] theorem abortStruck_wf {s : State} (w : Nat) (hm : Memory.wf s.mem = true) : Memory.wf (abortStruck s w).mem = true := by
  unfold abortStruck
  split <;> simp [hm]

@[simp] theorem dropFetch_mem (s : State) (c va : Nat) (bad : Bool) : (dropFetch s c va bad).mem = s.mem := by simp [dropFetch]

@[simp] theorem poisonMem_mem (s : State) (a : Nat) : (poisonMem s a).mem = s.mem := by
  unfold poisonMem
  split <;> rfl

@[simp] theorem strike_wf {s : State} (e : ErrAt) (hm : Memory.wf s.mem = true) : Memory.wf (strike s e).mem = true := by
  have ha := fun l : List Nat => foldl_wf (fun s w hm => abortStruck_wf w hm) l hm
  unfold strike
  split
  case h_9 => split <;> simp [apply_ite State.mem, hm]
  all_goals simp [hm, ha]

@[simp] theorem correct_mem (s : State) (e : ErrAt) : (correct s e).mem = s.mem := by
  unfold correct
  split <;> rfl

@[simp] theorem execSoftError_wf {s : State} (e : ErrAt) (correctable : Bool) (hm : Memory.wf s.mem = true) :
    InForm (execSoftError e correctable s) := by
  unfold execSoftError
  split <;> simp [hm]

@[simp] theorem modPower_mem (s : State) (d : Nat) (f : Power → Power) : (modPower s d f).mem = s.mem := by simp [modPower]

@[simp] theorem execClockStepDown_wf {s : State} (d : Nat) (thermal : Bool) (hm : Memory.wf s.mem = true) :
    InForm (execClockStepDown d thermal s) := by simp [execClockStepDown, hm]

@[simp] theorem execClockStepUp_wf {s : State} (d : Nat) (hm : Memory.wf s.mem = true) : InForm (execClockStepUp d s) := by
  unfold execClockStepUp
  split <;> simp [hm]

@[simp] theorem execUndervoltStep_wf {s : State} (d m : Nat) (hm : Memory.wf s.mem = true) : InForm (execUndervoltStep d m s) := by
  simp [execUndervoltStep, hm]

@[simp] theorem execReliabilityWindow_wf {s : State} (d m : Nat) (past : Bool) (hm : Memory.wf s.mem = true) :
    InForm (execReliabilityWindow d m past s) := by
  unfold execReliabilityWindow
  split <;> simp [hm]

@[simp] theorem scrubGranule_wf {s : State} (gr : Nat) (hm : Memory.wf s.mem = true) : Memory.wf (scrubGranule s gr).mem = true :=
  memOk_scrubGranule hm gr

@[simp] theorem execScrubGranule_wf {s : State} (gr : Nat) (hm : Memory.wf s.mem = true) : InForm (execScrubGranule gr s) := by
  simp [execScrubGranule, hm]

@[simp] theorem loadImage_wf {s : State} (x : PartCfg) (hm : Memory.wf s.mem = true) : Memory.wf (loadImage s x).mem = true :=
  memOk_loadImage hm x

@[simp] theorem formPart_wf {s : State} (x : PartCfg) (hm : Memory.wf s.mem = true) : Memory.wf (formPart s x).mem = true := by
  unfold formPart
  split
  · exact hm
  · exact loadImage_wf x hm

@[simp] theorem formParts_wf {s : State} (l : List PartCfg) (hm : Memory.wf s.mem = true) : Memory.wf (formParts s l).mem = true := by
  unfold formParts
  dsimp only
  refine foldl_wf (fun s p hm => startSteward_wf p hm) _ ?_
  exact foldl_wf (fun s x hm => formPart_wf x hm) l hm

@[simp] theorem afresh_wf (s : State) : Memory.wf (afresh s).mem = true := memOk_reset

@[simp] theorem execColdPowerUp_wf (s : State) (cfg : List PartCfg) : InForm (execColdPowerUp cfg s) := by simp [execColdPowerUp]

@[simp] theorem powerOff_wf (s : State) : Memory.wf (powerOff s).mem = true := memOk_reset

@[simp] theorem execColdPowerLoss_wf (s : State) : InForm (execColdPowerLoss s) := by simp [execColdPowerLoss]

@[simp] theorem execThermalCut_wf (s : State) : InForm (execThermalCut s) := by simp [execThermalCut]

@[simp] theorem execWarmReset_wf {s : State} (hm : Memory.wf s.mem = true) : InForm (execWarmReset s) :=
  formParts_wf s.cfg hm

/-! ### What the fabric brings (FabricIn.lean) -/

@[simp] theorem loseOp_mem (d c : Nat) (s : State) (o : Op) : (loseOp d c s o).mem = s.mem := by
  unfold loseOp
  dsimp only
  (repeat' split) <;> simp

@[simp] theorem loseToken_mem (d die : Nat) (s : State) (t : Token) : (loseToken d die s t).mem = s.mem := by
  unfold loseToken
  dsimp only
  (repeat' split) <;> simp

@[simp] theorem loseDevice_mem (s : State) (p d : Nat) : (loseDevice s p d).mem = s.mem := by
  unfold loseDevice
  split
  · rfl
  · dsimp only
    split
    · rw [sendSteward_mem, foldl_mem fun s r => ?_]
      · simp
      · split <;> simp
    · rw [foldl_mem fun s r => ?_]
      · simp
      · split <;> simp

@[simp] theorem execDeviceLossTimeout_wf {s : State} (p d : Nat) (hm : Memory.wf s.mem = true) : InForm (execDeviceLossTimeout p d s) := by
  unfold execDeviceLossTimeout
  split <;> simp [hm]

@[simp] theorem lossReport_mem (s : State) (d : Nat) : (lossReport s d).mem = s.mem := by
  unfold lossReport
  refine foldl_mem (fun s a => ?_) _ _
  split <;> simp

@[simp] theorem execLossReport_wf {s : State} (d : Nat) (hm : Memory.wf s.mem = true) : InForm (execLossReport d s) := by
  simp [execLossReport, hm]

@[simp] theorem flitActs_mem (s : State) (f : Flit) : (flitActs s f).mem = s.mem := by
  unfold flitActs
  dsimp only
  (repeat' split) <;> simp

@[simp] theorem execFlitReceive_wf {s : State} (port : Nat) (f : Flit) (hm : Memory.wf s.mem = true) :
    InForm (execFlitReceive port f s) := by
  unfold execFlitReceive
  (repeat' split) <;> simp [hm]

@[simp] theorem execLinkTrained_wf {s : State} (port : Nat) (hm : Memory.wf s.mem = true) : InForm (execLinkTrained port s) := by
  unfold execLinkTrained
  dsimp only
  (repeat' split) <;> simp [hm]

@[simp] theorem execDomainEnumeration_wf {s : State} (d : Nat) (hm : Memory.wf s.mem = true) : InForm (execDomainEnumeration d s) := by
  unfold execDomainEnumeration
  split <;> simp [hm]

/-! ### Heartwood (Heart.lean) -/

@[simp] theorem hostFail_mem (s : State) (fn : Nat) : (hostFail s fn).mem = s.mem := by simp [hostFail]

@[simp] theorem hostReply_mem (s : State) (fn : Nat) (l : List Byte) : (hostReply s fn l).mem = s.mem := by simp [hostReply]

theorem hostMem_wf {s : State} (fn w va n : Nat) (k : Acc) {act : List Home → State → State} (hm : Memory.wf s.mem = true)
    (hact : ∀ hs s, Memory.wf s.mem = true → Memory.wf (act hs s).mem = true) : Memory.wf (hostMem s fn w va n k act).mem = true := by
  unfold hostMem
  have hf := fun hs : List Home => foldl_wf (fun s h hm => fillL2_wf w h 3 hm) hs hm
  (repeat' split) <;> simp [hm, hf, hact]

@[simp] theorem hostRmw_wf {s : State} (fn w va n : Nat) (r : Rmw) (hm : Memory.wf s.mem = true) :
    Memory.wf (hostRmw s fn w va n r).mem = true := by
  unfold hostRmw
  split
  · simp [hm]
  · exact hostMem_wf _ _ _ _ _ hm fun hs s hm => by simp [hm]

@[simp] theorem maskVector_mem (s : State) (fn v : Nat) (m : Bool) : (maskVector s fn v m).mem = s.mem := by
  unfold maskVector
  dsimp only
  (repeat' split) <;> simp

@[simp] theorem hostAccess_wf {s : State} (fn w : Nat) (a : HostAcc) (hm : Memory.wf s.mem = true) :
    Memory.wf (hostAccess s fn w a).mem = true := by
  unfold hostAccess
  split
  case h_3 => exact hostMem_wf _ _ _ _ _ hm fun hs s hm => by simp [hm]
  case h_4 => exact hostMem_wf _ _ _ _ _ hm fun hs s hm => by simp [hm]
  all_goals (repeat' split) <;> simp [hm]

@[simp] theorem execHostInboundAccess_wf {s : State} (fn : Nat) (a : HostAcc) (hm : Memory.wf s.mem = true) :
    InForm (execHostInboundAccess fn a s) := by
  unfold execHostInboundAccess
  split <;> simp [hm]

@[simp] theorem execCoalesceDelayExpiry_wf {s : State} (w : Nat) (hm : Memory.wf s.mem = true) : InForm (execCoalesceDelayExpiry w s) := by
  unfold execCoalesceDelayExpiry
  split <;> simp [hm]

@[simp] theorem endWorld_mem (s : State) (w : Nat) : (endWorld s w).mem = s.mem := by
  unfold endWorld
  dsimp only
  split <;> simp

@[simp] theorem mailReply_wf {s : State} (b : Box) (status : Nat) (result : Option Nat) (hm : Memory.wf s.mem = true) :
    Memory.wf (mailReply s b status result).mem = true := by
  unfold mailReply
  split
  · exact hm
  · refine homeWrite_wf _ _ _ _ _ _ _ ?_
    split
    · exact homeWrite_wf _ _ _ _ _ _ _ hm
    · exact hm

@[simp] theorem worldNew_mem (s : State) (b : Box) : (worldNew s b).1.mem = s.mem := by
  unfold worldNew
  dsimp only
  (repeat' split) <;> simp

@[simp] theorem worldEnd_mem (s : State) (b : Box) : (worldEnd s b).1.mem = s.mem := by
  unfold worldEnd
  dsimp only
  (repeat' split) <;> simp

@[simp] theorem grant_mem (s : State) (b : Box) : (grant s b).1.mem = s.mem := by
  unfold grant
  dsimp only
  (repeat' split) <;> simp

@[simp] theorem revoke_mem (s : State) (b : Box) : (revoke s b).1.mem = s.mem := by
  unfold revoke
  (repeat' split) <;> simp

@[simp] theorem cxlWin_mem (s : State) (b : Box) : (cxlWin s b).1.mem = s.mem := by
  unfold cxlWin
  dsimp only
  (repeat' split) <;> simp

@[simp] theorem mailOther_mem (s : State) (b : Box) : (mailOther s b).1.mem = s.mem := by
  unfold mailOther
  dsimp only
  (repeat' split) <;> simp

theorem mailStep_wf {p : Nat → Bool} {run : State → Box → State × Nat × Option Nat} {s : State} (m : Mail) (hm : Memory.wf s.mem = true)
    (hrun : ∀ s b, Memory.wf s.mem = true → Memory.wf (run s b).1.mem = true) : Memory.wf (mailStep p run s m).mem = true := by
  -- the head alone unfolds: on the whole application the kernel would evaluate `mailBox s m`
  conv =>
    enter [1, 1, 1]
    fun; fun; fun; fun
    delta mailStep
  generalize mailBox s m = o
  cases o with
  | none => exact hm
  | some b =>
    dsimp only
    split
    · exact mailReply_wf _ _ _ (hrun _ _ hm)
    · exact hm

@[simp] theorem unlock_mem (s : State) (before : Bool) : (unlock s before).mem = s.mem := by simp [unlock]

theorem mailSteps_wf {p : Nat → Bool} {run : State → Box → State × Nat × Option Nat} {s : State} (l : List Mail)
    (hm : Memory.wf s.mem = true) (hrun : ∀ s b, Memory.wf s.mem = true → Memory.wf (run s b).1.mem = true) :
    Memory.wf (l.foldl (mailStep p run) s).mem = true :=
  foldl_wf (f := mailStep p run) (fun _ m hm => mailStep_wf m hm hrun) l hm

@[simp] theorem heartWindow_wf {s : State} (hm : Memory.wf s.mem = true) : Memory.wf (heartWindow s).mem = true := by
  unfold heartWindow
  refine mailSteps_wf _ ?_ fun s b hm => by simp [hm]
  rw [unlock_mem]
  refine mailSteps_wf _ ?_ fun s b hm => by simp [hm]
  exact mailSteps_wf _ hm fun s b hm => by simp [hm]

@[simp] theorem execHeartwoodWindow_wf {s : State} (hm : Memory.wf s.mem = true) : InForm (execHeartwoodWindow s) := by
  simp [execHeartwoodWindow, hm]

@[simp] theorem setSpdm_mem (s : State) (n : Nat) (v : Spdm) : (setSpdm s n v).mem = s.mem := by simp [setSpdm]

@[simp] theorem spdmReply_mem (s : State) (n : Nat) (l : List Nat) : (spdmReply s n l).mem = s.mem := by simp [spdmReply]

@[simp] theorem endSpdm_mem (s : State) (n : Nat) : (endSpdm s n).mem = s.mem := by simp [endSpdm]

@[simp] theorem execGetVersion_wf {s : State} (n : Nat) (hm : Memory.wf s.mem = true) : InForm (execGetVersion n s) := by
  simp [execGetVersion, hm]

@[simp] theorem execGetCapabilities_wf {s : State} (n : Nat) (hm : Memory.wf s.mem = true) : InForm (execGetCapabilities n s) := by
  simp [execGetCapabilities, hm]

@[simp] theorem execNegotiateAlgorithms_wf {s : State} (n : Nat) (hm : Memory.wf s.mem = true) : InForm (execNegotiateAlgorithms n s) := by
  simp [execNegotiateAlgorithms, hm]

@[simp] theorem execGetDigests_wf {s : State} (n : Nat) (hm : Memory.wf s.mem = true) : InForm (execGetDigests n s) := by
  simp [execGetDigests, hm]

@[simp] theorem execGetCertificate_wf {s : State} (n : Nat) (hm : Memory.wf s.mem = true) : InForm (execGetCertificate n s) := by
  simp [execGetCertificate, hm]

@[simp] theorem execChallenge_wf {s : State} (n nonce : Nat) (hm : Memory.wf s.mem = true) : InForm (execChallenge n nonce s) := by
  simp [execChallenge, hm]

@[simp] theorem execGetMeasurements_wf {s : State} (n : Nat) (hm : Memory.wf s.mem = true) : InForm (execGetMeasurements n s) := by
  simp [execGetMeasurements, hm]

@[simp] theorem execKeyExchange_wf {s : State} (n : Nat) (hm : Memory.wf s.mem = true) : InForm (execKeyExchange n s) := by
  simp [execKeyExchange, hm]

@[simp] theorem execFinish_wf {s : State} (n : Nat) (hm : Memory.wf s.mem = true) : InForm (execFinish n s) := by
  unfold execFinish
  (repeat' split) <;> simp [hm]

@[simp] theorem inSession_mem (s : State) (n code : Nat) : (inSession s n code).mem = s.mem := by
  unfold inSession
  split <;> rfl

@[simp] theorem execHeartbeat_wf {s : State} (n : Nat) (hm : Memory.wf s.mem = true) : InForm (execHeartbeat n s) := by
  simp [execHeartbeat, hm]

@[simp] theorem execKeyUpdate_wf {s : State} (n : Nat) (hm : Memory.wf s.mem = true) : InForm (execKeyUpdate n s) := by
  simp [execKeyUpdate, hm]

@[simp] theorem execEndSession_wf {s : State} (n : Nat) (hm : Memory.wf s.mem = true) : InForm (execEndSession n s) := by
  unfold execEndSession
  split <;> simp [hm]

@[simp] theorem execHeartbeatLapse_wf {s : State} (n : Nat) (hm : Memory.wf s.mem = true) : InForm (execHeartbeatLapse n s) := by
  unfold execHeartbeatLapse
  split <;> simp [hm]

@[simp] theorem execModelKeyDelivery_wf {s : State} (n : Nat) (k : ModelKey) (hm : Memory.wf s.mem = true) :
    InForm (execModelKeyDelivery n k s) := by
  unfold execModelKeyDelivery
  (repeat' split) <;> simp [hm]

@[simp] theorem debugReply_mem (s : State) (l : List Word) : (debugReply s l).mem = s.mem := by simp [debugReply]

@[simp] theorem debugPort_wf {s : State} (a : DbgReq) (hm : Memory.wf s.mem = true) : Memory.wf (debugPort s a).mem = true := by
  unfold debugPort
  dsimp only
  (repeat' split) <;> simp [hm]

@[simp] theorem execDebugPortRequest_wf {s : State} (r : DbgReq) (hm : Memory.wf s.mem = true) : InForm (execDebugPortRequest r s) := by
  simp [execDebugPortRequest, hm]

/-! ### Issue (Issue.lean) -/

@[simp] theorem pairMember_mem (b : Bundle) (f g : Alu) (r : PairRun) (t : Nat) : (pairMember b f g r t).s.mem = r.s.mem := by
  unfold pairMember
  split
  · rfl
  · dsimp only
    simp only [advance_mem]
    split <;> split <;> simp

@[simp] theorem runPair_mem (b : Bundle) (f g : Alu) (s : State) : (runPair b f g s).mem = s.mem := by
  simp [runPair, foldl_keeps (g := fun r : PairRun => r.s.mem) (pairMember_mem b f g)]

@[simp] theorem dropThreads_mem (s : State) (b : Bundle) (l : List (Nat × Raise)) : (dropThreads s b l).1.mem = s.mem := by
  simp [dropThreads]

@[simp] theorem markEntered_mem (s : State) (b : Bundle) : (markEntered s b).mem = s.mem := by simp [markEntered]

@[simp] theorem setAge_mem (s : State) (c : Nat) (u : UnitId) (pc : DWord) (n : Nat) : (setAge s c u pc n).mem = s.mem := by
  unfold setAge
  split <;> simp

@[simp] theorem rwaitCount_mem (s : State) (c : Nat) (u : UnitId) : (rwaitCount s c u).mem = s.mem := by
  unfold rwaitCount
  refine foldl_mem (fun s a => ?_) _ _
  split <;> simp

@[simp] theorem opportunity_mem (s : State) (c : Nat) (u : UnitId) (issued : Option DWord) :
    (opportunity s c u issued).mem = s.mem := by simp [opportunity]

@[simp] theorem clearYield_mem (s : State) (c : Nat) (u : UnitId) : (clearYield s c u).mem = s.mem := by simp [clearYield]

@[simp] theorem enterPipe_mem (s : State) (b : Bundle) : (enterPipe s b).mem = s.mem := by
  unfold enterPipe
  split <;> rfl

@[simp] theorem execAccessChecks_wf {s : State} (b : Bundle) (hm : Memory.wf s.mem = true) : InForm (execAccessChecks b s) := by
  unfold execAccessChecks
  split <;> exact hm

@[simp] theorem formBundle_mem (s : State) (c : Nat) (u : UnitId) (pipe : Nat) : (formBundle s c u pipe).mem = s.mem := by
  unfold formBundle
  dsimp only
  (repeat' split) <;> simp

@[simp] theorem serveUnits_mem (n : Nat) (l : List UnitId) (s : State) (c : Nat) : (serveUnits n l s c).mem = s.mem := by
  induction n generalizing l s with
  | zero => rfl
  | succ n ih =>
    unfold serveUnits
    split
    · rw [ih, formBundle_mem]
    · rfl

@[simp] theorem serveLead_mem (s : State) (c : Nat) : (serveLead s c).mem = s.mem := by
  unfold serveLead
  dsimp only
  (repeat' split) <;> simp

@[simp] theorem countStall_mem (s : State) (c n : Nat) : (countStall s c n).mem = s.mem := by
  unfold countStall
  split <;> rfl

@[simp] theorem ageLines_mem (s : State) (c : Nat) : (ageLines s c).mem = s.mem := by
  unfold ageLines
  dsimp only
  split <;> simp

@[simp] theorem mwaitTimeouts_mem (s : State) (c : Nat) : (mwaitTimeouts s c).mem = s.mem := by simp [mwaitTimeouts]

@[simp] theorem dropOld_mem (s : State) (d : Nat) : (dropOld s d).mem = s.mem := by simp [dropOld]

@[simp] theorem markOld_mem (s : State) (d : Nat) : (markOld s d).mem = s.mem := by
  unfold markOld
  refine foldl_mem (fun s a => ?_) _ _
  simp

@[simp] theorem rotateDie_mem (s : State) (c : Nat) : (rotateDie s c).mem = s.mem := by
  unfold rotateDie
  dsimp only
  (repeat' split) <;> simp

@[simp] theorem qscLast_mem (s : State) : (qscLast s).mem = s.mem := by simp [qscLast]

@[simp] theorem coreCycle_mem (s : State) (c : Nat) : (coreCycle s c).mem = s.mem := by simp [coreCycle, apply_ite State.mem]

@[simp] theorem execSchedulerCycle_wf {s : State} (c : Nat) (hm : Memory.wf s.mem = true) : InForm (execSchedulerCycle c s) := by
  simp [execSchedulerCycle, hm]

@[simp] theorem execIssueSpanAge_wf {s : State} (c : Nat) (u : UnitId) (hm : Memory.wf s.mem = true) : InForm (execIssueSpanAge c u s) := by
  unfold execIssueSpanAge
  split <;> simp [hm]

@[simp] theorem execFetchLineFill_wf {s : State} (c : Nat) (va : DWord) (hm : Memory.wf s.mem = true) :
    InForm (execFetchLineFill c va s) := by simp [execFetchLineFill, hm]

@[simp] theorem settleReports_mem (c : Nat) (s : State) : (settleReports c s).mem = s.mem := by
  unfold settleReports
  dsimp only
  rw [takeFaults_mem]
  refine foldl_fst_mem (fun p t => ?_) _ _
  split
  · exact popFail_mem ‹_›
  · rfl

@[simp] theorem settleWait_mem (c : Nat) (s : State) (t : Nat) : (settleWait c s t).mem = s.mem := by
  unfold settleWait
  split
  · split <;> simp
  · simp
  · rfl

@[simp] theorem passBarrier_mem (c : Nat) (s : State) (t : Nat) : (passBarrier c s t).mem = s.mem := by
  unfold passBarrier
  split <;> simp

@[simp] theorem completePhase_mem (s : State) (c : Nat) (u : UnitId) : (completePhase s c u).mem = s.mem := by
  unfold completePhase
  dsimp only
  (repeat' split) <;> simp

@[simp] theorem stepTraps_mem (s : State) (c : Nat) : (stepTraps s c).mem = s.mem := by simp [stepTraps]

@[simp] theorem traceAll_wf {o s : State} (c : Nat) (paired : Bool) (hm : Memory.wf s.mem = true) :
    Memory.wf (traceAll o c paired s).mem = true := by
  unfold traceAll
  dsimp only
  split
  · exact hm
  · refine foldl_wf (fun s p hm => tracePark_wf c p hm) _ (foldl_wf (fun s e hm => traceStep_wf c e.1 true false hm) _
      (foldl_wf (fun s p hm => ?_) _ hm))
    split <;> split <;> simp [hm]

@[simp] theorem settleFrontiers_mem (o : State) (c : Nat) (s : State) : (settleFrontiers o c s).mem = s.mem := rfl

@[simp] theorem settleFrames_mem (c : Nat) (s : State) : (settleFrames c s).mem = s.mem := by
  unfold settleFrames
  dsimp only
  split <;> simp

@[simp] theorem settleRwaits_mem (c : Nat) (s : State) : (settleRwaits c s).mem = s.mem := by
  unfold settleRwaits
  dsimp only
  split <;> simp

@[simp] theorem settleCore_wf {o s : State} (paired : Bool) (c : Nat) (hm : Memory.wf s.mem = true) :
    Memory.wf (settleCore o paired s c).mem = true := by
  unfold settleCore
  simp only [settleRwaits_mem, settleFrames_mem, settleFrontiers_mem]
  refine traceAll_wf c paired ?_
  rw [stepTraps_mem, foldl_mem fun s u => ?_]
  · simp [hm]
  · split <;> simp

@[simp] theorem settle_wf {o s : State} (paired : Bool) (hm : Memory.wf s.mem = true) : Memory.wf (settle o paired s).mem = true :=
  foldl_wf (fun _ c hm => settleCore_wf paired c hm) _ hm

@[simp] theorem passTime_mem (s : State) : (passTime s).mem = s.mem := by simp [passTime]

/-! ### The step (Step.lean) -/

@[simp] theorem settled_inForm {o : State} {paired : Bool} {a : Answer} (ha : InForm a) : InForm (settled o paired a) := by
  cases a with
  | next s => exact settle_wf paired ha
  | _ => trivial

/-! ### Dispatch.lean and Step.lean: every instruction and event, and the step -/

/-- The integer and float classes write registers alone (`runAlu`); the other arms are the lemmas above. -/
theorem exec_wf (i : Instr) {s : State} (hm : Memory.wf s.mem = true) : InForm (exec i s) := by
  cases i
  case iadd | isub | imul | imulh | imad | idiv | irem | ineg | iabs | imin | imax | iclamp | iand | ior | ixor | inot | iandn
      | shl | shr | sra | rotl | fshl | popc | clz | ctz | brev | bfx | bfi | perm | icmp | sel | mov | plog | lea | iaddc | isubb
      | idp4 | isad | pack | unpk | fadd | fsub | fmul | fma | fdiv | fmin | fmax | fabs | fneg | fcmp | fclass | fcpsg | frnd
      | fcvt | f2i | i2f | tcvt | bxal | fexp2 | flog2 | frcp | frsqrt | fsqrt | fsin | fcos | ftanh | fsigm | ferf =>
    exact runAlu_wf _ hm
  all_goals simp [exec, hm]

theorem runDue_wf (d : Due) {s : State} (hm : Memory.wf s.mem = true) : InForm (runDue d s) := by
  cases d <;> simp [runDue, hm]

/-- The state in which a bundle stands before its instruction. -/
def Issue.st : Issue → State
  | .ended s _ | .one s _ => s
@[simp] theorem Issue.st_ended (s : State) (paired : Bool) : (Issue.ended s paired).st = s := rfl
@[simp] theorem Issue.st_one (s : State) (i : Instr) : (Issue.one s i).st = s := rfl

@[simp] theorem lineFault_mem (s : State) (b : Bundle) (code : BitVec 6) (addr : DWord) : (lineFault s b code addr).st.mem = s.mem := by
  simp [lineFault]

@[simp] theorem issueAt_mem (s : State) (b : Bundle) (l : FetchLine) : (issueAt s b l).st.mem = s.mem := by
  unfold issueAt
  dsimp only
  (repeat' split) <;> simp

theorem prepare_wf {s : State} (b : Bundle) (hm : Memory.wf s.mem = true) : Memory.wf (prepare s b).st.mem = true := by
  unfold prepare
  extract_lets b1 s1
  split
  rename_i s2 b2 hd
  have h2 : Memory.wf s2.mem = true := wf_fst (by simpa using hm) hd
  split
  · exact h2
  · split
    · simpa using wf_fst (fetchLine_wf _ _ h2) ‹_›
    · rename_i s3 l hf
      have h3 : Memory.wf s3.mem = true := wf_fst (fetchLine_wf _ _ h2) hf
      split
      · simpa using h3
      · split
        rename_i s4 b4 hd
        have h4 : Memory.wf s4.mem = true := wf_fst (by simpa using h3) hd
        split <;> simp [h4]

theorem stepBundle_wf {o : State} (b : Bundle) (rest : List Bundle) (hm : Memory.wf o.mem = true) : InForm (stepBundle o b rest) := by
  unfold stepBundle
  have hp := prepare_wf (s := { o with pipes := rest }) b hm
  split <;> rename_i hr <;> rw [hr] at hp
  · exact settled_inForm hp
  · exact settled_inForm (exec_wf _ hp)

theorem stepOwn_wf {o : State} (hm : Memory.wf o.mem = true) : InForm (stepOwn o) := by
  unfold stepOwn
  split
  · exact settled_inForm (runDue_wf _ hm)
  · exact settled_inForm hm

theorem stepOff_wf {o : State} (hm : Memory.wf o.mem = true) : InForm (stepOff o) := by
  unfold stepOff
  split
  · split
    · exact settled_inForm (exec_wf _ hm)
    · exact hm
  · trivial

theorem step_wf {s : State} (hm : Memory.wf s.mem = true) : InForm (step s) := by
  unfold step
  split
  · split
    · exact stepBundle_wf _ _ hm
    · exact settled_inForm (runDue_wf _ hm)
    · exact settled_inForm (exec_wf _ hm)
    · exact stepOwn_wf hm
  · exact stepOff_wf hm

/-- Settles O60: what a step answers is in form, by the cases of the step; each instruction and event reaches the memory only through
`writeBack`, `zeroGranule`, `loadImage` and a reset. -/
theorem stepKeepsMemory : Obligations.StepKeepsMemory := fun _ _ hm hs => by
  have h := step_wf hm
  rwa [hs] at h
end Sys2Proof.Machine
end

section
/-! SETTLED. O46 fails: R337 lets a steward thread on a core that was the steward core before (log 70) give that core up. -/
namespace Sys2Proof.Machine

/-- A steward thread. -/
def leftThread : Thread := { pc := 0x10000, level := .steward, quota := 16 }

/-- Its bundle, on core 48. -/
def leftBundle : Bundle := { core := 48, unit := .thr 0, tids := [0], pc := 0x10000 }

/-- Partition 0 with quarters 0 and 1, both quiesced. -/
def leftPart : Part := { cfg := {}, pqm := 0b0011, pmil := 0, pmig := 12, pnbp := 0, actw := 0, pqst := 0b0011 }

/-- What log 70 leaves where `part.wnb` has brought a lower core: core 0 is the steward core of partition 0, and core 48, which was it
before, is latched still and runs on. -/
def leftState : State :=
  { cores := [(0, { Core.init 0 with latch := some 0 }),
              (48, { Core.init 48 with latch := some 0, ctx := { threads := [(0, leftThread)] } })]
    parts := [(0, leftPart)], focus := some leftBundle }

/-- The immediate that names quarter 0 and port 0, for both operands. -/
def leftHdr : Hdr := { imm := 1 }

/-- Where a thread of an answered state goes on. -/
def pcAfter (c t : Nat) : Answer → Option DWord
  | .next w => some (w.thr c t).pc
  | _ => none

theorem leftState_ready : Ready leftState leftBundle 0 leftThread .steward { srcs := [(.imm, 1), (.imm, 2)], dsts := [(.zero, 1)] } leftHdr where
  focus := rfl
  alone := rfl
  live := by decide
  runs := rfl
  level := by decide
  regs := by decide
  guard := by decide
  clean := by decide
  quiet := by decide

/-- Quarter 1 is given up with core 48 in it: the core is cleared with the thread that asked, and nothing of it goes on. -/
theorem leftState_partWnb : pcAfter 48 0 (exec (.partWnb leftHdr .zero .imm .imm) leftState) = some 0 := by decide +kernel

/-- Refutes O46: the clause of `part.wnb` that no status stops has the thread go on behind the instruction, but the new boundaries can
clear the thread's own core. The steward core alone is kept from that, and a steward thread can run on another (log 70). -/
theorem not_partitioning : ¬ Obligations.Partitioning := fun ⟨_, h⟩ => by
  obtain ⟨-, -, -, hwnb, -⟩ :=
    h leftState leftBundle 0 leftThread leftHdr .zero .imm .imm .imm 0 leftPart (by decide) (by decide +kernel)
  obtain ⟨-, hstatus, -⟩ := hwnb leftState_ready
  obtain ⟨-, -, -, hends⟩ :=
    hstatus (by decide) (by decide +kernel) (by decide +kernel) (by decide +kernel) (by decide +kernel)
  obtain ⟨w, hw, hpc, -⟩ := hends (by decide) (by decide +kernel) (by decide +kernel)
  have hgone := leftState_partWnb
  rw [hw] at hgone
  rw [show (w.thr leftBundle.core 0).pc = 0 from Option.some.inj hgone] at hpc
  exact absurd hpc (by decide)

end Sys2Proof.Machine
end

section
/-! SETTLED. O57: the machine right after reset. -/
namespace Sys2Proof.Machine

/-- A core that nothing has written holds no thread, is in service and unlatched, and has nothing cached or outstanding. -/
theorem reset_core (c t : Nat) : State.reset.thr? c t = none ∧ (State.reset.core c).latch = none ∧
    (State.reset.core c).inService = true ∧ (State.reset.core c).l1 = [] ∧ (State.reset.ctx c).ops = [] :=
  ⟨rfl, rfl, rfl, rfl, rfl⟩

/-- The registers with a reset value in their column. -/
theorem reset_readReg_tabled : readReg State.reset 0 0 0x260 = 1023 ∧ readReg State.reset 0 0 0x214 = 0 ∧
    readReg State.reset 0 0 0x160 = 0xC4 ∧ readReg State.reset 0 0 0x1AA = 32 ∧ readReg State.reset 0 0 0x1C0 = 129 := by
  decide

/-- The registers that reset clears. -/
theorem reset_readReg_zero : ∀ n ∈ [0x110, 0x140, 0x147, 0x150, 0x190, 0x191, 0x192, 0x198, 0x1A0, 0x1A1, 0x1A8, 0x1AB, 0x1B0, 0x1B1,
    0x1B5, 0x1C1, 0x1C2], readReg State.reset 0 0 n = 0 := by
  decide

/-- Settles O57, field by field. -/
theorem atReset : Obligations.AtReset := by
  obtain ⟨h260, h214, h160, h1AA, h1C0⟩ := reset_readReg_tabled
  exact ⟨memOk_reset, rfl, rfl, rfl, reset_core, fun _ => ⟨rfl, rfl⟩, h260, h214, h160, h1AA, h1C0, reset_readReg_zero⟩

end Sys2Proof.Machine
end

section
/-! SETTLED. O55, O56: decoding and encoding agree. Every field of R21, operand code and modifier layout reads back what it was written
from; so does the parser of each class; the decoder checks the other direction itself. -/
namespace Sys2Proof

/-! ### Words and their fields (R21) -/

theorem ofBool_getLsbD (w : BitVec n) (i : Nat) : BitVec.ofBool (w.getLsbD i) = w.extractLsb' i 1 := by
  ext j hj
  obtain rfl : j = 0 := by omega
  simp

theorem Fields.pack_unpack (w : InstrWord) : (Fields.unpack w).pack = w := by
  have join (a b c : Nat) (h : c = a + b) (m : Nat) : w.extractLsb' c m ++ w.extractLsb' a b = w.extractLsb' a (m + b) :=
    BitVec.extractLsb'_append_extractLsb'_eq_extractLsb' h
  simp only [pack, unpack, ofBool_getLsbD]
  rw [join 48 16 64 rfl, join 44 4 48 rfl, join 43 1 44 rfl, join 40 3 43 rfl, join 32 8 40 rfl, join 24 8 32 rfl, join 16 8 24 rfl,
    join 8 8 16 rfl, join 0 8 8 rfl]
  exact BitVec.extractLsb'_eq_self

theorem Fields.unpack_pack (f : Fields) : Fields.unpack f.pack = f := by
  simp (disch := omega) only [unpack, pack, BitVec.extractLsb'_append_eq_of_add_le, BitVec.extractLsb'_append_eq_of_le,
    BitVec.getLsbD_append, BitVec.extractLsb'_eq_self]
  simp

/-! ### Codes of operands -/

@[simp] theorem Dec.src_code (a : Src) : Dec.src a.code = .ok a := by
  cases a with
  | x n => revert n; decide
  | y n => revert n; decide
  | sp s => cases s <;> rfl
  | imm => rfl
@[simp] theorem Dec.dst_code (d : Dst) : Dec.dst d.code = .ok d := by
  cases d with
  | x n => revert n; decide
  | y n => revert n; decide
  | zero => rfl
@[simp] theorem Dec.pred_code (k : Pred) : Dec.pred k.code = .ok k := by revert k; decide
@[simp] theorem Dec.num4_code (n : BitVec 4) : Dec.num4 (n.setWidth 8) = .ok n := by revert n; decide
@[simp] theorem Dec.num7_code (n : BitVec 7) : Dec.num7 (n.setWidth 8) = .ok n := by revert n; decide
@[simp] theorem Dec.ty_code (t : Ty) : Dec.ty t.code = .ok t := by cases t <;> rfl
@[simp] theorem Dec.shTy_code (t : ShTy) : Dec.shTy t.code = .ok t := by cases t <;> rfl

/-! ### Codes of enumerations (R27, R28, R56) -/

@[simp] theorem Dec.enum_rm (r : Rm) : Dec.enum Rm.all r.code = .ok r := by cases r <;> rfl
@[simp] theorem Dec.enum_scope (r : Scope) : Dec.enum Scope.all r.code = .ok r := by cases r <;> rfl
@[simp] theorem Dec.enum_ord (r : MOrd) : Dec.enum MOrd.all r.code = .ok r := by cases r <;> rfl
@[simp] theorem Dec.enum_space (r : Space) : Dec.enum Space.all r.code = .ok r := by cases r <;> rfl
@[simp] theorem Dec.enum_icond (x : ICond) : Dec.enum ICond.all (BitVec.ofNat 4 x.ctorIdx) = .ok x := by cases x <;> rfl
@[simp] theorem Dec.enum_fcond (x : FCond) : Dec.enum FCond.all (BitVec.ofNat 4 x.ctorIdx) = .ok x := by cases x <;> rfl
@[simp] theorem Dec.enum_bxOp (x : BxOp) : Dec.enum BxOp.all (BitVec.ofNat 4 x.ctorIdx) = .ok x := by cases x <;> rfl
@[simp] theorem Dec.enum_aOp (x : AOp) : Dec.enum AOp.all (BitVec.ofNat 6 x.ctorIdx) = .ok x := by cases x <;> rfl
@[simp] theorem Dec.enum_fOp (x : FOp) : Dec.enum FOp.all (BitVec.ofNat 6 x.ctorIdx) = .ok x := by cases x <;> rfl
@[simp] theorem Dec.enum_vOp (x : VOp) : Dec.enum VOp.all' (BitVec.ofNat 2 x.ctorIdx) = .ok x := by cases x <;> rfl
@[simp] theorem Dec.enum_shMode (x : ShMode) : Dec.enum ShMode.all (BitVec.ofNat 2 x.ctorIdx) = .ok x := by cases x <;> rfl
@[simp] theorem Dec.enum_rOp (x : ROp) : Dec.enum ROp.all (BitVec.ofNat 3 x.ctorIdx) = .ok x := by cases x <;> rfl
@[simp] theorem Dec.enum_interp (x : Interp) : Dec.enum Interp.all (BitVec.ofNat 2 x.ctorIdx) = .ok x := by cases x <;> rfl
@[simp] theorem Dec.enum_tMode (x : TMode) : Dec.enum TMode.all (BitVec.ofNat 2 x.ctorIdx) = .ok x := by cases x <;> rfl

/-! ### Modifier layouts (R28) -/

/-- The parts of a modifier field as `fltMod` lays it out. -/
@[simp] theorem fltMod_parts (rm : Rm) (acc sat : Bool) (per : BitVec 4) :
    (fltMod rm acc sat per).extractLsb' 0 2 = rm.code ∧ (fltMod rm acc sat per)[2] = acc ∧
    (fltMod rm acc sat per)[3] = sat ∧ (fltMod rm acc sat per).extractLsb' 4 4 = per := by
  simp (disch := omega) only [fltMod, BitVec.extractLsb'_append_eq_of_add_le, BitVec.extractLsb'_append_eq_of_le,
    ← BitVec.getLsbD_eq_getElem, BitVec.getLsbD_append]
  simp

@[simp] theorem intMod_parts (sat : Bool) (per : BitVec 4) :
    (intMod sat per)[0] = sat ∧ (intMod sat per).extractLsb' 1 4 = per := by
  simp (disch := omega) only [intMod, BitVec.extractLsb'_append_eq_of_add_le, BitVec.extractLsb'_append_eq_of_le,
    ← BitVec.getLsbD_eq_getElem, BitVec.getLsbD_append]
  simp

/-- A number of three bits stands in the lowest of the per-instruction bits (R102, R103). -/
@[simp] theorem intMod_low3 (v : BitVec 3) : (intMod false (0#1 ++ v)).extractLsb' 1 3 = v ∧ (intMod false (0#1 ++ v))[4] = false := by
  simp (disch := omega) only [intMod, BitVec.extractLsb'_append_eq_of_add_le, BitVec.extractLsb'_append_eq_of_le,
    ← BitVec.getLsbD_eq_getElem, BitVec.getLsbD_append]
  simp

@[simp] theorem Dec.scale_intMod (v : BitVec 3) : Dec.scale (intMod false (0#1 ++ v)) = .ok v := by
  obtain ⟨hv, h4⟩ := intMod_low3 v
  simp [Dec.scale, h4, hv]

@[simp] theorem MMod.code_parts (m : MMod) (per : BitVec 6) :
    (m.code per).extractLsb' 0 2 = m.ord.code ∧ (m.code per).extractLsb' 2 3 = m.scope.code ∧
    (m.code per).extractLsb' 5 3 = m.evict ∧ (m.code per).extractLsb' 8 2 = m.space.code ∧ perOf (m.code per) = per := by
  simp (disch := omega) only [perOf, code, BitVec.extractLsb'_append_eq_of_add_le, BitVec.extractLsb'_append_eq_of_le]
  simp

@[simp] theorem Dec.mmod_code (m : MMod) (per : BitVec 6) : Dec.mmod (m.code per) = .ok m := by
  obtain ⟨ho, hs, he, hp, -⟩ := m.code_parts per
  rw [Dec.mmod, ho, hs, hp, he, enum_ord, enum_scope, enum_space]
  rfl

@[simp] theorem redMod_parts (op : ROp) (rm : Rm) (sat exc : Bool) :
    (redMod op rm sat exc).extractLsb' 0 3 = BitVec.ofNat 3 op.ctorIdx ∧ (redMod op rm sat exc).extractLsb' 3 2 = rm.code ∧
    (redMod op rm sat exc)[5] = sat ∧ (redMod op rm sat exc)[6] = exc := by
  simp (disch := omega) only [redMod, BitVec.extractLsb'_append_eq_of_add_le, BitVec.extractLsb'_append_eq_of_le,
    ← BitVec.getLsbD_eq_getElem, BitVec.getLsbD_append]
  simp

@[simp] theorem mmaMod_parts (cv : BitVec 4) (z s : Bool) :
    (mmaMod cv z s).extractLsb' 0 4 = cv ∧ (mmaMod cv z s)[4] = z ∧ (mmaMod cv z s)[5] = s := by
  simp (disch := omega) only [mmaMod, BitVec.extractLsb'_append_eq_of_add_le, ← BitVec.getLsbD_eq_getElem, BitVec.getLsbD_append]
  simp

/-- The modifier of a copy: eviction priority and the signal bit (R191). -/
@[simp] theorem copyMod_parts (ev : BitVec 3) (p : Bool) :
    (0#8 ++ ev ++ 0#4 ++ BitVec.ofBool p : BitVec 16).extractLsb' 5 3 = ev ∧
    (0#8 ++ ev ++ 0#4 ++ BitVec.ofBool p : BitVec 16)[0] = p := by
  simp (disch := omega) only [BitVec.extractLsb'_append_eq_of_add_le, BitVec.extractLsb'_append_eq_of_le,
    ← BitVec.getLsbD_eq_getElem, BitVec.getLsbD_append]
  simp

@[simp] theorem lowMod_getElem (v : BitVec n) (i : Nat) (h : i < 16) : (lowMod v)[i] = v.getLsbD i := by simp [lowMod]
@[simp] theorem lowMod_extractLsb' (v : BitVec n) (i k : Nat) (h : i + k ≤ 16) : (lowMod v).extractLsb' i k = v.extractLsb' i k := by
  ext j hj
  simp [lowMod, show i + j < 16 by omega]

/-- The parts of the modifiers that put a few bits side by side. -/
@[simp] theorem bits2_parts (p q : Bool) :
    (BitVec.ofBool p ++ BitVec.ofBool q)[0] = q ∧ (BitVec.ofBool p ++ BitVec.ofBool q)[1] = p := by
  cases p <;> cases q <;> decide
@[simp] theorem bits4_parts (p q r s : Bool) :
    (BitVec.ofBool p ++ BitVec.ofBool q ++ BitVec.ofBool r ++ BitVec.ofBool s)[0] = s ∧
    (BitVec.ofBool p ++ BitVec.ofBool q ++ BitVec.ofBool r ++ BitVec.ofBool s)[1] = r ∧
    (BitVec.ofBool p ++ BitVec.ofBool q ++ BitVec.ofBool r ++ BitVec.ofBool s)[2] = q ∧
    (BitVec.ofBool p ++ BitVec.ofBool q ++ BitVec.ofBool r ++ BitVec.ofBool s)[3] = p := by
  cases p <;> cases q <;> cases r <;> cases s <;> decide
@[simp] theorem bitAbove2_parts (p : Bool) (v : BitVec 2) :
    (BitVec.ofBool p ++ v).extractLsb' 0 2 = v ∧ (BitVec.ofBool p ++ v)[2] = p := by
  revert p v; decide
@[simp] theorem bitAbove1_parts (p : Bool) (v : BitVec 1) :
    (BitVec.ofBool p ++ v).toNat % 2 = v.toNat ∧ (BitVec.ofBool p ++ v)[1] = p := by
  revert p v; decide
@[simp] theorem pair2_parts (u v : BitVec 2) : (u ++ v).extractLsb' 2 2 = u ∧ (u ++ v).extractLsb' 0 2 = v := by
  revert u v; decide
@[simp] theorem setWidth4_append (n : BitVec 4) : (0#2 ++ n).setWidth 4 = n := by revert n; decide

/-! ### What the decoder's steps answer -/

@[simp] theorem Dec.ok_bind (x : α) (f : α → Dec β) : (Except.ok x >>= f) = f x := rfl

@[simp] theorem Dec.opt_src (p : Option Src) : Dec.opt p.isSome (Dec.src (optCode p)) = .ok p := by
  cases p with
  | none => rfl
  | some s => simp [optCode, Dec.opt, Except.map]
@[simp] theorem Dec.opt_num7 (p : Option (BitVec 7)) : Dec.opt p.isSome (Dec.num7 (optNum p)) = .ok p := by
  cases p with
  | none => rfl
  | some s => simp [optNum, Dec.opt, Except.map]

/-- A check of R32 that a well-formed instruction has met. -/
theorem check_of_wellFormed {i : Instr} (hw : i.wellFormed = true) {p : Bool} {e : Illegal} (hp : (p, e) ∈ i.checks) : p = true := by
  simp only [Instr.wellFormed, Instr.illFormed, Option.isNone_map, Option.isNone_iff_eq_none, List.find?_eq_none] at hw
  simpa using hw _ hp

/-- The upper half of an opcode, which names its class (R21). -/
def Fields.cls (f : Fields) : Nat := (f.op.extractLsb' 4 4).toNat

/-! ### Each class's parser reads the operands back (R94 to R380)

In each proof `hf` rules out the events, which have no word, and `hc` the instructions of other classes; the codes and layouts above then
read back. An optional operand reads back by the check that says when it is there. -/

theorem parseInt_toFields {i : Instr} {f : Fields} (hf : i.toFields = some f) (hc : f.cls < 3) : parseInt f = .ok i := by
  cases i
  all_goals cases hf
  all_goals simp [Fields.cls, Hdr.fields] at hc
  all_goals simp [parseInt, Hdr.fields, Fields.hdr]

theorem parseFlt_toFields {i : Instr} {f : Fields} (hf : i.toFields = some f) (hw : i.wellFormed = true)
    (hc : f.cls = 3 ∨ f.cls = 4) : parseFlt f = .ok i := by
  cases i
  all_goals cases hf
  all_goals simp [Fields.cls, Hdr.fields] at hc
  case tcvt h dy sy rm d a b =>
    have hb : b.isSome = tcvtB dy sy := beq_iff_eq.1 (check_of_wellFormed hw (.tail _ (.tail _ (.head _))))
    simp [parseFlt, Hdr.fields, Fields.hdr, ← hb]
  case bxal h op d a b =>
    have hb : b.isSome = op.readsB := beq_iff_eq.1 (check_of_wellFormed hw (.head _))
    simp [parseFlt, Hdr.fields, Fields.hdr, ← hb]
  all_goals simp [parseFlt, Hdr.fields, Fields.hdr]

theorem parseCtl_toFields {i : Instr} {f : Fields} (hf : i.toFields = some f) (hc : f.cls = 5 ∨ f.cls = 6) : parseCtl f = .ok i := by
  cases i
  all_goals cases hf
  all_goals simp [Fields.cls, Hdr.fields] at hc
  all_goals simp [parseCtl, Hdr.fields, Fields.hdr]

theorem parseMem_toFields {i : Instr} {f : Fields} (hf : i.toFields = some f) (hc : f.cls = 7 ∨ f.cls = 8) : parseMem f = .ok i := by
  cases i
  all_goals cases hf
  all_goals simp [Fields.cls, Hdr.fields] at hc
  all_goals simp [parseMem, Hdr.fields, Fields.hdr]

theorem parseGrp_toFields {i : Instr} {f : Fields} (hf : i.toFields = some f) (hw : i.wellFormed = true) (hc : f.cls = 9) :
    parseGrp f = .ok i := by
  cases i
  all_goals cases hf
  all_goals simp [Fields.cls, Hdr.fields] at hc
  case vote h op d ka =>
    have hd := check_of_wellFormed hw (.head _)
    cases d with
    | pred p => cases op with
      | ballot => cases hd
      | all | any | uni => simp [parseGrp, Hdr.fields, Fields.hdr, VDst.code, Except.map]
    | reg d => cases op with
      | ballot => simp [parseGrp, Hdr.fields, Fields.hdr, VDst.code, Except.map]
      | all | any | uni => cases hd
  all_goals simp [parseGrp, Hdr.fields, Fields.hdr]

theorem parseTile_toFields {i : Instr} {f : Fields} (hf : i.toFields = some f) (hc : f.cls = 10) : parseTile f = .ok i := by
  cases i
  all_goals cases hf
  all_goals simp [Fields.cls, Hdr.fields] at hc
  all_goals simp [parseTile, Hdr.fields, Fields.hdr]

theorem parseMat_toFields {i : Instr} {f : Fields} (hf : i.toFields = some f) (hc : f.cls = 11) : parseMat f = .ok i := by
  cases i
  all_goals cases hf
  all_goals simp [Fields.cls, Hdr.fields] at hc
  all_goals simp [parseMat, Hdr.fields, Fields.hdr]

theorem parseSrt_toFields {i : Instr} {f : Fields} (hf : i.toFields = some f) (hc : f.cls = 12) (ho : f.op.toNat < 0xC8) :
    parseSrt f = .ok i := by
  cases i
  all_goals cases hf
  all_goals simp [Fields.cls, Hdr.fields] at hc ho
  all_goals simp [parseSrt, Hdr.fields, Fields.hdr]

theorem parseTok_toFields {i : Instr} {f : Fields} (hf : i.toFields = some f) (hc : f.cls = 12) (ho : ¬ f.op.toNat < 0xC8) :
    parseTok f = .ok i := by
  cases i
  all_goals cases hf
  all_goals simp [Fields.cls, Hdr.fields] at hc ho
  all_goals simp [parseTok, Hdr.fields, Fields.hdr]

theorem parseShr_toFields {i : Instr} {f : Fields} (hf : i.toFields = some f) (hw : i.wellFormed = true) (hc : f.cls = 13) :
    parseShr f = .ok i := by
  cases i
  all_goals cases hf
  all_goals simp [Fields.cls, Hdr.fields] at hc
  case shBeg h t d a b c =>
    have hb : b.isSome = t.word := beq_iff_eq.1 (check_of_wellFormed hw (.tail _ (.tail _ (.head _))))
    simp [parseShr, Hdr.fields, Fields.hdr, ← hb]
  all_goals simp [parseShr, Hdr.fields, Fields.hdr]

theorem parsePrv_toFields {i : Instr} {f : Fields} (hf : i.toFields = some f) (hc : f.cls = 14) : parsePrv f = .ok i := by
  cases i
  all_goals cases hf
  all_goals simp [Fields.cls, Hdr.fields] at hc
  all_goals simp [parsePrv, Hdr.fields, Fields.hdr]

/-- No instruction has an opcode from 0xF0. -/
theorem toFields_cls {i : Instr} {f : Fields} (hf : i.toFields = some f) : f.cls < 15 := by
  cases i
  all_goals cases hf
  all_goals simp [Fields.cls, Hdr.fields]

/-- The parser goes by the class to the parser of the class. -/
theorem parse_toFields {i : Instr} {f : Fields} (hf : i.toFields = some f) (hw : i.wellFormed = true) : parse f = .ok i := by
  have hlt := toFields_cls hf
  unfold parse
  rw [show (f.op.extractLsb' 4 4).toNat = f.cls from rfl]
  interval_cases hc : f.cls
  · exact parseInt_toFields hf (by omega)
  · exact parseInt_toFields hf (by omega)
  · exact parseInt_toFields hf (by omega)
  · exact parseFlt_toFields hf hw (.inl hc)
  · exact parseFlt_toFields hf hw (.inr hc)
  · exact parseCtl_toFields hf (.inl hc)
  · exact parseCtl_toFields hf (.inr hc)
  · exact parseMem_toFields hf (.inl hc)
  · exact parseMem_toFields hf (.inr hc)
  · exact parseGrp_toFields hf hw hc
  · exact parseTile_toFields hf hc
  · exact parseMat_toFields hf hc
  · show (if _ then _ else _) = _
    split
    · exact parseSrt_toFields hf hc ‹_›
    · exact parseTok_toFields hf hc ‹_›
  · exact parseShr_toFields hf hw hc
  · exact parsePrv_toFields hf hc

/-- What the decoder answers: the instruction that the fields name, if it is well formed and has these fields and no others. -/
theorem decode_eq_ok {w : InstrWord} {i : Instr} :
    decode w = .ok i ↔ parse (Fields.unpack w) = .ok i ∧ i.wellFormed = true ∧ i.toFields = some (Fields.unpack w) := by
  rw [decode]
  cases parse (Fields.unpack w) with
  | error e => exact ⟨fun h => (by cases h), fun h => (by cases h.1)⟩
  | ok j =>
    rw [Dec.ok_bind, Except.ok.injEq]
    constructor
    · intro h
      split at h
      · cases h
      · rename_i hi
        split at h
        · cases h
          exact ⟨rfl, by rw [Instr.wellFormed, hi]; rfl, ‹_›⟩
        · cases h
    · rintro ⟨rfl, hw, hf⟩
      rw [Instr.wellFormed, Option.isNone_iff_eq_none] at hw
      rw [hw]
      exact if_pos hf

theorem encode_of_toFields {i : Instr} {f : Fields} (hf : i.toFields = some f) : encode i = f.pack := by
  rw [encode, hf]; rfl

theorem decode_encode {i : Instr} (he : i.toFields.isSome = true) (hw : i.wellFormed = true) : decode (encode i) = .ok i := by
  obtain ⟨f, hf⟩ := Option.isSome_iff_exists.1 he
  rw [decode_eq_ok, encode_of_toFields hf, Fields.unpack_pack]
  exact ⟨parse_toFields hf hw, hw, hf⟩

theorem encode_decode {w : InstrWord} {i : Instr} (h : decode w = .ok i) : encode i = w ∧ i.wellFormed = true := by
  obtain ⟨-, hw, hf⟩ := decode_eq_ok.1 h
  exact ⟨by rw [encode_of_toFields hf, Fields.pack_unpack], hw⟩

/-- A word of the table decodes to the instruction that encodes to it. -/
theorem decodeTableWord_of_encode {i : Instr} {n w : Nat} (he : i.toFields.isSome = true) (hw : i.wellFormed = true)
    (h : encode i = BitVec.ofNat 96 w) : decodeTableWord n w = some i := by
  rw [decodeTableWord, ← h, decode_encode he hw]

/-- Settles O55: `parse` reads back the fields of an instruction, and an accepted word has the fields of its instruction. -/
theorem encodeDecode : Obligations.EncodeDecode :=
  ⟨fun _ he hw => decode_encode he hw, fun _ _ h => encode_decode h⟩

/-- Settles O56: each instruction is well formed and encodes to the word. -/
theorem decodeWords : Obligations.DecodeWords :=
  ⟨decodeTableWord_of_encode rfl rfl rfl, decodeTableWord_of_encode rfl rfl rfl, decodeTableWord_of_encode rfl rfl rfl,
   decodeTableWord_of_encode rfl rfl rfl, decodeTableWord_of_encode rfl rfl rfl, decodeTableWord_of_encode rfl rfl rfl,
   decodeTableWord_of_encode rfl rfl rfl, decodeTableWord_of_encode rfl rfl rfl, decodeTableWord_of_encode rfl rfl rfl⟩

end Sys2Proof
end

section
/-! SETTLED. O59: a bundle that stands at a lawful line runs what the line holds; the word that `withFetchWord` places runs next. -/
namespace Sys2Proof.Machine

/-! ### What a line makes its bundle issue (R37, R38) -/

/-- A step of a bundle that stands at its line is what the line issues: one instruction for the threads of the bundle, or nothing more. -/
theorem step_standing_one {s t : State} {b : Bundle} {rest : List Bundle} {l : FLine} {i : Instr} (hon : s.on = true)
    (hp : s.pipes = b :: rest) (r : Standing { s with pipes := rest } b l)
    (h : issueAt { s with pipes := rest, focus := some b } b l.data = .one t i) : step s = settled s false (exec i t) := by
  rw [step_bundle hon hp, stepBundle, prepare_standing r, h]

theorem step_standing_ended {s t : State} {b : Bundle} {rest : List Bundle} {l : FLine} {paired : Bool} (hon : s.on = true)
    (hp : s.pipes = b :: rest) (r : Standing { s with pipes := rest } b l)
    (h : issueAt { s with pipes := rest, focus := some b } b l.data = .ended t paired) : step s = .next (settle s paired t) := by
  rw [step_bundle hon hp, stepBundle, prepare_standing r, h]
  rfl

theorem issueAt_one {s : State} {b : Bundle} {l : FetchLine} {i : Instr} (hd : decode (slotWord l (slotOf b.pc)) = .ok i)
    (ho : opensPair l (slotOf b.pc) = false) : issueAt s b l = .one s i := by
  simp [issueAt, hd, ho]

theorem issueAt_error {s : State} {b : Bundle} {l : FetchLine} {e : Illegal} (hd : decode (slotWord l (slotOf b.pc)) = .error e) :
    issueAt s b l = lineFault s b 0x01 0 := by
  simp [issueAt, hd]

theorem issueAt_pair {s : State} {b : Bundle} {l : FetchLine} {i j : Instr} {f g : Bool × Alu}
    (hi : decode (slotWord l (slotOf b.pc)) = .ok i) (ho : opensPair l (slotOf b.pc) = true)
    (hj : decode (slotWord l (slotOf b.pc + 1)) = .ok j) (hf : aluOf i = some f) (hg : aluOf j = some g) (hl : lawful f g = true) :
    issueAt s b l = .ended (runPair b f.2 g.2 s) true := by
  simp [issueAt, hi, ho, hj, hf, hg, hl]

/-! ### The line of `withFetchWord` (log 15) -/

theorem getLsbD_placedLine (w i : Nat) : (placedLine w).getLsbD i = (decide (i < 96) && w.testBit i || decide (i = 480)) := by
  by_cases h : i = 480
  · subst h; simp [placedLine]
  · simp only [placedLine, BitVec.getLsbD_or, BitVec.getLsbD_ofNat, Nat.testBit_mod_two_pow, BitVec.getLsbD_shiftLeft, h]
    by_cases h' : i < 96
    · simp [h', show i < 512 by omega, show i < 480 by omega]
    · by_cases h'' : i < 480
      · simp [h', h'']
      · have : Nat.testBit 1 (i - 480) = false := by
          rw [Bool.eq_false_iff, ne_eq, Nat.testBit_one_eq_true_iff_self_eq_zero]
          omega
        simp [h', this]

theorem slotWord_placedLine (w : Nat) : slotWord (placedLine w) 0 = BitVec.ofNat 96 w := by
  ext i hi
  rw [← BitVec.getLsbD_eq_getElem, ← BitVec.getLsbD_eq_getElem, slotWord, BitVec.getLsbD_extractLsb', getLsbD_placedLine,
    BitVec.getLsbD_ofNat]
  simp [hi, show i ≠ 480 by omega]

/-- Above the mask bit of slot 0 the line word is zero: no pair, no priority, and no bit that R18 forbids. -/
theorem placedLine_above (w i k : Nat) (h : 480 < i) : (placedLine w).extractLsb' i k = 0 := by
  ext j hj
  rw [← BitVec.getLsbD_eq_getElem, BitVec.getLsbD_extractLsb', getLsbD_placedLine]
  simp [show i + j ≠ 480 by omega, show ¬ i + j < 96 by omega]

theorem pairTemplate_placedLine (w : Nat) : pairTemplate (placedLine w) = 0 := placedLine_above w 485 4 (by omega)

theorem malformed_placedLine (w : Nat) : malformed (placedLine w) = false := by
  simp [malformed, pairTemplate_placedLine, placedLine_above w 499 5 (by omega)]

theorem opensPair_placedLine (w n : Nat) : opensPair (placedLine w) n = false := by
  simp [opensPair, pairTemplate_placedLine]

theorem breaks_of_bpctl {s : State} {c : Nat} (h : (s.ctx c).bpctl = 0) (t : Nat) : breaks s c t = false := by
  simp [breaks, h]

/-- The bundle of `withFetchWord`. -/
def placedBundle : Bundle := { core := 0, unit := .thr 0, tids := [0], pc := 0x10000 }

/-- The core of `withFetchWord`, from what it was. -/
def placedCore (k : Core) (w : Nat) : Core :=
  { k with
    latch := some 0, fbuf := [{ world := 0, va := 0x10000, data := placedLine w }]
    ctx := { k.ctx with threads := k.ctx.threads.put 0 { pc := 0x10000, level := .root, quota := 16, entered := true } } }

theorem core_withFetchWord (s : State) (n w : Nat) : (s.withFetchWord n w).core 0 = placedCore (s.core 0) w := by
  rw [State.core, State.withFetchWord]
  simp only [Map.look_put_self]
  rfl

/-- The placed thread stands at its line. -/
theorem standing_placed {t : State} {k : Core} {w : Nat} (hc : t.core placedBundle.core = placedCore k w) (h : k.ctx.bpctl = 0) :
    Standing t placedBundle { world := 0, va := 0x10000, data := placedLine w } := by
  have hth : t.thr? placedBundle.core 0 = some { pc := 0x10000, level := .root, quota := 16, entered := true } := by
    rw [State.thr?, State.ctx, hc]
    exact Map.look_put_self _ _ _
  refine ⟨List.cons_ne_nil _ _, ?_, ?_, rfl, malformed_placedLine w⟩
  · intro u hu
    obtain rfl : u = 0 := List.mem_singleton.1 hu
    exact ⟨_, hth, rfl, rfl, rfl, breaks_of_bpctl (by rw [State.ctx, hc]; exact h) 0⟩
  · rw [fbuf?, State.worldOf, hc]
    rfl

/-- Settles O59. -/
theorem stepRunsDecoded : Obligations.StepRunsDecoded := by
  refine ⟨fun s b rest l hon hp hne heach hl hgood hform => ?_, fun _ _ _ => rfl, fun s n w i hbp hd => ?_⟩
  · have r : Standing { s with pipes := rest } b l := ⟨hne, heach, hl, hgood, hform⟩
    exact ⟨fun i hi ho => step_standing_one hon hp r (issueAt_one hi ho),
      fun e he => step_standing_ended hon hp r (issueAt_error he),
      fun i j f g hi ho hj hf hg hlaw => step_standing_ended hon hp r (issueAt_pair hi ho hj hf hg hlaw)⟩
  · have hw : decode (slotWord (placedLine w) (slotOf placedBundle.pc)) = .ok i := by
      rw [show slotOf placedBundle.pc = 0 from rfl, slotWord_placedLine]
      rw [decodeTableWord] at hd
      split at hd
      · rename_i j hj
        rw [hj, Option.some.inj hd]
      · cases hd
    exact step_standing_one rfl rfl (standing_placed (core_withFetchWord s n w) hbp) (issueAt_one hw (opensPair_placedLine w _))

end Sys2Proof.Machine
end

section
/-! SETTLED. O19: the register file. What a write of a register or a predicate leaves of its thread, its group and the clock, and from
that what every read returns. -/
namespace Sys2Proof.Machine

/-! ### Threads and groups after a write -/

@[simp] theorem State.thr?_modCore_ctx (s : State) (c c' t : Nat) (f : Core → Core) (h : (f (s.core c)).ctx = (s.core c).ctx) :
    (s.modCore c f).thr? c' t = s.thr? c' t := by
  simp only [State.thr?, State.ctx, State.core_modCore]
  split
  · rename_i hc; rw [hc, h]
  · rfl

@[simp] theorem State.group?_modCore_ctx (s : State) (c c' g : Nat) (f : Core → Core) (h : (f (s.core c)).ctx = (s.core c).ctx) :
    (s.modCore c f).group? c' g = s.group? c' g := by
  simp only [State.group?, State.ctx, State.core_modCore]
  split
  · rename_i hc; rw [hc, h]
  · rfl

@[simp] theorem clearMarks_thr? (s : State) (c c' t : Nat) (p : ErrAt → Bool) : (clearMarks s c p).thr? c' t = s.thr? c' t := by
  unfold clearMarks; split <;> simp
@[simp] theorem clearMarks_group? (s : State) (c c' g : Nat) (p : ErrAt → Bool) : (clearMarks s c p).group? c' g = s.group? c' g := by
  unfold clearMarks; split <;> simp
@[simp] theorem clearMarks_tick (s : State) (c : Nat) (p : ErrAt → Bool) : (clearMarks s c p).tick = s.tick := by
  unfold clearMarks; split <;> simp

@[simp] theorem State.group?_modThr (s : State) (c t c' g : Nat) (f : Thread → Thread) :
    (s.modThr c t f).group? c' g = s.group? c' g := by
  unfold State.modThr
  split
  · simp only [State.group?, State.setThr, State.ctx_modCtx]
    split <;> simp_all
  · rfl
@[simp] theorem State.thr?_modGroup (s : State) (c g c' t : Nat) (f : Group → Group) :
    (s.modGroup c g f).thr? c' t = s.thr? c' t := by
  unfold State.modGroup
  split
  · simp only [State.thr?, State.ctx_modCtx]
    split <;> simp_all
  · rfl
theorem State.group?_modGroup_self {s : State} {c g : Nat} {gr : Group} (h : s.group? c g = some gr) (f : Group → Group) :
    (s.modGroup c g f).group? c g = some (f gr) := by
  simp only [State.modGroup, h]
  simp [State.group?, Map.look_put_self]

@[simp] theorem wrX_group? (s : State) (e : Env) (n : Nat) (v : Word) (c g : Nat) : (wrX s e n v).group? c g = s.group? c g := by
  simp [wrX]
@[simp] theorem wrX_tick (s : State) (e : Env) (n : Nat) (v : Word) : (wrX s e n v).tick = s.tick := by simp [wrX]
theorem wrX_thr? {s : State} {e : Env} {th : Thread} (h : s.thr? e.c e.t = some th) (n : Nat) (v : Word) :
    (wrX s e n v).thr? e.c e.t = some { th with regs := th.regs.set 0 n v } := by
  simp [wrX, h]
@[simp] theorem wrY_thr? (s : State) (e : Env) (n : Nat) (v : Word) (c t : Nat) : (wrY s e n v).thr? c t = s.thr? c t := by
  unfold wrY; split <;> simp
@[simp] theorem wrY_tick (s : State) (e : Env) (n : Nat) (v : Word) : (wrY s e n v).tick = s.tick := by
  unfold wrY; split <;> simp
theorem wrY_group? {s : State} {e : Env} {th : Thread} {g : Nat × Nat} {gr : Group} (h : s.thr? e.c e.t = some th)
    (hg : th.grp = some g) (hr : s.group? e.c g.1 = some gr) (n : Nat) (v : Word) :
    (wrY s e n v).group? e.c g.1 = some { gr with y := gr.y.set 0 n v } := by
  simp [wrY, State.thr_of h, hg, State.group?_modGroup_self hr]

/-! ### What a read returns (R24 to R26, R142) -/

theorem rdX_of {s : State} {e : Env} {th : Thread} (h : s.thr? e.c e.t = some th) (n : Nat) :
    rdX s e n = if th.hazard.contains n then s.free n else th.regs.get 0 n := by
  rw [rdX, State.thr_of h]
theorem rdY_of {s : State} {e : Env} {th : Thread} {g : Nat × Nat} {gr : Group} (h : s.thr? e.c e.t = some th)
    (hg : th.grp = some g) (hr : s.group? e.c g.1 = some gr) (n : Nat) :
    rdY s e n = if gr.unread n then s.free (128 + n) else gr.y.get 0 n := by
  rw [rdY, State.thr_of h, hg]
  simp [hr]
theorem free_of_tick {s w : State} (h : w.tick = s.tick) (n : Nat) : w.free n = s.free n := by rw [State.free, State.free, h]

theorem rdX_wrX_self {s : State} {e : Env} {th : Thread} (h : s.thr? e.c e.t = some th) {n : Nat} (hn : th.hazard.contains n = false)
    (v : Word) : rdX (wrX s e n v) e n = v := by
  rw [rdX_of (wrX_thr? h n v), hn]
  simp [Map.get_set]
theorem rdX_wrX_ne {s : State} {e : Env} {th : Thread} (h : s.thr? e.c e.t = some th) {n m : Nat} (hm : m ≠ n) (v : Word) :
    rdX (wrX s e n v) e m = rdX s e m := by
  rw [rdX_of (wrX_thr? h n v), rdX_of h, free_of_tick (wrX_tick s e n v), Map.get_set, if_neg hm]
theorem rdY_wrX {s : State} {e : Env} {th : Thread} (h : s.thr? e.c e.t = some th) (n m : Nat) (v : Word) :
    rdY (wrX s e n v) e m = rdY s e m := by
  simp only [rdY, State.thr_of (wrX_thr? h n v), State.thr_of h, wrX_group?, free_of_tick (wrX_tick s e n v)]

theorem rdY_wrY_self {s : State} {e : Env} {th : Thread} {g : Nat × Nat} {gr : Group} (h : s.thr? e.c e.t = some th)
    (hg : th.grp = some g) (hr : s.group? e.c g.1 = some gr) {n : Nat} (hn : gr.unread n = false) (v : Word) :
    rdY (wrY s e n v) e n = v := by
  rw [rdY_of ((wrY_thr? ..).trans h) hg (wrY_group? h hg hr n v), show Group.unread { gr with y := gr.y.set 0 n v } n = false from hn]
  simp [Map.get_set]
theorem rdY_wrY_ne {s : State} {e : Env} {th : Thread} {g : Nat × Nat} {gr : Group} (h : s.thr? e.c e.t = some th)
    (hg : th.grp = some g) (hr : s.group? e.c g.1 = some gr) {n m : Nat} (hm : m ≠ n) (v : Word) :
    rdY (wrY s e n v) e m = rdY s e m := by
  rw [rdY_of ((wrY_thr? ..).trans h) hg (wrY_group? h hg hr n v), rdY_of h hg hr, free_of_tick (wrY_tick s e n v), Map.get_set,
    if_neg hm]
  rfl
theorem rdX_wrY {s : State} {e : Env} {th : Thread} (h : s.thr? e.c e.t = some th) (n m : Nat) (v : Word) :
    rdX (wrY s e n v) e m = rdX s e m := by
  rw [rdX_of ((wrY_thr? ..).trans h), rdX_of h, free_of_tick (wrY_tick s e n v)]

theorem rdPair_wrPair {s : State} {e : Env} {th : Thread} (h : s.thr? e.c e.t = some th) {r : BitVec 7}
    (h0 : th.hazard.contains r.toNat = false) (h1 : th.hazard.contains (r.toNat + 1) = false) (hd : Hdr) (x : DWord) :
    rdPair (wrPair s e (.x r) x) e hd (.x r) = x := by
  show rdX (wrX (wrX s e r.toNat (x.setWidth 32)) e (r.toNat + 1) (x.extractLsb' 32 32)) e (r.toNat + 1) ++
    rdX (wrX (wrX s e r.toNat (x.setWidth 32)) e (r.toNat + 1) (x.extractLsb' 32 32)) e r.toNat = x
  have h' := wrX_thr? h r.toNat (x.setWidth 32)
  rw [rdX_wrX_self h' h1, rdX_wrX_ne h' (by omega), rdX_wrX_self h h0]
  rw [show x.setWidth 32 = x.extractLsb' 0 32 from by ext; simp]
  exact BitVec.extractLsb'_append_extractLsb'

/-! ### Predicates (R26) -/

theorem wrPred_thr? {s : State} {e : Env} {th : Thread} (h : s.thr? e.c e.t = some th) {k : Pred} (hk : k ≠ 0) (b : Bool) :
    (wrPred s e k b).thr? e.c e.t =
      some { th with preds := if b then th.preds ||| (1#8 <<< k.toNat) else th.preds &&& ~~~(1#8 <<< k.toNat) } := by
  rw [wrPred, if_neg fun hc => hk (beq_iff_eq.1 hc)]
  simp [h]

theorem getLsbD_predBit (k q : Pred) : (1#8 <<< k.toNat).getLsbD q.toNat = decide (q = k) := by revert k q; decide

/-- The bits of the predicates after a write of one of them. -/
theorem getLsbD_predWrite (v : BitVec 8) (k q : Pred) (b : Bool) :
    (if b then v ||| (1#8 <<< k.toNat) else v &&& ~~~(1#8 <<< k.toNat)).getLsbD q.toNat = if q = k then b else v.getLsbD q.toNat := by
  have hq : q.toNat < 8 := q.isLt
  cases b with
  | true =>
    rw [if_pos rfl, BitVec.getLsbD_or, getLsbD_predBit]
    by_cases h : q = k <;> simp [h]
  | false =>
    rw [if_neg Bool.false_ne_true, BitVec.getLsbD_and, BitVec.getLsbD_not, getLsbD_predBit]
    by_cases h : q = k <;> simp [h, hq]

theorem rdPred_wrPred {s : State} {e : Env} {th : Thread} (h : s.thr? e.c e.t = some th) {k : Pred} (hk : k ≠ 0) (q : Pred) (b : Bool) :
    rdPred (wrPred s e k b) e q = if q = k then b else rdPred s e q := by
  rw [rdPred, rdPred, State.thr_of (wrPred_thr? h hk b), State.thr_of h, getLsbD_predWrite]
  by_cases hq : q = k
  · rw [if_pos hq, if_pos hq, hq, show (k == 0) = false from beq_eq_false_iff_ne.2 hk, Bool.false_or]
  · rw [if_neg hq, if_neg hq]

/-- Settles O19: each clause is one of the rules above. -/
theorem registerFile : Obligations.RegisterFile := by
  intro s e th h v x n m k p q b r ht
  refine ⟨fun hn => rdX_wrX_self ht hn v, fun hm => rdX_wrX_ne ht hm v, rdY_wrX ht n m v, fun g gr hg hr => ?_, fun _ => rfl, rfl, ?_, rfl,
    rfl, fun hp => ?_, fun hq => ?_, fun _ h0 h1 => rdPair_wrPair ht h0 h1 h x⟩
  · exact ⟨fun hn => rdY_wrY_self ht hg hr hn v, fun hm => rdY_wrY_ne ht hg hr hm v, rdX_wrY ht n m v⟩
  · show (if k = 0 then (0 : Word) else 0) = 0
    split <;> rfl
  · rw [rdPred_wrPred ht hp, if_pos rfl]
  · by_cases hp : p = 0
    · subst hp; rfl
    · rw [rdPred_wrPred ht hp, if_neg hq]

end Sys2Proof.Machine
end

section
/-! SETTLED. O48 fails: a thread that is alone and ready before a cycle need not be ready in it. Readiness is judged after the count of
cycles has moved (R164, R165), and an instruction may read that count. -/
namespace Sys2Proof.Machine

/-- `wb.ld` of as many bytes as `ccnt` reads: of no bytes, and not counted, where the count of cycles is 0 (R231). -/
def countedLoad : Instr := .wbLd {} 0 (.sp .zero) (.sp .zero) (.sp .ccnt)

/-- A copy of an earlier `wb.ld`. -/
def earlierCopy : Copy := { id := 0, op := 0, tid := 0, unit := .thr 0, pc := 0, kind := .wb 0 0 0 3 }

/-- The one thread of the core, before its first instruction. -/
def aloneThread : Thread := { pc := 0x10000, quota := 16 }

/-- Core 0 at cycle 0, with a full copy queue and `countedLoad` next. -/
def aloneState : State :=
  { cores := [(0, { latch := some 4, fbuf := [{ world := 4, va := 0x10000, data := placedLine (encode countedLoad).toNat }]
                    ctx := { threads := [(0, aloneThread)], copies := List.replicate 32 earlierCopy } })] }

/-- The range is empty while the count is 0, so that the full queue does not matter. -/
theorem aloneState_ready : notReady aloneState 0 0 = none := by decide +kernel

/-- In the cycle the count is 1 and the queue is full: nothing issues. -/
theorem aloneState_idle : (coreCycle aloneState 0).pipes = [] ∧ (coreCycle aloneState 0).walks = [] := by decide +kernel

/-- Refutes O48: the clause of the thread that is alone and ready, at `aloneState`. -/
theorem not_scheduling : ¬ Obligations.Scheduling := fun h => by
  obtain ⟨-, hready, -⟩ := h aloneState 0
  obtain ⟨w, hw, hissued, -⟩ := hready 0 aloneThread (by decide) rfl rfl rfl rfl rfl (by decide +kernel) aloneState_ready (by decide)
    (by decide) (by simp [aloneState]) rfl rfl rfl
  obtain rfl : coreCycle aloneState 0 = w := Host.Outcome.next.inj hw
  obtain ⟨hpipes, hwalks⟩ := aloneState_idle
  rcases hissued with ⟨hp, -⟩ | ⟨-, hw, -⟩
  · rw [hpipes] at hp
    exact absurd hp.length_eq (by decide)
  · rw [hwalks] at hw
    cases hw

end Sys2Proof.Machine
end

section
/-! SETTLED. O49: launches, placement, spawning and stealing, event by event: what each answers in each case, and from that the clauses. -/
namespace Sys2Proof.Machine

/-! ### Submission (R47, R49) -/

theorem submit_busy {s : State} {n w : Nat} {hi : Word} (h : (s.path n).busy = true) : submit s n w hi = s := by simp [submit, h]
theorem submit_free {s : State} {n w : Nat} {hi : Word} (h : (s.path n).busy = false) : submit s n w hi =
    s.setPath n { s.path n with addr := hi.toNat * 2 ^ 32 + (s.path n).lo.toNat, busy := true, world := w } := by simp [submit, h]

theorem exec_lnchhiHost_ignored {s : State} {fn : Nat} {hi : Word} (h : s.fnWorld fn = none ∨ (s.path fn).busy = true) :
    exec (.lnchhiHost fn hi) s = .next s := by
  show execLnchhiHost fn hi s = _
  unfold execLnchhiHost
  rcases h with h | h
  · rw [h]
  · split
    · rw [submit_busy h]
    · rfl

theorem exec_lnchhiHost_submits {s : State} {fn w : Nat} {hi : Word} (hw : s.fnWorld fn = some w) (h : (s.path fn).busy = false) :
    exec (.lnchhiHost fn hi) s = .next (s.setPath fn
      { s.path fn with addr := hi.toNat * 2 ^ 32 + (s.path fn).lo.toNat, busy := true, world := w }) := by
  show execLnchhiHost fn hi s = _
  rw [execLnchhiHost, hw, ← submit_free h]

theorem exec_lnchhiSteward_ignored {s : State} {n : Nat} {hi : Word} (h : s.parts.look n = none ∨ (s.path (64 + n)).busy = true) :
    exec (.lnchhiSteward n hi) s = .next s := by
  show execLnchhiSteward n hi s = _
  unfold execLnchhiSteward stewardSubmit
  rcases h with h | h
  · rw [h]
  · split
    · rw [stewardPath, submit_busy h]
    · rfl

theorem exec_lnchhiSteward_submits {s : State} {n : Nat} {q : Part} {hi : Word} (hq : s.parts.look n = some q)
    (h : (s.path (64 + n)).busy = false) : exec (.lnchhiSteward n hi) s = .next (s.setPath (64 + n)
      { s.path (64 + n) with addr := hi.toNat * 2 ^ 32 + (s.path (64 + n)).lo.toNat, busy := true, world := q.actw }) := by
  show execLnchhiSteward n hi s = _
  rw [execLnchhiSteward, stewardSubmit, hq, ← submit_free h]
  rfl

/-! ### The read of a launch record (R49, R281) -/

theorem exec_launchRecordRead_idle {s : State} {n : Nat} (h : (s.path n).busy = false) : exec (.launchRecordRead n) s = .next s := by
  show execLaunchRecordRead n s = _
  simp [execLaunchRecordRead, h]

theorem exec_launchRecordRead_refused {s : State} {n k : Nat} (hb : (s.path n).busy = true) (hr : (s.path n).rest = [])
    (h : readRecord s n (s.path n) = (k, none)) :
    exec (.launchRecordRead n) s = .next (s.setPath n { s.path n with busy := false, last := k }) := by
  show execLaunchRecordRead n s = _
  simp [execLaunchRecordRead, hb, hr, h, State.setPath]

theorem exec_launchRecordRead_accepted {s : State} {n : Nat} {l : Launch} (hb : (s.path n).busy = true) (hr : (s.path n).rest = [])
    (h : readRecord s n (s.path n) = (0, some l)) :
    exec (.launchRecordRead n) s = .next { (s.setPath n { s.path n with
      busy := false, last := 0, accepted := ((s.path n).accepted + 1) % 65536 }) with launches := s.launches ++ [l] } := by
  show execLaunchRecordRead n s = _
  simp [execLaunchRecordRead, hb, hr, h]

theorem readRecord_misaligned {s : State} {n : Nat} {p : LaunchPath} (h : p.addr % 32 ≠ 0) : readRecord s n p = (1, none) := by
  simp [readRecord, h]

theorem readRecord_unreadable {s : State} {n : Nat} {p : LaunchPath} {r : BitVec 6} (ha : p.addr % 32 = 0)
    (h : homeCheck s p.world p.world p.addr .load = .error r) : readRecord s n p = (1, none) := by
  simp [readRecord, ha, h]

/-- A record that can be read: its bytes, the world it names, whether its fields are sound, and whether a core runs the world. -/
def recordBytes (s : State) (p : LaunchPath) (h : Home) : List Byte := homeBytes s p.world p.addr 32 [h]
def recordWorld (p : LaunchPath) (l : List Byte) : Nat := if bytesNat l 14 1 % 2 = 1 then bytesNat l 13 1 else p.world
def recordSound (l : List Byte) : Prop :=
  bytesNat l 8 4 ≠ 0 ∧ bytesNat l 8 4 ≤ 393216 ∧ 16 ≤ bytesNat l 12 1 ∧ bytesNat l 12 1 ≤ 128 ∧ bytesNat l 12 1 % 8 = 0 ∧
    bytesNat l 14 1 < 2 ∧ bytesNat l 15 17 = 0
def recordRoom (s : State) (p : LaunchPath) (w : Nat) : Prop :=
  ∃ e ∈ s.cores, e.2.inService = true ∧ e.2.latch = some w ∧ s.partOf e.1 = (s.worlds.look p.world).map (·.part)
def recordLaunch (l : List Byte) (w : Nat) : Launch :=
  { entry := BitVec.ofNat 64 (bytesNat l 0 8), count := bytesNat l 8 4, quota := bytesNat l 12 1, world := w, steward := decide (w < 4) }

section
variable {s : State} {n : Nat} {p : LaunchPath} {h : Home} (ha : p.addr % 32 = 0)
  (hh : homeCheck s p.world p.world p.addr .load = .ok h) (hp : poisoned s p.world p.addr 32 [h] = false)
include ha hh hp

theorem readRecord_world (hn : n < 68) (hw : recordWorld p (recordBytes s p h) ≠ p.world) : readRecord s n p = (2, none) := by
  simp only [readRecord, ha, hh, hp, ne_eq, not_true_eq_false, Bool.false_eq_true, ↓reduceIte]
  exact if_pos ⟨hn, hw⟩

theorem readRecord_unsound (hw : 68 ≤ n ∨ recordWorld p (recordBytes s p h) = p.world) (hs : ¬ recordSound (recordBytes s p h)) :
    readRecord s n p = (3, none) := by
  unfold recordSound at hs
  simp only [readRecord, ha, hh, hp, ne_eq, not_true_eq_false, Bool.false_eq_true, ↓reduceIte]
  exact (if_neg fun hc => hw.elim (Nat.not_le.2 hc.1) hc.2).trans (if_pos (by unfold recordBytes at hs; omega))

theorem readRecord_noRoom (hw : 68 ≤ n ∨ recordWorld p (recordBytes s p h) = p.world) (hs : recordSound (recordBytes s p h))
    (hr : ¬ recordRoom s p (recordWorld p (recordBytes s p h))) : readRecord s n p = (4, none) := by
  unfold recordSound at hs
  simp only [readRecord, ha, hh, hp, ne_eq, not_true_eq_false, Bool.false_eq_true, ↓reduceIte]
  refine (if_neg fun hc => hw.elim (Nat.not_le.2 hc.1) hc.2).trans ((if_neg (by unfold recordBytes at hs; omega)).trans (if_pos ?_))
  rw [Bool.not_eq_true', List.any_eq_false]
  intro e he hc
  simp only [Bool.and_eq_true, beq_iff_eq] at hc
  exact hr ⟨e, he, hc.1.1, hc.1.2, hc.2⟩

theorem readRecord_launch (hw : 68 ≤ n ∨ recordWorld p (recordBytes s p h) = p.world) (hs : recordSound (recordBytes s p h))
    (hr : recordRoom s p (recordWorld p (recordBytes s p h))) :
    readRecord s n p = (0, some (recordLaunch (recordBytes s p h) (recordWorld p (recordBytes s p h)))) := by
  unfold recordSound at hs
  obtain ⟨e, he, hin, hl, hp'⟩ := hr
  simp only [readRecord, ha, hh, hp, ne_eq, not_true_eq_false, Bool.false_eq_true, ↓reduceIte]
  refine (if_neg fun hc => hw.elim (Nat.not_le.2 hc.1) hc.2).trans ((if_neg (by unfold recordBytes at hs; omega)).trans (if_neg ?_))
  rw [Bool.not_eq_true', Bool.not_eq_false, List.any_eq_true]
  refine ⟨e, he, ?_⟩
  simp only [Bool.and_eq_true, beq_iff_eq]
  exact ⟨⟨hin, hl⟩, hp'⟩
end

/-! ### The placement of a launch's blocks (R157, R281) -/

/-- The better of two cores for a block: the one before, unless the next has more free slots. -/
def moreSlots (s : State) (o : Option Nat) (c : Nat) : Option Nat :=
  match o with
  | some d => if slotsFree s c > slotsFree s d then some c else some d
  | none => some c

/-- A core with the most free slots among some, and the lowest of those. -/
structure Roomiest (s : State) (l : List Nat) (d : Nat) : Prop where
  mem  : d ∈ l
  best : ∀ e ∈ l, slotsFree s e ≤ slotsFree s d ∧ (slotsFree s e = slotsFree s d → d ≤ e)

theorem foldl_moreSlots {s : State} {d : Nat} (l : List Nat) : ∀ e, (e :: l).Pairwise (· < ·) →
    l.foldl (moreSlots s) (some e) = some d → Roomiest s (e :: l) d := by
  induction l with
  | nil =>
    intro e _ h
    obtain rfl : e = d := Option.some.inj h
    exact ⟨.head _, fun d' hd => by rw [List.mem_singleton.1 hd]; exact ⟨le_rfl, fun _ => le_rfl⟩⟩
  | cons c l ih =>
    intro e hp h
    obtain ⟨he, hcl⟩ := List.pairwise_cons.1 hp
    have hec := he c (.head _)
    rw [List.foldl_cons, moreSlots] at h
    by_cases hlt : slotsFree s c > slotsFree s e
    · rw [if_pos hlt] at h
      obtain ⟨hm, hb⟩ := ih c hcl h
      refine ⟨.tail _ hm, fun d' hd => ?_⟩
      rcases List.mem_cons.1 hd with rfl | hd
      · have := (hb c (.head _)).1
        exact ⟨by omega, by omega⟩
      · exact hb d' hd
    · rw [if_neg hlt] at h
      obtain ⟨hm, hb⟩ := ih e (List.pairwise_cons.2 ⟨fun x hx => he x (.tail _ hx), (List.pairwise_cons.1 hcl).2⟩) h
      have heb := hb e (.head _)
      refine ⟨(List.mem_cons.1 hm).elim (fun h => h ▸ .head _) fun h => .tail _ (.tail _ h), fun d' hd => ?_⟩
      rcases List.mem_cons.1 hd with rfl | hd
      · exact heb
      · rcases List.mem_cons.1 hd with rfl | hd
        · exact ⟨by omega, fun _ => by omega⟩
        · exact hb d' (.tail _ hd)

theorem pickCore_roomiest {s : State} {l : List Nat} {b : Block} {d : Nat} (hl : l.Pairwise (· < ·)) (h : pickCore s l b = some d) :
    Roomiest s (l.filter fun c => hasRoom s c b.count b.quota) d := by
  have hp := hl.filter fun c => hasRoom s c b.count b.quota
  rw [show pickCore s l b = (l.filter fun c => hasRoom s c b.count b.quota).foldl (moreSlots s) none from rfl] at h
  cases hf : l.filter fun c => hasRoom s c b.count b.quota with
  | nil => rw [hf] at h; cases h
  | cons e rest =>
    rw [hf] at h hp
    exact foldl_moreSlots rest e hp h

theorem launchCores_rising (s : State) (w : Nat) : (launchCores s w).Pairwise (· < ·) := by
  unfold launchCores
  split
  · exact .nil
  · exact List.pairwise_lt_range.filter _

theorem takeFirst_find {α : Type} {p : α → Bool} {x : α} : ∀ {l : List α}, l.find? p = some x →
    ∃ rest, takeFirst p l = some (x, rest) ∧ rest.length + 1 = l.length
  | y :: l, h => by
    rw [List.find?_cons] at h
    cases hy : p y with
    | true =>
      rw [hy] at h
      obtain rfl : y = x := Option.some.inj h
      exact ⟨l, by rw [takeFirst, if_pos hy], rfl⟩
    | false =>
      rw [hy] at h
      obtain ⟨rest, hr, hn⟩ := takeFirst_find h
      exact ⟨y :: rest, by simp [takeFirst, hy, hr], by simp [hn]⟩

theorem exec_launchBlockPlace_none {s : State} {w : Nat} (h : launchOf s w = none) : exec (.launchBlockPlace w) s = .next s := by
  show execLaunchBlockPlace w s = _
  rw [execLaunchBlockPlace, h]

theorem exec_launchBlockPlace_full {s : State} {w : Nat} {l : Launch} (hl : launchOf s w = some l)
    (hp : pickCore s (launchCores s w) l.block = none) (he : evictFor s (launchCores s w) l.block.count = none) :
    exec (.launchBlockPlace w) s = .next s := by
  show execLaunchBlockPlace w s = _
  simp [execLaunchBlockPlace, hl, hp, he]

theorem exec_launchBlockPlace_picked {s : State} {w d : Nat} {l : Launch} (hl : launchOf s w = some l)
    (hp : pickCore s (launchCores s w) l.block = some d) : exec (.launchBlockPlace w) s = .next (nextLaunch s w d l.block) := by
  show execLaunchBlockPlace w s = _
  simp [execLaunchBlockPlace, hl, hp]

/-- A launch goes on behind a block, or leaves the list with its last. -/
theorem nextLaunch_launches {s : State} {w : Nat} {l : Launch} (hl : launchOf s w = some l) (d : Nat) (b : Block) :
    ((nextLaunch s w d b).core d).waiting = (s.core d).waiting ++ [b] ∧
    (l.next + b.count < l.count → launchOf (nextLaunch s w d b) w = some { l with next := l.next + b.count }) ∧
    (l.count ≤ l.next + b.count → (nextLaunch s w d b).launches.length + 1 = s.launches.length) := by
  obtain ⟨rest, ht, hn⟩ := takeFirst_find hl
  have hw : (l.world == w) = true := List.find?_some (p := fun (l : Launch) => l.world == w) hl
  have hz : nextLaunch s w d b = { (s.modCore d fun k => { k with waiting := k.waiting ++ [b] }) with
      launches := if l.next + b.count ≥ l.count then rest else { l with next := l.next + b.count } :: rest } := by
    simp only [nextLaunch, State.modCore_launches, ht]
  rw [hz]
  refine ⟨?_, fun hlt => ?_, fun hle => ?_⟩
  · show ((s.modCore d fun k => { k with waiting := k.waiting ++ [b] }).core d).waiting = _
    rw [State.core_modCore_self]
  · rw [launchOf, if_neg (Nat.not_le.2 hlt)]
    exact List.find?_cons_of_pos hw
  · rw [if_pos hle, hn]

/-! ### The placement of a block's threads (R81, R85, R282) -/

/-- Every thread and every waiting block of `a` stands in `b`. -/
structure SlotsStand (a b : State) : Prop where
  thr     : ∀ c t, b.thr? c t = a.thr? c t
  waiting : ∀ c, (b.core c).waiting = (a.core c).waiting

theorem SlotsStand.refl (a : State) : SlotsStand a a := ⟨fun _ _ => rfl, fun _ => rfl⟩
theorem SlotsStand.trans {a b c : State} (h : SlotsStand a b) (k : SlotsStand b c) : SlotsStand a c :=
  ⟨fun x y => (k.thr x y).trans (h.thr x y), fun x => (k.waiting x).trans (h.waiting x)⟩
theorem SlotsStand.of_cores {a b : State} (h : b.cores = a.cores) : SlotsStand a b := by
  have hc : ∀ c, b.core c = a.core c := fun c => by rw [State.core, State.core, h]
  exact ⟨fun c t => by rw [State.thr?, State.thr?, State.ctx, State.ctx, hc], fun c => by rw [hc]⟩
theorem SlotsStand.modCore {s : State} {c : Nat} {f : Core → Core} (h : (f (s.core c)).ctx = (s.core c).ctx)
    (hw : (f (s.core c)).waiting = (s.core c).waiting) : SlotsStand s (s.modCore c f) := by
  refine ⟨fun c' t => State.thr?_modCore_ctx s c c' t f h, fun c' => ?_⟩
  rw [State.core_modCore]
  split
  · rename_i hc; rw [hc, hw]
  · rfl
theorem SlotsStand.modCtx {s : State} {c : Nat} {f : Ctx → Ctx} (h : (f (s.ctx c)).threads = (s.ctx c).threads) :
    SlotsStand s (s.modCtx c f) := by
  refine ⟨fun c' t => ?_, fun c' => State.core_modCtx_waiting s c c' f⟩
  simp only [State.thr?, State.ctx_modCtx]
  split
  · rename_i hc; rw [hc, h]
  · rfl
theorem SlotsStand.modDie (s : State) (d : Nat) (f : Die → Die) : SlotsStand s (s.modDie d f) := .of_cores rfl
theorem SlotsStand.takeFrames (s : State) (fr : List Nat) : SlotsStand s (s.takeFrames fr) := .of_cores rfl
theorem SlotsStand.foldl {α : Type} {f : State → α → State} (hf : ∀ s a, SlotsStand s (f s a)) (l : List α) :
    ∀ s, SlotsStand s (l.foldl f s) := by
  induction l with
  | nil => exact SlotsStand.refl
  | cons a l ih => exact fun s => (hf s a).trans (ih _)

theorem SlotsStand.clearMarks (s : State) (c : Nat) (p : ErrAt → Bool) : SlotsStand s (clearMarks s c p) := by
  unfold Machine.clearMarks
  split
  · exact .refl s
  · exact .modCore rfl rfl
theorem SlotsStand.dropShadow (s : State) (c : Nat) (u : UnitId) : SlotsStand s (dropShadow s c u) := by
  unfold Machine.dropShadow
  split
  · exact .refl s
  · exact (SlotsStand.modCore rfl rfl).trans (.modCtx rfl)
theorem SlotsStand.takeShadow (s : State) (c : Nat) (u : UnitId) (pc : DWord) : SlotsStand s (takeShadow s c u pc) := by
  unfold Machine.takeShadow
  extract_lets
  split
  · exact .dropShadow s c u
  · refine SlotsStand.trans ?_ (.modCtx rfl)
    exact (SlotsStand.takeFrames ..).trans (.modCore rfl rfl)
theorem SlotsStand.joinSig (s : State) (c : Nat) (a : Word) (v : Sig) : SlotsStand s (joinSig s c a v) := by
  unfold Machine.joinSig setSig
  exact .modCore rfl rfl
theorem SlotsStand.dropL1 (s : State) (c : Nat) (p : CLine → Bool) : SlotsStand s (dropL1 s c p) := .modCore rfl rfl
theorem SlotsStand.dropConst (s : State) (c : Nat) : SlotsStand s (dropConst s c) := .modCore rfl rfl
theorem SlotsStand.applySig (s : State) (c : Nat) (a : Word) (sg : Sig) (far : Bool) : SlotsStand s (applySig s c a sg far) := by
  unfold Machine.applySig
  extract_lets s₁ s₂
  have h : SlotsStand s s₂ := by
    unfold s₂
    split
    · exact (SlotsStand.dropL1 ..).trans (.modDie ..)
    · exact .dropL1 ..
  exact h.trans (.foldl (fun s a => .joinSig s c a sg) _ _)

/-- A thread as a block's placement writes it: the `i`-th of its launch, begun at cycle `n` of its core. -/
def freshThread (b : Block) (i n : Nat) : Thread :=
  { pc := b.entry, level := b.level, quota := b.quota, regs := Map.set 0 (Map.set 0 [] 0 b.arg) 1 (BitVec.ofNat 32 i), sched := { since := n } }

/-- One thread of a block: slot and place within the block. -/
def placeOne (c : Nat) (b : Block) (s : State) (p : Nat × Nat) : State :=
  let s := newThread s c p.1 b (b.first + p.2)
  if b.spawn then applySig (dropConst s c) c (s.sigId c p.1) b.sig true else s

theorem placeBlock_eq (s : State) (c : Nat) (b : Block) : ∃ w, SlotsStand s w ∧
    placeBlock s c b = ((tidsFree w c).take b.count).zipIdx.foldl (placeOne c b) w := by
  unfold placeBlock
  extract_lets w
  refine ⟨w, ?_, rfl⟩
  unfold w
  split
  · exact .refl s
  · exact .modCore rfl rfl

theorem placeOne_slots (c : Nat) (b : Block) (s : State) (p : Nat × Nat) : ∃ w n, SlotsStand s w ∧
    SlotsStand (w.setThr c p.1 (freshThread b (b.first + p.2) n)) (placeOne c b s p) := by
  unfold placeOne newThread
  extract_lets w v u
  refine ⟨w, (w.core c).ccnt.toNat, .clearMarks .., ?_⟩
  have h : SlotsStand v u := .takeShadow ..
  split
  · exact h.trans ((SlotsStand.dropConst ..).trans (.applySig ..))
  · exact h

theorem placeOne_waiting (c : Nat) (b : Block) (s : State) (p : Nat × Nat) : ((placeOne c b s p).core c).waiting = (s.core c).waiting := by
  obtain ⟨w, n, hw, hz⟩ := placeOne_slots c b s p
  rw [hz.waiting, ← hw.waiting]
  exact State.core_modCtx_waiting ..
theorem placeOne_thr? (c : Nat) (b : Block) (s : State) (p : Nat × Nat) : ∃ n, ∀ t, (placeOne c b s p).thr? c t =
    if t = p.1 then some (freshThread b (b.first + p.2) n) else s.thr? c t := by
  obtain ⟨w, n, hw, hz⟩ := placeOne_slots c b s p
  exact ⟨n, fun t => by rw [hz.thr, State.thr?_setThr, hw.thr]; simp⟩

theorem foldl_placeOne_waiting (c : Nat) (b : Block) (l : List (Nat × Nat)) (s : State) :
    ((l.foldl (placeOne c b) s).core c).waiting = (s.core c).waiting :=
  foldl_keeps (g := fun s : State => (s.core c).waiting) (placeOne_waiting c b) l s

/-- A slot that no thread of the block takes stands. -/
theorem foldl_placeOne_others {c : Nat} {b : Block} {t : Nat} : ∀ (l : List (Nat × Nat)) (s : State), t ∉ l.map Prod.fst →
    (l.foldl (placeOne c b) s).thr? c t = s.thr? c t
  | [], _, _ => rfl
  | p :: l, s, h => by
    obtain ⟨hp, hl⟩ := not_or.1 (mt List.mem_cons.2 h)
    obtain ⟨n, hn⟩ := placeOne_thr? c b s p
    rw [List.foldl_cons, foldl_placeOne_others l _ hl, hn, if_neg hp]

/-- Each slot that a thread of the block takes holds it as written, where the slots differ. -/
theorem foldl_placeOne_fresh {c : Nat} {b : Block} {q : Nat × Nat} : ∀ (l : List (Nat × Nat)) (s : State), (l.map Prod.fst).Nodup →
    q ∈ l → ∃ n, (l.foldl (placeOne c b) s).thr? c q.1 = some (freshThread b (b.first + q.2) n)
  | p :: l, s, hd, hq => by
    obtain ⟨hp, hl⟩ := List.nodup_cons.1 hd
    rcases List.mem_cons.1 hq with rfl | hq
    · obtain ⟨n, hn⟩ := placeOne_thr? c b s q
      exact ⟨n, by rw [List.foldl_cons, foldl_placeOne_others l _ hp, hn, if_pos rfl]⟩
    · exact foldl_placeOne_fresh l _ hl hq

theorem SlotsStand.tidsFree {a b : State} (h : SlotsStand a b) (c : Nat) : tidsFree b c = tidsFree a c := by
  have hh : ∀ t, tidOk b c t = tidOk a c t := fun t => congrArg (fun o => !Option.isSome o) (h.thr c t)
  exact List.filter_congr fun t _ => hh t
theorem tidsFree_nodup (s : State) (c : Nat) : (tidsFree s c).Nodup := List.nodup_range.filter _

theorem placeBlock_waiting (s : State) (c : Nat) (b : Block) : ((placeBlock s c b).core c).waiting = (s.core c).waiting := by
  obtain ⟨w, hw, he⟩ := placeBlock_eq s c b
  rw [he, foldl_placeOne_waiting, hw.waiting]
theorem placeBlock_fresh {s : State} {c i t : Nat} {b : Block} (hi : i < b.count) (ht : (tidsFree s c)[i]? = some t) :
    ∃ n, (placeBlock s c b).thr? c t = some (freshThread b (b.first + i) n) := by
  obtain ⟨w, hw, he⟩ := placeBlock_eq s c b
  rw [he, hw.tidsFree]
  refine foldl_placeOne_fresh (q := (t, i)) _ w ?_ ?_
  · rw [List.zipIdx_map_fst]
    exact (tidsFree_nodup s c).take
  · rw [List.mk_mem_zipIdx_iff_getElem?, List.getElem?_take_of_lt hi, ht]

/-- The registers of a thread as written: the argument, the number, and zeros (R81). -/
theorem freshThread_regs (b : Block) (i n : Nat) : (freshThread b i n).regs.get 0 0 = b.arg ∧
    (freshThread b i n).regs.get 0 1 = BitVec.ofNat 32 i ∧ ∀ k, 2 ≤ k → (freshThread b i n).regs.get 0 k = 0 := by
  have h : ∀ k, (freshThread b i n).regs.get 0 k = if k = 1 then BitVec.ofNat 32 i else if k = 0 then b.arg else 0 := fun k => by
    rw [freshThread, Map.get_set, Map.get_set]
    rfl
  exact ⟨h 0, h 1, fun k hk => by rw [h, if_neg (by omega), if_neg (by omega)]⟩

theorem exec_threadPlace_empty {s : State} {c : Nat} (h : (s.core c).waiting = []) : exec (.threadPlace c) s = .next s := by
  show execThreadPlace c s = _
  rw [execThreadPlace, h]
theorem exec_threadPlace_waits {s : State} {c : Nat} (h : placing s c = false ∨ restoring s c = true) :
    exec (.threadPlace c) s = .next s := by
  show execThreadPlace c s = _
  unfold execThreadPlace
  split
  · exact if_pos (by rcases h with h | h <;> simp [h])
  · rfl
theorem exec_threadPlace_places {s : State} {c : Nat} {b : Block} {rest : List Block} (hw : (s.core c).waiting = b :: rest)
    (hp : placing s c = true) (hr : restoring s c = false) (hb : 4 * b.count * b.quota ≤ 524288 - regBytes (s.ctx c)) :
    exec (.threadPlace c) s = .next (placeBlock (s.modCore c fun k => { k with waiting := rest }) c b) := by
  show execThreadPlace c s = _
  simp only [execThreadPlace, hw]
  exact (if_neg (by simp [hp, hr])).trans (if_neg (Nat.not_lt.2 hb))

/-! ### The return of an evicted unit (R180) -/

@[simp] theorem State.core_modThr_frames (s : State) (c t c' : Nat) (f : Thread → Thread) :
    ((s.modThr c t f).core c').frames = (s.core c').frames := by
  unfold State.modThr
  split
  · exact State.core_modCtx_frames ..
  · rfl

theorem blurThreads_frames (s : State) (c : Nat) (ts : List Nat) (c' : Nat) :
    ((blurThreads s c ts).core c').frames = (s.core c').frames := by
  unfold blurThreads
  extract_lets blur w
  rw [State.core_modCtx_frames]
  exact foldl_keeps (g := fun s : State => (s.core c').frames) (fun _ _ => State.core_modThr_frames ..) ts s
theorem fromFrames_frames (s : State) (c : Nat) (fr ts : List Nat) (lost : Bool) (c' : Nat) :
    ((fromFrames s c fr ts lost).core c').frames = (s.core c').frames := by
  unfold fromFrames
  split
  · exact blurThreads_frames ..
  · rfl
/-- Frames that software has left alone bring back what went into them. -/
theorem fromFrames_sound {s : State} {fr : List Nat} (h : ∀ f ∈ fr, s.spoiled.contains (frameOf f) = false) (c : Nat) (ts : List Nat) :
    fromFrames s c fr ts = s := by
  refine if_neg ?_
  rw [Bool.false_or, List.any_eq_true]
  rintro ⟨f, hf, hc⟩
  rw [h f hf] at hc
  cases hc

/-- The members of a unit are in the register file again. -/
def unframe (s : State) (c : Nat) (ts : List Nat) : State := ts.foldl (fun s t => s.modThr c t fun th => { th with framed := false }) s

theorem unframe_frames (s : State) (c : Nat) (ts : List Nat) (c' : Nat) : ((unframe s c ts).core c').frames = (s.core c').frames :=
  foldl_keeps (g := fun s : State => (s.core c').frames) (fun _ _ => State.core_modThr_frames ..) ts s
theorem unframe_spoiled (s : State) (c : Nat) (ts : List Nat) : (unframe s c ts).spoiled = s.spoiled :=
  foldl_keeps (g := State.spoiled) (fun _ _ => by unfold State.modThr; split <;> rfl) ts s
theorem unframe_thr? (c t : Nat) : ∀ (ts : List Nat) (s : State), (unframe s c ts).thr? c t =
    if t ∈ ts then (s.thr? c t).map fun th => { th with framed := false } else s.thr? c t
  | [], s => rfl
  | u :: ts, s => by
    rw [unframe, List.foldl_cons, ← unframe, unframe_thr? c t ts, State.thr?_modThr]
    by_cases hu : t = u
    · subst hu
      cases s.thr? c t <;> simp
    · simp [hu]

theorem exec_unitRestore_idle {s : State} {c : Nat} {u : UnitId}
    (h : (s.ctx c).evicted.find? (·.1 == u) = none ∨ restoreDue s c u = false) : exec (.unitRestore c u) s = .next s := by
  show execUnitRestore c u s = _
  unfold execUnitRestore
  split
  · rfl
  · rename_i hf
    rcases h with h | h
    · rw [hf] at h; cases h
    · exact if_pos (by rw [h]; rfl)

/-- The state in which an evicted unit is back from its frames. -/
def restored (s : State) (c : Nat) (u : UnitId) (fr : List Nat) : State :=
  (fromFrames (unframe s c (s.members c u)) c fr (s.members c u)).modCore c fun k =>
    { k with frames := k.frames ++ fr, ctx := { k.ctx with evicted := k.ctx.evicted.filter (·.1 != u) } }

theorem exec_unitRestore_restores {s : State} {c : Nat} {u : UnitId} {e : UnitId × List Nat}
    (he : (s.ctx c).evicted.find? (·.1 == u) = some e) (hd : restoreDue s c u = true)
    (hr : regBytes (s.ctx c) + restoreNeed s c u ≤ 524288) : exec (.unitRestore c u) s = .next (restored s c u e.2) := by
  show execUnitRestore c u s = _
  simp only [execUnitRestore, he]
  exact (if_neg (by simp [hd])).trans (if_neg (by omega))

theorem restored_frames (s : State) (c : Nat) (u : UnitId) (fr : List Nat) : ((restored s c u fr).core c).frames = (s.core c).frames ++ fr := by
  rw [restored, State.core_modCore_self]
  show (State.core _ c).frames ++ fr = _
  rw [fromFrames_frames, unframe_frames]
theorem restored_evicted (s : State) (c : Nat) (u : UnitId) (fr : List Nat) : ∀ q ∈ ((restored s c u fr).ctx c).evicted, q.1 ≠ u := by
  intro q hq
  rw [State.ctx, restored, State.core_modCore_self] at hq
  exact bne_iff_ne.1 (List.mem_filter.1 hq).2
theorem restored_thr? {s : State} {c : Nat} {u : UnitId} {fr : List Nat} (hf : ∀ f ∈ fr, s.spoiled.contains (frameOf f) = false) {t : Nat}
    (ht : t ∈ s.members c u) : (restored s c u fr).thr? c t = (s.thr? c t).map fun th => { th with framed := false } := by
  rw [restored, fromFrames_sound (by rwa [unframe_spoiled])]
  refine Eq.trans ?_ ((unframe_thr? c t (s.members c u) s).trans (if_pos ht))
  rw [State.thr?, State.ctx, State.core_modCore_self]
  rfl

/-! ### The steal queue (R282 to R285) -/

@[simp] theorem core_modSteal (s : State) (c c' : Nat) (f : Steal → Steal) :
    (modSteal s c f).core c' = if c' = c then { s.core c with steal := f (s.core c).steal } else s.core c' := State.core_modCore ..
theorem steal_modSteal (s : State) (c c' : Nat) (f : Steal → Steal) :
    ((modSteal s c f).core c').steal = if c' = c then f (s.core c').steal else (s.core c').steal := by
  rw [core_modSteal]
  split
  · rename_i h; rw [h]
  · rfl

theorem exec_spawnBlockPlace_idle {s : State} {c : Nat} (h : spawnReady s c = none) : exec (.spawnBlockPlace c) s = .next s := by
  show execSpawnBlockPlace c s = _
  rw [execSpawnBlockPlace, h]
/-- What is left of the queue behind a block of its first record. -/
def afterBlock (n : Nat) : List SpawnRec → List SpawnRec
  | r :: rest => if r.count ≤ r.next + n then rest else { r with next := r.next + n } :: rest
  | [] => []
theorem exec_spawnBlockPlace_places {s : State} {c : Nat} {b : Block} (h : spawnReady s c = some b)
    (hr : hasRoom s c b.count b.quota = true) : ∃ z, exec (.spawnBlockPlace c) s = .next z ∧
      (z.core c).waiting = (s.core c).waiting ++ [b] ∧ (z.core c).steal.queue = afterBlock b.count (s.core c).steal.queue := by
  show ∃ z, execSpawnBlockPlace c s = _ ∧ _
  simp only [execSpawnBlockPlace, h, hr, ↓reduceIte]
  refine ⟨_, rfl, by simp, ?_⟩
  simp only [steal_modSteal, State.core_modCore, ↓reduceIte]
  cases (s.core c).steal.queue <;> rfl
theorem spawnReady_head {s : State} {c : Nat} {b : Block} {r : SpawnRec} {rest : List SpawnRec} (h : spawnReady s c = some b)
    (hq : (s.core c).steal.queue = r :: rest) : b = r.head := by
  simp only [spawnReady, hq] at h
  split at h
  · cases h
  · exact (Option.some.inj h).symm

theorem exec_stealRequest_idle {s : State} {c : Nat} (h : wantsSteal s c = false) : exec (.stealRequest c) s = .next s := by
  show execStealRequest c s = _
  simp [execStealRequest, h]
theorem exec_stealRequest_asks {s : State} {c : Nat} (h : wantsSteal s c = true) : exec (.stealRequest c) s = .next (modSteal s c fun q =>
    { q with asked := some (victimCore c q.lfsr, slotsFree s c, bytesFree s c), lfsr := lfsr16 q.lfsr }) := by
  show execStealRequest c s = _
  simp [execStealRequest, h]
/-- A victim is another core of the grove. -/
theorem victimCore_grove (c : Nat) (l : BitVec 16) : victimCore c l / 12 = c / 12 ∧ victimCore c l ≠ c := by
  unfold victimCore
  have := Nat.mod_lt l.toNat (by decide : 11 > 0)
  omega

theorem exec_stealAnswer_waits {s : State} {v : Nat} (h : (s.core v).steal.unacked ≠ none) : exec (.stealAnswer v) s = .next s := by
  show execStealAnswer v s = _
  exact if_pos (Option.isSome_iff_ne_none.2 h)
theorem exec_stealAnswer_one {s : State} {v thief : Nat} (h : (s.core v).steal.unacked = none) (ha : askers s v = [thief]) :
    exec (.stealAnswer v) s = .next (answerSteal s v thief) := by
  show execStealAnswer v s = _
  simp [execStealAnswer, h, ha, Nat.mod_one]
theorem answerSteal_empty {s : State} {v thief : Nat} (h : (s.core v).steal.queue = []) : answerSteal s v thief = answerNone s thief := by
  simp only [answerSteal, h, List.getLast?_nil]
  split
  · rename_i h; cases h
  · rfl

section
variable {s : State} {v thief : Nat} {a : Nat} {slots bytes : Nat} {r : SpawnRec}
  (ha : (s.core thief).steal.asked = some (a, slots, bytes)) (hr : (s.core v).steal.queue.getLast? = some r)
include ha hr

theorem answerSteal_none (h : (s.core thief).latch ≠ (s.core v).latch ∨ ownerTakes s v = true ∨ slots < r.tail.count ∨
    bytes < 4 * r.tail.count * r.tail.quota) : answerSteal s v thief = answerNone s thief := by
  simp only [answerSteal, ha, hr]
  refine if_pos ?_
  rcases h with h | h | h | h
  · exact .inl h
  · exact .inr (.inr (.inl h))
  · exact .inr (.inr (.inr (.inl h)))
  · exact .inr (.inr (.inr (.inr h)))
theorem answerSteal_block (hl : (s.core thief).latch = (s.core v).latch) (hi : (s.core v).inService = true) (ho : ownerTakes s v = false)
    (hs : r.tail.count ≤ slots) (hb : 4 * r.tail.count * r.tail.quota ≤ bytes) : answerSteal s v thief =
      modSteal (modSteal s v fun q => { q with unacked := some (r.tail, thief, (s.core v).steal.queue.length - 1) }) thief
        fun q => { q with answer := some r.tail } := by
  simp only [answerSteal, ha, hr]
  refine if_neg ?_
  rw [hi, ho]
  rintro (h | h | h | h | h)
  · exact h hl
  · cases h
  · cases h
  · exact Nat.not_lt.2 hs h
  · exact Nat.not_lt.2 hb h
end

/-- A word whose low or high half counts one on. -/
def countHalf (w : Word) (hi : Bool) : Word :=
  if hi then (w.extractLsb' 16 16 + 1) ++ w.extractLsb' 0 16 else w.extractLsb' 16 16 ++ (w.extractLsb' 0 16 + 1)
theorem countHalf_low (w : Word) : (countHalf w false).setWidth 16 = w.setWidth 16 + 1 := by
  rw [countHalf, if_neg Bool.false_ne_true, BitVec.setWidth_append_eq_right]
  rfl
theorem countHalf_high (w : Word) : (countHalf w true).extractLsb' 16 16 = w.extractLsb' 16 16 + 1 := by
  rw [countHalf, if_pos rfl, BitVec.extractLsb'_append_eq_left]

/-- The victim's queue and counts behind an acknowledged block, and the thief's. -/
def victimAfter (b : Block) (q : Steal) : Steal :=
  { q with unacked := none, stlcnt := countHalf q.stlcnt true
           queue := match q.unacked with
             | some (_, _, i) => (modAt q.queue i fun t => { t with count := b.first }).filter fun t => t.next < t.count
             | none => q.queue }
def thiefAfter (b : Block) (q : Steal) : Steal :=
  { q with asked := none, answer := none, stlcnt := countHalf q.stlcnt false
           queue := q.queue ++ [{ entry := b.entry, count := b.first + b.count, arg := b.arg, quota := b.quota, world := b.world,
                                  next := b.first, sig := b.sig }] }

theorem exec_stealAck_idle {s : State} {c : Nat} (h : (s.core c).steal.answer = none) : exec (.stealAck c) s = .next s := by
  show execStealAck c s = _
  unfold execStealAck
  extract_lets q
  split
  · rename_i hb
    rw [h] at hb
    cases hb
  · rfl
theorem exec_stealAck_moves {s : State} {c v slots bytes : Nat} {b : Block} (ha : (s.core c).steal.asked = some (v, slots, bytes))
    (hb : (s.core c).steal.answer = some b) :
    exec (.stealAck c) s = .next (modSteal (modSteal s v (victimAfter b)) c (thiefAfter b)) := by
  show execStealAck c s = _
  simp only [execStealAck, ha, hb]
  rfl
theorem victimAfter_queue {b : Block} {q : Steal} {r : SpawnRec} {x : Block} {y : Nat} (hu : q.unacked = some (x, y, 0)) (hq : q.queue = [r]) :
    (victimAfter b q).queue = if r.next < b.first then [{ r with count := b.first }] else [] := by
  rw [victimAfter]
  simp only [hu, hq]
  rw [show modAt [r] 0 (fun t => { t with count := b.first }) = [{ r with count := b.first }] from rfl, List.filter_singleton]
  simp

theorem exec_stealBackoffExpiry_over {s : State} {c n : Nat} (h : (s.core c).steal.wait = some n) (hn : n ≤ (s.core c).ccnt.toNat) :
    exec (.stealBackoffExpiry c) s = .next (modSteal s c fun q => { q with wait := none }) := by
  show execStealBackoffExpiry c s = _
  simp [execStealBackoffExpiry, h, hn]
theorem exec_stealBackoffExpiry_idle {s : State} {c : Nat} (h : ∀ n, (s.core c).steal.wait = some n → (s.core c).ccnt.toNat < n) :
    exec (.stealBackoffExpiry c) s = .next s := by
  show execStealBackoffExpiry c s = _
  refine if_neg ?_
  rw [Option.any_eq_true]
  rintro ⟨n, hn, hc⟩
  exact Nat.not_le.2 (h n hn) (of_decide_eq_true hc)

/-! ### The clauses, part by part -/

theorem launchRecordRead_cases (s : State) (n : Nat) (hb : (s.path n).busy = true) (hr : (s.path n).rest = []) {h : Home}
    (ha : (s.path n).addr % 32 = 0) (hh : homeCheck s (s.path n).world (s.path n).world (s.path n).addr .load = .ok h)
    (hp : poisoned s (s.path n).world (s.path n).addr 32 [h] = false) :
    let l := recordBytes s (s.path n) h
    let w := recordWorld (s.path n) l
    (n < 68 → w ≠ (s.path n).world →
      exec (.launchRecordRead n) s = .next (s.setPath n { s.path n with busy := false, last := 2 })) ∧
    (68 ≤ n ∨ w = (s.path n).world →
      (¬ recordSound l → exec (.launchRecordRead n) s = .next (s.setPath n { s.path n with busy := false, last := 3 })) ∧
      (recordSound l → ¬ recordRoom s (s.path n) w →
        exec (.launchRecordRead n) s = .next (s.setPath n { s.path n with busy := false, last := 4 })) ∧
      (recordSound l → recordRoom s (s.path n) w → exec (.launchRecordRead n) s = .next { (s.setPath n { s.path n with
        busy := false, last := 0, accepted := ((s.path n).accepted + 1) % 65536 }) with launches := s.launches ++ [recordLaunch l w] })) := by
  refine ⟨fun hn hw => exec_launchRecordRead_refused hb hr (readRecord_world ha hh hp hn hw), fun hw => ⟨fun hs => ?_, fun hs hro => ?_,
    fun hs hro => ?_⟩⟩
  · exact exec_launchRecordRead_refused hb hr (readRecord_unsound ha hh hp hw hs)
  · exact exec_launchRecordRead_refused hb hr (readRecord_noRoom ha hh hp hw hs hro)
  · exact exec_launchRecordRead_accepted hb hr (readRecord_launch ha hh hp hw hs hro)

theorem launchBlockPlace_picked {s : State} {w d : Nat} {l : Launch} (hl : launchOf s w = some l)
    (hp : pickCore s (launchCores s w) l.block = some d) :
    d ∈ launchCores s w ∧ hasRoom s d l.block.count l.block.quota = true ∧
    (∀ d' ∈ launchCores s w, hasRoom s d' l.block.count l.block.quota = true →
      slotsFree s d' ≤ slotsFree s d ∧ (slotsFree s d' = slotsFree s d → d ≤ d')) ∧
    ∃ z, exec (.launchBlockPlace w) s = .next z ∧ (z.core d).waiting = (s.core d).waiting ++ [l.block] ∧
      (l.next + l.block.count < l.count → launchOf z w = some { l with next := l.next + l.block.count }) ∧
      (l.count ≤ l.next + l.block.count → z.launches.length + 1 = s.launches.length) := by
  obtain ⟨hm, hb⟩ := pickCore_roomiest (launchCores_rising s w) hp
  obtain ⟨hd, hr⟩ := List.mem_filter.1 hm
  exact ⟨hd, hr, fun e he h => hb e (List.mem_filter.2 ⟨he, h⟩), _, exec_launchBlockPlace_picked hl hp, nextLaunch_launches hl d l.block⟩

theorem threadPlace_places {s : State} {c : Nat} {b : Block} {rest : List Block} (hw : (s.core c).waiting = b :: rest)
    (hp : placing s c = true) (hr : restoring s c = false) (hb : 4 * b.count * b.quota ≤ 524288 - regBytes (s.ctx c)) :
    ∃ z, exec (.threadPlace c) s = .next z ∧ (z.core c).waiting = rest ∧
      ∀ i t, i < b.count → (tidsFree s c)[i]? = some t → ∃ n, z.thr? c t = some (freshThread b (b.first + i) n) := by
  refine ⟨_, exec_threadPlace_places hw hp hr hb, ?_, fun i t hi ht => placeBlock_fresh hi ?_⟩
  · rw [placeBlock_waiting, State.core_modCore_self]
  · rw [← ht]
    exact congrArg (·[i]?) (List.filter_congr fun t _ => congrArg (fun o => !Option.isSome o) (State.thr?_modCore_ctx s c c t _ rfl))

theorem stealAnswer_none {s : State} {c thief : Nat} (hu : (s.core c).steal.unacked = none) (ha : askers s c = [thief])
    (h : answerSteal s c thief = answerNone s thief) :
    ∃ z, exec (.stealAnswer c) s = .next z ∧ (z.core thief).steal = { (s.core thief).steal with
      asked := none, answer := none, wait := some ((s.core thief).ccnt.toNat + 2 ^ (s.core thief).steal.backoff) } := by
  refine ⟨_, (exec_stealAnswer_one hu ha).trans (congrArg _ h), ?_⟩
  rw [answerNone, steal_modSteal, if_pos rfl]

theorem stealAnswer_block {s : State} {c thief a slots bytes : Nat} {r : SpawnRec} (hu : (s.core c).steal.unacked = none)
    (ha : askers s c = [thief]) (hq : (s.core thief).steal.asked = some (a, slots, bytes))
    (hr : (s.core c).steal.queue.getLast? = some r) (hl : (s.core thief).latch = (s.core c).latch) (hi : (s.core c).inService = true)
    (ho : ownerTakes s c = false) (hs : r.tail.count ≤ slots) (hb : 4 * r.tail.count * r.tail.quota ≤ bytes) :
    ∃ z, exec (.stealAnswer c) s = .next z ∧ (z.core thief).steal.answer = some r.tail ∧
      (z.core c).steal.unacked = some (r.tail, thief, (s.core c).steal.queue.length - 1) := by
  refine ⟨_, (exec_stealAnswer_one hu ha).trans (congrArg _ (answerSteal_block hq hr hl hi ho hs hb)), ?_, ?_⟩
  · rw [steal_modSteal, if_pos rfl]
  · rw [steal_modSteal, steal_modSteal, if_pos rfl]
    split <;> rfl

theorem stealAck_moves {s : State} {c v slots bytes : Nat} {b x : Block} {r : SpawnRec} {y : Nat}
    (ha : (s.core c).steal.asked = some (v, slots, bytes)) (hb : (s.core c).steal.answer = some b) (hv : v ≠ c)
    (hu : (s.core v).steal.unacked = some (x, y, 0)) (hq : (s.core v).steal.queue = [r]) :
    ∃ z, exec (.stealAck c) s = .next z ∧ (z.core c).steal = thiefAfter b (s.core c).steal ∧
      (z.core v).steal = victimAfter b (s.core v).steal ∧
      (z.core v).steal.queue = if r.next < b.first then [{ r with count := b.first }] else [] := by
  have hz : ∀ t : Steal → Steal, ((modSteal (modSteal s v (victimAfter b)) c t).core v).steal = victimAfter b (s.core v).steal := fun t => by
    rw [steal_modSteal, if_neg hv, steal_modSteal, if_pos rfl]
  refine ⟨_, exec_stealAck_moves ha hb, ?_, hz _, ?_⟩
  · rw [steal_modSteal, if_pos rfl, steal_modSteal, if_neg hv.symm]
  · rw [hz, victimAfter_queue hu hq]

/-- Settles O49: each event of a launch, a placement and a theft answers as the rules above say. -/
theorem placement : Obligations.Placement := by
  intro s c
  refine ⟨fun fn hi => ⟨exec_lnchhiHost_ignored, fun w => exec_lnchhiHost_submits⟩,
    fun n hi => ⟨exec_lnchhiSteward_ignored, fun q => exec_lnchhiSteward_submits⟩, fun n => ?_, fun w => ⟨exec_launchBlockPlace_none, ?_⟩,
    exec_threadPlace_empty, fun b rest hw => ⟨exec_threadPlace_waits, fun hp hr hb => ?_⟩, fun u => ⟨exec_unitRestore_idle, ?_⟩, ?_⟩
  · refine ⟨exec_launchRecordRead_idle, fun hb hr => ⟨fun ha => ?_, fun ha => ⟨fun r he => ?_, fun h hh hp => ?_⟩⟩⟩
    · exact exec_launchRecordRead_refused hb hr (readRecord_misaligned ha)
    · exact exec_launchRecordRead_refused hb hr (readRecord_unreadable ha he)
    · exact launchRecordRead_cases s n hb hr ha hh hp
  · exact fun l hl => ⟨rfl, rfl, fun d hp => launchBlockPlace_picked hl hp, exec_launchBlockPlace_full hl⟩
  · obtain ⟨z, hz, hrest, hth⟩ := threadPlace_places hw hp hr hb
    refine ⟨z, hz, hrest, fun i t hi ht => ?_⟩
    obtain ⟨n, hn⟩ := hth i t hi ht
    obtain ⟨h0, h1, h2⟩ := freshThread_regs b (b.first + i) n
    exact ⟨_, hn, rfl, rfl, rfl, h0, h1, h2, rfl, rfl, rfl, rfl, rfl⟩
  · refine fun e he hd hr => ⟨_, exec_unitRestore_restores he hd hr, restored_frames .., restored_evicted s c u e.2, fun hf t ht th hth => ?_⟩
    rw [restored_thr? hf ht, hth]
    rfl
  · refine ⟨exec_spawnBlockPlace_idle, fun b r rest hs hq hr => ?_, exec_stealRequest_idle, fun hw => ?_, exec_stealAnswer_waits,
      fun thief slots bytes v hu ha hk => ⟨fun hq => stealAnswer_none hu ha (answerSteal_empty hq), fun r hr => ⟨fun h => ?_, ?_⟩⟩,
      exec_stealAck_idle, fun v slots bytes b i r x y ha hb hv hu hq hi => ?_, fun n hn hle => ?_, fun hn => ?_, fun n hn hlt => ?_⟩
    · obtain ⟨z, hz, hwait, hqueue⟩ := exec_spawnBlockPlace_places hs hr
      rw [hq] at hqueue
      exact ⟨z, hz, hwait, spawnReady_head hs hq, hqueue⟩
    · exact ⟨_, exec_stealRequest_asks hw, by rw [steal_modSteal, if_pos rfl], victimCore_grove ..⟩
    · exact stealAnswer_none hu ha (answerSteal_none hk hr h)
    · exact fun hl hi ho hs hb => stealAnswer_block hu ha hk hr hl hi ho hs hb
    · subst hi
      obtain ⟨z, hz, hthief, hvictim, hqueue⟩ := stealAck_moves ha hb hv hu hq
      refine ⟨z, hz, congrArg Steal.asked hthief, congrArg Steal.answer hthief, congrArg Steal.queue hthief, ?_,
        congrArg Steal.unacked hvictim, ?_, hqueue⟩
      · rw [hthief]
        exact countHalf_low _
      · rw [hvictim]
        exact countHalf_high _
    · exact ⟨_, exec_stealBackoffExpiry_over hn hle, by rw [steal_modSteal, if_pos rfl]⟩
    · exact exec_stealBackoffExpiry_idle fun n h => by rw [hn] at h; cases h
    · refine exec_stealBackoffExpiry_idle fun m h => ?_
      rw [hn] at h
      exact Option.some.inj h ▸ hlt

end Sys2Proof.Machine
end

section
/-! SETTLED. O9: float arithmetic. What a float instruction of two or three sources writes, said once; then each operation of R116 and R117
as the first NaN of its sources or the value that the rule states for sources without one. -/
namespace Sys2Proof.Machine

/-! ### What a float instruction writes (R115) -/

theorem wrVal_ofNat (s : State) (e : Env) (d : Dst) (v : Nat) :
    wrVal s e false d (BitVec.ofNat 64 v) = wrWord s e d (BitVec.ofNat 32 v) :=
  congrArg (wrWord s e d · 0) (BitVec.setWidth_ofNat_of_le (by omega) v)

section
variable {i : Instr} {s : State} {b : Bundle} {t : Nat} {th : Thread} {h : Hdr} {ty : Ty} {d : Dst} {p q r : Src} {lat ival v : Nat}

theorem ends_flt2 {f : DWord → Nat → Nat → Nat} (rd : Ready s b t th .app (ofWords [p, q] d) h)
    (hi : exec i s = .next (runAlu ((flt2 h d p q ty f).timed lat ival) s))
    (hv : f th.pc (pat s (envOf s b t (ofWords [p, q] d) h) h ty p) (pat s (envOf s b t (ofWords [p, q] d) h) h ty q) = v) :
    Ends i s b t (ofWords [p, q] d) h (wrWord s (envOf s b t (ofWords [p, q] d) h) d (BitVec.ofNat 32 v)) := by
  refine ends_alu hi rd rfl rfl ?_
  subst hv
  exact wrVal_ofNat ..

theorem ends_flt3 {f : DWord → Nat → Nat → Nat → Nat} (rd : Ready s b t th .app (ofWords [p, q, r] d) h)
    (hi : exec i s = .next (runAlu ((flt3 h d p q r ty f).timed lat ival) s))
    (hv : f th.pc (pat s (envOf s b t (ofWords [p, q, r] d) h) h ty p) (pat s (envOf s b t (ofWords [p, q, r] d) h) h ty q)
      (pat s (envOf s b t (ofWords [p, q, r] d) h) h ty r) = v) :
    Ends i s b t (ofWords [p, q, r] d) h (wrWord s (envOf s b t (ofWords [p, q, r] d) h) d (BitVec.ofNat 32 v)) := by
  refine ends_alu hi rd rfl rfl ?_
  subst hv
  exact wrVal_ofNat ..
end

/-! ### Patterns -/

theorem Fmt.infM_pos (ty : Ty) : 0 < (Ty.fmt ty).infM := by cases ty <;> decide
theorem Fmt.mag_lt (f : Fmt) (v : Nat) : f.mag v < 2 ^ (f.eb + f.fb) := Nat.mod_lt _ (Nat.two_pow_pos _)

@[simp] theorem Fmt.mag_put (f : Fmt) (s : Bool) {m : Nat} (h : m < 2 ^ (f.eb + f.fb)) : f.mag (f.put s m) = m := by
  cases s <;> simp [mag, put, Nat.mod_eq_of_lt h]
@[simp] theorem Fmt.sign_put (f : Fmt) (s : Bool) {m : Nat} (h : m < 2 ^ (f.eb + f.fb)) : f.sign (f.put s m) = s := by
  cases s
  · simpa [sign, put] using Nat.testBit_lt_two_pow h
  · simpa [sign, put, Nat.testBit_two_pow_add_eq] using Nat.testBit_lt_two_pow h

@[simp] theorem mag_negV (f : Fmt) (v : Nat) : f.mag (negV f v) = f.mag v := f.mag_put _ (f.mag_lt v)
@[simp] theorem sign_negV (f : Fmt) (v : Nat) : f.sign (negV f v) = !f.sign v := f.sign_put _ (f.mag_lt v)
@[simp] theorem isNan_negV (f : Fmt) (v : Nat) : f.isNan (negV f v) = f.isNan v := by simp [Fmt.isNan]
@[simp] theorem isInf_negV (f : Fmt) (v : Nat) : f.isInf (negV f v) = f.isInf v := by simp [Fmt.isInf]

theorem isZero_of_isInf {ty : Ty} {v : Nat} (h : (Ty.fmt ty).isInf v = true) : (Ty.fmt ty).isZero v = false := by
  have := Fmt.infM_pos ty
  simp only [Fmt.isInf, beq_iff_eq] at h
  simp only [Fmt.isZero, beq_eq_false_iff_ne]
  omega

/-- No source is a NaN where there is no first one. -/
theorem firstNan_eq_none {f : Fmt} {l : List Nat} : firstNan f l = none ↔ ∀ v ∈ l, f.isNan v = false := by
  simp [firstNan]
/-- A result that is the first NaN where there is one, and the value where there is none. -/
theorem eq_nanElse {ty : Ty} {l : List Nat} {n v : Nat} (hs : ∀ m, firstNan (Ty.fmt ty) l = some m → n = m)
    (hv : firstNan (Ty.fmt ty) l = none → n = v) : n = nanElse ty l v := by
  cases h : firstNan (Ty.fmt ty) l with
  | none => simpa [nanElse, h] using hv h
  | some m => simpa [nanElse, h] using hs m h
theorem nanElse_of_none {ty : Ty} {l : List Nat} (h : firstNan (Ty.fmt ty) l = none) (v : Nat) : nanElse ty l v = v := by
  rw [nanElse, h]; rfl

/-! ### The operations (R116, R117) -/

section
variable (ty : Ty) (rm : Rm) (pc : DWord) (x y z : Nat)

theorem addFin_eq (a b : Dy) : addFin (Ty.fmt ty) rm a b = sumOf ty rm a b := rfl

theorem faddV_eq : let f := Ty.fmt ty
    faddV ty rm pc x y = nanElse ty [x, y]
      (if f.isInf x ∧ f.isInf y then (if f.sign x != f.sign y then eventNan ty 1 pc else x)
       else if f.isInf x then x else if f.isInf y then y else sumOf ty rm (f.dy x) (f.dy y)) := by
  refine eq_nanElse (fun m hm => by simp [faddV, hm]) fun hn => ?_
  simp only [faddV, hn, addFin_eq]
  cases (Ty.fmt ty).isInf x <;> cases (Ty.fmt ty).isInf y <;> simp

theorem fsubV_eq : let f := Ty.fmt ty
    fsubV ty rm pc x y = nanElse ty [x, y]
      (if f.isInf x ∧ f.isInf y then (if f.sign x != f.sign y then x else eventNan ty 1 pc)
       else if f.isInf x then x else if f.isInf y then negV f y else sumOf ty rm (f.dy x) (f.dy (negV f y))) := by
  refine eq_nanElse (fun m hm => by simp [fsubV, hm]) fun hn => ?_
  have hneg : firstNan (Ty.fmt ty) [x, negV (Ty.fmt ty) y] = none := by
    rw [firstNan_eq_none] at hn ⊢
    simpa using hn
  simp only [fsubV, hn, faddV_eq, nanElse_of_none hneg, isInf_negV, sign_negV]
  cases (Ty.fmt ty).sign x <;> cases (Ty.fmt ty).sign y <;> rfl

theorem fmulV_eq : let f := Ty.fmt ty
    let sg := f.sign x != f.sign y
    fmulV ty rm pc x y = nanElse ty [x, y]
      (if (f.isInf x ∧ f.isZero y) ∨ (f.isZero x ∧ f.isInf y) then eventNan ty 2 pc
       else if f.isInf x ∨ f.isInf y then f.put sg f.infM
       else roundF f rm sg ((f.dy x).m * (f.dy y).m) 1 ((f.dy x).e + (f.dy y).e)) := by
  refine eq_nanElse (fun m hm => by simp [fmulV, hm]) fun hn => ?_
  simp only [fmulV, hn]
  cases hx : (Ty.fmt ty).isInf x <;> cases hy : (Ty.fmt ty).isInf y <;> simp [hx, hy, isZero_of_isInf]

theorem fmaV_eq : let f := Ty.fmt ty
    let sg := f.sign x != f.sign y
    fmaV ty rm pc x y z = nanElse ty [x, y, z]
      (if (f.isInf x ∧ f.isZero y) ∨ (f.isZero x ∧ f.isInf y) then eventNan ty 2 pc
       else if f.isInf x ∨ f.isInf y then (if f.isInf z ∧ f.sign z ≠ sg then eventNan ty 1 pc else f.put sg f.infM)
       else if f.isInf z then z
       else sumOf ty rm ⟨sg, (f.dy x).m * (f.dy y).m, (f.dy x).e + (f.dy y).e⟩ (f.dy z)) := by
  refine eq_nanElse (fun m hm => by simp [fmaV, hm]) fun hn => ?_
  simp only [fmaV, hn, addFin_eq]
  cases hx : (Ty.fmt ty).isInf x <;> cases hy : (Ty.fmt ty).isInf y <;> simp [hx, hy, isZero_of_isInf]

theorem fdivV_eq : let f := Ty.fmt ty
    let sg := f.sign x != f.sign y
    fdivV ty rm pc x y = nanElse ty [x, y]
      (if f.isZero x ∧ f.isZero y then eventNan ty 3 pc
       else if f.isInf x ∧ f.isInf y then eventNan ty 4 pc
       else if f.isInf x ∨ f.isZero y then f.put sg f.infM
       else if f.isInf y then f.put sg 0
       else roundF f rm sg (f.dy x).m (f.dy y).m ((f.dy x).e - (f.dy y).e)) := by
  refine eq_nanElse (fun m hm => by simp [fdivV, hm]) fun hn => ?_
  simp only [fdivV, hn]
  cases hx : (Ty.fmt ty).isInf x <;> cases hy : (Ty.fmt ty).isInf y <;> simp [hx, hy, isZero_of_isInf]
  cases (Ty.fmt ty).isZero x <;> cases (Ty.fmt ty).isZero y <;> rfl
end

/-- Settles O9: each instruction writes what its operation's equation says. -/
theorem floatArithmetic : Obligations.FloatArithmetic := by
  intro s b t th h ty rm d p q r
  refine ⟨fun rd => ⟨?_, ?_, ?_, ?_⟩, fun rd => ?_⟩
  · exact ends_flt2 rd rfl (faddV_eq ..)
  · exact ends_flt2 rd rfl (fsubV_eq ..)
  · exact ends_flt2 rd rfl (fmulV_eq ..)
  · exact ends_flt2 rd rfl (fdivV_eq ..)
  · exact ends_flt3 rd rfl (fmaV_eq ..)

end Sys2Proof.Machine
end

section
/-! SETTLED. O11: conversions. What a conversion writes, said once for one source and for two; then the value and the SAT event of each row
of R123 to R128. -/
namespace Sys2Proof.Machine

/-! ### What a conversion writes (R123) -/

/-- A result as a destination of one word takes it: the low word, and whether SAT is set. -/
def lowWord (r : DWord × Bool) : Word × Bool := (r.1.setWidth 32, r.2)

section
variable {i : Instr} {s : State} {b : Bundle} {t : Nat} {th : Thread} {h : Hdr} {d : Dst} {p q : Src} {w : Word} {c : Bool}

theorem ends_conv1 {f : Word → DWord × Bool} (rd : Ready s b t th .app { srcs := one [p], dsts := [(d, 1)] } h)
    (hi : exec i s = .next (runAlu (conv1 h false d p f) s))
    (hf : lowWord (f (rdWord s (envOf s b t { srcs := one [p], dsts := [(d, 1)] } h) h p)) = (w, c)) :
    Ends i s b t { srcs := one [p], dsts := [(d, 1)] } h
      (putWord s (envOf s b t { srcs := one [p], dsts := [(d, 1)] } h) d w c) :=
  ends_alu hi rd rfl rfl (congrArg (fun r : Word × Bool => putWord s _ d r.1 r.2) hf)

theorem ends_conv2_one {f : Word → Word → DWord × Bool} {lat ival : Nat}
    (rd : Ready s b t th .app { srcs := one [p], dsts := [(d, 1)] } h)
    (hi : exec i s = .next (runAlu ((conv2 h d p none f).timed lat ival) s))
    (hf : lowWord (f (rdWord s (envOf s b t { srcs := one [p], dsts := [(d, 1)] } h) h p) 0) = (w, c)) :
    Ends i s b t { srcs := one [p], dsts := [(d, 1)] } h
      (putWord s (envOf s b t { srcs := one [p], dsts := [(d, 1)] } h) d w c) :=
  ends_alu hi rd rfl rfl (congrArg (fun r : Word × Bool => putWord s _ d r.1 r.2) hf)

theorem ends_conv2 {f : Word → Word → DWord × Bool} {lat ival : Nat}
    (rd : Ready s b t th .app { srcs := one [p, q], dsts := [(d, 1)] } h)
    (hi : exec i s = .next (runAlu ((conv2 h d p (some q) f).timed lat ival) s))
    (hf : lowWord (f (rdWord s (envOf s b t { srcs := one [p, q], dsts := [(d, 1)] } h) h p)
      (rdWord s (envOf s b t { srcs := one [p, q], dsts := [(d, 1)] } h) h q)) = (w, c)) :
    Ends i s b t { srcs := one [p, q], dsts := [(d, 1)] } h
      (putWord s (envOf s b t { srcs := one [p, q], dsts := [(d, 1)] } h) d w c) :=
  ends_alu hi rd rfl rfl (congrArg (fun r : Word × Bool => putWord s _ d r.1 r.2) hf)
end

/-! ### Integers of other widths -/

theorem setWidth_ofInt64 (v : Int) : (BitVec.ofInt 64 v).setWidth 32 = BitVec.ofInt 32 v := by
  apply BitVec.eq_of_toNat_eq
  simp [BitVec.toNat_ofInt]
  omega
theorem setWidth_wrInt_s32 (v : Int) : (wrInt .s32 v).setWidth 32 = BitVec.ofInt 32 v := by
  show (((BitVec.ofInt 32 v).signExtend 32).setWidth 64).setWidth 32 = _
  rw [BitVec.setWidth_setWidth_of_le _ (by decide), BitVec.signExtend_eq, BitVec.setWidth_eq]
theorem setWidth_ofInt16 (v : Int) : ((BitVec.ofInt 16 v).setWidth 64).setWidth 32 = BitVec.ofInt 32 (v % 65536) := by
  apply BitVec.eq_of_toNat_eq
  simp [BitVec.toNat_ofInt]
  omega
theorem setWidth_ofInt8 {v : Int} (h : 0 ≤ v) (hv : v < 256) : ((BitVec.ofInt 8 v).setWidth 64).setWidth 32 = BitVec.ofInt 32 v := by
  apply BitVec.eq_of_toNat_eq
  simp [BitVec.toNat_ofInt]
  omega

/-! ### Rounding and clamping (R62) -/

/-- The nearest value of a range, and whether the value lay beyond it. -/
theorem clamp_eq (lo hi x : Int) :
    clamp lo hi x = (if x < lo then lo else if hi < x then hi else x, decide (x < lo ∨ hi < x)) := by
  unfold clamp
  by_cases h1 : x < lo
  · simp [h1]
  · by_cases h2 : hi < x <;> simp [h1, h2]
theorem clamp_bounds {lo hi : Int} (h : lo ≤ hi) (x : Int) : lo ≤ (clamp lo hi x).1 ∧ (clamp lo hi x).1 ≤ hi := by
  rw [clamp_eq]
  dsimp only
  split <;> omega

theorem toIntV_eq (st : Ty) (rm : Rm) (lo hi : Int) (a : Nat) :
    toIntV st rm lo hi a = if (Ty.fmt st).isNan a then (0, true)
      else if (Ty.fmt st).isInf a then (if (Ty.fmt st).sign a then lo else hi, true)
      else (if roundZ rm ((Ty.fmt st).dy a) < lo then lo else if hi < roundZ rm ((Ty.fmt st).dy a) then hi else roundZ rm ((Ty.fmt st).dy a),
        decide (roundZ rm ((Ty.fmt st).dy a) < lo ∨ hi < roundZ rm ((Ty.fmt st).dy a))) := by
  rw [toIntV, clamp_eq]

/-! ### From one float format to another, and from and to integers (R61, R62, R124, R125) -/

section
variable {dt st : Ty} {rm : Rm} {sat : Bool} {x : Nat}

theorem fcvtV_nan (h : (Ty.fmt st).isNan x = true) : fcvtV dt st rm sat x =
    ((Ty.fmt dt).put ((Ty.fmt st).sign x) ((Ty.fmt dt).infM + (Ty.fmt dt).quiet + nanCause st x * (if dt = .bf16 ∨ dt = .f16 then 1 else 65536)),
      false) := by
  simp only [fcvtV, h, ↓reduceIte, nanTo]
  cases dt <;> simp
theorem fcvtV_inf (h : (Ty.fmt st).isNan x ≠ true) (hi : (Ty.fmt st).isInf x = true) : fcvtV dt st rm sat x =
    ((Ty.fmt dt).put ((Ty.fmt st).sign x) (if sat then (Ty.fmt dt).maxM else (Ty.fmt dt).infM), sat) := by
  rw [fcvtV, if_neg h, if_pos hi]
theorem fcvtV_finite (h : (Ty.fmt st).isNan x ≠ true) (hi : (Ty.fmt st).isInf x ≠ true) : fcvtV dt st rm sat x =
    roundC (Ty.fmt dt) rm ((Ty.fmt st).sign x) ((Ty.fmt st).dy x).m 1 ((Ty.fmt st).dy x).e := by
  rw [fcvtV, if_neg h, if_neg hi]
end

theorem lowWord_natOut {r : Nat × Bool} {v : Nat} {c : Bool} (h : r = (v, c)) : lowWord (natOut r) = (BitVec.ofNat 32 v, c) := by
  rw [h]
  exact congrArg (·, c) (BitVec.setWidth_ofNat_of_le (by decide) v)

/-! ### The trit formats (R66 to R70, R127) -/

theorem tritCode_five (t0 t1 t2 t3 t4 : Int) :
    tritCode [t0, t1, t2, t3, t4] =
      BitVec.ofInt 8 (t0 + 1 + 3 * (t1 + 1) + 9 * (t2 + 1) + 27 * (t3 + 1) + 81 * (t4 + 1)) := by
  refine congrArg (BitVec.ofInt 8) ?_
  simp [sumI]
  ring

/-- Five elements in five trits, each at its nearest bound (R127). -/
theorem tcvtV_t1_s8 (rm : Rm) (x y : Word) :
    let el := fun (i : Nat) => if i = 4 then (byteAt y 0).toInt else (byteAt x i).toInt
    let c := fun i => clamp (-1) 1 (el i)
    lowWord (tcvtV .t1 .s8 rm x y) =
      (BitVec.ofInt 32 ((c 0).1 + 1 + 3 * ((c 1).1 + 1) + 9 * ((c 2).1 + 1) + 27 * ((c 3).1 + 1) + 81 * ((c 4).1 + 1)),
        (c 0).2 || (c 1).2 || (c 2).2 || (c 3).2 || (c 4).2) := by
  intro el c
  have hb : ∀ i, -1 ≤ (c i).1 ∧ (c i).1 ≤ 1 := fun i => clamp_bounds (by decide) _
  have hv : lowWord (tcvtV .t1 .s8 rm x y) =
      (((tritCode [(c 0).1, (c 1).1, (c 2).1, (c 3).1, (c 4).1]).setWidth 64).setWidth 32,
        (c 0).2 || ((c 1).2 || ((c 2).2 || ((c 3).2 || ((c 4).2 || false))))) := rfl
  rw [hv, tritCode_five, setWidth_ofInt8]
  · simp only [Bool.or_false, Bool.or_assoc]
  all_goals
    have := hb 0; have := hb 1; have := hb 2; have := hb 3; have := hb 4
    omega

/-- The digits of a code; an invalid code reads as five zeros (R66, R67). -/
theorem trits5_digit (c : Byte) {i : Nat} (hi : i < 5) :
    BitVec.ofInt 8 ((trits5 c).1.getD i 0) = if c.toNat ≥ 243 then 0#8 else BitVec.ofInt 8 (((c.toNat / 3 ^ i % 3 : Nat) : Int) - 1) := by
  unfold trits5
  split
  · interval_cases i <;> rfl
  · simp [hi]
theorem trits5_invalid (c : Byte) : (trits5 c).2 = decide (c.toNat ≥ 243) := by
  unfold trits5
  split <;> simp [*]
theorem t5Value_eq (c : Byte) : t5Value c = (if c.toNat ≥ 243 then 0 else (c.toNat : Int) - 121, decide (c.toNat ≥ 243)) := by
  unfold t5Value
  split <;> simp [*]

theorem tcvtV_s8_t1 (rm : Rm) (x y : Word) :
    let c := (byteAt x 0).toNat
    let digit := fun (i : Nat) => if c ≥ 243 then 0#8 else BitVec.ofInt 8 (((c / 3 ^ i % 3 : Nat) : Int) - 1)
    lowWord (tcvtV .s8 .t1 rm x y) =
      (if y.getLsbD 0 then ofBytes4 (digit 4) 0 0 0 else ofBytes4 (digit 0) (digit 1) (digit 2) (digit 3), decide (c ≥ 243)) := by
  intro c digit
  rw [lowWord, tcvtV]
  simp only [trits5_invalid, BitVec.setWidth_setWidth_of_le _ (show 32 ≤ 64 by decide), BitVec.setWidth_eq]
  rw [trits5_digit _ (show 0 < 5 by decide), trits5_digit _ (show 1 < 5 by decide), trits5_digit _ (show 2 < 5 by decide),
    trits5_digit _ (show 3 < 5 by decide), trits5_digit _ (show 4 < 5 by decide)]

section
variable (rm : Rm) (x y : Word)

theorem tcvtV_t5_s32 : lowWord (tcvtV .t5 .s32 rm x y) =
    (BitVec.ofInt 32 ((clamp (-121) 121 x.toInt).1 + 121), (clamp (-121) 121 x.toInt).2) :=
  congrArg (·, _) (setWidth_ofInt64 _)
theorem tcvtV_t11_s32 : lowWord (tcvtV .t11 .s32 rm x y) =
    (BitVec.ofInt 32 ((clamp (-32768) 32767 x.toInt).1 % 65536), (clamp (-32768) 32767 x.toInt).2) :=
  congrArg (·, _) (setWidth_ofInt16 _)
theorem tcvtV_t5_f32 : lowWord (tcvtV .t5 .f32 rm x y) =
    (BitVec.ofInt 32 ((toIntV .f32 rm (-121) 121 x.toNat).1 + 121), (toIntV .f32 rm (-121) 121 x.toNat).2) :=
  congrArg (·, _) (setWidth_ofInt64 _)
theorem tcvtV_t11_f32 : lowWord (tcvtV .t11 .f32 rm x y) =
    (BitVec.ofInt 32 ((toIntV .f32 rm (-32768) 32767 x.toNat).1 % 65536), (toIntV .f32 rm (-32768) 32767 x.toNat).2) :=
  congrArg (·, _) (setWidth_ofInt16 _)
theorem tcvtV_s32_t5 : lowWord (tcvtV .s32 .t5 rm x y) = (BitVec.ofInt 32 (t5Value (byteAt x 0)).1, (t5Value (byteAt x 0)).2) :=
  congrArg (·, _) (setWidth_wrInt_s32 _)
theorem tcvtV_s32_t11 : lowWord (tcvtV .s32 .t11 rm x y) = ((halfAt x 0).signExtend 32, false) :=
  congrArg (·, _) (setWidth_wrInt_s32 _)
theorem tcvtV_f32_t5 : lowWord (tcvtV .f32 .t5 rm x y) =
    (BitVec.ofNat 32 (i2fV .f32 .rne (t5Value (byteAt x 0)).1).1, (t5Value (byteAt x 0)).2) :=
  congrArg (·, _) (BitVec.setWidth_ofNat_of_le (by decide) _)
theorem tcvtV_f32_t11 : lowWord (tcvtV .f32 .t11 rm x y) = (BitVec.ofNat 32 (i2fV .f32 .rne (halfAt x 0).toInt).1, false) :=
  congrArg (·, _) (BitVec.setWidth_ofNat_of_le (by decide) _)
end

/-! ### The aligner (R72, R128) -/

/-- The exponent is the first of those that bring the magnitude within the bound, and the last where none does. -/
theorem bxExp_least (bound : Nat) (x : Dy) :
    let least := fun (n : Nat) => (roundZ .rne ⟨false, x.m, x.e + 133 - (n : Int)⟩).natAbs ≤ bound
    bxExp bound x < 256 ∧ (∀ m, m < bxExp bound x → ¬ least m) ∧ (least 255 → least (bxExp bound x)) := by
  intro least
  have hb : bxExp bound x = ((List.range 256).find? fun n => decide (least n)).getD 255 := rfl
  cases h : (List.range 256).find? fun n => decide (least n) with
  | none =>
    rw [h] at hb
    rw [List.find?_range_eq_none] at h
    rw [hb]
    exact ⟨by decide, fun m hm => of_decide_eq_false (by simpa using h m (Nat.lt_trans hm (by decide))), id⟩
  | some n =>
    rw [h] at hb
    obtain ⟨hn, hlt, hmin⟩ := List.find?_range_eq_some.1 h
    rw [hb]
    exact ⟨List.mem_range.1 hlt, fun m hm => by simpa using hmin m hm, fun _ => of_decide_eq_true hn⟩

theorem bxalExp_fst (bound a : Nat) : let f := Ty.fmt .f32
    (bxalExp bound a).1 = if f.isNan a || f.isInf a || f.isZero a then 0 else bxExp bound (f.dy a) := by
  simp only [bxalExp]
  cases (Ty.fmt .f32).isNan a <;> cases (Ty.fmt .f32).isInf a <;> cases (Ty.fmt .f32).isZero a <;> rfl
theorem bxalExp_sat (bound a : Nat) : (bxalExp bound a).2 = ((Ty.fmt .f32).isNan a || (Ty.fmt .f32).isInf a) := by
  simp only [bxalExp]
  cases (Ty.fmt .f32).isNan a <;> cases (Ty.fmt .f32).isInf a <;> cases (Ty.fmt .f32).isZero a <;> rfl

theorem bxalV_exp {op : BxOp} {lim : Nat} (ho : (op = .expA ∧ lim = 127) ∨ (op = .expB ∧ lim = 121)) (x y : Word) :
    bxalV op x y = natOut (bxalExp lim x.toNat) := by
  rcases ho with ⟨rfl, rfl⟩ | ⟨rfl, rfl⟩ <;> rfl
theorem bxalV_man {op : BxOp} {lim : Int} (ho : (op = .manA ∧ lim = 127) ∨ (op = .manB ∧ lim = 121)) (x y : Word) :
    lowWord (bxalV op x y) = ((BitVec.ofInt 8 (bxalMan lim x.toNat (byteAt y 0).toNat).1).setWidth 32,
      (bxalMan lim x.toNat (byteAt y 0).toNat).2) := by
  rcases ho with ⟨rfl, rfl⟩ | ⟨rfl, rfl⟩ <;> exact congrArg (·, _) (BitVec.setWidth_setWidth_of_le _ (by decide))

/-- The aligner's exponent: 0 for what has none, else the least (R72, R128). -/
theorem bxalExp_least (lim a : Nat) : let f := Ty.fmt .f32
    let n := (bxalExp lim a).1
    let least := fun (n : Nat) => (roundZ .rne ⟨false, (f.dy a).m, (f.dy a).e + 133 - (n : Int)⟩).natAbs ≤ lim
    n < 256 ∧ (f.isNan a = true ∨ f.isInf a = true ∨ f.isZero a = true → n = 0) ∧
      (f.isNan a = false → f.isInf a = false → f.isZero a = false → (∀ m, m < n → ¬ least m) ∧ (least 255 → least n)) := by
  intro f n least
  obtain ⟨hlt, hmin⟩ := bxExp_least lim (f.dy a)
  have hn : n = if f.isNan a || f.isInf a || f.isZero a then 0 else bxExp lim (f.dy a) := bxalExp_fst lim a
  rw [hn]
  refine ⟨by split <;> omega, fun h => if_pos (by simpa [or_assoc] using h), fun h1 h2 h3 => ?_⟩
  rw [if_neg (by simp [h1, h2, h3])]
  exact hmin

/-- Settles O11: each row writes what its equation above says. -/
theorem conversions : Obligations.Conversions := by
  intro s b t th h dt st rm sat d p q f g near off toInt satIf toFlt
  refine ⟨fun rd => ?_, fun rd => ?_, fun rd => ?_, fun rd => ?_, fun rd => ?_, fun rd op lim ho => ?_, fun rd => ?_⟩
  · split
    · rename_i hn
      exact ends_conv1 rd rfl (lowWord_natOut (fcvtV_nan hn))
    · rename_i hn
      split
      · rename_i hi
        exact ends_conv1 rd rfl (lowWord_natOut (fcvtV_inf hn hi))
      · rename_i hi
        exact ends_conv1 rd rfl (lowWord_natOut (fcvtV_finite hn hi))
  · exact ends_alu rfl rd rfl rfl (congrArg (fun v : Int × Bool => satIf _ v.2 (wrVal s _ dt.is64 d (wrInt dt v.1))) (toIntV_eq ..))
  · exact ends_alu rfl rd rfl rfl (congrArg (putWord s _ d · _) (BitVec.setWidth_ofNat_of_le (by decide) _))
  · refine ⟨ends_conv2_one rd rfl ((tcvtV_t5_s32 ..).trans (by rw [clamp_eq])), ends_conv2_one rd rfl ((tcvtV_t11_s32 ..).trans (by rw [clamp_eq])),
      ends_conv2_one rd rfl ((tcvtV_s32_t5 ..).trans (by rw [t5Value_eq])), ends_conv2_one rd rfl (tcvtV_s32_t11 ..),
      ⟨ends_conv2_one rd rfl ((tcvtV_f32_t5 ..).trans (by rw [t5Value_eq])), ends_conv2_one rd rfl (tcvtV_f32_t11 ..)⟩, fun hst => ?_⟩
    subst hst
    have hp : ∀ e, pat s e h .f32 p = (rdWord s e h p).toNat := fun e => Nat.mod_eq_of_lt (rdWord s e h p).isLt
    refine ⟨ends_conv2_one rd rfl ((tcvtV_t5_f32 ..).trans ?_), ends_conv2_one rd rfl ((tcvtV_t11_f32 ..).trans ?_)⟩
    · rw [hp, toIntV_eq]
    · rw [hp, toIntV_eq]
  · refine ⟨ends_conv2 rd rfl ((tcvtV_t1_s8 ..).trans ?_), ends_conv2 rd rfl (tcvtV_s8_t1 ..)⟩
    simp only [clamp_eq, Bool.or_assoc]
    rfl
  · refine ⟨_, ends_conv2_one rd rfl ?_, bxalExp_least lim _⟩
    rw [bxalV_exp ho]
    exact lowWord_natOut (Prod.ext rfl (bxalExp_sat ..))
  · refine ⟨fun op lim ho => ?_, ?_⟩
    · split
      · rename_i hn
        refine ends_conv2 rd rfl ((bxalV_man ho ..).trans ?_)
        rw [bxalMan, if_pos hn]
        rfl
      · rename_i hn
        split
        · rename_i hi
          refine ends_conv2 rd rfl ((bxalV_man ho ..).trans ?_)
          rw [bxalMan, if_neg hn, if_pos hi]
        · rename_i hi
          refine ends_conv2 rd rfl ((bxalV_man ho ..).trans ?_)
          rw [bxalMan, if_neg hn, if_neg hi, clamp_eq]
    · exact ends_conv2 rd rfl (lowWord_natOut rfl)

end Sys2Proof.Machine
end

section
/-! SETTLED. O22 fails: of the threads that load into a y register, the active member with the lowest `gslot` alone writes it (R25), and an
operation keeps whether it is that member's (`Op.low`). The statement has every completion write. -/
namespace Sys2Proof.Machine

/-- The load of the member in slot 1 into y0, its value fixed; the member in slot 0, lower and active, has the write (R25). -/
def higherLoad : Op :=
  { id := 1, tid := 1, cls := .loads, pc := 0, low := false, body := .load .l 0 4 .b32 (.y 0) .rlx .core (some [1, 0, 0, 0]) }

/-- The member in slot 1 of group 0. -/
def higherThread : Thread := { pc := 0x10000, quota := 16, grp := some (0, 1) }

/-- A group of two on core 0, with y0 at 0, whose lower member's load has completed. -/
def higherState : State :=
  { cores := [(0, { Core.init 0 with ctx := {
      threads := [(0, { pc := 0x10000, quota := 16, grp := some (0, 0) }), (1, higherThread)]
      groups := [(0, { key := 1, want := 2, slice := 2, formed := true, mem := [(0, 0), (1, 1)] })]
      ops := [higherLoad], nextOp := 2 } })] }

/-- A y register of a group, where the group is there. -/
def yReg (s : State) (c g n : Nat) : Option Word := (s.group? c g).map fun gr => gr.y.get 0 n

/-- The load completes and y0 stays. -/
theorem higherState_y0 : ∃ w, exec (.loadComplete 0 1) higherState = .next w ∧ yReg w 0 0 0 = some 0 := ⟨_, rfl, by decide +kernel⟩

theorem yReg_finishOp (s : State) (c id g n : Nat) : yReg (finishOp s c id) c g n = yReg s c g n := by
  unfold yReg finishOp
  simp [State.group?]

/-- A y register that a member writes holds the value, or its group is not there. -/
theorem yReg_wrY {s : State} {e : Env} {th : Thread} {g : Nat × Nat} (h : s.thr? e.c e.t = some th) (hg : th.grp = some g) (n : Nat) (v : Word) :
    yReg (wrY s e n v) e.c g.1 n = (s.group? e.c g.1).map fun _ => v := by
  unfold yReg
  cases hr : s.group? e.c g.1 with
  | none => simp [wrY, State.thr_of h, hg, State.modGroup, hr]
  | some gr => rw [wrY_group? h hg hr]; simp [Map.get_set]

/-- Refutes O22: at `higherState` the load completes without a write, and the statement's completion leaves 1 in y0. -/
theorem not_loadsComplete : ¬ Obligations.LoadsComplete := fun h => by
  obtain ⟨-, hdone, -⟩ := h higherState 0 1 higherLoad .l 0 4 .b32 (.y 0) .rlx .core (some [1, 0, 0, 0]) rfl rfl rfl rfl
  obtain ⟨v, hthr, -, hv⟩ := hdone (by decide) (by decide)
  obtain ⟨w, hw, hy⟩ := higherState_y0
  rw [hw, if_neg (by decide), if_neg (by decide)] at hv
  obtain rfl := Host.Outcome.next.inj hv
  rw [yReg_finishOp] at hy
  have ht : v.thr? 0 1 = some higherThread := (hthr 0 1).trans rfl
  have hwrite : yReg (wrY v { c := 0, t := 1 } 0 1) 0 0 0 = (v.group? 0 0).map fun _ => 1 := yReg_wrY (g := (0, 1)) ht rfl 0 1
  have hsame : yReg (wrY v { c := 0, t := 1 } 0 1) 0 0 0 = some 0 := hy
  rw [hwrite] at hsame
  cases hg : v.group? 0 0 with
  | none => rw [hg] at hsame; cases hsame
  | some gr => rw [hg] at hsame; cases hsame

end Sys2Proof.Machine
end

section
/-! SETTLED. O30: the collectives. First what the bundle of a collective and its writes leave of each member and of the group. -/
namespace Sys2Proof.Machine

/-! ### A bundle of several threads (R33, R167, R170) -/

theorem Team.congr {s : State} {b : Bundle} {lv : Level} {u v : Uses} {h : Hdr} (T : Team s b lv u h) (hs : v.srcs = u.srcs)
    (hd : v.dsts = u.dsts) : Team s b lv v h := by
  obtain ⟨focus, hne, hnd, hr⟩ := T
  refine ⟨focus, hne, hnd, fun t ht => ?_⟩
  obtain ⟨th, h1, h2, h3, h4, h5, h6⟩ := hr t ht
  refine ⟨th, h1, h2, h3, ?_, h5, ?_⟩
  · rw [Uses.avail, hs, hd]; exact h4
  · rw [srcMarked, hs]; exact h6

/-- A fold that appends one entry for each element, beside what it began with. -/
theorem foldl_append {α β : Type} (g : List (α × β) → α → β) (l : List α) : ∀ acc : List (α × β),
    ∃ r : List (α × β), l.foldl (fun a x => a ++ [(x, g a x)]) acc = acc ++ r ∧ r.map (·.1) = l := by
  induction l with
  | nil => exact fun acc => ⟨[], by simp⟩
  | cons x l ih =>
    intro acc
    obtain ⟨r, hr, hm⟩ := ih (acc ++ [(x, g acc x)])
    exact ⟨(x, g acc x) :: r, by simp [hr], by simp [hm]⟩
theorem map_fst_foldl_append {α β : Type} (g : List (α × β) → α → β) (l : List α) :
    (l.foldl (fun a x => a ++ [(x, g a x)]) []).map (·.1) = l := by
  obtain ⟨r, hr, hm⟩ := foldl_append g l []
  rw [hr]
  exact hm
theorem headD_foldl_append {α β : Type} (g : List (α × β) → α → β) (x : α) (l : List α) (y : β) :
    (((x :: l).foldl (fun a x => a ++ [(x, g a x)]) []).map (·.2)).headD y = g [] x := by
  obtain ⟨r, hr, -⟩ := foldl_append g l [(x, g [] x)]
  rw [List.foldl_cons, List.nil_append, hr]
  rfl

/-- What follows an instruction that completes, for one member. -/
def endMember (c : Nat) (u : Uses) (s : State) (p : Nat × Nat) : State :=
  advanceNext (noteResults (latchCcnt u s c p.1 p.2) c p.1 u p.2) c p.1

/-- An instruction that acts once for a bundle all of whose threads pass its checks. -/
theorem perBundle_team {s v : State} {b : Bundle} {lv : Level} {u : Uses} {h : Hdr} {act : Env → DWord → List Nat → State → Res}
    (T : Team s b lv u h) (hu : u.engine = false)
    (ha : act (teamEnv s b u h (b.tids.headD 0)) (s.thr b.core (b.tids.headD 0)).pc b.tids s = .done v) :
    ∃ (l : List (Nat × Nat)) (n : Nat), l.map (·.1) = b.tids ∧ perBundle lv u h act s = occupy (l.foldl (endMember b.core u) v) b n := by
  obtain ⟨focus, hne, hnd, hr⟩ := T
  have hlive : b.tids.filter (fun t => (s.thr? b.core t).isSome && (s.thr b.core t).park.isNone) = b.tids := by
    refine List.filter_eq_self.2 fun t ht => ?_
    obtain ⟨th, h1, h2, -⟩ := hr t ht
    simp [h1, State.thr_of h1, h2]
  have hok : ∀ t ∈ b.tids, guardOk s b.core t h = true := fun t ht => by
    obtain ⟨th, -, -, -, -, h5, -⟩ := hr t ht
    exact h5
  have hpre : ∀ t ∈ b.tids, preCheck s b.core t lv u = none := fun t ht => by
    obtain ⟨th, h1, -, h3, h4, -, -⟩ := hr t ht
    simp [preCheck, State.thr_of h1, h4, Nat.not_lt.2 h3]
  have hclean : ∀ t ∈ b.tids, srcMarked s b.core t u = false := fun t ht => by
    obtain ⟨th, -, -, -, -, -, h6⟩ := hr t ht
    exact h6
  have hbad : bundleFaults s b.core lv u h b.tids = [] := by
    refine List.filterMap_eq_nil_iff.2 fun t ht => ?_
    simp [hu, hpre t ht, hclean t ht]
  have hact : b.tids.filter (guardOk s b.core · h) = b.tids := List.filter_eq_self.2 hok
  have hskip : b.tids.foldl (fun s t => if guardOk s b.core t h then s else advanceNext s b.core t) s = s := by
    have : ∀ l : List Nat, (∀ t ∈ l, guardOk s b.core t h = true) →
        l.foldl (fun s t => if guardOk s b.core t h then s else advanceNext s b.core t) s = s := by
      intro l hl
      induction l with
      | nil => rfl
      | cons t l ih => rw [List.foldl_cons, if_pos (hl t (.head _))]; exact ih fun t ht => hl t (.tail _ ht)
    exact this _ hok
  cases hts : b.tids with
  | nil => exact absurd hts hne
  | cons t0 rest =>
    simp only [teamEnv, hts, List.headD_cons] at ha
    rw [hts] at hact hbad hlive hskip
    simp only [perBundle, focus, hts, hlive, hbad, List.any_nil, Bool.not_false, List.filter_true, hskip, hact]
    simp only [headD_foldl_append, List.getLast?_nil, ha]
    exact ⟨_, _, map_fst_foldl_append .., rfl⟩

/-! ### What a collective can change of a thread and a group -/

/-- What a collective leaves to see of a thread: where it goes on, whether it waits, its registers and its predicates, and its group. -/
structure Seen where
  pc    : DWord
  blk   : Blk
  regs  : Map Word
  preds : BitVec 8
  grp   : Option (Nat × Nat)

def Thread.seen (th : Thread) : Seen := { pc := th.pc, blk := th.blk, regs := th.regs, preds := th.preds, grp := th.grp }
def State.seen? (s : State) (c t : Nat) : Option Seen := (s.thr? c t).map Thread.seen
/-- The y registers of a group, and its SAT bit. -/
def State.ys? (s : State) (c g : Nat) : Option (Map Word) := (s.group? c g).map (·.y)
def State.sat? (s : State) (c g : Nat) : Option Bool := (s.group? c g).map (·.sat)

/-- The thread after the instruction: at the next one. -/
def Seen.next (x : Seen) : Seen := { x with pc := nextPc x.pc, blk := .run }
/-- A value in the destination; a y register is the group's. -/
def Seen.write (wd : Bool) (d : Dst) (v : DWord) (x : Seen) : Seen :=
  match d with
  | .x n => { x with regs := if wd then (x.regs.set 0 n.toNat (v.setWidth 32)).set 0 (n.toNat + 1) (v.extractLsb' 32 32)
                             else x.regs.set 0 n.toNat (v.setWidth 32) }
  | _ => x
/-- A predicate that is not k0. -/
def Seen.mark (k : Pred) (p : Bool) (x : Seen) : Seen :=
  { x with preds := if p then x.preds ||| (1#8 <<< k.toNat) else x.preds &&& ~~~(1#8 <<< k.toNat) }

theorem seen?_modThr (s : State) (c t c' t' : Nat) (f : Thread → Thread) : (s.modThr c t f).seen? c' t' =
    if c' = c ∧ t' = t then (s.thr? c t).map fun th => (f th).seen else s.seen? c' t' := by
  simp only [State.seen?, State.thr?_modThr]
  split <;> simp [Function.comp_def]

/-- A change of a thread that the view does not show. -/
theorem seen?_modThr_same {f : Thread → Thread} (hf : ∀ th, (f th).seen = th.seen) (s : State) (c t c' t' : Nat) :
    (s.modThr c t f).seen? c' t' = s.seen? c' t' := by
  rw [seen?_modThr]
  split
  · rename_i h; obtain ⟨rfl, rfl⟩ := h; simp [State.seen?, hf]
  · rfl
/-- A change of a thread that the view shows as `g`. -/
theorem seen?_modThr_as {f : Thread → Thread} {g : Seen → Seen} (hf : ∀ th, (f th).seen = g th.seen) (s : State) (c t c' t' : Nat) :
    (s.modThr c t f).seen? c' t' = if c' = c ∧ t' = t then (s.seen? c t).map g else s.seen? c' t' := by
  rw [seen?_modThr]
  split
  · simp [State.seen?, hf, Function.comp_def]
  · rfl

@[simp] theorem ys?_modThr (s : State) (c t c' g : Nat) (f : Thread → Thread) : (s.modThr c t f).ys? c' g = s.ys? c' g := by simp [State.ys?]
@[simp] theorem sat?_modThr (s : State) (c t c' g : Nat) (f : Thread → Thread) : (s.modThr c t f).sat? c' g = s.sat? c' g := by simp [State.sat?]
@[simp] theorem seen?_modGroup (s : State) (c g c' t : Nat) (f : Group → Group) : (s.modGroup c g f).seen? c' t = s.seen? c' t := by
  simp [State.seen?]
@[simp] theorem seen?_clearMarks (s : State) (c c' t : Nat) (p : ErrAt → Bool) : (clearMarks s c p).seen? c' t = s.seen? c' t := by
  simp [State.seen?]
@[simp] theorem ys?_clearMarks (s : State) (c c' g : Nat) (p : ErrAt → Bool) : (clearMarks s c p).ys? c' g = s.ys? c' g := by
  simp [State.ys?]
@[simp] theorem sat?_clearMarks (s : State) (c c' g : Nat) (p : ErrAt → Bool) : (clearMarks s c p).sat? c' g = s.sat? c' g := by
  simp [State.sat?]

theorem group?_modGroup (s : State) (c g c' g' : Nat) (f : Group → Group) :
    (s.modGroup c g f).group? c' g' = if c' = c ∧ g' = g then (s.group? c g).map f else s.group? c' g' := by
  unfold State.modGroup
  cases h : s.group? c g with
  | none =>
    dsimp only
    split
    · rename_i hc; obtain ⟨rfl, rfl⟩ := hc; exact h
    · rfl
  | some gr =>
    simp only [State.group?, State.ctx_modCtx] at h ⊢
    by_cases hc : c' = c
    · subst hc; simp [Map.look_put]
    · simp [hc]

@[simp] theorem seen?_setSatIf (q : Bool) (s : State) (c t c' t' : Nat) : (setSatIf q s c t).seen? c' t' = s.seen? c' t' := by
  unfold setSatIf setSat
  split
  · split
    · simp
    · exact seen?_modThr_same (f := fun th => { th with sat := true }) (fun _ => rfl) ..
  · rfl
@[simp] theorem ys?_setSatIf (q : Bool) (s : State) (c t c' g : Nat) : (setSatIf q s c t).ys? c' g = s.ys? c' g := by
  unfold setSatIf setSat
  split
  · split
    · rename_i g' _
      simp only [State.ys?, group?_modGroup]
      split
      · rename_i h; obtain ⟨rfl, rfl⟩ := h; simp [Function.comp_def]
      · rfl
    · simp
  · rfl
theorem sat?_setSatIf {s : State} {c t g sl : Nat} {x : Seen} (h : s.seen? c t = some x) (hg : x.grp = some (g, sl)) (q : Bool) :
    (setSatIf q s c t).sat? c g = (s.sat? c g).map (· || q) := by
  cases q with
  | false => simp [setSatIf]
  | true =>
    have hgrp : (s.thr c t).grp = some (g, sl) := by
      obtain ⟨th, hth, rfl⟩ := Option.map_eq_some_iff.1 h
      rw [State.thr_of hth]; exact hg
    simp [setSatIf, setSat, hgrp, State.sat?, group?_modGroup, Function.comp_def]

/-! ### Writes of a member (R24 to R26) -/

theorem seen?_wrX (s : State) (e : Env) (n : Nat) (v : Word) (c t : Nat) : (wrX s e n v).seen? c t =
    if c = e.c ∧ t = e.t then (s.seen? e.c e.t).map (fun x => { x with regs := x.regs.set 0 n v }) else s.seen? c t := by
  rw [wrX, seen?_clearMarks]
  exact seen?_modThr_as (fun _ => rfl) ..
@[simp] theorem seen?_wrY (s : State) (e : Env) (n : Nat) (v : Word) (c t : Nat) : (wrY s e n v).seen? c t = s.seen? c t := by
  simp [State.seen?]
@[simp] theorem ys?_wrX (s : State) (e : Env) (n : Nat) (v : Word) (c g : Nat) : (wrX s e n v).ys? c g = s.ys? c g := by simp [State.ys?]
@[simp] theorem sat?_wrX (s : State) (e : Env) (n : Nat) (v : Word) (c g : Nat) : (wrX s e n v).sat? c g = s.sat? c g := by simp [State.sat?]
@[simp] theorem sat?_wrY (s : State) (e : Env) (n : Nat) (v : Word) (c g : Nat) : (wrY s e n v).sat? c g = s.sat? c g := by
  unfold wrY
  split
  · rw [sat?_clearMarks]
    simp only [State.sat?, group?_modGroup]
    split
    · rename_i h; obtain ⟨rfl, rfl⟩ := h; simp [Function.comp_def]
    · rfl
  · rfl

theorem seen?_wrVal (s : State) (e : Env) (wd : Bool) (d : Dst) (v : DWord) (c t : Nat) : (wrVal s e wd d v).seen? c t =
    if c = e.c ∧ t = e.t then (s.seen? e.c e.t).map (Seen.write wd d v) else s.seen? c t := by
  cases d with
  | x n =>
    cases wd with
    | false => exact seen?_wrX ..
    | true =>
      simp only [wrVal, wrPair, wrWord, ↓reduceIte, seen?_wrX]
      split
      · simp only [and_self, ↓reduceIte, Option.map_map]
        rfl
      · rfl
  | y n =>
    have hid : (Seen.write wd (.y n) v) = id := rfl
    have h : (wrVal s e wd (.y n) v).seen? c t = s.seen? c t := by
      cases hl : e.low <;> cases wd <;> simp [wrVal, wrPair, wrWord, hl]
    rw [h, hid]
    split
    · rename_i h; obtain ⟨rfl, rfl⟩ := h; simp
    · rfl
  | zero =>
    have hid : (Seen.write wd .zero v) = id := rfl
    have h : wrVal s e wd .zero v = s := by cases wd <;> rfl
    rw [h, hid]
    split
    · rename_i h; obtain ⟨rfl, rfl⟩ := h; simp
    · rfl
/-- A member that is not the lowest active one writes no y register (R25). -/
theorem ys?_wrVal_high {e : Env} (he : e.low = false) (s : State) (wd : Bool) (d : Dst) (v : DWord) (c g : Nat) :
    (wrVal s e wd d v).ys? c g = s.ys? c g := by
  cases d <;> cases wd <;> simp [wrVal, wrPair, wrWord, he]
@[simp] theorem sat?_wrVal (s : State) (e : Env) (wd : Bool) (d : Dst) (v : DWord) (c g : Nat) : (wrVal s e wd d v).sat? c g = s.sat? c g := by
  cases d with
  | x n => cases wd <;> simp [wrVal, wrPair, wrWord]
  | y n => cases hl : e.low <;> cases wd <;> simp [wrVal, wrPair, wrWord, hl]
  | zero => cases wd <;> rfl

theorem seen?_wrPred {k : Pred} (hk : k ≠ 0) (s : State) (e : Env) (p : Bool) (c t : Nat) : (wrPred s e k p).seen? c t =
    if c = e.c ∧ t = e.t then (s.seen? e.c e.t).map (Seen.mark k p) else s.seen? c t := by
  rw [wrPred, if_neg (by simpa using hk)]
  exact seen?_modThr_as (fun _ => rfl) ..
@[simp] theorem ys?_wrPred (s : State) (e : Env) (k : Pred) (p : Bool) (c g : Nat) : (wrPred s e k p).ys? c g = s.ys? c g := by
  unfold wrPred; split <;> simp

/-! ### What a completed instruction leaves of its members -/

theorem seen?_modCtx {s : State} {c : Nat} {f : Ctx → Ctx} (hf : (f (s.ctx c)).threads = (s.ctx c).threads) (c' t : Nat) :
    (s.modCtx c f).seen? c' t = s.seen? c' t := by
  simp only [State.seen?, State.thr?, State.ctx_modCtx]
  split
  · rename_i h; rw [h, hf]
  · rfl

@[simp] theorem seen?_latchCcnt (u : Uses) (s : State) (c t k c' t' : Nat) : (latchCcnt u s c t k).seen? c' t' = s.seen? c' t' := by
  unfold latchCcnt
  split
  · exact seen?_modThr_same
      (f := fun th => { th with ccnth := ((s.core c).ccnt + BitVec.ofNat 64 k).extractLsb' 32 32 }) (fun _ => rfl) ..
  · rfl
@[simp] theorem seen?_noteResults (s : State) (c t : Nat) (u : Uses) (k c' t' : Nat) :
    (noteResults s c t u k).seen? c' t' = s.seen? c' t' :=
  seen?_modThr_same (f := fun th => { th with
    late := u.writes.foldl (fun m n => m.set 0 n (if u.lat ≤ 1 then 0 else nowOf s c + k + u.lat)) th.late }) (fun _ => rfl) ..

theorem seen?_advanceNext (s : State) (c t c' t' : Nat) : (advanceNext s c t).seen? c' t' =
    if c' = c ∧ t' = t then (s.seen? c t).map Seen.next else s.seen? c' t' := by
  refine (seen?_modCtx rfl c' t').trans ?_
  rw [seen?_modThr]
  split
  · cases h : s.thr? c t with
    | none => simp [State.seen?, h]
    | some th => simp [State.seen?, h, State.thr_of h, Thread.seen, Seen.next]
  · rfl

theorem seen?_endMember (c : Nat) (u : Uses) (s : State) (p : Nat × Nat) (t : Nat) : (endMember c u s p).seen? c t =
    if t = p.1 then (s.seen? c p.1).map Seen.next else s.seen? c t := by
  simp [endMember, seen?_advanceNext]
theorem group?_modCtx {s : State} {c : Nat} {f : Ctx → Ctx} (hf : (f (s.ctx c)).groups = (s.ctx c).groups) (c' g : Nat) :
    (s.modCtx c f).group? c' g = s.group? c' g := by
  simp only [State.group?, State.ctx_modCtx]
  split
  · rename_i h; rw [h, hf]
  · rfl
@[simp] theorem group?_endMember (c : Nat) (u : Uses) (s : State) (p : Nat × Nat) (c' g : Nat) :
    (endMember c u s p).group? c' g = s.group? c' g := by
  refine (group?_modCtx rfl c' g).trans ?_
  unfold noteResults latchCcnt
  split <;> simp

theorem seen?_foldl_endMember {c : Nat} {u : Uses} (t : Nat) (l : List (Nat × Nat)) : ∀ {s : State}, (l.map (·.1)).Nodup →
    (l.foldl (endMember c u) s).seen? c t = if t ∈ l.map (·.1) then (s.seen? c t).map Seen.next else s.seen? c t := by
  induction l with
  | nil => intro s _; simp
  | cons p l ih =>
    intro s hn
    obtain ⟨hp, hn⟩ := List.nodup_cons.1 hn
    rw [List.foldl_cons, ih hn, seen?_endMember]
    by_cases h : t = p.1
    · subst h
      rw [if_neg hp, if_pos rfl, if_pos (by simp)]
    · rw [if_neg h]
      simp only [List.map_cons, List.mem_cons, h, false_or]
theorem group?_foldl_endMember {c : Nat} {u : Uses} (l : List (Nat × Nat)) (s : State) (c' g : Nat) :
    (l.foldl (endMember c u) s).group? c' g = s.group? c' g :=
  foldl_keeps (g := fun s : State => s.group? c' g) (fun s p => group?_endMember c u s p c' g) l s

@[simp] theorem seen?_occupy (s : State) (b : Bundle) (n c t : Nat) : (occupy s b n).seen? c t = s.seen? c t := by
  obtain ⟨q, h⟩ := thr_occupy s b n c t
  rw [State.seen?, h, Option.map_map]
  rfl

theorem group?_modSched (s : State) (c c' g : Nat) (u : UnitId) (f : Sched → Sched) :
    ∃ q : Group → Sched, (modSched s c u f).group? c' g = (s.group? c' g).map fun gr => { gr with sched := q gr } := by
  cases u with
  | thr t => exact ⟨(·.sched), by simp [modSched]⟩
  | grp g' =>
    simp only [modSched, group?_modGroup]
    by_cases h : c' = c ∧ g = g'
    · obtain ⟨rfl, rfl⟩ := h
      exact ⟨fun gr => f gr.sched, if_pos ⟨rfl, rfl⟩⟩
    · exact ⟨(·.sched), by rw [if_neg h]; simp⟩
theorem group?_occupy (s : State) (b : Bundle) (n c g : Nat) :
    ∃ q : Group → Sched, (occupy s b n).group? c g = (s.group? c g).map fun gr => { gr with sched := q gr } := by
  obtain ⟨q, h⟩ := group?_modSched s b.core c g b.unit fun q => { q with busy := nowOf s b.core + max 1 n }
  refine ⟨q, h ▸ ?_⟩
  simp only [occupy]
  split <;> simp
@[simp] theorem ys?_occupy (s : State) (b : Bundle) (n c g : Nat) : (occupy s b n).ys? c g = s.ys? c g := by
  obtain ⟨q, h⟩ := group?_occupy s b n c g
  simp [State.ys?, h, Function.comp_def]
@[simp] theorem sat?_occupy (s : State) (b : Bundle) (n c g : Nat) : (occupy s b n).sat? c g = s.sat? c g := by
  obtain ⟨q, h⟩ := group?_occupy s b n c g
  simp [State.sat?, h, Function.comp_def]

/-! ### All members written, each once (R25, R170) -/

/-- The writes of a collective: each member's value in turn, the first member being the lowest active one. -/
def writeAll {β : Type} (wr : State → Env → β → State) (e : Env) (s : State) (l : List (Nat × β)) : State :=
  (l.foldl (fun (p : State × Bool) v => (wr p.1 { e with t := v.1, low := p.2 } v.2, false)) (s, true)).1

section
variable {β : Type} {wr : State → Env → β → State} {upd : β → Seen → Seen} {c : Nat} {e : Env}

theorem seen?_foldl_wr (hw : ∀ s e x t, e.c = c → (wr s e x).seen? c t = if t = e.t then (s.seen? c t).map (upd x) else s.seen? c t)
    (he : e.c = c) (f : Nat → β) (t : Nat) (l : List Nat) : ∀ {p : State × Bool}, l.Nodup →
    (((l.map fun t => (t, f t)).foldl (fun (p : State × Bool) v => (wr p.1 { e with t := v.1, low := p.2 } v.2, false)) p).1).seen? c t =
      if t ∈ l then (p.1.seen? c t).map (upd (f t)) else p.1.seen? c t := by
  induction l with
  | nil => intro p _; simp
  | cons a l ih =>
    intro p hn
    obtain ⟨ha, hn⟩ := List.nodup_cons.1 hn
    rw [List.map_cons, List.foldl_cons, ih hn, hw p.1 { e with t := a, low := p.2 } (f a) t he]
    by_cases h : t = a
    · subst h
      rw [if_neg ha, if_pos rfl, if_pos (.head _)]
    · rw [if_neg h]
      simp only [List.mem_cons, h, false_or]

theorem seen?_writeAll (hw : ∀ s e x t, e.c = c → (wr s e x).seen? c t = if t = e.t then (s.seen? c t).map (upd x) else s.seen? c t)
    (he : e.c = c) (f : Nat → β) {l : List Nat} (hn : l.Nodup) {t : Nat} (ht : t ∈ l) (s : State) :
    (writeAll wr e s (l.map fun t => (t, f t))).seen? c t = (s.seen? c t).map (upd (f t)) := by
  rw [writeAll, seen?_foldl_wr hw he f t l hn, if_pos ht]

theorem ys?_writeAll (hy : ∀ s e x g, e.c = c → e.low = false → (wr s e x).ys? c g = s.ys? c g) (he : e.c = c) (f : Nat → β) (a : Nat)
    (l : List Nat) (s : State) (g : Nat) :
    (writeAll wr e s ((a :: l).map fun t => (t, f t))).ys? c g = (wr s { e with t := a, low := true } (f a)).ys? c g := by
  have : ∀ (l : List (Nat × β)) (s : State),
      ((l.foldl (fun (p : State × Bool) v => (wr p.1 { e with t := v.1, low := p.2 } v.2, false)) (s, false)).1).ys? c g = s.ys? c g := by
    intro l
    induction l with
    | nil => exact fun _ => rfl
    | cons v l ih => exact fun s => (ih _).trans (hy s { e with t := v.1, low := false } v.2 g he rfl)
  exact this _ _
end

end Sys2Proof.Machine
end

section
/-! SETTLED. O30, the frame: each member of the bundle is dealt its value; the slices of a group; masks with a bit for each place. -/
namespace Sys2Proof.Machine

/-! ### A collective of a bundle (R25, R170) -/

section
variable {β : Type} {wr : State → Env → β → State} {upd : β → Seen → Seen} {F : Nat → β} {s : State} {b : Bundle} {lv : Level} {u : Uses}
  {h : Hdr} {act : Env → DWord → List Nat → State → Res}

/-- Every member is dealt its value and goes on; the y registers and the SAT bit of each group are as the writes leave them. -/
theorem perBundle_writeAll (T : Team s b lv u h) (hu : u.engine = false)
    (ha : act (teamEnv s b u h (b.tids.headD 0)) (s.thr b.core (b.tids.headD 0)).pc b.tids s =
      .done (writeAll wr (teamEnv s b u h (b.tids.headD 0)) s (b.tids.map fun t => (t, F t))))
    (hw : ∀ s e x t, e.c = b.core → (wr s e x).seen? b.core t = if t = e.t then (s.seen? b.core t).map (upd x) else s.seen? b.core t)
    (hy : ∀ s e x g, e.c = b.core → e.low = false → (wr s e x).ys? b.core g = s.ys? b.core g) :
    (∀ t ∈ b.tids, (perBundle lv u h act s).seen? b.core t = (s.seen? b.core t).map fun q => (upd (F t) q).next) ∧
    (∀ g, (perBundle lv u h act s).ys? b.core g = (wr s (teamEnv s b u h (b.tids.headD 0)) (F (b.tids.headD 0))).ys? b.core g) ∧
    ∀ g, (perBundle lv u h act s).sat? b.core g =
      (writeAll wr (teamEnv s b u h (b.tids.headD 0)) s (b.tids.map fun t => (t, F t))).sat? b.core g := by
  obtain ⟨l, n, hl, hx⟩ := perBundle_team T hu ha
  have hn : (l.map (·.1)).Nodup := hl ▸ T.distinct
  rw [hx]
  refine ⟨fun t ht => ?_, fun g => ?_, fun g => ?_⟩
  · rw [seen?_occupy, seen?_foldl_endMember t l hn, hl, if_pos ht, seen?_writeAll hw rfl F T.distinct ht, Option.map_map]
    rfl
  · rw [ys?_occupy, State.ys?, group?_foldl_endMember]
    cases hts : b.tids with
    | nil => exact absurd hts T.some_
    | cons a r => exact ys?_writeAll hy rfl F a r s g
  · rw [sat?_occupy, State.sat?, group?_foldl_endMember]
    rfl

/-- A value for each member, in its destination (R25). -/
theorem got_of_dealt {x : State} {e : Env} {wd : Bool} {d : Dst} {F : Nat → DWord} (T : Team s b lv u h) (he : e = teamEnv s b u h (b.tids.headD 0))
    (hs : ∀ t ∈ b.tids, x.seen? b.core t = (s.seen? b.core t).map fun q => (q.write wd d (F t)).next)
    (hy : ∀ g, x.ys? b.core g = (wrVal s e wd d (F (b.tids.headD 0))).ys? b.core g) : Got s x b wd d F := by
  refine ⟨fun t ht => ?_, fun g => ?_⟩
  · obtain ⟨th, hth, -⟩ := T.ready t ht
    have h1 := hs t ht
    have h2 := seen?_wrVal s { c := b.core, t := t } wd d (F t) b.core t
    rw [if_pos ⟨rfl, rfl⟩] at h2
    simp only [State.seen?, hth, Option.map_some, Option.map_eq_some_iff] at h1 h2
    obtain ⟨th1, hth1, h1⟩ := h1
    obtain ⟨th2, hth2, h2⟩ := h2
    rw [State.thr_of hth, State.thr_of hth1, State.thr_of hth2]
    refine ⟨(congrArg Seen.pc h1).trans ?_, (congrArg Seen.blk h1).trans ?_, (congrArg Seen.preds h1).trans ?_,
      (congrArg Seen.regs h1).trans (congrArg Seen.regs h2).symm⟩ <;> cases d <;> rfl
  · subst he
    refine (hy g).trans ?_
    cases d <;> cases wd <;> rfl
end

/-! ### Slices (R160, R170) -/

/-- The active member in place `i` of the slice of `t`. -/
def seat (b : Bundle) (slot : Nat → Nat) (w t i : Nat) : Option Nat := b.tids.find? fun v => slot v == slot t / w * w + i

section
variable {s : State} {b : Bundle} {g w : Nat} {slot : Nat → Nat}

theorem sliceOf_inGroup (G : InGroup s b g w slot) {t : Nat} (ht : t ∈ b.tids) :
    sliceOf s b.core b.tids t = ((List.range w).map (seat b slot w t), slot t % w) := by
  obtain ⟨gr, hg, hsl⟩ := G.group
  simp only [sliceOf, G.member t ht, hg, Option.map_some, Option.getD_some, hsl]
  refine Prod.ext (List.map_congr_left fun j _ => List.find?_congr fun v hv => ?_) rfl
  rw [G.member v hv]
  simp [Bool.beq_eq_decide_eq]

theorem seat_eq_some (G : InGroup s b g w slot) {t i v : Nat} :
    seat b slot w t i = some v ↔ v ∈ b.tids ∧ slot v = slot t / w * w + i := by
  constructor
  · intro h
    exact ⟨List.mem_of_find?_eq_some h, by simpa using List.find?_some h⟩
  · rintro ⟨hv, hs⟩
    cases h : seat b slot w t i with
    | none => exact absurd hs (by simpa using List.find?_eq_none.1 h v hv)
    | some v' =>
      have hs' : slot v' = slot t / w * w + i := by simpa using List.find?_some h
      rw [G.apart v' (List.mem_of_find?_eq_some h) v hv (hs'.trans hs.symm)]

/-- The members of a slice are those in its places. -/
theorem exists_seat (G : InGroup s b g w slot) {t v : Nat} :
    (∃ i < w, seat b slot w t i = some v) ↔ v ∈ b.tids ∧ slot v / w = slot t / w := by
  obtain ⟨hw, -⟩ := G.width
  simp only [seat_eq_some G]
  constructor
  · rintro ⟨i, hi, hv, hs⟩
    exact ⟨hv, by rw [hs, Nat.mul_comm, Nat.mul_add_div hw, Nat.div_eq_of_lt hi, Nat.add_zero]⟩
  · rintro ⟨hv, hs⟩
    exact ⟨slot v % w, Nat.mod_lt _ hw, hv, by rw [← hs, Nat.div_add_mod']⟩

theorem getD_seats (w : Nat) (f : Nat → Option Nat) (q : Nat) : ((List.range w).map f).getD q none = if q < w then f q else none := by
  by_cases hq : q < w <;> simp [List.getD_eq_getElem?_getD, hq]

end

/-! ### Masks (R170, R173) -/

/-- Bits that stand for a property of their place (R170, R173). -/
theorem testBit_mask (p : Nat → Bool) : ∀ n : Nat, let m := (List.range n).foldl (fun m i => if p i then m + 2 ^ i else m) 0
    m < 2 ^ n ∧ ∀ i, m.testBit i = (decide (i < n) && p i)
  | 0 => by simp
  | n + 1 => by
    obtain ⟨hlt, hb⟩ := testBit_mask p n
    simp only [List.range_succ, List.foldl_append, List.foldl_cons, List.foldl_nil]
    generalize (List.range n).foldl (fun m i => if p i then m + 2 ^ i else m) 0 = m at *
    have h2 : 2 ^ (n + 1) = 2 ^ n + 2 ^ n := by rw [Nat.pow_succ]; omega
    by_cases hp : p n
    · rw [if_pos hp]
      refine ⟨by omega, fun i => ?_⟩
      rcases Nat.lt_trichotomy i n with hi | rfl | hi
      · rw [Nat.add_comm, Nat.testBit_two_pow_add_gt hi, hb]
        simp [hi, Nat.lt_succ_of_lt hi]
      · rw [Nat.add_comm, Nat.testBit_two_pow_add_eq, hb]
        simp [hp]
      · rw [Nat.testBit_lt_two_pow (Nat.lt_of_lt_of_le (by omega : m + 2 ^ n < 2 ^ (n + 1)) (Nat.pow_le_pow_right (by omega) hi))]
        simp; omega
    · rw [if_neg hp]
      refine ⟨by omega, fun i => ?_⟩
      rw [hb]
      rcases Nat.lt_trichotomy i n with hi | rfl | hi
      · simp [hi, Nat.lt_succ_of_lt hi]
      · simp [hp]
      · have h1 : ¬ i < n := by omega
        have h2 : ¬ i < n + 1 := by omega
        simp [h1, h2]

/-- The mask of a slice, one bit for each place whose member has the property. -/
theorem getLsbD_slice {s : State} {b : Bundle} {g w : Nat} {slot : Nat → Nat} (G : InGroup s b g w slot) (t : Nat) (p : Nat → Bool) {i : Nat} (hi : i < 32) :
    (BitVec.ofNat 64 ((List.range w).foldl (fun m i => if (seat b slot w t i).any p then m + 2 ^ i else m) 0)).getLsbD i = true ↔
      i < w ∧ ∃ v, (v ∈ b.tids ∧ slot v = slot t / w * w + i) ∧ p v = true := by
  obtain ⟨-, hb⟩ := testBit_mask (fun i => (seat b slot w t i).any p) w
  have h64 : i < 64 := by omega
  rw [BitVec.getLsbD_ofNat, hb]
  simp only [h64, decide_true, Bool.true_and, Bool.and_eq_true, decide_eq_true_eq, Option.any_eq_true, seat_eq_some G]

end Sys2Proof.Machine
end

section
/-! SETTLED. O30, votes, shuffles and matches: what each gives a member, from the seats of its slice. -/
namespace Sys2Proof.Machine

section
variable {s : State} {b : Bundle} {u v : Uses} {h : Hdr} {g w : Nat} {slot : Nat → Nat} {f : State → Env → List (Option Nat) → Nat → DWord}

/-- What a collective of a group gives each member. -/
def dealt (s : State) (b : Bundle) (u : Uses) (h : Hdr) (slot : Nat → Nat) (w : Nat) (f : State → Env → List (Option Nat) → Nat → DWord)
    (t : Nat) : DWord := f s (teamEnv s b u h t) ((List.range w).map (seat b slot w t)) (slot t % w)

theorem map_slices {β : Type} (G : InGroup s b g w slot) (f : List (Option Nat) → Nat → Nat → β) :
    (b.tids.map fun t => let (sl, j) := sliceOf s b.core b.tids t; (t, f sl j t)) =
      b.tids.map fun t => (t, f ((List.range w).map (seat b slot w t)) (slot t % w) t) :=
  List.map_congr_left fun t ht => by rw [sliceOf_inGroup G ht]

theorem collective_dealt {wr : State → Env → DWord → State} {upd : DWord → Seen → Seen} (T : Team s b .app u h) (hu : u.engine = false)
    (G : InGroup s b g w slot)
    (hw : ∀ s e x t, e.c = b.core → (wr s e x).seen? b.core t = if t = e.t then (s.seen? b.core t).map (upd x) else s.seen? b.core t)
    (hy : ∀ s e x g, e.c = b.core → e.low = false → (wr s e x).ys? b.core g = s.ys? b.core g) :
    (∀ t ∈ b.tids, (collective u h f wr s).seen? b.core t = (s.seen? b.core t).map fun q => (upd (dealt s b u h slot w f t) q).next) ∧
    ∀ g, (collective u h f wr s).ys? b.core g =
      (wr s (teamEnv s b u h (b.tids.headD 0)) (dealt s b u h slot w f (b.tids.headD 0))).ys? b.core g := by
  obtain ⟨h1, h2, -⟩ := perBundle_writeAll (wr := wr) (F := dealt s b u h slot w f)
    (act := fun e _ ts s => .done (writeAll wr e s (ts.map fun t => let (sl, j) := sliceOf s e.c ts t; (t, f s { e with t := t } sl j)))) T hu
    (congrArg (fun l => Res.done (writeAll wr (teamEnv s b u h (b.tids.headD 0)) s l))
      (map_slices G fun sl j t => f s (teamEnv s b u h t) sl j)) hw hy
  exact ⟨h1, h2⟩

/-- A collective that gives each member a value (R170). -/
theorem collective_got {wd : Bool} {d : Dst} {i : Instr} (hi : exec i s = .next (collective u h f (fun s e v => wrVal s e wd d v) s))
    (T : Team s b .app u h) (hu : u.engine = false) (G : InGroup s b g w slot) :
    ∃ x, exec i s = .next x ∧ Got s x b wd d (dealt s b u h slot w f) := by
  obtain ⟨h1, h2⟩ := collective_dealt (f := f) (wr := fun s e v => wrVal s e wd d v) (upd := Seen.write wd d) T hu G
    (fun s e x t he => by rw [seen?_wrVal, he]; simp only [true_and]; split <;> simp [*])
    (fun s e x g he hl => ys?_wrVal_high hl s wd d x b.core g)
  exact ⟨_, hi, got_of_dealt T rfl h1 h2⟩

/-- A collective that gives each member a predicate (R170). -/
theorem collective_pred {k : Pred} {i : Instr} (hi : exec i s = .next (collective u h f (fun s e v => wrPred s e k (v != 0)) s)) (hk : k ≠ 0)
    (T : Team s b .app u h) (hu : u.engine = false) (G : InGroup s b g w slot) :
    ∃ x, exec i s = .next x ∧ ∀ t ∈ b.tids, (x.thr b.core t).pc = nextPc (s.thr b.core t).pc ∧ (x.thr b.core t).regs = (s.thr b.core t).regs ∧
      rdPred x { c := b.core, t := t } k = (dealt s b u h slot w f t != 0) := by
  obtain ⟨h1, -⟩ := collective_dealt (f := f) (wr := fun s e v => wrPred s e k (v != 0)) (upd := fun v => Seen.mark k (v != 0)) T hu G
    (fun s e x t he => by rw [seen?_wrPred hk, he]; simp only [true_and]; split <;> simp [*])
    (fun s e x g he hl => ys?_wrPred s e k _ b.core g)
  refine ⟨_, hi, fun t ht => ?_⟩
  obtain ⟨th, hth, -⟩ := T.ready t ht
  have hs := h1 t ht
  simp only [State.seen?, hth, Option.map_some, Option.map_eq_some_iff] at hs
  obtain ⟨th', hth', hs⟩ := hs
  simp only [rdPred, State.thr_of hth, State.thr_of hth']
  refine ⟨congrArg Seen.pc hs, congrArg Seen.regs hs, ?_⟩
  have hp : th'.preds = (th.seen.mark k (dealt s b u h slot w f t != 0)).next.preds := congrArg Seen.preds hs
  rw [hp]
  refine (congrArg ((k == 0) || ·) (getLsbD_predWrite th.preds k k _)).trans ?_
  simp [show k ≠ 0#3 from hk]
end

theorem ofNat_toNat_ne (p : Bool) : (BitVec.ofNat 64 p.toNat != 0) = p := by cases p <;> rfl

/-- The values of a predicate that the active members of a slice hold. -/
def votes (s : State) (b : Bundle) (slot : Nat → Nat) (w : Nat) (ka : Pred) (t : Nat) : List Bool :=
  (((List.range w).map (seat b slot w t)).map (Option.map fun v => rdPred s { c := b.core, t := v } ka)).filterMap id
theorem mem_votes {s : State} {b : Bundle} {g w : Nat} {slot : Nat → Nat} (G : InGroup s b g w slot) {t : Nat} {ka : Pred} {q : Bool} :
    q ∈ votes s b slot w ka t ↔ ∃ v, (v ∈ b.tids ∧ slot v / w = slot t / w) ∧ rdPred s { c := b.core, t := v } ka = q := by
  simp only [votes, List.mem_filterMap, List.mem_map, List.mem_range, id_eq, exists_eq_right, ← exists_seat G]
  constructor
  · rintro ⟨_, ⟨i, hi, rfl⟩, h⟩
    obtain ⟨v, hv, hq⟩ := Option.map_eq_some_iff.1 h
    exact ⟨v, ⟨i, hi, hv⟩, hq⟩
  · rintro ⟨v, ⟨i, hi, hv⟩, hq⟩
    exact ⟨_, ⟨i, hi, rfl⟩, by rw [hv, Option.map_some, hq]⟩

/-- The result of a vote but a ballot on the values of the active members. -/
def voteFlag (op : VOp) (l : List Bool) : Bool :=
  match op with
  | .all => l.all id
  | .any => l.any id
  | .uni | .ballot => l.all id || !l.any id
def voteValue (op : VOp) (ka : Pred) (s : State) (e : Env) (sl : List (Option Nat)) : Nat → DWord := fun _ =>
  BitVec.ofNat 64 (voteFlag op ((sl.map fun o => o.map fun t => rdPred s { e with t := t } ka).filterMap id)).toNat
theorem exec_vote {op : VOp} (hop : op ≠ .ballot) (h : Hdr) (k ka : Pred) (s : State) : exec (.vote h op (.pred k) ka) s =
    .next (collective { ks := [ka], kds := [k] } h (voteValue op ka) (fun s e v => wrPred s e k (v != 0)) s) := by
  cases op with
  | ballot => exact absurd rfl hop
  | all => rfl
  | any => rfl
  | uni => rfl

/-- R170: votes within a slice. -/
theorem vote_pred {s : State} {b : Bundle} {h : Hdr} {g w : Nat} {slot : Nat → Nat} {k ka : Pred} {op : VOp} (hop : op ≠ .ballot) (hk : k ≠ 0)
    (T : Team s b .app {} h) (G : InGroup s b g w slot) :
    ∃ x, exec (.vote h op (.pred k) ka) s = .next x ∧ ∀ t ∈ b.tids, (x.thr b.core t).pc = nextPc (s.thr b.core t).pc ∧
      (x.thr b.core t).regs = (s.thr b.core t).regs ∧ rdPred x { c := b.core, t := t } k = voteFlag op (votes s b slot w ka t) := by
  obtain ⟨x, hx, hr⟩ := collective_pred (exec_vote hop h k ka s) hk (T.congr rfl rfl) rfl G
  refine ⟨x, hx, fun t ht => ?_⟩
  obtain ⟨h1, h2, h3⟩ := hr t ht
  exact ⟨h1, h2, h3.trans (ofNat_toNat_ne _)⟩

/-- R171: the source slot, where it is one of the slice. -/
theorem shflFrom_seat (mode : ShMode) {w j : Nat} (_ : j < w) (n : Nat) (f : Nat → Option Nat) :
    ((shflFrom mode w j n).bind fun q => ((List.range w).map f).getD q none) =
      (match mode with
        | .idx => some n
        | .up => if n ≤ j then some (j - n) else none
        | .down => some (j + n)
        | .xor => some (j ^^^ n) : Option Nat).bind fun q => if q < w then f q else none := by
  cases mode with
  | up =>
    simp only [shflFrom]
    split
    · rw [if_neg (by omega)]; rfl
    · rw [if_pos (by omega)]
      exact getD_seats w f _
  | idx | down | xor =>
    simp only [shflFrom, Option.bind_some]
    split
    · rw [if_neg (by omega)]; rfl
    · exact getD_seats w f _

/-- The value of the source slot, or the member's own where none is there. -/
theorem shfl_value {α : Type} {o : Option Nat} {w : Nat} {f : Nat → Option Nat} {place : Nat → Nat → Prop} (hf : ∀ i v, f i = some v ↔ place v i)
    (read : Nat → α) (own : α) :
    let val := match o.bind fun q => if q < w then f q else none with
      | some v => read v
      | none => own
    (∀ q v, o = some q → q < w → place v q → val = read v) ∧ ((∀ q, o = some q → w ≤ q ∨ ∀ v, ¬ place v q) → val = own) := by
  constructor
  · rintro q v rfl hq hv
    simp [hq, (hf q v).2 hv]
  · intro hn
    cases o with
    | none => rfl
    | some q =>
      have hnone : (if q < w then f q else none) = none := by
        split
        · refine Option.eq_none_iff_forall_ne_some.2 fun v hv => ?_
          rcases hn q rfl with h | h
          · omega
          · exact h v ((hf q v).1 hv)
        · rfl
      simp [hnone]

/-- R170: the ballot mask of a slice. -/
def ballotMask (ka : Pred) (s : State) (e : Env) (sl : List (Option Nat)) : Nat → DWord := fun _ =>
  let vs := sl.map fun o => o.map fun t => rdPred s { e with t := t } ka
  BitVec.ofNat 64 ((List.range vs.length).foldl (fun m i => if vs.getD i none == some true then m + 2 ^ i else m) 0)
theorem exec_ballot (h : Hdr) (d : Dst) (ka : Pred) (s : State) : exec (.vote h .ballot (.reg d) ka) s =
    .next (collective { dsts := [(d, 1)], ks := [ka], kds := [] } h (ballotMask ka) (fun s e v => wrVal s e false d v) s) := rfl

theorem ballotMask_value (s : State) (b : Bundle) (u : Uses) (h : Hdr) (slot : Nat → Nat) (w : Nat) (ka : Pred) (t : Nat) :
    dealt s b u h slot w (ballotMask ka) t = BitVec.ofNat 64 ((List.range w).foldl
      (fun m i => if (seat b slot w t i).any fun v => rdPred s { c := b.core, t := v } ka then m + 2 ^ i else m) 0) := by
  simp only [dealt, ballotMask, List.length_map, List.length_range]
  refine congrArg (BitVec.ofNat 64) (List.foldl_ext _ _ _ fun m i hi => ?_)
  rw [List.mem_range] at hi
  simp only [List.getD_eq_getElem?_getD, List.getElem?_map, List.getElem?_range hi, Option.map_some, Option.getD_some]
  cases seat b slot w t i with
  | none => rfl
  | some v => simp [rdPred, teamEnv]

/-- R171: what `shfl` gives a member. -/
def shflValue (h : Hdr) (mode : ShMode) (ty : Ty) (a p : Src) (s : State) (e : Env) (sl : List (Option Nat)) (j : Nat) : DWord :=
  match (shflFrom mode sl.length j (rdWord s e h p).toNat).bind fun q => sl.getD q none with
  | some t => rdVal s { e with t := t } h ty a
  | none => rdVal s e h ty a
theorem exec_shfl (h : Hdr) (mode : ShMode) (ty : Ty) (d : Dst) (a p : Src) (s : State) : exec (.shfl h mode ty d a p) s =
    .next (collective { srcs := wide ty.is64 [a] ++ [(p, 1)], dsts := wideD ty.is64 d } h (shflValue h mode ty a p)
      (fun s e v => wrVal s e ty.is64 d v) s) := rfl

/-- R173: what `gmatch` gives a member, for the code of a key. -/
def matchMask (key : State → Env → Nat) (s : State) (e : Env) (sl : List (Option Nat)) : Nat → DWord := fun _ =>
  BitVec.ofNat 64 ((List.range sl.length).foldl (fun m i => match sl.getD i none with
    | some t => if key s { e with t := t } = key s e then m + 2 ^ i else m
    | none => m) 0)
theorem exec_gmatch (h : Hdr) (zeq : Bool) (ty : Ty) (d : Dst) (a : Src) (s : State) : exec (.gmatch h zeq ty d a) s =
    .next (collective { srcs := wide ty.is64 [a], dsts := [(d, 1)] } h (matchMask fun s e => matchCode ty zeq (rdVal s e h ty a))
      (fun s e v => wrVal s e false d v) s) := rfl

theorem matchMask_value (s : State) (b : Bundle) (u : Uses) (h : Hdr) (slot : Nat → Nat) (w : Nat) (key : State → Env → Nat) (t : Nat) :
    dealt s b u h slot w (matchMask key) t = BitVec.ofNat 64 ((List.range w).foldl
      (fun m i => if (seat b slot w t i).any fun v => key s (teamEnv s b u h v) == key s (teamEnv s b u h t) then m + 2 ^ i else m) 0) := by
  simp only [dealt, matchMask, List.length_map, List.length_range]
  refine congrArg (BitVec.ofNat 64) (List.foldl_ext _ _ _ fun m i hi => ?_)
  rw [getD_seats, if_pos (List.mem_range.1 hi)]
  cases seat b slot w t i with
  | none => rfl
  | some v => simp [teamEnv]

theorem collectives : Collectives := by
  intro s b h g w slot ty d a p k ka mode zeq c G mate place
  refine ⟨?_, ?_, ?_, ?_⟩
  · intro val T hk
    have hall : ∀ t, (∀ q ∈ votes s b slot w ka t, q = true) ↔ ∀ v, mate t v → val v := fun t => by
      simp only [mem_votes G]
      exact ⟨fun H v hv => H _ ⟨v, hv, rfl⟩, fun H q ⟨v, hv, hq⟩ => hq ▸ H v hv⟩
    refine ⟨?_, ?_, ?_⟩
    · obtain ⟨x, hx, hr⟩ := vote_pred (op := .all) (ka := ka) (by simp) hk T G
      refine ⟨x, hx, fun t ht => ?_⟩
      obtain ⟨h1, h2, h3⟩ := hr t ht
      refine ⟨h1, h2, ?_⟩
      rw [h3, ← hall]
      exact List.all_eq_true
    · obtain ⟨x, hx, hr⟩ := vote_pred (op := .any) (ka := ka) (by simp) hk T G
      refine ⟨x, hx, fun t ht => ?_⟩
      obtain ⟨h1, h2, h3⟩ := hr t ht
      refine ⟨h1, h2, ?_⟩
      rw [h3, voteFlag]
      simp only [List.any_eq_true, mem_votes G]
      exact ⟨fun ⟨q, ⟨v, hv, hq⟩, hi⟩ => ⟨v, hv, hq.trans hi⟩, fun ⟨v, hv, hi⟩ => ⟨true, ⟨v, hv, hi⟩, rfl⟩⟩
    · obtain ⟨x, hx, hr⟩ := vote_pred (op := .uni) (ka := ka) (by simp) hk T G
      refine ⟨x, hx, fun t ht => ?_⟩
      obtain ⟨h1, h2, h3⟩ := hr t ht
      refine ⟨h1, h2, ?_⟩
      rw [h3, voteFlag, ← hall]
      simp only [Bool.or_eq_true, Bool.not_eq_true', List.all_eq_true, List.any_eq_false, mem_votes G]
      refine or_congr Iff.rfl ?_
      exact ⟨fun H v hv => H _ ⟨v, hv, rfl⟩, fun H q ⟨v, hv, hq⟩ => hq ▸ H v hv⟩
  · intro u T
    obtain ⟨x, hx, hg⟩ := collective_got (exec_ballot h d ka s) (T.congr rfl rfl) rfl G
    refine ⟨x, _, hx, hg, fun t ht i hi => ?_⟩
    rw [ballotMask_value]
    exact getLsbD_slice G t _ hi
  · intro u read T
    obtain ⟨x, hx, hg⟩ := collective_got (exec_shfl h mode ty d a p s) T rfl G
    refine ⟨x, _, hx, hg, fun t ht => ?_⟩
    intro n j from_
    have hj : slot t % w < w := Nat.mod_lt _ G.width.1
    have hv : dealt s b u h slot w (shflValue h mode ty a p) t =
        match from_.bind fun q => if q < w then seat b slot w t q else none with
        | some v => read v
        | none => read t := by
      simp only [dealt, shflValue, List.length_map, List.length_range, shflFrom_seat mode hj]
      rfl
    rw [hv]
    exact shfl_value (place := place t) (fun i v => seat_eq_some G) read (read t)
  · intro u key T
    obtain ⟨x, hx, hg⟩ := collective_got (exec_gmatch h zeq ty d a s) T rfl G
    refine ⟨x, _, hx, hg, fun t ht i hi => ?_⟩
    rw [matchMask_value]
    refine (getLsbD_slice G t _ hi).trans ?_
    simp only [beq_iff_eq]
    rfl

end Sys2Proof.Machine
end

section
/-! SETTLED. O30, reductions and scans: the SAT bit, the tree over a slice of 2^n places, the running values of a chain. -/
namespace Sys2Proof.Machine

/-! ### Reductions and scans of a group (R75 to R77, R172) -/

theorem Seen.write_grp (wd : Bool) (d : Dst) (v : DWord) (q : Seen) : (q.write wd d v).grp = q.grp := by cases d <;> rfl

theorem seen?_redOut (s : State) (e : Env) (ty : Ty) (d : Dst) (r : RVal) (c t : Nat) : (redOut s e ty d r).seen? c t =
    if c = e.c ∧ t = e.t then (s.seen? e.c e.t).map (Seen.write ty.is64 d r.1) else s.seen? c t := by
  rw [redOut, seen?_setSatIf, seen?_wrVal]
theorem ys?_redOut (s : State) (e : Env) (ty : Ty) (d : Dst) (r : RVal) (c g : Nat) :
    (redOut s e ty d r).ys? c g = (wrVal s e ty.is64 d r.1).ys? c g := by rw [redOut, ys?_setSatIf]

/-- The member is one of the group. -/
def State.isOf (s : State) (c g t : Nat) : Prop := ∃ q sl, s.seen? c t = some q ∧ q.grp = some (g, sl)

theorem isOf_redOut {s : State} {c g t : Nat} (ht : s.isOf c g t) (e : Env) (ty : Ty) (d : Dst) (r : RVal) : (redOut s e ty d r).isOf c g t := by
  obtain ⟨q, sl, hq, hg⟩ := ht
  by_cases h : c = e.c ∧ t = e.t
  · obtain ⟨rfl, rfl⟩ := h
    exact ⟨q.write ty.is64 d r.1, sl, by rw [seen?_redOut, if_pos ⟨rfl, rfl⟩, hq, Option.map_some], by rw [Seen.write_grp, hg]⟩
  · exact ⟨q, sl, by rw [seen?_redOut, if_neg h, hq], hg⟩
theorem sat?_redOut {s : State} {e : Env} {g : Nat} (ht : s.isOf e.c g e.t) (ty : Ty) (d : Dst) (r : RVal) :
    (redOut s e ty d r).sat? e.c g = (s.sat? e.c g).map (· || r.2) := by
  obtain ⟨q, sl, hq, hg⟩ := ht
  have hw := seen?_wrVal s e ty.is64 d r.1 e.c e.t
  rw [if_pos ⟨rfl, rfl⟩, hq, Option.map_some] at hw
  rw [redOut, sat?_setSatIf hw ((Seen.write_grp ..).trans hg), sat?_wrVal]

/-- SAT after the writes of a reduction: set where a value of some member comes with it. -/
theorem sat?_writeAll_redOut {e : Env} {g : Nat} (ty : Ty) (d : Dst) (F : Nat → RVal) (l : List Nat) (s : State) (hl : ∀ t ∈ l, s.isOf e.c g t) :
    (writeAll (fun s e r => redOut s e ty d r) e s (l.map fun t => (t, F t))).sat? e.c g = (s.sat? e.c g).map (· || l.any fun t => (F t).2) := by
  suffices h : ∀ (l : List Nat) (p : State × Bool), (∀ t ∈ l, p.1.isOf e.c g t) →
      (((l.map fun t => (t, F t)).foldl (fun (p : State × Bool) v => (redOut p.1 { e with t := v.1, low := p.2 } ty d v.2, false)) p).1).sat? e.c g =
        (p.1.sat? e.c g).map (· || l.any fun t => (F t).2) from h l (s, true) hl
  intro l
  induction l with
  | nil => intro p _; simp
  | cons a l ih =>
    intro p hp
    refine (ih _ fun t ht => isOf_redOut (hp t (.tail _ ht)) ..).trans ?_
    rw [sat?_redOut (e := { e with t := a, low := p.2 }) (hp a (.head _)), Option.map_map]
    simp [Function.comp_def, Bool.or_assoc]

section
variable {s : State} {b : Bundle} {h : Hdr} {g w : Nat} {slot : Nat → Nat} {ty : Ty} {d : Dst} {a : Src}
  {f : State → Env → DWord → List (Option Nat) → Nat → RVal}

/-- What a reduction or scan of a group gives each member. -/
def reduced (s : State) (b : Bundle) (u : Uses) (h : Hdr) (slot : Nat → Nat) (w : Nat)
    (f : State → Env → DWord → List (Option Nat) → Nat → RVal) (t : Nat) : RVal :=
  f s (teamEnv s b u h t) (s.thr b.core (b.tids.headD 0)).pc ((List.range w).map (seat b slot w t)) (slot t % w)

theorem redCollective_got (T : Team s b .app { srcs := wide ty.is64 [a], dsts := wideD ty.is64 d } h) (G : InGroup s b g w slot)
    {r : Nat → RVal} (hr : ∀ t, reduced s b { srcs := wide ty.is64 [a], dsts := wideD ty.is64 d } h slot w f t = r t) :
    Got s (redCollective h ty d a f s) b ty.is64 d (fun t => (r t).1) ∧
    ((redCollective h ty d a f s).group? b.core g).map (·.sat) = (s.group? b.core g).map fun gr => gr.sat || b.tids.any fun t => (r t).2 := by
  obtain rfl := funext hr
  obtain ⟨h1, h2, h3⟩ := perBundle_writeAll (wr := fun s e r => redOut s e ty d r) (upd := fun r => Seen.write ty.is64 d r.1) (F := reduced s b _ h slot w f)
    (act := fun e pc ts s => .done (writeAll (fun s e r => redOut s e ty d r) e s
      (ts.map fun t => let (sl, j) := sliceOf s e.c ts t; (t, f s { e with t := t } pc sl j)))) T rfl
    (congrArg (fun l => Res.done (writeAll _ (teamEnv s b _ h (b.tids.headD 0)) s l))
      (map_slices G fun sl j t => f s (teamEnv s b _ h t) _ sl j))
    (fun s e x t he => by rw [seen?_redOut, he]; simp only [true_and]; split <;> simp [*])
    (fun s e x g he hl => by rw [ys?_redOut, ys?_wrVal_high hl])
  refine ⟨got_of_dealt T rfl h1 fun g => (h2 g).trans (ys?_redOut ..), (h3 g).trans ?_⟩
  refine (sat?_writeAll_redOut ty d _ b.tids s fun t ht => ?_).trans ?_
  · obtain ⟨th, hth, -⟩ := T.ready t ht
    exact ⟨th.seen, slot t, congrArg (Option.map Thread.seen) hth, State.thr_of hth ▸ G.member t ht⟩
  · simp only [State.sat?, Option.map_map]
    rfl
end

/-- What `red` and `scan` give a member (R75, R172). -/
def redValue (h : Hdr) (op : ROp) (ty : Ty) (rm : Rm) (sat : Bool) (a : Src) (s : State) (e : Env) (pc : DWord) (sl : List (Option Nat)) :
    Nat → RVal := fun _ => (tree (redNode op ty rm sat pc) 6 (sl.map (redIn s e h op ty a))).getD (redId op ty, false)
def scanValue (h : Hdr) (op : ROp) (exc : Bool) (ty : Ty) (rm : Rm) (sat : Bool) (a : Src) (s : State) (e : Env) (pc : DWord)
    (sl : List (Option Nat)) (j : Nat) : RVal :=
  let l := scanFrom (redNode op ty rm sat pc) (redId op ty, false) (sl.map (redIn s e h op ty a))
  let p := l.getD j ((redId op ty, false), (redId op ty, false))
  ((if exc then p.1 else p.2).1, l.any fun q => q.2.2)
theorem exec_red (h : Hdr) (op : ROp) (ty : Ty) (rm : Rm) (sat : Bool) (d : Dst) (a : Src) (s : State) :
    exec (.red h op ty rm sat d a) s = .next (redCollective h ty d a (redValue h op ty rm sat a) s) := rfl
theorem exec_scan (h : Hdr) (op : ROp) (exc : Bool) (ty : Ty) (rm : Rm) (sat : Bool) (d : Dst) (a : Src) (s : State) :
    exec (.scan h op exc ty rm sat d a) s = .next (redCollective h ty d a (scanValue h op exc ty rm sat a) s) := rfl

/-! ### The tree and the chain (R75) -/

section
variable {α : Type} (node : α → α → α)

theorem treeLevel_range (m : Nat) : ∀ f : Nat → α,
    treeLevel node ((List.range (2 * m)).map f) = (List.range m).map fun i => node (f (2 * i)) (f (2 * i + 1)) := by
  induction m with
  | zero => exact fun _ => rfl
  | succ m ih =>
    intro f
    rw [Nat.mul_succ, List.range_succ_eq_map, List.range_succ_eq_map, List.range_succ_eq_map]
    simp only [List.map_cons, List.map_map, treeLevel]
    exact congrArg (_ :: ·) (ih fun i => f (i + 2))

/-- The tree over the pairs is the tree over the values. -/
theorem halves_pairs (f : Nat → α) : ∀ n i, halves node (fun i => node (f (2 * i)) (f (2 * i + 1))) n i = halves node f (n + 1) (2 * i)
  | 0, _ => rfl
  | n + 1, i => by
    rw [halves, halves_pairs f n, halves_pairs f n, Nat.mul_add, ← Nat.pow_succ']
    rfl

theorem tree_range : ∀ (n k : Nat) (f : Nat → α), n < k → tree node k ((List.range (2 ^ n)).map f) = some (halves node f n 0)
  | 0, k + 1, f, _ => rfl
  | n + 1, k + 1, f, hk => by
    have hlen : ¬ ((List.range (2 ^ (n + 1))).map f).length ≤ 1 := by
      rw [List.length_map, List.length_range, Nat.not_le]
      exact Nat.one_lt_two_pow (Nat.succ_ne_zero n)
    rw [tree, if_neg hlen, Nat.pow_succ', treeLevel_range, tree_range n k _ (Nat.lt_of_succ_lt_succ hk), halves_pairs]
end

theorem scanFrom_getD (node : RVal → RVal → RVal) (dflt : RVal × RVal) (l : List RVal) : ∀ (acc : RVal) (j : Nat), j < l.length →
    (scanFrom node acc l).getD j dflt = ((l.take j).foldl node acc, (l.take (j + 1)).foldl node acc) := by
  induction l with
  | nil => intro _ _ h; exact absurd h (Nat.not_lt_zero _)
  | cons v l ih =>
    intro acc j h
    cases j with
    | zero => rfl
    | succ j => exact ih (node acc v) j (Nat.lt_of_succ_lt_succ h)

theorem take_range_map {α : Type} {w j : Nat} (hj : j ≤ w) (f : Nat → α) : ((List.range w).map f).take j = (List.range j).map f := by
  rw [← List.map_take, List.take_range, Nat.min_eq_left hj]

theorem redValue_slice {n : Nat} (hn : n < 6) (h : Hdr) (op : ROp) (ty : Ty) (rm : Rm) (sat : Bool) (a : Src) (s : State) (e : Env) (pc : DWord)
    (f : Nat → Option Nat) (j : Nat) : redValue h op ty rm sat a s e pc ((List.range (2 ^ n)).map f) j =
      halves (redNode op ty rm sat pc) (fun i => redIn s e h op ty a (f i)) n 0 := by
  rw [redValue, List.map_map, tree_range _ n 6 _ hn]
  rfl
theorem scanValue_slice {w j : Nat} (hj : j < w) (h : Hdr) (op : ROp) (exc : Bool) (ty : Ty) (rm : Rm) (sat : Bool) (a : Src) (s : State) (e : Env)
    (pc : DWord) (f : Nat → Option Nat) : (scanValue h op exc ty rm sat a s e pc ((List.range w).map f) j).1 =
      (((List.range (if exc then j else j + 1)).map fun i => redIn s e h op ty a (f i)).foldl (redNode op ty rm sat pc) (redId op ty, false)).1 := by
  have hl : j < (((List.range w).map f).map (redIn s e h op ty a)).length := by simpa using hj
  simp only [scanValue]
  rw [scanFrom_getD _ _ _ _ _ hl, List.map_map, take_range_map (Nat.le_of_lt hj), take_range_map hj]
  cases exc <;> rfl

/-! ### Nodes (R76, R172) -/

theorem fropId_lt {ty : Ty} (hf : ty.isFloat = true) (op : ROp) : fropId op ty < 2 ^ ty.bits := by
  cases ty <;> simp [Ty.isFloat] at hf <;> cases op <;> decide
/-- A pattern read back from the register that holds it. -/
theorem pattern_ofNat {ty : Ty} (hf : ty.isFloat = true) {x : Nat} (hx : x < 2 ^ ty.bits) : (BitVec.ofNat 64 x).toNat % 2 ^ ty.bits = x := by
  have : 2 ^ ty.bits ≤ 2 ^ 64 := Nat.pow_le_pow_right (by omega) (by cases ty <;> decide)
  rw [BitVec.toNat_ofNat, Nat.mod_eq_of_lt (Nat.lt_of_lt_of_le hx this), Nat.mod_eq_of_lt hx]
theorem redNode_float {ty : Ty} (hf : ty.isFloat = true) (op : ROp) (rm : Rm) (sat : Bool) (pc : DWord) {x y : Nat} (hx : x < 2 ^ ty.bits)
    (hy : y < 2 ^ ty.bits) (p q : Bool) :
    redNode op ty rm sat pc (BitVec.ofNat 64 x, p) (BitVec.ofNat 64 y, q) = (BitVec.ofNat 64 (fropNode op ty rm pc x y), false) := by
  rw [redNode, if_pos hf]
  simp only [pattern_ofNat hf hx, pattern_ofNat hf hy]
theorem redId_float {ty : Ty} (hf : ty.isFloat = true) (op : ROp) : redId op ty = BitVec.ofNat 64 (fropId op ty) := if_pos hf

theorem fropNode_id (op : ROp) (ty : Ty) (rm : Rm) (pc : DWord) (y : Nat) : fropNode op ty rm pc (fropId op ty) y = y := if_pos rfl

theorem reductions : Reductions := by
  intro s b h g n slot op ty rm sat exc d a c w u
  refine ⟨fun G T => ?_, fun pc x y hi => ?_, fun pc x hf hx => ?_⟩
  · intro node leaf
    have hn : n < 6 := by
      have := G.width.2
      exact (Nat.pow_lt_pow_iff_right (a := 2) (by omega)).1 (Nat.lt_of_le_of_lt this (by decide))
    refine ⟨?_, ?_⟩
    · obtain ⟨h1, h2⟩ := redCollective_got (f := redValue h op ty rm sat a) (d := d) T G (r := fun t => halves node (leaf t) n 0)
        fun t => redValue_slice hn ..
      exact ⟨_, exec_red .., h1, h2⟩
    · obtain ⟨h1, -⟩ := redCollective_got (f := scanValue h op exc ty rm sat a) (d := d) T G fun _ => rfl
      exact ⟨_, exec_scan .., cast (congrArg (Got s _ b ty.is64 d) (funext fun t => scanValue_slice (Nat.mod_lt _ G.width.1) ..)) h1⟩
  · simp only [redNode, hi, ropNode, intOut, Int.min_def, Int.max_def]
    simp
  · rw [redId_float hf, redNode_float hf op rm sat pc (fropId_lt hf op) hx, fropNode_id]

end Sys2Proof.Machine
end

section
/-! SETTLED. O30, the nodes: identities, float nodes as the float instructions, saturating nodes, key codes. -/
namespace Sys2Proof.Machine

/-! ### Nodes and key codes (R76 to R80, R117, R118) -/

/-- The order of two patterns: by value, and -0 below +0 (R118). -/
theorem fOrd_lt (f : Fmt) (x y : Nat) : fOrd f x < fOrd f y ↔
    (if f.sign x then -(f.mag x : Int) else f.mag x) < (if f.sign y then -(f.mag y : Int) else f.mag y) ∨
      ((if f.sign x then -(f.mag x : Int) else f.mag x) = (if f.sign y then -(f.mag y : Int) else f.mag y) ∧ f.sign x = true ∧ f.sign y = false) := by
  unfold fOrd
  cases f.sign x <;> cases f.sign y <;> simp <;> omega

theorem fminV_eq (ty : Ty) (x y : Nat) :
    fminV ty x y = nanElse ty [x, y] (if fOrd (Ty.fmt ty) y < fOrd (Ty.fmt ty) x then y else x) :=
  eq_nanElse (fun m hm => by simp [fminV, hm]) fun hn => by simp [fminV, hn]
theorem fmaxV_eq (ty : Ty) (x y : Nat) :
    fmaxV ty x y = nanElse ty [x, y] (if fOrd (Ty.fmt ty) x < fOrd (Ty.fmt ty) y then y else x) :=
  eq_nanElse (fun m hm => by simp [fmaxV, hm]) fun hn => by simp [fmaxV, hn]

/-- A node whose inputs are not the identity. -/
theorem fropNode_of_ne {op : ROp} {ty : Ty} {x y : Nat} (hx : x ≠ fropId op ty) (hy : y ≠ fropId op ty) (rm : Rm) (pc : DWord) :
    fropNode op ty rm pc x y = match op with
      | .add => faddV ty rm pc x y
      | .mul => fmulV ty rm pc x y
      | .min => fminV ty x y
      | .max => fmaxV ty x y
      | _ => 0 :=
  (if_neg hx).trans ((if_neg hy).trans (by cases op <;> rfl))

theorem redNode_sat {op : ROp} {ty : Ty} (hi : ty.isFloat = false) (rm : Rm) (pc : DWord) (x y : RVal) {v : Int}
    (hv : ropNode op ty true x.1 y.1 = intOut ty true v) :
    redNode op ty rm true pc x y =
      if tyMax ty < v then (wrInt ty (tyMax ty), true) else if v < tyMin ty then (wrInt ty (tyMin ty), true) else (wrInt ty v, x.2 || y.2) := by
  have hle : tyMin ty ≤ tyMax ty := by cases ty <;> decide
  simp only [redNode, hi, hv, intOut, clamp]
  by_cases h1 : tyMax ty < v
  · have h2 : ¬ v < tyMin ty := by omega
    simp [h1, h2]
  · by_cases h2 : v < tyMin ty <;> simp [h1, h2]

/-- Keys match bit for bit, and the two zeros under `.zeq` (R79, R80). -/
theorem keyCode_inj {ty : Ty} (hf : ty.isFloat = true) (zeq : Bool) (x y : Word) :
    let p := x.toNat % 2 ^ ty.bits
    let q := y.toNat % 2 ^ ty.bits
    keyCode ty zeq x = keyCode ty zeq y ↔ p = q ∨ (zeq = true ∧ (Ty.fmt ty).isZero p = true ∧ (Ty.fmt ty).isZero q = true) := by
  have hp : ∀ z : Word, z.toNat % 2 ^ ty.bits < 2 ^ ty.bits := fun z => Nat.mod_lt _ (Nat.two_pow_pos _)
  have hpx := hp x
  have hpy := hp y
  have hz : ∀ z, z < 2 ^ ty.bits → ((Ty.fmt ty).isZero z = true ↔ z = 0 ∨ z = 2 ^ (ty.bits - 1)) := fun z h => by
    cases ty <;> simp [Ty.isFloat] at hf <;> simp [Fmt.isZero, Fmt.mag, Ty.fmt, Ty.bits] at h ⊢ <;> omega
  have hb : 2 ^ ty.bits = 2 * 2 ^ (ty.bits - 1) := by cases ty <;> decide
  intro p q
  rw [hz p hpx, hz q hpy]
  simp only [keyCode, hf, if_true]
  change (if (zeq && p == _) = true then _ else _) = (if (zeq && q == _) = true then _ else _) ↔ _
  change p < _ at hpx
  change q < _ at hpy
  generalize 2 ^ (ty.bits - 1) = m at *
  cases zeq <;> simp <;> split_ifs <;> omega

theorem collectiveNodes : CollectiveNodes := by
  intro op ty rm pc
  refine ⟨fun hi => ?_, by decide, fun x y hf hx hy => ?_, fun x y hi hop => ?_, fun zeq x y => ⟨fun hi => ?_, fun hf => ?_⟩⟩
  · revert hi
    cases ty <;> decide
  · intro f sg val below v hop hx' hy'
    rw [redId_float hf] at hx' hy'
    have hnx : x ≠ fropId op ty := fun h => hx' (congrArg _ h)
    have hny : y ≠ fropId op ty := fun h => hy' (congrArg _ h)
    rw [redNode_float hf op rm false pc hx hy, fropNode_of_ne hnx hny]
    refine congrArg (BitVec.ofNat 64) ?_
    rcases hop with rfl | rfl | rfl | rfl
    · exact faddV_eq ty rm pc x y
    · exact fmulV_eq ty rm pc x y
    · rw [fminV_eq]
      simp only [fOrd_lt, v, below, val, decide_eq_true_eq]
      rfl
    · rw [fmaxV_eq]
      simp only [fOrd_lt, v, below, val, decide_eq_true_eq]
      rfl
  · rcases hop with rfl | rfl
    · exact redNode_sat hi rm pc x y rfl
    · exact redNode_sat hi rm pc x y rfl
  · simp [matchCode, hi, BitVec.toNat_inj]
  · have hm : ∀ z : DWord, (z.setWidth 32).toNat % 2 ^ ty.bits = z.toNat % 2 ^ ty.bits := fun z => by
      rw [BitVec.toNat_setWidth, Nat.mod_mod_of_dvd _ (Nat.pow_dvd_pow 2 (by cases ty <;> simp [Ty.isFloat] at hf <;> decide))]
    simp only [matchCode, hf, if_true, keyCode_inj hf, hm]

end Sys2Proof.Machine
end

section
/-! SETTLED. O30, a thread in no group, whose slice is itself; then the four parts together. -/
namespace Sys2Proof.Machine

/-! ### An integer written and read back in its type (R51, R53) -/

theorem setWidth_wrInt (ty : Ty) (x : Int) : (wrInt ty x).setWidth ty.bits = BitVec.ofInt ty.bits x := by
  have h64 : ty.bits ≤ 64 := by cases ty <;> decide
  refine BitVec.eq_of_getLsbD_eq fun i hi => ?_
  have hi' : i < 64 := by omega
  have hm : i < max ty.bits 32 := by omega
  unfold wrInt
  split <;> simp only [BitVec.getLsbD_setWidth, BitVec.getLsbD_signExtend, hi, hi', hm, decide_true, Bool.true_and, if_true]

theorem rdInt_bounds (ty : Ty) (v : DWord) : tyMin ty ≤ rdInt ty v ∧ rdInt ty v ≤ tyMax ty := by
  unfold tyMin tyMax rdInt
  split
  · have h1 := BitVec.le_toInt (v.setWidth ty.bits)
    have h2 := BitVec.toInt_lt (x := v.setWidth ty.bits)
    push_cast at *
    omega
  · have : ((v.setWidth ty.bits).toNat : Int) < (2 ^ ty.bits : Nat) := Int.ofNat_lt.2 (v.setWidth ty.bits).isLt
    omega

theorem rdInt_wrInt {ty : Ty} {x : Int} (h : tyMin ty ≤ x ∧ x ≤ tyMax ty) : rdInt ty (wrInt ty x) = x := by
  rw [rdInt, setWidth_wrInt]
  unfold tyMin tyMax at h
  split
  · rename_i hs
    simp only [hs, if_true] at h
    rw [BitVec.toInt_ofInt]
    refine Int.bmod_eq_of_le ?_ ?_ <;> revert h hs <;> cases ty <;> simp [Ty.signed, Ty.bits] <;> omega
  · rename_i hs
    simp only [hs] at h
    rw [BitVec.toNat_ofInt]
    revert h hs
    cases ty <;> simp [Ty.signed, Ty.bits] <;> omega

theorem wrInt_neg_one (ty : Ty) :
    wrInt ty (-1) = if ty.signed then (BitVec.allOnes (max ty.bits 32)).setWidth 64 else (BitVec.allOnes ty.bits).setWidth 64 := by
  cases ty <;> decide
theorem wrInt_neg_one_and (ty : Ty) (x : Int) : wrInt ty (-1) &&& wrInt ty x = wrInt ty x := by
  rw [wrInt_neg_one, wrInt]
  split <;> rw [← BitVec.setWidth_and, BitVec.allOnes_and]

/-- A node between the identity and a value of the type: the value, and no SAT. -/
theorem redNode_id_int {ty : Ty} (hi : ty.isFloat = false) (op : ROp) (rm : Rm) (sat : Bool) (pc : DWord) {z : Int}
    (hz : tyMin ty ≤ z ∧ z ≤ tyMax ty) : redNode op ty rm sat pc (redId op ty, false) (wrInt ty z, false) = (wrInt ty z, false) := by
  have h0 : rdInt ty (wrInt ty 0) = 0 := rdInt_wrInt (by cases ty <;> decide)
  have h1 : rdInt ty (wrInt ty 1) = 1 := rdInt_wrInt (by cases ty <;> decide)
  have hmax : rdInt ty (wrInt ty (tyMax ty)) = tyMax ty := rdInt_wrInt ⟨by cases ty <;> decide, Int.le_refl _⟩
  have hmin : rdInt ty (wrInt ty (tyMin ty)) = tyMin ty := rdInt_wrInt ⟨Int.le_refl _, by cases ty <;> decide⟩
  have hin : intOut ty sat z = (wrInt ty z, false) := by
    have h1 : ¬ z < tyMin ty := by omega
    have h2 : ¬ tyMax ty < z := by omega
    cases sat <;> simp [intOut, clamp, h1, h2]
  have hw0 : wrInt ty 0 = 0 := by cases ty <;> decide
  have hand : wrInt ty (rdInt ty (BitVec.allOnes 64)) = wrInt ty (-1) := by cases ty <;> decide
  simp only [redNode, redId, hi, Bool.false_eq_true, if_false]
  cases op with
  | add => simp [ropId, ropNode, h0, rdInt_wrInt hz, hin]
  | mul => simp [ropId, ropNode, h1, rdInt_wrInt hz, hin]
  | min => simp [ropId, ropNode, hmax, rdInt_wrInt hz, Int.min_eq_right hz.2]
  | max => simp [ropId, ropNode, hmin, rdInt_wrInt hz, Int.max_eq_right hz.1]
  | and => exact congrArg (·, false) (hand ▸ wrInt_neg_one_and ty z)
  | or => simp [ropId, ropNode, hw0]
  | xor => simp [ropId, ropNode, hw0]

/-- A thread's own value, as a slot's input and alone in its slice. -/
def ownInt (ty : Ty) (x : DWord) : DWord := if ty.isFloat then BitVec.ofNat 64 (x.toNat % 2 ^ ty.bits) else wrInt ty (rdInt ty x)
theorem redNode_id_own (op : ROp) (ty : Ty) (rm : Rm) (sat : Bool) (pc x : DWord) :
    redNode op ty rm sat pc (redId op ty, false) (ownInt ty x, false) = (ownInt ty x, false) := by
  cases hf : ty.isFloat with
  | true =>
    rw [ownInt, if_pos hf, redId_float hf, redNode_float hf op rm sat pc (fropId_lt hf op) (Nat.mod_lt _ (Nat.two_pow_pos _)), fropNode_id]
  | false =>
    rw [ownInt, if_neg (by simp [hf]), redNode_id_int hf op rm sat pc (rdInt_bounds ty x)]

/-! ### A thread in no group (R158) -/

section
variable {s : State} {b : Bundle} {t : Nat} {th : Thread} {u : Uses} {h : Hdr} {i : Instr} {v : State}

theorem sliceOf_alone {c : Nat} (hg : (s.thr c t).grp = none) : sliceOf s c [t] t = ([some t], 0) := by rw [sliceOf, hg]

theorem Ready.seen (r : Ready s b t th .app u h) : s.seen? b.core t = some th.seen := by rw [State.seen?, r.live]; rfl

/-- The instruction completes with what one write of the thread leaves. -/
theorem ends_alone {act : Env → DWord → List Nat → State → Res} {q : Seen} (r : Ready s b t th .app u h)
    (hi : exec i s = .next (perBundle .app u h act s)) (ha : act (envOf s b t u h) th.pc [t] s = .done v) (hq : v.seen? b.core t = some q)
    (hp : q.pc = th.pc) : Ends i s b t u h v := by
  obtain ⟨th', hth', rfl⟩ := Option.map_eq_some_iff.1 hq
  exact ends_perBundle r hi ha (by rw [hth']; rfl) (by rw [State.thr_of hth']; exact hp)

theorem seen_wrVal {e : Env} {q : Seen} (hq : s.seen? e.c e.t = some q) (wd : Bool) (d : Dst) (x : DWord) :
    (wrVal s e wd d x).seen? e.c e.t = some (q.write wd d x) := by rw [seen?_wrVal, if_pos ⟨rfl, rfl⟩, hq, Option.map_some]
theorem seen_wrPred {e : Env} {q : Seen} (hq : s.seen? e.c e.t = some q) {k : Pred} (hk : k ≠ 0) (p : Bool) :
    (wrPred s e k p).seen? e.c e.t = some (q.mark k p) := by rw [seen?_wrPred hk, if_pos ⟨rfl, rfl⟩, hq, Option.map_some]
theorem Seen.mark_pc (k : Pred) (p : Bool) (q : Seen) : (q.mark k p).pc = q.pc := rfl
theorem Seen.write_pc (wd : Bool) (d : Dst) (x : DWord) (q : Seen) : (q.write wd d x).pc = q.pc := by cases d <;> rfl

variable {f : State → Env → List (Option Nat) → Nat → DWord} {wd : Bool} {d : Dst} {x : DWord}

theorem map_slice_alone {β : Type} (hg : th.grp = none) (r : Ready s b t th .app u h) (F : List (Option Nat) → Nat → Nat → β) :
    ([t].map fun t' => let (sl, j) := sliceOf s b.core [t] t'; (t', F sl j t')) = [(t, F [some t] 0 t)] := by
  have hs : sliceOf s b.core [t] t = ([some t], 0) := sliceOf_alone (by rw [r.thr]; exact hg)
  simp only [List.map_cons, List.map_nil, hs]

/-- A collective of a thread in no group. -/
theorem ends_collective {wr : State → Env → DWord → State} {q : Seen} (hg : th.grp = none) (r : Ready s b t th .app u h)
    (hi : exec i s = .next (collective u h f wr s)) (hv : f s (envOf s b t u h) [some t] 0 = x)
    (hq : (wr s (envOf s b t u h) x).seen? b.core t = some q) (hp : q.pc = th.pc) : Ends i s b t u h (wr s (envOf s b t u h) x) := by
  subst hv
  exact ends_alone r hi (congrArg (fun l => Res.done (writeAll wr (envOf s b t u h) s l))
    (map_slice_alone hg r fun sl j t' => f s { envOf s b t u h with t := t' } sl j)) hq hp

theorem ends_collective_val (hg : th.grp = none) (r : Ready s b t th .app u h)
    (hi : exec i s = .next (collective u h f (fun s e v => wrVal s e wd d v) s)) (hv : f s (envOf s b t u h) [some t] 0 = x) :
    Ends i s b t u h (wrVal s (envOf s b t u h) wd d x) :=
  ends_collective hg r hi hv (seen_wrVal r.seen ..) (Seen.write_pc ..)

theorem wrPred_zero (s : State) (e : Env) (p : Bool) : wrPred s e 0 p = s := rfl

theorem ends_collective_pred {k : Pred} {p : Bool} (hg : th.grp = none) (r : Ready s b t th .app u h)
    (hi : exec i s = .next (collective u h f (fun s e v => wrPred s e k (v != 0)) s)) (hv : f s (envOf s b t u h) [some t] 0 = BitVec.ofNat 64 p.toNat) :
    Ends i s b t u h (wrPred s (envOf s b t u h) k p) := by
  have hw : wrPred s (envOf s b t u h) k p = wrPred s (envOf s b t u h) k (BitVec.ofNat 64 p.toNat != 0) := by rw [ofNat_toNat_ne]
  rw [hw]
  by_cases hk : k = 0
  · refine ends_collective hg r hi hv (q := th.seen) ?_ rfl
    rw [hk, wrPred_zero]
    exact r.seen
  · have hq : (wrPred s (envOf s b t u h) k (BitVec.ofNat 64 p.toNat != 0)).seen? b.core t = _ := seen_wrPred r.seen hk _
    exact ends_collective (wr := fun s e v => wrPred s e k (v != 0)) hg r hi hv hq (Seen.mark_pc ..)

theorem ends_redCollective {f : State → Env → DWord → List (Option Nat) → Nat → RVal} {ty : Ty} {a : Src} (hg : th.grp = none)
    (r : Ready s b t th .app (ofType ty [a] d) h) (hi : exec i s = .next (redCollective h ty d a f s))
    (hv : f s (envOf s b t (ofType ty [a] d) h) th.pc [some t] 0 = (x, false)) :
    Ends i s b t (ofType ty [a] d) h (wrVal s (envOf s b t (ofType ty [a] d) h) ty.is64 d x) :=
  ends_alone r hi
    ((congrArg (fun l => Res.done (writeAll (fun s e r => redOut s e ty d r) (envOf s b t (ofType ty [a] d) h) s l))
      (map_slice_alone hg r fun sl j t' => f s { envOf s b t (ofType ty [a] d) h with t := t' } th.pc sl j)).trans
      (congrArg (fun r => Res.done (redOut s (envOf s b t (ofType ty [a] d) h) ty d r)) hv)) (seen_wrVal r.seen ..) (Seen.write_pc ..)

theorem redIn_self (s : State) (e : Env) (h : Hdr) (op : ROp) (ty : Ty) (a : Src) :
    redIn s e h op ty a (some e.t) = (ownInt ty (rdVal s e h ty a), false) := rfl
theorem redValue_alone (h : Hdr) (op : ROp) (ty : Ty) (rm : Rm) (sat : Bool) (a : Src) (s : State) (e : Env) (pc : DWord) :
    redValue h op ty rm sat a s e pc [some e.t] 0 = (ownInt ty (rdVal s e h ty a), false) := rfl
theorem scanValue_alone (h : Hdr) (op : ROp) (exc : Bool) (ty : Ty) (rm : Rm) (sat : Bool) (a : Src) (s : State) (e : Env) (pc : DWord) :
    scanValue h op exc ty rm sat a s e pc [some e.t] 0 = (if exc then redId op ty else ownInt ty (rdVal s e h ty a), false) := by
  simp only [scanValue, List.map_cons, List.map_nil, redIn_self, scanFrom, redNode_id_own]
  cases exc <;> rfl
theorem ballotMask_alone (ka : Pred) (s : State) (e : Env) : ballotMask ka s e [some e.t] 0 = if rdPred s e ka then 1 else 0 := by
  change BitVec.ofNat 64 (if (some (rdPred s e ka) == some true) then 1 else 0) = _
  cases rdPred s e ka <;> rfl
theorem matchMask_alone (key : State → Env → Nat) (s : State) (e : Env) : matchMask key s e [some e.t] 0 = 1 :=
  congrArg (BitVec.ofNat 64) (if_pos rfl)
/-- Slot 0 is the only source there is; what is out of range gives the thread's own value. -/
theorem shflValue_alone (h : Hdr) (mode : ShMode) (ty : Ty) (a p : Src) (s : State) (e : Env) :
    shflValue h mode ty a p s e [some e.t] 0 = rdVal s e h ty a := by
  have hq : ∀ q : Nat, [some e.t].getD q none = none ∨ [some e.t].getD q none = some e.t := fun q => by cases q <;> simp
  rw [shflValue]
  cases shflFrom mode [some e.t].length 0 (rdWord s e h p).toNat with
  | none => rfl
  | some q => rcases hq q with h | h <;> rw [Option.bind_some, h]

/-- A vote of a thread in no group. -/
theorem ends_vote_alone {op : VOp} {k ka : Pred} (hop : op ≠ .ballot) (hg : th.grp = none) (r : Ready s b t th .app { ks := [ka], kds := [k] } h) :
    Ends (.vote h op (.pred k) ka) s b t { ks := [ka], kds := [k] } h
      (wrPred s (envOf s b t { ks := [ka], kds := [k] } h) k (voteFlag op [rdPred s (envOf s b t { ks := [ka], kds := [k] } h) ka])) :=
  ends_collective_pred hg r (exec_vote hop h k ka s) rfl
end

theorem collectivesAlone : CollectivesAlone := by
  intro s b t th h op ty rm sat zeq mode d a p k ka hg
  refine ⟨?_, ?_, ?_, ?_, ?_⟩
  · intro u e r
    have hall : voteFlag .all [rdPred s e ka] = rdPred s e ka := by simp [voteFlag]
    have hany : voteFlag .any [rdPred s e ka] = rdPred s e ka := by simp [voteFlag]
    have huni : voteFlag .uni [rdPred s e ka] = true := by simp [voteFlag]
    have H := fun (op : VOp) (hop : op ≠ .ballot) => ends_vote_alone hop hg r
    exact ⟨hall ▸ H .all (by simp), hany ▸ H .any (by simp), huni ▸ H .uni (by simp)⟩
  · intro u e r
    refine cast (congrArg (Ends _ s b t u h) ?_) (ends_collective_val hg r (exec_ballot h d ka s) (ballotMask_alone ka s e))
    cases rdPred s e ka <;> rfl
  · intro u e r
    exact ends_collective_val hg r (exec_shfl h mode ty d a p s) (shflValue_alone ..)
  · intro u e r
    exact ends_collective_val (x := 1) hg r (exec_gmatch h zeq ty d a s) (matchMask_alone ..)
  · intro u e x own r
    exact ⟨ends_redCollective hg r (exec_red ..) (redValue_alone ..), ends_redCollective hg r (exec_scan ..) (scanValue_alone ..),
      ends_redCollective hg r (exec_scan ..) (scanValue_alone ..)⟩

/-- Settles O30: the collectives of a group, their nodes, and those of a thread in no group. -/
theorem collective' : Obligations.Collective := ⟨collectives, reductions, collectiveNodes, collectivesAlone⟩

end Sys2Proof.Machine
end

section
/-! SETTLED. O44: share arithmetic. First what taking the fault of one thread leaves, once for all instructions that raise. -/
namespace Sys2Proof.Machine

/-! ### One thread's fault (R92, R255 to R258) -/

/-- A context but for its threads and groups. -/
def Ctx.frame (x : Ctx) : Ctx := { x with threads := [], groups := [] }

@[simp] theorem frame_modThr (s : State) (c t c' : Nat) (f : Thread → Thread) : ((s.modThr c t f).ctx c').frame = (s.ctx c').frame := by
  unfold State.modThr
  split
  · unfold State.setThr
    rw [State.ctx_modCtx]
    split
    · rename_i h; rw [h]; rfl
    · rfl
  · rfl
@[simp] theorem frame_modGroup (s : State) (c g c' : Nat) (f : Group → Group) : ((s.modGroup c g f).ctx c').frame = (s.ctx c').frame := by
  unfold State.modGroup
  split
  · rw [State.ctx_modCtx]
    split
    · rename_i h; rw [h]; rfl
    · rfl
  · rfl
@[simp] theorem frame_occupy (s : State) (b : Bundle) (n c : Nat) : ((occupy s b n).ctx c).frame = (s.ctx c).frame := by
  have hs : ∀ (u : UnitId) (f : Sched → Sched), ((modSched s b.core u f).ctx c).frame = (s.ctx c).frame := fun u f => by
    cases u <;> simp [modSched]
  unfold occupy
  simp only
  split
  · exact hs ..
  · rw [← hs b.unit fun q => { q with busy := nowOf s b.core + max 1 n }]
    simp only [State.ctx, State.core_modCore]
    split
    · rename_i h; rw [h]
    · rfl

@[simp] theorem sendSteward_cores (s : State) (c : Nat) (r : FRec) : (sendSteward s c r).cores = s.cores := by
  unfold sendSteward State.modPart
  split
  · split <;> rfl
  · rfl

/-- A report is a record of the core or of its partition; no thread changes. -/
theorem thr?_report (s : State) (c : Nat) (lv : Level) (r : FRec) (c' t : Nat) : (report s c lv r).thr? c' t = s.thr? c' t := by
  have hst : ∀ r, (sendSteward s c r).thr? c' t = s.thr? c' t := fun r => by
    simp only [State.thr?, State.ctx, State.core, sendSteward_cores]
  unfold report
  split
  · simp only [State.thr?, State.ctx_modCtx]
    split
    · rename_i h; rw [h]
    · rfl
  · exact hst _
  · exact hst _
  · exact hst _

theorem ctx_report (s : State) (c : Nat) (lv : Level) (r : FRec) :
    ((report s c lv r).ctx c) = if lv = .app then { s.ctx c with recs := (s.ctx c).recs ++ [r] } else s.ctx c := by
  have hst : ∀ r, (sendSteward s c r).ctx c = s.ctx c := fun r => by simp only [State.ctx, State.core, sendSteward_cores]
  unfold report
  cases lv with
  | app => rw [State.ctx_modCtx, if_pos rfl, if_pos rfl]
  | handler => exact hst _
  | steward => exact hst _
  | root => exact hst _

/-- `b` differs from `a` in nothing but the cores and the partitions. -/
def SameButReports (a b : State) : Prop := b = { a with cores := b.cores, parts := b.parts }
theorem SameButReports.refl (a : State) : SameButReports a a := rfl
theorem SameButReports.trans {a b c : State} (h : SameButReports a b) (k : SameButReports b c) : SameButReports a c := by
  unfold SameButReports at *
  rw [k, h]
theorem SameButReports.modCore (s : State) (c : Nat) (f : Core → Core) : SameButReports s (s.modCore c f) := rfl
theorem SameButReports.modCtx (s : State) (c : Nat) (f : Ctx → Ctx) : SameButReports s (s.modCtx c f) := rfl
theorem SameButReports.modThr (s : State) (c t : Nat) (f : Thread → Thread) : SameButReports s (s.modThr c t f) := by
  unfold State.modThr
  split
  · exact .modCtx ..
  · exact .refl s
theorem SameButReports.modGroup (s : State) (c g : Nat) (f : Group → Group) : SameButReports s (s.modGroup c g f) := by
  unfold State.modGroup
  split
  · exact .modCtx ..
  · exact .refl s
theorem SameButReports.occupy (s : State) (b : Bundle) (n : Nat) : SameButReports s (occupy s b n) := by
  have hs : ∀ (u : UnitId) (f : Sched → Sched), SameButReports s (modSched s b.core u f) := fun u f => by
    cases u with
    | grp g => exact .modGroup ..
    | thr t => exact .modThr ..
  unfold Machine.occupy
  simp only
  split
  · exact hs ..
  · exact (hs ..).trans (.modCore ..)
theorem SameButReports.report (s : State) (c : Nat) (lv : Level) (r : FRec) : SameButReports s (report s c lv r) := by
  have hst : ∀ r, SameButReports s (sendSteward s c r) := fun r => by
    unfold sendSteward State.modPart
    split
    · split <;> rfl
    · rfl
  unfold Machine.report
  split
  · exact .modCtx ..
  · exact hst _
  · exact hst _
  · exact hst _

/-- The sub-bundle of one thread that raises, and its record. -/
def subOf (s : State) (c t : Nat) (x : Raise) : Parked :=
  { id := (s.ctx c).nextPark, unit := (s.thr c t).unit t, mems := [(((s.thr c t).grp.map (·.2)).getD 0, t)], pc := (s.thr c t).pc
    code := x.code, service := x.service, dst := x.dst, bp := x.bp, next := resumePc x (s.thr c t).pc }
def recOf (s : State) (c t : Nat) (x : Raise) : FRec :=
  { faultRec s c [(t, x)] t x with
    park := some (s.ctx c).nextPark, mask := 0#32 ||| (1#32 <<< ((s.thr c t).grp.map (·.2)).getD 0) }
theorem parkSub_single (s : State) (c t : Nat) (x : Raise) : parkSub s c [(t, x)] =
    report ((s.modCtx c fun y => { y with nextPark := (s.ctx c).nextPark + 1, parked := y.parked ++ [subOf s c t x] }).modThr c t
      fun th => { th with park := some (s.ctx c).nextPark, blk := .run }) c (s.thr c t).level (recOf s c t x) := rfl

theorem SameButReports.parkSub (s : State) (c t : Nat) (x : Raise) : SameButReports s (parkSub s c [(t, x)]) := by
  rw [parkSub_single]
  exact ((SameButReports.modCtx ..).trans (.modThr ..)).trans (.report ..)

theorem thr?_parkSub {s : State} {c t : Nat} {th : Thread} (hl : s.thr? c t = some th) (x : Raise) :
    (parkSub s c [(t, x)]).thr? c t = some { th with park := some (s.ctx c).nextPark, blk := .run } := by
  rw [parkSub_single, thr?_report, State.thr?_modThr, if_pos ⟨rfl, rfl⟩]
  have hc : ∀ f : Ctx → Ctx, (f (s.ctx c)).threads = (s.ctx c).threads → (s.modCtx c f).thr? c t = s.thr? c t := fun f hf => by
    simp [State.thr?, hf]
  rw [hc _ rfl, hl, Option.map_some]

theorem ctx_parkSub (s : State) (c t : Nat) (x : Raise) : let w := (parkSub s c [(t, x)]).ctx c
    w.parked = (s.ctx c).parked ++ [subOf s c t x] ∧ w.ops = (s.ctx c).ops ∧
      w.recs = if (s.thr c t).level = .app then (s.ctx c).recs ++ [recOf s c t x] else (s.ctx c).recs := by
  have hm := frame_modThr (s.modCtx c fun y => { y with nextPark := (s.ctx c).nextPark + 1, parked := y.parked ++ [subOf s c t x] }) c t c
    fun th => { th with park := some (s.ctx c).nextPark, blk := .run }
  rw [State.ctx_modCtx, if_pos rfl] at hm
  have hparked := congrArg Ctx.parked hm
  have hops := congrArg Ctx.ops hm
  have hrecs := congrArg Ctx.recs hm
  rw [parkSub_single, ctx_report]
  split
  · exact ⟨hparked, hops, congrArg (· ++ [recOf s c t x]) hrecs⟩
  · exact ⟨hparked, hops, hrecs⟩

/-- What a thread that raises leaves (R92, R255 to R258). -/
theorem raised_parkSub {s : State} {b : Bundle} {t : Nat} {th : Thread} {lv : Level} {u : Uses} {h : Hdr} (rd : Ready s b t th lv u h)
    (n : Nat) {x : Raise} (hx : x.at_ = none) : Raised s (parkSub (occupy s b n) b.core [(t, x)]) b.core t x.code x.num := by
  obtain ⟨q, hq⟩ := thr_occupy s b n b.core t
  rw [rd.live, Option.map_some] at hq
  obtain ⟨hparked, hops, hrecs⟩ := ctx_parkSub (occupy s b n) b.core t x
  have hth := thr?_parkSub hq x
  have hoc := frame_occupy s b n b.core
  have hnext := congrArg Ctx.nextPark hoc
  have hrecs' := congrArg Ctx.recs hoc
  have hops' := congrArg Ctx.ops hoc
  change ((occupy s b n).ctx b.core).nextPark = (s.ctx b.core).nextPark at hnext
  refine ⟨?_, ?_, ?_, fun hlv => ?_, ?_⟩
  · rw [State.thr_of hth, hnext, rd.thr]
  · refine ⟨subOf (occupy s b n) b.core t x, ?_, hnext, ?_, rfl, rfl⟩
    · rw [hparked]
      exact List.mem_append_right _ (.head _)
    · rw [subOf, State.thr_of hq, rd.thr]
  · exact (SameButReports.occupy s b n).trans (.parkSub ..)
  · refine ⟨recOf (occupy s b n) b.core t x, ?_, congrArg some hnext, rfl, rfl, ?_, Nat.min_self t, ?_, rfl⟩
    · rw [rd.thr] at hlv
      rw [hrecs, State.thr_of hq, if_pos hlv]
      exact congrArg (· ++ _) hrecs'
    · simp only [recOf, faultRec, State.thr_of hq, rd.thr, hx, Option.getD_none]
    · simp only [recOf, faultRec, State.thr_of hq, rd.thr]
      rfl
  · exact hops.trans hops'

/-- An instruction of one thread that raises. -/
theorem raises_of_fail {i : Instr} {s : State} {b : Bundle} {t : Nat} {th : Thread} {lv : Level} {u : Uses} {h : Hdr}
    {act : Env → DWord → State → Res} {code : BitVec 6} (rd : Ready s b t th lv u h) (he : exec i s = .next (perThread lv u h act s))
    (ha : act (envOf s b t u h) th.pc s = .fail s { code := code }) : Raises i s b t code := by
  obtain ⟨n, hn⟩ := raises_perThread rd rfl he ha rd.quiet
  exact ⟨_, hn, raised_parkSub rd n rfl⟩

end Sys2Proof.Machine
end

section
/-! SETTLED. O44, words and local operations: a value modulo 2^n as a word, and what an instruction of one thread writes from its operands
and its session. -/
namespace Sys2Proof.Machine

/-! ### Words (R74) -/

theorem two_pow_shBits (ty : ShTy) : 2 ^ ShTy.bits ty = if ty = .s32 ∨ ty = .tr32 then 2 ^ 32 else 2 ^ 16 := by cases ty <;> rfl
theorem shWord_eq (ty : ShTy) (v : Int) :
    shWord ty v = BitVec.ofNat 32 (v % ((if ty = .s32 ∨ ty = .tr32 then 2 ^ 32 else 2 ^ 16 : Nat) : Int)).toNat := by
  have hpos : (0 : Int) ≤ v % ((if ty = .s32 ∨ ty = .tr32 then 2 ^ 32 else 2 ^ 16 : Nat) : Int) :=
    Int.emod_nonneg _ (by split <;> decide)
  rw [shWord, two_pow_shBits, ← BitVec.ofInt_natCast, Int.toNat_of_nonneg hpos]
theorem shVal_eq (ty : ShTy) (w : Word) : shVal ty w = ((w.toNat % (if ty = .s32 ∨ ty = .tr32 then 2 ^ 32 else 2 ^ 16) : Nat) : Int) := by
  rw [shVal, two_pow_shBits]

/-- The low 16 bits of a word. -/
theorem and_low16 (w : Word) : w &&& 0xFFFF = BitVec.ofNat 32 (w.toNat % 2 ^ 16) := by
  refine BitVec.eq_of_toNat_eq ?_
  rw [BitVec.toNat_and, BitVec.toNat_ofNat, Nat.mod_eq_of_lt (by omega : w.toNat % 2 ^ 16 < 2 ^ 32)]
  exact Nat.and_two_pow_sub_one_eq_mod _ 16
theorem shWord_natCast (ty : ShTy) (n : Nat) : shWord ty n = BitVec.ofNat 32 (n % 2 ^ ShTy.bits ty) := by
  rw [shWord, ← Int.natCast_mod, BitVec.ofInt_natCast]
theorem shWord_shVal_b16 (w : Word) : shWord .b16 (shVal .b16 w) = w &&& 0xFFFF := by
  rw [shVal, shWord_natCast, Nat.mod_mod, and_low16]
  rfl
theorem shWord_xorI (x y : Word) : shWord .b16 (xorI (shVal .b16 x) (shVal .b16 y)) = (x ^^^ y) &&& 0xFFFF := by
  rw [shVal, shVal, xorI, Int.toNat_natCast, Int.toNat_natCast, shWord_natCast, ← Nat.xor_mod_two_pow, Nat.mod_mod, and_low16, BitVec.toNat_xor]
  rfl

theorem shVal_toNat (ty : ShTy) (w : Word) : ((shVal ty w).toNat : Int) = shVal ty w := rfl
theorem shWord_bit (ty : ShTy) (x : Bool) : shWord ty (shVal ty (BitVec.ofNat 32 x.toNat)) = if x then 1 else 0 := by
  cases x <;> cases ty <;> decide

/-! ### Instructions of one thread with a session (R356, R362) -/

section
variable {i : Instr} {s : State} {b : Bundle} {t : Nat} {th : Thread} {lv : Level} {u : Uses} {h : Hdr} {ty : ShTy} {d : Dst} {a p q : Src}
  {n : Nat} {g : Gate} {pn : Bool}

theorem ends_wrWord {act : Env → DWord → State → Res} {v : Word} (rd : Ready s b t th lv u h) (he : exec i s = .next (perThread lv u h act s))
    (ha : act (envOf s b t u h) th.pc s = .done (wrWord s (envOf s b t u h) d v)) : Ends i s b t u h (wrWord s (envOf s b t u h) d v) :=
  ends_perThread rd he ha (by rw [(SameThreads.wrWord ..).live, rd.live]; rfl)

theorem ends_shLocal {f : Int → Int → Int} {v : Word} (rd : Ready s b t th .app (ofWords [a, p] d) h)
    (he : exec i s = .next (shLocal h ty d a p none f s))
    (hv : shWord ty (f (shVal ty (rdWord s (envOf s b t (ofWords [a, p] d) h) h a))
      (shVal ty (rdWord s (envOf s b t (ofWords [a, p] d) h) h p))) = v) :
    Ends i s b t (ofWords [a, p] d) h (wrWord s (envOf s b t (ofWords [a, p] d) h) d v) := by
  subst hv
  exact ends_wrWord rd he rfl

theorem ends_shLocal_pub {f : Int → Int → Int} {v : Word} (rd : Ready s b t th .app (ofWords [a, p, q] d) h)
    (he : exec i s = .next (shLocal h ty d a p (some q) f s))
    (hs : sessionOf s (envOf s b t (ofWords [a, p, q] d) h)
      (rdWord s (envOf s b t (ofWords [a, p, q] d) h) h q) = .ok (n, g))
    (hv : shWord ty (if g.party then shVal ty (rdWord s (envOf s b t (ofWords [a, p, q] d) h) h a)
      else f (shVal ty (rdWord s (envOf s b t (ofWords [a, p, q] d) h) h a))
        (shVal ty (rdWord s (envOf s b t (ofWords [a, p, q] d) h) h p))) = v) :
    Ends i s b t (ofWords [a, p, q] d) h (wrWord s (envOf s b t (ofWords [a, p, q] d) h) d v) := by
  subst hv
  exact ends_wrWord rd he (by simp only [hs])

theorem raises_shLocal {f : Int → Int → Int} {r : BitVec 6} (rd : Ready s b t th .app (ofWords [a, p, q] d) h)
    (he : exec i s = .next (shLocal h ty d a p (some q) f s))
    (hs : sessionOf s (envOf s b t (ofWords [a, p, q] d) h)
      (rdWord s (envOf s b t (ofWords [a, p, q] d) h) h q) = .error r) : Raises i s b t r :=
  raises_of_fail rd he (by simp only [hs]; rfl)

theorem ends_shCvt {f : Word → Word} {v : Word} (rd : Ready s b t th .app (ofWords [a, p] d) h)
    (he : exec i s = .next (shCvt h ty pn d a p f s))
    (hs : sessionOf s (envOf s b t (ofWords [a, p] d) h)
      (rdWord s (envOf s b t (ofWords [a, p] d) h) h p) = .ok (n, g))
    (hv : (if g.party = pn then shWord ty (shVal ty (f (rdWord s (envOf s b t (ofWords [a, p] d) h) h a))) else 0) = v) :
    Ends i s b t (ofWords [a, p] d) h (wrWord s (envOf s b t (ofWords [a, p] d) h) d v) := by
  subst hv
  exact ends_wrWord rd he (by simp only [hs])

theorem raises_shCvt {f : Word → Word} {r : BitVec 6} (rd : Ready s b t th .app (ofWords [a, p] d) h)
    (he : exec i s = .next (shCvt h ty pn d a p f s))
    (hs : sessionOf s (envOf s b t (ofWords [a, p] d) h)
      (rdWord s (envOf s b t (ofWords [a, p] d) h) h p) = .error r) : Raises i s b t r :=
  raises_of_fail rd he (by simp only [hs]; rfl)

/-- An operation that finishes from a group and an opened word (R362). -/
theorem ends_shFinish {f : State → Bool → (Nat → Word) → Word × Word → Word} {v : Word}
    (hu : u = { srcs := [(a, groupLen ty), (p, if ty == .s32 then 2 else 1), (q, 1)], dsts := [(d, 1)] }) (rd : Ready s b t th .app u h)
    (he : exec i s = .next (shFinish h ty d a p q f s))
    (hs : sessionOf s (envOf s b t u h) (rdWord s (envOf s b t u h) h q) = .ok (n, g))
    (hv : f s g.party (fun i => rdWord s (envOf s b t u h) h a i)
      (rdWord s (envOf s b t u h) h p, if ty == .s32 then rdWord s (envOf s b t u h) h p 1 else 0) = v) :
    Ends i s b t u h (wrWord s (envOf s b t u h) d v) := by
  subst hv hu
  exact ends_wrWord rd he (by simp only [hs])

theorem ends_shTrunc {v : Word}
    (hu : u = { srcs := [(a, groupLen ty), (p, if ty == .s32 then 2 else 1), (q, 1)], dsts := [(d, 1)] }) (rd : Ready s b t th .app u h)
    (hs : sessionOf s (envOf s b t u h) (rdWord s (envOf s b t u h) h q) = .ok (n, g))
    (hv : truncV ty g.party (shVal ty (rdWord s (envOf s b t u h) h p)).toNat
      (shVal ty (rdWord s (envOf s b t u h) h a (if ty = .s32 then 3 else 2))).toNat
      (shVal ty (rdWord s (envOf s b t u h) h a (if ty = .s32 then 4 else 3))).toNat (s.free 0) = v) :
    Ends (.shTrunc h ty d a p q) s b t u h (wrWord s (envOf s b t u h) d v) := by
  refine ends_shFinish hu rd rfl hs ?_
  rw [← hv]
  cases ty <;> rfl

end

/-! ### Truncation (R367) -/

theorem natCast_div_two_pow (c f : Nat) : ((c / 2 ^ f : Nat) : Int) = (c : Int) / (2 : Int) ^ f := by push_cast; rfl
theorem shWord_toNat_lt (ty : ShTy) (v : Int) : (shWord ty v).toNat < 2 ^ ShTy.bits ty := by
  have hb : 2 ^ ShTy.bits ty ≤ 2 ^ 32 := by cases ty <;> decide
  have h0 : (0 : Int) ≤ v % (2 ^ ShTy.bits ty : Nat) := Int.emod_nonneg _ (by cases ty <;> decide)
  have h1 : v % (2 ^ ShTy.bits ty : Nat) < (2 ^ ShTy.bits ty : Nat) := Int.emod_lt_of_pos _ (by cases ty <;> decide)
  rw [shWord, ← Int.toNat_of_nonneg h0, BitVec.ofInt_natCast, BitVec.toNat_ofNat]
  exact Nat.lt_of_le_of_lt (Nat.mod_le _ _) (by omega)
theorem truncV_party (ty : ShTy) (c q f : Nat) (x : Word) : truncV ty true c q f x = shWord ty (-(q : Int)) := rfl
theorem truncV_within {ty : ShTy} {f : Nat} (hf : f ≤ ShTy.bits ty - 2) (c q : Nat) (x : Word) : truncV ty false c q f x =
    shWord ty ((c : Int) / (2 : Int) ^ f - (2 : Int) ^ (ShTy.bits ty - 2 - f) - q) := by
  rw [truncV, if_neg (by simp), if_neg (Nat.not_lt.2 hf), natCast_div_two_pow, Nat.cast_pow]
  rfl
theorem truncV_beyond {ty : ShTy} {f : Nat} (hf : ShTy.bits ty - 2 < f) (c q : Nat) (x : Word) : truncV ty false c q f x = shWord ty x.toNat := by
  rw [truncV, if_neg (by simp), if_pos hf]

end Sys2Proof.Machine
end

section
/-! SETTLED. O44, a write at home: what it leaves of the rest of the state, and the bytes of its line afterwards (R294 to R297). -/
namespace Sys2Proof.Machine

/-! ### What a write at home can change -/

/-- `b` differs from `a` in nothing but the dies and the memory behind them. -/
def HomeOnly (a b : State) : Prop :=
  b = { a with dies := b.dies, mem := b.mem, poison := b.poison, veil := b.veil, spoiled := b.spoiled }
theorem HomeOnly.refl (a : State) : HomeOnly a a := rfl
theorem HomeOnly.trans {a b c : State} (h : HomeOnly a b) (k : HomeOnly b c) : HomeOnly a c := by
  unfold HomeOnly at *
  rw [k, h]
theorem HomeOnly.modDie (s : State) (d : Nat) (f : Die → Die) : HomeOnly s (s.modDie d f) := rfl
theorem HomeOnly.foldl {α : Type} {f : State → α → State} (hf : ∀ s a, HomeOnly s (f s a)) (l : List α) : ∀ s, HomeOnly s (l.foldl f s) := by
  induction l with
  | nil => exact HomeOnly.refl
  | cons a l ih => exact fun s => (hf s a).trans (ih _)
theorem HomeOnly.writeBack (s : State) (l : L2Line) : HomeOnly s (writeBack s l) := by
  unfold Machine.writeBack State.unveil
  split
  · dsimp only
    split <;> rfl
  · exact .refl s
theorem HomeOnly.evictOne (s : State) (w : Nat) (set : Nat × Nat × Nat) : HomeOnly s (evictOne s w set) := by
  unfold Machine.evictOne
  dsimp only
  split
  · exact .refl s
  · split
    · exact .modDie ..
    · exact (HomeOnly.foldl HomeOnly.writeBack _ s).trans (.modDie ..)
theorem HomeOnly.makeRoom (n : Nat) : ∀ (s : State) (w : Nat) (set : Nat × Nat × Nat) (size : Nat), HomeOnly s (makeRoom n s w set size) := by
  induction n with
  | zero => exact fun s _ _ _ => .refl s
  | succ n ih =>
    intro s w set size
    unfold Machine.makeRoom
    split
    · exact (HomeOnly.evictOne ..).trans (ih ..)
    · exact .refl s
theorem HomeOnly.modL2 (s : State) (w va : Nat) (f : L2Line → L2Line) : HomeOnly s (s.modL2 w va f) := .modDie ..
theorem HomeOnly.fillL2 (s : State) (w : Nat) (h : Home) (prio : Nat) : HomeOnly s (fillL2 s w h prio) := by
  unfold Machine.fillL2
  split
  · exact .modL2 ..
  · exact (HomeOnly.makeRoom ..).trans (.modDie ..)
  · exact .refl s
theorem HomeOnly.roomToGrow (s : State) (w : Nat) (h : Home) (off : Nat) (d : List Byte) : HomeOnly s (roomToGrow s w h off d) := by
  unfold Machine.roomToGrow
  split
  · exact .refl s
  · dsimp only
    split
    · exact .refl s
    · exact ((HomeOnly.modDie ..).trans (.makeRoom ..)).trans (.modDie ..)

theorem HomeOnly.homeDie {a b : State} (h : HomeOnly a b) (w va : Nat) : b.homeDie w va = a.homeDie w va := by rw [h]; rfl

/-! ### The L2 of a die -/

theorem die_modDie (s : State) (d d' : Nat) (f : Die → Die) : (s.modDie d f).die d' = if d' = d then f (s.die d) else s.die d' := by
  simp only [State.die, State.modDie, Map.look_put]
  split <;> rfl
theorem die_foldl_writeBack (l : List L2Line) (s : State) (d : Nat) : (l.foldl writeBack s).die d = s.die d :=
  foldl_keeps (g := fun s : State => s.die d) (fun s l => by
    unfold writeBack State.unveil
    split
    · dsimp only
      split <;> rfl
    · rfl) l s

/-- No line of a die's L2 is the one at an address of a world. -/
def Absent (s : State) (d w va : Nat) : Prop := (s.die d).l2.find? (fun l => l.world == w && l.va == va) = none

theorem absent_filter {l : List L2Line} {p : L2Line → Bool} (h : l.find? p = none) (q : L2Line → Bool) : (l.filter q).find? p = none := by
  rw [List.find?_eq_none] at h ⊢
  exact fun x hx => h x (List.mem_filter.1 hx).1
theorem absent_evictOne {s : State} {d w va : Nat} (h : Absent s d w va) (w' : Nat) (set : Nat × Nat × Nat) : Absent (evictOne s w' set) d w va := by
  unfold evictOne
  dsimp only
  split
  · exact h
  · split
    · rw [Absent, die_modDie]
      split
      · rename_i hd; rw [hd] at h; exact h
      · exact h
    · rw [Absent, die_modDie]
      split
      · rename_i hd; rw [hd] at h
        rw [die_foldl_writeBack]
        exact absent_filter h _
      · rw [die_foldl_writeBack]
        exact h
theorem absent_makeRoom (n : Nat) : ∀ {s : State} {d w va : Nat}, Absent s d w va → ∀ w' set size, Absent (makeRoom n s w' set size) d w va := by
  induction n with
  | zero => exact fun h _ _ _ => h
  | succ n ih =>
    intro s d w va h w' set size
    unfold makeRoom
    split
    · exact ih (absent_evictOne h ..) ..
    · exact h

/-- A line joins an L2 that has none at its address. -/
theorem find?_append_of_absent {l : List L2Line} {x : L2Line} {p : L2Line → Bool} (h : l.find? p = none) (hp : p x = true) :
    (l ++ [x]).find? p = some x := by
  rw [List.find?_append, h, Option.none_or, List.find?_singleton, if_pos hp]

theorem l2?_modL2 (s : State) (w va : Nat) {f : L2Line → L2Line} (hf : ∀ l, (f l).world = l.world ∧ (f l).va = l.va) :
    (s.modL2 w va f).l2? w va = (s.l2? w va).map f := by
  rw [State.l2?, (HomeOnly.modL2 ..).homeDie, State.modL2, die_modDie, if_pos rfl, State.l2?, List.find?_map]
  have hp : (fun l : L2Line => l.world == w && l.va == va) ∘ (fun l => if (l.world == w && l.va == va) = true then f l else l) =
      fun l => l.world == w && l.va == va := by
    funext l
    simp only [Function.comp_apply]
    split
    · rw [(hf l).1, (hf l).2]
    · rfl
  rw [hp]
  cases hl : (s.die (s.homeDie w va)).l2.find? fun l => l.world == w && l.va == va with
  | none => rfl
  | some l =>
    have hl' : (l.world == w && l.va == va) = true := List.find?_some (p := fun l : L2Line => l.world == w && l.va == va) hl
    simp only [Option.map_some, if_pos hl']

/-- After a fill the line is there, with the bytes that stood at home. -/
theorem l2?_fillL2 {s : State} {w : Nat} {h : Home} {pa : Nat} (hpa : h.pa = some pa) (hw : windowLine s w h.va = false) (prio : Nat) :
    ∃ l, (fillL2 s w h prio).l2? w h.va = some l ∧ l.data = homeLine s w h := by
  unfold homeLine fillL2
  cases hl : s.l2? w h.va with
  | some l =>
    refine ⟨{ l with used := s.tick }, ?_, by simp [hw]⟩
    exact (l2?_modL2 s w h.va (f := fun l => { l with used := s.tick }) fun _ => ⟨rfl, rfl⟩).trans (by rw [hl]; rfl)
  | none =>
    simp only [hpa, hw, Bool.false_eq_true, if_false]
    refine ⟨{ world := w, va := h.va, data := memLine s pa, pa := pa, who := h.who, perm := h.perm, prio := prio,
              used := (makeRoom 64 s w (s.setOf w h.va) (format (memLine s pa)).2).tick,
              poison := memPoison (makeRoom 64 s w (s.setOf w h.va) (format (memLine s pa)).2) pa }, ?_, rfl⟩
    rw [State.l2?, (HomeOnly.modDie ..).homeDie, (HomeOnly.makeRoom ..).homeDie, die_modDie, if_pos rfl]
    refine find?_append_of_absent ?_ (by simp)
    exact absent_makeRoom 64 (d := s.homeDie w h.va) hl ..

theorem l2?_roomToGrow {s : State} {w : Nat} {h : Home} {l : L2Line} (hl : s.l2? w h.va = some l) (off : Nat) (d : List Byte) :
    (roomToGrow s w h off d).l2? w h.va = some l := by
  unfold roomToGrow
  rw [hl]
  dsimp only
  split
  · exact hl
  · have hm : (l.world == w && l.va == h.va) = true := List.find?_some (p := fun l : L2Line => l.world == w && l.va == h.va) hl
    rw [State.l2?, (HomeOnly.modDie ..).homeDie, (HomeOnly.makeRoom ..).homeDie, (HomeOnly.modDie ..).homeDie, die_modDie, if_pos rfl]
    refine find?_append_of_absent ?_ hm
    refine absent_makeRoom 64 (d := s.homeDie w h.va) ?_ ..
    rw [Absent, die_modDie, if_pos rfl, List.find?_eq_none]
    intro x hx
    simpa [imp_iff_not_or] using (List.mem_filter.1 hx).2

theorem HomeOnly.windowLine {a b : State} (h : HomeOnly a b) (w va : Nat) : windowLine b w va = windowLine a w va := by rw [h]; rfl
theorem homeLine_of_l2? {s : State} {w : Nat} {h : Home} {l : L2Line} (hw : windowLine s w h.va = false) (hl : s.l2? w h.va = some l) :
    homeLine s w h = l.data := by simp [homeLine, hw, hl]

/-- The far line of the writer's die goes. -/
def dropFar (s : State) (die w va : Nat) : State :=
  if die < 2 then s.modDie die fun x => { x with far := x.far.filter fun l => !(l.world == w && l.va == va) } else s
theorem HomeOnly.dropFar (s : State) (die w va : Nat) : HomeOnly s (dropFar s die w va) := by
  unfold Machine.dropFar
  split
  · exact .modDie ..
  · exact .refl s
theorem l2?_dropFar (s : State) (die w va w' va' : Nat) : (dropFar s die w va).l2? w' va' = s.l2? w' va' := by
  rw [State.l2?, (HomeOnly.dropFar ..).homeDie, dropFar]
  split
  · rw [die_modDie]
    split
    · rename_i hd; rw [State.l2?, hd]
    · rfl
  · rfl

/-- A line of the L2 after a write. -/
def L2Line.written (off : Nat) (d : List Byte) (sig : Option (Sig × Bool)) (prio : Nat) (l : L2Line) : L2Line :=
  { l with
    data := lineOfBytes (overlay (lineBytes l.data) off d), dirty := true, prio := prio
    poison := (List.range 16).foldl (fun p i =>
      if off ≤ 8 * i ∧ 8 * i + 8 ≤ off + d.length then p &&& ~~~(1#16 <<< i) else p) l.poison
    side := match sig with
      | some (v, true) => v
      | some (v, false) => l.side ||| v
      | none => l.side }
/-- A write at home: fill, room, the line's bytes, the far copy, the monitors. -/
theorem homeWrite_steps (s : State) (w die : Nat) (h : Home) (off : Nat) (d : List Byte) (sig : Option (Sig × Bool)) (prio : Nat) :
    ∃ d' : List Byte, (windowLine s w h.va = false → d' = d) ∧ homeWrite s w die h off d sig prio =
      wakeLine (dropFar ((roomToGrow (fillL2 s w h prio) w h off d').modL2 w h.va (L2Line.written off d' sig prio)) die w h.va) w h.va :=
  ⟨if windowLine s w h.va then (List.range d.length).map fun i => (s.free (2 ^ 61 + i)).setWidth 8 else d,
    fun hw => by rw [if_neg (by simp [hw])], rfl⟩

/-- What a write at home leaves but for the monitors, and the bytes of its line. -/
theorem homeWrite_eq_wake (s : State) (w die : Nat) (h : Home) (off : Nat) (d : List Byte) (sig : Option (Sig × Bool)) (prio : Nat) :
    ∃ v, homeWrite s w die h off d sig prio = wakeLine v w h.va ∧ HomeOnly s v ∧
      (∀ pa, h.pa = some pa → windowLine s w h.va = false → homeLine v w h = lineOfBytes (overlay (lineBytes (homeLine s w h)) off d)) := by
  obtain ⟨d', hd, he⟩ := homeWrite_steps s w die h off d sig prio
  have ho := (((HomeOnly.fillL2 s w h prio).trans (.roomToGrow _ w h off d')).trans (.modL2 _ w h.va (.written off d' sig prio))).trans (.dropFar _ die w h.va)
  refine ⟨_, he, ho, fun pa hpa hw => ?_⟩
  obtain ⟨l, hl, hdata⟩ := l2?_fillL2 hpa hw prio
  refine (homeLine_of_l2? (ho.windowLine w h.va ▸ hw) (l := l.written off d' sig prio) ?_).trans ?_
  · rw [l2?_dropFar, l2?_modL2 (f := .written off d' sig prio) _ _ _ fun _ => ⟨rfl, rfl⟩, l2?_roomToGrow hl, Option.map_some]
  · rw [show (l.written off d' sig prio).data = lineOfBytes (overlay (lineBytes l.data) off d') from rfl, hdata, hd hw]

/-! ### Threads when monitors wake -/

/-- A thread of core `c` when the monitors of a line wake. -/
def wakeThread (s : State) (w va c t : Nat) (th : Thread) : Thread :=
  match th.blk with
  | .mwait a d v seen left _ => if lineVa v = va && s.actWorld c t = w then { th with blk := .mwait a d v seen left true } else th
  | _ => th
def wakeCore (s : State) (w va c : Nat) (k : Core) : Core :=
  { k with ctx := { k.ctx with posts := k.ctx.posts.filter (!·.at_.meets (.bytes w .g va 128))
                               threads := k.ctx.threads.each (wakeThread s w va c) } }
theorem wakeLine_cores (s : State) (w va : Nat) : (wakeLine s w va).cores = s.cores.each (wakeCore s w va) := rfl

theorem thr?_wakeLine (s : State) (w va c t : Nat) : (wakeLine s w va).thr? c t = (s.thr? c t).map (wakeThread s w va c t) := by
  simp only [State.thr?, State.ctx, State.core, wakeLine_cores, Map.look_each]
  cases s.cores.look c with
  | none => rfl
  | some k => exact Map.look_each ..

end Sys2Proof.Machine
end

section
/-! SETTLED. O44, an abort of a session by the thread that finds it out: the record, the world's event, and the threads that wait (R372). -/
namespace Sys2Proof.Machine

/-- `b` has the threads of `a`, each in its group. -/
structure SameMembers (a b : State) : Prop where
  member : ∀ c t, ∃ f : Thread → Thread, (∀ th, (f th).grp = th.grp) ∧ b.thr? c t = (a.thr? c t).map f
theorem SameMembers.of_eq {a b : State} (h : ∀ c t, b.thr? c t = a.thr? c t) : SameMembers a b :=
  ⟨fun c t => ⟨id, fun _ => rfl, by rw [h, Option.map_id_fun, id]⟩⟩
theorem SameMembers.refl (a : State) : SameMembers a a := .of_eq fun _ _ => rfl
theorem SameMembers.trans {a b d : State} (h : SameMembers a b) (k : SameMembers b d) : SameMembers a d := ⟨fun c t => by
  obtain ⟨f, hf, h⟩ := h.member c t
  obtain ⟨g, hg, k⟩ := k.member c t
  exact ⟨g ∘ f, fun th => (hg _).trans (hf th), by rw [k, h, Option.map_map]⟩⟩
theorem SameMembers.of_cores {a b : State} (h : b.cores = a.cores) : SameMembers a b := .of_eq fun c t => by
  simp only [State.thr?, State.ctx, State.core, h]
theorem SameMembers.modCtx {s : State} {c : Nat} {f : Ctx → Ctx} (h : (f (s.ctx c)).threads = (s.ctx c).threads) : SameMembers s (s.modCtx c f) :=
  .of_eq fun c' t => by
    simp only [State.thr?, State.ctx_modCtx]
    split
    · rename_i hc; rw [hc, h]
    · rfl
theorem SameMembers.modThr {f : Thread → Thread} (hf : ∀ th, (f th).grp = th.grp) (s : State) (c t : Nat) : SameMembers s (s.modThr c t f) :=
  ⟨fun c' t' => by
    rw [State.thr?_modThr]
    split
    · rename_i h; obtain ⟨rfl, rfl⟩ := h; exact ⟨f, hf, rfl⟩
    · exact ⟨id, fun _ => rfl, by simp⟩⟩
theorem SameMembers.report (s : State) (c : Nat) (lv : Level) (r : FRec) : SameMembers s (report s c lv r) := .of_eq (thr?_report s c lv r)
theorem SameMembers.foldl {α : Type} {f : State → α → State} (hf : ∀ s a, SameMembers s (f s a)) (l : List α) :
    ∀ s, SameMembers s (l.foldl f s) := by
  induction l with
  | nil => exact SameMembers.refl
  | cons a l ih => exact fun s => (hf s a).trans (ih _)
theorem SameMembers.unitOf {a b : State} (h : SameMembers a b) (c t : Nat) : b.unitOf c t = a.unitOf c t := by
  obtain ⟨f, hf, h⟩ := h.member c t
  simp only [State.unitOf, State.thr, h, Thread.unit]
  cases a.thr? c t with
  | none => rfl
  | some th => simp only [Option.map_some, Option.getD_some, hf]

/-- Threads park; the gate and the events due stand. -/
structure ParksOnly (a b : State) : Prop where
  members : SameMembers a b
  todo    : b.todo = a.todo
  gate    : b.gate = a.gate
theorem ParksOnly.refl (a : State) : ParksOnly a a := ⟨.refl a, rfl, rfl⟩
theorem ParksOnly.trans {a b c : State} (h : ParksOnly a b) (k : ParksOnly b c) : ParksOnly a c :=
  ⟨h.members.trans k.members, k.todo.trans h.todo, k.gate.trans h.gate⟩
theorem SameButReports.todo {a b : State} (h : SameButReports a b) : b.todo = a.todo := by rw [h]
theorem SameButReports.gate {a b : State} (h : SameButReports a b) : b.gate = a.gate := by rw [h]
theorem SameButReports.foldl {α : Type} {f : State → α → State} (hf : ∀ s a, SameButReports s (f s a)) (l : List α) :
    ∀ s, SameButReports s (l.foldl f s) := by
  induction l with
  | nil => exact SameButReports.refl
  | cons a l ih => exact fun s => (hf s a).trans (ih _)
theorem ParksOnly.parkSub (s : State) (c : Nat) (l : List (Nat × Raise)) : ParksOnly s (parkSub s c l) := by
  cases l with
  | nil => exact .refl s
  | cons p l =>
    have hb : SameButReports s (Machine.parkSub s c (p :: l)) :=
      (((SameButReports.modCtx ..).trans (.foldl (fun s (a : Nat × Raise) => .modThr ..) _ _)).trans (.report ..))
    refine ⟨?_, hb.todo, hb.gate⟩
    unfold Machine.parkSub
    dsimp only
    refine SameMembers.trans (SameMembers.trans ?_ (.foldl (fun s a => ?_) _ _)) (.report ..)
    · exact SameMembers.modCtx (f := fun x => { x with nextPark := _, parked := _ }) rfl
    · refine SameMembers.modThr ?_ ..
      exact fun _ => rfl

/-- Faults that are not of a consumed error only park threads. -/
theorem ParksOnly.takeFaults (s : State) (c : Nat) {l : List (Nat × Raise)} (hl : ∀ p ∈ l, p.2.used = false) : ParksOnly s (takeFaults s c l) := by
  unfold Machine.takeFaults
  generalize (l.map (faultKey s c)).eraseDups = keys
  suffices H : ∀ s', ParksOnly s s' → ParksOnly s (keys.foldl _ s') from H s (.refl s)
  induction keys with
  | nil => exact fun _ h => h
  | cons k keys ih =>
    refine fun s' h => ih _ (h.trans ?_)
    dsimp only
    split
    · rename_i t r m hm
      have hr : r.used = false := hl (t, r) (List.mem_of_mem_filter (hm ▸ List.mem_cons_self ..))
      split
      · exact .refl _
      · simp only [hr, Bool.false_and, Bool.false_eq_true, if_false]
        exact .parkSub ..
    · exact .refl _

/-- What an abort does: threads park, records are aborted, and no rollback falls due. -/
structure AbortOnly (a b : State) : Prop where
  members : SameMembers a b
  todo    : ∃ l, b.todo = a.todo ++ l ∧ ∀ c u, Due.rollback c u ∉ l
  gate    : ∀ m, (a.gateRec m).st = .aborted → (b.gateRec m).st = .aborted
theorem AbortOnly.refl (a : State) : AbortOnly a a := ⟨.refl a, ⟨[], by simp⟩, fun _ h => h⟩
theorem AbortOnly.trans {a b c : State} (h : AbortOnly a b) (k : AbortOnly b c) : AbortOnly a c := by
  obtain ⟨l, hl, hr⟩ := h.todo
  obtain ⟨l', hl', hr'⟩ := k.todo
  refine ⟨h.members.trans k.members, ⟨l ++ l', by rw [hl', hl, List.append_assoc], fun c u => ?_⟩, fun m hm => k.gate m (h.gate m hm)⟩
  rw [List.mem_append, not_or]
  exact ⟨hr c u, hr' c u⟩
theorem ParksOnly.abort {a b : State} (h : ParksOnly a b) : AbortOnly a b :=
  ⟨h.members, ⟨[], by rw [h.todo, List.append_nil], by simp⟩, fun m hm => by rw [State.gateRec, h.gate]; exact hm⟩
theorem AbortOnly.foldl {α : Type} {f : State → α → State} (hf : ∀ s a, AbortOnly s (f s a)) (l : List α) : ∀ s, AbortOnly s (l.foldl f s) := by
  induction l with
  | nil => exact AbortOnly.refl
  | cons a l ih => exact fun s => (hf s a).trans (ih _)

/-- A record aborted. -/
def Gate.abort (q : Gate) : Gate :=
  { q with st := .aborted, held := none, pending := none, mine := none, theirs := none, half := [], since := none, waiter := none, waitTo := [] }
/-- One side of an abort: its record, what is due, and the threads that wait for it. -/
def abortMark (s : State) (n : Nat) (code : BitVec 6) (q : Gate) : State :=
  let s := { s with gate := s.gate.put n q.abort }
  tellPeer { s with contribs := s.contribs.filter (·.1 != n), todo := s.todo ++ [.worldAbort q.world code] } q true
def abortWaiters (s : State) (n : Nat) (code : BitVec 6) (q : Gate) : State :=
  let s := match q.waiter with
    | some c => takeFaults s c (q.waitTo.map fun t => (t, { code := code }))
    | none => s
  s.cores.keys.foldl (fun s c => takeFaults s c ((s.ctx c).threads.filterMap fun (t, th) =>
    if th.blk == .retry (.gate n) then some (t, { code := code }) else none)) s
def abortSide (s : State) (p : Nat × BitVec 6) : State :=
  match s.gate.look p.1 with
  | none => s
  | some q => abortWaiters (abortMark s p.1 p.2 q) p.1 p.2 q

theorem abortSession_eq {s : State} {r : Nat} {g : Gate} (hg : s.gate.look r = some g) (he : g.ended = false) (hf : g.st ≠ .free) (own other : BitVec 6) :
    ∃ peers, abortSession s r own other = ((r, own) :: peers).foldl abortSide s := by
  have hst : (g.st == .aborted || g.st == .ended || g.st == .free) = false := by
    rw [Gate.ended] at he
    rw [he, Bool.false_or]
    exact beq_eq_false_iff_ne.2 hf
  unfold abortSession
  simp only [hg, hst]
  exact ⟨_, rfl⟩

theorem tellPeer_eq (s : State) (q : Gate) (a : Bool) : ∃ o, tellPeer s q a = { s with outbox := o } := by
  unfold tellPeer
  split
  · split
    · exact ⟨_, rfl⟩
    · exact ⟨_, rfl⟩
  · exact ⟨_, rfl⟩

theorem abortMark_facts (s : State) (n : Nat) (code : BitVec 6) (q : Gate) : let v := abortMark s n code q
    v.cores = s.cores ∧ v.todo = s.todo ++ [.worldAbort q.world code] ∧ v.gate = s.gate.put n q.abort := by
  obtain ⟨o, ho⟩ := tellPeer_eq { s with
    gate := s.gate.put n q.abort, contribs := s.contribs.filter (·.1 != n), todo := s.todo ++ [.worldAbort q.world code] } q true
  have : abortMark s n code q = _ := ho
  rw [this]
  exact ⟨rfl, rfl, rfl⟩
theorem AbortOnly.mark (s : State) (n : Nat) (code : BitVec 6) (q : Gate) : AbortOnly s (abortMark s n code q) := by
  obtain ⟨hc, ht, hg⟩ := abortMark_facts s n code q
  refine ⟨.of_cores hc, ⟨_, ht, by simp⟩, fun m hm => ?_⟩
  rw [State.gateRec, hg, Map.look_put]
  split
  · rfl
  · exact hm
theorem ParksOnly.waiters (s : State) (n : Nat) (code : BitVec 6) (q : Gate) : ParksOnly s (abortWaiters s n code q) := by
  have hfold : ∀ (l : List Nat) (s : State), ParksOnly s (l.foldl (fun s c => Machine.takeFaults s c ((s.ctx c).threads.filterMap fun (t, th) =>
      if th.blk == .retry (.gate n) then some (t, { code := code }) else none)) s) := by
    intro l
    induction l with
    | nil => exact .refl
    | cons c l ih =>
      refine fun s => ParksOnly.trans (.takeFaults s c fun p hp => ?_) (ih _)
      obtain ⟨⟨t, th⟩, -, h⟩ := List.mem_filterMap.1 hp
      dsimp only at h
      split at h
      · cases h; rfl
      · cases h
  unfold abortWaiters
  refine ParksOnly.trans ?_ (hfold ..)
  split
  · refine .takeFaults _ _ fun p hp => ?_
    obtain ⟨t, -, rfl⟩ := List.mem_map.1 hp
    rfl
  · exact .refl s
theorem AbortOnly.side (s : State) (p : Nat × BitVec 6) : AbortOnly s (abortSide s p) := by
  unfold abortSide
  split
  · exact .refl s
  · exact (AbortOnly.mark ..).trans (ParksOnly.waiters ..).abort

/-- An abort leaves the record aborted and the abort of its world due, and changes neither the threads' groups nor what is to roll back. -/
theorem abortSession_facts {s : State} {r : Nat} {g : Gate} (hg : s.gate.look r = some g) (he : g.ended = false) (hf : g.st ≠ .free)
    (own other : BitVec 6) : let v := abortSession s r own other
    AbortOnly s v ∧ (v.gateRec r).st = .aborted ∧ Due.worldAbort g.world own ∈ v.todo := by
  obtain ⟨peers, h⟩ := abortSession_eq hg he hf own other
  have hs : abortSide s (r, own) = abortWaiters (abortMark s r own g) r own g := by rw [abortSide, hg]
  obtain ⟨-, ht, hgate⟩ := abortMark_facts s r own g
  have hw := ParksOnly.waiters (abortMark s r own g) r own g
  have hrest := AbortOnly.foldl AbortOnly.side peers (abortSide s (r, own))
  rw [h, List.foldl_cons]
  refine ⟨(AbortOnly.side s (r, own)).trans hrest, hrest.gate r ?_, ?_⟩
  · rw [hs, State.gateRec, hw.gate, hgate, Map.look_put_self]
    rfl
  · obtain ⟨l, hl, -⟩ := hrest.todo
    rw [hl, hs, hw.todo, ht]
    simp

end Sys2Proof.Machine
end

section
/-! SETTLED. O44, `sh.beg`: the item at a pool's cursor, taken and burned; the words of the group it writes (R359, R360, R363). -/
namespace Sys2Proof.Machine

/-! ### The words of an item and of a group (R359, R363) -/

theorem itemWords_getD (ty : ShTy) (l : List Byte) {i : Nat} (hi : i < 4) :
    (itemWords ty l).getD i 0 = BitVec.ofNat 32 (natOf ((l.drop ((if ty = .s32 ∨ ty = .tr32 then 4 else 2) * i)).take
      (if ty = .s32 ∨ ty = .tr32 then 4 else 2))) := by
  have hk : ShTy.item ty / 4 = if ty = .s32 ∨ ty = .tr32 then 4 else 2 := by cases ty <;> rfl
  simp only [itemWords, bytesNat, hk, List.getD_eq_getElem?_getD, List.getElem?_map, List.getElem?_range hi, Option.map_some, Option.getD_some]

theorem toNat_shWord (ty : ShTy) (v : Int) : (shWord ty v).toNat = (v % (2 ^ ShTy.bits ty : Nat)).toNat := by
  have hb : 2 ^ ShTy.bits ty ≤ 2 ^ 32 := by cases ty <;> decide
  have h0 : (0 : Int) ≤ v % (2 ^ ShTy.bits ty : Nat) := Int.emod_nonneg _ (by cases ty <;> decide)
  have h1 : v % (2 ^ ShTy.bits ty : Nat) < (2 ^ ShTy.bits ty : Nat) := Int.emod_lt_of_pos _ (by cases ty <;> decide)
  rw [shWord, ← Int.toNat_of_nonneg h0, BitVec.ofInt_natCast, BitVec.toNat_ofNat, Int.toNat_natCast]
  exact Nat.mod_eq_of_lt (by omega)

section
variable (x y : Word) (n : Nat)

theorem shWord_sub_s16 : shWord .s16 (shVal .s16 x - shVal .s16 y) = (x - y) &&& 0xFFFF := by
  refine BitVec.eq_of_toNat_eq ?_
  rw [toNat_shWord, and_low16, BitVec.toNat_ofNat, BitVec.toNat_sub]
  simp only [shVal, ShTy.bits]
  omega
theorem shWord_sub_s32 : shWord .s32 (shVal .s32 x - shVal .s32 y) = x - y := by
  refine BitVec.eq_of_toNat_eq ?_
  rw [toNat_shWord, BitVec.toNat_sub]
  simp only [shVal, ShTy.bits]
  omega
theorem shWord_add_tr16 : shWord .tr16 (shVal .tr16 x + shVal .tr16 y + n) = (x + y + BitVec.ofNat 32 n) &&& 0xFFFF := by
  refine BitVec.eq_of_toNat_eq ?_
  rw [toNat_shWord, and_low16, BitVec.toNat_ofNat, BitVec.toNat_add, BitVec.toNat_add, BitVec.toNat_ofNat]
  simp only [shVal, ShTy.bits]
  omega
theorem shWord_add_tr32 : shWord .tr32 (shVal .tr32 x + shVal .tr32 y + n) = x + y + BitVec.ofNat 32 n := by
  refine BitVec.eq_of_toNat_eq ?_
  rw [toNat_shWord, BitVec.toNat_add, BitVec.toNat_add, BitVec.toNat_ofNat]
  simp only [shVal, ShTy.bits]
  omega
/-- The low halves of two words, as one. -/
theorem half_low16 : (x &&& (0xFFFF : Word) &&& (0xFFFF : Word)) ||| ((y &&& (0xFFFF : Word)) <<< 16) = (x &&& (0xFFFF : Word)) ||| (y <<< 16) := by
  have hx : x &&& (0xFFFF : Word) &&& (0xFFFF : Word) = x &&& (0xFFFF : Word) := by rw [BitVec.and_assoc]; rfl
  have hy : (y &&& 0xFFFF) <<< 16 = y <<< 16 := by
    refine BitVec.eq_of_toNat_eq ?_
    rw [and_low16, BitVec.toNat_shiftLeft, BitVec.toNat_shiftLeft, BitVec.toNat_ofNat, Nat.shiftLeft_eq, Nat.shiftLeft_eq]
    omega
  rw [hx, hy]
end

theorem begWords_s16 (p : Bool) (x y i0 i1 i2 i3 : Word) :
    begWords .s16 p x y [i0, i1, i2, i3] = [((x - i0) &&& (0xFFFF : Word)) ||| ((y - i1) <<< 16), i0, i1, i2] := by
  rw [← half_low16, ← shWord_sub_s16, ← shWord_sub_s16]
  rfl
theorem begWords_s32 (p : Bool) (x y i0 i1 i2 i3 : Word) :
    begWords .s32 p x y [i0, i1, i2, i3] = [x - i0, y - i1, i0, i1, i2, 0, 0, 0] := by
  rw [← shWord_sub_s32, ← shWord_sub_s32]
  rfl
theorem begWords_tr16 (p : Bool) (x y i0 i1 i2 i3 : Word) :
    begWords .tr16 p x y [i0, i1, i2, i3] = [(x + i0 + if p then 0 else 2 ^ 14) &&& 0xFFFF, i0, i1, i2] := by
  cases p with
  | true => exact congrArg (· :: [i0, i1, i2]) (shWord_add_tr16 x i0 0)
  | false => exact congrArg (· :: [i0, i1, i2]) (shWord_add_tr16 x i0 (2 ^ 14))
theorem begWords_tr32 (p : Bool) (x y i0 i1 i2 i3 : Word) :
    begWords .tr32 p x y [i0, i1, i2, i3] = [x + i0 + if p then 0 else 2 ^ 30, 0, i0, i1, i2, 0, 0, 0] := by
  cases p with
  | true => exact congrArg (· :: [0, i0, i1, i2, 0, 0, 0]) (shWord_add_tr32 x i0 0)
  | false => exact congrArg (· :: [0, i0, i1, i2, 0, 0, 0]) (shWord_add_tr32 x i0 (2 ^ 30))

/-! ### The item at the cursor of a pool (R360) -/

/-- Where a pool's next item stands, and its words. -/
def Pool.at_ (p : Pool) (ty : ShTy) : Nat := p.cursor * ShTy.item ty
def poolItem (s : State) (w : Nat) (p : Pool) (ty : ShTy) : List Word :=
  itemWords ty (homeBytes s w (p.base + p.at_ ty) (ShTy.item ty) [p.home (p.at_ ty)])
/-- The item burned at its home, and the cursor moved on. -/
def burned (s : State) (e : Env) (n : Nat) (g : Gate) (ty : ShTy) (p : Pool) : State :=
  let v := homeWrite s g.world (dieOf e.c) (p.home (p.at_ ty)) (p.at_ ty % 128) (List.replicate (ShTy.item ty) 0xFF) none
  (dropL1 v e.c fun l => l.world == g.world && l.va == (p.home (p.at_ ty)).va).modGate n fun g =>
    { g with pools := g.pools.put ty.ctorIdx { p with cursor := p.cursor + 1 } }

theorem takeItem_eq (s : State) (e : Env) (n : Nat) (g : Gate) (ty : ShTy) : takeItem s e n g ty =
    match g.pools.look ty.ctorIdx with
    | none => .error (s, { code := 0x11 })
    | some p =>
      if p.cursor = p.count then .error (s, { code := 0x11 })
      else if poisoned s g.world (p.base + p.at_ ty) (ShTy.item ty) [p.home (p.at_ ty)] then .error (s, { code := 0x14, used := true })
      else if ((poolItem s g.world p ty).getD 3 0).toNat ≠ p.cursor then .error (abortSession s n 0x12, { code := 0x12 })
      else .ok (burned s e n g ty p, poolItem s g.world p ty) := rfl

section
variable {s s' : State} {e : Env} {n : Nat} {g : Gate} {ty : ShTy} {p : Pool} {it : List Word}

theorem takeItem_none (h : g.pools.look ty.ctorIdx = none) : takeItem s e n g ty = .error (s, { code := 0x11 }) := by rw [takeItem_eq, h]
theorem takeItem_empty (h : g.pools.look ty.ctorIdx = some p) (hc : p.cursor = p.count) : takeItem s e n g ty = .error (s, { code := 0x11 }) := by
  rw [takeItem_eq, h]
  exact if_pos hc
theorem takeItem_wrong (h : g.pools.look ty.ctorIdx = some p) (hc : p.cursor ≠ p.count)
    (hp : poisoned s g.world (p.base + p.at_ ty) (ShTy.item ty) [p.home (p.at_ ty)] = false)
    (hi : ((poolItem s g.world p ty).getD 3 0).toNat ≠ p.cursor) : takeItem s e n g ty = .error (abortSession s n 0x12, { code := 0x12 }) := by
  rw [takeItem_eq, h]
  exact (if_neg hc).trans ((if_neg (by simp [hp])).trans (if_pos hi))
theorem takeItem_next (h : g.pools.look ty.ctorIdx = some p) (hc : p.cursor ≠ p.count)
    (hp : poisoned s g.world (p.base + p.at_ ty) (ShTy.item ty) [p.home (p.at_ ty)] = false)
    (hi : ((poolItem s g.world p ty).getD 3 0).toNat = p.cursor) :
    takeItem s e n g ty = .ok (burned s e n g ty p, poolItem s g.world p ty) := by
  rw [takeItem_eq, h]
  exact (if_neg hc).trans ((if_neg (by simp [hp])).trans (if_neg (not_not.2 hi)))
/-- Only an item of the right sequence is taken. -/
theorem takeItem_ok (h : takeItem s e n g ty = .ok (s', it)) : ∃ p, g.pools.look ty.ctorIdx = some p ∧ p.cursor ≠ p.count ∧
    (it.getD 3 0).toNat = p.cursor ∧ s' = burned s e n g ty p := by
  rw [takeItem_eq] at h
  split at h
  · cases h
  · rename_i p hp
    by_cases hc : p.cursor = p.count
    · rw [if_pos hc] at h; cases h
    · rw [if_neg hc] at h
      split at h
      · cases h
      · by_cases hi : ((poolItem s g.world p ty).getD 3 0).toNat ≠ p.cursor
        · rw [if_pos hi] at h; cases h
        · rw [if_neg hi] at h
          cases h
          exact ⟨p, hp, hc, not_not.1 hi, rfl⟩

theorem SameThreads.dropL1 (s : State) (c : Nat) (q : CLine → Bool) : SameThreads s (dropL1 s c q) := .modCore rfl
theorem burned_cursor : ((burned s e n g ty p).gateRec n).pools.look ty.ctorIdx = some { p with cursor := p.cursor + 1 } := by
  rw [burned, State.gateRec, State.modGate, Map.look_put_self]
  exact Map.look_put_self ..
theorem burned_live (c t : Nat) : ((burned s e n g ty p).thr? c t).isSome = (s.thr? c t).isSome := by
  obtain ⟨v, hv, ho, -⟩ := homeWrite_eq_wake s g.world (dieOf e.c) (p.home (p.at_ ty)) (p.at_ ty % 128) (List.replicate (ShTy.item ty) 0xFF) none 3
  have hb : (burned s e n g ty p).thr? c t = (dropL1 (wakeLine v g.world (p.home (p.at_ ty)).va) e.c
      fun l => l.world == g.world && l.va == (p.home (p.at_ ty)).va).thr? c t := by rw [burned, hv]; rfl
  rw [hb, (SameThreads.dropL1 ..).live, thr?_wakeLine, Option.isSome_map, ho]
  rfl
theorem homeLine_burned (hw : windowLine s g.world (p.home (p.at_ ty)).va = false) :
    homeLine (burned s e n g ty p) g.world (p.home (p.at_ ty)) =
      lineOfBytes (overlay (lineBytes (homeLine s g.world (p.home (p.at_ ty)))) (p.at_ ty % 128) (List.replicate (ShTy.item ty) 0xFF)) := by
  obtain ⟨v, hv, -, hl⟩ := homeWrite_eq_wake s g.world (dieOf e.c) (p.home (p.at_ ty)) (p.at_ ty % 128) (List.replicate (ShTy.item ty) 0xFF) none 3
  have hb : homeLine (burned s e n g ty p) g.world (p.home (p.at_ ty)) = homeLine v g.world (p.home (p.at_ ty)) := by rw [burned, hv]; rfl
  rw [hb, hl _ rfl hw]
end

/-! ### `sh.beg` (R360, R363) -/

section
variable {s s' : State} {b : Bundle} {t : Nat} {th : Thread} {u : Uses} {h : Hdr} {ty : ShTy} {d : Dst} {a p : Src} {pub : Option Src}
  {n : Nat} {g : Gate} {it : List Word}

/-- What `sh.beg` does of one thread. -/
def begAct (h : Hdr) (ty : ShTy) (d : Dst) (a : Src) (pub : Option Src) (c : Src) (e : Env) (_ : DWord) (s : State) : Res :=
  match sessionOf s e (rdWord s e h c) with
  | .error x => raise s x
  | .ok (n, g) =>
    if g.ended then raise s 0x12
    else match takeItem s e n g ty with
      | .error (s', r) => .fail s' r
      | .ok (s', it) =>
        let ws := begWords ty g.party (rdWord s e h a) ((pub.map (rdWord s e h ·)).getD 0) it
        .done (irrevocable ((List.range ws.length).foldl (fun s i => wrWord s e d (ws.getD i 0) i) s') e.c e.t)
theorem exec_shBeg (h : Hdr) (ty : ShTy) (d : Dst) (a : Src) (pub : Option Src) (c : Src) (s : State) : exec (.shBeg h ty d a pub c) s =
    .next (perThread .app { srcs := one (a :: c :: pub.toList), dsts := [(d, groupLen ty)] } h (begAct h ty d a pub c) s) := rfl

theorem begAct_error {e : Env} {r : BitVec 6} (hs : sessionOf s e (rdWord s e h p) = .error r) (pc : DWord) :
    begAct h ty d a pub p e pc s = .fail s { code := r } := by rw [begAct, hs]; rfl
theorem begAct_ended {e : Env} (hs : sessionOf s e (rdWord s e h p) = .ok (n, g)) (hg : g.ended = true) (pc : DWord) :
    begAct h ty d a pub p e pc s = .fail s { code := 0x12 } := by simp only [begAct, hs, hg]; rfl
theorem begAct_fail {e : Env} {x : Raise} (hs : sessionOf s e (rdWord s e h p) = .ok (n, g)) (hg : g.ended = false)
    (ht : takeItem s e n g ty = .error (s', x)) (pc : DWord) : begAct h ty d a pub p e pc s = .fail s' x := by
  simp only [begAct, hs, hg, ht]; rfl
theorem begAct_done {e : Env} (hs : sessionOf s e (rdWord s e h p) = .ok (n, g)) (hg : g.ended = false)
    (ht : takeItem s e n g ty = .ok (s', it)) (pc : DWord) : begAct h ty d a pub p e pc s =
      (let ws := begWords ty g.party (rdWord s e h a) ((pub.map (rdWord s e h ·)).getD 0) it
       .done (irrevocable ((List.range ws.length).foldl (fun s i => wrWord s e d (ws.getD i 0) i) s') e.c e.t)) := by
  simp only [begAct, hs, hg, ht]; rfl

theorem SameThreads.irrevocable (s : State) (c t : Nat) : SameThreads s (irrevocable s c t) := by
  unfold Machine.irrevocable modShadow
  split
  · exact .modCtx (by cases s.unitOf c t <;> rfl)
  · exact .refl s
theorem SameThreads.writes (e : Env) (d : Dst) (ws : List Word) (l : List Nat) : ∀ s, SameThreads s (l.foldl (fun s i => Machine.wrWord s e d (ws.getD i 0) i) s) := by
  induction l with
  | nil => exact SameThreads.refl
  | cons i l ih => exact fun s => (SameThreads.wrWord ..).trans (ih _)

/-- The session that an operand names is the record of the gate, and not a free one. -/
theorem sessionOf_ok {e : Env} {v : Word} (hs : sessionOf s e v = .ok (n, g)) (hn : s.gateRec n = g) : s.gate.look n = some g ∧ g.st ≠ .free := by
  unfold sessionOf at hs
  dsimp only at hs
  split at hs
  · cases hs
  · rename_i hf
    cases hs
    have hf : (s.gateRec (v.toNat % 64)).st ≠ .free := fun h => hf (.inl h)
    refine ⟨?_, hf⟩
    unfold State.gateRec at hf ⊢
    cases hl : s.gate.look (v.toNat % 64) with
    | none => rw [hl] at hf; exact absurd rfl hf
    | some g => rfl

/-- An item of the wrong sequence: the thread parks, and its session and world abort (R360, R372). -/
theorem begs_wrong {act : Env → DWord → State → Res} {i : Instr} {code : BitVec 6} (rd : Ready s b t th .app u h)
    (he : exec i s = .next (perThread .app u h act s)) (hg : s.gate.look n = some g) (hend : g.ended = false) (hfree : g.st ≠ .free)
    (ha : act (envOf s b t u h) th.pc s = .fail (abortSession s n code) { code := code }) :
    ∃ v, exec i s = .next v ∧ (v.thr b.core t).park ≠ none ∧ (v.gateRec n).st = .aborted ∧ Due.worldAbort g.world code ∈ v.todo := by
  obtain ⟨hab, hst, hdue⟩ := abortSession_facts hg hend hfree code 0x12
  have hq : (abortSession s n code).todo.contains (.rollback b.core ((abortSession s n code).unitOf b.core t)) = false := by
    obtain ⟨l, hl, hr⟩ := hab.todo
    have hquiet := rd.quiet
    rw [hab.members.unitOf, hl]
    simp only [List.contains_eq_mem, List.mem_append, decide_eq_false_iff_not, not_or] at hquiet ⊢
    exact ⟨hquiet, hr _ _⟩
  obtain ⟨m, hm⟩ := raises_perThread rd rfl he ha hq
  obtain ⟨f, -, hf⟩ := hab.members.member b.core t
  obtain ⟨q, hq'⟩ := thr_occupy (abortSession s n code) b m b.core t
  rw [hf, rd.live, Option.map_some, Option.map_some] at hq'
  have hb := (SameButReports.occupy (abortSession s n code) b m).trans (.parkSub _ b.core t { code := code })
  refine ⟨_, hm, ?_, ?_, ?_⟩
  · rw [State.thr_of (thr?_parkSub hq' _)]
    exact Option.some_ne_none _
  · rw [State.gateRec, hb.gate]
    exact hst
  · rw [hb.todo]
    exact hdue
end

/-- Settles O44: each clause is one of the lemmas above on words, sessions, pools and the abort. -/
theorem shareArithmetic : Obligations.ShareArithmetic := by
  intro s b t th h ty d a p q pub pn n g N low put
  have hput : ∀ v, put v = shWord ty v := fun v => (shWord_eq ty v).symm
  have hlow : ∀ w, low w = shVal ty w := fun w => (shVal_eq ty w).symm
  refine ⟨?_, ?_, ?_, ?_, ?_, ?_⟩
  · intro u e x y rd
    refine ⟨?_, ?_, ?_, ?_, fun r hr => ⟨?_, ?_⟩, fun hs => ⟨?_, ?_⟩⟩
    · exact ends_shLocal rd rfl (by rw [hput, hlow, hlow]; rfl)
    · exact ends_shLocal rd rfl (by rw [hput, hlow, hlow]; rfl)
    · exact ends_shLocal rd rfl (by rw [hput, hlow, hlow]; rfl)
    · exact ends_shLocal rd rfl (shWord_xorI ..)
    · exact raises_shCvt rd rfl hr
    · exact raises_shCvt rd rfl hr
    · exact ends_shCvt rd rfl hs (if_congr Iff.rfl (shWord_shVal_b16 _) rfl)
    · exact ends_shCvt rd rfl hs (if_congr Iff.rfl (shWord_bit ..) rfl)
  · intro u e x y rd
    refine ⟨fun r hr => ⟨?_, ?_, ?_⟩, fun hs => ⟨?_, ?_, ?_⟩⟩
    · exact raises_shLocal rd rfl hr
    · exact raises_shLocal rd rfl hr
    · exact raises_shLocal rd rfl hr
    · exact ends_shLocal_pub rd rfl hs (by simp only [hput, hlow]; split <;> rfl)
    · exact ends_shLocal_pub rd rfl hs (by simp only [hput, hlow]; split <;> rfl)
    · exact ends_shLocal_pub rd rfl hs (by split <;> [exact shWord_shVal_b16 ..; exact shWord_xorI ..])
  · intro wide u e w o rd hs
    refine ⟨?_, ?_, ?_, ?_⟩
    · rintro rfl
      exact ends_shFinish (ty := .s16) rfl rd rfl hs (by simp only [hput, hlow]; rfl)
    · rintro rfl
      exact ends_shFinish (ty := .s32) rfl rd rfl hs (by simp only [hput, hlow]; rfl)
    · rintro rfl
      exact ends_shFinish (ty := .b16) rfl rd rfl hs rfl
    · intro hty k m f
      have hu : u = { srcs := [(a, groupLen ty), (p, if ty == .s32 then 2 else 1), (q, 1)], dsts := [(d, 1)] } := by
        rcases hty with rfl | rfl <;> rfl
      have hk : k = ShTy.bits ty - 2 := by rcases hty with rfl | rfl <;> rfl
      have hm : m = shVal ty (w (if ty = .s32 then 3 else 2)) := hlow _
      have hf : f = (shVal ty (w (if ty = .s32 then 4 else 3))).toNat := congrArg Int.toNat (hlow _)
      rw [hk, hm, hf]
      refine ⟨fun hg => ends_shTrunc hu rd hs ?_, fun hg hle => ends_shTrunc hu rd hs ?_, fun hg hlt =>
        ⟨shWord ty (s.free 0).toNat, Nat.lt_of_lt_of_eq (shWord_toNat_lt ..) (two_pow_shBits ty), ends_shTrunc hu rd hs ?_⟩⟩
      · rw [hg, truncV_party, shVal_toNat, hput]
      · rw [hg, truncV_within hle, shVal_toNat, shVal_toNat, hput, hlow]
      · rw [hg, truncV_beyond hlt]
  · intro c' u e y rd
    refine ⟨fun r hr => raises_of_fail rd (exec_shBeg ..) (begAct_error hr _), fun hs => ⟨fun hg => ?_, fun hg hl => ?_, fun hg pl hl hc => ?_,
      fun hg s' it ht => ⟨?_, fun _ => ?_⟩, fun hg pl hl hc => ?_⟩⟩
    · exact raises_of_fail rd (exec_shBeg ..) (begAct_ended hs hg _)
    · exact raises_of_fail rd (exec_shBeg ..) (begAct_fail hs hg (takeItem_none hl) _)
    · exact raises_of_fail rd (exec_shBeg ..) (begAct_fail hs hg (takeItem_empty hl hc) _)
    · refine ends_perThread rd (exec_shBeg ..) (begAct_done hs hg ht _) ?_
      obtain ⟨pl, -, -, -, rfl⟩ := takeItem_ok ht
      rw [(SameThreads.irrevocable ..).live, (SameThreads.writes ..).live, burned_live, rd.live]
      rfl
    · obtain ⟨pl, hl, hc, hi, rfl⟩ := takeItem_ok ht
      exact ⟨pl, hl, hc, hi, burned_cursor⟩
    · intro sz va hm it hp
      have hsz : sz = ShTy.item ty := by cases ty <;> rfl
      clear_value sz
      subst hsz
      refine ⟨fun hi hn => ?_, fun hi => ?_⟩
      · obtain ⟨hlook, hfree⟩ := sessionOf_ok hs hn
        exact begs_wrong rd (exec_shBeg ..) hlook hg hfree (begAct_fail hs hg (takeItem_wrong hl hc hp hi) _)
      · exact ⟨_, takeItem_next hl hc hp hi, homeLine_burned⟩
  · exact fun l i hi => itemWords_getD ty l hi
  · exact fun x y i0 i1 i2 i3 => ⟨begWords_s16 .., begWords_s32 .., rfl, begWords_tr16 .., begWords_tr32 ..⟩

end Sys2Proof.Machine
end

section
/-! SETTLED. O1, O2: integer arithmetic. What an instruction of the integer class writes, said once for one, two and three sources: the exact
value, wrapped or clamped (R94); then each operation of R95 and R96. -/
namespace Sys2Proof.Machine

/-! ### The end of R94 -/

theorem tyMin_le_tyMax (ty : Ty) : tyMin ty ≤ tyMax ty := (rdInt_bounds ty 0).1.trans (rdInt_bounds ty 0).2

theorem intOut_eq_putInt (s : State) (e : Env) (ty : Ty) (sat : Bool) (d : Dst) (v : Int) :
    setSatIf (intOut ty sat v).2 (wrVal s e ty.is64 d (intOut ty sat v).1) e.c e.t = putInt s e ty sat d v := by
  have h := tyMin_le_tyMax ty
  cases sat with
  | false => simp [putInt, intOut, setSatIf]
  | true =>
    by_cases hlo : v < tyMin ty
    · simp [putInt, intOut, clamp, setSatIf, hlo, show ¬ tyMax ty < v by omega]
    · by_cases hhi : tyMax ty < v <;> simp [putInt, intOut, clamp, setSatIf, hlo, hhi]

/-- A value of the type is written as it is. -/
theorem putInt_within {ty : Ty} {v : Int} (h : tyMin ty ≤ v ∧ v ≤ tyMax ty) (s : State) (e : Env) (sat : Bool) (d : Dst) :
    putInt s e ty sat d v = wrVal s e ty.is64 d (wrInt ty v) := by
  rw [putInt, if_neg fun hc => by omega, if_neg fun hc => by omega]
theorem putInt_wrap (s : State) (e : Env) (ty : Ty) (d : Dst) (v : Int) :
    putInt s e ty false d v = wrVal s e ty.is64 d (wrInt ty v) := by simp [putInt]
theorem putInt_above {ty : Ty} {v : Int} (h : tyMax ty < v) (s : State) (e : Env) (d : Dst) :
    putInt s e ty true d v = setSat (wrVal s e ty.is64 d (wrInt ty (tyMax ty))) e.c e.t := by
  rw [putInt, if_pos ⟨rfl, h⟩]

section
variable {i : Instr} {s : State} {b : Bundle} {t : Nat} {th : Thread} {h : Hdr} {ty : Ty} {sat : Bool} {d : Dst} {p q r : Src} {v : Int}

/-- Every instruction of `intOut`: the registers it names, and the exact value of its operation. -/
theorem ends_int {a : Alu} {u : Uses} (rd : Ready s b t th .app u h) (hi : exec i s = .next (runAlu a s))
    (hu : u = { a.uses with cls := u.cls, lat := u.lat, ival := u.ival, kds := u.kds }) (hh : h = a.h)
    (ha : a.eval s (envOf s b t u h) th.pc = { d := d, wide := ty.is64, v := (intOut ty sat v).1, sat := (intOut ty sat v).2 }) :
    Ends i s b t u h (putInt s (envOf s b t u h) ty sat d v) := by
  refine ends_alu hi rd hu hh ?_
  rw [ha]
  exact intOut_eq_putInt ..

theorem ends_int1 {f : Int → DWord × Bool} (rd : Ready s b t th .app (ofType ty [p] d) h)
    (hi : exec i s = .next (runAlu (int1 h ty d p f) s))
    (hf : f (rdInt ty (rdVal s (envOf s b t (ofType ty [p] d) h) h ty p)) = intOut ty sat v) :
    Ends i s b t (ofType ty [p] d) h (putInt s (envOf s b t (ofType ty [p] d) h) ty sat d v) :=
  ends_int rd hi rfl rfl (congrArg (fun w : DWord × Bool => ({ d := d, wide := ty.is64, v := w.1, sat := w.2 } : Write)) hf)

theorem ends_int2 {f : Int → Int → DWord × Bool} (rd : Ready s b t th .app (ofType ty [p, q] d) h)
    (hi : exec i s = .next (runAlu (int2 h ty d p q f) s))
    (hf : f (rdInt ty (rdVal s (envOf s b t (ofType ty [p, q] d) h) h ty p))
      (rdInt ty (rdVal s (envOf s b t (ofType ty [p, q] d) h) h ty q)) = intOut ty sat v) :
    Ends i s b t (ofType ty [p, q] d) h (putInt s (envOf s b t (ofType ty [p, q] d) h) ty sat d v) :=
  ends_int rd hi rfl rfl (congrArg (fun w : DWord × Bool => ({ d := d, wide := ty.is64, v := w.1, sat := w.2 } : Write)) hf)

theorem ends_int3 {f : Int → Int → Int → DWord × Bool} (rd : Ready s b t th .app (ofType ty [p, q, r] d) h)
    (hi : exec i s = .next (runAlu (int3 h ty d p q r f) s))
    (hf : f (rdInt ty (rdVal s (envOf s b t (ofType ty [p, q, r] d) h) h ty p))
      (rdInt ty (rdVal s (envOf s b t (ofType ty [p, q, r] d) h) h ty q))
      (rdInt ty (rdVal s (envOf s b t (ofType ty [p, q, r] d) h) h ty r)) = intOut ty sat v) :
    Ends i s b t (ofType ty [p, q, r] d) h (putInt s (envOf s b t (ofType ty [p, q, r] d) h) ty sat d v) :=
  ends_int rd hi rfl rfl (congrArg (fun w : DWord × Bool => ({ d := d, wide := ty.is64, v := w.1, sat := w.2 } : Write)) hf)
end

/-! ### Sums, products, signs and order (R95) -/

theorem natAbs_eq_ite (x : Int) : (x.natAbs : Int) = if x < 0 then -x else x := by split <;> omega
/-- The value between two bounds, the upper one where they cross. -/
theorem min_max_eq_ite (x y z : Int) : min (max x y) z = if y > z then z else if x < y then y else if z < x then z else x := by
  split <;> [skip; split <;> [skip; split]] <;> omega
theorem natCast_two_pow (n : Nat) : ((2 ^ n : Nat) : Int) = (2 : Int) ^ n := Int.natCast_pow 2 n

/-- Settles O1: each operation writes its exact value as R94 ends it. -/
theorem integerArithmetic : Obligations.IntegerArithmetic := by
  intro s b t th h ty sat d p q r
  refine ⟨fun rd => ⟨?_, ?_⟩, fun rd => ⟨?_, ?_, ?_, ?_, ?_, ?_⟩, fun rd => ⟨?_, ?_⟩⟩
  · exact ends_int1 rd rfl rfl
  · exact ends_int1 rd rfl (congrArg (intOut ty sat) (natAbs_eq_ite _))
  · exact ends_int2 rd rfl rfl
  · exact ends_int2 rd rfl rfl
  · exact ends_int2 rd rfl rfl
  · refine ends_int2 rd rfl ?_
    rw [← natCast_two_pow]
    rfl
  · exact ends_int2 rd rfl (congrArg (intOut ty false) (min_def ..))
  · exact ends_int2 rd rfl (congrArg (intOut ty false) (max_def ..))
  · exact ends_int3 rd rfl rfl
  · exact ends_int3 rd rfl (congrArg (intOut ty false) (min_max_eq_ite ..))

/-! ### Quotient and remainder (R96) -/

theorem tyMax_unsigned {ty : Ty} (h : ty.signed = false) : tyMax ty = (2 : Int) ^ ty.bits - 1 := by
  rw [tyMax, if_neg (by simp [h]), natCast_two_pow]
theorem tyMin_signed {ty : Ty} (h : ty.signed = true) : tyMin ty = -tyMax ty - 1 := by
  rw [tyMin, tyMax, if_pos h, if_pos h]
  omega

/-- What a division by 0 gives is a value of the type. -/
theorem divZero_within (ty : Ty) : tyMin ty ≤ (if ty.signed then -1 else tyMax ty) ∧ (if ty.signed then -1 else tyMax ty) ≤ tyMax ty := by
  cases ty <;> decide
/-- A quotient of two values is a value of the type, but for the least by −1. -/
theorem tdiv_within {ty : Ty} {x y : Int} (hx : tyMin ty ≤ x ∧ x ≤ tyMax ty) (hy : tyMin ty ≤ y ∧ y ≤ tyMax ty)
    (hl : ¬ (ty.signed = true ∧ x = tyMin ty ∧ y = -1)) : tyMin ty ≤ x.tdiv y ∧ x.tdiv y ≤ tyMax ty := by
  have habs : (x.tdiv y).natAbs ≤ x.natAbs := by
    rw [Int.natAbs_tdiv]
    exact Nat.div_le_self ..
  cases hs : ty.signed with
  | false =>
    have h0 : tyMin ty = 0 := by rw [tyMin, if_neg (by simp [hs])]
    have := Int.tdiv_nonneg (a := x) (b := y) (by omega) (by omega)
    omega
  | true =>
    have hmin := tyMin_signed hs
    by_cases h1 : y = 1
    · rw [h1, Int.tdiv_one]
      exact hx
    · have hdouble : 2 * (x.tdiv y).natAbs ≤ x.natAbs ∨ x ≠ tyMin ty := by
        refine or_iff_not_imp_right.2 fun hxm => ?_
        rw [Int.natAbs_tdiv]
        change 2 * (x.natAbs / y.natAbs) ≤ x.natAbs
        by_cases h0 : y = 0
        · simp [h0]
        · have hy2 : 2 ≤ y.natAbs := by
            have : y ≠ -1 := fun hym => hl ⟨hs, not_not.1 hxm, hym⟩
            omega
          have := Nat.div_le_div_left (c := 2) (a := x.natAbs) hy2 (by decide)
          omega
      omega

/-- The least value by −1 lies just beyond the greatest. -/
theorem tdiv_least {ty : Ty} (h : ty.signed = true) : (tyMin ty).tdiv (-1) = tyMax ty + 1 := by
  rw [tyMin_signed h, Int.tdiv_neg, Int.tdiv_one]
  omega
theorem wrInt_above {ty : Ty} (h : ty.signed = true) : wrInt ty (tyMax ty + 1) = wrInt ty (tyMin ty) := by
  revert h
  cases ty <;> decide

/-- Settles O2: a quotient is a value of the type but for the least by −1, which alone is clamped under `.sat`. -/
theorem integerDivision : Obligations.IntegerDivision := by
  intro s b t th h ty sat d p q u e x y out rd
  have hx : tyMin ty ≤ x ∧ x ≤ tyMax ty := rdInt_bounds ..
  have hy : tyMin ty ≤ y ∧ y ≤ tyMax ty := rdInt_bounds ..
  have hdiv : Ends (.idiv h ty sat d p q) s b t u h (putInt s e ty sat d (divI ty x y)) := ends_int2 rd rfl rfl
  have hrem : Ends (.irem h ty d p q) s b t u h (putInt s e ty false d (remI x y)) := ends_int2 rd rfl rfl
  refine ⟨?_, ?_⟩
  · by_cases h0 : y = 0
    · rw [divI, if_pos h0, putInt_within (divZero_within ty)] at hdiv
      rw [if_pos h0]
      cases hs : ty.signed
      · simpa [hs, out, tyMax_unsigned hs] using hdiv
      · simpa [hs, out] using hdiv
    · rw [divI, if_neg h0] at hdiv
      rw [if_neg h0]
      by_cases hl : ty.signed = true ∧ x = tyMin ty ∧ y = -1
      · obtain ⟨hs, hxm, hym⟩ := hl
        rw [if_pos ⟨hs, hxm, hym⟩]
        rw [hxm, hym, tdiv_least hs] at hdiv
        cases sat with
        | true => rw [putInt_above (by omega)] at hdiv; exact hdiv
        | false => rw [putInt_wrap, wrInt_above hs] at hdiv; exact hdiv
      · rw [if_neg hl]
        rw [putInt_within (tdiv_within hx hy hl)] at hdiv
        exact hdiv
  · rw [putInt_wrap] at hrem
    rwa [remI, Int.tmod_def, mul_comm y] at hrem

end Sys2Proof.Machine
end

section
/-! SETTLED. O3: logic, moves, shifts and counts. What an instruction writes that sets no SAT, said once; shifts, rotations and counts as
arithmetic on the values of the type (R97). -/
namespace Sys2Proof.Machine

/-! ### What an instruction that sets no SAT writes -/

section
variable {i : Instr} {s : State} {b : Bundle} {t : Nat} {th : Thread} {u : Uses} {h : Hdr} {a : Alu} {d : Dst} {w : Bool}

theorem ends_val {v : DWord} (rd : Ready s b t th .app u h) (hi : exec i s = .next (runAlu a s))
    (hu : u = { a.uses with cls := u.cls, lat := u.lat, ival := u.ival, kds := u.kds }) (hh : h = a.h)
    (ha : a.eval s (envOf s b t u h) th.pc = { d := d, wide := w, v := v }) :
    Ends i s b t u h (wrVal s (envOf s b t u h) w d v) := by
  refine ends_alu hi rd hu hh ?_
  rw [ha]
  rfl
theorem ends_word {v : Word} (rd : Ready s b t th .app u h) (hi : exec i s = .next (runAlu a s))
    (hu : u = { a.uses with cls := u.cls, lat := u.lat, ival := u.ival, kds := u.kds }) (hh : h = a.h)
    (ha : a.eval s (envOf s b t u h) th.pc = { d := d, v := v.setWidth 64 }) :
    Ends i s b t u h (wrWord s (envOf s b t u h) d v) := by
  have hv : wrVal s (envOf s b t u h) false d (v.setWidth 64) = wrWord s (envOf s b t u h) d v :=
    congrArg (wrWord s _ d · 0) (BitVec.setWidth_setWidth_of_le _ (by decide) |>.trans (BitVec.setWidth_eq _))
  exact hv ▸ ends_val rd hi hu hh ha
theorem ends_count {n : Nat} (rd : Ready s b t th .app u h) (hi : exec i s = .next (runAlu a s))
    (hu : u = { a.uses with cls := u.cls, lat := u.lat, ival := u.ival, kds := u.kds }) (hh : h = a.h)
    (ha : a.eval s (envOf s b t u h) th.pc = { d := d, v := BitVec.ofNat 64 n }) :
    Ends i s b t u h (wrWord s (envOf s b t u h) d (BitVec.ofNat 32 n)) :=
  wrVal_ofNat s (envOf s b t u h) d n ▸ ends_val rd hi hu hh ha
end

/-! ### Values of unsigned types -/

theorem bits_pos (ty : Ty) : 0 < ty.bits := by cases ty <;> decide
theorem bits_le (ty : Ty) : ty.bits ≤ 64 := by cases ty <;> decide

theorem rdInt_unsigned {ty : Ty} (h : ty.signed = false) (v : DWord) : 0 ≤ rdInt ty v ∧ rdInt ty v < (2 : Int) ^ ty.bits := by
  obtain ⟨hlo, hhi⟩ := rdInt_bounds ty v
  rw [tyMax_unsigned h] at hhi
  rw [tyMin, if_neg (by simp [h])] at hlo
  omega
/-- A source of a type of 32 or 64 bits is a value of that many bits. -/
theorem rdVal_lt {ty : Ty} (hty : ty.u32u64 = true) (s : State) (e : Env) (h : Hdr) (p : Src) : (rdVal s e h ty p).toNat < 2 ^ ty.bits := by
  cases ty with
  | u64 => exact BitVec.isLt _
  | u32 =>
    show ((rdWord s e h p).setWidth 64).toNat < 2 ^ 32
    rw [BitVec.toNat_setWidth_of_le (by decide)]
    exact BitVec.isLt _
  | _ => cases hty

/-! ### Shifts and rotations (R97) -/

section
variable {ty : Ty} {x : Int} (hx : 0 ≤ x) (k : Nat)
include hx
theorem shlV_toNat : ((shlV ty x.toNat k : Nat) : Int) = if k ≥ ty.bits then 0 else x * (2 : Int) ^ k := by
  obtain ⟨m, rfl⟩ := Int.eq_ofNat_of_zero_le hx
  rw [Int.toNat_natCast, shlV]
  by_cases hk : k < ty.bits
  · rw [if_pos hk, if_neg (by omega), Nat.shiftLeft_eq]
    push_cast
    rfl
  · rw [if_neg hk, if_pos (by omega)]
    rfl
theorem shrV_toNat : ((shrV ty x.toNat k : Nat) : Int) = if k ≥ ty.bits then 0 else x / (2 : Int) ^ k := by
  obtain ⟨m, rfl⟩ := Int.eq_ofNat_of_zero_le hx
  rw [Int.toNat_natCast, shrV]
  by_cases hk : k < ty.bits
  · rw [if_pos hk, if_neg (by omega), Nat.shiftRight_eq_div_pow]
    push_cast
    rfl
  · rw [if_neg hk, if_pos (by omega)]
    rfl
end

/-- A field beside the high bits of another: their sum. -/
theorem shiftLeft_or_shiftRight {a b i j : Nat} (hb : b < 2 ^ (i + j)) : a <<< i ||| b >>> j = a * 2 ^ i + b / 2 ^ j := by
  have hlt : b / 2 ^ j < 2 ^ i := Nat.div_lt_of_lt_mul (by rwa [← Nat.pow_add, Nat.add_comm j])
  rw [Nat.shiftRight_eq_div_pow, ← Nat.shiftLeft_add_eq_or_of_lt hlt, Nat.shiftLeft_eq]

theorem rotlV_toNat {ty : Ty} {x : Int} (hx : 0 ≤ x) (hlt : x < (2 : Int) ^ ty.bits) (k : Nat) :
    ((rotlV ty x.toNat k : Nat) : Int) = x * (2 : Int) ^ (k % ty.bits) + x / (2 : Int) ^ (ty.bits - k % ty.bits) := by
  obtain ⟨m, rfl⟩ := Int.eq_ofNat_of_zero_le hx
  have hk := Nat.mod_lt k (bits_pos ty)
  have hm : m < 2 ^ ty.bits := by exact_mod_cast hlt
  rw [Int.toNat_natCast, rotlV, shiftLeft_or_shiftRight (by rwa [Nat.add_sub_cancel' hk.le])]
  push_cast
  rfl

theorem fshlV_eq {ty : Ty} {m n : Nat} (hn : n < 2 ^ ty.bits) (k : Nat) : fshlV ty m n k =
    if k % ty.bits = 0 then m else m * 2 ^ (k % ty.bits) % 2 ^ ty.bits + n / 2 ^ (ty.bits - k % ty.bits) := by
  unfold fshlV
  split
  · rfl
  · have hk := (Nat.mod_lt k (bits_pos ty)).le
    have hmod : m * 2 ^ (k % ty.bits) % 2 ^ ty.bits = m % 2 ^ (ty.bits - k % ty.bits) * 2 ^ (k % ty.bits) := by
      rw [← Nat.mul_mod_mul_right, ← Nat.pow_add, Nat.sub_add_cancel hk]
    rw [Nat.shiftLeft_eq, hmod, ← Nat.shiftLeft_eq, shiftLeft_or_shiftRight (by rwa [Nat.add_sub_cancel' hk]), Nat.shiftLeft_eq]

theorem ofNat_fshlV {ty : Ty} (x : DWord) {y : DWord} (hy : y.toNat < 2 ^ ty.bits) (k : Nat) : BitVec.ofNat 64 (fshlV ty x.toNat y.toNat k) =
    if k % ty.bits = 0 then x
    else BitVec.ofNat 64 (x.toNat * 2 ^ (k % ty.bits) % 2 ^ ty.bits + y.toNat / 2 ^ (ty.bits - k % ty.bits)) := by
  rw [fshlV_eq hy, apply_ite (BitVec.ofNat 64), BitVec.ofNat_toNat, BitVec.setWidth_eq]

theorem sraV_eq (ty : Ty) (v : DWord) (k : Nat) :
    sraV ty (rdInt ty v) k = if k ≥ ty.bits then (if rdInt ty v < 0 then -1 else 0) else rdInt ty v / (2 : Int) ^ k := by
  obtain ⟨hlo, hhi⟩ := rdInt_bounds ty v
  have hb : -(2 : Int) ^ ty.bits ≤ tyMin ty ∧ tyMax ty < (2 : Int) ^ ty.bits := by cases ty <;> decide
  rw [sraV, Int.shiftRight_eq_div_pow, natCast_two_pow]
  by_cases hk : k ≥ ty.bits
  · rw [if_pos hk, Nat.min_eq_right hk]
    split
    · exact (Int.ediv_eq_iff_of_pos (by positivity)).2 (by omega)
    · exact Int.ediv_eq_zero_of_lt (by omega) (by omega)
  · rw [if_neg hk, Nat.min_eq_left (by omega)]

/-! ### Counts of bits (R97) -/

theorem clzV_bounds {n a : Nat} (ha : a < 2 ^ n) (h0 : a ≠ 0) : 2 ^ (n - 1 - clzV n a) ≤ a ∧ a < 2 ^ (n - clzV n a) := by
  have hlog : a.log2 < n := (Nat.log2_lt h0).2 ha
  rw [clzV, if_neg h0]
  refine ⟨?_, ?_⟩
  · rw [show n - 1 - (n - 1 - a.log2) = a.log2 by omega]
    exact Nat.log2_self_le h0
  · rw [show n - (n - 1 - a.log2) = a.log2 + 1 by omega]
    exact Nat.lt_log2_self

theorem ctzV_spec (n a : Nat) : (∀ i, i < ctzV n a → a.testBit i = false) ∧ (ctzV n a < n → a.testBit (ctzV n a) = true) ∧ ctzV n a ≤ n := by
  unfold ctzV
  cases hf : (List.range n).find? a.testBit with
  | none =>
    rw [List.find?_range_eq_none] at hf
    refine ⟨fun i hi => by simpa using hf i hi, fun hi => absurd hi (by simp), Nat.le_refl _⟩
  | some k =>
    obtain ⟨hk, hlt, hmin⟩ := List.find?_range_eq_some.1 hf
    exact ⟨fun i hi => by simpa using hmin i hi, fun _ => hk, (List.mem_range.1 hlt).le⟩

/-- The bits in the opposite order: the mask of each bit at its mirrored place. -/
theorem brevV_eq_mask (n a : Nat) :
    brevV n a = (List.range n).foldl (fun m j => if a.testBit (n - 1 - j) then m + 2 ^ j else m) 0 := by
  have hrev : (List.range n).map (fun i => n - 1 - i) = (List.range n).reverse := by
    rw [List.range_eq_range', List.reverse_range', ← List.range_eq_range']
    simp
  have hcomm : ∀ (m i j : Nat), (if a.testBit (n - 1 - j) then (if a.testBit (n - 1 - i) then m + 2 ^ i else m) + 2 ^ j
        else if a.testBit (n - 1 - i) then m + 2 ^ i else m) =
      if a.testBit (n - 1 - i) then (if a.testBit (n - 1 - j) then m + 2 ^ j else m) + 2 ^ i
        else if a.testBit (n - 1 - j) then m + 2 ^ j else m := by
    intro m i j
    split <;> split <;> omega
  rw [← List.Perm.foldl_eq' (List.reverse_perm (List.range n)) fun i _ j _ m => hcomm m i j, ← hrev, List.foldl_map]
  refine List.foldl_ext _ _ _ fun m i hi => ?_
  rw [show n - 1 - (n - 1 - i) = i by have := List.mem_range.1 hi; omega]
theorem testBit_brevV {n a i : Nat} (hi : i < n) : (brevV n a).testBit i = a.testBit (n - 1 - i) := by
  rw [brevV_eq_mask, (testBit_mask (fun j => a.testBit (n - 1 - j)) n).2]
  simp [hi]

theorem logicOps : LogicOps := by
  intro s b t th h ty d p q kc
  refine ⟨fun rd => ⟨?_, ?_, ?_, ?_⟩, fun rd => ⟨?_, ?_⟩, fun rd => ?_⟩
  · exact ends_val rd rfl rfl rfl rfl
  · exact ends_val rd rfl rfl rfl rfl
  · exact ends_val rd rfl rfl rfl rfl
  · exact ends_val rd rfl rfl rfl rfl
  · exact ends_val rd rfl rfl rfl rfl
  · exact ends_val rd rfl rfl rfl rfl
  · rw [← apply_ite (rdVal s _ h ty)]
    exact ends_val rd rfl rfl rfl rfl

theorem shiftOps : ShiftOps := by
  intro s b t th h ty d p q r n
  refine ⟨?_, ?_, ?_, ?_⟩
  · intro u e x k out rd
    refine ⟨fun hu => ?_, ?_⟩
    · obtain ⟨h0, hlt⟩ := rdInt_unsigned hu (rdVal s e h ty p)
      refine ⟨?_, ?_, ?_⟩
      · rw [← shlV_toNat h0]
        exact ends_val rd rfl rfl rfl rfl
      · rw [← shrV_toNat h0]
        exact ends_val rd rfl rfl rfl rfl
      · rw [← rotlV_toNat h0 hlt]
        exact ends_val rd rfl rfl rfl rfl
    · rw [← sraV_eq]
      exact ends_val rd rfl rfl rfl rfl
  · intro u e k rd hty
    rw [← ofNat_fshlV _ (rdVal_lt hty s e h q)]
    exact ends_val rd rfl rfl rfl rfl
  · intro u e x rd
    refine ⟨⟨_, ends_count rd rfl rfl rfl rfl, rfl⟩, fun hty => ?_, ⟨_, ends_count rd rfl rfl rfl rfl, ctzV_spec ..⟩⟩
    refine ⟨_, ends_count rd rfl rfl rfl rfl, fun h0 => if_pos (congrArg BitVec.toNat h0), fun h0 => clzV_bounds (rdVal_lt hty ..) ?_⟩
    exact fun hz => h0 (BitVec.eq_of_toNat_eq hz)
  · intro u e rd
    refine ⟨_, ends_val rd rfl rfl rfl rfl, fun i hi => ?_⟩
    rw [BitVec.getLsbD_ofNat, testBit_brevV hi, decide_eq_true (hi.trans_le (bits_le ty)), Bool.true_and]
    rfl

/-- Settles O3: each operation writes what its equation above says. -/
theorem integerLogic : Obligations.IntegerLogic := ⟨logicOps, shiftOps⟩

end Sys2Proof.Machine
end

section
/-! SETTLED. O5: bit fields and byte permutation. The bits of a field extracted and inserted, and the bytes of a permutation (R98, R99). -/
namespace Sys2Proof.Machine

/-! ### The field of a descriptor (R98) -/

theorem fieldPos_eq (v : Word) : fieldPos v = v.toNat % 256 := by
  simp [fieldPos, BitVec.extractLsb'_toNat]
theorem fieldLen_eq (v : Word) : fieldLen v =
    if v.toNat / 256 % 256 = 0 ∨ v.toNat % 256 ≥ 32 then 0 else min (v.toNat / 256 % 256) (32 - v.toNat % 256) := by
  rw [fieldLen, fieldPos_eq, BitVec.extractLsb'_toNat, Nat.shiftRight_eq_div_pow]
theorem fieldLen_le (v : Word) : fieldLen v ≤ 32 := by
  unfold fieldLen
  split <;> omega

/-- A negative number of a few bits as a word: its bits, and ones above. -/
theorem getLsbD_ofInt_sub {v n i : Nat} (hv : v < 2 ^ n) (hn : n ≤ 32) (hi : i < 32) :
    (BitVec.ofInt 32 ((v : Int) - (2 ^ n : Nat))).getLsbD i = if i < n then v.testBit i else true := by
  have hpow : (2 : Nat) ^ 32 = 2 ^ n * 2 ^ (32 - n) := by rw [← Nat.pow_add, Nat.add_sub_cancel' hn]
  have hle := Nat.le_mul_of_pos_right (2 ^ n) (Nat.two_pow_pos (32 - n))
  have hval : BitVec.ofInt 32 ((v : Int) - (2 ^ n : Nat)) = BitVec.ofNat 32 (2 ^ n * (2 ^ (32 - n) - 1) + v) := by
    rw [Nat.mul_sub_one, ← hpow, ← BitVec.ofInt_natCast]
    apply BitVec.eq_of_toInt_eq
    rw [BitVec.toInt_ofInt, BitVec.toInt_ofInt, show ((2 ^ 32 - 2 ^ n + v : Nat) : Int) = (v : Int) - (2 ^ n : Nat) + (2 ^ 32 : Nat) by omega]
    exact (Int.add_bmod_right ..).symm
  rw [hval, BitVec.getLsbD_ofNat, Nat.testBit_two_pow_mul_add _ hv, decide_eq_true hi, Bool.true_and, Nat.testBit_two_pow_sub_one]
  split
  · rfl
  · exact decide_eq_true (by omega)

theorem getLsbD_bfxV (signed : Bool) (a desc : Word) {i : Nat} (hi : i < 32) : (bfxV signed a desc).getLsbD i =
    if i < fieldLen desc then a.getLsbD (fieldPos desc + i)
    else decide (signed = true ∧ fieldLen desc > 0) && a.getLsbD (fieldPos desc + fieldLen desc - 1) := by
  have hbit : ∀ j, (a.toNat >>> fieldPos desc % 2 ^ fieldLen desc).testBit j = (decide (j < fieldLen desc) && a.getLsbD (fieldPos desc + j)) :=
    fun j => by rw [Nat.testBit_mod_two_pow, Nat.testBit_shiftRight]; rfl
  have hlt := Nat.mod_lt (a.toNat >>> fieldPos desc) (Nat.two_pow_pos (fieldLen desc))
  have hsign : (signed && decide (fieldLen desc > 0) && (a.toNat >>> fieldPos desc % 2 ^ fieldLen desc).testBit (fieldLen desc - 1)) =
      (decide (signed = true ∧ fieldLen desc > 0) && a.getLsbD (fieldPos desc + fieldLen desc - 1)) := by
    by_cases hl : fieldLen desc > 0
    · rw [hbit, decide_eq_true (by omega : fieldLen desc - 1 < fieldLen desc), Bool.true_and, Nat.add_sub_assoc hl]
      simp [hl]
    · simp [hl]
  unfold bfxV
  dsimp only
  rw [hsign]
  by_cases hi' : i < fieldLen desc
  · rw [if_pos hi', apply_ite (BitVec.getLsbD · i), getLsbD_ofInt_sub hlt (fieldLen_le _) hi, if_pos hi', BitVec.getLsbD_ofNat,
      decide_eq_true hi, Bool.true_and, ite_self, hbit, decide_eq_true hi', Bool.true_and]
  · rw [if_neg hi', apply_ite (BitVec.getLsbD · i), getLsbD_ofInt_sub hlt (fieldLen_le _) hi, if_neg hi', BitVec.getLsbD_ofNat,
      decide_eq_true hi, Bool.true_and, hbit i, decide_eq_false hi', Bool.false_and]
    simp

theorem getLsbD_bfiV (a b desc : Word) {i : Nat} (hi : i < 32) : (bfiV a b desc).getLsbD i =
    if fieldPos desc ≤ i ∧ i < fieldPos desc + fieldLen desc then a.getLsbD (i - fieldPos desc) else b.getLsbD i := by
  have hm : (BitVec.ofNat 32 ((2 ^ fieldLen desc - 1) <<< fieldPos desc)).getLsbD i =
      decide (fieldPos desc ≤ i ∧ i < fieldPos desc + fieldLen desc) := by
    rw [BitVec.getLsbD_ofNat, Nat.testBit_shiftLeft, Nat.testBit_two_pow_sub_one, decide_eq_true hi, Bool.true_and, ← Bool.decide_and]
    exact decide_eq_decide.2 (by omega)
  unfold bfiV
  simp only [BitVec.getLsbD_or, BitVec.getLsbD_and, BitVec.getLsbD_not, BitVec.getLsbD_shiftLeft, hm, hi]
  by_cases hf : fieldPos desc ≤ i ∧ i < fieldPos desc + fieldLen desc
  · simp [hf]
  · simp [hf]

/-! ### Permutation (R99) -/

/-- The bits of a word of four bytes. -/
theorem getLsbD_ofBytes4 (b0 b1 b2 b3 : Byte) (i : Nat) : (ofBytes4 b0 b1 b2 b3).getLsbD i =
    if i < 8 then b0.getLsbD i else if i - 8 < 8 then b1.getLsbD (i - 8)
    else if i - 8 - 8 < 8 then b2.getLsbD (i - 8 - 8) else b3.getLsbD (i - 8 - 8 - 8) := by
  rw [show (ofBytes4 b0 b1 b2 b3).getLsbD i = if i < 8 then b0.getLsbD i else (b3 ++ b2 ++ b1).getLsbD (i - 8) from BitVec.getLsbD_append,
    BitVec.getLsbD_append, BitVec.getLsbD_append]
theorem byteAt_ofBytes4 (b0 b1 b2 b3 : Byte) :
    byteAt (ofBytes4 b0 b1 b2 b3) 0 = b0 ∧ byteAt (ofBytes4 b0 b1 b2 b3) 1 = b1 ∧ byteAt (ofBytes4 b0 b1 b2 b3) 2 = b2 ∧
      byteAt (ofBytes4 b0 b1 b2 b3) 3 = b3 := by
  refine ⟨?_, ?_, ?_, ?_⟩
  all_goals
    refine BitVec.eq_of_getLsbD_eq fun i hi => ?_
    rw [byteAt, BitVec.getLsbD_extractLsb', getLsbD_ofBytes4, decide_eq_true hi, Bool.true_and]
    simp [hi, show ¬ 8 + i < 8 by omega, show ¬ 16 + i < 8 by omega, show 16 + i - 8 = 8 + i by omega, show ¬ 24 + i < 8 by omega,
      show 24 + i - 8 = 16 + i by omega]

theorem byteAt_eq_shift (v : BitVec n) (k : Nat) : byteAt v k = (v >>> (8 * k)).setWidth 8 := by
  refine BitVec.eq_of_getLsbD_eq fun i hi => ?_
  simp [byteAt, hi]

theorem byteAt_permV (a b c : Word) {i : Nat} (hi : i < 4) :
    (permV a b c).extractLsb' (8 * i) 8 =
      (let k := c.extractLsb' (4 * i) 4
       let m := ((b ++ a : DWord) >>> (8 * (k.toNat % 8))).setWidth 8
       if k.getLsbD 3 then (if m.getLsbD 7 then 0xFF#8 else 0) else m) := by
  have hbyte : (permV a b c).extractLsb' (8 * i) 8 = permByte a b c i := by
    obtain ⟨h0, h1, h2, h3⟩ := byteAt_ofBytes4 (permByte a b c 0) (permByte a b c 1) (permByte a b c 2) (permByte a b c 3)
    interval_cases i
    · exact h0
    · exact h1
    · exact h2
    · exact h3
  rw [hbyte, permByte, byteAt_eq_shift, show ((c.extractLsb' (4 * i) 4).extractLsb' 0 3).toNat = (c.extractLsb' (4 * i) 4).toNat % 8 by
    rw [BitVec.extractLsb'_toNat]; rfl]
  rfl

/-- Settles O5: the fields and the bytes, bit by bit. -/
theorem integerFields : Obligations.IntegerFields := by
  intro s b t th h ty d p q r pos len
  refine ⟨?_, ?_⟩
  · intro u e x y rd
    refine ⟨_, ends_word rd rfl rfl rfl rfl, fun i hi => ?_⟩
    rw [getLsbD_bfxV _ _ _ hi, fieldLen_eq, fieldPos_eq]
  · intro u e x y z rd
    refine ⟨⟨_, ends_word rd rfl rfl rfl rfl, fun i hi => ?_⟩, ⟨_, ends_word rd rfl rfl rfl rfl, fun i hi => byteAt_permV _ _ _ hi⟩⟩
    rw [getLsbD_bfiV _ _ _ hi, fieldLen_eq, fieldPos_eq]

end Sys2Proof.Machine
end

section
/-! SETTLED. O6, O7: comparisons, predicates, addresses and carries (R100 to R103); sums over bytes, packing and unpacking (R104, R105). -/
namespace Sys2Proof.Machine

/-! ### Instructions that write a predicate -/

section
variable {i : Instr} {s : State} {b : Bundle} {t : Nat} {th : Thread} {u : Uses} {h : Hdr} {a : Alu} {k : Pred} {p : Bool}

theorem ends_pred (rd : Ready s b t th .app u h) (hi : exec i s = .next (runAlu a s))
    (hu : u = { a.uses with cls := u.cls, lat := u.lat, ival := u.ival, kds := u.kds }) (hh : h = a.h)
    (ha : a.eval s (envOf s b t u h) th.pc = { kd := some (k, p) }) : Ends i s b t u h (wrPred s (envOf s b t u h) k p) := by
  refine ends_alu hi rd hu hh ?_
  rw [ha]
  rfl
theorem ends_val_pred {d : Dst} {w : Bool} {v : DWord} (rd : Ready s b t th .app u h) (hi : exec i s = .next (runAlu a s))
    (hu : u = { a.uses with cls := u.cls, lat := u.lat, ival := u.ival, kds := u.kds }) (hh : h = a.h)
    (ha : a.eval s (envOf s b t u h) th.pc = { d := d, wide := w, v := v, kd := some (k, p) }) :
    Ends i s b t u h (wrPred (wrVal s (envOf s b t u h) w d v) (envOf s b t u h) k p) := by
  refine ends_alu hi rd hu hh ?_
  rw [ha]
  rfl
end

/-- The index of a table of three predicates (R102). -/
theorem plog_index (a b c : Bool) :
    4 * a.toNat + 2 * b.toNat + c.toNat = (if a then 4 else 0) + (if b then 2 else 0) + (if c then 1 else 0) := by
  cases a <;> cases b <;> cases c <;> rfl
theorem toNat_cast_eq_ite (c : Bool) : ((c.toNat : Nat) : Int) = if c then 1 else 0 := by cases c <;> rfl

/-- Settles O6: each condition, table and carry as the rule states it. -/
theorem integerPredicates : Obligations.IntegerPredicates := by
  intro s b t th h ty d p q kd ka kb kc n
  refine ⟨?_, ?_, ?_, ?_⟩
  · intro u e x y rd
    refine ⟨?_, ?_, ?_, ?_, ?_, ?_⟩
    · exact ends_pred rd rfl rfl rfl rfl
    · rw [show decide (x ≠ y) = !decide (x = y) from decide_not]
      exact ends_pred rd rfl rfl rfl rfl
    · exact ends_pred rd rfl rfl rfl rfl
    · exact ends_pred rd rfl rfl rfl rfl
    · exact ends_pred rd rfl rfl rfl rfl
    · exact ends_pred rd rfl rfl rfl rfl
  · intro u e rd
    rw [← plog_index]
    exact ends_pred rd rfl rfl rfl rfl
  · intro u e x rd
    have hx : x * 2 ^ n.toNat = x <<< n.toNat := by
      apply BitVec.eq_of_toNat_eq
      simp [BitVec.toNat_mul, Nat.shiftLeft_eq]
    rw [hx]
    refine ends_val (w := true) rd rfl rfl rfl ?_
    cases ty <;> rfl
  · intro u e x y c rd
    have hc : c = (rdPred s e kc).toNat := (toNat_cast_eq_ite _).symm
    refine ⟨?_, ?_⟩
    · rw [hc, ← natCast_two_pow]
      exact ends_val_pred rd rfl rfl rfl rfl
    · rw [hc]
      exact ends_val_pred rd rfl rfl rfl rfl


/-! ### Sums over bytes (R104) -/

theorem idp4V_eq (signed : Bool) (a b : Word) : idp4V signed a b =
    byteInt signed (byteAt a 0) * byteInt signed (byteAt b 0) + byteInt signed (byteAt a 1) * byteInt signed (byteAt b 1) +
      byteInt signed (byteAt a 2) * byteInt signed (byteAt b 2) + byteInt signed (byteAt a 3) * byteInt signed (byteAt b 3) := by
  simp [idp4V, sumI, List.range_succ]
theorem isadV_eq (signed : Bool) (a b : Word) : isadV signed a b =
    ((byteInt signed (byteAt a 0) - byteInt signed (byteAt b 0)).natAbs + (byteInt signed (byteAt a 1) - byteInt signed (byteAt b 1)).natAbs +
      (byteInt signed (byteAt a 2) - byteInt signed (byteAt b 2)).natAbs +
      (byteInt signed (byteAt a 3) - byteInt signed (byteAt b 3)).natAbs : Nat) := by
  simp [isadV, sumI, List.range_succ]

/-! ### Packing and unpacking (R105) -/

theorem halfAt_append (x y : BitVec 16) : halfAt (y ++ x : Word) 0 = x ∧ halfAt (y ++ x : Word) 1 = y := by
  have hbit : ∀ i, (y ++ x : Word).getLsbD i = if i < 16 then x.getLsbD i else y.getLsbD (i - 16) := fun i => BitVec.getLsbD_append
  refine ⟨?_, ?_⟩
  all_goals
    refine BitVec.eq_of_getLsbD_eq fun i hi => ?_
    rw [halfAt, BitVec.getLsbD_extractLsb', hbit, decide_eq_true hi, Bool.true_and]
    simp [hi]

theorem packV_half {ty : Ty} (hb : ty.bits = 16) (x y : Word) :
    let c := fun (v : Int) => clamp (tyMin ty) (tyMax ty) v
    packV ty x y = (BitVec.ofInt 16 (c y.toInt).1 ++ BitVec.ofInt 16 (c x.toInt).1, (c x.toInt).2 || (c y.toInt).2) := if_pos hb
theorem packV_byte {ty : Ty} (hb : ty.bits = 8) (x y : Word) :
    let c := fun (v : Word) (i : Nat) => clamp (tyMin ty) (tyMax ty) (halfAt v i).toInt
    packV ty x y = (ofBytes4 (BitVec.ofInt 8 (c x 0).1) (BitVec.ofInt 8 (c x 1).1) (BitVec.ofInt 8 (c y 0).1) (BitVec.ofInt 8 (c y 1).1),
      (c x 0).2 || (c x 1).2 || (c y 0).2 || (c y 1).2) := if_neg (by omega)

/-- An element widened to a word as its type has it. -/
theorem wrInt_widened {n : Nat} (signed : Bool) (z : BitVec n) :
    wrInt (if signed then .s32 else .u32) (if signed then z.toInt else z.toNat) =
      (if signed then z.signExtend 32 else z.setWidth 32 : Word).setWidth 64 := by
  cases signed with
  | true =>
    show ((BitVec.ofInt 32 z.toInt).signExtend 32).setWidth 64 = (z.signExtend 32).setWidth 64
    rw [BitVec.signExtend_eq]
    rfl
  | false =>
    show (BitVec.ofInt 32 z.toNat).setWidth 64 = (z.setWidth 32).setWidth 64
    rw [BitVec.ofInt_natCast, BitVec.ofNat_toNat]
theorem unpkV_half {ty : Ty} (hb : ty.bits = 16) (x y : Word) :
    unpkV ty x y = if ty.signed then (halfAt x (y.toNat % 2)).toInt else (halfAt x (y.toNat % 2)).toNat := if_pos hb
theorem unpkV_byte {ty : Ty} (hb : ty.bits = 8) (x y : Word) :
    unpkV ty x y = if ty.signed then (byteAt x (y.toNat % 4)).toInt else (byteAt x (y.toNat % 4)).toNat := if_neg (by omega)

section
variable {i : Instr} {s : State} {b : Bundle} {t : Nat} {th : Thread} {u : Uses} {h : Hdr} {a : Alu} {d : Dst}

theorem ends_putWord {v : Word} {c : Bool} (rd : Ready s b t th .app u h) (hi : exec i s = .next (runAlu a s))
    (hu : u = { a.uses with cls := u.cls, lat := u.lat, ival := u.ival, kds := u.kds }) (hh : h = a.h)
    (ha : a.eval s (envOf s b t u h) th.pc = { d := d, v := v.setWidth 64, sat := c }) :
    Ends i s b t u h (putWord s (envOf s b t u h) d v c) := by
  refine ends_alu hi rd hu hh ?_
  rw [ha]
  have hv : (v.setWidth 64).setWidth 32 = v := (BitVec.setWidth_setWidth_of_le _ (by decide)).trans (BitVec.setWidth_eq _)
  exact congrArg (fun w => setSatIf c (wrWord s _ d w) _ _) hv
end

/-- Settles O7: sums, packed elements and widened ones. -/
theorem integerBytes : Obligations.IntegerBytes := by
  intro s b t th h ty sat d p q r el
  refine ⟨?_, ?_⟩
  · intro u e x y z rd
    refine ⟨?_, ?_⟩
    · have hsum : ∀ sg, ty.signed = sg → el x 0 * el y 0 + el x 1 * el y 1 + el x 2 * el y 2 + el x 3 * el y 3 = idp4V sg x y := fun sg hs =>
        hs ▸ (idp4V_eq ty.signed x y).symm
      split
      · rename_i hs
        rw [hsum _ hs]
        exact ends_int (ty := .s32) rd rfl rfl rfl (congrArg (fun w : DWord × Bool => ({ d := d, v := w.1, sat := w.2 } : Write)) (if_pos hs))
      · rename_i hs
        rw [hsum _ (Bool.eq_false_of_not_eq_true hs)]
        exact ends_int (ty := .u32) rd rfl rfl rfl (congrArg (fun w : DWord × Bool => ({ d := d, v := w.1, sat := w.2 } : Write)) (if_neg hs))
    · have hsum := (isadV_eq ty.signed x y).symm
      exact hsum ▸ ends_int (ty := .u32) rd rfl rfl rfl rfl
  · intro u e x y near off rd
    have hclamp : ∀ v, clamp (tyMin ty) (tyMax ty) v = (near v, off v) := fun v => clamp_eq ..
    refine ⟨fun hb => ?_, fun hb => ?_⟩
    · have hpack := packV_half hb x y
      simp only [hclamp] at hpack
      refine ⟨_, ends_putWord rd rfl rfl rfl (congrArg (fun w : Word × Bool => ({ d := d, v := w.1.setWidth 64, sat := w.2 } : Write)) hpack),
        (halfAt_append ..).1, (halfAt_append ..).2, ends_word rd rfl rfl rfl ?_⟩
      rw [← wrInt_widened, ← unpkV_half hb]
      rfl
    · have hpack := packV_byte hb x y
      simp only [hclamp] at hpack
      obtain ⟨h0, h1, h2, h3⟩ := byteAt_ofBytes4 (BitVec.ofInt 8 (near (halfAt x 0).toInt)) (BitVec.ofInt 8 (near (halfAt x 1).toInt))
        (BitVec.ofInt 8 (near (halfAt y 0).toInt)) (BitVec.ofInt 8 (near (halfAt y 1).toInt))
      refine ⟨_, ends_putWord rd rfl rfl rfl (congrArg (fun w : Word × Bool => ({ d := d, v := w.1.setWidth 64, sat := w.2 } : Write)) hpack),
        h0, h1, h2, h3, ends_word rd rfl rfl rfl ?_⟩
      rw [← wrInt_widened, ← unpkV_byte hb]
      rfl

end Sys2Proof.Machine
end

section
/-! SETTLED. O8: the frame of the integer and float classes. One relation of two states says what writes of registers, predicates and SAT
can change; it is transitive, and each update that such an instruction makes keeps it. -/
namespace Sys2Proof.Machine

/-! ### The relation -/

/-- A thread but for what an instruction of registers and predicates writes, and where it goes on. -/
def Thread.bare (th : Thread) : Thread :=
  { th with pc := 0, blk := .run, bpSkip := false, entered := false, prioDue := false, late := [], sched := {}, ccnth := 0, regs := []
            preds := 0, sat := false }
def Group.bare (g : Group) : Group := { g with y := [], sat := false, sched := {} }
def Ctx.bare (x : Ctx) : Ctx := { x with threads := [], groups := [], moved := [] }
def Core.bare (k : Core) : Core := { k with lanes := [], marks := [], ctx := {} }
/-- A thread but for what the scheduler notes of it. -/
def Thread.idle (th : Thread) : Thread := { th with sched := {} }

/-- What thread `t` may have written: registers of `ds`, predicates of `ks`, `ccnth` where `cc` says so, and SAT, which is only set. -/
structure ThreadWrites (ds : List Nat) (ks : List Pred) (cc : Bool) (a b : Thread) : Prop where
  bare  : b.bare = a.bare
  ccnth : cc = false → b.ccnth = a.ccnth
  regs  : ∀ n, n ∉ ds → b.regs.get 0 n = a.regs.get 0 n
  preds : ∀ k : Pred, k ∉ ks → b.preds.getLsbD k.toNat = a.preds.getLsbD k.toNat
  sat   : a.sat = true → b.sat = true
/-- What it may have written of a group, its own where `own` says so. -/
structure GroupWrites (ds : List Nat) (own : Prop) (a b : Group) : Prop where
  bare  : b.bare = a.bare
  y     : ∀ n, 128 + n ∉ ds → b.y.get 0 n = a.y.get 0 n
  sat   : a.sat = true → b.sat = true
  other : ¬ own → b.y = a.y ∧ b.sat = a.sat
structure RegisterWrites (c t : Nat) (ds : List Nat) (ks : List Pred) (cc : Bool) (s w : State) : Prop where
  rest   : w = { s with cores := w.cores }
  cores  : ∀ c', c' ≠ c → w.core c' = s.core c'
  core   : (w.core c).bare = (s.core c).bare
  marks  : ∀ m ∈ (w.core c).marks, m ∈ (s.core c).marks
  ctx    : (w.ctx c).bare = (s.ctx c).bare
  others : ∀ t', t' ≠ t → (w.thr? c t').map Thread.idle = (s.thr? c t').map Thread.idle
  thread : ThreadWrites ds ks cc (s.thr c t) (w.thr c t)
  groups : ∀ g gr, s.group? c g = some gr → ∃ gr', w.group? c g = some gr' ∧ GroupWrites ds ((s.thr c t).grp.map (·.1) = some g) gr gr'

section
variable {c t : Nat} {ds : List Nat} {ks : List Pred} {cc : Bool}

theorem ThreadWrites.refl (a : Thread) : ThreadWrites ds ks cc a a := ⟨rfl, fun _ => rfl, fun _ _ => rfl, fun _ _ => rfl, id⟩
theorem ThreadWrites.trans {x y z : Thread} (h : ThreadWrites ds ks cc x y) (k : ThreadWrites ds ks cc y z) : ThreadWrites ds ks cc x z :=
  ⟨k.bare.trans h.bare, fun e => (k.ccnth e).trans (h.ccnth e), fun n hn => (k.regs n hn).trans (h.regs n hn),
    fun n hn => (k.preds n hn).trans (h.preds n hn), fun e => k.sat (h.sat e)⟩
theorem ThreadWrites.grp {x y : Thread} (h : ThreadWrites ds ks cc x y) : y.grp = x.grp :=
  (congrArg Thread.grp h.bare : y.bare.grp = x.bare.grp)

theorem GroupWrites.refl {own : Prop} (a : Group) : GroupWrites ds own a a := ⟨rfl, fun _ _ => rfl, id, fun _ => ⟨rfl, rfl⟩⟩
theorem GroupWrites.trans {own : Prop} {x y z : Group} (h : GroupWrites ds own x y) (k : GroupWrites ds own y z) : GroupWrites ds own x z :=
  ⟨k.bare.trans h.bare, fun n hn => (k.y n hn).trans (h.y n hn), fun e => k.sat (h.sat e),
    fun e => ⟨(k.other e).1.trans (h.other e).1, (k.other e).2.trans (h.other e).2⟩⟩

theorem RegisterWrites.refl (s : State) : RegisterWrites c t ds ks cc s s :=
  ⟨rfl, fun _ _ => rfl, rfl, fun _ => id, rfl, fun _ _ => rfl, .refl _, fun _ gr h => ⟨gr, h, .refl gr⟩⟩
theorem RegisterWrites.trans {x y z : State} (h : RegisterWrites c t ds ks cc x y) (k : RegisterWrites c t ds ks cc y z) :
    RegisterWrites c t ds ks cc x z := by
  refine ⟨?_, fun c' hc => (k.cores c' hc).trans (h.cores c' hc), k.core.trans h.core, fun m hm => h.marks m (k.marks m hm),
    k.ctx.trans h.ctx, fun t' ht => (k.others t' ht).trans (h.others t' ht), h.thread.trans k.thread, fun g gr hg => ?_⟩
  · rw [k.rest, h.rest]
  · obtain ⟨gr', hg', hw⟩ := h.groups g gr hg
    obtain ⟨gr'', hg'', hw'⟩ := k.groups g gr' hg'
    rw [h.thread.grp] at hw'
    exact ⟨gr'', hg'', hw.trans hw'⟩

/-! ### The updates that keep it -/

theorem RegisterWrites.of_ctx {s : State} {f : Ctx → Ctx} (hf : (f (s.ctx c)).bare = (s.ctx c).bare)
    (ho : ∀ t', t' ≠ t → ((f (s.ctx c)).threads.look t').map Thread.idle = (s.thr? c t').map Thread.idle)
    (ht : ThreadWrites ds ks cc (s.thr c t) (((f (s.ctx c)).threads.look t).getD { pc := 0, quota := 16 }))
    (hg : ∀ g gr, s.group? c g = some gr → ∃ gr', (f (s.ctx c)).groups.look g = some gr' ∧
      GroupWrites ds ((s.thr c t).grp.map (·.1) = some g) gr gr') : RegisterWrites c t ds ks cc s (s.modCtx c f) := by
  have hc : (s.modCtx c f).ctx c = f (s.ctx c) := by simp
  refine ⟨rfl, fun c' hc' => State.core_modCore_ne s _ hc', ?_, fun m hm => ?_, ?_, fun t' ht' => ?_, ?_, fun g gr hgr => ?_⟩
  · rw [State.modCtx, State.core_modCore_self]
    rfl
  · rwa [State.core_modCtx_marks] at hm
  · rw [hc, hf]
  · rw [State.thr?, hc, ho t' ht']
  · change ThreadWrites ds ks cc _ ((((s.modCtx c f).ctx c).threads.look t).getD _)
    rwa [hc]
  · rw [State.group?, hc]
    exact hg g gr hgr

theorem RegisterWrites.modThr {s : State} {f : Thread → Thread} (hf : ∀ th, s.thr? c t = some th → ThreadWrites ds ks cc th (f th)) :
    RegisterWrites c t ds ks cc s (s.modThr c t f) := by
  cases h : s.thr? c t with
  | none => rw [State.modThr_none h]; exact .refl s
  | some th =>
    rw [State.modThr_some h]
    refine .of_ctx rfl (fun t' ht => ?_) ?_ fun g gr hg => ⟨gr, hg, .refl gr⟩
    · rw [Map.look_put_ne _ _ ht]
      rfl
    · rw [Map.look_put_self, State.thr_of h]
      exact hf th h
/-- What the scheduler notes of some thread. -/
theorem RegisterWrites.modThr_sched (s : State) (t' : Nat) (f : Sched → Sched) :
    RegisterWrites c t ds ks cc s (s.modThr c t' fun th => { th with sched := f th.sched }) := by
  by_cases ht : t' = t
  · rw [ht]
    exact .modThr fun th _ => ⟨rfl, fun _ => rfl, fun _ _ => rfl, fun _ _ => rfl, id⟩
  · cases h : s.thr? c t' with
    | none => rw [State.modThr_none h]; exact .refl s
    | some th =>
      rw [State.modThr_some h]
      refine .of_ctx rfl (fun t'' _ => ?_) ?_ fun g gr hg => ⟨gr, hg, .refl gr⟩
      · rw [Map.look_put]
        split
        · rename_i he
          rw [he, h]
          rfl
        · rfl
      · rw [Map.look_put_ne _ _ (Ne.symm ht)]
        exact .refl _
theorem RegisterWrites.modGroup {s : State} {g : Nat} {f : Group → Group}
    (hf : ∀ gr, s.group? c g = some gr → GroupWrites ds ((s.thr c t).grp.map (·.1) = some g) gr (f gr)) :
    RegisterWrites c t ds ks cc s (s.modGroup c g f) := by
  unfold State.modGroup
  split
  · rename_i gr h
    refine .of_ctx rfl (fun _ _ => rfl) (.refl _) fun g' gr' hg => ?_
    rw [Map.look_put]
    split
    · rename_i he
      rw [he, h] at hg
      obtain rfl := Option.some.inj hg
      exact ⟨_, rfl, he ▸ hf gr h⟩
    · exact ⟨gr', hg, .refl gr'⟩
  · exact .refl s
theorem RegisterWrites.moved (s : State) (f : List (Nat × Bool) → List (Nat × Bool)) :
    RegisterWrites c t ds ks cc s (s.modCtx c fun x => { x with moved := f x.moved }) :=
  .of_ctx rfl (fun _ _ => rfl) (.refl _) fun _ gr hg => ⟨gr, hg, .refl gr⟩
theorem RegisterWrites.modCore {s : State} {f : Core → Core} (hb : (f (s.core c)).bare = (s.core c).bare)
    (hm : ∀ m ∈ (f (s.core c)).marks, m ∈ (s.core c).marks) (hx : (f (s.core c)).ctx = (s.core c).ctx) :
    RegisterWrites c t ds ks cc s (s.modCore c f) := by
  have hthr : ∀ t', (s.modCore c f).thr? c t' = s.thr? c t' := fun t' => State.thr?_modCore_ctx s c c t' f hx
  refine ⟨rfl, fun c' hc' => State.core_modCore_ne s _ hc', ?_, ?_, ?_, fun t' _ => by rw [hthr], ?_, fun g gr hg => ⟨gr, ?_, .refl gr⟩⟩
  · rw [State.core_modCore_self, hb]
  · rwa [State.core_modCore_self]
  · rw [State.ctx, State.core_modCore_self, hx]
    rfl
  · change ThreadWrites ds ks cc _ (((s.modCore c f).thr? c t).getD _)
    rw [hthr]
    exact .refl _
  · rwa [State.group?_modCore_ctx s c c g f hx]

theorem RegisterWrites.clearMarks (s : State) (p : ErrAt → Bool) : RegisterWrites c t ds ks cc s (clearMarks s c p) := by
  unfold Machine.clearMarks
  split
  · exact .refl s
  · exact .modCore rfl (fun m hm => (List.mem_filter.1 hm).1) rfl
theorem RegisterWrites.modSched (s : State) (u : UnitId) (f : Sched → Sched) : RegisterWrites c t ds ks cc s (modSched s c u f) := by
  cases u with
  | grp g => exact .modGroup fun gr _ => ⟨rfl, fun _ _ => rfl, id, fun _ => ⟨rfl, rfl⟩⟩
  | thr t' => exact .modThr_sched s t' f
theorem RegisterWrites.occupy (s : State) (b : Bundle) (n : Nat) : RegisterWrites b.core t ds ks cc s (occupy s b n) := by
  unfold Machine.occupy
  dsimp only
  split
  · exact .modSched ..
  · exact (RegisterWrites.modSched ..).trans (.modCore rfl (fun _ => id) rfl)
theorem RegisterWrites.advance (s : State) (pc : DWord) (j : Bool) : RegisterWrites c t ds ks cc s (advance s c t pc j) := by
  unfold Machine.advance
  refine RegisterWrites.trans ?_ (.moved _ (· ++ [(t, j)]))
  exact .modThr fun _ _ => ⟨rfl, fun _ => rfl, fun _ _ => rfl, fun _ _ => rfl, id⟩
theorem RegisterWrites.noteResults (s : State) (u : Uses) (n : Nat) : RegisterWrites c t ds ks cc s (noteResults s c t u n) :=
  .modThr fun _ _ => ⟨rfl, fun _ => rfl, fun _ _ => rfl, fun _ _ => rfl, id⟩
theorem RegisterWrites.latchCcnt (s : State) (u : Uses) (n : Nat) : RegisterWrites c t ds ks u.readsCcnt s (latchCcnt u s c t n) := by
  unfold Machine.latchCcnt
  split
  · rename_i hc
    exact .modThr fun _ _ => ⟨rfl, fun h => absurd (hc.symm.trans h) (by decide), fun _ _ => rfl, fun _ _ => rfl, id⟩
  · exact .refl s

theorem RegisterWrites.setSat (s : State) : RegisterWrites c t ds ks cc s (setSat s c t) := by
  unfold Machine.setSat
  split
  · rename_i g hg
    exact .modGroup fun gr _ => ⟨rfl, fun _ _ => rfl, fun _ => rfl, fun h => absurd (congrArg (Option.map (·.1)) hg) h⟩
  · exact .modThr fun _ _ => ⟨rfl, fun _ => rfl, fun _ _ => rfl, fun _ _ => rfl, fun _ => rfl⟩
theorem RegisterWrites.wrPred {e : Env} (hc : e.c = c) (ht : e.t = t) {k : Pred} (hk : k ∈ ks) (s : State) (b : Bool) :
    RegisterWrites c t ds ks cc s (wrPred s e k b) := by
  subst hc ht
  unfold Machine.wrPred
  split
  · exact .refl s
  · refine .modThr fun th _ => ⟨rfl, fun _ => rfl, fun _ _ => rfl, fun q hq => ?_, id⟩
    rw [getLsbD_predWrite, if_neg fun h : q = k => hq (h ▸ hk)]
/-- A word to the k-th register from a destination, one of those named. -/
theorem RegisterWrites.wrWord {e : Env} (hc : e.c = c) (ht : e.t = t) {d : Dst} {k n : Nat} (hk : k < n)
    (hd : ∀ m ∈ dstKeys (d, n), m ∈ ds) (s : State) (v : Word) : RegisterWrites c t ds ks cc s (wrWord s e d v k) := by
  subst hc ht
  cases d with
  | x r =>
    unfold Machine.wrWord Machine.wrX
    refine RegisterWrites.trans ?_ (.clearMarks ..)
    refine .modThr fun th _ => ⟨rfl, fun _ => rfl, fun m hm => ?_, fun _ _ => rfl, id⟩
    rw [Map.get_set, if_neg fun h : m = _ => hm (hd m (List.mem_map.2 ⟨k, List.mem_range.2 hk, h.symm⟩))]
  | y r =>
    unfold Machine.wrWord Machine.wrY
    dsimp only
    split
    · split
      · rename_i g hg
        refine RegisterWrites.trans ?_ (.clearMarks ..)
        refine .modGroup fun gr _ => ⟨rfl, fun m hm => ?_, id, fun h => absurd (congrArg (Option.map (·.1)) hg) h⟩
        rw [Map.get_set, if_neg fun h : m = _ => hm (hd _ (List.mem_map.2 ⟨k, List.mem_range.2 hk, by omega⟩))]
      · exact .refl s
    · exact .refl s
  | zero => exact .refl s
theorem RegisterWrites.wrVal {e : Env} (hc : e.c = c) (ht : e.t = t) {w : Bool} {d : Dst}
    (hd : ∀ m ∈ dstKeys (d, if w then 2 else 1), m ∈ ds) (s : State) (v : DWord) : RegisterWrites c t ds ks cc s (wrVal s e w d v) := by
  cases w with
  | true => exact (RegisterWrites.wrWord hc ht (by decide) hd s _).trans (.wrWord hc ht (by decide) hd _ _)
  | false => exact .wrWord hc ht (by decide) hd s _
end

/-! ### The operations -/

/-- An operation writes only the destination and the predicate it names. -/
def Alu.Tied (a : Alu) : Prop := ∀ s e pc,
  (∀ m ∈ dstKeys ((a.eval s e pc).d, if (a.eval s e pc).wide then 2 else 1), m ∈ a.uses.dsts.flatMap dstKeys) ∧
    ∀ k b, (a.eval s e pc).kd = some (k, b) → k ∈ a.uses.kds

theorem RegisterWrites.apply {a : Alu} (ha : a.Tied) (s : State) {e : Env} (pc : DWord) {c t : Nat} (hc : e.c = c) (ht : e.t = t) (cc : Bool) :
    RegisterWrites c t (a.uses.dsts.flatMap dstKeys) a.uses.kds cc s ((a.eval s e pc).apply s e) := by
  obtain ⟨hd, hk⟩ := ha s e pc
  unfold Write.apply setSatIf
  dsimp only
  have hkd : ∀ v, RegisterWrites c t (a.uses.dsts.flatMap dstKeys) a.uses.kds cc v
      (match (a.eval s e pc).kd with | some (k, b) => Machine.wrPred v e k b | none => v) := fun v => by
    split
    · rename_i k b he
      exact .wrPred hc ht (hk k b he) v b
    · exact .refl v
  have hval := (RegisterWrites.wrVal hc ht hd s (a.eval s e pc).v).trans (hkd _)
  split
  · subst hc ht
    exact hval.trans (.setSat _)
  · exact hval

theorem Alu.Tied.of_val {a : Alu} {d : Dst} {w : Bool} (hd : a.uses.dsts = [(d, if w then 2 else 1)])
    (ha : ∀ s e pc, (a.eval s e pc).d = d ∧ (a.eval s e pc).wide = w ∧ (a.eval s e pc).kd = none) : a.Tied := by
  intro s e pc
  obtain ⟨h1, h2, h3⟩ := ha s e pc
  rw [h1, h2, h3, hd]
  exact ⟨fun m hm => List.mem_flatMap.2 ⟨_, .head _, hm⟩, fun _ _ h => nomatch h⟩
theorem Alu.Tied.of_pred {a : Alu} {k : Pred} (hk : a.uses.kds = [k])
    (ha : ∀ s e pc, (a.eval s e pc).d = .zero ∧ (a.eval s e pc).kd.map (·.1) = some k) : a.Tied := by
  intro s e pc
  obtain ⟨h1, h2⟩ := ha s e pc
  rw [h1, hk]
  refine ⟨fun m hm => (nomatch hm), fun q b hq => ?_⟩
  rw [hq] at h2
  exact List.mem_singleton.2 (Option.some.inj h2)
theorem Alu.Tied.of_both {a : Alu} {d : Dst} {w : Bool} {k : Pred} (hd : a.uses.dsts = [(d, if w then 2 else 1)]) (hk : a.uses.kds = [k])
    (ha : ∀ s e pc, (a.eval s e pc).d = d ∧ (a.eval s e pc).wide = w ∧ (a.eval s e pc).kd.map (·.1) = some k) : a.Tied := by
  intro s e pc
  obtain ⟨h1, h2, h3⟩ := ha s e pc
  rw [h1, h2, hd, hk]
  refine ⟨fun m hm => List.mem_flatMap.2 ⟨_, .head _, hm⟩, fun q b hq => ?_⟩
  rw [hq] at h3
  exact List.mem_singleton.2 (Option.some.inj h3)
theorem Alu.Tied.fnTime_flt1 {acc : Bool} {m n : Nat} {h : Hdr} {d : Dst} {p : Src} {ty : Ty} {f : DWord → Nat → Nat} :
    (fnTime acc m n (flt1 h d p ty f)).Tied := by
  unfold fnTime
  split <;> exact .of_val (w := false) rfl fun _ _ _ => ⟨rfl, rfl, rfl⟩

/-- Each instruction of the two classes runs an operation that is tied to its destination and its predicate. -/
theorem aluOf_spec {i : Instr} {a : Bool × Alu} (h : aluOf i = some a) (s : State) : exec i s = .next (runAlu a.2 s) ∧ a.2.Tied := by
  cases i with
  | icmp => cases h; exact ⟨rfl, .of_pred rfl fun _ _ _ => ⟨rfl, rfl⟩⟩
  | plog => cases h; exact ⟨rfl, .of_pred rfl fun _ _ _ => ⟨rfl, rfl⟩⟩
  | fcmp => cases h; exact ⟨rfl, .of_pred rfl fun _ _ _ => ⟨rfl, rfl⟩⟩
  | iaddc => cases h; exact ⟨rfl, .of_both rfl rfl fun _ _ _ => ⟨rfl, rfl, rfl⟩⟩
  | isubb => cases h; exact ⟨rfl, .of_both rfl rfl fun _ _ _ => ⟨rfl, rfl, rfl⟩⟩
  | fexp2 | flog2 | frcp | frsqrt | fsqrt | fsin | fcos | ftanh | fsigm | ferf =>
    cases h
    exact ⟨rfl, .fnTime_flt1⟩
  | _ =>
    cases h <;> exact ⟨rfl, .of_val rfl fun _ _ _ => ⟨rfl, rfl, rfl⟩⟩

/-! ### The end of the instruction -/

/-- What the thread is when an instruction has moved it on, the scheduler's notes aside. -/
def Thread.movedTo (pc : DWord) (th : Thread) : Thread :=
  { th with pc := pc, blk := .run, bpSkip := false, entered := true, prioDue := th.prioDue || lineOf pc != lineOf th.pc }

theorem thr?_advance (s : State) (c t : Nat) (pc : DWord) (j : Bool) :
    (advance s c t pc j).thr? c t = (s.thr? c t).map (Thread.movedTo pc) := by
  rw [advance, State.thr?, State.ctx_modCtx, if_pos rfl]
  change ((s.modThr c t (Thread.movedTo pc)).thr? c t) = _
  rw [State.thr?_modThr, if_pos ⟨rfl, rfl⟩]

theorem RegisterWrites.onlyRegisters {s w : State} {c t : Nat} {u : Uses} {x : Thread}
    (h : RegisterWrites c t (u.dsts.flatMap dstKeys) u.kds u.readsCcnt s w)
    (hw : (w.thr c t).idle = (x.movedTo (nextPc (s.thr c t).pc)).idle) : OnlyRegisters s w c t u := by
  obtain ⟨rest, cores, core, marks, ctx, others, thread, groups⟩ := h
  refine ⟨rest, cores, ?_, marks, ?_, others, ?_, thread.ccnth, thread.regs, thread.preds, thread.sat, fun g gr hg => ?_⟩
  · exact congrArg (fun k : Core => { k with lanes := (w.core c).lanes, marks := (w.core c).marks, ctx := (w.core c).ctx }) core
  · exact congrArg (fun k : Ctx => { k with threads := (w.ctx c).threads, groups := (w.ctx c).groups, moved := (w.ctx c).moved }) ctx
  · have hpc : (w.thr c t).pc = nextPc (s.thr c t).pc := (congrArg Thread.pc hw :)
    have hblk : (w.thr c t).blk = .run := (congrArg Thread.blk hw :)
    have hskip : (w.thr c t).bpSkip = false := (congrArg Thread.bpSkip hw :)
    have hent : (w.thr c t).entered = true := (congrArg Thread.entered hw :)
    rw [← hpc, ← hblk, ← hskip, ← hent]
    exact congrArg (fun k : Thread => { k with
      pc := (w.thr c t).pc, blk := (w.thr c t).blk, bpSkip := (w.thr c t).bpSkip, entered := (w.thr c t).entered
      prioDue := (w.thr c t).prioDue, late := (w.thr c t).late, sched := (w.thr c t).sched, ccnth := (w.thr c t).ccnth
      regs := (w.thr c t).regs, preds := (w.thr c t).preds, sat := (w.thr c t).sat }) thread.bare
  · obtain ⟨gr', hg', hw'⟩ := groups g gr hg
    exact ⟨gr', hg', congrArg (fun k : Group => { k with y := gr'.y, sat := gr'.sat, sched := gr'.sched }) hw'.bare, hw'.y, hw'.sat, hw'.other⟩

theorem OnlyRegisters.mem {s w : State} {c t : Nat} {u : Uses} (h : OnlyRegisters s w c t u) : w.mem = s.mem := (congrArg State.mem h.rest :)

theorem OnlyRegisters.of_cls {s w : State} {c t : Nat} {u : Uses} {b : Bool} (h : OnlyRegisters s w c t { u with cls := b }) :
    OnlyRegisters s w c t u :=
  ⟨h.rest, h.cores, h.core, h.marks, h.ctx, h.others, h.thread, h.ccnth, h.regs, h.preds, h.sat, h.groups⟩

theorem onlyRegisters_done {s v : State} {b : Bundle} {t : Nat} {u : Uses} {x : Thread} {pc : DWord}
    (hv : RegisterWrites b.core t (u.dsts.flatMap dstKeys) u.kds u.readsCcnt s v) (hx : v.thr? b.core t = some x)
    (hpc : (s.thr b.core t).pc = pc) (k n : Nat) :
    OnlyRegisters s (occupy (advance (noteResults (latchCcnt u v b.core t k) b.core t u k) b.core t (nextPc pc)) b n)
      b.core t u := by
  subst hpc
  obtain ⟨y, hy⟩ : ∃ y, (noteResults (latchCcnt u v b.core t k) b.core t u k).thr? b.core t = some y := by
    unfold noteResults latchCcnt
    split <;> simp [hx]
  obtain ⟨q, hq⟩ := thr_occupy (advance (noteResults (latchCcnt u v b.core t k) b.core t u k) b.core t
    (nextPc (s.thr b.core t).pc)) b n b.core t
  rw [thr?_advance, hy] at hq
  refine RegisterWrites.onlyRegisters (x := y) ?_ ?_
  · exact (((hv.trans (.latchCcnt ..)).trans (.noteResults ..)).trans (.advance ..)).trans (.occupy ..)
  · rw [State.thr, hq]
    rfl

/-- Settles O8: such an instruction is an operation tied to its destination and its predicate, and every update that issues it writes
registers, predicates and SAT alone. -/
theorem arithmeticFrame : Obligations.ArithmeticFrame := by
  intro s b t th i a ha hr
  obtain ⟨he, htied⟩ := aluOf_spec ha s
  have hr' : Ready s b t th .app { a.2.uses with cls := true } a.2.h :=
    ⟨hr.focus, hr.alone, hr.live, hr.runs, hr.level, hr.regs, hr.guard, hr.clean, hr.quiet⟩
  obtain ⟨e, hE⟩ : ∃ e, e = envOf s b t { a.2.uses with cls := true } a.2.h := ⟨_, rfl⟩
  have hc : e.c = b.core := by rw [hE]; rfl
  have ht : e.t = t := by rw [hE]; rfl
  have hv := RegisterWrites.apply htied s th.pc hc ht a.2.uses.readsCcnt
  have hlive := (SameThreads.apply (a.2.eval s e th.pc) s e).live b.core t
  rw [hr.live] at hlive
  obtain ⟨x, hx⟩ := Option.isSome_iff_exists.1 hlive
  refine ⟨_, he, ?_⟩
  rw [runAlu, perThread_one hr']
  dsimp only [endFor, Run.pass]
  rw [takeFaults_nil, ← hE]
  have hframe := onlyRegisters_done (u := { a.2.uses with cls := true }) hv hx (congrArg Thread.pc hr.thr)
  exact ⟨(hframe _ _).of_cls, fun _ => congrArg (peek · _) (hframe _ _).mem⟩

end Sys2Proof.Machine
end

section
/-! SETTLED. O15: an instruction of one thread that raises with a number, and the instructions that change nothing. -/
namespace Sys2Proof.Machine

/-- An instruction of one thread that raises, and the state its fault leaves. -/
theorem raised_of_fail {i : Instr} {s : State} {b : Bundle} {t : Nat} {th : Thread} {lv : Level} {u : Uses} {h : Hdr}
    {act : Env → DWord → State → Res} {x : Raise} (rd : Ready s b t th lv u h) (he : exec i s = .next (perThread lv u h act s))
    (ha : act (envOf s b t u h) th.pc s = .fail s x) (hx : x.used = false) (hat : x.at_ = none) :
    ∃ n, exec i s = .next (parkSub (occupy s b n) b.core [(t, x)]) ∧
      Raised s (parkSub (occupy s b n) b.core [(t, x)]) b.core t x.code x.num := by
  obtain ⟨n, hn⟩ := raises_perThread rd hx he ha rd.quiet
  exact ⟨n, hn, raised_parkSub rd n hat⟩

theorem nextPark_occupy (s : State) (b : Bundle) (n : Nat) : ((occupy s b n).ctx b.core).nextPark = (s.ctx b.core).nextPark :=
  (congrArg Ctx.nextPark (frame_occupy s b n b.core) :)

/-- Settles O15: a trap, a call and a breakpoint fail at themselves, so the rule for a failing instruction raises each; the quiet ones end in place. -/
theorem trapsAndQuiet : Obligations.TrapsAndQuiet := by
  intro s b t th h a d
  refine ⟨fun rd => ⟨?_, ?_, ?_, ?_⟩, fun rd => ?_, ?_⟩
  · obtain ⟨n, hn, hr⟩ := raised_of_fail rd (i := .trap h) rfl rfl rfl rfl
    exact ⟨_, hn, hr⟩
  · obtain ⟨n, hn, hr⟩ := raised_of_fail rd (i := .brk h) rfl rfl rfl rfl
    exact ⟨_, hn, hr⟩
  · exact ends_perThread rd rfl rfl (by rw [rd.live]; rfl)
  · refine ends_perThread rd rfl rfl ?_
    simp [rd.live]
  · obtain ⟨n, hn, hr⟩ := raised_of_fail rd (i := .sys h d) rfl rfl rfl rfl
    refine ⟨_, hn, hr, subOf (occupy s b n) b.core t
      { code := 0x18, num := h.imm ||| (d.code.setWidth 32 <<< 16), service := true, dst := some d }, ?_, nextPark_occupy s b n, rfl, rfl⟩
    rw [(ctx_parkSub ..).1]
    exact List.mem_append_right _ (.head _)
  · intro u n rd
    exact ⟨fun hn => ends_perThread rd rfl (if_pos hn) (by rw [rd.live]; rfl),
      fun hn => waits_perThread rd rfl (if_neg hn) (by rw [rd.live]; rfl)⟩

end Sys2Proof.Machine
end

section
/-! SETTLED. O16: which numbers have a register and at which level, and what the two instructions do with it. -/
namespace Sys2Proof.Machine

/-! ### The registers by level (R113) -/

/-- Whether a number is of one of the ranges. -/
def amongRegs (l : List (Nat × Nat)) (k : Nat) : Bool := l.any fun p => decide (p.1 ≤ k ∧ k ≤ p.2)
def appRegs : List (Nat × Nat) :=
  [(0x000, 0x004), (0x110, 0x110), (0x160, 0x160), (0x170, 0x171), (0x180, 0x180), (0x1C1, 0x1C1), (0x214, 0x214), (0x260, 0x260)]
def handlerRegs : List (Nat × Nat) :=
  [(0x005, 0x005), (0x100, 0x101), (0x140, 0x147), (0x150, 0x15F), (0x190, 0x192), (0x198, 0x1A1), (0x1A8, 0x1AB), (0x1C0, 0x1C0),
    (0x1C2, 0x1C2), (0x230, 0x230)]
def stewardRegs : List (Nat × Nat) :=
  [(0x1B0, 0x1B5), (0x200, 0x202), (0x210, 0x213), (0x220, 0x22E), (0x231, 0x236), (0x240, 0x246), (0x250, 0x252), (0x261, 0x262)]
def levelOfRanges (k : Nat) : Option Level :=
  if amongRegs appRegs k then some .app else if amongRegs handlerRegs k then some .handler
  else if amongRegs stewardRegs k then some .steward else none

theorem amongRegs_above {l : List (Nat × Nat)} {n k : Nat} (hl : ∀ p ∈ l, p.2 < n) (hk : n ≤ k) : amongRegs l k = false := by
  refine List.any_eq_false.2 fun p hp h => ?_
  have hlt := hl p hp
  have hle := (of_decide_eq_true h).2
  omega
theorem regLevel_above {k : Nat} (h : 0x270 ≤ k) : regLevel k = none := by
  unfold regLevel
  repeat rw [if_neg (by omega)]
theorem regLevel_below : ∀ i : Fin 39, ∀ j : Fin 16, regLevel (16 * i + j) = levelOfRanges (16 * i + j) := by decide
theorem regLevel_eq (k : Nat) : regLevel k = levelOfRanges k := by
  by_cases hk : k < 0x270
  · have h := regLevel_below ⟨k / 16, by omega⟩ ⟨k % 16, by omega⟩
    dsimp only at h
    rwa [Nat.div_add_mod] at h
  · have hk := Nat.le_of_not_lt hk
    rw [regLevel_above hk, levelOfRanges, amongRegs_above (n := 0x270) (by decide) hk, amongRegs_above (n := 0x270) (by decide) hk,
      amongRegs_above (n := 0x270) (by decide) hk]
    rfl

/-! ### The instructions -/

theorem regNum_eq (h : Hdr) : regNum h = h.imm.toNat % 4096 := by simp [regNum]

section
variable {s : State} {b : Bundle} {t : Nat} {th : Thread} {h : Hdr} {n : Nat} (hn : regNum h = n)
include hn

theorem raises_rdsr {d : Dst} (rd : Ready s b t th .app { dsts := [(d, 1)] } h) (hl : regLevel n = none) : Raises (.rdsr h d) s b t 0x01 :=
  raises_of_fail rd rfl (by simp only [hn, hl]; rfl)
theorem ends_rdsr {d : Dst} {lv : Level} (rd : Ready s b t th .app { dsts := [(d, 1)] } h) (hl : regLevel n = some lv) :
    Ends (.rdsr h d) s b t { dsts := [(d, 1)] } h (wrWord s (envOf s b t { dsts := [(d, 1)] } h) d
      (if th.level.num < lv.num then 0 else readReg s b.core t n)) :=
  ends_wrWord rd rfl (by simp only [hn, hl, envOf, rd.thr])
theorem raises_wrsr {a : Src} (rd : Ready s b t th .app { srcs := one [a] } h) (hl : regLevel n = none) : Raises (.wrsr h a) s b t 0x01 :=
  raises_of_fail rd rfl (by simp only [hn, hl]; rfl)
/-- Above the thread's level the write is ignored (R10). -/
theorem ends_wrsr_above {a : Src} {lv : Level} (rd : Ready s b t th .app { srcs := one [a] } h) (hl : regLevel n = some lv)
    (hlv : th.level.num < lv.num) : Ends (.wrsr h a) s b t { srcs := one [a] } h s :=
  ends_perThread rd rfl (by simp only [hn, hl, envOf, rd.thr, if_pos hlv]) (by rw [rd.live]; rfl)
theorem ends_wrsr {a : Src} {lv : Level} (rd : Ready s b t th .app { srcs := one [a] } h) (hl : regLevel n = some lv)
    (hlv : lv.num ≤ th.level.num) (hr : n = 0x235 → releaseReady s b.core t .pkg = true)
    (hv : ((writeReg s b.core t n (rdWord s (envOf s b t { srcs := one [a] } h) h a)).thr? b.core t).isSome = true) :
    Ends (.wrsr h a) s b t { srcs := one [a] } h (writeReg s b.core t n (rdWord s (envOf s b t { srcs := one [a] } h) h a)) := by
  refine ends_perThread rd rfl ?_ hv
  have hopen : ¬ (n = 0x235 ∧ (!releaseReady s b.core t .pkg) = true) := fun ⟨h1, h2⟩ => by simp [hr h1] at h2
  simp only [hn, hl, envOf, rd.thr, if_neg (Nat.not_lt.2 hlv), if_neg hopen]
end

/-! ### What some of them hold -/

theorem readReg_thread (s : State) (c t : Nat) {n : Nat} (hn : n ≤ 5) : readReg s c t n = readThr (s.thr c t) n := if_pos hn
theorem lo32_setLo (v : DWord) (w : Word) : lo32 (setLo v w) = w := by
  ext i hi
  rw [lo32, BitVec.getElem_setWidth]
  change (hi32 v ++ w : BitVec (32 + 32)).getLsbD i = _
  rw [BitVec.getLsbD_append, if_pos hi, BitVec.getLsbD_eq_getElem]

/-- Settles O16: a number names a register or none, and the register names its level; each case of the two is one of the rules above. -/
theorem systemRegisters : Obligations.SystemRegisters := by
  intro s b t th h d a n c app handler steward among
  refine ⟨regLevel_eq, fun rd => ⟨raises_rdsr (regNum_eq h) rd, fun lv hl => ends_rdsr (regNum_eq h) rd hl⟩, ?_, fun hl => ?_⟩
  · intro u v rd
    exact ⟨raises_wrsr (regNum_eq h) rd, fun lv hl => ends_wrsr_above (regNum_eq h) rd hl,
      fun lv hl h1 h2 h3 => ends_wrsr (regNum_eq h) rd hl h1 h2 h3⟩
  · have hth : s.thr c t = th := State.thr_of hl
    refine ⟨?_, ?_, ?_, ?_, ?_, ?_, rfl, rfl, rfl, rfl, rfl, rfl, fun v => ⟨rfl, rfl, rfl, ?_, ?_, ?_⟩⟩
    iterate 5 rw [readReg_thread s c t (by decide), hth]; rfl
    · rw [readReg_thread s c t (by decide), hth]
      cases h : th.step <;> simp [readThr, h, word]
    · change lo32 ((s.modCtx c fun x => { x with fqb := setLo x.fqb (v &&& 0xFFFFF000) }).ctx c).fqb = _
      rw [State.ctx_modCtx, if_pos rfl]
      exact lo32_setLo ..
    · change ((s.modCtx c fun x => { x with fqctl := v &&& 0xFFFF000F }).ctx c).fqctl = _
      rw [State.ctx_modCtx, if_pos rfl]
    · change ((s.modCtx c fun x => { x with bpctl := v &&& 0x7FFFF }).ctx c).bpctl = _
      rw [State.ctx_modCtx, if_pos rfl]

end Sys2Proof.Machine
end

section
/-! RULES. What the checks of an access, an acquire and a change of a tile leave of a core's threads, operations, copies and tiles. -/
namespace Sys2Proof.Machine

/-! ### Updates of caches -/

/-- Caches, lines, signatures and memory may differ, and nothing else: every core's context stands, and what the step has still to do. -/
structure CachesOnly (a b : State) : Prop where
  rest : b = { a with cores := b.cores, tlb := b.tlb, dies := b.dies, mem := b.mem, poison := b.poison, veil := b.veil, spoiled := b.spoiled }
  core : ∀ c, b.core c = { a.core c with
    fbuf := (b.core c).fbuf, l1 := (b.core c).l1, ccache := (b.core c).ccache, rcache := (b.core c).rcache, sigs := (b.core c).sigs }

theorem CachesOnly.refl (a : State) : CachesOnly a a := ⟨rfl, fun _ => rfl⟩
theorem CachesOnly.trans {a b c : State} (h : CachesOnly a b) (k : CachesOnly b c) : CachesOnly a c := by
  refine ⟨?_, fun x => ?_⟩
  · rw [k.rest, h.rest]
  · rw [k.core, h.core]
theorem CachesOnly.of_homeOnly {a b : State} (h : HomeOnly a b) : CachesOnly a b := by
  rw [h]
  exact ⟨rfl, fun _ => rfl⟩
theorem CachesOnly.modCore {s : State} {c : Nat} {f : Core → Core} (h : f (s.core c) = { s.core c with
    fbuf := (f (s.core c)).fbuf, l1 := (f (s.core c)).l1, ccache := (f (s.core c)).ccache, rcache := (f (s.core c)).rcache
    sigs := (f (s.core c)).sigs }) : CachesOnly s (s.modCore c f) := by
  refine ⟨rfl, fun x => ?_⟩
  rw [State.core_modCore]
  split
  · rename_i hx
    rw [hx]
    exact h
  · rfl

section
variable {a b : State} (h : CachesOnly a b)
include h
theorem CachesOnly.ctx (c : Nat) : b.ctx c = a.ctx c := (congrArg Core.ctx (h.core c) :)
theorem CachesOnly.todo : b.todo = a.todo := (congrArg State.todo h.rest :)
theorem CachesOnly.focus : b.focus = a.focus := (congrArg State.focus h.rest :)
theorem CachesOnly.tick : b.tick = a.tick := (congrArg State.tick h.rest :)
theorem CachesOnly.fab : b.fab = a.fab := (congrArg State.fab h.rest :)
theorem CachesOnly.parts : b.parts = a.parts := (congrArg State.parts h.rest :)
end
theorem CachesOnly.foldl {α : Type} {f : State → α → State} (hf : ∀ s a, CachesOnly s (f s a)) (l : List α) : ∀ s, CachesOnly s (l.foldl f s) := by
  induction l with
  | nil => exact .refl
  | cons a l ih => exact fun s => (hf s a).trans (ih _)
theorem CachesOnly.cacheLeaf (s : State) (w va : Nat) : CachesOnly s (cacheLeaf s w va) := by
  unfold Machine.cacheLeaf
  split <;> exact ⟨rfl, fun _ => rfl⟩
theorem CachesOnly.noteSecondary (s : State) (w va : Nat) (h : Home) : CachesOnly s (noteSecondary s w va h) := by
  unfold Machine.noteSecondary
  split <;> exact ⟨rfl, fun _ => rfl⟩
theorem CachesOnly.fillL2 (s : State) (w : Nat) (h : Home) (prio : Nat) : CachesOnly s (fillL2 s w h prio) := .of_homeOnly (.fillL2 ..)

theorem CachesOnly.thr? {a b : State} (h : CachesOnly a b) (c t : Nat) : b.thr? c t = a.thr? c t := by
  rw [State.thr?, h.ctx]
  rfl
theorem CachesOnly.thr {a b : State} (h : CachesOnly a b) (c t : Nat) : b.thr c t = a.thr c t := by rw [State.thr, h.thr?]; rfl
theorem CachesOnly.unitOf {a b : State} (h : CachesOnly a b) (c t : Nat) : b.unitOf c t = a.unitOf c t := by
  rw [State.unitOf, h.thr]
  rfl

theorem CachesOnly.group? {a b : State} (h : CachesOnly a b) (c g : Nat) : b.group? c g = a.group? c g := by
  rw [State.group?, h.ctx]
  rfl
theorem CachesOnly.worldOf {a b : State} (h : CachesOnly a b) (c : Nat) : b.worldOf c = a.worldOf c := by
  have hlatch : (b.core c).latch = (a.core c).latch := (congrArg Core.latch (h.core c) :)
  rw [State.worldOf, hlatch]
  rfl
theorem CachesOnly.partOf {a b : State} (h : CachesOnly a b) (c : Nat) : b.partOf c = a.partOf c := by
  unfold State.partOf State.partOfQuarter
  rw [h.parts]
theorem CachesOnly.actWorld {a b : State} (h : CachesOnly a b) (c t : Nat) : b.actWorld c t = a.actWorld c t := by
  unfold State.actWorld
  rw [h.thr, h.parts, h.partOf, h.worldOf]
/-- What an operand reads does not depend on caches. -/
theorem CachesOnly.rdWord {a b : State} (h : CachesOnly a b) (e : Env) (hd : Hdr) (x : Src) (k : Nat) : rdWord b e hd x k = rdWord a e hd x k := by
  have hccnt : (b.core e.c).ccnt = (a.core e.c).ccnt := (congrArg Core.ccnt (h.core e.c) :)
  have hfree : ∀ n, b.free n = a.free n := fun n => by rw [State.free, h.tick]; rfl
  have hspec : ∀ sp, specVal b e sp = specVal a e sp := fun sp => by
    unfold specVal
    simp only [h.thr, h.group?, h.worldOf, h.fab, h.partOf, hccnt]
  cases x with
  | x n => simp only [Machine.rdWord, rdX, h.thr, hfree]
  | y n => simp only [Machine.rdWord, rdY, h.thr, h.group?, hfree]
  | sp v => simp only [Machine.rdWord, hspec]
  | imm => rfl

theorem CachesOnly.globalCheck {s w : State} {c t va n : Nat} {k : Acc} {hs : List Home} (h : globalCheck s c t va n k = .ok (w, hs)) :
    CachesOnly s w := by
  unfold Machine.globalCheck at h
  dsimp only at h
  split at h
  · cases h
  · split at h
    · cases h
    · split at h
      · cases h
      · cases h
        exact .foldl (fun s a => (CachesOnly.cacheLeaf ..).trans (.noteSecondary ..)) _ s
theorem CachesOnly.readImage {s w : State} {e : Env} {va n : Nat} {l : List Byte} (h : readImage s e va n = .ok (w, l)) : CachesOnly s w := by
  unfold Machine.readImage at h
  split at h
  · cases h
  · rename_i s' hs hg
    dsimp only at h
    split at h
    · cases h
      exact .globalCheck hg
    · split at h
      · cases h
      · cases h
        exact ((CachesOnly.globalCheck hg).trans (.foldl (fun s a => .fillL2 ..) _ _)).trans (.modCore rfl)
/-- A failed read of an image that is no error of the data names only its code and the address. -/
theorem readImage_error {s : State} {e : Env} {va n : Nat} {r : Raise} (h : readImage s e va n = .error r) (hu : r.used = false) :
    r.at_ = none ∧ r.num = 0 := by
  unfold Machine.readImage at h
  split at h
  · cases h
    exact ⟨rfl, rfl⟩
  · dsimp only at h
    split at h
    · cases h
    · split at h
      · cases h
        cases hu
      · cases h

/-! ### Acquires and tiles -/

/-- The threads, operations, copies and tiles of core `c` stand. -/
structure WorkStands (c : Nat) (a b : State) : Prop where
  threads : (b.ctx c).threads = (a.ctx c).threads
  ops     : (b.ctx c).ops = (a.ctx c).ops
  copies  : (b.ctx c).copies = (a.ctx c).copies
  tiles   : (b.ctx c).tiles = (a.ctx c).tiles

theorem WorkStands.refl (c : Nat) (a : State) : WorkStands c a a := ⟨rfl, rfl, rfl, rfl⟩
theorem WorkStands.trans {c : Nat} {x y z : State} (h : WorkStands c x y) (k : WorkStands c y z) : WorkStands c x z :=
  ⟨k.threads.trans h.threads, k.ops.trans h.ops, k.copies.trans h.copies, k.tiles.trans h.tiles⟩
theorem CachesOnly.work {a b : State} (h : CachesOnly a b) (c : Nat) : WorkStands c a b := by
  constructor <;> rw [h.ctx]
theorem WorkStands.modCtx {s : State} {c : Nat} {f : Ctx → Ctx} (ht : (f (s.ctx c)).threads = (s.ctx c).threads)
    (ho : (f (s.ctx c)).ops = (s.ctx c).ops) (hc : (f (s.ctx c)).copies = (s.ctx c).copies) (hl : (f (s.ctx c)).tiles = (s.ctx c).tiles) :
    WorkStands c s (s.modCtx c f) := by
  constructor <;> rw [State.ctx_modCtx, if_pos rfl] <;> assumption
theorem WorkStands.observe (s : State) (c t : Nat) (ids : List Nat) : WorkStands c s (observe s c t ids) := by
  unfold Machine.observe
  split
  · exact .refl c s
  · exact .modCtx rfl rfl rfl rfl
theorem WorkStands.takePosts (s : State) (c t : Nat) (p : PostAt) (sc : Scope) : WorkStands c s (takePosts s c t p sc) := by
  unfold Machine.takePosts
  dsimp only
  generalize List.filter _ _ = l
  induction l generalizing s with
  | nil => exact .refl c s
  | cons a l ih => exact (WorkStands.observe ..).trans (ih _)
theorem CachesOnly.dropL1 (s : State) (c : Nat) (p : CLine → Bool) : CachesOnly s (dropL1 s c p) := .modCore rfl
theorem CachesOnly.dropConst (s : State) (c : Nat) : CachesOnly s (dropConst s c) := .modCore rfl
theorem CachesOnly.acquireAll (s : State) (c w : Nat) (sc : Scope) : CachesOnly s (acquireAll s c w sc) := by
  unfold Machine.acquireAll
  dsimp only
  have h1 : CachesOnly s (if (sc == .th || sc == .grp) = true then s else Machine.dropConst s c) := by
    split
    · exact .refl s
    · exact .dropConst s c
  have h2 : ∀ v, CachesOnly v (if farScope sc = true then Machine.dropL1 v c fun _ => true else v) := fun v => by
    split
    · exact .dropL1 ..
    · exact .refl v
  split
  · exact (h1.trans (h2 _)).trans (.of_homeOnly (.modDie ..))
  · exact h1.trans (h2 _)
theorem WorkStands.tileAcquire (s : State) (c t n : Nat) : WorkStands c s (tileAcquire s c t n) :=
  (WorkStands.takePosts ..).trans ((CachesOnly.acquireAll ..).work c)
theorem WorkStands.modShadow (s : State) (c : Nat) (u : UnitId) (f : Shadow → Shadow) : WorkStands c s (modShadow s c u f) := by
  unfold Machine.modShadow
  split
  · exact .modCtx rfl rfl rfl rfl
  · exact .refl c s
theorem WorkStands.live {c : Nat} {a b : State} (h : WorkStands c a b) (t : Nat) : b.thr? c t = a.thr? c t := by
  rw [State.thr?, h.threads]
  rfl

/-- A tile changes and nothing else of the threads, operations and copies. -/
structure TilePut (c n : Nat) (x : Tile) (a b : State) : Prop where
  threads : (b.ctx c).threads = (a.ctx c).threads
  ops     : (b.ctx c).ops = (a.ctx c).ops
  copies  : (b.ctx c).copies = (a.ctx c).copies
  tiles   : (b.ctx c).tiles = (a.ctx c).tiles.put n x

theorem tilePut_setTile (s : State) (c : Nat) (u : Option UnitId) (n : Nat) (x : Tile) : TilePut c n x s (setTile s c u n (some x)) := by
  obtain ⟨v, hv, hs⟩ : ∃ v, WorkStands c s v ∧ setTile s c u n (some x) = v.modCtx c fun y => { y with tiles := y.tiles.put n x } := by
    cases u with
    | none => exact ⟨s, .refl c s, rfl⟩
    | some u => exact ⟨_, .modShadow .., rfl⟩
  rw [hs]
  constructor <;> rw [State.ctx_modCtx, if_pos rfl]
  · exact hv.threads
  · exact hv.ops
  · exact hv.copies
  · exact congrArg (Map.put · n x) hv.tiles
theorem tilePut_tileSt {s : State} {e : Env} {n : BitVec 7} {x : Tile} (h : tileAt s e n = some x) (st : TileSt) :
    TilePut e.c n.toNat { x with st := st } s (tileSt s e n st) := by
  unfold tileSt modTile
  unfold tileAt at h
  rw [h]
  exact tilePut_setTile ..

end Sys2Proof.Machine
end

section
/-! SETTLED. O35: pattern records, and the issue of copies. -/
namespace Sys2Proof.Machine

/-! ### Pattern registers (R195, R197, R198) -/

/-- A word put at bit `n` of a record, as `pat.def` puts it. -/
def putAt (r : BitVec 512) (n : Nat) (v : Word) : BitVec 512 := (r &&& ~~~((0xFFFFFFFF : BitVec 512) <<< n)) ||| (v.setWidth 512 <<< n)

theorem getLsbD_putAt (r : BitVec 512) (n : Nat) (v : Word) {i : Nat} (hi : i < 512) :
    (putAt r n v).getLsbD i = if n ≤ i ∧ i < n + 32 then v.getLsbD (i - n) else r.getLsbD i := by
  have hmask : ∀ j, (0xFFFFFFFF : BitVec 512).getLsbD j = (decide (j < 512) && decide (j < 32)) := fun j => by
    rw [← Nat.testBit_two_pow_sub_one 32 j]
    exact BitVec.getLsbD_ofNat 512 0xFFFFFFFF j
  simp only [putAt, BitVec.getLsbD_or, BitVec.getLsbD_and, BitVec.getLsbD_not, BitVec.getLsbD_shiftLeft, hmask, BitVec.getLsbD_setWidth, hi]
  by_cases hn : n ≤ i
  · have hk : i - n < 512 := by omega
    by_cases hb : i < n + 32
    · have hj : i - n < 32 := by omega
      simp [hn, hb, hj, hk, Nat.not_lt.2 hn]
    · have hj : ¬ i - n < 32 := by omega
      simp [hn, hb, hj, Nat.not_lt.2 hn, BitVec.getLsbD_of_ge v (i - n) (Nat.le_of_not_lt hj)]
  · simp [hn, Nat.lt_of_not_le hn]
theorem extractLsb'_putAt_self (r : BitVec 512) (w : BitVec 4) (v : Word) : (putAt r (32 * w.toNat) v).extractLsb' (32 * w.toNat) 32 = v := by
  have := w.isLt
  ext i hi
  rw [BitVec.getElem_extractLsb', getLsbD_putAt _ _ _ (by omega), if_pos (by omega), Nat.add_sub_cancel_left, BitVec.getLsbD_eq_getElem]
theorem extractLsb'_putAt_ne (r : BitVec 512) (w : BitVec 4) (v : Word) {j : Nat} (hj : j < 16) (hw : j ≠ w.toNat) :
    (putAt r (32 * w.toNat) v).extractLsb' (32 * j) 32 = r.extractLsb' (32 * j) 32 := by
  ext i hi
  rw [BitVec.getElem_extractLsb', BitVec.getElem_extractLsb', getLsbD_putAt _ _ _ (by omega), if_neg (by omega)]

section
variable {s : State} {b : Bundle} {t : Nat} {th : Thread} {h : Hdr} {pat w : BitVec 4} {a : Src}

theorem ends_patDef (rd : Ready s b t th .app { srcs := one [a] } h) : Ends (.patDef h pat w a) s b t { srcs := one [a] } h
    (s.modCtx b.core fun y => { y with pats := y.pats.set 0 pat.toNat (putAt ((s.ctx b.core).pats.get 0 pat.toNat) (32 * w.toNat)
      (rdWord s (envOf s b t { srcs := one [a] } h) h a)) }) :=
  ends_perThread rd rfl rfl (by rw [(SameThreads.modCtx rfl).live, rd.live]; rfl)

/-- What `pat.ld` does of one thread. -/
def patLdAct (h : Hdr) (pat : BitVec 4) (a : Src) (e : Env) (_ : DWord) (s : State) : Res :=
  let va := addrOf s e h .g a
  if va % 64 ≠ 0 then raise s 0x03 (BitVec.ofNat 64 va)
  else match readImage s e va 64 with
    | .error r => .fail s r
    | .ok (s, l) => .done (setPat s e.c pat.toNat (BitVec.ofNat 512 (natOf l)))
theorem exec_patLd (h : Hdr) (pat : BitVec 4) (a : Src) (s : State) :
    exec (.patLd h pat a) s = .next (perThread .app { srcs := [(a, 2)] } h (patLdAct h pat a) s) := rfl

theorem raises_of_act {i : Instr} {lv : Level} {u : Uses} {act : Env → DWord → State → Res} {x : Raise} {code : BitVec 6}
    (rd : Ready s b t th lv u h) (he : exec i s = .next (perThread lv u h act s)) (ha : act (envOf s b t u h) th.pc s = .fail s x)
    (hx : x.used = false) (hat : x.at_ = none) (hnum : x.num = 0) (hc : x.code = code) : Raises i s b t code := by
  obtain ⟨n, hn, hr⟩ := raised_of_fail rd he ha hx hat
  rw [hnum, hc] at hr
  exact ⟨_, hn, hr⟩

theorem raises_of_raise {i : Instr} {lv : Level} {u : Uses} {act : Env → DWord → State → Res} {code : BitVec 6} {va : DWord}
    (rd : Ready s b t th lv u h) (he : exec i s = .next (perThread lv u h act s)) (ha : act (envOf s b t u h) th.pc s = raise s code va) :
    Raises i s b t code := raises_of_act rd he ha rfl rfl rfl rfl

theorem raises_patLd_align (rd : Ready s b t th .app { srcs := [(a, 2)] } h)
    (hva : addrOf s (envOf s b t { srcs := [(a, 2)] } h) h .g a % 64 ≠ 0) : Raises (.patLd h pat a) s b t 0x03 :=
  raises_of_raise rd (exec_patLd ..) (if_pos hva)
theorem raises_patLd {r : Raise} (rd : Ready s b t th .app { srcs := [(a, 2)] } h)
    (hva : addrOf s (envOf s b t { srcs := [(a, 2)] } h) h .g a % 64 = 0)
    (hr : readImage s (envOf s b t { srcs := [(a, 2)] } h) (addrOf s (envOf s b t { srcs := [(a, 2)] } h) h .g a) 64 = .error r)
    (hu : r.used = false) : Raises (.patLd h pat a) s b t r.code := by
  obtain ⟨hat, hnum⟩ := readImage_error hr hu
  exact raises_of_act rd (exec_patLd ..) ((if_neg (not_not.2 hva)).trans (by rw [hr])) hu hat hnum rfl
theorem ends_patLd {s1 : State} {l : List Byte} (rd : Ready s b t th .app { srcs := [(a, 2)] } h)
    (hva : addrOf s (envOf s b t { srcs := [(a, 2)] } h) h .g a % 64 = 0)
    (hr : readImage s (envOf s b t { srcs := [(a, 2)] } h) (addrOf s (envOf s b t { srcs := [(a, 2)] } h) h .g a) 64 = .ok (s1, l)) :
    Ends (.patLd h pat a) s b t { srcs := [(a, 2)] } h (setPat s1 b.core pat.toNat (BitVec.ofNat 512 (natOf l))) := by
  refine ends_perThread rd (exec_patLd ..) ((if_neg (not_not.2 hva)).trans (by rw [hr]; rfl)) ?_
  rw [setPat, (SameThreads.modCtx rfl).live, (CachesOnly.readImage hr).thr?, rd.live]
  rfl

theorem writesHeld_of_done {c n : Nat} (hd : ∀ q ∈ (s.ctx c).ops, q.tid = t → q.retired = none → q.done = true) :
    writesHeld s c t n = true := by
  refine List.all_eq_true.2 fun o ho => ?_
  by_cases h1 : o.tid = t
  · by_cases h2 : o.retired = none
    · simp [hd o ho h1 h2]
    · simp [Option.isSome_iff_ne_none.2 h2]
  · simp [h1]
theorem ends_patFence (rd : Ready s b t th .app {} h) (hw : writesHeld s b.core t (s.ctx b.core).nextOp = true) :
    Ends (.patFence h) s b t {} h (s.modCore b.core fun y => { y with rcache := [] }) :=
  ends_perThread rd rfl (if_pos hw) (by rw [(SameThreads.modCore rfl).live, rd.live]; rfl)
theorem waits_patFence (rd : Ready s b t th .app {} h) (hw : writesHeld s b.core t (s.ctx b.core).nextOp = false) :
    Waits (.patFence h) s b t {} h (.retry .held) s :=
  waits_perThread rd rfl (if_neg (by simp [envOf, hw])) (by rw [rd.live]; rfl)
end

/-! ### Elements (R196) -/

section
variable {s s1 : State} {c : Nat} {o : Op} {p : Pat} {x : DWord} {k : Nat} {row : Option (Nat × Nat)}

theorem strideAddr_eq (p : Pat) (x : DWord) (k v : Nat) : strideAddr p x k v =
    (((p.base : Int) + x.toNat + (v : Int) * p.st 1 + (((k / p.n 0 / p.n 1 % p.n 2 : Nat) : Int) * p.st 2 +
      ((k / p.n 0 / p.n 1 / p.n 2 : Nat) : Int) * p.st 3 + ((k % p.n 0 : Nat) : Int) * p.st 0)) % (2 ^ 64 : Nat)).toNat := by
  unfold strideAddr
  congr 2
  ring
theorem elemAddr_direct (h : p.isz = 0) : elemAddr s c o p x k row = .ok (s, strideAddr p x k (k / p.n 0 % p.n 1), 0) := by
  rw [strideAddr_eq]
  exact if_pos h
/-- The index of the row is at hand. -/
theorem elemAddr_row (h : p.isz ≠ 0) (v : Nat) : elemAddr s c o p x k (some (k / p.n 0, v)) = .ok (s, strideAddr p x k v, v) := by
  rw [strideAddr_eq]
  exact (if_neg h).trans (if_pos rfl)
/-- It is read. -/
theorem elemAddr_read {l : List Byte} (h : p.isz ≠ 0) (hrow : ∀ y, row = some y → y.1 ≠ k / p.n 0)
    (hr : engineRead s c o ((p.ibase + k / p.n 0 * p.isz) % 2 ^ 64) p.isz = .ok (s1, l)) :
    elemAddr s c o p x k row = .ok (s1, strideAddr p x k (natOf l), natOf l) := by
  rw [strideAddr_eq]
  unfold elemAddr
  dsimp only
  rw [if_neg h]
  cases row with
  | none =>
    unfold elemAddr.read
    rw [hr]
  | some y =>
    have hy := hrow y rfl
    dsimp only
    rw [if_neg hy]
    unfold elemAddr.read
    rw [hr]
end

/-! ### Legal records (R195) -/

/-- The field of `n` bytes at byte `i` of a record. -/
def recField (r : BitVec 512) (i n : Nat) : Nat := (r.extractLsb' (8 * i) (8 * n)).toNat
theorem recField_eq (r : BitVec 512) (i n : Nat) : r.toNat / 2 ^ (8 * i) % 2 ^ (8 * n) = recField r i n := by
  rw [recField, BitVec.extractLsb'_toNat, Nat.shiftRight_eq_div_pow]
theorem patOf_st (r : BitVec 512) (i : Nat) : (patOf r).st i = (r.extractLsb' (8 * (20 + 4 * i)) 32).toInt := by
  change (BitVec.ofNat 32 (r.toNat / 2 ^ (8 * (20 + 4 * i)) % 2 ^ (8 * 4))).toInt = _
  rw [recField_eq, recField]
  exact congrArg BitVec.toInt ((BitVec.ofNat_toNat ..).trans (BitVec.setWidth_eq _))
/-- The bytes of an index by its code. -/
def indexSize : Nat → Nat
  | 0 => 0
  | 1 => 2
  | _ => 4
theorem patOf_isz (r : BitVec 512) : (patOf r).isz = indexSize (recField r 9 1) := by
  rw [← recField_eq]
  rfl

/-- The index base of a record of a legal index size is aligned to it. -/
theorem index_aligned_iff {n v : Nat} (hn : n < 3) :
    (indexSize n = 0 ∨ v % indexSize n = 0) ↔ (n = 1 → v % 2 = 0) ∧ (n = 2 → v % 4 = 0) := by
  match n, hn with
  | 0, _ => simp [indexSize]
  | 1, _ => simp [indexSize]
  | 2, _ => simp [indexSize]

theorem patOk_iff (r : BitVec 512) : patOk r = true ↔ recField r 8 1 < 4 ∧ recField r 9 1 < 3 ∧ recField r 10 2 = 0 ∧ recField r 36 4 = 0 ∧
    recField r 48 16 = 0 ∧ recField r 0 8 % 2 ^ recField r 8 1 = 0 ∧
    (∀ i, i < 4 → recField r (12 + 2 * i) 2 ≠ 0 ∧ (r.extractLsb' (8 * (20 + 4 * i)) 32).toInt % ((2 ^ recField r 8 1 : Nat) : Int) = 0) ∧
    (recField r 9 1 = 1 → recField r 40 8 % 2 = 0) ∧ (recField r 9 1 = 2 → recField r 40 8 % 4 = 0) := by
  have hbase : (patOf r).base = recField r 0 8 := by
    rw [← recField_eq]
    rfl
  have hesz : (patOf r).esz = 2 ^ recField r 8 1 := by
    rw [← recField_eq]
    rfl
  have hn : ∀ i, (patOf r).n i = recField r (12 + 2 * i) 2 := fun i => by
    rw [← recField_eq]
    rfl
  have hibase : (patOf r).ibase = recField r 40 8 := by
    rw [← recField_eq]
    rfl
  simp only [patOk, Bool.and_eq_true, decide_eq_true_eq, beq_iff_eq, Bool.or_eq_true, List.all_eq_true, List.mem_range, patOf_st,
    recField_eq, patOf_isz, hbase, hesz, hn, hibase, Nat.one_le_iff_ne_zero, and_assoc]
  refine and_congr_right fun _ => and_congr_right fun hlt => ?_
  rw [index_aligned_iff hlt]


theorem copyShape_iff (r : BitVec 512) (ti : Tile) : copyShape r ti = true ↔ patOk r = true ∧ (patOf r).esz = ti.esz ∧
    (patOf r).n 0 * (patOf r).n 1 * (patOf r).n 2 * (patOf r).n 3 ≤ ti.rows * ti.cols := by
  simp only [copyShape, Bool.and_eq_true, beq_iff_eq, decide_eq_true_eq, and_assoc]
  exact Iff.rfl

theorem patterns : Patterns := by
  intro s b t th h pat w a p x k o c
  refine ⟨fun rd => ⟨_, ends_patDef rd, extractLsb'_putAt_self .., fun j hj hw => extractLsb'_putAt_ne _ _ _ hj hw⟩, fun rd => ⟨?_, ?_, ?_⟩,
    fun rd => ⟨fun hd => ends_patFence rd (writesHeld_of_done hd), waits_patFence rd⟩, fun hp row => elemAddr_direct hp,
    fun hp => ⟨elemAddr_row hp, fun s1 l row hrow hr => elemAddr_read hp hrow hr⟩, patOk_iff, copyShape_iff⟩
  · exact raises_patLd_align rd
  · exact fun hva r => raises_patLd rd hva
  · exact fun hva s1 l => ends_patLd rd hva

/-! ### Acceptance (R84, R199) -/

/-- The copy as it stands in the queue: its thread, its place, what it copies and its signal. -/
structure CopyTaken (c t : Nat) (pc : DWord) (k : CopyKind) (g : Option Nat) (s v : State) : Prop where
  count  : s.count c t .copies + 1 ≤ v.count c t .copies
  queued : ∃ y, (v.ctx c).copies = (s.ctx c).copies ++ [y] ∧ y.tid = t ∧ y.pc = pc ∧ y.kind = k ∧ y.sig = g

theorem copyTaken_acceptCopy {s v : State} {e : Env} (ho : (v.ctx e.c).ops = (s.ctx e.c).ops) (hc : (v.ctx e.c).copies = (s.ctx e.c).copies)
    (pc : DWord) (k : CopyKind) (g : Option Nat) : CopyTaken e.c e.t pc k g s (acceptCopy v e pc k g) := by
  constructor
  · have hops : ((acceptCopy v e pc k g).ctx e.c).ops = (s.ctx e.c).ops ++ [newOp v e.c e.t .copies pc (.copy (v.ctx e.c).nextCopy)] := by
      simp [acceptCopy, addOp, ho]
    rw [State.count, State.count, Ctx.count, Ctx.count, hops, List.countP_append]
    simp [newOp, OpBody.accepted]
  · refine ⟨{ id := (v.ctx e.c).nextCopy, op := (v.ctx e.c).nextOp, tid := e.t, unit := (addOp v e.c e.t .copies pc (.copy (v.ctx e.c).nextCopy)).1.unitOf e.c e.t, pc := pc, kind := k, sig := g }, ?_, rfl, rfl, rfl, rfl⟩
    simp [acceptCopy, addOp, hc]
theorem acceptCopy_threads (v : State) (e : Env) (pc : DWord) (k : CopyKind) (g : Option Nat) :
    ((acceptCopy v e pc k g).ctx e.c).threads = (v.ctx e.c).threads := by simp [acceptCopy, addOp]
theorem acceptCopy_tiles (v : State) (e : Env) (pc : DWord) (k : CopyKind) (g : Option Nat) :
    ((acceptCopy v e pc k g).ctx e.c).tiles = (v.ctx e.c).tiles := by simp [acceptCopy, addOp]

/-! ### What holds a copy back, and its end (R84, R199) -/

theorem withRoom_open {s : State} {e : Env} {f : Unit → Res} (hroom : s.count e.c e.t .copies < 63 ∧ (s.ctx e.c).copies.length < 32) :
    withRoom s e f = f () := by
  rw [withRoom, copyRoom, if_neg (Nat.not_le.2 hroom.1), if_neg (Nat.not_le.2 hroom.2)]

section
variable {s : State} {b : Bundle} {t : Nat} {th : Thread} {u : Uses} {h : Hdr} {i : Instr} {act : Env → DWord → State → Res}
  {f : Unit → Res} (rd : Ready s b t th .app u h) (he : exec i s = .next (perThread .app u h act s))
include rd he

theorem waits_of_full (hf : act (envOf s b t u h) th.pc s = withRoom s (envOf s b t u h) f) :
    (s.count b.core t .copies ≥ 63 → Waits i s b t u h (.retry (.room .copies)) s) ∧
    (s.count b.core t .copies < 63 → 32 ≤ (s.ctx b.core).copies.length → Waits i s b t u h (.retry .copyQueue) s) := by
  have hwait : ∀ y, copyRoom s (envOf s b t u h) = some y → Waits i s b t u h (.retry y) s := fun y hy =>
    waits_perThread rd he (by rw [hf, withRoom, hy]) (by rw [rd.live]; rfl)
  exact ⟨fun hc => hwait _ (if_pos hc), fun hc hl => hwait _ ((if_neg (Nat.not_le.2 hc)).trans (if_pos hl))⟩

theorem waits_of_act {k : Blk} (hx : act (envOf s b t u h) th.pc s = .wait s k) : Waits i s b t u h k s :=
  waits_perThread rd he hx (by rw [rd.live]; rfl)

/-- A copy that is accepted in a state that has the threads, operations and copies of the instruction's. -/
theorem ends_acceptCopy {v : State} {k : CopyKind} {g : Option Nat}
    (hx : act (envOf s b t u h) th.pc s = .done (acceptCopy v (envOf s b t u h) th.pc k g))
    (ht : (v.ctx b.core).threads = (s.ctx b.core).threads) (ho : (v.ctx b.core).ops = (s.ctx b.core).ops)
    (hc : (v.ctx b.core).copies = (s.ctx b.core).copies) {l : Map Tile} (hl : (v.ctx b.core).tiles = l) :
    ∃ w, Ends i s b t u h w ∧ CopyTaken b.core t th.pc k g s w ∧ (w.ctx b.core).tiles = l := by
  refine ⟨_, ends_perThread rd he hx ?_, copyTaken_acceptCopy (e := envOf s b t u h) ho hc ..,
    (acceptCopy_tiles v (envOf s b t u h) ..).trans hl⟩
  have hth : ((acceptCopy v (envOf s b t u h) th.pc k g).ctx b.core).threads = (s.ctx b.core).threads :=
    (acceptCopy_threads v (envOf s b t u h) ..).trans ht
  rw [State.thr?, hth]
  exact Option.isSome_iff_exists.2 ⟨th, rd.live⟩
end

/-! ### Signals (R200) -/

theorem signalCheck_error {s : State} {e : Env} {h : Hdr} {sig : Option Src} {x : Raise} (hx : signalCheck s e h sig = .error x) :
    x.used = false ∧ x.at_ = none ∧ x.num = 0 := by
  unfold signalCheck at hx
  split at hx
  · cases hx
  · dsimp only at hx
    split at hx
    · cases hx; exact ⟨rfl, rfl, rfl⟩
    · split at hx
      · cases hx; exact ⟨rfl, rfl, rfl⟩
      · split at hx
        · cases hx; exact ⟨rfl, rfl, rfl⟩
        · cases hx

theorem tiled_iff (x : Ctx) (v : Nat) : (x.tiles.any fun q => q.2.meets v 4) = true ↔
    ∃ y ∈ x.tiles, v < y.2.off + y.2.rows * y.2.pitch ∧ y.2.off < v + 4 := by
  simp only [List.any_eq_true, Tile.meets, Bool.and_eq_true, decide_eq_true_eq]
  exact Iff.rfl

theorem signalCheck_spec (s : State) (h : Hdr) (e : Env) (x : Src) :
    let v := (rdWord s e h x).toNat
    let tiled := ∃ y ∈ (s.ctx e.c).tiles, v < y.2.off + y.2.rows * y.2.pitch ∧ y.2.off < v + 4
    signalCheck s e h none = .ok none ∧
    (v % 4 ≠ 0 → ∃ r, signalCheck s e h (some x) = .error r ∧ r.code = 0x03) ∧
    (v % 4 = 0 → 65536 * (16 - (s.ctx e.c).l1units) < v + 4 → ∃ r, signalCheck s e h (some x) = .error r ∧ r.code = 0x05) ∧
    (v % 4 = 0 → v + 4 ≤ 65536 * (16 - (s.ctx e.c).l1units) →
      (tiled → ∃ r, signalCheck s e h (some x) = .error r ∧ r.code = 0x09) ∧
      (¬ tiled → signalCheck s e h (some x) = .ok (some v))) := by
  intro v tiled
  have hiff := tiled_iff (s.ctx e.c) v
  refine ⟨rfl, fun ha => ⟨_, if_pos ha, rfl⟩, fun ha hs => ⟨_, (if_neg (not_not.2 ha)).trans (if_pos hs), rfl⟩, fun ha hs => ⟨fun ht => ?_, fun ht => ?_⟩⟩
  · exact ⟨_, (if_neg (not_not.2 ha)).trans ((if_neg (Nat.not_lt.2 hs)).trans (if_pos (hiff.2 ht))), rfl⟩
  · exact (if_neg (not_not.2 ha)).trans ((if_neg (Nat.not_lt.2 hs)).trans (if_neg (fun h => ht (hiff.1 h))))

/-! ### The copies -/

theorem isEmptyTile_iff (ti : Tile) : isEmptyTile ti = true ↔ ti.st = .empty ∧ ti.replay = false := by
  simp [isEmptyTile]

theorem raises_of_signal {s : State} {b : Bundle} {t : Nat} {th : Thread} {u : Uses} {h : Hdr} {i : Instr} {act : Env → DWord → State → Res}
    {sig : Option Src} {x : Raise} (rd : Ready s b t th .app u h) (he : exec i s = .next (perThread .app u h act s))
    (hs : signalCheck s (envOf s b t u h) h sig = .error x) (ha : act (envOf s b t u h) th.pc s = .fail s x) : Raises i s b t x.code := by
  obtain ⟨hu, hat, hnum⟩ := signalCheck_error hs
  exact raises_of_act rd he ha hu hat hnum rfl

theorem not_isEmptyTile_iff (ti : Tile) : (!isEmptyTile ti) = true ↔ ti.st ≠ .empty ∨ ti.replay = true := by
  rw [Bool.not_eq_true', ← Bool.not_eq_true, isEmptyTile_iff, not_and_or, Bool.not_eq_false]
theorem not_not_isEmptyTile {ti : Tile} (h1 : ti.st = .empty) (h2 : ti.replay = false) : ¬ (!isEmptyTile ti) = true := by
  rw [not_isEmptyTile_iff]
  simp [h1, h2]

section
variable {s : State} {b : Bundle} {t : Nat} {th : Thread} {h : Hdr} {ev : BitVec 3} {tl sl : BitVec 7} {pat : BitVec 4} {a p q : Src}
  {sig : Option Src} {tr : Bool} {u : Uses} {e : Env} {ti : Tile} {x : Raise} {g : Option Nat}

section
variable (hu : u = { srcs := one (a :: sig.toList) }) (he : e = envOf s b t u h) (rd : Ready s b t th .app u h)
  (hroom : s.count b.core t .copies < 63 ∧ (s.ctx b.core).copies.length < 32) (htl : tileAt s e tl = some ti)
include hu he rd hroom htl

/-- An element of 8 bytes is a pair that the thread has. -/
theorem raises_tileFill_operand :
    (ti.esz = 8 → a.isImm = true ∨ a.al 2 = false → Raises (.tileFill h tl a sig) s b t 0x01) ∧
    (ti.esz = 8 → a.isImm = false → a.al 2 = true → srcAvail th (a, 2) = false → Raises (.tileFill h tl a sig) s b t 0x0F) := by
  subst hu he
  refine ⟨fun h8 ha => raises_of_raise (va := 0) rd rfl ((withRoom_open hroom).trans ?_), fun h8 h1 h2 ha =>
    raises_of_raise (va := 0) rd rfl ((withRoom_open hroom).trans ?_)⟩
  · rw [htl]
    exact if_pos ⟨h8, by simpa using ha⟩
  · rw [htl]
    exact (if_neg (by simp [h1, h2])).trans (if_pos ⟨h8, by simp [envOf, rd.thr, ha]⟩)

theorem tileFill_issue (hok : ti.esz ≠ 8 ∨ (a.isImm = false ∧ a.al 2 = true ∧ srcAvail th (a, 2) = true)) :
    (ti.st ≠ .empty ∨ ti.replay = true → Raises (.tileFill h tl a sig) s b t 0x09) ∧
    (ti.st = .empty → ti.replay = false →
      (∀ x, signalCheck s e h sig = .error x → Raises (.tileFill h tl a sig) s b t x.code) ∧
      (∀ g, signalCheck s e h sig = .ok g → ∃ v, Ends (.tileFill h tl a sig) s b t u h v ∧
        CopyTaken b.core t th.pc (.fill tl.toNat (if ti.esz = 8 then rdPair s e h a else (rdWord s e h a).setWidth 64)) g s v ∧
        (v.ctx b.core).tiles = (s.ctx b.core).tiles.put tl.toNat { ti with st := .filling })) := by
  subst hu he
  have h1 : ¬ (ti.esz = 8 ∧ (a.isImm ∨ !a.al 2)) := by
    obtain h8 | ⟨h1, h2, -⟩ := hok
    · simp [h8]
    · simp [h1, h2]
  have h2 : ¬ (ti.esz = 8 ∧ !srcAvail (s.thr b.core t) (a, 2)) := by
    obtain h8 | ⟨-, -, h3⟩ := hok
    · simp [h8]
    · simp [h3, rd.thr]
  refine ⟨fun hst => raises_of_raise (va := 0) rd rfl ((withRoom_open hroom).trans ?_), fun h3 h4 => ⟨fun x hx =>
    raises_of_signal rd rfl hx ((withRoom_open hroom).trans ?_), fun g hg => ?_⟩⟩
  · rw [htl]
    exact (if_neg h1).trans ((if_neg h2).trans (if_pos ((not_isEmptyTile_iff ti).2 hst)))
  · rw [htl]
    refine (if_neg h1).trans ((if_neg h2).trans ((if_neg (not_not_isEmptyTile h3 h4)).trans ?_))
    rw [hx]
  · have hput := tilePut_tileSt htl .filling
    refine ends_acceptCopy rd rfl ((withRoom_open hroom).trans ?_) hput.threads hput.ops hput.copies hput.tiles
    rw [htl]
    refine (if_neg h1).trans ((if_neg h2).trans ((if_neg (not_not_isEmptyTile h3 h4)).trans ?_))
    rw [hg]
end

section
variable (hu : u = { srcs := (p, 2) :: one sig.toList }) (he : e = envOf s b t u h) (rd : Ready s b t th .app u h)
  (hroom : s.count b.core t .copies < 63 ∧ (s.ctx b.core).copies.length < 32) (htl : tileAt s e tl = some ti)
include hu he rd hroom htl

theorem cpIn_issue :
    (copyShape ((s.ctx b.core).pats.get 0 pat.toNat) ti = false → Raises (.cpIn h ev tl pat p sig) s b t 0x0A) ∧
    (copyShape ((s.ctx b.core).pats.get 0 pat.toNat) ti = true → 
      (ti.st ≠ .empty ∨ ti.replay = true → Raises (.cpIn h ev tl pat p sig) s b t 0x09) ∧
      (ti.st = .empty → ti.replay = false →
        (∀ x, signalCheck s e h sig = .error x → Raises (.cpIn h ev tl pat p sig) s b t x.code) ∧
        (∀ g, signalCheck s e h sig = .ok g → ∃ v, Ends (.cpIn h ev tl pat p sig) s b t u h v ∧
          CopyTaken b.core t th.pc (.cpIn tl.toNat ((s.ctx b.core).pats.get 0 pat.toNat) (rdPair s e h p) ev.toNat) g s v ∧
          (v.ctx b.core).tiles = (s.ctx b.core).tiles.put tl.toNat { ti with st := .filling }))) := by
  subst hu he
  refine ⟨fun hs => raises_of_raise (va := 0) rd rfl ((withRoom_open hroom).trans ?_), fun hs => ?_⟩
  · rw [htl]
    exact if_pos (congrArg Bool.not hs)
  have hs : ¬ (!copyShape ((s.ctx b.core).pats.get 0 pat.toNat) ti) = true := fun h => Bool.noConfusion (h.symm.trans (congrArg Bool.not hs))
  refine ⟨fun hst => raises_of_raise (va := 0) rd rfl ((withRoom_open hroom).trans ?_), fun h3 h4 => ⟨fun x hx =>
    raises_of_signal rd rfl hx ((withRoom_open hroom).trans ?_), fun g hg => ?_⟩⟩
  · rw [htl]
    exact (if_neg hs).trans (if_pos ((not_isEmptyTile_iff ti).2 hst))
  · rw [htl]
    refine (if_neg hs).trans ((if_neg (not_not_isEmptyTile h3 h4)).trans ?_)
    rw [hx]
  · have hput := tilePut_tileSt htl .filling
    refine ends_acceptCopy rd rfl ((withRoom_open hroom).trans ?_) hput.threads hput.ops hput.copies hput.tiles
    rw [htl]
    refine (if_neg hs).trans ((if_neg (not_not_isEmptyTile h3 h4)).trans ?_)
    rw [hg]
    rfl

theorem cpOut_issue :
    (ti.st ≠ .ready → Waits (.cpOut h ev tl pat p sig) s b t u h (.retry (.tile tl.toNat)) s) ∧
    (ti.st = .ready →
      (copyShape ((s.ctx b.core).pats.get 0 pat.toNat) ti = false → Raises (.cpOut h ev tl pat p sig) s b t 0x0A) ∧
      (copyShape ((s.ctx b.core).pats.get 0 pat.toNat) ti = true →
        (∀ x, signalCheck s e h sig = .error x → Raises (.cpOut h ev tl pat p sig) s b t x.code) ∧
        (∀ g, signalCheck s e h sig = .ok g → ∃ v, Ends (.cpOut h ev tl pat p sig) s b t u h v ∧
          CopyTaken b.core t th.pc (.cpOut tl.toNat ((s.ctx b.core).pats.get 0 pat.toNat) (rdPair s e h p) ev.toNat) g s v ∧
          (v.ctx b.core).tiles = (s.ctx b.core).tiles.put tl.toNat { ti with st := .draining }))) := by
  subst hu he
  refine ⟨fun hst => waits_of_act rd rfl ((withRoom_open hroom).trans ?_), fun hst => ⟨fun hs =>
    raises_of_raise (va := 0) rd rfl ((withRoom_open hroom).trans ?_), fun hs => ?_⟩⟩
  · rw [htl]
    exact if_pos hst
  · rw [htl]
    exact (if_neg (not_not.2 hst)).trans (if_pos (congrArg Bool.not hs))
  have hs : ¬ (!copyShape ((s.ctx b.core).pats.get 0 pat.toNat) ti) = true := fun h => Bool.noConfusion (h.symm.trans (congrArg Bool.not hs))
  refine ⟨fun x hx => raises_of_signal rd rfl hx ((withRoom_open hroom).trans ?_), fun g hg => ?_⟩
  · rw [htl]
    refine (if_neg (not_not.2 hst)).trans ((if_neg hs).trans ?_)
    rw [hx]
  · have hacq := WorkStands.tileAcquire s b.core t tl.toNat
    have htl' : tileAt (tileAcquire s b.core t tl.toNat) (envOf s b t { srcs := (p, 2) :: one sig.toList } h) tl = some ti :=
      (congrArg (Map.look · tl.toNat) hacq.tiles).trans htl
    have hput := tilePut_tileSt htl' .draining
    refine ends_acceptCopy rd rfl ((withRoom_open hroom).trans ?_) (hput.threads.trans hacq.threads) (hput.ops.trans hacq.ops)
      (hput.copies.trans hacq.copies) (hput.tiles.trans (congrArg (fun m : Map Tile => m.put tl.toNat { ti with st := .draining }) hacq.tiles))
    rw [htl]
    refine (if_neg (not_not.2 hst)).trans ((if_neg hs).trans ?_)
    rw [hg]
    rfl
end

section
variable (hu : u = { srcs := one sig.toList }) (he : e = envOf s b t u h) (rd : Ready s b t th .app u h)
  (hroom : s.count b.core t .copies < 63 ∧ (s.ctx b.core).copies.length < 32)
include hu he rd hroom

theorem raises_cpTt_none (hn : tl = sl ∨ tileAt s e tl = none ∨ tileAt s e sl = none) : Raises (.cpTt h tr tl sl sig) s b t 0x09 := by
  subst hu he
  refine raises_of_raise (va := 0) rd rfl ((withRoom_open hroom).trans ?_)
  by_cases hne : tl = sl
  · exact if_pos hne
  · refine (if_neg hne).trans ?_
    obtain hn | hn | hn := hn
    · exact absurd hn hne
    · rw [hn]
    · rw [hn]
      split
      · rename_i h1 h2
        cases h2
      · rfl

variable {di si : Tile} (hne : tl ≠ sl) (hdl : tileAt s e tl = some di) (hsl : tileAt s e sl = some si)
include hne hdl hsl

theorem cpTt_issue (fits : Prop)
    (hfits : fits ↔ di.esz = si.esz ∧ (if tr then si.cols else si.rows) ≤ di.rows ∧ (if tr then si.rows else si.cols) ≤ di.cols) :
    (si.st ≠ .ready → Waits (.cpTt h tr tl sl sig) s b t u h (.retry (.tile sl.toNat)) s) ∧
    (si.st = .ready →
      (¬ fits → Raises (.cpTt h tr tl sl sig) s b t 0x0A) ∧
      (fits →
        (di.st ≠ .empty ∨ di.replay = true → Raises (.cpTt h tr tl sl sig) s b t 0x09) ∧
        (di.st = .empty → di.replay = false →
          (∀ x, signalCheck s e h sig = .error x → Raises (.cpTt h tr tl sl sig) s b t x.code) ∧
          (∀ g, signalCheck s e h sig = .ok g → ∃ v, Ends (.cpTt h tr tl sl sig) s b t u h v ∧
            CopyTaken b.core t th.pc (.tt tl.toNat sl.toNat tr) g s v ∧
            (v.ctx b.core).tiles = ((s.ctx b.core).tiles.put tl.toNat { di with st := .filling }).put sl.toNat { si with st := .draining })))) := by
  subst hu he
  have hmis : (di.esz ≠ si.esz ∨ di.rows < (if tr then si.cols else si.rows) ∨ di.cols < (if tr then si.rows else si.cols)) ↔ ¬ fits := by
    rw [hfits, not_and_or, not_and_or, not_le, not_le]
  refine ⟨fun hst => waits_of_act rd rfl ((withRoom_open hroom).trans ?_), fun hst => ⟨fun hf =>
    raises_of_raise (va := 0) rd rfl ((withRoom_open hroom).trans ?_), fun hf => ?_⟩⟩
  · rw [hdl, hsl]
    exact (if_neg hne).trans (if_pos hst)
  · rw [hdl, hsl]
    exact (if_neg hne).trans ((if_neg (not_not.2 hst)).trans (if_pos (hmis.2 hf)))
  have hok : ¬ (di.esz ≠ si.esz ∨ di.rows < (if tr then si.cols else si.rows) ∨ di.cols < (if tr then si.rows else si.cols)) :=
    fun h => hmis.1 h hf
  refine ⟨fun hst' => raises_of_raise (va := 0) rd rfl ((withRoom_open hroom).trans ?_), fun h3 h4 => ⟨fun x hx =>
    raises_of_signal rd rfl hx ((withRoom_open hroom).trans ?_), fun g hg => ?_⟩⟩
  · rw [hdl, hsl]
    exact (if_neg hne).trans ((if_neg (not_not.2 hst)).trans ((if_neg hok).trans (if_pos ((not_isEmptyTile_iff di).2 hst'))))
  · rw [hdl, hsl]
    refine (if_neg hne).trans ((if_neg (not_not.2 hst)).trans ((if_neg hok).trans ((if_neg (not_not_isEmptyTile h3 h4)).trans ?_)))
    rw [hx]
  · have hacq := WorkStands.tileAcquire s b.core t sl.toNat
    have hdl' : tileAt (tileAcquire s b.core t sl.toNat) (envOf s b t { srcs := one sig.toList } h) tl = some di :=
      (congrArg (Map.look · tl.toNat) hacq.tiles).trans hdl
    have hput := tilePut_tileSt hdl' .filling
    have hsl' : tileAt (tileSt (tileAcquire s b.core t sl.toNat) (envOf s b t { srcs := one sig.toList } h) tl .filling)
        (envOf s b t { srcs := one sig.toList } h) sl = some si := by
      rw [tileAt, hput.tiles, Map.look_put_ne _ _ fun h => hne (BitVec.eq_of_toNat_eq h.symm)]
      exact (congrArg (Map.look · sl.toNat) hacq.tiles).trans hsl
    have hput' := tilePut_tileSt hsl' .draining
    refine ends_acceptCopy rd rfl ((withRoom_open hroom).trans ?_) (hput'.threads.trans (hput.threads.trans hacq.threads))
      (hput'.ops.trans (hput.ops.trans hacq.ops)) (hput'.copies.trans (hput.copies.trans hacq.copies))
      (hput'.tiles.trans (congrArg (fun m : Map Tile => m.put sl.toNat { si with st := .draining }) (hput.tiles.trans
        (congrArg (fun m : Map Tile => m.put tl.toNat { di with st := .filling }) hacq.tiles))))
    rw [hdl, hsl]
    refine (if_neg hne).trans ((if_neg (not_not.2 hst)).trans ((if_neg hok).trans ((if_neg (not_not_isEmptyTile h3 h4)).trans ?_)))
    rw [hg]
    rfl
end

/-! ### The copy of weights (R231) -/

section
variable (hu : u = { srcs := [(a, 2), (p, 1), (q, 1)] }) (he : e = envOf s b t u h) (rd : Ready s b t th .app u h)
include hu he rd

theorem wbLd_issue (va off n : Nat) (hva : va = addrOf s e h .g a) (hoff : off = (rdWord s e h p).toNat) (hn : n = (rdWord s e h q).toNat) :
    (n ≠ 0 →
      (s.count b.core t .copies ≥ 63 → Waits (.wbLd h ev a p q) s b t u h (.retry (.room .copies)) s) ∧
      (s.count b.core t .copies < 63 → 32 ≤ (s.ctx b.core).copies.length → Waits (.wbLd h ev a p q) s b t u h (.retry .copyQueue) s)) ∧
    (n = 0 ∨ (s.count b.core t .copies < 63 ∧ (s.ctx b.core).copies.length < 32) →
      (va % 64 ≠ 0 ∨ off % 64 ≠ 0 ∨ n % 64 ≠ 0 → Raises (.wbLd h ev a p q) s b t 0x03) ∧
      (va % 64 = 0 → off % 64 = 0 → n % 64 = 0 → (262144 < off + n → Raises (.wbLd h ev a p q) s b t 0x05) ∧
        (off + n ≤ 262144 → n = 0 → Ends (.wbLd h ev a p q) s b t u h s) ∧
        (off + n ≤ 262144 → n ≠ 0 → ∃ v, Ends (.wbLd h ev a p q) s b t u h v ∧ CopyTaken b.core t th.pc (.wb off va n ev.toNat) none s v))) := by
  subst hu he hva hoff hn
  refine ⟨fun h0 => waits_of_full rd rfl (if_neg h0), fun hroom => ?_⟩
  have hchecked : ∀ f : Unit → Res, (if (rdWord s (envOf s b t { srcs := [(a, 2), (p, 1), (q, 1)] } h) h q).toNat = 0 then f () else
      withRoom s (envOf s b t { srcs := [(a, 2), (p, 1), (q, 1)] } h) f) = f () := fun f => by
    split
    · rfl
    · rename_i h0
      exact withRoom_open (hroom.resolve_left h0)
  refine ⟨fun hal => raises_of_raise rd rfl ((hchecked _).trans (if_pos hal)), fun h1 h2 h3 => ?_⟩
  have hal : ¬ (_ % 64 ≠ 0 ∨ _ % 64 ≠ 0 ∨ _ % 64 ≠ 0) := fun h => h.elim (· h1) fun h => h.elim (· h2) (· h3)
  refine ⟨fun hbig => raises_of_raise (va := 0) rd rfl ((hchecked _).trans ((if_neg hal).trans (if_pos hbig))), fun hfit h0 => ?_, fun hfit h0 => ?_⟩
  · exact ends_perThread rd rfl ((hchecked _).trans ((if_neg hal).trans ((if_neg (Nat.not_lt.2 hfit)).trans (if_pos h0)))) (by rw [rd.live]; rfl)
  · have hend := ends_acceptCopy (i := .wbLd h ev a p q) (v := s) (l := (s.ctx b.core).tiles) (g := none)
      (k := .wb (rdWord s (envOf s b t { srcs := [(a, 2), (p, 1), (q, 1)] } h) h p).toNat
        (addrOf s (envOf s b t { srcs := [(a, 2), (p, 1), (q, 1)] } h) h .g a)
        (rdWord s (envOf s b t { srcs := [(a, 2), (p, 1), (q, 1)] } h) h q).toNat ev.toNat) rd rfl
    obtain ⟨v, hv, ht, -⟩ := hend ((hchecked _).trans ((if_neg hal).trans ((if_neg (Nat.not_lt.2 hfit)).trans (if_neg h0)))) rfl rfl rfl rfl
    exact ⟨v, hv, ht⟩
end
end

theorem CopyTaken.elim {c t : Nat} {pc : DWord} {k : CopyKind} {g : Option Nat} {s v : State} (h : CopyTaken c t pc k g s v) :
    s.count c t .copies + 1 ≤ v.count c t .copies ∧ ∃ y, (v.ctx c).copies = (s.ctx c).copies ++ [y] ∧ y.tid = t ∧ y.pc = pc ∧ y.kind = k ∧ y.sig = g :=
  ⟨h.count, h.queued⟩

theorem copiesAccepted : CopiesAccepted := by
  intro s b t th h ev tl sl pat a p q sig tr c full room took
  refine ⟨fun rd => ⟨waits_of_full rd rfl rfl, fun hr => ⟨?_, fun ti htl => ?_⟩⟩,
    fun rd => ⟨waits_of_full rd rfl rfl, waits_of_full rd rfl rfl, fun hr => ⟨fun htl => ⟨?_, ?_⟩, fun ti htl => ?_⟩⟩,
    fun rd => ⟨waits_of_full rd rfl rfl, fun hr => ⟨raises_cpTt_none rfl rfl rd hr, fun di si hne hdl hsl => ?_⟩⟩,
    fun rd => ?_, fun e x => signalCheck_spec s h e x⟩
  · exact fun htl => raises_of_raise (va := 0) rd rfl ((withRoom_open hr).trans (by rw [htl]))
  · obtain ⟨h1, h2⟩ := raises_tileFill_operand rfl rfl rd hr htl
    refine ⟨h1, h2, fun hok => ?_⟩
    obtain ⟨h3, h4⟩ := tileFill_issue rfl rfl rd hr htl hok
    refine ⟨h3, fun h5 h6 => ⟨(h4 h5 h6).1, fun g hg => ?_⟩⟩
    obtain ⟨v, hv, ht, hl⟩ := (h4 h5 h6).2 g hg
    exact ⟨v, hv, ht.elim, hl⟩
  · exact raises_of_raise (va := 0) rd rfl ((withRoom_open hr).trans (by rw [htl]))
  · exact raises_of_raise (va := 0) rd rfl ((withRoom_open hr).trans (by rw [htl]))
  · obtain ⟨h1, h2⟩ := cpIn_issue (ev := ev) (pat := pat) rfl rfl rd hr htl
    obtain ⟨h3, h4⟩ := cpOut_issue (ev := ev) (pat := pat) rfl rfl rd hr htl
    refine ⟨h1, fun hs => (h2 hs).1, fun hs h5 h6 => ((h2 hs).2 h5 h6).1, fun hs h5 => ((h4 h5).2 hs).1, fun hs h5 h6 g hg => ?_, h3,
      fun h5 => (h4 h5).1, fun h5 hs g hg => ?_⟩
    · obtain ⟨v, hv, ht, hl⟩ := ((h2 hs).2 h5 h6).2 g hg
      exact ⟨v, hv, ht.elim, hl⟩
    · obtain ⟨v, hv, ht, hl⟩ := ((h4 h5).2 hs).2 g hg
      exact ⟨v, hv, ht.elim, hl⟩
  · intro fits
    obtain ⟨h1, h2⟩ := cpTt_issue (tr := tr) rfl rfl rd hr hne hdl hsl fits Iff.rfl
    refine ⟨h1, fun hs => (h2 hs).1, fun hs hf => ((h2 hs).2 hf).1, fun hs hf h3 h4 => (((h2 hs).2 hf).2 h3 h4).1, fun hs hf h3 h4 g hg => ?_⟩
    obtain ⟨v, hv, ht, hl⟩ := (((h2 hs).2 hf).2 h3 h4).2 g hg
    refine ⟨v, hv, ht.elim, ?_, ?_⟩
    · rw [hl, Map.look_put_ne _ _ fun h => hne (BitVec.eq_of_toNat_eq h), Map.look_put_self]
    · rw [hl, Map.look_put_self]
  · obtain ⟨h1, h2⟩ := wbLd_issue (ev := ev) rfl rfl rd _ _ _ rfl rfl rfl
    refine ⟨h1, fun hr => ⟨(h2 hr).1, fun h3 h4 h5 => ?_⟩⟩
    obtain ⟨h6, h7, h8⟩ := (h2 hr).2 h3 h4 h5
    refine ⟨h6, h7, fun h9 h0 => ?_⟩
    obtain ⟨v, hv, ht⟩ := h8 h9 h0
    exact ⟨v, hv, ht.elim⟩

/-- Settles O35: the two halves are the pattern records and the acceptance of each copy. -/
theorem copies : Obligations.Copies := ⟨patterns, copiesAccepted⟩

end Sys2Proof.Machine
end

section
/-! RULES. What the fetch of a target, the loads that are performed and a write at home leave of the threads. -/
namespace Sys2Proof.Machine

theorem CachesOnly.ite {s a b : State} {p : Prop} [Decidable p] (ha : CachesOnly s a) (hb : CachesOnly s b) : CachesOnly s (if p then a else b) := by
  split
  · exact ha
  · exact hb

/-! ### Fetches (R14, R16) -/

theorem CachesOnly.modDie (s : State) (d : Nat) (f : Die → Die) : CachesOnly s (s.modDie d f) := .of_homeOnly (.modDie ..)
theorem CachesOnly.fillFetch (s : State) (c : Nat) (pc : DWord) : CachesOnly s (fillFetch s c pc) := by
  unfold Machine.fillFetch
  dsimp only
  split
  · exact .refl s
  · rename_i l h _
    have hleaf : CachesOnly s (Machine.noteSecondary (Machine.cacheLeaf s (s.worldOf c) (lineOf pc).toNat) (s.worldOf c) (lineOf pc).toNat h) :=
      (CachesOnly.cacheLeaf ..).trans (.noteSecondary ..)
    refine CachesOnly.trans (hleaf.trans ?_) (.modCore ?_)
    · exact .ite (.refl _) (.fillL2 ..)
    · rfl
theorem CachesOnly.fetchLine (s : State) (c : Nat) (pc : DWord) : CachesOnly s (fetchLine s c pc).1 := by
  unfold Machine.fetchLine
  split
  · split
    · dsimp only
      exact .modCore rfl
    · exact .refl s
  · split
    · exact .refl s
    · exact .fillFetch ..
theorem CachesOnly.checkTarget (s : State) (c : Nat) (pc : DWord) : CachesOnly s (checkTarget s c pc).1 := by
  have h := CachesOnly.fetchLine s c pc
  unfold Machine.checkTarget
  split
  · exact .refl s
  · split <;> rename_i heq <;> rw [heq] at h <;> exact h

/-! ### Loads that are performed (R137) -/

theorem CachesOnly.enterSig (s : State) (c : Nat) (a : Word) (va : Nat) : CachesOnly s (enterSig s c a va) := by
  unfold Machine.enterSig joinSig setSig
  exact .modCore rfl
theorem CachesOnly.allocL1 (s : State) (c w va : Nat) (data : Line) (perm : Perm) (prio left : Nat) :
    CachesOnly s (allocL1 s c w va data perm prio left) := by
  unfold Machine.allocL1
  exact .modCore rfl
theorem CachesOnly.allocConst (s : State) (c w va : Nat) (h : Home) (prio : Nat) : CachesOnly s (allocConst s c w va h prio) := by
  unfold Machine.allocConst
  split
  · exact .refl s
  · exact .modCore rfl
theorem CachesOnly.allocFar (s : State) (c w : Nat) (h : Home) (data : Line) (prio : Nat) : CachesOnly s (allocFar s c w h data prio) := by
  unfold Machine.allocFar
  dsimp only
  refine CachesOnly.trans (CachesOnly.trans (.ite (.refl s) (.modDie ..)) (.of_homeOnly (.makeRoom 64 ..))) (.modDie ..)
theorem CachesOnly.fillHome (s : State) (c w va : Nat) (h : Home) (prio : Nat) (far : Bool) : CachesOnly s (fillHome s c w va h prio far) := by
  unfold Machine.fillHome
  dsimp only
  split
  · exact .fillL2 ..
  · exact ((CachesOnly.fillL2 ..).trans (.ite (.allocFar ..) (.refl _))).trans (.allocL1 ..)
theorem CachesOnly.loadFill (s : State) (c w va : Nat) (h : Home) (prio : Nat) (acq : Bool) : CachesOnly s (loadFill s c w va h prio acq) := by
  unfold Machine.loadFill
  split
  · exact .refl s
  · refine (CachesOnly.dropL1 s c fun l => l.world == w && l.va == va && l.bad).trans ?_
    dsimp only
    split
    · exact .fillL2 ..
    · split
      · exact (CachesOnly.modDie ..).trans (.fillHome ..)
      · split
        · exact (CachesOnly.modDie ..).trans (.ite (.refl _) (.allocL1 ..))
        · exact .fillHome ..

/-- A thread, whatever it waits for. -/
def Thread.awake (th : Thread) : Thread := { th with blk := .run }
/-- Threads may wait for something else, or no longer; they are the same threads with all else as it was. -/
structure WaitsOnly (a b : State) : Prop where
  thr : ∀ c t, (b.thr? c t).map Thread.awake = (a.thr? c t).map Thread.awake
theorem WaitsOnly.refl (a : State) : WaitsOnly a a := ⟨fun _ _ => rfl⟩
theorem WaitsOnly.trans {a b c : State} (h : WaitsOnly a b) (k : WaitsOnly b c) : WaitsOnly a c :=
  ⟨fun x y => (k.thr x y).trans (h.thr x y)⟩
theorem WaitsOnly.foldl {α : Type} {f : State → α → State} (hf : ∀ s a, WaitsOnly s (f s a)) (l : List α) : ∀ s, WaitsOnly s (l.foldl f s) := by
  induction l with
  | nil => exact .refl
  | cons a l ih => exact fun s => (hf s a).trans (ih _)
theorem CachesOnly.waits {a b : State} (h : CachesOnly a b) : WaitsOnly a b := ⟨fun c t => by rw [h.thr?]⟩
theorem WaitsOnly.modCtx {s : State} {c : Nat} {f : Ctx → Ctx} (hf : (f (s.ctx c)).threads = (s.ctx c).threads) : WaitsOnly s (s.modCtx c f) := by
  refine ⟨fun x t => ?_⟩
  rw [State.thr?, State.ctx_modCtx]
  split
  · rename_i hx
    rw [hf, hx]
    rfl
  · rfl
theorem WaitsOnly.thr? {a b : State} (h : WaitsOnly a b) {c t : Nat} {th : Thread} (ha : a.thr? c t = some th) :
    ∃ k, b.thr? c t = some { th with blk := k } := by
  have h := h.thr c t
  rw [ha] at h
  obtain ⟨y, hy, he⟩ := Option.map_eq_some_iff.1 h
  refine ⟨y.blk, hy.trans (congrArg some ?_)⟩
  exact congrArg (fun x : Thread => { x with blk := y.blk }) he
theorem WaitsOnly.observe (s : State) (c t : Nat) (ids : List Nat) : WaitsOnly s (observe s c t ids) := by
  unfold Machine.observe
  split
  · exact .refl s
  · exact .modCtx rfl
theorem WaitsOnly.loadFills (s : State) (c : Nat) (o : Op) : WaitsOnly s (loadFills s c o) := by
  unfold Machine.loadFills
  split
  · exact (CachesOnly.foldl (fun _ _ => (CachesOnly.loadFill ..).trans (.enterSig ..)) _ s).waits
  · exact (CachesOnly.foldl (fun _ _ => .allocConst ..) _ s).waits
  · exact .foldl (fun _ _ => .observe ..) _ s
  · exact .foldl (fun _ _ => .observe ..) _ s
  · exact .refl s
theorem WaitsOnly.capture (s : State) (c : Nat) (o : Op) : WaitsOnly s (capture s c o) := by
  unfold Machine.capture
  split
  · exact .refl s
  · exact (WaitsOnly.loadFills ..).trans (.modCtx rfl)
theorem WaitsOnly.captureRange (s : State) (c t : Nat) (sp : Space) (va n : Nat) : WaitsOnly s (captureRange s c t sp va n) :=
  .foldl (fun _ _ => .capture ..) _ s

/-! ### Writes (R186, R294) -/

theorem CachesOnly.storeL1 (s : State) (c w va : Nat) (d : List Byte) (hs : List Home) : CachesOnly s (storeL1 s c w va d hs) :=
  .foldl (fun _ _ => .modCore rfl) _ s
theorem awake_wakeThread (s : State) (w va c t : Nat) (th : Thread) : (wakeThread s w va c t th).awake = th.awake := by
  unfold wakeThread
  split
  · split <;> rfl
  · rfl
theorem WaitsOnly.homeWrite (s : State) (w die : Nat) (h : Home) (off : Nat) (d : List Byte) (sig : Option (Sig × Bool)) (prio : Nat) :
    WaitsOnly s (homeWrite s w die h off d sig prio) := by
  obtain ⟨v, hv, ho, -⟩ := homeWrite_eq_wake s w die h off d sig prio
  rw [hv]
  refine (CachesOnly.of_homeOnly ho).waits.trans ⟨fun c t => ?_⟩
  rw [thr?_wakeLine, Option.map_map]
  congr 1
  exact funext (awake_wakeThread v w h.va c t)
theorem WaitsOnly.homeWriteN (s : State) (w die va : Nat) (d : List Byte) (hs : List Home) (sig : Option (Sig × Bool)) (prio : Nat) :
    WaitsOnly s (homeWriteN s w die va d hs sig prio) := .foldl (fun _ _ => .homeWrite ..) _ s

end Sys2Proof.Machine
end

section
/-! SETTLED. O13: branches, calls and returns. -/
namespace Sys2Proof.Machine

/-! ### Targets (R16, R31) -/

theorem directTarget_eq (pc : DWord) (imm : Word) :
    directTarget pc imm = lineOf pc + (imm.sshiftRight 3).signExtend 64 * 64 + 12 * BitVec.ofNat 64 (imm.toNat % 8) := by
  have himm : (imm.extractLsb' 0 3).setWidth 64 = BitVec.ofNat 64 (imm.toNat % 8) := by
    apply BitVec.eq_of_toNat_eq
    simp
  rw [directTarget, himm]
theorem checkTarget_misaligned {s : State} {c : Nat} {pc : DWord} (h : isInstrAddr pc = false) :
    checkTarget s c pc = (s, some { code := 0x03, addr := pc }) := by
  rw [checkTarget, h]
  rfl
/-- A line in the fetch buffer answers without a change. -/
theorem checkTarget_buffered {s : State} {c : Nat} {l : FLine} {pc : DWord} (hl : fbuf? s c pc = some l) (hb : l.bad = false)
    (hp : isInstrAddr pc = true) :
    checkTarget s c pc = (s, if (targetMask l.data).getLsbD (slotOf pc) then none else some { code := 0x01, addr := pc }) := by
  have hfetch : fetchLine s c pc = (s, .ok l.data) := by
    rw [fetchLine, hl]
    dsimp only
    rw [hb]
    rfl
  rw [checkTarget, hp, hfetch]
  rfl

/-! ### An instruction that raises in a state it has reached -/

/-- Only the parts that the parking reads need stand. -/
theorem Ready.at {s v : State} {b : Bundle} {t : Nat} {th : Thread} {u : Uses} {h : Hdr} (rd : Ready s b t th .app u h) (hv : CachesOnly s v) :
    Ready v b t th .app {} {} where
  focus := hv.focus.trans rd.focus
  alone := rd.alone
  live := (hv.thr? ..).trans rd.live
  runs := rd.runs
  level := rd.level
  regs := rfl
  guard := by simp [guardOk, rdPred]
  clean := by
    rw [srcMarked, List.any_eq_false]
    intro m _
    cases m <;> simp
  quiet := by
    rw [hv.todo, hv.unitOf]
    exact rd.quiet
theorem raised_after {i : Instr} {s v : State} {b : Bundle} {t : Nat} {th : Thread} {u : Uses} {h : Hdr} {act : Env → DWord → State → Res}
    {x : Raise} (rd : Ready s b t th .app u h) (he : exec i s = .next (perThread .app u h act s)) (hv : CachesOnly s v)
    (ha : act (envOf s b t u h) th.pc s = .fail v x) (hx : x.used = false) (hat : x.at_ = none) :
    ∃ w, exec i s = .next w ∧ Raised v w b.core t x.code x.num := by
  obtain ⟨n, hn⟩ := raises_perThread rd hx he ha (rd.at hv).quiet
  exact ⟨_, hn, raised_parkSub (rd.at hv) n hat⟩

/-! ### Branches (R107) -/

theorem jumpTo_of_ok {s v : State} {e : Env} {pc : DWord} (h : checkTarget s e.c pc = (v, none)) : jumpTo s e pc = .jump v pc := by
  rw [jumpTo, h]
theorem jumpTo_misaligned {s : State} {e : Env} {pc : DWord} (h : isInstrAddr pc = false) : jumpTo s e pc = raise s 0x03 pc := by
  rw [jumpTo, checkTarget_misaligned h]
  rfl

theorem branches : Branches := by
  intro s b t th h a
  refine ⟨?_, ?_, fun l pc hl hb hp => checkTarget_buffered hl hb hp⟩
  · rw [← directTarget_eq]
    exact fun rd => ⟨fun v hv hl => jumps_perThread rd rfl (jumpTo_of_ok hv) hl, fun hp => raises_of_raise rd rfl (jumpTo_misaligned hp)⟩
  · intro u tgt rd
    exact ⟨fun v hv hl => jumps_perThread rd rfl (jumpTo_of_ok hv) hl, fun hp => raises_of_raise rd rfl (jumpTo_misaligned hp)⟩

/-! ### Calls (R108) -/

theorem modThr_congr {s : State} {c t : Nat} {th : Thread} {f g : Thread → Thread} (hl : s.thr? c t = some th) (h : f th = g th) :
    s.modThr c t f = s.modThr c t g := by rw [State.modThr_some hl, State.modThr_some hl, h]

/-- The state in which the oldest address has gone to the spill area. -/
def spilledAt (s2 : State) (c t va : Nat) (x : DWord) (hs : List Home) : State :=
  let w := s2.actWorld c t
  let s3 := storeL1 (captureRange s2 c t .g va 8) c w va (bytesOf 8 x.toNat) hs
  enterSig (homeWriteN s3 w (dieOf c) va (bytesOf 8 x.toNat) hs) c (s3.sigId c t) va

theorem spillCheck_stands {s s2 : State} {e : Env} {va : Nat} {k : Acc} {hs : List Home} (h : spillCheck s e va k = .ok s2 hs) :
    CachesOnly s s2 := by
  unfold spillCheck at h
  dsimp only at h
  repeat' split at h
  all_goals cases h
  exact .foldl (fun _ _ => (CachesOnly.cacheLeaf ..).trans (.noteSecondary ..)) _ s
theorem WaitsOnly.spilledAt (s : State) (c t va : Nat) (x : DWord) (hs : List Home) : WaitsOnly s (spilledAt s c t va x hs) := by
  have h1 := (WaitsOnly.captureRange s c t .g va 8).trans (CachesOnly.storeL1 _ c (s.actWorld c t) va (bytesOf 8 x.toNat) hs).waits
  have h2 := h1.trans (.homeWriteN _ (s.actWorld c t) (dieOf c) va (bytesOf 8 x.toNat) hs none 3)
  exact h2.trans (CachesOnly.enterSig ..).waits

section
variable {s v s2 : State} {e : Env} {th : Thread} {pc tgt : DWord} {hs : List Home} (hv : checkTarget s e.c tgt = (v, none))
  (hl : v.thr? e.c e.t = some th)
include hv hl

theorem pushCall_short (hn : th.stack.length < 4) :
    pushCall s e pc tgt = .jump (v.modThr e.c e.t fun x => { x with stack := th.stack ++ [nextPc pc] }) tgt := by
  rw [pushCall, hv]
  dsimp only
  rw [State.thr_of hl, if_pos hn, modThr_congr hl]
  rfl
theorem pushCall_full (hn : th.stack.length = 4) (hf : th.spLimit = 0 ∨ th.spilled.toNat * 8 + 8 > th.spLimit.toNat) :
    pushCall s e pc tgt = raise v 0x10 := by
  rw [pushCall, hv]
  dsimp only
  rw [State.thr_of hl, if_neg (by omega), if_pos hf]
theorem pushCall_spill (hn : th.stack.length = 4) (h0 : th.spLimit ≠ 0) (hf : th.spilled.toNat * 8 + 8 ≤ th.spLimit.toNat)
    (hsp : spillCheck v e (spillAddr th th.spilled.toNat) .store = .ok s2 hs) :
    pushCall s e pc tgt = .jump ((spilledAt s2 e.c e.t (spillAddr th th.spilled.toNat) (th.stack.headD 0) hs).modThr e.c e.t fun x =>
      { x with stack := th.stack.drop 1 ++ [nextPc pc], spilled := x.spilled + 1 }) tgt := by
  obtain ⟨k, hk⟩ := ((spillCheck_stands hsp).waits.trans (.spilledAt s2 e.c e.t (spillAddr th th.spilled.toNat) (th.stack.headD 0) hs)).thr? hl
  rw [pushCall, hv]
  dsimp only
  rw [State.thr_of hl, if_neg (by omega), if_neg (fun h => h.elim h0 (Nat.not_lt.2 hf)), hsp]
  exact congrArg (Res.jump · tgt) (modThr_congr hk rfl)
end

/-- `call` and `callx`, which differ in their target alone. -/
theorem call_ends {s v : State} {b : Bundle} {t : Nat} {th : Thread} {u : Uses} {h : Hdr} {i : Instr} {act : Env → DWord → State → Res}
    {tgt : DWord} (rd : Ready s b t th .app u h) (he : exec i s = .next (perThread .app u h act s))
    (hact : act (envOf s b t u h) th.pc s = pushCall s (envOf s b t u h) th.pc tgt) (hv : checkTarget s b.core tgt = (v, none))
    (hl : v.thr? b.core t = some th) :
    (th.stack.length < 4 → Jumps i s b t u h tgt (v.modThr b.core t fun x => { x with stack := th.stack ++ [nextPc th.pc] })) ∧
    (th.stack.length = 4 → th.spLimit = 0 ∨ th.spilled.toNat * 8 + 8 > th.spLimit.toNat →
      ∃ w, exec i s = .next w ∧ Raised v w b.core t 0x10 0) ∧
    (th.stack.length = 4 → th.spLimit ≠ 0 → th.spilled.toNat * 8 + 8 ≤ th.spLimit.toNat → ∀ s2 hs,
      spillCheck v (envOf s b t u h) (spillAddr th th.spilled.toNat) .store = .ok s2 hs →
      ((spilledAt s2 b.core t (spillAddr th th.spilled.toNat) (th.stack.headD 0) hs).thr? b.core t).isSome = true →
      Jumps i s b t u h tgt ((spilledAt s2 b.core t (spillAddr th th.spilled.toNat) (th.stack.headD 0) hs).modThr b.core t fun x =>
        { x with stack := th.stack.drop 1 ++ [nextPc th.pc], spilled := x.spilled + 1 })) := by
  refine ⟨fun hn => ?_, fun hn hf => ?_, fun hn h0 hf s2 hs hsp hlive => ?_⟩
  · refine jumps_perThread rd he (hact.trans (pushCall_short (e := envOf s b t u h) hv hl hn)) ?_
    rw [(SameThreads.modThr ..).live, hl]
    rfl
  · have hstands := CachesOnly.checkTarget s b.core tgt
    rw [hv] at hstands
    exact raised_after rd he hstands (hact.trans (pushCall_full (e := envOf s b t u h) hv hl hn hf)) rfl rfl
  · refine jumps_perThread rd he (hact.trans (pushCall_spill (e := envOf s b t u h) hv hl hn h0 hf hsp)) ?_
    exact ((SameThreads.modThr ..).live ..).trans hlive

/-! ### Returns and the spill area (R108, R109) -/

section
variable {s v : State} {b : Bundle} {t : Nat} {th : Thread} {h : Hdr}

theorem ret_pops (rd : Ready s b t th .app {} h) {l : List DWord} {pc : DWord} (hst : th.stack = l ++ [pc])
    (hv : checkTarget s b.core pc = (v, none)) (hl : v.thr? b.core t = some th) :
    Jumps (.ret h) s b t {} h pc (v.modThr b.core t fun x => { x with stack := l }) := by
  have hact : popCall s (envOf s b t {} h) = .jump (v.modThr b.core t fun x => { x with stack := l }) pc := by
    have hlast : (s.thr b.core t).stack.getLast? = some pc := by rw [rd.thr, hst]; simp
    have hdrop : ({ th with stack := th.stack.dropLast } : Thread) = { th with stack := l } := by rw [hst]; simp
    unfold popCall
    simp only [envOf, hlast, hv]
    exact congrArg (Res.jump · pc) (modThr_congr hl hdrop)
  refine jumps_perThread rd rfl hact ?_
  rw [(SameThreads.modThr ..).live, hl]
  rfl

variable (hst : th.stack = [])
include hst

theorem ret_empty (rd : Ready s b t th .app {} h) (h0 : th.spilled = 0) : Raises (.ret h) s b t 0x10 := by
  refine raises_of_raise (va := 0) rd rfl ?_
  unfold popCall
  simp only [envOf, rd.thr, hst, h0]
  rfl
theorem ret_refill_bad (rd : Ready s b t th .app {} h) (h0 : th.spilled ≠ 0) {code : BitVec 6}
    (hc : spillCheck s (envOf s b t {} h) (spillAddr th (th.spilled.toNat - 1)) .load = .bad code) : Raises (.ret h) s b t 0x10 := by
  refine raises_of_act (x := { code := 0x10, detail := code.setWidth 8, addr := BitVec.ofNat 64 (spillAddr th (th.spilled.toNat - 1)) })
    rd rfl ?_ rfl rfl rfl rfl
  unfold popCall
  simp only [envOf, rd.thr, hst, List.getLast?_nil, if_neg h0] at hc ⊢
  rw [hc]
theorem ret_refill (rd : Ready s b t th .app {} h) (h0 : th.spilled ≠ 0) {s2 : State} {hs : List Home}
    (hc : spillCheck s (envOf s b t {} h) (spillAddr th (th.spilled.toNat - 1)) .load = .ok s2 hs)
    (hp : poisoned s2 (s.actWorld b.core t) (spillAddr th (th.spilled.toNat - 1)) 8 hs = false) {pc : DWord}
    (hpc : pc = BitVec.ofNat 64 (natOf (homeBytes s2 (s.actWorld b.core t) (spillAddr th (th.spilled.toNat - 1)) 8 hs)))
    (hv : checkTarget (hs.foldl (fun z x => fillL2 z (s.actWorld b.core t) x 3) s2) b.core pc = (v, none))
    (hlive : (v.thr? b.core t).isSome = true) :
    Jumps (.ret h) s b t {} h pc (v.modThr b.core t fun x => { x with spilled := x.spilled - 1 }) := by
  subst hpc
  refine jumps_perThread rd rfl ?_ (((SameThreads.modThr ..).live ..).trans hlive)
  unfold popCall
  simp only [envOf, rd.thr, hst, List.getLast?_nil, if_neg h0] at hc ⊢
  rw [hc]
  dsimp only
  have hw := (spillCheck_stands hc).actWorld b.core t
  rw [hw, hp, if_neg (by simp), hv]
end

theorem calls : Calls := by
  intro s b t th h a c pushed spill
  refine ⟨?_, ?_, fun rd l pc v hst hv hl => ret_pops rd hst hv hl, fun rd hst h0 => ret_empty hst rd h0, fun rd hst h0 => ?_, fun rd => ?_⟩
  · rw [← directTarget_eq]
    intro tgt rd v hv hl
    obtain ⟨h1, h2, h3⟩ := call_ends (i := .call h) rd rfl rfl hv hl
    refine ⟨h1, h2, fun hn h0 hf v' hsp => ?_⟩
    obtain ⟨s2, hs, hc, hlive, rfl⟩ := hsp
    exact h3 hn h0 hf s2 hs hc hlive
  · intro u tgt rd v hv hl
    obtain ⟨h1, h2, h3⟩ := call_ends (i := .callx h a) rd rfl rfl hv hl
    refine ⟨h1, h2, fun hn h0 hf v' hsp => ?_⟩
    obtain ⟨s2, hs, hc, hlive, rfl⟩ := hsp
    exact h3 hn h0 hf s2 hs hc hlive
  · exact ⟨fun code hc => ret_refill_bad hst rd h0 hc, fun s2 hs v hc hp hv hlive => ret_refill hst rd h0 hc hp rfl hv hlive⟩
  · refine ⟨fun h1 h2 h3 => ?_, fun hal => raises_of_raise (va := 0) rd rfl (if_pos hal), fun h1 h2 h3 => ?_⟩
    · refine ends_perThread rd rfl ((if_neg (fun h => h.elim (· h1) (· h2))).trans (if_neg ?_)) ?_
      · simp [envOf, rd.thr, h3]
      · exact ((SameThreads.modThr ..).live ..).trans (by rw [rd.live]; rfl)
    · refine raises_of_raise (va := 0) rd rfl ((if_neg (fun h => h.elim (· h1) (· h2))).trans (if_pos ?_))
      change (s.thr b.core t).spilled ≠ 0
      rwa [rd.thr]

/-- Settles O13: the two halves are the branches, and the calls with their returns. -/
theorem controlTransfers : Obligations.ControlTransfers := ⟨branches, calls⟩

end Sys2Proof.Machine
end

section
/-! SETTLED. O14: `spawn`, `tail` and `exit`. -/
namespace Sys2Proof.Machine

theorem WaitsOnly.releaseAt (s : State) (c t : Nat) : WaitsOnly s (releaseAt s c t) := .foldl (fun _ _ => .capture ..) _ s

/-! ### `spawn` (R86) -/

section
variable {s : State} {b : Bundle} {t : Nat} {th : Thread} {h : Hdr} {a c d : Src} {q8 : BitVec 5} {u : Uses} {e : Env}
  (hu : u = { srcs := [(a, 2), (c, 1), (d, 1)] }) (he : e = envOf s b t u h) (rd : Ready s b t th .app u h)
include hu he rd

theorem spawn_none (hn : (rdWord s e h c).toNat % 65536 = 0) : Ends (.spawn h q8 a c d) s b t u h s := by
  subst hu he
  exact ends_perThread rd rfl (if_pos hn) (by rw [rd.live]; rfl)
theorem spawn_full (hn : (rdWord s e h c).toNat % 65536 ≠ 0) (hq : (s.core b.core).steal.queue.length ≥ 256) :
    Raises (.spawn h q8 a c d) s b t 0x11 := by
  subst hu he
  exact raises_of_raise (va := 0) rd rfl ((if_neg hn).trans (if_pos hq))
theorem spawn_ends (hn : (rdWord s e h c).toNat % 65536 ≠ 0) (hq : (s.core b.core).steal.queue.length < 256)
    (hr : releaseReady s b.core t .pkg = true) {v : State} (hv : v = irrevocable (releaseAt s b.core t) b.core t) :
    Ends (.spawn h q8 a c d) s b t u h (v.modCore b.core fun k => { k with steal := { k.steal with queue := (v.core b.core).steal.queue ++
      [{ entry := rdPair s e h a, count := (rdWord s e h c).toNat % 65536, arg := rdWord s e h d, quota := 8 * q8.toNat
         world := s.worldOf b.core, sig := carried v b.core (s.sigId b.core t) }] } }) := by
  subst hu he hv
  refine ends_perThread rd rfl ((if_neg hn).trans ((if_neg (Nat.not_le.2 hq)).trans (if_neg ?_))) ?_
  · simp [envOf, hr]
  · obtain ⟨k, hk⟩ := (WaitsOnly.releaseAt s b.core t).thr? rd.live
    rw [(SameThreads.modCore rfl).live, (SameThreads.irrevocable ..).live, hk]
    rfl
end

/-! ### The end of a thread (R87) -/

theorem thr?_retire (s : State) (c t : Nat) : (retire s c t).thr? c t = none := by
  unfold retire
  split
  · assumption
  · dsimp only
    rw [State.thr?, State.ctx_modCtx, if_pos rfl, Map.look_del, if_pos rfl]
theorem thr?_finishThread (s : State) (c t : Nat) : (finishThread s c t).thr? c t = none := by
  rw [finishThread, State.thr?, State.ctx_modCtx, if_pos rfl]
  exact thr?_retire s c t
theorem leaves_of_finish {i : Instr} {s v : State} {b : Bundle} {t : Nat} {th : Thread} {lv : Level} {u : Uses} {h : Hdr}
    {act : Env → DWord → State → Res} (rd : Ready s b t th lv u h) (he : exec i s = .next (perThread lv u h act s))
    (ha : act (envOf s b t u h) th.pc s = .gone (finishThread v b.core t)) : Leaves i s b t (retire v b.core t) := by
  obtain ⟨w, hw, hn, hc⟩ := leaves_perThread rd he ha (thr?_finishThread ..)
  exact ⟨w, hw, hn, hc.trans (calm_moved (f := (· ++ [(t, false)])))⟩

section
variable {s z : State} {b : Bundle} {t : Nat} {th : Thread} {h : Hdr} (rd : Ready s b t th .app {} h) (hz : z = settleLocal s b.core t)
include rd hz

theorem tail_leaves (hl : z.count b.core t .loads = 0) (ht : z.count b.core t .tileops = 0)
    (hs : z.count b.core t .stores + z.count b.core t .copies = 0 ∨ (trackerUsed (z.ctx b.core)).length < 16) :
    Leaves (.tail h) s b t (retire z b.core t) := by
  subst hz
  refine leaves_of_finish rd rfl ((if_neg ?_).trans (if_neg ?_))
  · exact fun h => h.elim (fun h => absurd hl (Nat.ne_of_gt h)) fun h => absurd ht (Nat.ne_of_gt h)
  · exact fun ⟨h1, h2⟩ => hs.elim (Nat.ne_of_gt h1) (Nat.not_lt.2 h2)
theorem tail_waits (hw : z.count b.core t .loads > 0 ∨ z.count b.core t .tileops > 0) (hl : (z.thr? b.core t).isSome = true) :
    Waits (.tail h) s b t {} h (.retry (.counters 0 63 63 0)) z := by
  subst hz
  exact waits_perThread rd rfl (if_pos hw) hl
end

/-! ### `exit` (R90) -/

theorem popFail_none {s : State} {c t : Nat} (hf : (s.thr c t).fails = []) : popFail s c t = none := by
  rw [popFail, hf]

section
variable {s : State} {b : Bundle} {t : Nat} {th : Thread} {h : Hdr} {a : Src} {sc : Scope} {ev : BitVec 3} {u : Uses} {e : Env}
  (hu : u = { srcs := wide true [a] }) (he : e = envOf s b t u h) (rd : Ready s b t th .app u h) (hf : th.fails = [])
include hu he rd hf

theorem exit_misaligned (hva : addrOf s e h .g a % 4 ≠ 0) : Raises (.exit h sc ev a) s b t 0x03 := by
  have hp := popFail_none (rd.thr.symm ▸ hf)
  subst hu he
  refine raises_of_raise (va := ?_) rd rfl ?_
  · exact BitVec.ofNat 64 (addrOf s (envOf s b t { srcs := wide true [a] } h) h .g a)
  · dsimp only [envOf] at hva ⊢
    rw [hp]
    exact if_pos hva
theorem exit_waits (hva : addrOf s e h .g a % 4 = 0) (hc : s.count b.core t .stores > 0 ∨ s.count b.core t .copies > 0) :
    Waits (.exit h sc ev a) s b t u h (.retry (.counters 63 0 0 63)) s := by
  have hp := popFail_none (rd.thr.symm ▸ hf)
  subst hu he
  refine waits_of_act rd rfl ?_
  dsimp only [envOf] at hva ⊢
  rw [hp]
  exact (if_neg (not_not.2 hva)).trans (if_pos hc)
theorem exit_leaves (hva : addrOf s e h .g a % 4 = 0) (h1 : s.count b.core t .stores = 0) (h2 : s.count b.core t .copies = 0)
    (h3 : s.count b.core t .loads = 0) (h4 : s.count b.core t .tileops = 0) (hr : releaseReady s b.core t sc = true)
    {s' v : State} {va : Nat} {hs : List Home} {old : DWord} (hac : accessCheck s e .g (addrOf s e h .g a) 4 4 .atomic = .ok (s', va, hs))
    (hb : (hs.all fun x => !lineBusy (s.ctx b.core) (s.ctx b.core).nextOp (s.actWorld b.core t) x.va) = true)
    (hrm : performRmw (irrevocable s' b.core t) b.core (exitAdd s e th.pc sc ev va hs) = (v, some old)) :
    Leaves (.exit h sc ev a) s b t (retire v b.core t) := by
  have hp := popFail_none (rd.thr.symm ▸ hf)
  have hfind : (hs.find? fun x => lineBusy (s.ctx b.core) (s.ctx b.core).nextOp (s.actWorld b.core t) x.va) = none := by
    rw [List.find?_eq_none]
    intro x hx
    simpa using List.all_eq_true.1 hb x hx
  subst hu he
  refine leaves_of_finish rd rfl ?_
  dsimp only [envOf] at hva hac hrm ⊢
  rw [hp]
  refine (if_neg (not_not.2 hva)).trans ((if_neg (by omega)).trans ((if_neg (by simp [hr])).trans ((if_neg (by omega)).trans ?_)))
  rw [hac]
  dsimp only
  rw [hfind]
  dsimp only
  rw [hrm]
end

/-- Settles O14: an instruction ends here, waits, or leaves its slot, and each clause names the guard that decides which. -/
theorem threadEnds : Obligations.ThreadEnds := by
  intro s b t th h a c d q8 sc ev
  refine ⟨?_, ?_, ?_⟩
  · intro u e n v rec_ rd
    exact ⟨spawn_none rfl rfl rd, spawn_full rfl rfl rd, fun hn hq hr => spawn_ends rfl rfl rd hn hq hr rfl⟩
  · intro z rd
    exact ⟨tail_leaves rd rfl, tail_waits rd rfl⟩
  · intro u e va w rd hf
    refine ⟨exit_misaligned rfl rfl rd hf, exit_waits rfl rfl rd hf, fun hva h1 h2 h3 h4 hr s' hs v old hac hb hrm => ?_⟩
    exact exit_leaves rfl rfl rd hf hva h1 h2 h3 h4 hr hac hb hrm

end Sys2Proof.Machine
end

section
/-! SETTLED. O33: `mwait` and `sleep`, the decision queue, and SAT control. -/
namespace Sys2Proof.Machine

/-! ### What acquires and writes of a register leave of a thread -/

theorem CachesOnly.joinSig (s : State) (c : Nat) (a : Word) (v : Sig) : CachesOnly s (joinSig s c a v) := by
  unfold Machine.joinSig setSig
  exact .modCore rfl
theorem CachesOnly.applySig (s : State) (c : Nat) (a : Word) (sg : Sig) (far : Bool) : CachesOnly s (applySig s c a sg far) := by
  unfold Machine.applySig
  dsimp only
  refine ((CachesOnly.dropL1 s c fun l => hits l.va sg).trans ?_).trans (.foldl (fun _ _ => .joinSig ..) _ _)
  exact .ite (.modDie ..) (.refl _)
theorem CachesOnly.acquireLine (s : State) (c w : Nat) (a : Word) (h : Home) (sc : Scope) : CachesOnly s (acquireLine s c w a h sc) := by
  unfold Machine.acquireLine
  dsimp only
  have hconst : CachesOnly s (if (sc == .th || sc == .grp) = true then s else Machine.dropConst s c) := .ite (.refl s) (.dropConst s c)
  split
  · exact hconst
  · have hdrop := hconst.trans ((CachesOnly.dropL1 _ c fun l => l.world == w && l.va == h.va).trans
      (.modDie _ (dieOf c) fun d => { d with far := d.far.filter fun l => !(l.world == w && l.va == h.va) }))
    refine hdrop.trans (.ite ?_ ?_)
    · exact (CachesOnly.acquireAll ..).trans (.joinSig ..)
    · exact .applySig ..
theorem WaitsOnly.takePosts (s : State) (c t : Nat) (p : PostAt) (sc : Scope) : WaitsOnly s (takePosts s c t p sc) :=
  .foldl (fun _ _ => .observe ..) _ s
theorem WaitsOnly.mwaitAcquire (s : State) (c t va : Nat) (sc : Option Scope) : WaitsOnly s (mwaitAcquire s c t va sc) := by
  cases sc with
  | none => exact .refl s
  | some sc => exact (WaitsOnly.takePosts ..).trans (CachesOnly.acquireLine ..).waits
theorem thr?_wrWord {s : State} {e : Env} {th : Thread} (h : s.thr? e.c e.t = some th) (d : Dst) (v : Word) (k : Nat) :
    ∃ r, (wrWord s e d v k).thr? e.c e.t = some { th with regs := r } := by
  cases d with
  | x n =>
    exact ⟨_, wrX_thr? h (n.toNat + k) v⟩
  | y n =>
    refine ⟨th.regs, ?_⟩
    change (if e.low then wrY s e _ v else s).thr? e.c e.t = _
    split
    · rw [wrY_thr?, h]
    · exact h
  | zero => exact ⟨th.regs, h⟩

/-! ### `mwait` and `sleep` (R112, R176) -/

theorem accessCheck_misaligned {s : State} {e : Env} {off n al : Nat} {k : Acc} (h : off % al ≠ 0) :
    accessCheck s e .g off n al k = .error (raiseAt off 0x03) := if_pos h
theorem CachesOnly.accessCheck {s s' : State} {e : Env} {off n al va : Nat} {k : Acc} {hs : List Home}
    (h : accessCheck s e .g off n al k = .ok (s', va, hs)) : CachesOnly s s' := by
  unfold Machine.accessCheck globalAccess at h
  split at h
  · cases h
  · dsimp only at h
    split at h
    · cases h
    · rename_i p hg
      cases h
      exact .globalCheck hg

theorem SameThreads.wakeMonitor (s : State) (c t : Nat) : SameThreads s (wakeMonitor s c t) := .modThr ..
theorem SameThreads.armMonitor (s : State) (c t va : Nat) : SameThreads s (armMonitor s c t va) := by
  unfold Machine.armMonitor
  dsimp only
  split
  · exact .modThr ..
  · split
    · exact (SameThreads.wakeMonitor ..).trans (.modThr ..)
    · exact .modThr ..

section
variable {s : State} {b : Bundle} {t : Nat} {th : Thread} {h : Hdr} {m : MMod} {d : Dst} {a p q : Src} {u : Uses} {e : Env}
  (hu : u = { srcs := [(a, 2), (p, 1), (q, 1)], dsts := [(d, 1)] }) (he : e = envOf s b t u h) (rd : Ready s b t th .app u h)
include hu he rd

theorem mwait_misaligned (hva : addrOf s e h .g a % 4 ≠ 0) : Raises (.mwait h m d a p q) s b t 0x03 := by
  subst hu he
  refine raises_of_raise (va := BitVec.ofNat 64 (addrOf s (envOf s b t { srcs := [(a, 2), (p, 1), (q, 1)], dsts := [(d, 1)] } h) h .g a))
    rd rfl ?_
  rw [accessCheck_misaligned hva]
  rfl

variable {s' s1 : State} {va : Nat} {hm : Home} {acq : Option Scope} {v : Word}
  (hac : accessCheck s e .g (addrOf s e h .g a) 4 4 .watch = .ok (s', va, [hm])) (hops : (s.ctx b.core).ops = [])
  (hp : poisoned s (s.actWorld b.core t) va 4 [hm] = false) (hacq : acq = if m.ord == .acq then some m.scope else none)
  (hs1 : s1 = enterSig (fillL2 s' (s.actWorld b.core t) hm m.evict.toNat) b.core (s.sigId b.core t) va)
  (hv : v = BitVec.ofNat 32 (natOf (homeBytes (fillL2 s' (s.actWorld b.core t) hm m.evict.toNat) (s.actWorld b.core t) va 4 [hm])))
include hac hops hp hacq hs1 hv

theorem mwait_changed (hne : v ≠ rdWord s e h p) :
    Ends (.mwait h m d a p q) s b t u h (mwaitAcquire (wrWord s1 e d 0) b.core t (hm.va + va % 128) acq) := by
  have hstands : CachesOnly s s1 := hs1 ▸ ((CachesOnly.accessCheck hac).trans (.fillL2 ..)).trans (.enterSig ..)
  have hrd : v ≠ rdWord s1 e h p := hstands.rdWord e h p 0 ▸ hne
  have hl := hstands.thr? b.core t
  rw [rd.live] at hl
  have hlive : ((mwaitAcquire (wrWord s1 e d 0) b.core t (hm.va + va % 128) acq).thr? b.core t).isSome := by
    have hec : e.c = b.core := by rw [he]; rfl
    have het : e.t = t := by rw [he]; rfl
    obtain ⟨r, hr⟩ := thr?_wrWord (s := s1) (e := e) (th := th) (by rw [hec, het]; exact hl) d 0 0
    rw [hec, het] at hr
    obtain ⟨k, hk⟩ := (WaitsOnly.mwaitAcquire (wrWord s1 e d 0) b.core t (hm.va + va % 128) acq).thr? hr
    rw [hk]
    rfl
  have hpn : ¬ poisoned s (s.actWorld b.core t) va 4 [hm] = true := by rw [hp]; decide
  subst hu he hv hs1 hacq
  refine ends_perThread rd rfl ?_ hlive
  rw [hac]
  refine (if_neg ?_).trans ((if_neg hpn).trans (if_pos hrd))
  simp [envOf, hops]
theorem mwait_waits (heq : v = rdWord s e h p) : Waits (.mwait h m d a p q) s b t u h (.mwait acq (e.keep d) (hm.va + va % 128) v
    (if (rdWord s e h q).toNat = 0 then none else some (rdWord s e h q).toNat) false) (armMonitor s1 b.core t (hm.va + va % 128)) := by
  have hstands : CachesOnly s s1 := hs1 ▸ ((CachesOnly.accessCheck hac).trans (.fillL2 ..)).trans (.enterSig ..)
  have hrd : ¬ v ≠ rdWord s1 e h p := not_not.2 (hstands.rdWord e h p 0 ▸ heq)
  have hlive : ((armMonitor s1 b.core t (hm.va + va % 128)).thr? b.core t).isSome := by
    rw [(SameThreads.armMonitor ..).live, hstands.thr?, rd.live]
    rfl
  rw [← hstands.rdWord e h q 0]
  have hpn : ¬ poisoned s (s.actWorld b.core t) va 4 [hm] = true := by rw [hp]; decide
  subst hu he hv hs1 hacq
  refine waits_perThread rd rfl ?_ hlive
  rw [hac]
  refine (if_neg ?_).trans ((if_neg hpn).trans (if_neg hrd))
  simp [envOf, hops]
end

section
variable {s : State} {c t : Nat} {th : Thread} (hl : s.thr? c t = some th)
include hl

/-- The thread goes on. -/
theorem advanceNext_ends : ((advanceNext s c t).thr c t).pc = nextPc th.pc ∧ ((advanceNext s c t).thr c t).blk = .run ∧
    ((advanceNext s c t).thr c t).regs = th.regs := by
  have h : (advanceNext s c t).thr? c t = some (th.movedTo (nextPc th.pc)) := by
    rw [advanceNext, State.thr_of hl, thr?_advance, hl]
    rfl
  rw [State.thr_of h]
  exact ⟨rfl, rfl, rfl⟩

theorem sleepExpiry_spec {n : Nat} (hb : th.blk = .sleep n) :
    (n ≠ 0 → exec (.sleepExpiry c t) s = .next s) ∧ (n = 0 → exec (.sleepExpiry c t) s = .next (advanceNext s c t)) := by
  have he : exec (.sleepExpiry c t) s = execSleepExpiry c t s := rfl
  rw [he]
  unfold execSleepExpiry
  rw [hl]
  dsimp only
  rw [hb]
  refine ⟨fun hn => ?_, fun hn => by rw [hn]; rfl⟩
  split
  · rename_i h0
    exact absurd (Blk.sleep.inj h0) hn
  · rfl
theorem mwaitTimeout_spec {d : Dst} {va left : Nat} {seen : Word} {woken : Bool} (hb : th.blk = .mwait none d va seen (some left) woken) :
    (left ≠ 0 → exec (.mwaitTimeout c t) s = .next s) ∧
    (left = 0 → exec (.mwaitTimeout c t) s = .next (advanceNext (wrWord s { c := c, t := t } d (if woken then 1 else 3)) c t)) := by
  have he : exec (.mwaitTimeout c t) s = .next (mwaitTimeout s c t) := rfl
  rw [he]
  unfold mwaitTimeout
  rw [State.thr_of hl, hb]
  refine ⟨fun hn => ?_, fun hn => ?_⟩
  · split
    · rename_i h0
      cases h0
      exact absurd rfl hn
    · rfl
  · subst hn
    rw [hl]
    unfold endMwait
    rw [State.thr_of hl, hb]
    rfl
end

/-! ### The decision queue (R178) -/

section
variable {s : State} {b : Bundle} {t : Nat} {th : Thread} {h : Hdr} {d : Dst} {a p : Src} {u : Uses} {e : Env}
  (hu : u = { srcs := one [a, p] }) (he : e = envOf s b t u h) (rd : Ready s b t th .app u h)
include hu he rd

theorem dqPush_bad (hn : 128 ≤ (rdWord s e h p).toNat ∨ (64 ≤ (rdWord s e h p).toNat ∧ (rdWord s e h p).toNat ≤ 126)) :
    Raises (.dqPush h a p) s b t 0x01 := by
  subst hu he
  exact raises_of_raise (va := 0) rd rfl (if_pos hn)

variable (hn : (rdWord s e h p).toNat < 64 ∨ (rdWord s e h p).toNat = 127)
include hn
theorem dqPush_full (hq : 64 ≤ (s.ctx b.core).dq.length) : Waits (.dqPush h a p) s b t u h (.retry .dqSpace) s := by
  subst hu he
  exact waits_of_act rd rfl ((if_neg (by omega)).trans (if_pos hq))
theorem dqPush_releasing (hq : (s.ctx b.core).dq.length < 64) (hr : releaseReady s b.core t .core = false) :
    Waits (.dqPush h a p) s b t u h (.retry (.released .core)) s := by
  subst hu he
  exact waits_of_act rd rfl ((if_neg (by omega)).trans ((if_neg (Nat.not_le.2 hq)).trans (if_pos (by simp [envOf, hr]))))
theorem dqPush_ends (hq : (s.ctx b.core).dq.length < 64) (hr : releaseReady s b.core t .core = true) :
    Ends (.dqPush h a p) s b t u h ((captureLoads s b.core t).modCtx b.core fun x =>
      { x with dq := x.dq ++ [(rdWord s e h a, (rdWord s e h p).toNat)], dqSeen := x.dqSeen ++ [x.seenBy t] }) := by
  subst hu he
  refine ends_perThread rd rfl ((if_neg (by omega)).trans ((if_neg (Nat.not_le.2 hq)).trans (if_neg (by simp [envOf, hr])))) ?_
  obtain ⟨k, hk⟩ := (WaitsOnly.releaseAt s b.core t).thr? rd.live
  rw [(SameThreads.modCtx rfl).live]
  exact Option.isSome_iff_exists.2 ⟨_, hk⟩
end

theorem dqTake_empty {s : State} {c : Nat} (hq : (s.ctx c).dq = []) (x : UnitId) (since : Nat) (pc : DWord) : dqTake s c x since pc = none := by
  unfold dqTake
  rw [hq]
  rfl
/-- Where no other bundle is blocked, the oldest entry is taken by a unit that it is for. -/
theorem dqTake_first {s : State} {c n : Nat} {v : Word} {l : List (Word × Nat)} {x : UnitId} (hq : (s.ctx c).dq = (v, n) :: l)
    (hb : ∀ y ∈ (s.ctx c).threads, y.2.blk ≠ .retry .dqEntry) (hx : dqFor x n = true) (since : Nat) (pc : DWord) :
    dqTake s c x since pc = some 0 := by
  have hpop : poppersBefore s c x since pc = [] := by
    unfold poppersBefore
    rw [List.filterMap_eq_nil_iff.2 fun y hy => ?_]
    · rfl
    · have hne := hb y hy
      simp [hne]
  unfold dqTake
  rw [hpop, hq, List.length_cons, List.range_succ_eq_map]
  simp [hx]

theorem modCtx_congr {s : State} {c : Nat} {f g : Ctx → Ctx} (h : f (s.ctx c) = g (s.ctx c)) : s.modCtx c f = s.modCtx c g := by
  unfold State.modCtx State.modCore
  exact congrArg (fun x : Ctx => s.setCore c { s.core c with ctx := x }) h
theorem actWorld_modCtx {s : State} {c : Nat} {f : Ctx → Ctx} (hf : (f (s.ctx c)).threads = (s.ctx c).threads) (t : Nat) :
    (s.modCtx c f).actWorld c t = s.actWorld c t := by
  have hthr : (s.modCtx c f).thr c t = s.thr c t := by
    unfold State.thr State.thr?
    rw [State.ctx_modCtx, if_pos rfl, hf]
  have hworld : (s.modCtx c f).worldOf c = s.worldOf c := by
    unfold State.worldOf State.modCtx
    rw [State.core_modCore_self]
  unfold State.actWorld
  rw [hthr, hworld]
  rfl
theorem actWorld_observe (s : State) (c t : Nat) (ids : List Nat) : (observe s c t ids).actWorld c t = s.actWorld c t := by
  unfold observe
  split
  · rfl
  · exact actWorld_modCtx rfl t
theorem dq_observe (s : State) (c t : Nat) (ids : List Nat) : ((observe s c t ids).ctx c).dq = (s.ctx c).dq := by
  unfold observe
  split
  · rfl
  · rw [State.ctx_modCtx, if_pos rfl]

section
variable {s : State} {b : Bundle} {t : Nat} {th : Thread} {h : Hdr} {d : Dst} {u : Uses} {e : Env}
  (hu : u = { dsts := [(d, 1)] }) (he : e = envOf s b t u h) (rd : Ready s b t th .app u h)
include hu he rd

theorem dqPop_waits (hq : (s.ctx b.core).dq = []) : Waits (.dqPop h d) s b t u h (.retry .dqEntry) s := by
  subst hu he
  refine waits_perBundle rd rfl ?_ (by rw [rd.live]; rfl)
  dsimp only [envOf]
  rw [dqTake_empty hq]
theorem dqPop_ends {v : Word} {n : Nat} {l : List (Word × Nat)} (hq : (s.ctx b.core).dq = (v, n) :: l)
    (hfor : n = 127 ∨ ∃ sl, th.grp = some (n, sl)) (hb : ∀ y ∈ (s.ctx b.core).threads, y.2.blk ≠ .retry .dqEntry) :
    Ends (.dqPop h d) s b t u h (wrWord (acquireAll ((observe s b.core t ((s.ctx b.core).dqSeen.getD 0 [])).modCtx b.core fun x =>
      { x with dq := l, dqSeen := x.dqSeen.eraseIdx 0 }) b.core (s.actWorld b.core t) .core) e d v) := by
  have hx : dqFor (s.unitOf b.core t) n = true := by
    rw [State.unitOf, rd.thr]
    obtain rfl | ⟨sl, hg⟩ := hfor
    · rfl
    · simp [dqFor, Thread.unit, hg]
  have hworld : ((observe s b.core t ((s.ctx b.core).dqSeen.getD 0 [])).modCtx b.core fun x =>
      { x with dq := l, dqSeen := x.dqSeen.eraseIdx 0 }).actWorld b.core t = s.actWorld b.core t :=
    (actWorld_modCtx rfl t).trans (actWorld_observe ..)
  have hwaits : WaitsOnly s (acquireAll ((observe s b.core t ((s.ctx b.core).dqSeen.getD 0 [])).modCtx b.core fun x =>
      { x with dq := l, dqSeen := x.dqSeen.eraseIdx 0 }) b.core (s.actWorld b.core t) .core) :=
    ((WaitsOnly.observe ..).trans (.modCtx rfl)).trans (CachesOnly.acquireAll ..).waits
  have hec : e.c = b.core := by rw [he]; rfl
  have het : e.t = t := by rw [he]; rfl
  obtain ⟨k, hk⟩ := hwaits.thr? rd.live
  obtain ⟨r, hr⟩ := thr?_wrWord (e := e) (by rw [hec, het]; exact hk) d v 0
  rw [hec, het] at hr
  subst hu he
  refine ends_perBundle rd rfl ?_ (by rw [hr]; rfl) (by rw [State.thr_of hr])
  dsimp only [envOf]
  rw [dqTake_first hq hb hx]
  dsimp only [List.foldl]
  have hdq : ((observe s b.core t ((s.ctx b.core).dqSeen.getD 0 [])).modCtx b.core fun x =>
      { x with dq := x.dq.eraseIdx 0, dqSeen := x.dqSeen.eraseIdx 0 }) =
      (observe s b.core t ((s.ctx b.core).dqSeen.getD 0 [])).modCtx b.core fun x => { x with dq := l, dqSeen := x.dqSeen.eraseIdx 0 } :=
    modCtx_congr (by rw [dq_observe, hq]; rfl)
  rw [hdq, hworld, hq]
  rfl
end

/-! ### SAT control (R179) -/

theorem clearSat_pc {s : State} {c t : Nat} {th : Thread} (h : s.thr? c t = some th) :
    ∃ th', (clearSat s c t).thr? c t = some th' ∧ th'.pc = th.pc := by
  unfold clearSat
  split
  · exact ⟨th, by rw [State.thr?_modGroup, h], rfl⟩
  · exact ⟨{ th with sat := false }, by rw [State.thr?_modThr, if_pos ⟨rfl, rfl⟩, h]; rfl, rfl⟩
theorem setArmed_pc {s : State} {c t : Nat} {th : Thread} {k : Bool} (h : s.thr? c t = some th) :
    ∃ th', (setArmed k s c t).thr? c t = some th' ∧ th'.pc = th.pc := by
  unfold setArmed
  split
  · exact ⟨th, by rw [State.thr?_modGroup, h], rfl⟩
  · exact ⟨th, h, rfl⟩

section
variable {s : State} {b : Bundle} {t : Nat} {th : Thread} {h : Hdr} {d : Dst} {u : Uses} {e : Env}
  (hu : u = { dsts := [(d, 1)] }) (he : e = envOf s b t u h) (rd : Ready s b t th .app u h)
include hu he rd

theorem gsat_ends {i : Instr} {f : State → Nat → Nat → State} (hi : exec i s = .next (gsat h d f s)) {v : Word}
    (hv : v = BitVec.ofNat 32 ((satBits s b.core t).1.toNat + 2 * (satBits s b.core t).2.toNat))
    (hf : ∀ s th, s.thr? b.core t = some th → ∃ th', (f s b.core t).thr? b.core t = some th' ∧ th'.pc = th.pc) :
    Ends i s b t u h (f (wrWord s e d v) b.core t) := by
  have hec : e.c = b.core := by rw [he]; rfl
  have het : e.t = t := by rw [he]; rfl
  obtain ⟨r, hr⟩ := thr?_wrWord (s := s) (e := e) (th := th) (by rw [hec, het]; exact rd.live) d v 0
  rw [hec, het] at hr
  obtain ⟨th', hl, hp⟩ := hf _ _ hr
  subst hu he hv
  exact ends_perBundle rd hi rfl (by rw [hl]; rfl) (by rw [State.thr_of hl, hp])
end

/-- Settles O33: each wait ends by the event that meets it, and the queue answers by its length and its first record. -/
theorem waitingAndDecisions : Obligations.WaitingAndDecisions := by
  intro s b t th h m d a p q c
  refine ⟨fun rd => ⟨mwait_misaligned rfl rfl rd, fun s' va hm pa hac _ hops hp => ⟨?_, ?_⟩⟩, fun va seen left woken hl hb => ?_,
    fun n hl hb => ?_, fun rd => ⟨dqPush_bad rfl rfl rd, fun hn => ⟨dqPush_full rfl rfl rd hn, dqPush_releasing rfl rfl rd hn, dqPush_ends rfl rfl rd hn⟩⟩,
    fun rd => ⟨dqPop_waits rfl rfl rd, fun v n l hq _ hfor hb => dqPop_ends rfl rfl rd hq hfor hb, ?_, ?_, ?_⟩⟩
  · exact mwait_changed rfl rfl rd hac hops hp rfl rfl rfl
  · exact mwait_waits rfl rfl rd hac hops hp rfl rfl rfl
  · obtain ⟨h1, h2⟩ := mwaitTimeout_spec hl hb
    refine ⟨h1, fun h0 => ⟨_, h2 h0, ?_⟩⟩
    obtain ⟨r, hr⟩ := thr?_wrWord (e := { c := c, t := t }) hl d (if woken then 1 else 3) 0
    rw [State.thr_of hr]
    exact advanceNext_ends hr
  · obtain ⟨h1, h2⟩ := sleepExpiry_spec hl hb
    exact ⟨h1, fun h0 => ⟨_, h2 h0, advanceNext_ends hl⟩⟩
  · intro g sl gr k hg hgr
    have hgrp : (s.thr c t).grp = some (g, sl) := by rw [rd.thr, hg]
    refine ⟨?_, ?_, ?_⟩
    · unfold satBits
      rw [hgrp]
      dsimp only
      rw [hgr]
    · unfold clearSat
      rw [hgrp]
    · unfold setArmed
      rw [hgrp]
  · intro k hg
    have hgrp : (s.thr c t).grp = none := by rw [rd.thr, hg]
    refine ⟨?_, ?_, ?_⟩
    · unfold satBits
      rw [hgrp, rd.thr]
    · unfold clearSat
      rw [hgrp]
    · unfold setArmed
      rw [hgrp]
  · refine ⟨?_, ?_, ?_, ?_⟩
    · exact gsat_ends (f := fun s _ _ => s) rfl rfl rd rfl rfl fun _ th h => ⟨th, h, rfl⟩
    · exact gsat_ends rfl rfl rd rfl rfl fun _ _ => clearSat_pc
    · exact gsat_ends rfl rfl rd rfl rfl fun _ _ => setArmed_pc
    · exact gsat_ends rfl rfl rd rfl rfl fun _ _ => setArmed_pc

end Sys2Proof.Machine
end

section
/-! SETTLED. O27: the events of the caches, and the record of a retired thread's operation. -/
namespace Sys2Proof.Machine

/-! ### Lines that lapse (R287, R299) -/

theorem l1LineExpiry_spec (s : State) (c w va : Nat) : ∃ v, exec (.l1LineExpiry c w va) s = .next v ∧ v.mem = s.mem ∧ v.ctx c = s.ctx c ∧
    ∀ l, l ∈ (v.core c).l1 ↔ l ∈ (s.core c).l1 ∧ ¬ (l.world = w ∧ l.va = va) := by
  refine ⟨_, rfl, rfl, (CachesOnly.dropL1 ..).ctx c, fun l => ?_⟩
  rw [dropL1, State.core_modCore_self, List.mem_filter]
  simp [imp_iff_not_or]
theorem farLineExpiry_spec (s : State) (d w va : Nat) : ∃ v, exec (.farLineExpiry d w va) s = .next v ∧ v.mem = s.mem ∧
    (v.die d).l2 = (s.die d).l2 ∧ ∀ l, l ∈ (v.die d).far ↔ l ∈ (s.die d).far ∧ ¬ (l.world = w ∧ l.va = va) := by
  refine ⟨_, rfl, rfl, by rw [die_modDie, if_pos rfl], fun l => ?_⟩
  rw [die_modDie, if_pos rfl, List.mem_filter]
  simp [imp_iff_not_or]

/-! ### Signatures (R290) -/

/-- A signature as it rotates: one that had nothing current goes. -/
def rotated (e : Nat × (Sig × Sig)) : Option (Nat × (Sig × Sig)) := if e.2.1 = 0 then none else some (e.1, (0, e.2.1))
theorem look_rotated (i : Nat) : ∀ {m : Map (Sig × Sig)} {lo : Nat}, m.rising lo = true →
    Map.look (m.filterMap rotated) i = (m.look i).bind fun v => if v.1 = 0 then none else some (0, v.1)
  | [], _, _ => rfl
  | (j, v) :: m, lo, hm => by
    have hm' : Map.rising (j + 1) m = true := by
      simp only [Map.rising, Bool.and_eq_true] at hm
      exact hm.2
    have ih := look_rotated i hm'
    by_cases hv : v.1 = 0
    · have hr : rotated (j, v) = none := if_pos hv
      rw [List.filterMap_cons_none hr, ih, Map.look]
      split
      · rename_i hi
        subst hi
        rw [Map.look_of_lt m hm' (Nat.lt_succ_self i), Option.bind_some, if_pos hv]
        rfl
      · rfl
    · have hr : rotated (j, v) = some (j, (0, v.1)) := if_neg hv
      rw [List.filterMap_cons_some hr, Map.look, Map.look]
      split
      · rw [Option.bind_some, if_neg hv]
      · exact ih
theorem signatureRotate_spec {s : State} {c : Nat} (hm : (s.core c).sigs.rising 0 = true) (a : Word) :
    ∃ v, exec (.signatureRotate c) s = .next v ∧ (v.core c).sig a = (0, ((s.core c).sig a).1) ∧ v.ctx c = s.ctx c := by
  refine ⟨s.modCore c fun k => { k with sigs := k.sigs.filterMap rotated }, rfl, ?_, (CachesOnly.modCore rfl).ctx c⟩
  rw [State.core_modCore_self, Core.sig, Core.sig, Map.get, Map.get, look_rotated a.toNat hm]
  cases (s.core c).sigs.look a.toNat with
  | none => rfl
  | some v =>
    rw [Option.bind_some]
    split
    · rename_i h
      exact congrArg (Prod.mk 0) h.symm
    · rfl

/-! ### Fills (R300) -/

/-- The line and the priority of an operation that needs a line. -/
def lineNeed (s : State) (w va : Nat) : Option (Home × Nat) :=
  s.cores.findSome? fun k => k.2.ctx.ops.findSome? fun o =>
    if o.world = w ∧ !o.done then (o.homes.find? fun h => h.va == va).map fun h => (h, o.evict) else none
theorem exec_l2MissFill (s : State) (w va : Nat) : exec (.l2MissFill w va) s =
    .next (match lineNeed s w va with | some (h, p) => fillL2 s w h p | none => s) := by
  change (match lineNeed s w va with | some (h, p) => _ | none => _) = _
  cases lineNeed s w va <;> rfl
theorem lineNeed_some {s : State} {w va p : Nat} {h : Home} (hn : lineNeed s w va = some (h, p)) :
    ∃ k ∈ s.cores, ∃ o ∈ k.2.ctx.ops, h ∈ o.homes ∧ o.world = w ∧ o.done = false ∧ h.va = va ∧ p = o.evict := by
  obtain ⟨k, hk, ho⟩ := List.exists_of_findSome?_eq_some hn
  obtain ⟨o, hmem, hh⟩ := List.exists_of_findSome?_eq_some ho
  split at hh
  · rename_i hw
    obtain ⟨x, hx, he⟩ := Option.map_eq_some_iff.1 hh
    cases he
    refine ⟨k, hk, o, hmem, List.mem_of_find?_eq_some hx, hw.1, by simpa using hw.2, ?_, rfl⟩
    simpa using List.find?_some hx
  · cases hh
theorem lineNeed_isSome {s : State} {w va : Nat} {k : Nat × Core} (hk : k ∈ s.cores) {o : Op} (ho : o ∈ k.2.ctx.ops) (hw : o.world = w)
    (hd : o.done = false) {h : Home} (hh : h ∈ o.homes) (hva : h.va = va) : (lineNeed s w va).isSome = true := by
  refine List.findSome?_isSome_iff.2 ⟨k, hk, List.findSome?_isSome_iff.2 ⟨o, ho, ?_⟩⟩
  rw [if_pos ⟨hw, by simp [hd]⟩, Option.isSome_map, List.find?_isSome]
  exact ⟨h, hh, by simp [hva]⟩
theorem l2MissFill_idle {s : State} {w va : Nat}
    (hn : ∀ k ∈ s.cores, ∀ o ∈ k.2.ctx.ops, o.world = w → ∀ h ∈ o.homes, h.va ≠ va) : exec (.l2MissFill w va) s = .next s := by
  have hnone : lineNeed s w va = none := by
    cases h : lineNeed s w va with
    | none => rfl
    | some x =>
      obtain ⟨k, hk, o, ho, hh, hw, -, hva, -⟩ := lineNeed_some (h := x.1) (p := x.2) h
      exact absurd hva (hn k hk o ho hw x.1 hh)
  rw [exec_l2MissFill, hnone]
theorem l2MissFill_fills {s : State} {w va : Nat} {k : Nat × Core} (hk : k ∈ s.cores) {o : Op} (ho : o ∈ k.2.ctx.ops) (hw : o.world = w)
    (hd : o.done = false) (hh : ∃ h ∈ o.homes, h.va = va) : ∃ k' ∈ s.cores, ∃ o' ∈ k'.2.ctx.ops, ∃ h ∈ o'.homes,
      o'.world = w ∧ o'.done = false ∧ h.va = va ∧ exec (.l2MissFill w va) s = .next (fillL2 s w h o'.evict) := by
  obtain ⟨h, hh, hva⟩ := hh
  obtain ⟨⟨x, p⟩, hx⟩ := Option.isSome_iff_exists.1 (lineNeed_isSome hk ho hw hd hh hva)
  obtain ⟨k', hk', o', ho', hx', hw', hd', hva', rfl⟩ := lineNeed_some hx
  refine ⟨k', hk', o', ho', x, hx', hw', hd', hva', ?_⟩
  rw [exec_l2MissFill, hx]

theorem fillL2_miss {s : State} {w : Nat} {h : Home} {p : Nat} (hl : s.l2? w h.va = none) (hp : h.pa = some p) (prio : Nat) :
    ∃ l, (fillL2 s w h prio).l2? w h.va = some l ∧ l.data = memLine s p ∧ l.pa = p ∧ l.perm = h.perm ∧ l.dirty = false ∧
      l.side = BitVec.allOnes 512 := by
  unfold fillL2
  simp only [hl, hp]
  refine ⟨{ world := w, va := h.va, data := memLine s p, pa := p, who := h.who, perm := h.perm, prio := prio,
            used := (makeRoom 64 s w (s.setOf w h.va) (format (memLine s p)).2).tick,
            poison := memPoison (makeRoom 64 s w (s.setOf w h.va) (format (memLine s p)).2) p }, ?_, rfl, rfl, rfl, rfl, rfl⟩
  rw [State.l2?, (HomeOnly.modDie ..).homeDie, (HomeOnly.makeRoom ..).homeDie, die_modDie, if_pos rfl]
  exact find?_append_of_absent (absent_makeRoom 64 (d := s.homeDie w h.va) hl ..) (by simp)

/-! ### Flushes (R152) -/

/-- The lines of a die that a flush cleans. -/
def flushHit (s : State) (w va n : Nat) (l : L2Line) : Bool := l.dirty && inRange s w va n l
def cleaned (s : State) (w va n : Nat) (l : L2Line) : L2Line := if flushHit s w va n l then { l with dirty := false } else l
/-- One die is flushed: `s0` says which lines are in the range. -/
def flushDie (s0 : State) (w va n : Nat) (s : State) (d : Nat) : State :=
  (((s.die d).l2.filter (flushHit s0 w va n)).foldl writeBack s).modDie d fun x => { x with l2 := x.l2.map (cleaned s0 w va n) }
theorem exec_flushComplete {s : State} {c id va n : Nat} {o : Op} (ho : s.op? c id = some o) (hb : o.body = .flush va n) :
    exec (.flushComplete c id) s =
      .next (if flushReady s c o then finishOp (flushDie s o.world va n (flushDie s o.world va n s 0) 1) c id else s) := by
  have he : exec (.flushComplete c id) s = execFlushComplete c id s := rfl
  rw [he]
  unfold execFlushComplete
  rw [ho]
  dsimp only
  rw [hb]
  dsimp only
  cases flushReady s c o <;> rfl

theorem HomeOnly.flushDie (s0 : State) (w va n : Nat) (s : State) (d : Nat) : HomeOnly s (flushDie s0 w va n s d) :=
  (HomeOnly.foldl HomeOnly.writeBack _ s).trans (.modDie ..)
theorem l2_flushDie (s0 : State) (w va n : Nat) (s : State) (d d' : Nat) :
    ((flushDie s0 w va n s d).die d').l2 = if d' = d then (s.die d).l2.map (cleaned s0 w va n) else (s.die d').l2 := by
  rw [flushDie, die_modDie, die_foldl_writeBack, die_foldl_writeBack]
  split <;> rfl
theorem cleaned_clean {s : State} {w va n : Nat} {l : L2Line} (hw : (cleaned s w va n l).world = w)
    (hr : rangesMeet (cleaned s w va n l).va 128 va n = true) : (cleaned s w va n l).dirty = false := by
  unfold cleaned at hw hr ⊢
  split
  · rfl
  · rename_i hn
    rw [if_neg hn] at hw hr
    have hin : inRange s w va n l = true := by simp [inRange, hw, hr]
    rw [flushHit, hin, Bool.and_true] at hn
    exact Bool.eq_false_of_not_eq_true hn
theorem flush_cleans {s : State} {w va n d : Nat} (hd : d < 2) {l : L2Line}
    (hl : l ∈ ((flushDie s w va n (flushDie s w va n s 0) 1).die d).l2) (hw : l.world = w) (hr : rangesMeet l.va 128 va n = true) :
    l.dirty = false := by
  have hmap : ∃ l', cleaned s w va n l' = l := by
    rw [l2_flushDie] at hl
    split at hl
    · exact (List.mem_map.1 hl).imp fun _ h => h.2
    · rw [l2_flushDie, if_pos (by omega)] at hl
      exact (List.mem_map.1 hl).imp fun _ h => h.2
  obtain ⟨l', rfl⟩ := hmap
  exact cleaned_clean hw hr

theorem mem_writeBack {s : State} {l : L2Line} (hd : l.dirty = true) (hb : backOk s l = true) :
    (writeBack s l).mem = pokeL s.mem l.pa (lineBytes l.data) := by
  rw [writeBack, hd, hb]
  rfl
theorem length_lineBytes (l : Line) : (lineBytes l).length = 128 := by simp [lineBytes, bytesOf]
theorem peekN_pokeL_self (m : List Host.Cell) (a : Nat) (l : List Byte) : peekN (pokeL m a l) a l.length = l := by
  refine List.ext_getElem (by simp [peekN]) fun i h1 h2 => ?_
  simp only [peekN, List.getElem_map, List.getElem_range]
  rw [peek_pokeL, if_pos ⟨by omega, by omega⟩, Nat.add_sub_cancel_left, List.getD_eq_getElem _ _ h2]
/-- A line alone in the caches, dirty and in the range, stands in memory afterwards, and no other byte changes. -/
theorem flush_writes {s : State} {w va n : Nat} {l : L2Line} (h0 : (s.die 0).l2 = [l]) (h1 : (s.die 1).l2 = []) (hw : l.world = w)
    (hd : l.dirty = true) (hr : rangesMeet l.va 128 va n = true) (hb : backOk s l = true) :
    (flushDie s w va n (flushDie s w va n s 0) 1).mem = pokeL s.mem l.pa (lineBytes l.data) := by
  have hhit : flushHit s w va n l = true := by simp [flushHit, inRange, hw, hd, hr]
  have hm0 : (flushDie s w va n s 0).mem = pokeL s.mem l.pa (lineBytes l.data) := by
    rw [← mem_writeBack hd hb, flushDie, h0, List.filter_cons_of_pos hhit]
    rfl
  have hl1 : ((flushDie s w va n s 0).die 1).l2 = [] := by rw [l2_flushDie, if_neg (by decide), h1]
  rw [← hm0, flushDie, hl1]
  rfl

/-! ### Operations of a retired thread (R88, R260) -/

theorem retiredFaultPost_spec {s : State} {c id n : Nat} {o : Op} (code : BitVec 6) (ho : s.op? c id = some o) (hr : o.retired = some n)
    (hd : o.done = false) : ∃ v, exec (.retiredFaultPost c id code) s = .next (finishOp v c id) ∧
      v = report s c o.level (retiredRec o.tid { code := code, pc := o.pc }) := by
  have he : exec (.retiredFaultPost c id code) s = execRetiredFaultPost c id code s := rfl
  refine ⟨_, ?_, rfl⟩
  rw [he]
  unfold execRetiredFaultPost failOp
  rw [ho]
  dsimp only
  rw [hr, hd]
  rfl
theorem report_steward {s : State} {c p : Nat} {q : Part} {r : FRec} (hp : s.partOf c = some p) (hq : s.parts.look p = some q) :
    (report s c .steward r).parts.look p = some { q with recs := q.recs ++ [(r, c, s.worldOf c)] } := by
  change (sendSteward s c r).parts.look p = _
  unfold sendSteward State.modPart
  rw [hp]
  dsimp only
  rw [hq]
  exact Map.look_put_self ..

/-- Settles O27: each event changes the caches of its own core or die alone, and is idle where nothing is due. -/
theorem cacheEvents : Obligations.CacheEvents := by
  intro s c d w va id a code
  refine ⟨l1LineExpiry_spec s c w va, farLineExpiry_spec s d w va, fun hm => signatureRotate_spec hm a, l2MissFill_idle,
    fun k hk o ho hw hd hh => l2MissFill_fills hk ho hw hd hh, fun h p prio hl hp => fillL2_miss hl hp prio, fun o n ho hb hr => ?_,
    fun o n ho _ hb hr => ?_, fun o n ho _ hr hd => ?_⟩
  · rw [exec_flushComplete ho hb, hr]
    rfl
  · refine ⟨flushDie s o.world va n (flushDie s o.world va n s 0) 1, ?_, ?_, fun d' hd' l hl hw hm => flush_cleans hd' hl hw hm,
      fun l h0 h1 hw hd hm hbk => ?_⟩
    · rw [exec_flushComplete ho hb, hr]
      rfl
    · rw [(CachesOnly.of_homeOnly ((HomeOnly.flushDie ..).trans (.flushDie ..))).ctx c]
    · rw [flush_writes h0 h1 hw hd hm hbk]
      refine ⟨?_, fun x hx => ?_⟩
      · have h := peekN_pokeL_self s.mem l.pa (lineBytes l.data)
        rwa [length_lineBytes] at h
      · rw [peek_pokeL, length_lineBytes, if_neg (by omega)]
  · obtain ⟨v, hv, rfl⟩ := retiredFaultPost_spec code ho hr hd
    refine ⟨_, hv, ?_, fun hlv => ?_, fun p q hlv hp hq => ?_⟩
    · rw [ctx_report]
      split <;> rfl
    · rw [ctx_report, if_pos hlv, hlv]
      exact ⟨rfl, rfl⟩
    · rw [ctx_report, hlv]
      exact ⟨rfl, report_steward hp hq⟩

end Sys2Proof.Machine
end

section
/-! SETTLED. O10: float order, signs, classes and integral rounding. What a float instruction of one source writes, said once; the shape of
the three formats; then the value of each operation of R118 to R122. -/
namespace Sys2Proof.Machine

/-! ### What a float instruction of one source writes (R115) -/

theorem ends_flt1 {i : Instr} {s : State} {b : Bundle} {t : Nat} {th : Thread} {h : Hdr} {ty : Ty} {d : Dst} {p : Src} {lat ival v : Nat}
    {f : DWord → Nat → Nat} (rd : Ready s b t th .app (ofWords [p] d) h)
    (hi : exec i s = .next (runAlu ((flt1 h d p ty f).timed lat ival) s))
    (hv : f th.pc (pat s (envOf s b t (ofWords [p] d) h) h ty p) = v) :
    Ends i s b t (ofWords [p] d) h (wrWord s (envOf s b t (ofWords [p] d) h) d (BitVec.ofNat 32 v)) := by
  refine ends_alu hi rd rfl rfl ?_
  subst hv
  exact wrVal_ofNat ..

/-! ### The formats (R54) -/

/-- What the widths of the three formats have in common: every integer of their precision is far below infinity. -/
structure Fmt.Sound (f : Fmt) : Prop where
  bias_pos : 0 < f.bias
  fb_pos   : 0 < f.fb
  one_lt   : f.bias + f.fb + 1 < 2 ^ f.eb
  fb_le    : f.fb ≤ 23
theorem Fmt.sound (ty : Ty) : (Ty.fmt ty).Sound := by cases ty <;> exact ⟨by decide, by decide, by decide, by decide⟩

theorem Fmt.bits_eq {ty : Ty} (hf : ty.isFloat = true) : ty.bits = (Ty.fmt ty).eb + (Ty.fmt ty).fb + 1 := by
  cases ty <;> simp [Ty.isFloat] at hf <;> rfl

/-- A pattern is its sign and its magnitude. -/
theorem Fmt.put_sign_mag {f : Fmt} {x : Nat} (h : x < 2 ^ (f.eb + f.fb + 1)) : f.put (f.sign x) (f.mag x) = x := by
  have hdiv : x / 2 ^ (f.eb + f.fb) < 2 := Nat.div_lt_of_lt_mul (by rwa [Nat.pow_succ] at h)
  have hx := Nat.div_add_mod x (2 ^ (f.eb + f.fb))
  rw [put, sign, mag, Nat.testBit_eq_decide_div_mod_eq]
  interval_cases x / 2 ^ (f.eb + f.fb) <;> simp_all

theorem Fmt.dy_m_lt (f : Fmt) (x : Nat) : (f.dy x).m < 2 * 2 ^ f.fb := by
  have hpos := Nat.two_pow_pos f.fb
  have := Nat.mod_lt (f.mag x) hpos
  unfold dy
  dsimp only
  split
  · dsimp only; omega
  · dsimp only; omega
/-- A normal pattern: significand `a` in the `j`-th binade. -/
theorem Fmt.dy_put_normal {f : Fmt} {a j : Nat} (ha : 2 ^ f.fb ≤ a) (ha' : a < 2 * 2 ^ f.fb) (hm : j * 2 ^ f.fb + a < 2 ^ (f.eb + f.fb)) (s : Bool) :
    f.dy (f.put s (j * 2 ^ f.fb + a)) = ⟨s, a, f.emin - f.fb + j⟩ := by
  have hfields : j * 2 ^ f.fb + a = (a - 2 ^ f.fb) + 2 ^ f.fb * (j + 1) := by rw [Nat.mul_add, Nat.mul_comm]; omega
  have hmod : (j * 2 ^ f.fb + a) % 2 ^ f.fb = a - 2 ^ f.fb := by rw [hfields, Nat.add_mul_mod_self_left, Nat.mod_eq_of_lt (by omega)]
  have hdiv : (j * 2 ^ f.fb + a) / 2 ^ f.fb = j + 1 := by
    rw [hfields, Nat.add_mul_div_left _ _ (Nat.two_pow_pos _), Nat.div_eq_of_lt (by omega), Nat.zero_add]
  unfold dy
  dsimp only
  rw [mag_put f s hm, sign_put f s hm, if_neg (by omega), hmod, hdiv]
  simp only [Dy.mk.injEq, true_and]
  omega

section
variable {f : Fmt} (hf : f.Sound)
include hf

theorem Fmt.le_infM : (f.bias + f.fb) * 2 ^ f.fb ≤ f.infM := by
  have := hf.one_lt
  exact Nat.mul_le_mul_right _ (by omega)
theorem Fmt.two_pow_fb_le : 2 ^ f.fb ≤ f.infM := by
  have := hf.bias_pos
  exact Nat.le_trans (Nat.le_mul_of_pos_left _ (by omega)) (Fmt.le_infM hf)

/-- From the exponent of one unit on, a magnitude has no fraction (R122). -/
theorem Fmt.dy_e_nonneg (x : Nat) : 0 ≤ (f.dy x).e ↔ (f.bias + f.fb) * 2 ^ f.fb ≤ f.mag x := by
  have := hf.bias_pos
  have := hf.fb_pos
  rw [← Nat.le_div_iff_mul_le (Nat.two_pow_pos _)]
  unfold dy
  dsimp only
  split
  · rename_i hlt
    rw [Nat.div_eq_of_lt hlt]
    dsimp only [emin]
    omega
  · dsimp only [emin]
    omega
end

/-! ### Order (R118, R120) -/

/-- The value of a pattern as an integer that orders like it, and the order with −0 below +0, as R118 states them. -/
theorem fOrd_lt_decide (f : Fmt) (x y : Nat) : (fOrd f x < fOrd f y) = (decide (fVal f x < fVal f y ∨
    (fVal f x = fVal f y ∧ f.sign x = true ∧ f.sign y = false)) = true) := by
  rw [decide_eq_true_eq]
  exact propext (fOrd_lt f x y)

/-! ### Rounding to an integral value (R122) -/

/-- A value below 2n halves rounds to at most n. -/
theorem natAbs_roundZ_le (rm : Rm) {x : Dy} {n : Nat} (he : x.e < 0) (hm : x.m < 2 * n) : (roundZ rm x).natAbs ≤ n := by
  have hd : 2 ≤ 2 ^ (-x.e).toNat := Nat.le_self_pow (n := (-x.e).toNat) (by omega) 2
  have hq : x.m * 2 ^ x.e.toNat / 2 ^ (-x.e).toNat < n := by
    rw [show x.e.toNat = 0 by omega, Nat.pow_zero, Nat.mul_one, Nat.div_lt_iff_lt_mul (by omega)]
    exact Nat.lt_of_lt_of_le hm (by rw [Nat.mul_comm]; exact Nat.mul_le_mul_left n hd)
  have habs : (roundZ rm x).natAbs = x.m * 2 ^ x.e.toNat / 2 ^ (-x.e).toNat +
      (if roundUp rm x.s (x.m * 2 ^ x.e.toNat / 2 ^ (-x.e).toNat) (x.m * 2 ^ x.e.toNat % 2 ^ (-x.e).toNat) (2 ^ (-x.e).toNat) then 1 else 0) := by
    unfold roundZ
    cases x.s
    · exact Int.natAbs_natCast _
    · exact (Int.natAbs_neg _).trans (Int.natAbs_natCast _)
  rw [habs]
  split <;> omega
theorem roundZ_zero (rm : Rm) {x : Dy} (h : x.m = 0) : roundZ rm x = 0 := by
  cases rm <;> simp [roundZ, roundUp, h]

theorem ratLog_one {n : Nat} (h : n ≠ 0) : ratLog n 1 = n.log2 := by
  have hle : 2 ^ n.log2 ≤ n := Nat.log2_self_le h
  have h1 : Nat.log2 1 = 0 := by decide
  simp [ratLog, h1, hle]

/-- An integer within the precision of the format is a value of it. -/
theorem roundM_nat {f : Fmt} {n : Nat} (he : f.emin ≤ 0) (h0 : n ≠ 0) (hn : n.log2 ≤ f.fb) :
    roundM f .rne false n 1 0 = (n.log2 - f.emin).toNat * 2 ^ f.fb + n * 2 ^ (f.fb - n.log2) := by
  have hex : max ((n.log2 : Int)) f.emin = n.log2 := by omega
  have hu' : ((n.log2 : Int) - f.fb).toNat = 0 := by omega
  simp [roundM, h0, ratLog_one h0, hex, hu', roundUp, Nat.mod_one]

/-- What `frnd` gives of a pattern that is no NaN. -/
def rounded (f : Fmt) (rm : Rm) (x : Nat) : Nat :=
  if (f.bias + f.fb) * 2 ^ f.fb ≤ f.mag x then x else f.put (f.sign x) (roundM f .rne false (roundZ rm (f.dy x)).natAbs 1 0)

theorem frndV_eq (ty : Ty) (rm : Rm) (x : Nat) : frndV ty rm x = nanElse ty [x] (rounded (Ty.fmt ty) rm x) := by
  refine eq_nanElse (fun m hm => by simp [frndV, hm]) fun hn => ?_
  simp only [frndV, hn, rounded, ge_iff_le, Fmt.dy_e_nonneg (Fmt.sound ty), Bool.or_eq_true, decide_eq_true_eq]
  refine if_congr (or_iff_right_of_imp fun hi => ?_) rfl rfl
  rw [beq_iff_eq.1 hi]
  exact Fmt.le_infM (Fmt.sound ty)

section
variable {f : Fmt} (hf : f.Sound) {x : Nat} (rm : Rm)

/-- Zeros and large values stand. -/
theorem rounded_stands (hx : x < 2 ^ (f.eb + f.fb + 1)) (h : f.isZero x = true ∨ (f.bias + f.fb) * 2 ^ f.fb ≤ f.mag x) : rounded f rm x = x := by
  unfold rounded
  split
  · rfl
  · rename_i hlt
    have hz : f.mag x = 0 := beq_iff_eq.1 (h.resolve_right hlt)
    rw [roundZ_zero rm (by simp [Fmt.dy, hz])]
    exact (congrArg (f.put (f.sign x)) hz.symm).trans (Fmt.put_sign_mag hx)

include hf
/-- A small value takes the integer that the mode gives, exactly, under its own sign. -/
theorem rounded_exact (h : f.mag x < (f.bias + f.fb) * 2 ^ f.fb) : f.sign (rounded f rm x) = f.sign x ∧
    (f.dy (rounded f rm x)).m * 2 ^ ((f.dy (rounded f rm x)).e + 149).toNat = (roundZ rm (f.dy x)).natAbs * 2 ^ 149 := by
  have hlt := hf.one_lt
  have hb := hf.bias_pos
  have hfb := hf.fb_le
  have hle : (roundZ rm (f.dy x)).natAbs ≤ 2 ^ f.fb := by
    have := Fmt.dy_e_nonneg hf x
    exact natAbs_roundZ_le rm (by omega) (f.dy_m_lt x)
  rw [rounded, if_neg (by omega)]
  generalize (roundZ rm (f.dy x)).natAbs = n at hle ⊢
  by_cases h0 : n = 0
  · subst h0
    have hz : (0 : Nat) < 2 ^ (f.eb + f.fb) := Nat.two_pow_pos _
    refine ⟨f.sign_put _ hz, ?_⟩
    simp [roundM, Fmt.dy, f.mag_put _ hz]
  · have hk : n.log2 ≤ f.fb := by
      by_contra hgt
      have := Nat.pow_lt_pow_right (a := 2) (by decide) (not_le.1 hgt)
      have := Nat.log2_self_le h0
      omega
    have hpow : 2 ^ f.fb = 2 ^ n.log2 * 2 ^ (f.fb - n.log2) := by rw [← Nat.pow_add]; congr 1; omega
    have ha : 2 ^ f.fb ≤ n * 2 ^ (f.fb - n.log2) := hpow ▸ Nat.mul_le_mul_right _ (Nat.log2_self_le h0)
    have ha' : n * 2 ^ (f.fb - n.log2) < 2 * 2 ^ f.fb := by
      rw [hpow, ← Nat.mul_assoc, ← Nat.pow_succ']
      exact Nat.mul_lt_mul_of_pos_right Nat.lt_log2_self (Nat.two_pow_pos _)
    have hm : (n.log2 - f.emin).toNat * 2 ^ f.fb + n * 2 ^ (f.fb - n.log2) < 2 ^ (f.eb + f.fb) := by
      have hj : (n.log2 - f.emin).toNat + 2 ≤ 2 ^ f.eb := by simp only [Fmt.emin]; omega
      have := Nat.mul_le_mul_right (2 ^ f.fb) hj
      rw [Nat.add_mul] at this
      rw [Nat.pow_add]
      omega
    rw [roundM_nat (by simp only [Fmt.emin]; omega) h0 hk]
    refine ⟨f.sign_put _ hm, ?_⟩
    rw [Fmt.dy_put_normal ha ha' hm]
    dsimp only
    rw [Nat.mul_assoc, ← Nat.pow_add]
    congr 2
    simp only [Fmt.emin]
    omega
end

/-! ### Classes (R121) -/

theorem fclassV_nan {ty : Ty} {x : Nat} (hf : ty.isFloat = true) (h : (Ty.fmt ty).isNan x = true) :
    fclassV ty x = (if x.testBit ((Ty.fmt ty).fb - 1) then 512 else 256) + 65536 * (if ty = .f32 then x / 65536 % 64 else x % 64) := by
  rw [fclassV, if_pos h, Nat.mul_comm]
  cases ty <;> simp [Ty.isFloat] at hf <;> rfl

theorem fclassV_not_nan {ty : Ty} {x : Nat} (h : (Ty.fmt ty).isNan x = false) : let f := Ty.fmt ty
    ∃ k, k < 8 ∧ fclassV ty x = 2 ^ k ∧ (k < 4 ↔ f.sign x = true) ∧
      ((k = 0 ∨ k = 7) ↔ f.isInf x = true) ∧ ((k = 3 ∨ k = 4) ↔ f.isZero x = true) ∧ ((k = 2 ∨ k = 5) ↔ f.isSub x = true) := by
  intro f
  have hinf : 2 ^ f.fb ≤ f.infM := Fmt.two_pow_fb_le (Fmt.sound ty)
  have hpos := Nat.two_pow_pos f.fb
  have hzs : f.isZero x = true → f.isSub x = false := by simp +contextual [Fmt.isZero, Fmt.isSub]
  have hzi : f.isZero x = true → f.isInf x = false := by simp +contextual [Fmt.isZero, Fmt.isInf]; omega
  have hsi : f.isSub x = true → f.isInf x = false := by simp [Fmt.isSub, Fmt.isInf]; omega
  have hv : fclassV ty x = 2 ^ (let k := if f.isZero x then 1 else if f.isSub x then 2 else if f.isInf x then 4 else 3
      if f.sign x then 4 - k else 3 + k) := by
    rw [fclassV, if_neg (by simp [h])]
    exact (apply_ite (2 ^ ·) ..).symm
  rw [hv]
  refine ⟨_, ?_, rfl, ?_⟩
  · dsimp only
    split_ifs <;> decide
  · cases hz : f.isZero x with
    | true => cases f.sign x <;> simp [hzs hz, hzi hz]
    | false =>
      cases hs : f.isSub x with
      | true => cases f.sign x <;> simp [hsi hs]
      | false => cases f.isInf x <;> cases f.sign x <;> simp

/-! ### The operations -/

theorem ends_fcmp {s : State} {b : Bundle} {t : Nat} {th : Thread} {h : Hdr} {ty : Ty} {c : FCond} {kd : Pred} {p q : Src} {v : Bool}
    (rd : Ready s b t th .app { srcs := one [p, q], kds := [kd] } h)
    (hv : let e := envOf s b t { srcs := one [p, q], kds := [kd] } h
      fcmpV ty c (pat s e h ty p) (pat s e h ty q) = v) :
    Ends (.fcmp h ty c kd p q) s b t { srcs := one [p, q], kds := [kd] } h
      (wrPred s (envOf s b t { srcs := one [p, q], kds := [kd] } h) kd v) :=
  ends_alu rfl rd rfl rfl (congrArg (wrPred s _ kd) hv)

/-- Settles O10: each instruction writes what its operation's equation says. -/
theorem floatOrder : Obligations.FloatOrder := by
  intro s b t th h ty rm d p q kd hf f out val below
  have hx : ∀ e r, pat s e h ty r < 2 ^ (f.eb + f.fb + 1) := fun e r => Fmt.bits_eq hf ▸ Nat.mod_lt _ (Nat.two_pow_pos _)
  refine ⟨fun rd => ⟨?_, ?_, ⟨_, ends_flt1 rd rfl rfl, fun hn => fclassV_nan hf hn, fun hn => fclassV_not_nan hn⟩,
      ⟨_, ends_flt1 rd rfl (frndV_eq ..), rounded_stands rm (hx ..), rounded_exact (Fmt.sound ty) rm⟩⟩, fun rd => ⟨?_, ?_, ?_⟩, fun rd => ?_⟩
  · exact ends_flt1 rd rfl rfl
  · exact ends_flt1 rd rfl rfl
  · exact ends_flt2 rd rfl ((fminV_eq ..).trans (by simp only [fOrd_lt_decide]; rfl))
  · exact ends_flt2 rd rfl ((fmaxV_eq ..).trans (by simp only [fOrd_lt_decide]; rfl))
  · exact ends_flt2 rd rfl rfl
  · exact ⟨ends_fcmp rd rfl, ends_fcmp rd (by simp [fcmpV]; rfl), ends_fcmp rd rfl, ends_fcmp rd rfl, ends_fcmp rd rfl, ends_fcmp rd rfl,
      ends_fcmp rd rfl, ends_fcmp rd rfl⟩

end Sys2Proof.Machine
end

section
/-! SETTLED. O12: the function class. A function gives the first NaN, or what its case of R129 and R130 says of its input: a value, or the
cause of an event NaN. From that case everything stated follows: the table at zeros and infinities, the domains, the bounds. -/
namespace Sys2Proof.Machine

/-! ### The steps of R129 -/

/-- The input in f32, after the flush of the fast grade. -/
def fnIn (ty : Ty) (acc : Bool) (x : Nat) : Nat :=
  let g := Ty.fmt ty
  let x1 := if !acc && g.isSub x then g.put (g.sign x) 0 else x
  if ty = .f32 then x1 else (fcvtV .f32 ty .rne false x1).1
/-- A subnormal result of the fast grade is a zero. -/
def fnFlush (g : Fmt) (acc : Bool) (w : Nat) : Nat := if !acc && g.isSub w then g.put (g.sign w) 0 else w
/-- A result of f32 in the type of the instruction. -/
def fnOut (fn : Fn) (ty : Ty) (acc : Bool) (rm : Rm) (r : Nat) : Nat :=
  let g := Ty.fmt ty
  let f := Ty.fmt .f32
  fnFlush g acc (if ty = .f32 then r
    else if f.isInf r then g.put (f.sign r) g.infM
    else roundF g (if acc && (fn = .rcp || fn = .sqrt) then rm else .rne) (f.sign r) (f.dy r).m 1 (f.dy r).e)
/-- What the steps after the NaN give of an input in f32: a result, or the cause of an event NaN. -/
def fnCase (fn : Fn) (ty : Ty) (acc : Bool) (rm : Rm) (v : Nat) : Except Nat Nat :=
  let f := Ty.fmt .f32
  match fnSpecial fn v with
  | some r => .ok (fnOut fn ty acc rm r)
  | none => match fnInvalid fn v with
    | some c => .error c
    | none =>
      if !acc && !fnReduced fn v then .error 8
      else if acc && fn = .rcp then .ok (roundF (Ty.fmt ty) rm (f.sign v) 1 (f.dy v).m (-(f.dy v).e))
      else if acc && fn = .sqrt then .ok (roundF (Ty.fmt ty) rm false (sqrtDy (f.dy v).m (f.dy v).e).1 1 (sqrtDy (f.dy v).m (f.dy v).e).2)
      else .ok (fnOut fn ty acc rm (fnBounded fn acc v))
/-- A case as a pattern: the event NaN of a cause carries the address (R58). -/
def fnPattern (ty : Ty) (pc : DWord) : Except Nat Nat → Nat
  | .ok r => r
  | .error c => eventNan ty c pc

theorem fnV_eq (fn : Fn) (ty : Ty) (acc : Bool) (rm : Rm) (pc : DWord) (x : Nat) :
    fnV fn ty acc rm pc x = nanElse ty [x] (fnPattern ty pc (fnCase fn ty acc rm (fnIn ty acc x))) := by
  refine eq_nanElse (fun m hm => by simp [fnV, hm]) fun hn => ?_
  unfold fnV fnCase
  dsimp only
  rw [hn]
  change (match fnSpecial fn (fnIn ty acc x) with
    | some r => fnOut fn ty acc rm r
    | none => match fnInvalid fn (fnIn ty acc x) with
      | some c => eventNan ty c pc
      | none => _) = _
  cases fnSpecial fn (fnIn ty acc x) with
  | some r => rfl
  | none =>
    cases fnInvalid fn (fnIn ty acc x) with
    | some c => rfl
    | none =>
      simp only [apply_ite (fnPattern ty pc)]
      rfl

section
variable {fn : Fn} {ty : Ty} {acc : Bool} {rm : Rm} {pc : DWord} {v c r : Nat}

theorem fnCase_special (h : fnSpecial fn v = some r) : fnCase fn ty acc rm v = .ok (fnOut fn ty acc rm r) := by rw [fnCase, h]
theorem fnCase_invalid (h : fnSpecial fn v = none) (hi : fnInvalid fn v = some c) : fnCase fn ty acc rm v = .error c := by rw [fnCase, h, hi]
theorem fnCase_unreduced (h : fnSpecial fn v = none) (hi : fnInvalid fn v = none) (hr : fnReduced fn v = false) :
    fnCase fn ty false rm v = .error 8 := by rw [fnCase, h, hi]; simp [hr]
theorem fnCase_rcp (h : fnSpecial .rcp v = none) : fnCase .rcp ty true rm v =
    .ok (roundF (Ty.fmt ty) rm ((Ty.fmt .f32).sign v) 1 ((Ty.fmt .f32).dy v).m (-((Ty.fmt .f32).dy v).e)) := by rw [fnCase, h]; rfl
theorem fnCase_sqrt (h : fnSpecial .sqrt v = none) (hi : fnInvalid .sqrt v = none) : fnCase .sqrt ty true rm v =
    .ok (roundF (Ty.fmt ty) rm false (sqrtDy ((Ty.fmt .f32).dy v).m ((Ty.fmt .f32).dy v).e).1 1
      (sqrtDy ((Ty.fmt .f32).dy v).m ((Ty.fmt .f32).dy v).e).2) := by rw [fnCase, h, hi]; rfl
theorem fnCase_bounded (h : fnSpecial fn v = none) (hi : fnInvalid fn v = none) (hr : acc = true ∨ fnReduced fn v = true)
    (h1 : fn ≠ .rcp ∨ acc = false) (h2 : fn ≠ .sqrt ∨ acc = false) :
    fnCase fn ty acc rm v = .ok (fnOut fn ty acc rm (fnBounded fn acc v)) := by
  rw [fnCase, h, hi]
  cases acc <;> simp_all

theorem fnInvalid_le (h : fnInvalid fn v = some c) : c ≤ 8 := by
  cases fn <;> simp [fnInvalid] at h <;> omega
/-- The fast grade gives one of the causes of R130, or a flushed result. -/
theorem fnCase_fast (fn : Fn) (ty : Ty) (rm : Rm) (v : Nat) :
    (∃ c ≤ 8, fnCase fn ty false rm v = .error c) ∨ ∃ w, fnCase fn ty false rm v = .ok (fnFlush (Ty.fmt ty) false w) := by
  cases hs : fnSpecial fn v with
  | some r => exact .inr ⟨_, fnCase_special hs⟩
  | none =>
    cases hi : fnInvalid fn v with
    | some c => exact .inl ⟨c, fnInvalid_le hi, fnCase_invalid hs hi⟩
    | none =>
      cases hr : fnReduced fn v with
      | false => exact .inl ⟨8, by decide, fnCase_unreduced hs hi hr⟩
      | true => exact .inr ⟨_, fnCase_bounded hs hi (.inr hr) (.inr rfl) (.inr rfl)⟩
end

/-! ### No subnormal in the fast grade (R55, R129) -/

theorem isSub_fnFlush (f : Fmt) (w : Nat) : f.isSub (fnFlush f false w) = false := by
  cases h : f.isSub w with
  | false => simp [fnFlush, h]
  | true =>
    rw [fnFlush, h]
    simp [Fmt.isSub, f.mag_put _ (Nat.two_pow_pos _)]
/-- A result that is no zero was not flushed. -/
theorem eq_of_eq_fnFlush {f : Fmt} {acc : Bool} {v w : Nat} (hv : v = fnFlush f acc w) (h0 : v ≠ f.put false 0) (h0' : v ≠ f.put true 0) :
    v = w := by
  unfold fnFlush at hv
  split at hv
  · cases hs : f.sign w <;> rw [hs] at hv
    · exact absurd hv h0
    · exact absurd hv h0'
  · exact hv
theorem isSub_of_normal {f : Fmt} {x : Nat} (h : 2 ^ f.fb ≤ f.mag x) : f.isSub x = false := by
  simp only [Fmt.isSub, Bool.and_eq_false_iff, decide_eq_false_iff_not]
  exact .inr (not_lt.2 h)
theorem isSub_quieted {ty : Ty} {x n : Nat} (h : firstNan (Ty.fmt ty) [x] = some n) : (Ty.fmt ty).isSub n = false := by
  obtain ⟨v, hv, rfl⟩ := Option.map_eq_some_iff.1 h
  have hv' : (Ty.fmt ty).isNan v = true := List.find?_some hv
  have hnan : (Ty.fmt ty).infM < (Ty.fmt ty).mag v := of_decide_eq_true hv'
  have hle : (Ty.fmt ty).mag v ≤ (Ty.fmt ty).mag (v ||| (Ty.fmt ty).quiet) := by
    rw [Fmt.mag, Fmt.mag, Nat.or_mod_two_pow]
    exact Nat.left_le_or
  have := Fmt.two_pow_fb_le (Fmt.sound ty)
  exact isSub_of_normal (by omega)
theorem isSub_eventNan {ty : Ty} (hf : ty.isFloat = true) {c : Nat} (hc : c ≤ 8) (pc : DWord) : (Ty.fmt ty).isSub (eventNan ty c pc) = false := by
  refine isSub_of_normal ?_
  cases ty <;> simp [Ty.isFloat] at hf <;> simp [Fmt.mag, Ty.fmt, eventNan] <;> omega

/-! ### f32 -/

section
variable {fn : Fn} {acc : Bool} {rm : Rm} {pc : DWord} {x r : Nat}

theorem fnV_f32 (hn : (Ty.fmt .f32).isNan x = false) (hs : acc = true ∨ (Ty.fmt .f32).isSub x = false) :
    fnV fn .f32 acc rm pc x = fnPattern .f32 pc (fnCase fn .f32 acc rm x) := by
  have hin : fnIn .f32 acc x = x := by rcases hs with rfl | hs <;> simp [fnIn, *]
  rw [fnV_eq, nanElse_of_none (firstNan_eq_none.2 (by simpa using hn)), hin]
theorem fnOut_f32 (h : acc = true ∨ (Ty.fmt .f32).isSub r = false) : fnOut fn .f32 acc rm r = r := by
  rcases h with rfl | h <;> simp [fnOut, fnFlush, *]

/-- The results of R130 at +0, −0, +inf and −inf: a value, or the cause of an event NaN. -/
def fnTable : Fn → Except Nat Nat × Except Nat Nat × Except Nat Nat × Except Nat Nat :=
  let f := Ty.fmt .f32
  let inf := f.infM
  let one' := 0x3F800000
  fun
  | .exp2 => (.ok one', .ok one', .ok inf, .ok 0)
  | .log2 => (.ok (f.put true inf), .ok (f.put true inf), .ok inf, .error 6)
  | .rcp => (.ok inf, .ok (f.put true inf), .ok 0, .ok (f.put true 0))
  | .rsqrt => (.ok inf, .ok (f.put true inf), .ok 0, .error 5)
  | .sqrt => (.ok 0, .ok (f.put true 0), .ok inf, .error 5)
  | .sin => (.ok 0, .ok (f.put true 0), .error 7, .error 7)
  | .cos => (.ok one', .ok one', .error 7, .error 7)
  | .tanh | .erf => (.ok 0, .ok (f.put true 0), .ok one', .ok (f.put true one'))
  | .sigm => (.ok 0x3F000000, .ok 0x3F000000, .ok one', .ok 0)

/-- What R130 says of an input that is special or invalid. -/
def fnFixed (fn : Fn) (x : Nat) : Except Nat Nat :=
  match fnSpecial fn x with
  | some r => .ok r
  | none => .error ((fnInvalid fn x).getD 8)

/-- Zeros and infinities are special or invalid for every function, and no result there is subnormal. -/
theorem fnSpecial_or_invalid (fn : Fn) : ∀ x ∈ [0, 0x80000000, 0x7F800000, 0xFF800000],
    (Ty.fmt .f32).isNan x = false ∧ (Ty.fmt .f32).isSub x = false ∧ (fnSpecial fn x = none → (fnInvalid fn x).isSome = true) ∧
      ∀ r ∈ fnSpecial fn x, (Ty.fmt .f32).isSub r = false := by
  cases fn <;> decide

theorem fnV_fixed (hx : x ∈ [0, 0x80000000, 0x7F800000, 0xFF800000]) : fnV fn .f32 acc rm pc x = fnPattern .f32 pc (fnFixed fn x) := by
  obtain ⟨hn, hs, hi, hr⟩ := fnSpecial_or_invalid fn x hx
  rw [fnV_f32 hn (.inr hs), fnFixed]
  cases h : fnSpecial fn x with
  | some r => rw [fnCase_special h, fnOut_f32 (.inr (hr r h))]
  | none =>
    obtain ⟨c, hc⟩ := Option.isSome_iff_exists.1 (hi h)
    rw [fnCase_invalid h hc, hc]
    rfl

theorem fnTable_eq (fn : Fn) : fnTable fn = (fnFixed fn 0, fnFixed fn 0x80000000, fnFixed fn 0x7F800000, fnFixed fn 0xFF800000) := by
  cases fn <;> rfl
end

/-! ### The instructions (R129) -/

theorem fnTime_eq (acc : Bool) (m n : Nat) (a : Alu) : fnTime acc m n a = a.timed (if acc then n else m) (if acc then 4 else 1) := by
  cases acc <;> rfl

/-- Each function completes with its value. -/
theorem ends_fn {i : Instr} {s : State} {b : Bundle} {t : Nat} {th : Thread} {h : Hdr} {ty : Ty} {acc : Bool} {rm : Rm} {d : Dst} {p : Src}
    {m n : Nat} {fn : Fn} (rd : Ready s b t th .app (ofWords [p] d) h)
    (hi : exec i s = .next (runAlu (fnTime acc m n (flt1 h d p ty (fnV fn ty acc rm))) s)) :
    Ends i s b t (ofWords [p] d) h (wrWord s (envOf s b t (ofWords [p] d) h) d
      (BitVec.ofNat 32 (fnV fn ty acc rm th.pc (pat s (envOf s b t (ofWords [p] d) h) h ty p)))) :=
  ends_flt1 rd (fnTime_eq .. ▸ hi) rfl

theorem functionEnds : FunctionEnds := fun _ _ _ _ _ _ _ _ _ _ rd =>
  ⟨ends_fn rd rfl, ends_fn rd rfl, ends_fn rd rfl, ends_fn rd rfl, ends_fn rd rfl, ends_fn rd rfl, ends_fn rd rfl, ends_fn rd rfl, ends_fn rd rfl,
    ends_fn rd rfl⟩

/-! ### The table of R130 -/

/-- A row of the table. -/
theorem function_row {i : Instr} {s : State} {b : Bundle} {t : Nat} {u : Uses} {e : Env} {h : Hdr} {ty : Ty} {acc : Bool} {rm : Rm} {d : Dst}
    {fn : Fn} {pc : DWord} {x : Nat} (hE : Ends i s b t u h (wrWord s e d (BitVec.ofNat 32 (fnV fn ty acc rm pc x)))) :
    ∃ v, Ends i s b t u h (wrWord s e d (BitVec.ofNat 32 v)) ∧ (∀ n, firstNan (Ty.fmt ty) [x] = some n → v = n) ∧
      (ty = .f32 → (x = 0 → v = fnPattern .f32 pc (fnTable fn).1) ∧ (x = (Ty.fmt .f32).put true 0 → v = fnPattern .f32 pc (fnTable fn).2.1) ∧
        (x = (Ty.fmt .f32).infM → v = fnPattern .f32 pc (fnTable fn).2.2.1) ∧
        (x = (Ty.fmt .f32).put true (Ty.fmt .f32).infM → v = fnPattern .f32 pc (fnTable fn).2.2.2)) := by
  refine ⟨_, hE, fun n hn => by rw [fnV_eq, nanElse, hn]; rfl, ?_⟩
  rintro rfl
  rw [fnTable_eq]
  refine ⟨?_, ?_, ?_, ?_⟩
  · rintro rfl; exact fnV_fixed (by decide)
  · rintro rfl; exact fnV_fixed (by decide)
  · rintro rfl; exact fnV_fixed (by decide)
  · rintro rfl; exact fnV_fixed (by decide)

/-- Each instruction of the class follows its row. -/
theorem functionValues : FunctionValues := by
  intro s b t th h ty acc rm d p u e f x inf neg one' bad rows rd r hr
  obtain ⟨hexp2, hlog2, hrcp, hrsqrt, hsqrt, hsin, hcos, htanh, hsigm, herf⟩ := functionEnds s b t th h ty acc rm d p rd
  simp only [rows, List.mem_cons, List.not_mem_nil, or_false] at hr
  rcases hr with rfl | rfl | rfl | rfl | rfl | rfl | rfl | rfl | rfl | rfl
  · exact function_row hexp2
  · exact function_row hlog2
  · exact function_row hrcp
  · exact function_row hrsqrt
  · exact function_row hsqrt
  · exact function_row hsin
  · exact function_row hcos
  · exact function_row htanh
  · exact function_row hsigm
  · exact function_row herf

/-! ### Domains and exact cases (R130) -/

section
variable {fn : Fn} {acc : Bool} {rm : Rm} {pc : DWord} {x c : Nat}

/-- A finite input that is neither a zero nor the 1 of `flog2` is no special one. -/
theorem fnSpecial_finite (hi : (Ty.fmt .f32).isInf x = false) (hz : (Ty.fmt .f32).isZero x = false) (h1 : fn ≠ .log2 ∨ x ≠ 0x3F800000) :
    fnSpecial fn x = none := by
  have h1' : ¬ (fn = .log2 ∧ x = 0x3F800000) := by tauto
  simp only [fnSpecial, hz, hi, Bool.false_eq_true, if_false, if_neg h1']

theorem fnV_invalid (hn : (Ty.fmt .f32).isNan x = false) (hs : acc = true ∨ (Ty.fmt .f32).isSub x = false) (h : fnSpecial fn x = none)
    (hi : fnInvalid fn x = some c) : fnV fn .f32 acc rm pc x = eventNan .f32 c pc := by
  rw [fnV_f32 hn hs, fnCase_invalid h hi]
  rfl
theorem fnV_unreduced (hn : (Ty.fmt .f32).isNan x = false) (hs : (Ty.fmt .f32).isSub x = false) (h : fnSpecial fn x = none)
    (hi : fnInvalid fn x = none) (hr : fnReduced fn x = false) : fnV fn .f32 false rm pc x = eventNan .f32 8 pc := by
  rw [fnV_f32 hn (.inr hs), fnCase_unreduced h hi hr]
  rfl
end

section
variable (acc : Bool) (rm : Rm) (pc : DWord)

/-- log2 1 is special, 2^3 an exact case, and the accurate root and reciprocal of 4 are correctly rounded. -/
theorem fnV_log2_one : fnV .log2 .f32 acc rm pc 0x3F800000 = 0 := by
  rw [fnV_f32 (by decide) (.inr (by decide)), fnCase_special (r := 0) (by decide), fnOut_f32 (.inr (by decide))]
  rfl
theorem fnV_exp2_three : fnV .exp2 .f32 acc rm pc 0x40400000 = 0x41000000 := by
  have he : fnExactCase .exp2 ((Ty.fmt .f32).dy 0x40400000) = some 0x41000000 := by decide +kernel
  have hb : fnBounded .exp2 acc 0x40400000 = 0x41000000 := by rw [fnBounded, he]
  rw [fnV_f32 (by decide) (.inr (by decide)), fnCase_bounded (by decide) rfl (.inr (by decide)) (.inl (by decide)) (.inl (by decide)), hb,
    fnOut_f32 (.inr (by decide))]
  rfl
theorem fnV_sqrt_four : fnV .sqrt .f32 true .rne pc 0x40800000 = 0x40000000 := by
  have hv : roundF (Ty.fmt .f32) .rne false (sqrtDy ((Ty.fmt .f32).dy 0x40800000).m ((Ty.fmt .f32).dy 0x40800000).e).1 1
      (sqrtDy ((Ty.fmt .f32).dy 0x40800000).m ((Ty.fmt .f32).dy 0x40800000).e).2 = 0x40000000 := by decide +kernel
  rw [fnV_f32 (by decide) (.inl rfl), fnCase_sqrt (by decide) (by decide), hv]
  rfl
theorem fnV_rcp_four : fnV .rcp .f32 true .rne pc 0x40800000 = 0x3E800000 := by
  have hv : roundF (Ty.fmt .f32) .rne ((Ty.fmt .f32).sign 0x40800000) 1 ((Ty.fmt .f32).dy 0x40800000).m (-((Ty.fmt .f32).dy 0x40800000).e) =
      0x3E800000 := by decide +kernel
  rw [fnV_f32 (by decide) (.inl rfl), fnCase_rcp (by decide), hv]
  rfl
end

/-- A negative input other than −0 is invalid for logarithm and roots; a large one is beyond the reduced domain of the fast grade. -/
theorem functionDomains : FunctionDomains := by
  intro acc rm pc x hx f fin
  refine ⟨?_, ?_, ?_, ?_, ?_, ?_, ?_, ?_⟩
  · rintro ⟨hn, hi, hz⟩ hneg hs
    have h1 : x ≠ 0x3F800000 := by rintro rfl; exact absurd hneg (by decide)
    have hsp : ∀ fn, fnSpecial fn x = none := fun fn => fnSpecial_finite hi hz (.inr h1)
    have hneg' : (Ty.fmt .f32).sign x = true := hneg
    exact ⟨fnV_invalid hn hs (hsp _) (by simp [fnInvalid, hneg']), fnV_invalid hn hs (hsp _) (by simp [fnInvalid, hneg']),
      fnV_invalid hn hs (hsp _) (by simp [fnInvalid, hneg'])⟩
  · rintro ⟨hn, hi, hz⟩ hm
    have hs : f.isSub x = false := isSub_of_normal ((by decide : 2 ^ 23 ≤ _).trans hm.le)
    have hsp : ∀ fn, fn ≠ .log2 → fnSpecial fn x = none := fun fn h => fnSpecial_finite hi hz (.inl h)
    have hi' : (Ty.fmt .f32).isInf x = false := hi
    have hr : decide ((Ty.fmt .f32).mag x ≤ 0x43800000) = false := decide_eq_false (not_le.2 hm)
    exact ⟨fnV_unreduced hn hs (hsp _ (by decide)) (by simp [fnInvalid, hi']) hr,
      fnV_unreduced hn hs (hsp _ (by decide)) (by simp [fnInvalid, hi']) hr⟩
  · rintro ⟨hn, hi, hz⟩ hm
    refine fnV_unreduced hn (isSub_of_normal ((by decide : 2 ^ 23 ≤ _).trans hm.le)) (fnSpecial_finite hi hz (.inl (by decide))) rfl ?_
    exact Bool.and_eq_false_imp.2 fun _ => decide_eq_false (not_le.2 hm)
  · rintro ⟨hn, hi, hz⟩ hpos hm
    refine fnV_unreduced hn (isSub_of_normal ((by decide : 2 ^ 23 ≤ _).trans hm)) (fnSpecial_finite hi hz (.inl (by decide))) rfl ?_
    have hv : fVal (Ty.fmt .f32) x = (Ty.fmt .f32).mag x := if_neg (by rw [hpos]; decide)
    have hb : fVal (Ty.fmt .f32) 0x43000000 = 0x43000000 := by decide
    refine Bool.and_eq_false_imp.2 fun _ => decide_eq_false ?_
    rw [hv, hb]
    exact not_lt.2 (by exact_mod_cast hm)
  · exact fnV_log2_one acc rm pc
  · exact fnV_exp2_three acc rm pc
  · exact fnV_sqrt_four pc
  · exact fnV_rcp_four pc

/-! ### The bounds (R131, R132) -/

/-- Where no exact case and no overflow fixes the result, it is within the bound or is the value rounded. -/
theorem fnBounded_within {fn : Fn} {acc : Bool} {x : Nat} (he : fnExactCase fn ((Ty.fmt .f32).dy x) = none)
    (ho : fn = .exp2 → fVal (Ty.fmt .f32) x < fVal (Ty.fmt .f32) 0x43000000) :
    let y := fnExact fn ((Ty.fmt .f32).dy x)
    fnWithin fn acc y (fnBounded fn acc x) = true ∨ fnBounded fn acc x = roundF (Ty.fmt .f32) .rne (y < 0) y.natAbs 1 (-480) := by
  intro y
  have ho' : ¬ (fn = .exp2 ∧ fVal (Ty.fmt .f32) x ≥ fVal (Ty.fmt .f32) 0x43000000) := fun ⟨h, hge⟩ => absurd (ho h) (not_lt.2 hge)
  simp only [fnBounded, he, if_neg ho']
  split
  · rename_i hw
    simp only [Bool.and_eq_true] at hw
    exact .inl hw.2
  · exact .inr rfl

/-- Each part follows from the case of R129: a pattern or a cause, a flushed result in the fast grade, the bounded value. -/
theorem functionBounds : FunctionBounds := by
  intro fn ty acc rm pc pc' x hf hx f v
  refine ⟨?_, ?_, ?_⟩
  · change fnV fn ty acc rm pc x = _ ∨ ∃ c, fnV fn ty acc rm pc x = _ ∧ _
    rw [fnV_eq, fnV_eq]
    cases hn : firstNan (Ty.fmt ty) [x] with
    | some n => exact .inl (by simp only [nanElse, hn, Option.getD_some])
    | none =>
      simp only [nanElse_of_none hn]
      cases fnCase fn ty acc rm (fnIn ty acc x) with
      | ok r => exact .inl rfl
      | error c => exact .inr ⟨c, rfl, rfl⟩
  · rintro rfl
    change (Ty.fmt ty).isSub (fnV fn ty false rm pc x) = false
    rw [fnV_eq]
    cases hn : firstNan (Ty.fmt ty) [x] with
    | some n => rw [nanElse, hn]; exact isSub_quieted hn
    | none =>
      rw [nanElse_of_none hn]
      rcases fnCase_fast fn ty rm (fnIn ty false x) with ⟨c, hc, h⟩ | ⟨w, h⟩
      · rw [h]; exact isSub_eventNan hf hc pc
      · rw [h]; exact isSub_fnFlush ..
  · rintro rfl hn hi hz
    refine ⟨?_, fun h1 h2 hinv hsp hex hin ho => ?_⟩
    · rintro rfl rfl
      exact (fnV_f32 hn (.inl rfl)).trans (congrArg (fnPattern .f32 pc) (fnCase_rcp (fnSpecial_finite hi hz (.inl (by decide)))))
    · have hv : v = fnFlush f acc (fnBounded fn acc x) := by
        refine (fnV_f32 hn (hin.imp_right fun h => h.2.1)).trans ?_
        rw [fnCase_bounded hsp hinv (hin.imp_right And.left) h1 h2]
        rfl
      have hb : v = fnBounded fn acc x := by
        rcases hin with rfl | ⟨-, -, -, h0, h0'⟩
        · exact hv
        · exact eq_of_eq_fnFlush hv h0 h0'
      rw [hb]
      exact fnBounded_within hex ho

/-- Settles O12: its four parts. -/
theorem functions : Obligations.Functions := ⟨functionEnds, functionValues, functionDomains, functionBounds⟩

end Sys2Proof.Machine
end

section
/-! SETTLED. O25: atomics performed. The value that each operation leaves; what a write of the scratchpad leaves of its bytes; what a write at
home leaves of its line. -/
namespace Sys2Proof.Machine

/-! ### The value that an atomic leaves (R145 to R147) -/

section
variable (ty : Ty) (pc old x : DWord) (w : Word)

theorem Rmw.new_min : (Rmw.int .min ty x).new pc old = wrInt ty (if rdInt ty old ≤ rdInt ty x then rdInt ty old else rdInt ty x) :=
  congrArg (wrInt ty) (Int.min_def ..)
theorem Rmw.new_max : (Rmw.int .max ty x).new pc old = wrInt ty (if rdInt ty old ≤ rdInt ty x then rdInt ty x else rdInt ty old) :=
  congrArg (wrInt ty) (Int.max_def ..)
/-- A float atomic is the float instruction of its operation on the low bits of the two values. -/
theorem Rmw.new_flt (op : FOp) : (Rmw.flt op ty w).new pc old = BitVec.ofNat 64 (fopV op ty pc (old.toNat % 2 ^ ty.bits) (w.toNat % 2 ^ ty.bits)) :=
  rfl
end

/-! ### A write of the scratchpad leaves all other bytes (R186) -/

section
variable (s : State) (c : Nat)

theorem scratch_modShadow (u : UnitId) (f : Shadow → Shadow) : ((modShadow s c u f).ctx c).scratch = (s.ctx c).scratch := by
  unfold modShadow Ctx.setShadow
  split
  · simp
  · rfl
theorem scratch_addShadow (u : UnitId) (f : Shadow → Shadow) : ((addShadow s c u f).ctx c).scratch = (s.ctx c).scratch := by
  unfold addShadow
  split
  · rfl
  · dsimp only
    split
    · rfl
    · split
      · exact scratch_modShadow ..
      · refine (scratch_modShadow ..).trans ?_
        rw [State.ctx, State.core_modCore_self]
        rfl
theorem scratch_cowScratch (u : UnitId) (off n : Nat) : ((cowScratch s c u off n).ctx c).scratch = (s.ctx c).scratch :=
  foldl_keeps (g := fun s : State => (s.ctx c).scratch) (fun s i => by
    dsimp only
    split
    · split
      · rfl
      · exact scratch_addShadow ..
    · rfl) _ s
theorem scratch_markTorn (w : Bool) (off n : Nat) : ((markTorn s c w off n).ctx c).scratch = (s.ctx c).scratch := by
  unfold markTorn
  dsimp only
  split
  · rfl
  · simp
theorem scratch_unmarkBytes (w : Bool) (off n : Nat) : ((unmarkBytes s c w off n).ctx c).scratch = (s.ctx c).scratch := by
  unfold unmarkBytes
  split
  · rfl
  · simp [State.ctx]
theorem scratch_writeScratch (u : Option UnitId) (off : Nat) (l : List Byte) :
    ((writeScratch s c u off l).ctx c).scratch = pokeL (s.ctx c).scratch off l := by
  cases u with
  | none => simp [writeScratch, scratch_unmarkBytes, scratch_markTorn]
  | some u => simp [writeScratch, scratch_unmarkBytes, scratch_markTorn, scratch_cowScratch]
theorem scratch_writeLocal (o : Op) (va : Nat) (d : List Byte) :
    ((writeLocal s c o va d).ctx c).scratch = pokeL (s.ctx c).scratch va d := by
  simp [writeLocal, noteLoose, scratch_writeScratch]
end

/-! ### A line at home (R291, R294) -/

section
variable {s : State} {w va n : Nat} {h : Home}

/-- A range within a line has one part. -/
theorem segs_within (hn : 0 < n) (hl : va % 128 + n ≤ 128) : segs va n = [(lineVa va, va % 128, 0, n)] := by
  have h1 : (va + n - 1) / 128 - va / 128 + 1 = 1 := by omega
  rw [segs, if_neg (by omega), h1]
  simp only [List.range_one, List.map_cons, List.map_nil, lineVa, List.cons.injEq, Prod.mk.injEq, and_true]
  omega
theorem homeBytes_within (hn : 0 < n) (hl : va % 128 + n ≤ 128) (s : State) (w : Nat) (h : Home) :
    homeBytes s w va n [h] = ((lineBytes (homeLine s w h)).drop (va % 128)).take n := by
  rw [homeBytes, segs_within hn hl]
  exact List.append_nil _
theorem homeLine_fillL2 {pa : Nat} (hpa : h.pa = some pa) (hw : windowLine s w h.va = false) (prio : Nat) :
    homeLine (fillL2 s w h prio) w h = homeLine s w h := by
  obtain ⟨l, hl, hd⟩ := l2?_fillL2 hpa hw prio
  rw [homeLine_of_l2? ((HomeOnly.fillL2 s w h prio).windowLine w h.va ▸ hw) hl, hd]

theorem homeLine_modCore (s : State) (c : Nat) (f : Core → Core) (w : Nat) (h : Home) : homeLine (s.modCore c f) w h = homeLine s w h := rfl
theorem homeLine_wakeLine (s : State) (w' va' w : Nat) (h : Home) : homeLine (wakeLine s w' va') w h = homeLine s w h := rfl
theorem homeLine_enterHeld (s : State) (c : Nat) (o : Op) (va w : Nat) (h : Home) : homeLine (enterHeld s c o va) w h = homeLine s w h := by
  unfold enterHeld
  dsimp only
  split <;> rfl

/-- A write at home changes its bytes of the line, and no other. -/
theorem homeLine_homeWrite {pa : Nat} (hpa : h.pa = some pa) (hw : windowLine s w h.va = false) (die off : Nat) (d : List Byte)
    (sig : Option (Sig × Bool)) (prio : Nat) :
    homeLine (homeWrite s w die h off d sig prio) w h = lineOfBytes (overlay (lineBytes (homeLine s w h)) off d) := by
  obtain ⟨v, hv, -, hl⟩ := homeWrite_eq_wake s w die h off d sig prio
  rw [hv, homeLine_wakeLine, hl pa hpa hw]
end

/-! ### An atomic performed (R145, R291) -/

section
variable {s : State} {c va n : Nat} {o : Op} {r : Rmw} {d : Dst} {ord : MOrd} {sc : Scope}

theorem performRmw_scratch (hb : o.body = .rmw .l va n r d ord sc none) (hm : markedBytes s c false va n = false) :
    let was := BitVec.ofNat 64 (natOf (peekN (s.ctx c).scratch va n))
    performRmw s c o = (writeLocal s c o va (bytesOf n (r.new o.pc was).toNat), some was) := by
  simp [performRmw, hb, hm]

theorem performRmw_home {h : Home} (hb : o.body = .rmw .g va n r d ord sc none) (ho : o.homes = [h]) (hd : isDoorbell o.world h = false)
    (hp : poisoned (fillL2 s o.world h o.evict) o.world va n [h] = false) :
    let v := fillL2 s o.world h o.evict
    let was := BitVec.ofNat 64 (natOf (homeBytes v o.world va n [h]))
    ∃ sg, performRmw s c o = (enterHeld (dropL1 (homeWrite v o.world (dieOf c) h (va % 128) (bytesOf n (r.new o.pc was).toNat) sg o.evict) c
      fun l => l.world == o.world && l.va == h.va) c o (lineVa va), some was) := by
  simp only [performRmw, hb, ho, hd, hp, List.headD_cons]
  exact ⟨_, rfl⟩
end

/-- Settles O25: the values of the operations; then the scratchpad, and the home line, after an atomic is performed. -/
theorem atomicsPerformed : Obligations.AtomicsPerformed := by
  intro s c o sp va n r d ord sc pc old x y ty
  refine ⟨⟨rfl, Rmw.new_min .., Rmw.new_max .., rfl, rfl, rfl, rfl, rfl, rfl, rfl⟩, fun hf => ⟨?_, ?_, ?_⟩, fun hb => ⟨?_, ?_⟩⟩
  · exact (Rmw.new_flt ..).trans (congrArg _ (faddV_eq ..))
  · exact (Rmw.new_flt ..).trans (congrArg _ ((fminV_eq ..).trans (by simp only [fOrd_lt_decide]; rfl)))
  · exact (Rmw.new_flt ..).trans (congrArg _ ((fmaxV_eq ..).trans (by simp only [fOrd_lt_decide]; rfl)))
  · rintro rfl hm was
    rw [performRmw_scratch hb hm]
    refine ⟨rfl, fun a => ?_⟩
    rw [scratch_writeLocal, peek_pokeL]
    simp [bytesOf, was]
  · rintro rfl hm p hh hp hdb hw hn hl hpo was
    obtain ⟨sg, hr⟩ := performRmw_home (c := c) hb hh hdb hpo
    have hv : BitVec.ofNat 64 (natOf (homeBytes (fillL2 s o.world hm o.evict) o.world va n [hm])) = was := by
      rw [homeBytes_within hn hl, homeLine_fillL2 hp hw]
    rw [hv] at hr
    rw [hr]
    refine ⟨rfl, ?_⟩
    have hw' : windowLine (fillL2 s o.world hm o.evict) o.world hm.va = false := ((HomeOnly.fillL2 ..).windowLine ..).trans hw
    rw [homeLine_enterHeld, dropL1, homeLine_modCore, homeLine_homeWrite hp hw', homeLine_fillL2 hp hw]

end Sys2Proof.Machine
end

section
/-! SETTLED. O21: what the checks of an access find. First each space's check, then the line's, then the token's. -/
namespace Sys2Proof.Machine

/-! ### The checks by space (R139, R187) -/

theorem accessCheck_unaligned {s : State} {e : Env} {sp : Space} {off n al : Nat} {k : Acc} (h : off % al ≠ 0) :
    accessCheck s e sp off n al k = .error (raiseAt (spaceVa (s.ctx e.c) sp off) 0x03) := if_pos h

section
variable {s : State} {e : Env} {off n al : Nat} {k : Acc} (ha : off % al = 0)
include ha

theorem accessCheck_scratch : accessCheck s e .l off n al k = scratchAccess s (s.ctx e.c) off n k := if_neg (not_not.2 ha)
theorem accessCheck_wbuf : accessCheck s e .w off n al k = windowAccess s off n := if_neg (not_not.2 ha)
theorem accessCheck_const : accessCheck s e .k off n al k = constAccess s e (spaceVa (s.ctx e.c) .k off) off n k := if_neg (not_not.2 ha)
theorem accessCheck_global : accessCheck s e .g off n al k = globalAccess s e off n k := if_neg (not_not.2 ha)
end

section
variable {x : Ctx} {off n : Nat} {k : Acc}

theorem scratchCheck_beyond (h : scratchSize x < off + n) : scratchCheck x off n k = some 0x05 := if_pos h
/-- A tile that fills stops every access to its bytes, and one that drains stops every write. -/
theorem scratchCheck_tile (h : off + n ≤ scratchSize x) {p : Nat × Tile} (hp : p ∈ x.tiles) (hm : p.2.meets off n = true)
    (hst : p.2.st = .filling ∨ (p.2.st = .draining ∧ k.writes = true)) : scratchCheck x off n k = some 0x09 := by
  refine (if_neg (Nat.not_lt.2 h)).trans (if_pos (List.any_eq_true.2 ⟨p, hp, ?_⟩))
  rw [hm, Bool.true_and]
  obtain hst | ⟨hst, hk⟩ := hst
  · rw [hst]
  · rw [hst]
    exact hk
theorem scratchCheck_clear (h : off + n ≤ scratchSize x) (hm : ∀ p ∈ x.tiles, p.2.meets off n = false) : scratchCheck x off n k = none := by
  refine (if_neg (Nat.not_lt.2 h)).trans (if_neg ?_)
  rw [List.any_eq_true]
  rintro ⟨p, hp, hx⟩
  rw [hm p hp] at hx
  cases hx
end

theorem scratchAccess_refused {s : State} {x : Ctx} {off n : Nat} {k : Acc} {c : BitVec 6} (h : scratchCheck x off n k = some c) :
    scratchAccess s x off n k = .error (raiseAt 0 c) := by rw [scratchAccess, h]
theorem scratchAccess_passes {s : State} {x : Ctx} {off n : Nat} {k : Acc} (h : scratchCheck x off n k = none) :
    scratchAccess s x off n k = .ok (s, off, []) := by rw [scratchAccess, h]
theorem globalAccess_refused {s : State} {e : Env} {va n : Nat} {k : Acc} {p : BitVec 6 × Nat}
    (h : rangeCheck s e.c (s.actWorld e.c e.t) va n k = .error p) : globalAccess s e va n k = .error (raiseAt p.2 p.1) := by
  simp only [globalAccess, globalCheck, h]

/-! ### The check of a line (R139) -/

/-- A line that no cache holds is translated. -/
theorem lineCheck_fetch {s : State} {c w va : Nat} (hw : s.worldOf c = w) (hva : va < 2 ^ 48) (hr : remapHit s w va = none)
    (hl : s.l2? w (lineVa va) = none) : lineCheck s c w va .fetch = xlate s w w va fun p => p.exec := by
  unfold lineCheck
  simp only [hw, hr, hl, if_neg (Nat.not_le.2 hva)]
  rfl
theorem xlate_error {s : State} {w who va : Nat} {ok : Perm → Bool} {x : BitVec 6} (h : leafOf s w va = .error x) :
    xlate s w who va ok = .error x := by rw [xlate, h]
/-- A page of the world's own whose frame stands where its address has it needs the permission. -/
theorem xlate_forbidden {s : State} {w who va : Nat} {ok : Perm → Bool} {l : Leaf} (h : leafOf s w va = .ok l) (hs : l.sec = false)
    (hf : onStack (stackFor s w va (l.page + lineVa va % 4096)) (l.page + lineVa va % 4096) = true)
    (hp : ok { write := l.write, exec := l.exec } = false) : xlate s w who va ok = .error 0x05 := by
  rw [xlate, h]
  dsimp only
  rw [hs]
  refine (if_pos rfl).trans ?_
  rw [settleLeaf, hf, hp]
  rfl

/-! ### The token step (R140) -/

section
variable {s : State} {w va : Nat} {a : Word}

theorem tokenCheck_eq {t : Option Token} (h : s.token? w va = t) (k : Acc) : tokenCheck s w a va k =
    match k, t.bind (·.heldBy a) with
    | .load, some .at => some 0x07
    | .load, _ | .watch, _ | .fetch, _ => none
    | .store, some .write => none
    | .store, some _ => some 0x07
    | .store, none => some 0x06
    | .atomic, some .rs | .ring, some .rs => some 0x07
    | .atomic, some _ | .ring, some _ => none
    | .atomic, none | .ring, none => some 0x06 := by
  subst h
  rfl

variable {tk : Token} (hp : tk.pending = none)
include hp

theorem heldBy_owner (hm : tk.mode = .write) (ha : a ≠ 0) : tk.heldBy a = if tk.owner = a then some .write else none := by
  rw [Token.heldBy, hp, hm]
  exact (if_pos rfl).trans (if_congr (and_iff_left ha) rfl rfl)
theorem heldBy_holder (hm : tk.mode ≠ .write) (ha : tk.holders.contains a = true) : tk.heldBy a = some tk.mode := by
  simp only [List.contains_eq_mem, decide_eq_true_eq] at ha
  simp [Token.heldBy, hp, hm, ha]
end

/-- Settles O21: each space's own check, the translation of a line, and the token step, case by case. -/
theorem accessChecks : Obligations.AccessChecks := by
  intro s e sp off n al k
  refine ⟨fun h => ⟨_, accessCheck_unaligned h, rfl⟩, fun ha => ?_, fun c w va hw hva hr hl => ?_, fun w va a ht => ?_,
    fun w va a tk ht hp ha hm => ?_, fun w va a tk ht hp hh => ?_⟩
  · rw [accessCheck_scratch ha, accessCheck_wbuf ha, accessCheck_const ha, accessCheck_global ha]
    refine ⟨fun h => ⟨_, scratchAccess_refused (scratchCheck_beyond h), rfl⟩, fun h j tl hj hm hst => ?_,
      fun h hm => scratchAccess_passes (scratchCheck_clear h hm), fun h => ⟨_, if_pos h, rfl⟩, fun h => if_neg (Nat.not_lt.2 h),
      fun h => ⟨_, if_pos h, rfl⟩, fun x va hx => ⟨_, globalAccess_refused hx, rfl⟩⟩
    refine ⟨_, scratchAccess_refused (scratchCheck_tile h hj hm (hst.imp_right fun ⟨h1, h2⟩ => ⟨h1, ?_⟩)), rfl⟩
    obtain rfl | rfl := h2 <;> rfl
  · rw [lineCheck_fetch hw hva hr hl]
    exact ⟨rfl, fun x hx => xlate_error hx, fun l hx hs hf he => xlate_forbidden hx hs hf he⟩
  · simp only [tokenCheck_eq ht]
    exact ⟨rfl, rfl, rfl⟩
  · simp only [tokenCheck_eq ht, Option.bind_some, heldBy_owner hp hm ha]
    refine ⟨fun ho => ?_, fun ho => ?_⟩
    · rw [if_pos ho]
      exact ⟨rfl, rfl, rfl⟩
    · rw [if_neg ho]
  · simp only [tokenCheck_eq ht, Option.bind_some]
    refine ⟨fun hm => ?_, fun hm => ?_⟩ <;> rw [heldBy_holder hp (by rw [hm]; decide) hh, hm]
    · exact ⟨rfl, rfl, rfl⟩
    · exact ⟨rfl, rfl, rfl⟩

end Sys2Proof.Machine
end

section
/-! RULES. How an instruction of one thread answers, whichever way it issues; what the checks of an access answer; what may change before an
access is counted, and what the counting leaves. -/
namespace Sys2Proof.Machine

/-! ### How an instruction of one thread ends -/

/-- What an instruction does for its one thread, by what its meaning answers. -/
structure Answers (i : Instr) (s : State) (b : Bundle) (t : Nat) (th : Thread) (u : Uses) (h : Hdr) (r : Res) : Prop where
  done : ∀ {v x}, r = .done v → v.thr? b.core t = some x → x.pc = th.pc → Ends i s b t u h v
  wait : ∀ {k}, r = .wait s k → Waits i s b t u h k s
  fail : ∀ {x}, r = .fail s x → x.used = false → x.at_ = none → x.num = 0 → Raises i s b t x.code

section
variable {i : Instr} {s : State} {b : Bundle} {t : Nat} {th : Thread} {lv : Level} {u : Uses} {h : Hdr} {r : Res} (rd : Ready s b t th lv u h)
include rd

theorem answers_perThread {act : Env → DWord → State → Res} (he : exec i s = .next (perThread lv u h act s))
    (ha : act (envOf s b t u h) th.pc s = r) : Answers i s b t th u h r where
  done hr hv _ := ends_perThread rd he (ha.trans hr) (by rw [hv]; rfl)
  wait hr := waits_perThread rd he (ha.trans hr) (by rw [rd.live]; rfl)
  fail hr hu hat hn := raises_of_act rd he (ha.trans hr) hu hat hn rfl
theorem answers_perBundle {act : Env → DWord → List Nat → State → Res} (he : exec i s = .next (perBundle lv u h act s))
    (ha : act (envOf s b t u h) th.pc [t] s = r) : Answers i s b t th u h r where
  done hr hv hp := ends_perBundle rd he (ha.trans hr) (by rw [hv]; rfl) (by rw [State.thr_of hv, hp])
  wait hr := waits_perBundle rd he (ha.trans hr) (by rw [rd.live]; rfl)
  fail hr hu hat hn := by
    obtain ⟨n, he⟩ := raises_perBundle rd hu he (ha.trans hr) rd.quiet
    exact ⟨_, he, hn ▸ raised_parkSub rd n hat⟩
end

/-! ### What the checks of an access answer (R139) -/

/-- A failed check names only its code and an address. -/
theorem accessCheck_error {s : State} {e : Env} {sp : Space} {off n al : Nat} {k : Acc} {x : Raise}
    (h : accessCheck s e sp off n al k = .error x) : ∃ va c, x = raiseAt va c := by
  unfold accessCheck scratchAccess windowAccess constAccess globalAccess at h
  repeat' split at h
  all_goals cases h
  all_goals exact ⟨_, _, rfl⟩
/-- Checks that pass leave translations behind, and nothing else. -/
theorem CachesOnly.of_accessCheck {s s' : State} {e : Env} {sp : Space} {off n al va : Nat} {k : Acc} {hs : List Home}
    (h : Machine.accessCheck s e sp off n al k = .ok (s', va, hs)) : CachesOnly s s' := by
  cases sp with
  | g => exact .accessCheck h
  | _ =>
    unfold Machine.accessCheck scratchAccess windowAccess constAccess at h
    dsimp only at h
    repeat' split at h
    all_goals cases h
    all_goals exact .refl s

/-- What an access of class `k` answers: it waits for room, raises what its checks find, is held back, or is accepted. -/
def accessAnswer (k : Cls) (chk : Except Raise (State × Nat × List Home)) (hold : Nat → List Home → Option Why)
    (accept : State → Nat → List Home → State) (e : Env) (s : State) : Res :=
  if s.count e.c e.t k ≥ 63 then .wait s (.retry (.room k))
  else match chk with
    | .error r => .fail s r
    | .ok (s', va, hs) => match hold va hs with
      | some w => .wait s (.retry w)
      | none => .done (accept s' va hs)

section
variable {k : Cls} {chk : Except Raise (State × Nat × List Home)} {hold : Nat → List Home → Option Why}
  {accept : State → Nat → List Home → State} {e : Env} {s : State} (hc : s.count e.c e.t k < 63)
include hc

theorem accessAnswer_error {x : Raise} (hx : chk = .error x) : accessAnswer k chk hold accept e s = .fail s x := by
  subst hx
  exact if_neg (Nat.not_le.2 hc)
variable {s' : State} {va : Nat} {hs : List Home} (hok : chk = .ok (s', va, hs))
include hok
theorem accessAnswer_held {w : Why} (hw : hold va hs = some w) : accessAnswer k chk hold accept e s = .wait s (.retry w) := by
  subst hok
  refine (if_neg (Nat.not_le.2 hc)).trans ?_
  dsimp only
  rw [hw]
theorem accessAnswer_accepted (hw : hold va hs = none) : accessAnswer k chk hold accept e s = .done (accept s' va hs) := by
  subst hok
  refine (if_neg (Nat.not_le.2 hc)).trans ?_
  dsimp only
  rw [hw]
end

/-- The issue of an access, by the cases of its answer. -/
theorem access_issue {i : Instr} {s : State} {b : Bundle} {t : Nat} {th : Thread} {u : Uses} {h : Hdr} {k : Cls} {sp : Space} {off n al : Nat}
    {acc : Acc} {hold : Nat → List Home → Option Why} {accept : State → Nat → List Home → State} {e : Env} (he : e = envOf s b t u h)
    (ans : Answers i s b t th u h (accessAnswer k (accessCheck s e sp off n al acc) hold accept e s)) :
    (s.count b.core t k ≥ 63 → Waits i s b t u h (.retry (.room k)) s) ∧
    (s.count b.core t k < 63 →
      (off % al ≠ 0 → Raises i s b t 0x03) ∧
      (∀ r, accessCheck s e sp off n al acc = .error r → Raises i s b t r.code) ∧
      ∀ s' va hs, accessCheck s e sp off n al acc = .ok (s', va, hs) →
        (∀ w, hold va hs = some w → Waits i s b t u h (.retry w) s) ∧
        (hold va hs = none → ∀ x, (accept s' va hs).thr? b.core t = some x → x.pc = th.pc → Ends i s b t u h (accept s' va hs))) := by
  subst he
  have hraise : s.count b.core t k < 63 → ∀ r, accessCheck s (envOf s b t u h) sp off n al acc = .error r → Raises i s b t r.code :=
    fun hc r hr => by
      obtain ⟨va, c, rfl⟩ := accessCheck_error hr
      exact ans.fail (accessAnswer_error hc hr) rfl rfl rfl
  exact ⟨fun hc => ans.wait (if_pos hc), fun hc => ⟨fun ha => hraise hc _ (accessCheck_unaligned ha), hraise hc, fun s' va hs hok =>
    ⟨fun w hw => ans.wait (accessAnswer_held hc hok hw), fun hw x hx hp => ans.done (accessAnswer_accepted hc hok hw) hx hp⟩⟩⟩

/-! ### What may change before an access is counted -/

/-- Of core `c`, the values of operations, what threads have observed, posts and shadows may differ, and caches anywhere; who acts, in which
world, and how much is outstanding do not. -/
structure Readied (c : Nat) (a b : State) : Prop where
  parts : b.parts = a.parts
  latch : (b.core c).latch = (a.core c).latch
  ctx   : b.ctx c = { a.ctx c with
    ops := (b.ctx c).ops, loose := (b.ctx c).loose, posts := (b.ctx c).posts, shadows := (b.ctx c).shadows }
  count : ∀ t k, b.count c t k = a.count c t k

theorem Readied.refl (c : Nat) (a : State) : Readied c a a := ⟨rfl, rfl, rfl, fun _ _ => rfl⟩
theorem Readied.trans {c : Nat} {x y z : State} (h : Readied c x y) (k : Readied c y z) : Readied c x z :=
  ⟨k.parts.trans h.parts, k.latch.trans h.latch, by rw [k.ctx, h.ctx], fun t q => (k.count t q).trans (h.count t q)⟩
theorem Readied.foldl {α : Type} {c : Nat} {f : State → α → State} (hf : ∀ s a, Readied c s (f s a)) (l : List α) :
    ∀ s, Readied c s (l.foldl f s) := by
  induction l with
  | nil => exact .refl c
  | cons a l ih => exact fun s => (hf s a).trans (ih _)
theorem CachesOnly.readied {a b : State} (h : CachesOnly a b) (c : Nat) : Readied c a b where
  parts := h.parts
  latch := (congrArg Core.latch (h.core c) :)
  ctx := by rw [h.ctx]
  count t k := by rw [State.count, h.ctx]; rfl
theorem Readied.modCtx {s : State} {c : Nat} {f : Ctx → Ctx} (hf : f (s.ctx c) = { s.ctx c with
    ops := (f (s.ctx c)).ops, loose := (f (s.ctx c)).loose, posts := (f (s.ctx c)).posts, shadows := (f (s.ctx c)).shadows })
    (hn : ∀ t k, (f (s.ctx c)).count t k = (s.ctx c).count t k) : Readied c s (s.modCtx c f) := by
  refine ⟨rfl, by simp, ?_, fun t k => ?_⟩
  · rw [State.ctx_modCtx, if_pos rfl]
    exact hf
  · rw [State.count, State.ctx_modCtx, if_pos rfl]
    exact hn t k
theorem Readied.modOp {s : State} {c id : Nat} {f : Op → Op}
    (hf : ∀ o, (f o).tid = o.tid ∧ (f o).cls = o.cls ∧ (f o).retired = o.retired ∧ (f o).body.accepted = o.body.accepted) :
    Readied c s (s.modOp c id f) := by
  refine .modCtx rfl fun t k => ?_
  rw [Ctx.count, List.countP_map, Ctx.count]
  congr 1
  funext o
  rw [Function.comp_apply]
  split
  · obtain ⟨h1, h2, h3, h4⟩ := hf o
    rw [h1, h2, h3, h4]
  · rfl
theorem accepted_setVal (b : OpBody) (l : List Byte) : (b.setVal l).accepted = b.accepted := by
  cases b <;> rfl
theorem Readied.observe (s : State) (c t : Nat) (ids : List Nat) : Readied c s (observe s c t ids) := by
  unfold Machine.observe
  split
  · exact .refl c s
  · exact .modCtx rfl fun _ _ => rfl
theorem Readied.takePosts (s : State) (c t : Nat) (p : PostAt) (sc : Scope) : Readied c s (takePosts s c t p sc) :=
  .foldl (fun _ _ => .observe ..) _ s
theorem Readied.dropPosts (s : State) (c : Nat) (p : PostAt) : Readied c s (dropPosts s c p) := by
  unfold Machine.dropPosts
  split
  · exact .refl c s
  · exact .modCtx rfl fun _ _ => rfl
theorem Readied.post (s : State) (c t : Nat) (p : PostAt) (sc : Scope) : Readied c s (post s c t p sc) := by
  unfold Machine.post
  dsimp only
  split
  · exact .dropPosts ..
  · exact (Readied.dropPosts ..).trans (.modCtx rfl fun _ _ => rfl)
theorem Readied.irrevocable (s : State) (c t : Nat) : Readied c s (irrevocable s c t) := by
  unfold Machine.irrevocable modShadow
  split
  · exact .modCtx rfl fun _ _ => rfl
  · exact .refl c s

/-! ### Loads that are performed (R137) -/

theorem WorkStands.foldl {α : Type} {c : Nat} {f : State → α → State} (hf : ∀ s a, WorkStands c s (f s a)) (l : List α) :
    ∀ s, WorkStands c s (l.foldl f s) := by
  induction l with
  | nil => exact .refl c
  | cons a l ih => exact fun s => (hf s a).trans (ih _)
theorem WorkStands.loadFills (s : State) (c : Nat) (o : Op) : WorkStands c s (loadFills s c o) := by
  unfold Machine.loadFills
  split
  · exact (CachesOnly.foldl (fun _ _ => (CachesOnly.loadFill ..).trans (.enterSig ..)) _ s).work c
  · exact (CachesOnly.foldl (fun _ _ => .allocConst ..) _ s).work c
  · exact .foldl (fun _ _ => .observe ..) _ s
  · exact .foldl (fun _ _ => .observe ..) _ s
  · exact .refl c s
theorem Readied.loadFills (s : State) (c : Nat) (o : Op) : Readied c s (loadFills s c o) := by
  unfold Machine.loadFills
  split
  · exact (CachesOnly.foldl (fun _ _ => (CachesOnly.loadFill ..).trans (.enterSig ..)) _ s).readied c
  · exact (CachesOnly.foldl (fun _ _ => .allocConst ..) _ s).readied c
  · exact .foldl (fun _ _ => .observe ..) _ s
  · exact .foldl (fun _ _ => .observe ..) _ s
  · exact .refl c s
theorem Readied.capture (s : State) (c : Nat) (o : Op) : Readied c s (capture s c o) := by
  unfold Machine.capture
  split
  · exact .refl c s
  · exact (Readied.loadFills ..).trans (.modOp fun q => ⟨rfl, rfl, rfl, accepted_setVal ..⟩)
theorem Readied.captureLoads (s : State) (c t : Nat) : Readied c s (captureLoads s c t) := .foldl (fun _ _ => .capture ..) _ s
theorem Readied.captureRange (s : State) (c t : Nat) (sp : Space) (va n : Nat) : Readied c s (captureRange s c t sp va n) :=
  .foldl (fun _ _ => .capture ..) _ s

/-- An operation under its number changes as the rest of that number does. -/
theorem mem_modOp {s : State} {c id : Nat} {q : Op} (f : Op → Op) (hq : q ∈ (s.ctx c).ops) (hid : q.id = id) :
    f q ∈ ((s.modOp c id f).ctx c).ops := by
  rw [State.modOp, State.ctx_modCtx, if_pos rfl]
  exact List.mem_map.2 ⟨q, hq, if_pos hid⟩

/-! ### What stands for the access that is counted -/

section
variable {c : Nat} {a b : State} (h : Readied c a b)
include h

theorem Readied.thr? (t : Nat) : b.thr? c t = a.thr? c t := by
  rw [State.thr?, h.ctx]
  rfl
theorem Readied.thr (t : Nat) : b.thr c t = a.thr c t := by
  rw [State.thr, h.thr?]
  rfl
theorem Readied.worldOf : b.worldOf c = a.worldOf c := by
  rw [State.worldOf, h.latch]
  rfl
theorem Readied.actWorld (t : Nat) : b.actWorld c t = a.actWorld c t := by
  unfold State.actWorld State.partOf State.partOfQuarter
  rw [h.thr, h.parts, h.worldOf]
theorem Readied.sigId (t : Nat) : b.sigId c t = a.sigId c t := by
  have hlead : (b.ctx c).lead = (a.ctx c).lead := (congrArg Ctx.lead h.ctx :)
  unfold State.sigId State.agentOf State.unitOf
  rw [h.thr, hlead]
theorem Readied.agentId (t : Nat) : b.agentId c t = a.agentId c t := by
  unfold State.agentId
  rw [h.thr, h.sigId]
/-- The operation that an access becomes. -/
theorem Readied.newOp (t : Nat) (k : Cls) (pc : DWord) (body : OpBody) (hs : List Home) (ev : Nat) (low : Bool) :
    newOp b c t k pc body hs ev low = newOp a c t k pc body hs ev low := by
  have hnext : (b.ctx c).nextOp = (a.ctx c).nextOp := (congrArg Ctx.nextOp h.ctx :)
  unfold Machine.newOp
  rw [hnext, h.agentId, h.sigId, h.actWorld, h.thr]
end

/-! ### Counting (R141) and the registers that wait (R142) -/

section
variable (s : State) (c t : Nat)

theorem ops_addOp (k : Cls) (pc : DWord) (body : OpBody) (hs : List Home) (ev : Nat) (low : Bool) :
    ((addOp s c t k pc body hs ev low).1.ctx c).ops = (s.ctx c).ops ++ [newOp s c t k pc body hs ev low] := by simp [addOp]
theorem thr?_addOp (k : Cls) (pc : DWord) (body : OpBody) (hs : List Home) (ev : Nat) (low : Bool) :
    (addOp s c t k pc body hs ev low).1.thr? c t = s.thr? c t := by simp [addOp, State.thr?]
theorem ops_markHazard (l : List Nat) (low : Bool) (ts : List Nat) : ((markHazard s c t l low ts).ctx c).ops = (s.ctx c).ops := by
  have hf : ((markHazard s c t l low ts).ctx c).frame = (s.ctx c).frame := by
    unfold markHazard
    dsimp only
    split
    · split
      · rw [frame_modGroup, frame_modThr]
      · rw [frame_modThr]
    · rw [frame_modThr]
  exact (congrArg Ctx.ops hf :)
theorem count_of_ops {a b : State} (h : (b.ctx c).ops = (a.ctx c).ops) (k : Cls) : b.count c t k = a.count c t k := by
  rw [State.count, Ctx.count, h]
  rfl
theorem thr?_markHazard {th : Thread} (h : s.thr? c t = some th) (l : List Nat) (low : Bool) (ts : List Nat) :
    ∃ z, (markHazard s c t l low ts).thr? c t = some { th with hazard := z } := by
  refine ⟨(th.hazard ++ l.filter (· < 128)).eraseDups, ?_⟩
  have hm : ∀ f, (s.modThr c t f).thr? c t = some (f th) := fun f => by rw [State.thr?_modThr, if_pos ⟨rfl, rfl⟩, h]; rfl
  unfold markHazard
  dsimp only
  split
  · split
    · rw [State.thr?_modGroup, hm]
    · rw [hm]
  · rw [hm]
/-- An access is counted once for its thread. -/
theorem count_addOp (k : Cls) (pc : DWord) {body : OpBody} (hb : body.accepted = true) (hs : List Home) (ev : Nat) (low : Bool) :
    (addOp s c t k pc body hs ev low).1.count c t k = s.count c t k + 1 := by
  rw [State.count, Ctx.count, ops_addOp, List.countP_append]
  simp [newOp, hb, State.count, Ctx.count]
/-- The thread that an access is counted for, and its count, once its registers wait as well. -/
theorem thr?_counted {s : State} {c t : Nat} {th : Thread} {k : Cls} {pc : DWord} {body : OpBody} {hs : List Home} {ev : Nat} {low : Bool}
    {l ts : List Nat} (hl : s.thr? c t = some th) :
    ∃ z, (markHazard (addOp s c t k pc body hs ev low).1 c t l low ts).thr? c t = some { th with hazard := z } :=
  thr?_markHazard _ _ _ ((thr?_addOp ..).trans hl) ..
theorem count_counted {k : Cls} {pc : DWord} {body : OpBody} {hs : List Home} {ev : Nat} {low : Bool} {l ts : List Nat}
    (hb : body.accepted = true) : (markHazard (addOp s c t k pc body hs ev low).1 c t l low ts).count c t k = s.count c t k + 1 :=
  (count_of_ops c t (ops_markHazard ..) k).trans (count_addOp s c t k pc hb hs ev low)
end

end Sys2Proof.Machine
end

section
/-! SETTLED. O20: a load is counted, and where it acquires performed at once. -/
namespace Sys2Proof.Machine

/-! ### A load that acquires (R292, log 44) -/

/-- The load `o`, outstanding in `a`, has been performed in `b`: its operation holds bytes. -/
structure LoadDone (c : Nat) (o : Op) (a b : State) : Prop where
  readied : Readied c a b
  holds   : ∃ q ∈ (b.ctx c).ops, q.tid = o.tid ∧ ∃ l, q.body = o.body.setVal l

section
variable {c : Nat} {o : Op} {x y z : State}

theorem LoadDone.then_caches (h : LoadDone c o x y) (k : CachesOnly y z) : LoadDone c o x z :=
  ⟨h.readied.trans (k.readied c), (k.work c).ops ▸ h.holds⟩
theorem loadDone_modOp (hr : Readied c x y) (ho : o ∈ (y.ctx c).ops) (l : List Byte) (p : Bool) :
    LoadDone c o x (y.modOp c o.id fun q => { q with body := q.body.setVal l, bad := p }) :=
  ⟨hr.trans (.modOp fun _ => ⟨rfl, rfl, rfl, accepted_setVal ..⟩), _, mem_modOp _ ho rfl, rfl, l, rfl⟩
theorem loadDone_capture (hr : Readied c x y) (hu : o.body.unread = true) (ho : o ∈ (y.ctx c).ops) : LoadDone c o x (capture y c o) := by
  unfold capture
  rw [hu]
  exact loadDone_modOp (hr.trans (.loadFills ..)) ((WorkStands.loadFills y c o).ops ▸ ho) ..
end

/-- A load accepted without an acquire. -/
theorem acceptLoad_plain {s : State} {e : Env} {pc : DWord} {m : MMod} {va n : Nat} {hs : List Home} {ty : Ty} {d : Dst} {ts : List Nat}
    (hq : isAcq m.ord = false) : acceptLoad s e pc m va n hs ty d ts =
      markHazard (addOp s e.c e.t .loads pc (.load m.space va n ty d m.ord m.scope none) hs m.evict.toNat e.low).1 e.c e.t
        (OpBody.load m.space va n ty d m.ord m.scope none).hazard e.low ts := by
  unfold acceptLoad
  simp only [hq]
  rfl

/-- An acquiring load is counted, and then performed. -/
theorem acceptLoad_acquires (s : State) (e : Env) (pc : DWord) (m : MMod) (va n : Nat) (hs : List Home) (ty : Ty) (d : Dst) (ts : List Nat)
    (hq : isAcq m.ord = true) :
    let body : OpBody := .load m.space va n ty d m.ord m.scope none
    let s1 := captureRange s e.c e.t m.space va n
    LoadDone e.c (newOp s1 e.c e.t .loads pc body hs m.evict.toNat e.low)
      (markHazard (addOp s1 e.c e.t .loads pc body hs m.evict.toNat e.low).1 e.c e.t body.hazard e.low ts)
      (acceptLoad s e pc m va n hs ty d ts) := by
  intro body s1
  generalize ho : newOp s1 e.c e.t .loads pc body hs m.evict.toNat e.low = o
  generalize hz : markHazard (addOp s1 e.c e.t .loads pc body hs m.evict.toNat e.low).1 e.c e.t body.hazard e.low ts = z
  have hin : o ∈ (z.ctx e.c).ops := by
    rw [← hz, ops_markHazard, ops_addOp, ho]
    exact List.mem_append_right _ (.head _)
  have hu : o.body.unread = true := ho ▸ rfl
  unfold acceptLoad
  simp only [hq, if_true]
  rw [show newOp (captureRange s e.c e.t m.space va n) e.c e.t .loads pc (.load m.space va n ty d m.ord m.scope none) hs
    m.evict.toNat e.low = o from ho]
  rw [show markHazard (addOp (captureRange s e.c e.t m.space va n) e.c e.t .loads pc (.load m.space va n ty d m.ord m.scope none) hs
    m.evict.toNat e.low).1 e.c e.t (OpBody.load m.space va n ty d m.ord m.scope none).hazard e.low ts = z from hz]
  generalize hy : takePosts z e.c e.t _ (localScope m.space m.scope) = y
  have hr : Readied e.c z y := hy ▸ .takePosts ..
  have hoy : o ∈ (y.ctx e.c).ops := by
    rw [← hy, (WorkStands.takePosts ..).ops]
    exact hin
  have hcap := loadDone_capture hr hu hoy
  have harray : LoadDone e.c o z (if (localScope m.space m.scope == .th || localScope m.space m.scope == .grp) = true
      then capture y e.c o else dropConst (capture y e.c o) e.c) := hcap.then_caches (.ite (.refl _) (.dropConst ..))
  split
  · refine LoadDone.then_caches ?_ (.foldl (fun _ _ => .acquireLine ..) _ _)
    split
    · have hfill : CachesOnly y _ := .foldl (fun s h => .fillL2 s (z.actWorld e.c e.t) h m.evict.toNat) hs y
      exact (loadDone_modOp (hr.trans (hfill.readied _)) ((hfill.work _).ops ▸ hoy) ..).then_caches (.foldl (fun _ _ => .enterSig ..) _ _)
    · exact hcap
  · exact harray

/-! ### The issue of a load (R135, R139, R143) -/

theorem acqReady_plain {s : State} {e : Env} {m : MMod} (hq : isAcq m.ord = false) (va n : Nat) (hs : List Home) :
    acqReady s e m va n hs = none := by
  rw [acqReady, hq]
  rfl

/-- A load of one thread: it waits, raises, is accepted, or is performed at once. `pre` comes before its acceptance. -/
theorem load_issue {i : Instr} {s : State} {b : Bundle} {t : Nat} {th : Thread} {u : Uses} {h : Hdr} {pre : State → Nat → State} {m : MMod}
    {n al off k : Nat} {ty : Ty} {d : Dst} {e : Env} (he : e = envOf s b t u h) (rd : Ready s b t th .app u h)
    (ans : Answers i s b t th u h (accessAnswer .loads (accessCheck s e m.space off n al .load) (acqReady s e m · n ·)
      (fun v va hs => acceptLoad (pre v va) e th.pc m va n hs ty d) e s))
    (hpre : ∀ v va, Readied b.core v (pre v va)) (hplain : isAcq m.ord = false → ∀ v va, pre v va = v)
    (hk : (if ty == .b32 || ty.is64 then (n + 3) / 4 else 1) = k) :
    (s.count b.core t .loads ≥ 63 → Waits i s b t u h (.retry (.room .loads)) s) ∧
    (s.count b.core t .loads < 63 →
      (off % al ≠ 0 → Raises i s b t 0x03) ∧
      (∀ r, accessCheck s e m.space off n al .load = .error r → Raises i s b t r.code) ∧
      (∀ s' va hs, accessCheck s e m.space off n al .load = .ok (s', va, hs) →
        (isAcq m.ord = false →
          Ends i s b t u h (markHazard (addOp s' b.core t .loads th.pc (.load m.space va n ty d m.ord m.scope none) hs
            m.evict.toNat).1 b.core t (dstHazard d k))) ∧
        (isAcq m.ord = true → acqReady s e m va n hs = none →
          ∃ v l, Ends i s b t u h v ∧ s.count b.core t .loads + 1 ≤ v.count b.core t .loads ∧
            ∃ o ∈ (v.ctx b.core).ops, o.tid = t ∧ o.body = .load m.space va n ty d m.ord m.scope (some l)) ∧
        (∀ w, acqReady s e m va n hs = some w → Waits i s b t u h (.retry w) s))) := by
  obtain ⟨hfull, hissue⟩ := access_issue he ans
  refine ⟨hfull, fun hc => ?_⟩
  obtain ⟨hal, herr, hpass⟩ := hissue hc
  refine ⟨hal, herr, fun s' va hs hok => ?_⟩
  obtain ⟨hheld, hdone⟩ := hpass s' va hs hok
  have hs' := CachesOnly.of_accessCheck hok
  subst he hk
  refine ⟨fun hq => ?_, fun hq hw => ?_, hheld⟩
  · have hends := hdone (acqReady_plain hq ..)
    rw [hplain hq, acceptLoad_plain hq] at hends
    obtain ⟨z, hz⟩ := thr?_counted ((hs'.thr? ..).trans rd.live)
    exact hends _ hz rfl
  · have hr := (hs'.readied b.core).trans ((hpre s' va).trans (.captureRange _ _ t m.space va n))
    have hacq := acceptLoad_acquires (pre s' va) (envOf s b t u h) th.pc m va n hs ty d [t] hq
    obtain ⟨z, hz⟩ := thr?_counted ((hr.thr? t).trans rd.live)
    obtain ⟨o, ho, htid, l, hl⟩ := hacq.holds
    refine ⟨_, l, hdone hw _ ((hacq.readied.thr? t).trans hz) rfl, ?_, o, ho, htid, hl⟩
    have hcount := (hacq.readied.count t .loads).trans ((count_counted _ _ _ rfl).trans (congrArg (· + 1) (hr.count t .loads)))
    exact Nat.le_of_eq hcount.symm

/-- An access within the scratchpad, where no tile stands, passes (R187). -/
theorem accessCheck_untiled {s : State} {e : Env} {sp : Space} {off n al : Nat} {k : Acc} (hsp : sp = .l) (ha : off % al = 0)
    (hin : off + n ≤ 65536 * (16 - (s.ctx e.c).l1units)) (ht : (s.ctx e.c).tiles = []) :
    accessCheck s e sp off n al k = .ok (s, off, []) := by
  subst hsp
  exact (accessCheck_scratch ha).trans (scratchAccess_passes (scratchCheck_clear hin (by simp [ht])))

theorem wordsOfType (ty : Ty) : (if ty == .b32 || ty.is64 then (ty.bits / 8 + 3) / 4 else 1) = if ty.is64 then 2 else 1 := by
  cases ty <;> rfl

/-- Settles O20: the four loads answer alike, but that `ldu` acts once for its bundle. -/
theorem loadsAccepted : Obligations.LoadsAccepted := by
  intro s b t th h m ty d a n4 load k
  have hthread : ∀ (i : Instr) (n al k : Nat) (ty' : Ty),
      exec i s = .next (perThread .app (loadUses m a d k) h (loadAct m n al ty' d h a) s) →
      (if ty' == .b32 || ty'.is64 then (n + 3) / 4 else 1) = k → load i false n al k ty' := fun i n al k ty' he hk rd =>
    load_issue rfl rd (answers_perThread rd he rfl) (pre := fun v _ => v) (fun _ _ => .refl ..) (fun _ _ _ => rfl) hk
  have hld := hthread (.ld h m ty d a) _ _ _ _ rfl (wordsOfType ty)
  refine ⟨hld, fun rd => ?_, hthread _ _ _ _ _ rfl rfl, hthread _ _ _ _ _ rfl ?_, fun rd hc hsp hq ha hin htl => ?_⟩
  · refine load_issue (pre := fun v va => if isAcq m.ord then captureRange v b.core t m.space va (ty.bits / 8) else v) rfl rd
      (answers_perBundle rd rfl ?_) (fun v va => ?_) (fun hq v va => ?_) (wordsOfType ty)
    · simp [accessAnswer, envOf] <;> rfl
    · split
      · exact .captureRange ..
      · exact .refl ..
    · rw [hq]
      rfl
  · exact (by omega : (4 * (n4.toNat + 1) + 3) / 4 = n4.toNat + 1)
  · obtain ⟨-, -, hissue⟩ := (hld rd).2 hc
    have hends := (hissue s _ [] (accessCheck_untiled hsp ha hin htl)).1 hq
    simp only [hsp] at hends ⊢
    exact hends

end Sys2Proof.Machine
end

section
/-! SETTLED. O23: stores. The acceptance of a store; what writes of a core's arrays and at home leave; a store that is held. -/
namespace Sys2Proof.Machine

/-! ### Acceptance (R141, R143, R205) -/

theorem Readied.ite {c : Nat} {s a b : State} {p : Prop} [Decidable p] (ha : Readied c s a) (hb : Readied c s b) :
    Readied c s (if p then a else b) := by
  split
  · exact ha
  · exact hb

/-- An accepted store is the core's newest operation. -/
theorem acceptStore_counted (s : State) (e : Env) (pc : DWord) (m : MMod) (va : Nat) (hs : List Home) (data : List Byte) :
    ∃ z, Readied e.c s z ∧
      acceptStore s e pc m va hs data = (addOp z e.c e.t .stores pc (.store m.space va data m.ord m.scope) hs m.evict.toNat).1 := by
  refine ⟨_, ?_, rfl⟩
  have hreads := (Readied.captureRange s e.c e.t m.space va data.length).trans (.ite (p := isRel m.ord = true) (.captureLoads _ _ e.t) (.refl ..))
  have hcaches : ∀ v w, Readied e.c v (if (m.space == .g) = true then
      (segs va data.length).foldl (fun s sg => enterSig s e.c (s.sigId e.c e.t) sg.1) (storeL1 v e.c w va data hs) else v) := fun v w =>
    .ite (((CachesOnly.storeL1 ..).trans (.foldl (fun _ _ => .enterSig ..) _ _)).readied _) (.refl ..)
  exact (hreads.trans (hcaches ..)).trans (.ite (.refl ..) (.ite (.post ..) (.dropPosts ..)))

/-- A store of one thread: it waits, raises, or is accepted with its bytes. -/
theorem store_issue {i : Instr} {s : State} {b : Bundle} {t : Nat} {th : Thread} {u : Uses} {h : Hdr} {m : MMod} {n al : Nat} {a : Src}
    {data : State → Env → List Byte} {e : Env} (he : e = envOf s b t u h) (rd : Ready s b t th .app u h)
    (hi : exec i s = .next (perThread .app u h (storeAct m n al h a data) s)) (hn : (data s e).length = n) :
    (s.count b.core t .stores ≥ 63 → Waits i s b t u h (.retry (.room .stores)) s) ∧
    (s.count b.core t .stores < 63 →
      (addrOf s e h m.space a % al ≠ 0 → Raises i s b t 0x03) ∧
      (∀ r, accessCheck s e m.space (addrOf s e h m.space a) (data s e).length al .store = .error r → Raises i s b t r.code) ∧
      (∀ s' va hs, accessCheck s e m.space (addrOf s e h m.space a) (data s e).length al .store = .ok (s', va, hs) →
        (∀ w, storeWait s e m = some w → Waits i s b t u h (.retry w) s) ∧
        (storeWait s e m = none → Ends i s b t u h (acceptStore s' e th.pc m va hs (data s e))) ∧
        s.count b.core t .stores + 1 ≤ (acceptStore s' e th.pc m va hs (data s e)).count b.core t .stores ∧
        ∃ l, ((acceptStore s' e th.pc m va hs (data s e)).ctx b.core).ops =
          l ++ [newOp s b.core t .stores th.pc (.store m.space va (data s e) m.ord m.scope) hs m.evict.toNat])) := by
  have ans := answers_perThread (r := accessAnswer .stores (accessCheck s e m.space (addrOf s e h m.space a) n al .store)
    (fun _ _ => storeWait s e m) (fun v va hs => acceptStore v e th.pc m va hs (data s e)) e s) rd hi (by subst he; rfl)
  obtain ⟨hfull, hissue⟩ := access_issue he ans
  subst hn
  refine ⟨hfull, fun hc => ?_⟩
  obtain ⟨hal, herr, hpass⟩ := hissue hc
  refine ⟨hal, herr, fun s' va hs hok => ?_⟩
  obtain ⟨hheld, hdone⟩ := hpass s' va hs hok
  obtain ⟨z, hz, hacc⟩ := acceptStore_counted s' e th.pc m va hs (data s e)
  have hr := ((CachesOnly.of_accessCheck hok).readied e.c).trans hz
  rw [hacc] at hdone ⊢
  subst he
  refine ⟨hheld, fun hw => hdone hw th ?_ rfl, Nat.le_of_eq (Eq.symm ?_), (z.ctx b.core).ops, (ops_addOp ..).trans ?_⟩
  · exact (thr?_addOp ..).trans ((hr.thr? t).trans rd.live)
  · exact (count_addOp _ _ _ _ _ rfl ..).trans (congrArg (· + 1) (hr.count ..))
  · exact congrArg (fun q => (z.ctx b.core).ops ++ [q]) (hr.newOp ..)

theorem captureRange_idle {s : State} {c : Nat} (h : (s.ctx c).ops = []) (t : Nat) (sp : Space) (va n : Nat) : captureRange s c t sp va n = s := by
  simp [captureRange, ownLoads, h]
theorem captureLoads_idle {s : State} {c : Nat} (h : (s.ctx c).ops = []) (t : Nat) : captureLoads s c t = s := by
  simp [captureLoads, ownLoads, h]
theorem storeWait_idle {s : State} {e : Env} (h : (s.ctx e.c).ops = []) (m : MMod) : storeWait s e m = none := by
  simp [storeWait, loadsSettled, releaseReady, ownLoads, h]
/-- A store to the scratchpad where nothing is outstanding is counted, and no more. -/
theorem acceptStore_idle {s : State} {e : Env} (h : (s.ctx e.c).ops = []) {m : MMod} (hsp : m.space = .l) (pc : DWord) (va : Nat) (hs : List Home)
    (data : List Byte) :
    acceptStore s e pc m va hs data = (addOp s e.c e.t .stores pc (.store .l va data m.ord m.scope) hs m.evict.toNat).1 := by
  simp [acceptStore, captureRange_idle h, captureLoads_idle h, hsp]

theorem length_bytesOf (n v : Nat) : (bytesOf n v).length = n := by simp [bytesOf]
theorem length_wordsOf (s : State) (e : Env) (h : Hdr) (b : Src) (k : Nat) : (wordsOf s e h b k).length = 4 * k := by
  simp [wordsOf, length_bytesOf, Nat.mul_comm]

theorem storesAccepted : StoresAccepted := by
  intro s b t th h m ty a q n4 words store ust bytes u4 um
  have hst : store (.st h m ty a q) ust (ty.bits / 8) bytes := fun rd =>
    store_issue (data := fun s e => bytesOf (ty.bits / 8) (rdVal s e h ty q).toNat) rfl rd rfl (length_bytesOf ..)
  refine ⟨hst, fun rd => store_issue (data := fun s e => wordsOf s e h q 4) rfl rd rfl (length_wordsOf ..),
    fun rd => store_issue (data := fun s e => wordsOf s e h q (n4.toNat + 1)) rfl rd rfl (length_wordsOf ..),
    fun rd => store_issue (data := fun _ _ => List.replicate 128 0) rfl rd rfl List.length_replicate, fun rd hops hsp ha hin htl => ?_⟩
  have hcount : s.count b.core t .stores < 63 := by simp [State.count, Ctx.count, hops]
  obtain ⟨-, -, hissue⟩ := (hst rd).2 hcount
  have hlen : bytes.length = ty.bits / 8 := length_bytesOf ..
  have hok := accessCheck_untiled (e := envOf s b t ust h) (n := bytes.length) (k := .store) hsp ha (hlen ▸ hin) htl
  obtain ⟨-, hends, -⟩ := hissue s _ [] hok
  have hends := hends (storeWait_idle (e := envOf s b t ust h) hops m)
  rwa [acceptStore_idle (e := envOf s b t ust h) hops hsp] at hends

/-! ### What a write leaves of a core's arrays, of memory and of the dies -/

/-- The operations and arrays of core `c` stand. -/
structure ArraysStand (c : Nat) (a b : State) : Prop where
  ops     : (b.ctx c).ops = (a.ctx c).ops
  scratch : (b.ctx c).scratch = (a.ctx c).scratch
  wbuf    : (b.ctx c).wbuf = (a.ctx c).wbuf
/-- So do its threads, memory and the dies. -/
structure BytesStand (c : Nat) (a b : State) : Prop extends ArraysStand c a b where
  threads : (b.ctx c).threads = (a.ctx c).threads
  mem     : b.mem = a.mem
  dies    : b.dies = a.dies

theorem ArraysStand.refl (c : Nat) (a : State) : ArraysStand c a a := ⟨rfl, rfl, rfl⟩
theorem ArraysStand.trans {c : Nat} {x y z : State} (h : ArraysStand c x y) (k : ArraysStand c y z) : ArraysStand c x z :=
  ⟨k.ops.trans h.ops, k.scratch.trans h.scratch, k.wbuf.trans h.wbuf⟩
theorem ArraysStand.foldl {α : Type} {c : Nat} {f : State → α → State} (hf : ∀ s a, ArraysStand c s (f s a)) (l : List α) :
    ∀ s, ArraysStand c s (l.foldl f s) := by
  induction l with
  | nil => exact .refl c
  | cons a l ih => exact fun s => (hf s a).trans (ih _)
theorem ArraysStand.of_ctx {c : Nat} {a b : State} (h : b.ctx c = a.ctx c) : ArraysStand c a b := by
  constructor <;> rw [h]
theorem BytesStand.refl (c : Nat) (a : State) : BytesStand c a a := ⟨.refl c a, rfl, rfl, rfl⟩
theorem BytesStand.trans {c : Nat} {x y z : State} (h : BytesStand c x y) (k : BytesStand c y z) : BytesStand c x z :=
  ⟨h.toArraysStand.trans k.toArraysStand, k.threads.trans h.threads, k.mem.trans h.mem, k.dies.trans h.dies⟩
theorem BytesStand.foldl {α : Type} {c : Nat} {f : State → α → State} (hf : ∀ s a, BytesStand c s (f s a)) (l : List α) :
    ∀ s, BytesStand c s (l.foldl f s) := by
  induction l with
  | nil => exact .refl c
  | cons a l ih => exact fun s => (hf s a).trans (ih _)

section
variable (s : State) (c : Nat)

theorem BytesStand.modCore {f : Core → Core} (hf : (f (s.core c)).ctx = (s.core c).ctx) : BytesStand c s (s.modCore c f) := by
  have hx : (s.modCore c f).ctx c = s.ctx c := by rw [State.ctx, State.core_modCore_self, hf]; rfl
  exact ⟨.of_ctx hx, congrArg Ctx.threads hx, rfl, rfl⟩
theorem BytesStand.modCtx {f : Ctx → Ctx} (ho : (f (s.ctx c)).ops = (s.ctx c).ops) (hs : (f (s.ctx c)).scratch = (s.ctx c).scratch)
    (hw : (f (s.ctx c)).wbuf = (s.ctx c).wbuf) (ht : (f (s.ctx c)).threads = (s.ctx c).threads) : BytesStand c s (s.modCtx c f) := by
  have hx : (s.modCtx c f).ctx c = f (s.ctx c) := by rw [State.ctx_modCtx, if_pos rfl]
  exact ⟨⟨(congrArg Ctx.ops hx).trans ho, (congrArg Ctx.scratch hx).trans hs, (congrArg Ctx.wbuf hx).trans hw⟩,
    (congrArg Ctx.threads hx).trans ht, rfl, rfl⟩
theorem BytesStand.modShadow (u : UnitId) (f : Shadow → Shadow) : BytesStand c s (modShadow s c u f) := by
  unfold Machine.modShadow
  split
  · exact .modCtx _ _ rfl rfl rfl rfl
  · exact .refl c s
theorem BytesStand.addShadow (u : UnitId) (f : Shadow → Shadow) : BytesStand c s (addShadow s c u f) := by
  unfold Machine.addShadow
  split
  · exact .refl c s
  · dsimp only
    split
    · exact .refl c s
    · split
      · exact .modShadow ..
      · have hframes : ∀ fr, BytesStand c s (s.takeFrames fr) := fun _ => ⟨.of_ctx rfl, rfl, rfl, rfl⟩
        exact ((hframes _).trans (.modCore _ _ rfl)).trans (.modShadow ..)
theorem BytesStand.cowScratch (u : UnitId) (off n : Nat) : BytesStand c s (cowScratch s c u off n) :=
  .foldl (fun s i => by
    dsimp only
    split
    · split
      · exact .refl c s
      · exact .addShadow ..
    · exact .refl c s) _ s
theorem BytesStand.markTorn (w : Bool) (off n : Nat) : BytesStand c s (markTorn s c w off n) := by
  unfold Machine.markTorn
  dsimp only
  split
  · exact .refl c s
  · exact .modCtx _ _ rfl rfl rfl rfl
theorem BytesStand.unmarkBytes (w : Bool) (off n : Nat) : BytesStand c s (unmarkBytes s c w off n) := by
  unfold Machine.unmarkBytes
  split
  · exact .refl c s
  · exact .modCore _ _ rfl
theorem BytesStand.noteLoose (w : Bool) (off n : Nat) (seen : List Nat) (wb : Option Nat) : BytesStand c s (noteLoose s c w off n seen wb) :=
  .modCtx _ _ rfl rfl rfl rfl
theorem BytesStand.dropPosts (p : PostAt) : BytesStand c s (dropPosts s c p) := by
  unfold Machine.dropPosts
  split
  · exact .refl c s
  · exact .modCtx _ _ rfl rfl rfl rfl
theorem BytesStand.post (t : Nat) (p : PostAt) (sc : Scope) : BytesStand c s (post s c t p sc) := by
  unfold Machine.post
  dsimp only
  split
  · exact .dropPosts ..
  · exact (BytesStand.dropPosts ..).trans (.modCtx _ _ rfl rfl rfl rfl)
theorem BytesStand.postOp (o : Op) (sp : Space) (va n : Nat) (ord : MOrd) (sc : Scope) : BytesStand c s (postOp s c o sp va n ord sc) := by
  unfold Machine.postOp
  split
  · exact .post ..
  · exact .dropPosts ..
theorem BytesStand.enterHeld (o : Op) (va : Nat) : BytesStand c s (enterHeld s c o va) := by
  unfold Machine.enterHeld Machine.enterSig joinSig setSig
  dsimp only
  split
  · exact BytesStand.trans (.modCore _ _ rfl) (.modCore _ _ rfl)
  · exact .modCore _ _ rfl

/-! ### What posts and address signatures leave outside the cores -/

theorem outside_dropPosts (p : PostAt) : (dropPosts s c p).outside = s.outside := by
  unfold dropPosts
  split <;> rfl
theorem outside_postOp (o : Op) (sp : Space) (va n : Nat) (ord : MOrd) (sc : Scope) : (postOp s c o sp va n ord sc).outside = s.outside := by
  unfold postOp
  split
  · unfold post
    dsimp only
    split
    · exact outside_dropPosts ..
    · exact outside_dropPosts ..
  · exact outside_dropPosts ..
theorem outside_enterHeld (o : Op) (va : Nat) : (enterHeld s c o va).outside = s.outside := by
  unfold enterHeld
  dsimp only
  split <;> rfl
end

section
variable {a b : State} (h : b.outside = a.outside)
include h
theorem mem_of_outside : b.mem = a.mem := (congrArg State.mem h :)
theorem homeLine_of_outside (w : Nat) (hm : Home) : homeLine b w hm = homeLine a w hm := (congrArg (homeLine · w hm) h :)
theorem l2?_of_outside (w va : Nat) : b.l2? w va = a.l2? w va := (congrArg (State.l2? · w va) h :)
end

/-! ### A store of the core's arrays (R186) -/

section
variable (s : State) (c : Nat) (o : Op) (va : Nat) (data : List Byte)

theorem writeScratch_stands (u : Option UnitId) : ∃ v, BytesStand c s v ∧ writeScratch s c u va data =
    v.modCtx c fun x => { x with scratch := pokeL x.scratch va data, loose := x.loose.filter (!·.inside false va data.length) } := by
  cases u with
  | none => exact ⟨_, (BytesStand.markTorn s c false va data.length).trans (.unmarkBytes ..), rfl⟩
  | some u => exact ⟨_, ((BytesStand.cowScratch s c u va data.length).trans (.markTorn ..)).trans (.unmarkBytes _ c false va data.length), rfl⟩
/-- A store to the scratchpad changes its bytes and nothing else that `BytesStand` names. -/
theorem writeLocal_stands : ((writeLocal s c o va data).ctx c).ops = (s.ctx c).ops ∧ ((writeLocal s c o va data).ctx c).wbuf = (s.ctx c).wbuf ∧
    ((writeLocal s c o va data).ctx c).threads = (s.ctx c).threads ∧ (writeLocal s c o va data).mem = s.mem ∧
    (writeLocal s c o va data).dies = s.dies := by
  obtain ⟨v, ⟨⟨ho, -, hw⟩, ht, hm, hd⟩, hv⟩ := writeScratch_stands s c va data
    (if o.retired.isNone then some (s.unitOf c o.tid) else none)
  unfold writeLocal noteLoose
  rw [hv]
  simp only [State.ctx_modCtx, if_pos]
  exact ⟨ho, hw, ht, hm, hd⟩
theorem threads_writeLocal : ((writeLocal s c o va data).ctx c).threads = (s.ctx c).threads := by
  obtain ⟨-, -, ht, -⟩ := writeLocal_stands s c o va data
  exact ht
/-- A store to the weight buffer changes its bytes and nothing else that `BytesStand` names. -/
theorem writeWbuf_stands : ((writeWbuf s c va data).ctx c).ops = (s.ctx c).ops ∧ ((writeWbuf s c va data).ctx c).scratch = (s.ctx c).scratch ∧
    ((writeWbuf s c va data).ctx c).wbuf = pokeL (s.ctx c).wbuf va data ∧ (writeWbuf s c va data).mem = s.mem ∧
    (writeWbuf s c va data).dies = s.dies := by
  obtain ⟨⟨ho, hs, hw⟩, -, hm, hd⟩ := (BytesStand.markTorn s c true va data.length).trans (.unmarkBytes _ c true va data.length)
  unfold writeWbuf
  simp only [State.ctx_modCtx, if_pos]
  exact ⟨ho, hs, congrArg (pokeL · va data) hw, hm, hd⟩
end

/-! ### A store at home (R291, R294) -/

theorem ctx_wakeLine (s : State) (w va c : Nat) : ∃ p t, (wakeLine s w va).ctx c = { s.ctx c with posts := p, threads := t } := by
  simp only [State.ctx, State.core, wakeLine_cores, Map.look_each]
  cases s.cores.look c with
  | none => exact ⟨_, _, rfl⟩
  | some k => exact ⟨_, _, rfl⟩
theorem ArraysStand.homeWrite (s : State) (w die : Nat) (h : Home) (off : Nat) (d : List Byte) (sig : Option (Sig × Bool)) (prio c : Nat) :
    ArraysStand c s (homeWrite s w die h off d sig prio) := by
  obtain ⟨v, hv, ho, -⟩ := homeWrite_eq_wake s w die h off d sig prio
  obtain ⟨p, t, hx⟩ := ctx_wakeLine v w h.va c
  rw [(CachesOnly.of_homeOnly ho).ctx] at hx
  rw [hv]
  exact ⟨(congrArg Ctx.ops hx :), (congrArg Ctx.scratch hx :), (congrArg Ctx.wbuf hx :)⟩
theorem ArraysStand.homeWriteN (s : State) (w die va : Nat) (d : List Byte) (hs : List Home) (sig : Option (Sig × Bool)) (prio c : Nat) :
    ArraysStand c s (homeWriteN s w die va d hs sig prio) := .foldl (fun _ _ => .homeWrite ..) _ s
/-- A range within a line has one part to write. -/
theorem homeWriteN_within {va : Nat} {d : List Byte} (hn : 0 < d.length) (hl : va % 128 + d.length ≤ 128) (s : State) (w die : Nat) (h : Home)
    (sig : Option (Sig × Bool)) (prio : Nat) : homeWriteN s w die va d [h] sig prio = homeWrite s w die h (va % 128) d sig prio := by
  rw [homeWriteN, segs_within hn hl]
  simp

theorem outside_wakeLine (s : State) (w va : Nat) : (wakeLine s w va).outside = s.outside := rfl
/-- A change to a line of the L2 leaves every other line. -/
theorem l2?_modL2_ne {s : State} {w va w' va' : Nat} (hne : w' ≠ w ∨ va' ≠ va) {f : L2Line → L2Line}
    (hf : ∀ l, (f l).world = l.world ∧ (f l).va = l.va) : (s.modL2 w va f).l2? w' va' = s.l2? w' va' := by
  have hp : (fun l : L2Line => l.world == w' && l.va == va') ∘ (fun l => if (l.world == w && l.va == va) = true then f l else l) =
      fun l => l.world == w' && l.va == va' := by
    funext l
    rw [Function.comp_apply]
    split
    · rw [(hf l).1, (hf l).2]
    · rfl
  rw [State.l2?, (HomeOnly.modL2 ..).homeDie, State.modL2, die_modDie]
  split
  · next hd =>
    rw [List.find?_map, hp, State.l2?, hd]
    cases hl : (s.die (s.homeDie w va)).l2.find? fun l => l.world == w' && l.va == va' with
    | none => rfl
    | some l =>
      have hl := List.find?_some hl
      simp only [Bool.and_eq_true, beq_iff_eq] at hl
      simp only [Option.map_some, Option.some.injEq, ite_eq_right_iff, Bool.and_eq_true, beq_iff_eq]
      rintro ⟨rfl, rfl⟩
      simp_all
  · rfl
theorem mem_dropFar (s : State) (die w va : Nat) : (dropFar s die w va).mem = s.mem := by
  unfold dropFar
  split <;> rfl
/-- A write that its line's stored size has room for reaches no memory and no other line. -/
theorem homeWrite_inPlace {s : State} {w off : Nat} {h : Home} {d : List Byte} {l : L2Line} (hw : windowLine s w h.va = false)
    (hl : s.l2? w h.va = some l) (hsize : (format (lineOfBytes (overlay (lineBytes l.data) off d))).2 ≤ (format l.data).2)
    (die : Nat) (sig : Option (Sig × Bool)) (prio : Nat) :
    (homeWrite s w die h off d sig prio).mem = s.mem ∧
    ∀ w' va', w' ≠ w ∨ va' ≠ h.va → (homeWrite s w die h off d sig prio).l2? w' va' = s.l2? w' va' := by
  obtain ⟨d', hd, he⟩ := homeWrite_steps s w die h off d sig prio
  obtain rfl := hd hw
  have hfill : fillL2 s w h prio = s.modL2 w h.va fun l => { l with used := s.tick } := by
    unfold fillL2
    rw [hl]
  have hused : (fillL2 s w h prio).l2? w h.va = some { l with used := s.tick } := by
    rw [hfill, l2?_modL2 (f := fun l => { l with used := s.tick }) _ _ _ fun _ => ⟨rfl, rfl⟩, hl]
    rfl
  have hroom : roomToGrow (fillL2 s w h prio) w h off d' = fillL2 s w h prio := by
    unfold roomToGrow
    rw [hused]
    dsimp only
    rw [if_pos hsize]
  rw [he, hroom, hfill]
  refine ⟨(mem_of_outside (outside_wakeLine ..)).trans ((mem_dropFar ..).trans rfl), fun w' va' hne => ?_⟩
  rw [l2?_of_outside (outside_wakeLine ..), l2?_dropFar, l2?_modL2_ne (f := L2Line.written off d' sig prio) hne fun _ => ⟨rfl, rfl⟩,
    l2?_modL2_ne (f := fun l => { l with used := s.tick }) hne fun _ => ⟨rfl, rfl⟩]

/-! ### A store that is held -/

section
variable {s : State} {c id va : Nat} {o : Op} {sp : Space} {data : List Byte} {ord : MOrd} {sc : Scope} 
  (hb : o.body = .store sp va data ord sc)
include hb

theorem exec_storeHeldAtHome (hop : s.op? c id = some o) (hdone : o.done = false) : exec (.storeHeldAtHome c id) s = .next (holdStore s c o) := by
  show execStoreHeldAtHome c id s = _
  unfold execStoreHeldAtHome
  simp [hop, hdone, hb]
theorem holdStore_waits (hr : storeReady s c o = false) : holdStore s c o = s := by
  simp [holdStore, hb, hr]
/-- A store that is held writes, leaves what an acquire may find, and is done. -/
theorem holdStore_scratch (hr : storeReady s c o = true) (hl : sp = .l ∨ sp = .k) :
    holdStore s c o = finishOp (postOp (writeLocal s c o va data) c o sp va data.length ord sc) c o.id := by
  rcases hl with rfl | rfl <;> simp [holdStore, hb, hr]
theorem holdStore_wbuf (hr : storeReady s c o = true) (hw : sp = .w) :
    holdStore s c o = finishOp (postOp (noteLoose (writeWbuf s c va data) c true va data.length o.live) c o sp va data.length ord sc) c o.id := by
  subst hw
  simp [holdStore, hb, hr]
theorem holdStore_home (hr : storeReady s c o = true) (hg : sp = .g) :
    ∃ sg, holdStore s c o = finishOp (postOp ((segs va data.length).foldl (fun s q => enterHeld s c o q.1)
      (homeWriteN s o.world (dieOf c) va data o.homes sg o.evict)) c o sp va data.length ord sc) c o.id := by
  subst hg
  exact ⟨if isRel ord && farScope sc then some (carried s c o.sgn, true) else none, by simp [holdStore, hb, hr]⟩

/-- A store that a core's array holds. -/
theorem scratchStore_held (hr : storeReady s c o = true) (hl : sp = .l ∨ sp = .k) : ∃ v, holdStore s c o = finishOp v c o.id ∧
    (v.ctx c).ops = (s.ctx c).ops ∧
    (∀ a, peek (v.ctx c).scratch a = if va ≤ a ∧ a < va + data.length then data.getD (a - va) 0 else peek (s.ctx c).scratch a) ∧
    (v.ctx c).wbuf = (s.ctx c).wbuf ∧ v.mem = s.mem ∧ v.dies = s.dies := by
  obtain ⟨ho, hw, -, hm, hd⟩ := writeLocal_stands s c o va data
  obtain ⟨⟨po, ps, pw⟩, -, pm, pd⟩ := BytesStand.postOp (writeLocal s c o va data) c o sp va data.length ord sc
  refine ⟨_, holdStore_scratch hb hr hl, po.trans ho, fun a => ?_, pw.trans hw, pm.trans hm, pd.trans hd⟩
  rw [ps, scratch_writeLocal, peek_pokeL]
theorem wbufStore_held (hr : storeReady s c o = true) (hsp : sp = .w) : ∃ v, holdStore s c o = finishOp v c o.id ∧
    (v.ctx c).ops = (s.ctx c).ops ∧ (v.ctx c).scratch = (s.ctx c).scratch ∧
    (∀ a, peek (v.ctx c).wbuf a = if va ≤ a ∧ a < va + data.length then data.getD (a - va) 0 else peek (s.ctx c).wbuf a) ∧
    v.mem = s.mem ∧ v.dies = s.dies := by
  obtain ⟨ho, hs, hw, hm, hd⟩ := writeWbuf_stands s c va data
  obtain ⟨⟨po, ps, pw⟩, -, pm, pd⟩ := (BytesStand.noteLoose (writeWbuf s c va data) c true va data.length o.live none).trans
    (.postOp _ c o sp va data.length ord sc)
  refine ⟨_, holdStore_wbuf hb hr hsp, po.trans ho, ps.trans hs, fun a => ?_, pm.trans hm, pd.trans hd⟩
  rw [pw, hw, peek_pokeL]
/-- A store that its home holds. -/
theorem homeStore_held (hr : storeReady s c o = true) (hsp : sp = .g) : ∃ v, holdStore s c o = finishOp v c o.id ∧ ArraysStand c s v ∧
    ∀ hm p, o.homes = [hm] → hm.pa = some p → windowLine s o.world hm.va = false → 0 < data.length → va % 128 + data.length ≤ 128 →
      homeLine v o.world hm = lineOfBytes (overlay (lineBytes (homeLine s o.world hm)) (va % 128) data) ∧
      (∀ l, s.l2? o.world hm.va = some l →
        (format (lineOfBytes (overlay (lineBytes l.data) (va % 128) data))).2 ≤ (format l.data).2 → v.mem = s.mem ∧
        ∀ w' va', (w' ≠ o.world ∨ va' ≠ hm.va) → v.l2? w' va' = s.l2? w' va') := by
  obtain ⟨sg, he⟩ := holdStore_home hb hr hsp
  have hwrite := ArraysStand.homeWriteN s o.world (dieOf c) va data o.homes sg o.evict c
  have hheld := BytesStand.foldl (fun s (q : Nat × Nat × Nat × Nat) => BytesStand.enterHeld s c o q.1) (segs va data.length)
    (homeWriteN s o.world (dieOf c) va data o.homes sg o.evict)
  refine ⟨_, he, hwrite.trans (hheld.trans (.postOp ..)).toArraysStand, fun hm p hh hp hw hn hl => ?_⟩
  have hkeep : ∀ (z : State) (q : Nat × Nat × Nat × Nat), (enterHeld z c o q.1).outside = z.outside := fun z q => outside_enterHeld z c o q.1
  have hout := (outside_postOp _ c o sp va data.length ord sc).trans
    (foldl_keeps hkeep (segs va data.length) (homeWriteN s o.world (dieOf c) va data o.homes sg o.evict))
  have hone : homeWriteN s o.world (dieOf c) va data o.homes sg o.evict = homeWrite s o.world (dieOf c) hm (va % 128) data sg o.evict := by
    rw [hh]
    exact homeWriteN_within hn hl ..
  have hout := hout.trans (congrArg State.outside hone)
  refine ⟨(homeLine_of_outside hout ..).trans (homeLine_homeWrite hp hw ..), fun l hl2 hsize => ?_⟩
  obtain ⟨hmem, hother⟩ := homeWrite_inPlace hw hl2 hsize (dieOf c) sg o.evict
  exact ⟨(mem_of_outside hout).trans hmem, fun w' va' hne => (l2?_of_outside hout w' va').trans (hother w' va' hne)⟩
end

theorem storesHeld : StoresHeld := by
  intro s c id o sp va data ord sc hop hdone hb
  rw [exec_storeHeldAtHome hb hop hdone]
  refine ⟨fun hr => congrArg _ (holdStore_waits hb hr), fun hr => ?_⟩
  cases sp with
  | l =>
    obtain ⟨v, he, ho, hs, hw, hm, hd⟩ := scratchStore_held hb hr (.inl rfl)
    refine ⟨v, congrArg _ he, ho, fun _ => hs, fun _ => ⟨hw, hm, hd⟩, nofun, nofun⟩
  | k =>
    obtain ⟨v, he, ho, hs, hw, hm, hd⟩ := scratchStore_held hb hr (.inr rfl)
    refine ⟨v, congrArg _ he, ho, nofun, fun _ => ⟨hw, hm, hd⟩, nofun, nofun⟩
  | w =>
    obtain ⟨v, he, ho, hs, hw, hm, hd⟩ := wbufStore_held hb hr rfl
    refine ⟨v, congrArg _ he, ho, nofun, fun h => by simp at h, fun _ => ⟨hm, hd, hs, hw⟩, nofun⟩
  | g =>
    obtain ⟨v, he, ⟨ho, hs, hw⟩, hhome⟩ := homeStore_held hb hr rfl
    exact ⟨v, congrArg _ he, ho, nofun, fun h => by simp at h, nofun, fun _ => ⟨hs, hw, hhome⟩⟩

/-- Settles O23: a store's acceptance, and what it leaves once it is held. -/
theorem stores : Obligations.Stores := ⟨storesAccepted, storesHeld⟩

end Sys2Proof.Machine
end

section
/-! SETTLED. O24: an atomic is counted, and where it acquires performed at once. -/
namespace Sys2Proof.Machine

/-! ### Where a thread goes on -/

/-- The thread in a slot goes on where it was. -/
def PcStands (c t : Nat) (a b : State) : Prop := (b.thr? c t).map Thread.pc = (a.thr? c t).map Thread.pc

theorem PcStands.refl (c t : Nat) (a : State) : PcStands c t a a := rfl
theorem PcStands.trans {c t : Nat} {x y z : State} (h : PcStands c t x y) (k : PcStands c t y z) : PcStands c t x z := Eq.trans k h
theorem PcStands.of_threads {c : Nat} {a b : State} (h : (b.ctx c).threads = (a.ctx c).threads) (t : Nat) : PcStands c t a b := by
  rw [PcStands, State.thr?, State.thr?, h]
theorem PcStands.of_waits {a b : State} (h : WaitsOnly a b) (c t : Nat) : PcStands c t a b := by
  have h := congrArg (Option.map Thread.pc) (h.thr c t)
  rw [Option.map_map, Option.map_map] at h
  exact h
theorem PcStands.modThr (s : State) (c t c' t' : Nat) {f : Thread → Thread} (hf : ∀ th, (f th).pc = th.pc) :
    PcStands c t s (s.modThr c' t' f) := by
  rw [PcStands, State.thr?_modThr]
  split
  · next h =>
    obtain ⟨rfl, rfl⟩ := h
    rw [Option.map_map]
    exact congrArg (Option.map · _) (funext hf)
  · rfl
theorem PcStands.failOp {o : Op} (ho : o.retired = none) (s : State) (c t c' : Nat) (code : BitVec 6) (elem : Word) (addr : DWord) :
    PcStands c t s (failOp s c' o code elem addr) := by
  unfold Machine.failOp
  rw [ho]
  exact .modThr _ _ _ _ _ fun _ => rfl
/-- The thread that goes on is live. -/
theorem PcStands.live {c t : Nat} {a b : State} (h : PcStands c t a b) {th : Thread} (ha : a.thr? c t = some th) :
    ∃ x, b.thr? c t = some x ∧ x.pc = th.pc := by
  rw [PcStands, ha] at h
  exact Option.map_eq_some_iff.1 h

/-! ### An atomic that acquires is performed (R145, log 44) -/

theorem PcStands.setRmwVal (s : State) (c t id : Nat) (v : DWord) : PcStands c t s (setRmwVal s c id v) :=
  .of_threads (by simp [Machine.setRmwVal, State.modOp]) t
theorem PcStands.failed {o : Op} (ho : o.retired = none) (s : State) (c t : Nat) (code : BitVec 6) (elem : Word) (addr : DWord) :
    PcStands c t s (Machine.failOp (finishOp s c o.id) c o code elem addr) :=
  (PcStands.of_threads (by simp [finishOp]) t).trans (.failOp ho ..)
theorem cores_postVector (s : State) (w v : Nat) : (postVector s w v).cores = s.cores := by
  unfold postVector
  split
  · rfl
  · split <;> rfl
theorem cores_postBell (s : State) (w : Nat) : (postBell s w).cores = s.cores := by
  unfold postBell
  dsimp only
  exact foldl_keeps (g := State.cores) (f := fun z v => if ((s.bells.look w).getD {}).pending.testBit v then postVector z w v else z) (fun z v => by
    split
    · exact cores_postVector ..
    · rfl) (List.range 16) s
theorem cores_ring (s : State) (w v : Nat) : (ring s w v).cores = s.cores := by
  unfold ring
  dsimp only
  split
  · rfl
  · split
    · exact cores_postBell ..
    · rfl
theorem PcStands.heldHome (s : State) (c t : Nat) (o : Op) (w die : Nat) (h : Home) (off : Nat) (d : List Byte) (sig : Option (Sig × Bool))
    (prio : Nat) (p : CLine → Bool) (va : Nat) : PcStands c t s (enterHeld (dropL1 (homeWrite s w die h off d sig prio) c p) c o va) :=
  (PcStands.of_waits ((WaitsOnly.homeWrite s w die h off d sig prio).trans (CachesOnly.dropL1 ..).waits) c t).trans
    (.of_threads (BytesStand.enterHeld ..).threads t)
theorem PcStands.performRmw (s : State) (c t : Nat) (o : Op) : PcStands c t s (performRmw s c o).1 := by
  unfold Machine.performRmw
  split
  · next sp va n r d ord sc x hb =>
    split
    · exact .refl ..
    · split
      · exact .of_threads (threads_writeLocal ..) t
      · dsimp only
        split
        · exact .of_threads (by rw [State.ctx, State.core, cores_ring]; rfl) t
        · split
          · exact .of_waits (CachesOnly.fillL2 ..).waits ..
          · exact (PcStands.of_waits (CachesOnly.fillL2 ..).waits ..).trans (.heldHome ..)
  · exact .refl ..

/-- What an atomic accepted leaves before an acquire performs it. -/
def rmwCounted (z : State) (e : Env) (pc : DWord) (m : MMod) (va : Nat) (hs : List Home) (r : Rmw) (d : Dst) (k : Cls) : State :=
  markHazard (addOp z e.c e.t k pc (.rmw m.space va r.size r d m.ord m.scope none) hs m.evict.toNat e.low).1 e.c e.t
    (OpBody.rmw m.space va r.size r d m.ord m.scope none).hazard e.low

/-- An atomic is counted; one that acquires is then performed, and its thread goes on where it was. -/
theorem acceptRmw_counted (s : State) (e : Env) (pc : DWord) (m : MMod) (va : Nat) (hs : List Home) (r : Rmw) (d : Dst) (k : Cls) :
    ∃ z, Readied e.c s z ∧ (isAcq m.ord = false → acceptRmw s e pc m va hs r d k = rmwCounted z e pc m va hs r d k) ∧
      PcStands e.c e.t (rmwCounted z e pc m va hs r d k) (acceptRmw s e pc m va hs r d k) := by
  have hreads := (Readied.captureRange s e.c e.t m.space va r.size).trans (.ite (p := (m.ord == .rlx) = true) (.refl ..) (.captureLoads _ _ e.t))
  have hready := (hreads.trans (.irrevocable _ _ e.t)).trans (.ite (p := (m.space == .g) = true)
    (((CachesOnly.dropL1 _ e.c fun l => l.world == s.actWorld e.c e.t && hs.any fun h => h.va == l.va).trans
      (.enterSig _ e.c (s.sigId e.c e.t) (lineVa va))).readied _) (.refl ..))
  refine ⟨_, hready, fun hq => ?_, ?_⟩
  · unfold acceptRmw
    simp only [hq]
    rfl
  · unfold acceptRmw
    extract_lets w a s1 s2 s3 s4 body o z y sc
    change PcStands e.c e.t z _
    split
    · have hperf := PcStands.performRmw y e.c e.t o
      generalize performRmw y e.c o = p at hperf ⊢
      obtain ⟨x, v⟩ := p
      have hpost := ((PcStands.of_waits (.takePosts z e.c e.t (.bytes w m.space va r.size) sc) ..).trans hperf).trans
        (.of_threads (BytesStand.postOp x e.c o m.space va r.size m.ord m.scope).threads _)
      dsimp only
      split
      · refine PcStands.trans ?_ (.of_waits (CachesOnly.acquireLine ..).waits ..)
        split
        · exact hpost.trans (.setRmwVal ..)
        · exact hpost.trans (.failed rfl ..)
      · refine PcStands.trans ?_ (.of_waits (CachesOnly.ite (.refl _) (.dropConst ..)).waits ..)
        split
        · exact hpost.trans (.setRmwVal ..)
        · exact hpost.trans (.failed rfl ..)
    · exact .refl ..

/-- An atomic of one thread: it waits, raises, or is accepted. -/
theorem rmw_issue {i : Instr} {s : State} {b : Bundle} {t : Nat} {th : Thread} {u : Uses} {h : Hdr} {k : Cls} {m : MMod} {a : Src} {d : Dst}
    {n : Nat} {r : Rmw} {rf : State → Env → Rmw} {e : Env} (he : e = envOf s b t u h) (rd : Ready s b t th .app u h)
    (hi : exec i s = .next (perThread .app u h (rmwAct m k h a d rf) s)) (hr : rf s e = r) (hn : r.size = n) :
    (s.count b.core t k ≥ 63 → Waits i s b t u h (.retry (.room k)) s) ∧
    (s.count b.core t k < 63 →
      (addrOf s e h m.space a % n ≠ 0 → Raises i s b t 0x03) ∧
      (∀ y, accessCheck s e m.space (addrOf s e h m.space a) n n (r.acc (addrOf s e h m.space a)) = .error y → Raises i s b t y.code) ∧
      (∀ s' va hs, accessCheck s e m.space (addrOf s e h m.space a) n n (r.acc (addrOf s e h m.space a)) = .ok (s', va, hs) →
        (∀ w, rmwWait s e m va n hs = some w → Waits i s b t u h (.retry w) s) ∧
        (rmwWait s e m va n hs = none → Ends i s b t u h (acceptRmw s' e th.pc m va hs r d k)) ∧
        (isAcq m.ord = false →
          s.count b.core t k + 1 ≤ (acceptRmw s' e th.pc m va hs r d k).count b.core t k ∧
          ∃ l, ((acceptRmw s' e th.pc m va hs r d k).ctx b.core).ops =
            l ++ [newOp s b.core t k th.pc (.rmw m.space va n r d m.ord m.scope none) hs m.evict.toNat]))) := by
  subst hr hn
  have ans := answers_perThread (r := accessAnswer k (accessCheck s e m.space (addrOf s e h m.space a) (rf s e).size (rf s e).size
      ((rf s e).acc (addrOf s e h m.space a))) (fun va hs => rmwWait s e m va (rf s e).size hs)
    (fun v va hs => acceptRmw v e th.pc m va hs (rf s e) d k) e s) rd hi (by subst he; rfl)
  obtain ⟨hfull, hissue⟩ := access_issue he ans
  refine ⟨hfull, fun hc => ?_⟩
  obtain ⟨hal, herr, hpass⟩ := hissue hc
  refine ⟨hal, herr, fun s' va hs hok => ?_⟩
  obtain ⟨hheld, hdone⟩ := hpass s' va hs hok
  obtain ⟨z, hz, hplain, hpc⟩ := acceptRmw_counted s' e th.pc m va hs (rf s e) d k
  have hready := ((CachesOnly.of_accessCheck hok).readied e.c).trans hz
  subst he
  refine ⟨hheld, fun hw => ?_, fun hq => ?_⟩
  · obtain ⟨x, hx⟩ := thr?_counted ((hready.thr? t).trans rd.live)
    obtain ⟨y, hy, hyp⟩ := hpc.live hx
    exact hdone hw y hy hyp
  · rw [hplain hq]
    refine ⟨Nat.le_of_eq (Eq.symm ?_), (z.ctx b.core).ops, ?_⟩
    · exact (count_counted _ _ _ rfl).trans (congrArg (· + 1) (hready.count ..))
    · refine ((ops_markHazard ..).trans (ops_addOp ..)).trans ?_
      exact congrArg (fun q => (z.ctx b.core).ops ++ [q]) (hready.newOp ..)

/-! ### Doorbells (R352, log 75) -/

/-- A doorbell page takes no other access than a ring. -/
theorem globalCheck_doorbell {s : State} {c t va n : Nat} {k : Acc} {hs : List Home} (hr : rangeCheck s c (s.actWorld c t) va n k = .ok hs)
    (hd : hs.any (isDoorbell (s.actWorld c t)) = true) (hk : k ≠ .ring) : globalCheck s c t va n k = .error (0x05, va) := by
  simp [globalCheck, hr, hd, hk]

/-- A word's `or` that rings names a bell and its bit. -/
theorem doorOk_or {va : Nat} {x : DWord} : doorOk va (.int .or .b32 x) = true ↔ x.setWidth 32 ≠ 0#32 ∧ va % 4096 < 64 := by
  simp [doorOk, Ty.is64]

/-- Settles O24: the doorbells; then the four atomics answer alike. -/
theorem atomicsAccepted : Obligations.AtomicsAccepted := by
  intro s b t th h m op fop ty d a q r atomic u1 ug uc uf val
  refine ⟨fun e va n al k hs ha hr hd hk => ⟨raiseAt va 0x05, ?_, rfl⟩,
    fun w va g hm hd => ⟨fun ht => ?_, fun tk ht hp => ⟨fun hm ho hg => ?_, fun hm hh => ?_⟩⟩, fun va x => ?_,
    fun rd => rmw_issue rfl rd rfl rfl rfl, fun rd => rmw_issue rfl rd rfl rfl rfl, fun rd => rmw_issue rfl rd rfl rfl rfl,
    fun rd => rmw_issue rfl rd rfl rfl rfl⟩
  · simp only [accessCheck_global ha, globalAccess, globalCheck_doorbell hr hd hk]
  · simp only [tokenStep, tokenCheck_eq ht]
    rfl
  · simp only [tokenStep, tokenCheck_eq ht]
    simp [ht, heldBy_owner hp hm hg, ho, hd]
  · simp only [tokenStep, tokenCheck_eq ht]
    simp [ht, heldBy_holder hp (by rw [hm]; decide) hh, hm]
  · exact if_congr doorOk_or rfl rfl

end Sys2Proof.Machine
end

section
/-! SETTLED. O26: prefetch, fence, `wait`, `inv` and `flush`. -/
namespace Sys2Proof.Machine

/-! ### Prefetch (R148, log 57) -/

theorem CachesOnly.prefetch (s : State) (c w va : Nat) (h : Home) (prio : Nat) : CachesOnly s (prefetch s c w va h prio) := by
  unfold Machine.prefetch State.modL2
  exact (((CachesOnly.loadFill ..).trans (.fillL2 ..)).trans (.modDie ..)).trans (.modCore rfl)

/-- A line that misses while a store of the core is on its way to it. -/
def prfHeld (s : State) (c w va : Nat) (x : Home) : Bool :=
  (l1Hit s c w (lineVa va) x).isNone && lineBusy (s.ctx c) (s.ctx c).nextOp w x.va
/-- `prf` for its thread. -/
def prfAct (h : Hdr) (ev : BitVec 3) (a : Src) (e : Env) (_ : DWord) (s : State) : Res :=
  match globalCheck s e.c e.t (addrOf s e h .g a) 1 .load with
  | .error _ => .done s
  | .ok (s', hs) => match hs.find? (prfHeld s e.c (s.actWorld e.c e.t) (addrOf s e h .g a)) with
    | some x => .wait s (.retry (.line (s.actWorld e.c e.t) x.va))
    | none => .done (hs.foldl (fun z x => prefetch z e.c (s.actWorld e.c e.t) (lineVa (addrOf s e h .g a)) x ev.toNat) s')
theorem exec_prf (h : Hdr) (ev : BitVec 3) (a : Src) (s : State) :
    exec (.prf h ev a) s = .next (perThread .app { srcs := baseUses .g a } h (prfAct h ev a) s) := rfl

section
variable {s s' : State} {b : Bundle} {t : Nat} {th : Thread} {h : Hdr} {ev : BitVec 3} {a : Src} {u : Uses} {e : Env} {hs : List Home}
  (hu : u = { srcs := baseUses .g a }) (he : e = envOf s b t u h) (rd : Ready s b t th .app u h)
include hu he rd

theorem answers_prf : Answers (.prf h ev a) s b t th u h (prfAct h ev a e th.pc s) := by
  subst hu he
  exact answers_perThread rd (exec_prf ..) rfl
theorem prf_dropped {x : BitVec 6 × Nat} (hx : globalCheck s b.core t (addrOf s e h .g a) 1 .load = .error x) :
    Ends (.prf h ev a) s b t u h s := by
  refine (answers_prf hu he rd).done ?_ rd.live rfl
  subst he
  rw [envOf] at hx ⊢
  rw [prfAct, hx]
variable (hok : globalCheck s b.core t (addrOf s e h .g a) 1 .load = .ok (s', hs))
include hok
/-- A prefetch fills the caches for its lines, and no more. -/
theorem prf_fills (hf : hs.find? (prfHeld s b.core (s.actWorld b.core t) (addrOf s e h .g a)) = none) :
    ∃ v, Ends (.prf h ev a) s b t u h v ∧ CachesOnly s v := by
  have hv := (CachesOnly.globalCheck hok).trans
    (.foldl (fun z x => .prefetch z b.core (s.actWorld b.core t) (lineVa (addrOf s e h .g a)) x ev.toNat) hs s')
  refine ⟨_, (answers_prf hu he rd).done ?_ ((hv.thr? ..).trans rd.live) rfl, hv⟩
  subst he
  rw [envOf] at hok hf ⊢
  rw [prfAct, hok]
  dsimp only
  rw [hf]
theorem prf_waits {x : Home} (hf : hs.find? (prfHeld s b.core (s.actWorld b.core t) (addrOf s e h .g a)) = some x) :
    Waits (.prf h ev a) s b t u h (.retry (.line (s.actWorld b.core t) x.va)) s := by
  refine (answers_prf hu he rd).wait ?_
  subst he
  rw [envOf] at hok hf ⊢
  rw [prfAct, hok]
  dsimp only
  rw [hf]
end

/-! ### Fence (R149) -/

section
variable {s : State} {b : Bundle} {t : Nat} {th : Thread} {h : Hdr} {ord : MOrd} {sc : Scope} (rd : Ready s b t th .app {} h)
include rd

theorem fence_waits (ho : isRel ord = true) (hr : releaseReady s b.core t sc = false) :
    Waits (.fence h ord sc) s b t {} h (.retry (.released sc)) s :=
  waits_of_act rd rfl (if_pos (by simp [envOf, ho, hr]))
theorem fence_ends (hr : isRel ord = false ∨ releaseReady s b.core t sc = true) (hl : loadsSettled s b.core t = true) :
    Ends (.fence h ord sc) s b t {} h (if isAcq ord then acquireAll (captureLoads s b.core t) b.core (s.actWorld b.core t) sc
      else captureLoads s b.core t) := by
  have hcap := Readied.captureLoads s b.core t
  rw [← hcap.actWorld t]
  refine (answers_perThread rd rfl ((if_neg ?_).trans (if_neg ?_))).done rfl (x := th) ?_ rfl
  · rcases hr with hr | hr <;> simp [envOf, hr]
  · simp [envOf, hl]
  · split
    · exact ((CachesOnly.acquireAll ..).thr? ..).trans ((hcap.thr? t).trans rd.live)
    · exact (hcap.thr? t).trans rd.live
end

/-! ### `wait` (R150, R201) -/

/-- The four limits are fields of the immediate. -/
theorem waitLimits_eq (v : Word) : waitLimits v = (v.toNat % 64, v.toNat / 256 % 64, v.toNat / 65536 % 64, v.toNat / 16777216 % 64) := by
  simp [waitLimits, BitVec.extractLsb'_toNat, Nat.shiftRight_eq_div_pow]

theorem withinLimits_iff {s : State} {c t l st cp tl : Nat} : withinLimits s c t l st cp tl = true ↔
    s.count c t .loads ≤ l ∧ s.count c t .stores ≤ st ∧ s.count c t .copies ≤ cp ∧ s.count c t .tileops ≤ tl := by
  simp [withinLimits, and_assoc]

/-- `wait` for its thread. -/
def waitAct (h : Hdr) (e : Env) (_ : DWord) (s : State) : Res :=
  match popFail s e.c e.t with
  | some (s', r) => .fail s' r
  | none =>
    let (l, st, cp, tl) := waitLimits h.imm
    if withinLimits s e.c e.t l st cp tl then .done (clearHazard s e.c e.t) else .wait s (.waits l st cp tl)
theorem exec_wait (h : Hdr) (s : State) : exec (.wait h) s = .next (perThread .app {} h (waitAct h) s) := rfl

section
variable {s : State} {b : Bundle} {t : Nat} {th : Thread} {h : Hdr} (rd : Ready s b t th .app {} h)
include rd

/-- What `wait` answers where its thread holds no failure. -/
theorem answers_wait (hf : th.fails = []) : Answers (.wait h) s b t th {} h
    (if withinLimits s b.core t (h.imm.toNat % 64) (h.imm.toNat / 256 % 64) (h.imm.toNat / 65536 % 64) (h.imm.toNat / 16777216 % 64)
      then .done (clearHazard s b.core t)
      else .wait s (.waits (h.imm.toNat % 64) (h.imm.toNat / 256 % 64) (h.imm.toNat / 65536 % 64) (h.imm.toNat / 16777216 % 64))) := by
  refine answers_perThread rd (exec_wait ..) ?_
  rw [waitAct, envOf]
  dsimp only
  rw [popFail_none (rd.thr.symm ▸ hf), waitLimits_eq]
end

/-! ### What `wait` reports (R201) -/

theorem popFail_cons {s : State} {c t : Nat} {f : Fail} {l : List Fail} (h : (s.thr c t).fails = f :: l) :
    popFail s c t = some (s.modThr c t fun th => { th with fails := l }, f.raise) := by rw [popFail, h]
/-- A failure other than an uncorrectable error is raised at its own address; the thread holds the others. -/
theorem wait_reports {s : State} {b : Bundle} {t : Nat} {th : Thread} {h : Hdr} (rd : Ready s b t th .app {} h) {f : Fail} {l : List Fail}
    (hf : th.fails = f :: l) (hc : f.code ≠ 0x14) :
    ∃ w, exec (.wait h) s = .next w ∧ (w.thr b.core t).park ≠ none ∧ (w.thr b.core t).pc = th.pc ∧ (w.thr b.core t).fails = l ∧
      (th.level = .app → ∃ r, (w.ctx b.core).recs = (s.ctx b.core).recs ++ [r] ∧ r.code = f.code ∧ r.pc = f.pc ∧ r.num = f.elem) := by
  generalize hv : (s.modThr b.core t fun th => { th with fails := l }) = v
  have hlive : v.thr? b.core t = some { th with fails := l } := by
    rw [← hv, State.thr?_modThr, if_pos ⟨rfl, rfl⟩, rd.live]
    rfl
  have hquiet : v.todo.contains (.rollback b.core (v.unitOf b.core t)) = false := by
    have hunit : v.unitOf b.core t = s.unitOf b.core t := by
      unfold State.unitOf
      rw [State.thr_of hlive, rd.thr]
      rfl
    have htodo : v.todo = s.todo := hv ▸ (congrArg State.todo (SameButReports.modThr ..) :)
    rw [hunit, htodo]
    exact rd.quiet
  have hact : waitAct h (envOf s b t {} h) th.pc s = .fail v f.raise := by
    rw [waitAct, envOf]
    dsimp only
    rw [popFail_cons (rd.thr.symm ▸ hf), hv]
  obtain ⟨n, hn⟩ := raises_perThread rd (beq_eq_false_iff_ne.2 hc) (exec_wait ..) hact hquiet
  obtain ⟨q, hq⟩ := thr_occupy v b n b.core t
  rw [hlive, Option.map_some] at hq
  have hpark := State.thr_of (thr?_parkSub hq f.raise)
  refine ⟨_, hn, ?_, ?_, ?_, fun hl => ⟨recOf (occupy v b n) b.core t f.raise, ?_, rfl, rfl, rfl⟩⟩
  · rw [hpark]
    exact nofun
  · rw [hpark]
  · rw [hpark]
  · obtain ⟨-, -, hrecs⟩ := ctx_parkSub (occupy v b n) b.core t f.raise
    rw [State.thr_of hq, if_pos hl] at hrecs
    have hframe := (frame_occupy v b n b.core).trans (hv ▸ frame_modThr ..)
    have hsame : ((occupy v b n).ctx b.core).recs = (s.ctx b.core).recs := (congrArg Ctx.recs hframe :)
    exact hrecs.trans (congrArg (· ++ _) hsame)

/-! ### The registers that no longer wait (R142) -/

/-- Whether an operation of the thread still has to write a register. -/
def hazardDue (s : State) (c t n : Nat) : Bool :=
  (((s.ctx c).ops.filter fun o => o.tid == t && o.retired.isNone).flatMap fun o => match o.body with
    | .along id => (((s.ctx c).ops.find? (·.id == id)).map (·.body.hazard)).getD []
    | b => b.hazard.filter fun n => n < 128 || o.low).contains n ||
  ((s.ctx c).sort.queue.filterMap fun q => match q.cmd with
    | .smatch _ d => if q.tids.contains t then some (dstHazard d 4) else none
    | _ => none).flatten.contains n
theorem hazardDue_idle {s : State} {c t : Nat}
    (ho : ∀ p ∈ (s.ctx c).ops, p.tid = t → p.retired = none → p.body.hazard = [] ∧ ∀ j, p.body ≠ .along j) (hs : (s.ctx c).sort.queue = [])
    (n : Nat) : hazardDue s c t n = false := by
  unfold hazardDue
  rw [hs, Bool.or_eq_false_iff]
  refine ⟨?_, rfl⟩
  rw [List.flatMap_eq_nil_iff.2 fun o hmem => ?_]
  · rfl
  · obtain ⟨hin, hown⟩ := List.mem_filter.1 hmem
    simp only [Bool.and_eq_true, beq_iff_eq, Option.isNone_iff_eq_none] at hown
    obtain ⟨hnone, halong⟩ := ho o hin hown.1 hown.2
    split
    · next j hj => exact absurd hj (halong j)
    · rw [hnone]
      rfl
/-- The registers of the thread and of its group that no longer wait. -/
def freeHazards (s : State) (c t : Nat) (due : Nat → Bool) : State :=
  let v := s.modThr c t fun th => { th with hazard := th.hazard.filter due }
  match (v.thr c t).grp with
  | some g => v.modGroup c g.1 fun gr => { gr with hazard := gr.hazard.filter fun p => !p.2.contains t || due (128 + p.1) }
  | none => v
theorem clearHazard_eq (s : State) (c t : Nat) : clearHazard s c t =
    (freeHazards s c t (hazardDue s c t)).modCtx c fun x =>
      { x with loose := x.loose.map fun q => if q.wb = some t then { q with wb := none, seen := q.seen ++ [t] } else q } := rfl
theorem thr?_clearHazard (s : State) (c t : Nat) : (clearHazard s c t).thr? c t =
    (s.thr? c t).map fun th => { th with hazard := th.hazard.filter (hazardDue s c t) } := by
  have hfree : (freeHazards s c t (hazardDue s c t)).thr? c t =
      (s.thr? c t).map fun th => { th with hazard := th.hazard.filter (hazardDue s c t) } := by
    unfold freeHazards
    dsimp only
    split
    · rw [State.thr?_modGroup, State.thr?_modThr, if_pos ⟨rfl, rfl⟩]
    · rw [State.thr?_modThr, if_pos ⟨rfl, rfl⟩]
  rw [← hfree, clearHazard_eq, State.thr?, State.ctx_modCtx, if_pos rfl]
  rfl
theorem group?_clearHazard {s : State} {c t : Nat} {g : Nat × Nat} {gr : Group} (hg : (s.thr c t).grp = some g) (hgr : s.group? c g.1 = some gr) :
    (clearHazard s c t).group? c g.1 =
      some { gr with hazard := gr.hazard.filter fun p => !p.2.contains t || hazardDue s c t (128 + p.1) } := by
  rw [clearHazard_eq, group?_modCtx rfl, freeHazards]
  have hgrp : ((s.modThr c t fun th => { th with hazard := th.hazard.filter (hazardDue s c t) }).thr c t).grp = some g := by
    rw [← hg, State.thr, State.thr?_modThr, if_pos ⟨rfl, rfl⟩, State.thr]
    cases s.thr? c t <;> rfl
  rw [hgrp]
  exact State.group?_modGroup_self ((State.group?_modThr ..).trans hgr) _

/-! ### `inv` and `flush` (R151, R152) -/

/-- A `flush` that has room. -/
def flushAct (h : Hdr) (a q : Src) (e : Env) (pc : DWord) (s : State) : Res :=
  match rangeOf s e h a q with
  | none => raise s 0x03 (BitVec.ofNat 64 (addrOf s e h .g a))
  | some (va, n) =>
    if n = 0 then .done s
    else match flushCheck s e.c (s.actWorld e.c e.t) va n with
      | .error (x, p) => raise s x (BitVec.ofNat 64 p)
      | .ok _ => .done (addOp s e.c e.t .stores pc (.flush va n)).1
theorem rangeOf_none {s : State} {e : Env} (h : Hdr) (a q : Src) (hb : addrOf s e h .g a % 128 ≠ 0 ∨ (rdWord s e h q).toNat % 128 ≠ 0) :
    rangeOf s e h a q = none := if_pos hb
theorem rangeOf_some {s : State} {e : Env} (h : Hdr) (a q : Src) (ha : addrOf s e h .g a % 128 = 0) (hn : (rdWord s e h q).toNat % 128 = 0) :
    rangeOf s e h a q = some (addrOf s e h .g a, (rdWord s e h q).toNat) := if_neg (by omega)

section
variable {s : State} {b : Bundle} {t : Nat} {th : Thread} {h : Hdr} {a q : Src} {u : Uses} {e : Env}
  (hu : u = { srcs := wide true [a] ++ one [q] }) (he : e = envOf s b t u h) (rd : Ready s b t th .app u h)
include hu he rd

theorem inv_refused (hb : addrOf s e h .g a % 128 ≠ 0 ∨ (rdWord s e h q).toNat % 128 ≠ 0) : Raises (.inv h a q) s b t 0x03 := by
  subst hu he
  refine (answers_perThread rd rfl ?_).fail
    (x := raiseAt (addrOf s (envOf s b t { srcs := wide true [a] ++ one [q] } h) h .g a) 0x03) rfl rfl rfl rfl
  rw [rangeOf_none h a q hb]
  rfl
theorem inv_drops (ha : addrOf s e h .g a % 128 = 0) (hn : (rdWord s e h q).toNat % 128 = 0) :
    Ends (.inv h a q) s b t u h (s.modCore b.core fun k =>
      { k with l1 := k.l1.filter fun l => !rangesMeet l.va 128 (addrOf s e h .g a) (rdWord s e h q).toNat
               fbuf := k.fbuf.filter fun l => !rangesMeet l.va 64 (addrOf s e h .g a) (rdWord s e h q).toNat
               ccache := k.ccache.filter fun l => !rangesMeet l.va 128 (addrOf s e h .g a) (rdWord s e h q).toNat }) := by
  subst hu he
  refine (answers_perThread rd rfl ?_).done rfl (x := th) ?_ rfl
  · rw [rangeOf_some h a q ha hn]
    rfl
  · exact (CachesOnly.thr? (.modCore rfl) ..).trans rd.live

theorem flush_full (hn : (rdWord s e h q).toNat ≠ 0) (hc : s.count b.core t .stores ≥ 63) :
    Waits (.flush h a q) s b t u h (.retry (.room .stores)) s := by
  subst hu he
  exact waits_of_act rd rfl (if_pos ⟨fun h => hn (congrArg BitVec.toNat h), hc⟩)

section
variable (hroom : (rdWord s e h q).toNat = 0 ∨ s.count b.core t .stores < 63)
include hroom

theorem answers_flush : Answers (.flush h a q) s b t th u h (flushAct h a q e th.pc s) := by
  subst hu he
  exact answers_perThread rd rfl (if_neg fun ⟨hn, hc⟩ => hroom.elim (fun h0 => hn (BitVec.eq_of_toNat_eq h0)) (Nat.not_lt.2 hc))
theorem flush_refused (hb : addrOf s e h .g a % 128 ≠ 0 ∨ (rdWord s e h q).toNat % 128 ≠ 0) : Raises (.flush h a q) s b t 0x03 := by
  refine (answers_flush hu he rd hroom).fail (x := raiseAt (addrOf s e h .g a) 0x03) ?_ rfl rfl rfl
  rw [flushAct, rangeOf_none h a q hb]
  rfl
theorem flush_nothing (ha : addrOf s e h .g a % 128 = 0) (hn : (rdWord s e h q).toNat = 0) : Ends (.flush h a q) s b t u h s := by
  refine (answers_flush hu he rd hroom).done ?_ rd.live rfl
  rw [flushAct, rangeOf_some h a q ha (by rw [hn])]
  exact if_pos hn

variable (ha : addrOf s e h .g a % 128 = 0) (hal : (rdWord s e h q).toNat % 128 = 0) (hn : (rdWord s e h q).toNat ≠ 0)
include ha hal hn
theorem flush_raises {x : BitVec 6} {p : Nat}
    (hx : flushCheck s b.core (s.actWorld b.core t) (addrOf s e h .g a) (rdWord s e h q).toNat = .error (x, p)) :
    Raises (.flush h a q) s b t x := by
  refine (answers_flush hu he rd hroom).fail (x := raiseAt p x) ?_ rfl rfl rfl
  subst he
  rw [flushAct, rangeOf_some h a q ha hal]
  refine (if_neg hn).trans ?_
  rw [envOf] at hx ⊢
  rw [hx]
  rfl
theorem flush_counted (hx : flushCheck s b.core (s.actWorld b.core t) (addrOf s e h .g a) (rdWord s e h q).toNat = .ok ()) :
    Ends (.flush h a q) s b t u h (addOp s b.core t .stores th.pc (.flush (addrOf s e h .g a) (rdWord s e h q).toNat)).1 := by
  refine (answers_flush hu he rd hroom).done ?_ ((thr?_addOp ..).trans rd.live) rfl
  subst he
  rw [flushAct, rangeOf_some h a q ha hal]
  refine (if_neg hn).trans ?_
  rw [envOf] at hx ⊢
  rw [hx]
end
end

/-- Settles O26: each instruction by the cases of its answer, and the registers that `wait` frees. -/
theorem orderAndRanges : Obligations.OrderAndRanges := by
  intro s b t th h a q ev ord sc c
  subst c
  refine ⟨fun rd => ⟨fun x hx => prf_dropped rfl rfl rd hx, fun s' hs hok => ⟨fun hh => ?_, fun x hf => prf_waits rfl rfl rd hok hf⟩⟩,
    fun rd => ⟨fence_waits rd, fence_ends rd, fun hf hl hst hcp htl => ?_, fun hf hex => ?_, fun f l hf hc => wait_reports rd hf hc⟩,
    fun ho hs => ⟨?_, fun g gr hg hgr => ⟨_, group?_clearHazard hg hgr, ?_⟩⟩,
    fun rd => ⟨inv_refused rfl rfl rd, inv_drops rfl rfl rd, flush_full rfl rfl rd, fun hroom => ⟨flush_refused rfl rfl rd hroom,
      flush_nothing rfl rfl rd hroom, fun ha hal hn => ⟨fun x p hx => flush_raises rfl rfl rd hroom ha hal hn hx,
        flush_counted rfl rfl rd hroom ha hal hn⟩⟩⟩⟩
  · obtain ⟨v, hends, hv⟩ := prf_fills (ev := ev) rfl rfl rd hok (List.find?_eq_none.2 fun x hx =>
      (Bool.not_eq_true _).mpr ((Bool.not_eq_true' _).mp (List.all_eq_true.1 hh x hx)))
    exact ⟨v, hends, congrArg Ctx.ops (hv.ctx _), congrArg Ctx.scratch (hv.ctx _), hv.parts⟩
  · refine (answers_wait rd hf).done (if_pos (withinLimits_iff.2 ⟨hl, hst, hcp, htl⟩))
      ((thr?_clearHazard ..).trans (congrArg _ rd.live)) rfl
  · refine ⟨_, _, _, _, (answers_wait rd hf).wait (if_neg ?_)⟩
    rw [withinLimits_iff]
    omega
  · rw [State.thr, thr?_clearHazard]
    cases s.thr? b.core t with
    | none => rfl
    | some th => exact List.filter_eq_nil_iff.2 fun n _ => Bool.eq_false_iff.1 (hazardDue_idle ho hs n)
  · simp only [hazardDue_idle ho hs, Bool.or_false]

end Sys2Proof.Machine
end
